-- ==== Sys2Proof/Word.lean ====
section
/-! DEFINITION. The word and byte types of the machine (R5, R13). -/

namespace Sys2Proof

/-- A 64-bit register (R13). -/
abbrev Word := BitVec 64

/-- One byte of storage (R5, R278). -/
abbrev Byte := BitVec 8

/-- The value of an x register field, pattern field or memory field as the spec's pseudocode reads it: a natural number (R7). -/
abbrev Field := Nat

end Sys2Proof
end

