-- ==== Sys2Proof/Machine/Bits.lean ====
section
/-! DEFINITION. The bit-field, extension, saturation and list helpers of the pseudocode (R7, R8), over natural numbers and integers. -/

namespace Sys2Proof

/-- `bits(v, hi, lo)` of R8. -/
def bits (v hi lo : Nat) : Nat := v / 2 ^ lo % 2 ^ (hi + 1 - lo)

/-- `zext(v, n)` of R8. -/
def zext (v n : Nat) : Nat := v % 2 ^ n

/-- `sext(v, n)` of R8. -/
def sext (v n : Nat) : Int := if v % 2 ^ n < 2 ^ (n - 1) then (v % 2 ^ n : Nat) else ((v % 2 ^ n : Nat) : Int) - 2 ^ n

/-- `wrap(v, n)` of R8. -/
def wrap (v : Int) (n : Nat) : Nat := (v % 2 ^ n).toNat

/-- `sat(v, lo, hi)` of R8. -/
def sat (v lo hi : Int) : Int := if v < lo then lo else if hi < v then hi else v

/-- Bit k of v. -/
def bit (v k : Nat) : Bool := v / 2 ^ k % 2 == 1

/-- A Bool as a number, as records and status words hold it. -/
def b2n (b : Bool) : Nat := if b then 1 else 0

/-- The quotient rounded up. -/
def cdiv (a b : Nat) : Nat := (a + b - 1) / b

/-- floor(log2 v), 0 for 0. -/
def flog2 (v : Nat) : Nat := Nat.log2 v

/-- n bytes of v, least significant first (R5). -/
def toBytes (v : Nat) : Nat → List Byte
  | 0 => []
  | n + 1 => BitVec.ofNat 8 v :: toBytes (v / 256) n

/-- The value of bytes, least significant first (R5). -/
def ofBytes : List Byte → Nat
  | [] => 0
  | b :: t => b.toNat + 256 * ofBytes t

/-- Scope identifier: lo and hi (R34). -/
def scLo (s : Nat) : Nat := bits s 31 16

/-- hi of a scope identifier (R34). -/
def scHi (s : Nat) : Nat := bits s 15 0

/-- lo <= hi in a valid identifier (R34). -/
def scValid (s : Nat) : Bool := decide (s < 2 ^ 32) && decide (scLo s ≤ scHi s)

/-- `contains(s, t)` of R8 and R35: LO(s) ≤ LO(t) and HI(t) ≤ HI(s), so a scope contains itself. -/
def contains (s t : Nat) : Bool := decide (scLo s ≤ scLo t) && decide (scHi t ≤ scHi s)

/-- A tag g lies in the subtree of s (R35): a cancel of s takes the task, entry or message that carries g. -/
def covTag (s g : Nat) : Bool := decide (scLo s ≤ g) && decide (g ≤ scHi s)

/-- Two intervals overlap (R258, R320). -/
def scOverlap (s t : Nat) : Bool := decide (scLo s ≤ scHi t) && decide (scLo t ≤ scHi s)

/-- The quarter masks of R85. -/
def qmaskOk (q : Nat) : Bool := [1, 2, 4, 8, 3, 12, 15].contains q

/-- The quarters of a mask, ascending. -/
def quartersOf (q : Nat) : List Nat := (List.range 4).filter (bit q)

/-- Two masks share a quarter. -/
def masksMeet (p q : Nat) : Bool := (quartersOf p).any (bit q)

/-- The index of the first true entry. -/
def firstTrue (l : List Bool) : Option Nat := l.findIdx? id

/-- Interleave of j bits of each coordinate (R32, R114): bit j of coordinate k lies at bit n*j + k. -/
def interleave (n : Nat) (cs : List Nat) (width : Nat) : Nat :=
  ((List.range width).map fun j => ((List.range cs.length).map fun k => b2n (bit (cs.getD k 0) j) * 2 ^ (n * j + k)).sum).sum

/-- The inverse of `interleave` for coordinate k (R115). -/
def deinterleave (n k v width : Nat) : Nat :=
  ((List.range width).map fun j => b2n (bit v (n * j + k)) * 2 ^ j).sum

/-- Replace the first entry that satisfies p. -/
def replaceFirst {α : Type} (p : α → Bool) (f : α → α) : List α → List α
  | [] => []
  | a :: t => if p a then f a :: t else a :: replaceFirst p f t

/-- Remove the first entry that satisfies p. -/
def removeFirst {α : Type} (p : α → Bool) : List α → List α
  | [] => []
  | a :: t => if p a then t else a :: removeFirst p t

/-- The first entry that satisfies p, and the list without it. -/
def takeFirst {α : Type} (p : α → Bool) : List α → Option (α × List α)
  | [] => none
  | a :: t => if p a then some (a, t) else (takeFirst p t).map fun r => (r.1, a :: r.2)

/-- The smallest entry under a strict order given as a Bool; the earlier one on a tie. -/
def bestOf {α : Type} (lt : α → α → Bool) : List α → Option α
  | [] => none
  | a :: t => match bestOf lt t with
    | none => some a
    | some b => if lt b a then some b else some a

/-- Insertion by a strict order, stable. -/
def insertBy {α : Type} (lt : α → α → Bool) (a : α) : List α → List α
  | [] => [a]
  | b :: t => if lt a b then a :: b :: t else b :: insertBy lt a t

/-- Stable sort by a strict order. -/
def sortBy {α : Type} (lt : α → α → Bool) (l : List α) : List α := l.foldr (fun a acc => insertBy (fun x y => !lt y x) a acc) []

/-! The check value (R95). -/

/-- One bit enters the CRC register of polynomial 0x1021. -/
def crcStep (c : Nat) (b : Bool) : Nat := if bit c 15 != b then (2 * c % 65536) ^^^ 0x1021 else 2 * c % 65536

/-- The check value of a 128-bit unit: bits 127 down to 0 from the initial value 0xFFFF (R95). -/
def crc16 (v : Nat) : Nat := (List.range 128).foldl (fun c k => crcStep c (bit v (127 - k))) 0xFFFF

end Sys2Proof
end

