-- ==== Sys2Proof/Syntax.lean ====
section
/-! DEFINITION. The instructions of the machine: one constructor per row of spec/opcode_table.json. The first 143 constructors
are the sequencer instructions (R73 to R89), the others are the hardware's own steps (95_what_each_step_holds.md), which no word
encodes. A register field is a natural number: `WellFormed` says which numbers a field may hold. -/

namespace Sys2Proof

/-- The type field of majors 0x10 and 0x11 and of CLZ, CTZ, POPC, ADDI to SHAI: 64-bit, `.w`, `.wn` (R75). -/
inductive IntTy where
  | x | w | wn
  deriving DecidableEq, Repr

/-- Source width of SEXT and ZEXT (R75). -/
inductive ExtW where
  | b8 | b16 | b32
  deriving DecidableEq, Repr

/-- Scalar float format: `.d` binary64, `.s` binary32 (R75). -/
inductive FFmt where
  | d | s
  deriving DecidableEq, Repr

/-- Rounding code of a float instruction: FMODE or a fixed mode (R75). -/
inductive RmCode where
  | fmode | rne | rtz | rup | rdn
  deriving DecidableEq, Repr

/-- Relation of FCMP (R75, R119). -/
inductive FRel where
  | eq | lt | le | un
  deriving DecidableEq, Repr

/-- Conversion of FCVT, named target_source (R75): `h` is binary16, `bf` is BF16, `i` and `n` are i64 and n64. -/
inductive Conv where
  | d_s | s_d | d_i | s_i | d_n | s_n | i_d | i_s | n_d | n_s | s_h | h_s | s_bf | bf_s
  deriving DecidableEq, Repr

/-- Relation of BC codes 0 to 5 and of PSET (R83, R75). -/
inductive Rel where
  | eq | ne | lt | ge | ltn | gen
  deriving DecidableEq, Repr

/-- Condition of BC (R83). -/
inductive BCond where
  | rel (r : Rel) (a b : Nat)
  | p (k : Nat)
  | np (k : Nat)
  deriving DecidableEq, Repr

/-- Width code of a load or store (R80). -/
inductive Wop where
  | b8 | b16 | b32 | b64 | b128 | f32 | f64 | i8 | i16 | i32
  deriving DecidableEq, Repr

/-- Ordering annotation of a memory word (R73, R132). -/
inductive Ord where
  | plain | acq | rel | ar | sc
  deriving DecidableEq, Repr

/-- Operation of an atomic (R81). -/
inductive AmoOp where
  | add | and | or | xor | swap | cas | mini | maxi | minn | maxn
  deriving DecidableEq, Repr

/-- The operand fields of a load or store (format M, R73). `off` is the 32-bit pattern of the offset. -/
structure MemArgs where
  w : Wop
  ord : Ord
  data : Nat
  base : Nat
  index : Nat
  scale : Nat
  off : Nat
  deriving DecidableEq, Repr

/-- The operand fields of an atomic (R81). `src` is the register s, `wide` selects .b64. -/
structure AmoArgs where
  op : AmoOp
  wide : Bool
  ord : Ord
  data : Nat
  base : Nat
  src : Nat
  off : Nat
  deriving DecidableEq, Repr

/-- Scope of a fence or of a group (R149, R33, R279). -/
inductive Scope where
  | tile | cluster | partition | device | system
  deriving DecidableEq, Repr

/-- Kind of a fence (R149). -/
inductive FenceKind where
  | acq | rel | ar
  deriving DecidableEq, Repr

/-- Space of PATLD: .g, .l, .s (R232). -/
inductive PatSpace where
  | g | l | s
  deriving DecidableEq, Repr

/-- Field of PATSET and PATGET (R233). -/
inductive PatField where
  | base | ctrl | d0 | d1 | d2 | d3 | copy | add
  deriving DecidableEq, Repr

/-- The fields of a stream or copy command (format Q with the transfer flags of R230). A field the form does not use is 0. -/
structure QArgs where
  queue : Nat
  pa : Nat
  pb : Nat
  xs : Nat
  xt : Nat
  qd : Nat
  ctr : Nat
  csp : Nat
  rm : Nat
  sat : Bool
  grp : Bool
  aux : Nat
  port : Nat
  deriving DecidableEq, Repr

/-- The weave word (R86, R166). -/
structure Weave where
  aw : Nat
  bw : Nat
  ak : Nat
  bk : Nat
  flow : Nat
  win : Nat
  acc : Nat
  scl : Nat
  spr : Nat
  ga : Bool
  gb : Bool
  stk : Bool
  red : Nat
  lanes : Nat
  eop : Nat
  rx : Nat
  ry : Nat
  deriving DecidableEq, Repr

/-- A binding word (R88): `egress` is DIR. -/
structure Bind where
  egress : Bool
  port : Nat
  pat : Nat
  queue : Nat
  ctr : Nat
  deriving DecidableEq, Repr

/-- A block header with its extension words (R73, R85 to R89, R165). `loops` holds the TRIPS values, level 0 first. -/
structure BlockArgs where
  qmask : Nat
  folio : Nat
  hold : Bool
  keep : Bool
  sat : Bool
  rm : Nat
  weave : Weave
  loops : List Nat
  binds : List Bind
  deriving DecidableEq, Repr

/-- The source of an SPDM or vendor request (R384, R385): a virtual function, the physical function, the management interface,
or a secure session whose requester key hashes to the given value. -/
inductive Requester where
  | vf (part : Nat)
  | pf
  | mgmt
  | session (keyHash : Nat)
  deriving DecidableEq, Repr

/-- The instructions and hardware steps of the module, one constructor per row of the opcode table. -/
inductive Instr where
  -- major 0x10 (R112, R113)
  | add (ty : IntTy) (d a b : Nat)
  | sub (ty : IntTy) (d a b : Nat)
  | mul (ty : IntTy) (d a b : Nat)
  | mulh (ty : IntTy) (d a b : Nat)
  | mulhn (ty : IntTy) (d a b : Nat)
  | div (ty : IntTy) (d a b : Nat)
  | divn (ty : IntTy) (d a b : Nat)
  | rem (ty : IntTy) (d a b : Nat)
  | remn (ty : IntTy) (d a b : Nat)
  | min (ty : IntTy) (d a b : Nat)
  | max (ty : IntTy) (d a b : Nat)
  | minn (ty : IntTy) (d a b : Nat)
  | maxn (ty : IntTy) (d a b : Nat)
  -- major 0x11
  | and (ty : IntTy) (d a b : Nat)
  | or (ty : IntTy) (d a b : Nat)
  | xor (ty : IntTy) (d a b : Nat)
  | andn (ty : IntTy) (d a b : Nat)
  | orn (ty : IntTy) (d a b : Nat)
  | shl (ty : IntTy) (d a b : Nat)
  | shr (ty : IntTy) (d a b : Nat)
  | sha (ty : IntTy) (d a b : Nat)
  | cmpeq (ty : IntTy) (d a b : Nat)
  | cmplt (ty : IntTy) (d a b : Nat)
  | cmpltn (ty : IntTy) (d a b : Nat)
  | csel (d a b c : Nat)
  | mov (d a : Nat)
  -- major 0x12 (R114)
  | clz (ty : IntTy) (d a : Nat)
  | ctz (ty : IntTy) (d a : Nat)
  | popc (ty : IntTy) (d a : Nat)
  | sext (w : ExtW) (d a : Nat)
  | zext (w : ExtW) (d a : Nat)
  | addx (shift d a b : Nat)
  | morton (three : Bool) (d a b c : Nat)
  -- major 0x18 (R115)
  | addi (ty : IntTy) (d a imm : Nat)
  | andi (ty : IntTy) (d a imm : Nat)
  | ori (ty : IntTy) (d a imm : Nat)
  | xori (ty : IntTy) (d a imm : Nat)
  | shli (ty : IntTy) (d a n : Nat)
  | shri (ty : IntTy) (d a n : Nat)
  | shai (ty : IntTy) (d a n : Nat)
  | li (d imm : Nat)
  | lui (d a imm : Nat)
  | bext (d a pos len : Nat)
  | bins (d a pos len : Nat)
  | demorton (three : Bool) (d a k : Nat)
  -- major 0x30 (R117)
  | fadd (f : FFmt) (rm : RmCode) (d a b : Nat)
  | fsub (f : FFmt) (rm : RmCode) (d a b : Nat)
  | fmul (f : FFmt) (rm : RmCode) (d a b : Nat)
  | ffma (f : FFmt) (rm : RmCode) (d a b c : Nat)
  | fdiv (f : FFmt) (rm : RmCode) (d a b : Nat)
  | fsqrt (f : FFmt) (rm : RmCode) (d a : Nat)
  | fmin (f : FFmt) (d a b : Nat)
  | fmax (f : FFmt) (d a b : Nat)
  | fcmp (f : FFmt) (r : FRel) (d a b : Nat)
  | fcvt (c : Conv) (rm : RmCode) (d a : Nat)
  | fclass (f : FFmt) (d a : Nat)
  | fmovx (f : FFmt) (d a : Nat)
  | fmovf (f : FFmt) (d a : Nat)
  -- majors 0x40 to 0x44 (R123); woff is the 32-bit pattern
  | bc (c : BCond) (woff : Nat)
  | jmp (woff : Nat)
  | call (link woff : Nat)
  | jmpx (link a : Nat)
  | ret (a : Nat)
  | loop (a woff : Nat)
  -- major 0x48 (R126)
  | pset (r : Rel) (d a b : Nat)
  | pand (d a b : Nat)
  | por (d a b : Nat)
  | pnot (d a : Nat)
  -- major 0x4C (R127)
  | rds (d n : Nat)
  | wrs (n a : Nat)
  -- majors 0x50 to 0x5E (R129)
  | ldg (m : MemArgs)
  | stg (m : MemArgs)
  | amog (m : AmoArgs)
  | ldl (m : MemArgs)
  | stl (m : MemArgs)
  | amol (m : AmoArgs)
  | stx (m : MemArgs)
  | amox (m : AmoArgs)
  | lda (m : MemArgs)
  | sta (m : MemArgs)
  | lds (m : MemArgs)
  | sts (m : MemArgs)
  | amos (m : AmoArgs)
  | ldh (m : MemArgs)
  | sth (m : MemArgs)
  -- majors 0x60 to 0x62 (R145, R149, R152); `loc` selects .l
  | cadd (loc : Bool) (d a b : Nat)
  | cwait (loc : Bool) (d a b : Nat)
  | cread (loc : Bool) (d a : Nat)
  | fence (sc : Scope) (k : FenceKind)
  | arrive (d g : Nat)
  | wait (d a g : Nat)
  | arrwait (d g : Nat)
  | gquery (d g : Nat)
  -- major 0x70 (R229)
  | patld (sp : PatSpace) (pd xs : Nat)
  | patset (f : PatField) (pd src : Nat)
  | patget (f : PatField) (pa xd : Nat)
  -- major 0x71
  | streamIn (q : QArgs)
  | streamOut (q : QArgs)
  | streamRec (q : QArgs)
  | streamConst (q : QArgs)
  | streamDrop (q : QArgs)
  | streamInd (q : QArgs)
  -- major 0x72
  | sbarRd (q qd qmask : Nat)
  | sbarWr (q qd qmask : Nat)
  | sbarAll (q qd qmask : Nat)
  | scond (q xt qd ctr csp : Nat) (inv : Bool) (skip : Nat)
  -- major 0x80
  | copy (q : QArgs)
  | mcopy (q : QArgs)
  | rcopy (q : QArgs)
  -- major 0x81
  | stitch (q qd mask : Nat)
  | qwait (mask : Nat)
  | qstat (q xd sel : Nat) (clr : Bool)
  -- major 0x90 (R254, R258, R264)
  | spawn (xr xst xq : Nat)
  | spawnn (xr xst xq count : Nat)
  | launch (xd xq : Nat)
  | cancel (xs xa xq : Nat)
  -- major 0x91 (R261, R269)
  | yield
  | exit (loc : Bool) (a b : Nat)
  | scopeSet (d p c : Nat)
  | scopeSplit (d p c : Nat)
  | chkc
  | squery (d a : Nat)
  -- major 0xA0 (R270, R274 to R276)
  | trap (a n : Nat)
  | tret
  | tretN
  | prio (reg : Bool) (v : Nat)
  | mtrd (d m : Nat)
  | halt (code : Nat)
  | nop
  -- majors 0xB0 to 0xB5 (R85)
  | blockMWs (b : BlockArgs)
  | blockMOs (b : BlockArgs)
  | blockE (b : BlockArgs)
  | blockA (b : BlockArgs)
  | blockS (b : BlockArgs)
  | blockZ (b : BlockArgs)
  | blockG (b : BlockArgs)
  -- major 0xB8 (R190, R193)
  | cfgld (qmask folio : Nat)
  | cfgsw (qmask : Nat)
  | bdrain (qmask : Nat)
  | bstat (d qmask sel : Nat)
  | spine (qmask : Nat) (win : Option Nat) (acc : Nat)
  | accrd (qmask ep : Nat) (clr : Bool) (rm : Nat) (sat : Bool)
  | accclr (qmask : Nat)
  -- hardware steps of a context or tile; t is a tile (die * 128 + label), c a context
  | fetchFault (t c : Nat)
  | deferredTrap (t c : Nat)
  | loadResultReturn (t c id : Nat)
  | ldhTimeout (t c id : Nat)
  | contextWake (t c : Nat)
  | taskBind (t : Nat)
  | taskPublicationArrival (n : Nat)
  | dependenceCheck (t : Nat)
  | copyStart (t q : Nat)
  | copyBeat (t q : Nat)
  | transferRetire (t q : Nat)
  | streamDispatch (t q : Nat)
  | streamBeat (t q id : Nat)
  | gatePass (t q : Nat)
  | counterContributionFlit (t : Nat)
  | blockRunStart (t : Nat)
  | folioLoadComplete (t qmask : Nat)
  | switchSweepComplete (t qmask : Nat)
  | blockBeat (t qmask : Nat)
  | instanceComplete (t qmask : Nat)
  | scanOutComplete (t qmask : Nat)
  | elementCycle (t : Nat)
  | memoryNodeComplete (t id : Nat)
  | activeMessageArrival (t : Nat)
  -- network steps of a die
  | networkCycle (die : Nat)
  | ageTick (die : Nat)
  | creditDraw (die part point : Nat)
  | creditReturn (die part : Nat)
  | crossbarCrossing (die n : Nat)
  | remoteStoreApply (t : Nat)
  | remoteAtomicApply (t : Nat)
  | acknowledgementReceipt (t : Nat)
  | gatherFlitArrival (t : Nat)
  | windowUpdateReceipt (t : Nat)
  | streamEndReceipt (t : Nat)
  | poisonFillTimeout (t port : Nat)
  | drainTokenArrival (part n : Nat)
  | memoryAccessAtHome (t c id : Nat) (hostError : Bool)
  | barrierArrivalAtHome (n : Nat)
  | barrierReleaseArrival (n : Nat)
  -- cancellation and pre-emption
  | cancelRegistration (no t : Nat)
  | taskKill (t c : Nat)
  | trapModeKillTimeout (t c : Nat)
  | cancelTileReport (no t : Nat)
  | cancelAckWrite (no : Nat)
  | preemptHoldRequest (t : Nat)
  | preemptSwitchRequest (t : Nat)
  | resumeRequest (part : Nat)
  | stateSaveComplete (part : Nat)
  | restoreComplete (part : Nat)
  | sliceExpiry (part : Nat)
  | deadlinePreemption (part : Nat)
  -- launches
  | launchWindowWrite (part desc : Nat)
  | partialWindowWrite (part : Nat)
  | launchPacket (packet : Nat)
  | loaderPlacement (lid : Nat)
  | launchEnd (lid : Nat)
  -- map requests and migration; req is the 512-bit record of R306
  | mapRequestMap (part req : Nat)
  | mapRequestUnmap (part req : Nat)
  | mapRequestProtect (part req : Nat)
  | mapRequestMigrate (part req : Nat)
  | mapRequestOrder (part req : Nat)
  | invalidationComplete (part : Nat)
  | migrationSpliceBeat (part : Nat)
  | migrationRedirect (part : Nat)
  | migrationDone (part : Nat)
  -- BAR 0
  | ctrlSuspend (part : Nat)
  | ctrlResume (part : Nat)
  | routerStatusWrite (part k : Nat)
  | registerWrite (part off val : Nat)
  | linkTransferWrite (part req : Nat)
  | linkTransferRead (part req : Nat)
  -- host and links
  | hostWriteTlp (part pa : Nat) (bytes : List Nat) (ep : Bool)
  | hostReadTlp (part pa n : Nat)
  | cxlReadReturn (t c id : Nat) (poisoned : Bool)
  | d2dFrameReceipt (link : Nat) (toHigh : Bool)
  | frameReplay (link : Nat) (toHigh : Bool)
  | linkDown (link : Nat)
  | quoteExpiryCompletion (t q id : Nat)
  | flushMarkerReturn (link : Nat)
  | meterFold
  -- Clasp calls and module events
  | submitConfiguration (record sig key newKey : Nat)
  | submitSparing (kind die unit index : Nat) (fence : Bool)
  | submitSchedulingRecord (part rec : Nat)
  | partitionControl (part op : Nat)
  | dieReset (die : Nat)
  | retrainLink (link : Nat)
  | readRouterStatus (t : Nat)
  | checkpoint
  | readErrorLog
  | selfTest (n : Nat) (pass : Bool)
  | hbmScrub (stack sector : Nat)
  | powerOn
  | temperatureWarning (die : Nat)
  | temperatureShutdown (die : Nat)
  | clockCycle (die : Nat)
  | arrivalAnswer (t c : Nat)
  | peerLinkTransfer (peer ppart : Nat) (dirRead : Bool) (part rva len : Nat) (data : List Nat)
  | zeroLengthReadCompletion (t c : Nat)
  -- SPDM and vendor requests
  | getVersion (r : Requester)
  | getCapabilities (r : Requester)
  | negotiateAlgorithms (r : Requester) (offer : List String)
  | getDigests (r : Requester)
  | getCertificate (r : Requester)
  | challenge (r : Requester) (nonce : Nat)
  | getMeasurements (r : Requester) (index : Nat)
  | keyExchange (r : Requester) (keyHash share : Nat)
  | finish (r : Requester) (proof : Nat)
  | endSession (r : Requester)
  | getcolo (r : Requester) (part nonce : Nat)
  | setcaps (r : Requester) (part : Nat) (caps : List Nat)
  | getcaps (r : Requester) (part : Nat)
  deriving DecidableEq, Repr

end Sys2Proof
end

