-- ==== Sys2Proof/WellFormed.lean ====
section
/-! DEFINITION. Which terms of `Instr` are instructions of the machine: the field limits of R73 to R89. A hardware step carries no
encoded field: it is well-formed whatever numbers it names. -/

namespace Sys2Proof

/-- An x field (R74). -/
def xOk (r : Nat) : Bool := decide (r < 32)
/-- An f field (R74). -/
def fOk (r : Nat) : Bool := decide (r < 16)
/-- A b field (R74). -/
def bOk (r : Nat) : Bool := decide (r < 8)
/-- A p field, a queue or a port (R73, R74). -/
def pOk (r : Nat) : Bool := decide (r < 16)
/-- A 32-bit immediate pattern (R73). -/
def immOk (v : Nat) : Bool := decide (v < 2 ^ 32)

/-- The ord codes a load, a store or an atomic accepts (R129). -/
def ordLoadOk (o : Ord) : Bool := o == .plain || o == .acq || o == .sc
/-- The ord codes of a store (R129). -/
def ordStoreOk (o : Ord) : Bool := o == .plain || o == .rel || o == .sc

/-- The wop codes of a load (R129); `host` is LDH, which has no .b128 (R80). -/
def wopLoadOk (host : Bool) (w : Wop) : Bool := !(host && w == .b128)
/-- The wop codes of a store (R80, R129). -/
def wopStoreOk (host : Bool) (w : Wop) : Bool := !(host && w == .b128) && !(w == .i8 || w == .i16 || w == .i32)

/-- The data field of a load or store (R74, R80). -/
def memDataOk (w : Wop) (data : Nat) : Bool :=
  match w with
  | .b128 => xOk data && data % 2 == 0
  | .f32 | .f64 => fOk data
  | _ => xOk data

/-- The address fields of a load or store (R79). -/
def memAddrOk (m : MemArgs) : Bool :=
  xOk m.base && xOk m.index && decide (m.scale < 4) && (m.index != 0 || m.scale == 0) && immOk m.off

/-- A load word (R79, R80, R129). -/
def loadOk (host : Bool) (m : MemArgs) : Bool := wopLoadOk host m.w && ordLoadOk m.ord && memDataOk m.w m.data && memAddrOk m
/-- A store word (R79, R80, R129). -/
def storeOk (host : Bool) (m : MemArgs) : Bool := wopStoreOk host m.w && ordStoreOk m.ord && memDataOk m.w m.data && memAddrOk m
/-- An atomic word (R81). -/
def amoOk (m : AmoArgs) : Bool := xOk m.data && xOk m.base && xOk m.src && immOk m.off

/-- The counter fields of a transfer (R230). -/
def ctrOk (ctr csp : Nat) : Bool := xOk ctr && decide (csp < 3) && (ctr != 0 || csp == 0)

/-- The fields common to every stream and copy (R229, R230). -/
def qOk (q : QArgs) : Bool :=
  pOk q.queue && pOk q.pa && pOk q.pb && xOk q.xs && xOk q.xt && xOk q.qd && ctrOk q.ctr q.csp && decide (q.rm < 4)
    && decide (q.aux < 256) && pOk q.port

/-- No conversion flags, no group (R230). -/
def plainFlags (q : QArgs) : Bool := q.rm == 0 && !q.sat && !q.grp

/-- STREAM.IN, .OUT, .DROP. -/
def streamOk (q : QArgs) : Bool := qOk q && plainFlags q && q.aux == 0 && q.pb == 0 && q.xs == 0

/-- Cell rows of a weave word (R167). -/
def Weave.rows (w : Weave) : Nat := w.aw * (if w.ga then 3 else 1)
/-- Cell columns of a weave word (R167). -/
def Weave.cols (w : Weave) : Nat := w.bw * (if w.gb then 3 else 1)

/-- The bits of R86 that carry an undefined value; `cls` is the header's class. -/
def weaveUpperUndef (w : Weave) (cls : Nat) : Bool :=
  w.aw == 0 || decide (9 ≤ w.aw) || w.bw == 0 || decide (9 ≤ w.bw) || w.ak == 3 || w.bk == 3 || decide (7 ≤ w.flow)
    || w.flow != cls || decide (9 ≤ w.win) || w.scl == 3 || (w.spr != 0 && w.flow != 5) || (w.flow == 5 && w.spr == 0)
    || (w.scl == 2 && (w.aw != 1 || w.bw != 1))
    || (decide (2 ≤ w.acc) && !(decide (w.ak ≤ 1) && decide (w.bk ≤ 1)))
    || (decide (w.acc ≤ 1) && decide (w.ak ≤ 1) && decide (w.bk ≤ 1))

/-- The bits of R166 that carry an undefined value. -/
def weaveLowerUndef (w : Weave) (qmask : Nat) : Bool :=
  (w.ga && (w.aw != 4 || w.ak != 2)) || (w.gb && (w.bw != 4 || w.bk != 2)) || (decide (512 / w.cols < w.lanes))
    || decide (5 ≤ w.red) || (w.eop != 0 && w.flow != 2) || decide (6 ≤ w.eop) || ((w.rx != 0 || w.ry != 0) && w.flow != 4)
    || (w.stk && (quartersOf qmask).length == 1)
    || (w.flow == 6 && !(w.aw == 1 && w.bw == 1 && w.ak == 0 && w.bk == 0 && w.win == 0 && w.acc == 2 && w.scl == 0
        && w.spr == 0 && !w.ga && !w.gb && !w.stk && w.red == 0 && w.lanes == 0 && w.eop == 0 && w.rx == 0 && w.ry == 0))

/-- The field limits of a weave word's bits. -/
def weaveFits (w : Weave) : Bool :=
  decide (w.aw < 16) && decide (w.bw < 16) && decide (w.ak < 4) && decide (w.bk < 4) && decide (w.flow < 16) && decide (w.win < 16)
    && decide (w.acc < 4) && decide (w.scl < 4) && decide (w.spr < 4) && decide (w.red < 8) && decide (w.lanes < 512)
    && decide (w.eop < 16) && decide (w.rx < 4) && decide (w.ry < 4)

/-- A binding word's fields (R88). -/
def bindOk (b : Bind) : Bool := pOk b.port && pOk b.pat && pOk b.queue && xOk b.ctr

/-- No two binding words name one port and direction (R89). -/
def bindsDistinct : List Bind → Bool
  | [] => true
  | b :: t => t.all (fun c => !(c.egress == b.egress && c.port == b.port)) && bindsDistinct t

/-- A block instruction of the given class (R85 to R89, R165, R166). -/
def blockOk (cls : Nat) (b : BlockArgs) : Bool :=
  qmaskOk b.qmask && decide (b.folio < 4096) && decide (b.rm < 4) && weaveFits b.weave && !weaveUpperUndef b.weave cls
    && !weaveLowerUndef b.weave b.qmask && decide (b.loops.length ≤ 4) && b.loops.all (fun t => decide (1 ≤ t) && decide (t < 2 ^ 20))
    && b.binds.all bindOk && bindsDistinct b.binds && decide (1 + b.loops.length + b.binds.length ≤ 15)

/-- The shift immediates (R116): below 32 in .w and .wn. -/
def shImmOk (ty : IntTy) (n : Nat) : Bool := decide (n < (match ty with | .x => 64 | _ => 32))

/-- The side of FCVT's register fields (R78): true for an x register. -/
def Conv.dstX : Conv → Bool
  | .i_d | .i_s | .n_d | .n_s => true
  | _ => false
/-- The source of FCVT is an x register (R78). -/
def Conv.srcX : Conv → Bool
  | .d_i | .s_i | .d_n | .s_n => true
  | _ => false

/-- The condition fields of BC (R83). -/
def condOk : BCond → Bool
  | .rel _ a b => xOk a && xOk b
  | .p k | .np k => bOk k

/-- The field checks of every instruction. -/
def Instr.wf : Instr → Bool
  | .add _ d a b | .sub _ d a b | .mul _ d a b | .mulh _ d a b | .mulhn _ d a b | .div _ d a b | .divn _ d a b | .rem _ d a b
  | .remn _ d a b | .min _ d a b | .max _ d a b | .minn _ d a b | .maxn _ d a b | .and _ d a b | .or _ d a b | .xor _ d a b
  | .andn _ d a b | .orn _ d a b | .shl _ d a b | .shr _ d a b | .sha _ d a b | .cmpeq _ d a b | .cmplt _ d a b
  | .cmpltn _ d a b => xOk d && xOk a && xOk b
  | .csel d a b c => xOk d && xOk a && xOk b && xOk c
  | .mov d a => xOk d && xOk a
  | .clz _ d a | .ctz _ d a | .popc _ d a | .sext _ d a | .zext _ d a => xOk d && xOk a
  | .addx s d a b => decide (s < 7) && xOk d && xOk a && xOk b
  | .morton three d a b c => xOk d && xOk a && xOk b && xOk c && (three || c == 0)
  | .addi _ d a i | .andi _ d a i | .ori _ d a i | .xori _ d a i => xOk d && xOk a && immOk i
  | .shli ty d a n | .shri ty d a n | .shai ty d a n => xOk d && xOk a && shImmOk ty n
  | .li d i => xOk d && immOk i
  | .lui d a i => xOk d && xOk a && immOk i
  | .bext d a pos len | .bins d a pos len => xOk d && xOk a && decide (1 ≤ len) && decide (pos + len ≤ 64)
  | .demorton three d a k => xOk d && xOk a && decide (k < if three then 3 else 2)
  | .fadd _ _ d a b | .fsub _ _ d a b | .fmul _ _ d a b | .fdiv _ _ d a b => fOk d && fOk a && fOk b
  | .ffma _ _ d a b c => fOk d && fOk a && fOk b && fOk c
  | .fsqrt _ _ d a => fOk d && fOk a
  | .fmin _ d a b | .fmax _ d a b => fOk d && fOk a && fOk b
  | .fcmp _ _ d a b => xOk d && fOk a && fOk b
  | .fcvt c _ d a => (if c.dstX then xOk d else fOk d) && (if c.srcX then xOk a else fOk a)
  | .fclass _ d a | .fmovx _ d a => xOk d && fOk a
  | .fmovf _ d a => fOk d && xOk a
  | .bc c w => condOk c && immOk w
  | .jmp w => immOk w
  | .call l w | .loop l w => xOk l && immOk w
  | .jmpx l a => xOk l && xOk a
  | .ret a => xOk a
  | .pset _ d a b => bOk d && xOk a && xOk b
  | .pand d a b | .por d a b => bOk d && bOk a && bOk b
  | .pnot d a => bOk d && bOk a
  | .rds d n => xOk d && decide (n < 20)
  | .wrs n a => xOk a && decide (n < 20)
  | .ldg m | .ldl m | .lda m | .lds m => loadOk false m
  | .ldh m => loadOk true m
  | .stg m | .stl m | .stx m | .sta m | .sts m => storeOk false m
  | .sth m => storeOk true m
  | .amog m | .amol m | .amox m | .amos m => amoOk m
  | .cadd _ d a b | .cwait _ d a b => xOk d && xOk a && xOk b
  | .cread _ d a => xOk d && xOk a
  | .fence _ _ => true
  | .arrive d g | .arrwait d g | .gquery d g => xOk d && decide (g < 256)
  | .wait d a g => xOk d && xOk a && decide (g < 256)
  | .patld _ pd xs => pOk pd && xOk xs
  | .patset f pd src => pOk pd && (if f = .copy then pOk src else xOk src)
  | .patget f pa xd => pOk pa && xOk xd && f != .copy && f != .add
  | .streamIn q | .streamOut q | .streamDrop q => streamOk q
  | .streamRec q => qOk q && plainFlags q && decide (q.aux < 16) && q.pb == 0 && q.xs == 0
  | .streamConst q => qOk q && plainFlags q && q.aux == 0 && q.pb == 0
  | .streamInd q => qOk q && plainFlags q && q.aux == 0 && q.xs == 0
  | .sbarRd q d m | .sbarWr q d m | .sbarAll q d m => pOk q && xOk d && (m == 0 || qmaskOk m)
  | .scond q t d c s _ k => pOk q && xOk t && xOk d && ctrOk c s && c != 0 && decide (1 ≤ k) && decide (k < 16)
  | .copy q => qOk q && !q.grp && q.aux == 0 && q.port == 0 && q.xs == 0
  | .mcopy q => qOk q && !q.grp && q.port == 0 && q.xs == 0
  | .rcopy q => qOk q && q.rm == 0 && !q.sat && q.xs == 0 && decide (q.port < 9)
  | .stitch q d m => pOk q && xOk d && decide (m < 2 ^ 16)
  | .qwait m => decide (m < 2 ^ 16)
  | .qstat q d s _ => pOk q && xOk d && decide (s < 4)
  | .spawn a b c => xOk a && xOk b && xOk c
  | .spawnn a b c n => xOk a && xOk b && xOk c && decide (1 ≤ n) && decide (n ≤ 256)
  | .launch a b => xOk a && xOk b
  | .cancel a b c => xOk a && xOk b && xOk c
  | .yield | .chkc | .tret | .tretN | .nop => true
  | .exit l a b => xOk a && xOk b && (a != 0 || (b == 0 && !l))
  | .scopeSet d p c | .scopeSplit d p c => xOk d && xOk p && xOk c
  | .squery d a => xOk d && xOk a
  | .trap a n => xOk a && decide (n < 64)
  | .prio reg v => if reg then xOk v else decide (v < 24)
  | .mtrd d m => xOk d && decide (m < 16)
  | .halt c => immOk c
  | .blockMWs b => blockOk 0 b
  | .blockMOs b => blockOk 1 b
  | .blockE b => blockOk 2 b
  | .blockA b => blockOk 3 b
  | .blockS b => blockOk 4 b
  | .blockZ b => blockOk 5 b
  | .blockG b => blockOk 6 b
  | .cfgld q f => qmaskOk q && decide (f < 4096)
  | .cfgsw q | .bdrain q | .accclr q => qmaskOk q
  | .bstat d q s => xOk d && qmaskOk q && decide (s < 4)
  | .spine q w a => qmaskOk q && (match w with | some v => decide (v < 9) | none => true) && decide (a < 3)
  | .accrd q e _ r _ => qmaskOk q && pOk e && decide (r < 4)
  | _ => true

/-- The rows of the table that a word encodes: the sequencer instructions of R78. -/
def Instr.isSequencer : Instr → Bool
  | .fetchFault .. | .deferredTrap .. | .loadResultReturn .. | .ldhTimeout .. | .contextWake .. | .taskBind ..
  | .taskPublicationArrival .. | .dependenceCheck .. | .copyStart .. | .copyBeat .. | .transferRetire .. | .streamDispatch ..
  | .streamBeat .. | .gatePass .. | .counterContributionFlit .. | .blockRunStart .. | .folioLoadComplete ..
  | .switchSweepComplete .. | .blockBeat .. | .instanceComplete .. | .scanOutComplete .. | .elementCycle ..
  | .memoryNodeComplete .. | .activeMessageArrival .. | .networkCycle .. | .ageTick .. | .creditDraw .. | .creditReturn ..
  | .crossbarCrossing .. | .remoteStoreApply .. | .remoteAtomicApply .. | .acknowledgementReceipt .. | .gatherFlitArrival ..
  | .windowUpdateReceipt .. | .streamEndReceipt .. | .poisonFillTimeout .. | .drainTokenArrival .. | .memoryAccessAtHome ..
  | .barrierArrivalAtHome .. | .barrierReleaseArrival .. | .cancelRegistration .. | .taskKill .. | .trapModeKillTimeout ..
  | .cancelTileReport .. | .cancelAckWrite .. | .preemptHoldRequest .. | .preemptSwitchRequest .. | .resumeRequest ..
  | .stateSaveComplete .. | .restoreComplete .. | .sliceExpiry .. | .deadlinePreemption .. | .launchWindowWrite ..
  | .partialWindowWrite .. | .launchPacket .. | .loaderPlacement .. | .launchEnd .. | .mapRequestMap .. | .mapRequestUnmap ..
  | .mapRequestProtect .. | .mapRequestMigrate .. | .mapRequestOrder .. | .invalidationComplete .. | .migrationSpliceBeat ..
  | .migrationRedirect .. | .migrationDone .. | .ctrlSuspend .. | .ctrlResume .. | .routerStatusWrite .. | .registerWrite ..
  | .linkTransferWrite .. | .linkTransferRead .. | .hostWriteTlp .. | .hostReadTlp .. | .cxlReadReturn .. | .d2dFrameReceipt ..
  | .frameReplay .. | .linkDown .. | .quoteExpiryCompletion .. | .flushMarkerReturn .. | .meterFold | .getVersion ..
  | .getCapabilities .. | .negotiateAlgorithms .. | .getDigests .. | .getCertificate .. | .challenge .. | .getMeasurements ..
  | .keyExchange .. | .finish .. | .endSession .. | .getcolo .. | .setcaps .. | .getcaps .. | .submitConfiguration ..
  | .submitSparing .. | .submitSchedulingRecord .. | .partitionControl .. | .dieReset .. | .retrainLink ..
  | .readRouterStatus .. | .checkpoint | .readErrorLog | .selfTest .. | .hbmScrub .. | .powerOn | .temperatureWarning ..
  | .temperatureShutdown .. | .clockCycle .. | .arrivalAnswer .. | .peerLinkTransfer .. | .zeroLengthReadCompletion .. => false
  | _ => true

end Sys2Proof
end

