-- ==== Sys2Proof/Decode.lean ====
section
/-! DEFINITION. The decoder: from 64-bit words to an instruction or a rejection by name with the failing word (R73 to R89, R76, R77),
and after it the encoder, from the same tables. A word is a natural number below 2^64. -/

namespace Sys2Proof

/-- Why a word is rejected: the four steps of R76 in order. -/
inductive Reject where
  /-- Step 1: the major has no assignment. -/
  | unassignedMajor
  /-- Step 2: the fn, cond, wop or class has no assignment. -/
  | unassignedFunction
  /-- Step 3: a field holds an undefined value. -/
  | undefinedValue
  /-- Step 4: a zero field, an unused field or a reserved bit is nonzero. -/
  | reservedNonzero
  deriving DecidableEq, Repr

/-- A rejection: the step that failed and the index of the failing word, 0 for the header (R77). -/
structure Bad where
  why : Reject
  word : Nat
  deriving DecidableEq, Repr

/-- The trap cause of a rejection (R76). -/
def Reject.cause : Reject → Nat
  | .reservedNonzero => 0x02
  | _ => 0x01

/-- What decoding answers. -/
abbrev Dec := Except Reject Instr

/-- Steps 3 and 4 of R76 for one word: an undefined value, then a nonzero zero field. -/
def sealWord (undef resv : Bool) (i : Instr) : Dec :=
  if undef then .error .undefinedValue else if resv then .error .reservedNonzero else .ok i

/-- The fields of format T (R73). -/
structure FmtT where
  fn : Nat
  d : Nat
  a : Nat
  b : Nat
  c : Nat
  ty : Nat
  low : Nat
  deriving DecidableEq, Repr

/-- The fields of format I (R73). -/
structure FmtI where
  fn : Nat
  d : Nat
  a : Nat
  mod : Nat
  imm : Nat
  deriving DecidableEq, Repr

/-- The fields of format M (R73). -/
structure FmtM where
  wop : Nat
  data : Nat
  base : Nat
  index : Nat
  scale : Nat
  ord : Nat
  off : Nat
  deriving DecidableEq, Repr

/-- The fields of format B (R73). -/
structure FmtB where
  cond : Nat
  a : Nat
  b : Nat
  pred : Nat
  zero : Nat
  woff : Nat
  deriving DecidableEq, Repr

/-- The fields of format Q (R73). -/
structure FmtQ where
  fn : Nat
  queue : Nat
  pa : Nat
  pb : Nat
  xs : Nat
  xt : Nat
  qd : Nat
  flags : Nat
  deriving DecidableEq, Repr

/-- The fields of format K (R73). -/
structure FmtK where
  n : Nat
  qmask : Nat
  folio : Nat
  cls : Nat
  zero : Nat
  flags : Nat
  deriving DecidableEq, Repr

/-- The major opcode of a word. -/
def majorOf (w : Nat) : Nat := bits w 63 56

def splitT (w : Nat) : FmtT := ⟨bits w 55 52, bits w 51 47, bits w 46 42, bits w 41 37, bits w 36 32, bits w 31 28, bits w 27 0⟩
def splitI (w : Nat) : FmtI := ⟨bits w 55 52, bits w 51 47, bits w 46 42, bits w 41 32, bits w 31 0⟩
def splitM (w : Nat) : FmtM := ⟨bits w 55 52, bits w 51 47, bits w 46 42, bits w 41 37, bits w 36 35, bits w 34 32, bits w 31 0⟩
def splitB (w : Nat) : FmtB := ⟨bits w 55 52, bits w 51 47, bits w 46 42, bits w 41 39, bits w 38 32, bits w 31 0⟩
def splitQ (w : Nat) : FmtQ :=
  ⟨bits w 55 52, bits w 51 48, bits w 47 44, bits w 43 40, bits w 39 35, bits w 34 30, bits w 29 25, bits w 24 0⟩
def splitK (w : Nat) : FmtK := ⟨bits w 55 52, bits w 51 48, bits w 47 36, bits w 35 32, bits w 31 8, bits w 7 0⟩

def joinT (major : Nat) (f : FmtT) : Nat :=
  major * 2 ^ 56 + f.fn * 2 ^ 52 + f.d * 2 ^ 47 + f.a * 2 ^ 42 + f.b * 2 ^ 37 + f.c * 2 ^ 32 + f.ty * 2 ^ 28 + f.low
def joinI (major : Nat) (f : FmtI) : Nat :=
  major * 2 ^ 56 + f.fn * 2 ^ 52 + f.d * 2 ^ 47 + f.a * 2 ^ 42 + f.mod * 2 ^ 32 + f.imm
def joinM (major : Nat) (f : FmtM) : Nat :=
  major * 2 ^ 56 + f.wop * 2 ^ 52 + f.data * 2 ^ 47 + f.base * 2 ^ 42 + f.index * 2 ^ 37 + f.scale * 2 ^ 35 + f.ord * 2 ^ 32 + f.off
def joinB (major : Nat) (f : FmtB) : Nat :=
  major * 2 ^ 56 + f.cond * 2 ^ 52 + f.a * 2 ^ 47 + f.b * 2 ^ 42 + f.pred * 2 ^ 39 + f.zero * 2 ^ 32 + f.woff
def joinQ (major : Nat) (f : FmtQ) : Nat :=
  major * 2 ^ 56 + f.fn * 2 ^ 52 + f.queue * 2 ^ 48 + f.pa * 2 ^ 44 + f.pb * 2 ^ 40 + f.xs * 2 ^ 35 + f.xt * 2 ^ 30 + f.qd * 2 ^ 25
    + f.flags
def joinK (major : Nat) (f : FmtK) : Nat :=
  major * 2 ^ 56 + f.n * 2 ^ 52 + f.qmask * 2 ^ 48 + f.folio * 2 ^ 36 + f.cls * 2 ^ 32 + f.zero * 2 ^ 8 + f.flags

/-! Code tables of R75, R80, R81, R83. -/

def IntTy.ofCode : Nat → Option IntTy
  | 0 => some .x | 1 => some .w | 2 => some .wn | _ => none
def IntTy.code : IntTy → Nat
  | .x => 0 | .w => 1 | .wn => 2
def ExtW.ofCode : Nat → Option ExtW
  | 0 => some .b8 | 1 => some .b16 | 2 => some .b32 | _ => none
def ExtW.code : ExtW → Nat
  | .b8 => 0 | .b16 => 1 | .b32 => 2
def FFmt.ofCode : Nat → FFmt
  | 0 => .d | _ => .s
def FFmt.code : FFmt → Nat
  | .d => 0 | .s => 1
def RmCode.ofCode : Nat → Option RmCode
  | 0 => some .fmode | 1 => some .rne | 2 => some .rtz | 3 => some .rup | 4 => some .rdn | _ => none
def RmCode.code : RmCode → Nat
  | .fmode => 0 | .rne => 1 | .rtz => 2 | .rup => 3 | .rdn => 4
def FRel.ofCode : Nat → Option FRel
  | 0 => some .eq | 1 => some .lt | 2 => some .le | 3 => some .un | _ => none
def FRel.code : FRel → Nat
  | .eq => 0 | .lt => 1 | .le => 2 | .un => 3
def Conv.ofCode : Nat → Option Conv
  | 0 => some .d_s | 1 => some .s_d | 2 => some .d_i | 3 => some .s_i | 4 => some .d_n | 5 => some .s_n | 6 => some .i_d
  | 7 => some .i_s | 8 => some .n_d | 9 => some .n_s | 10 => some .s_h | 11 => some .h_s | 12 => some .s_bf | 13 => some .bf_s
  | _ => none
def Conv.code : Conv → Nat
  | .d_s => 0 | .s_d => 1 | .d_i => 2 | .s_i => 3 | .d_n => 4 | .s_n => 5 | .i_d => 6 | .i_s => 7 | .n_d => 8 | .n_s => 9
  | .s_h => 10 | .h_s => 11 | .s_bf => 12 | .bf_s => 13
def Rel.ofCode : Nat → Option Rel
  | 0 => some .eq | 1 => some .ne | 2 => some .lt | 3 => some .ge | 4 => some .ltn | 5 => some .gen | _ => none
def Rel.code : Rel → Nat
  | .eq => 0 | .ne => 1 | .lt => 2 | .ge => 3 | .ltn => 4 | .gen => 5
def Wop.ofCode : Nat → Option Wop
  | 0 => some .b8 | 1 => some .b16 | 2 => some .b32 | 3 => some .b64 | 4 => some .b128 | 5 => some .f32 | 6 => some .f64
  | 8 => some .i8 | 9 => some .i16 | 10 => some .i32 | _ => none
def Wop.code : Wop → Nat
  | .b8 => 0 | .b16 => 1 | .b32 => 2 | .b64 => 3 | .b128 => 4 | .f32 => 5 | .f64 => 6 | .i8 => 8 | .i16 => 9 | .i32 => 10
def Ord.ofCode : Nat → Option Ord
  | 0 => some .plain | 1 => some .acq | 2 => some .rel | 3 => some .ar | 4 => some .sc | _ => none
def Ord.code : Ord → Nat
  | .plain => 0 | .acq => 1 | .rel => 2 | .ar => 3 | .sc => 4
def AmoOp.ofCode : Nat → Option AmoOp
  | 0 => some .add | 1 => some .and | 2 => some .or | 3 => some .xor | 4 => some .swap | 5 => some .cas | 6 => some .mini
  | 7 => some .maxi | 8 => some .minn | 9 => some .maxn | _ => none
def AmoOp.code : AmoOp → Nat
  | .add => 0 | .and => 1 | .or => 2 | .xor => 3 | .swap => 4 | .cas => 5 | .mini => 6 | .maxi => 7 | .minn => 8 | .maxn => 9
def Scope.ofCode : Nat → Option Scope
  | 0 => some .tile | 1 => some .cluster | 2 => some .partition | 3 => some .device | 4 => some .system | _ => none
def Scope.code : Scope → Nat
  | .tile => 0 | .cluster => 1 | .partition => 2 | .device => 3 | .system => 4
def FenceKind.ofCode : Nat → Option FenceKind
  | 1 => some .acq | 2 => some .rel | 3 => some .ar | _ => none
def FenceKind.code : FenceKind → Nat
  | .acq => 1 | .rel => 2 | .ar => 3
def PatSpace.ofCode : Nat → Option PatSpace
  | 0 => some .g | 1 => some .l | 5 => some .s | _ => none
def PatSpace.code : PatSpace → Nat
  | .g => 0 | .l => 1 | .s => 5
def PatField.ofCode : Nat → Option PatField
  | 0 => some .base | 1 => some .ctrl | 2 => some .d0 | 3 => some .d1 | 4 => some .d2 | 5 => some .d3 | 6 => some .copy
  | 7 => some .add | _ => none
def PatField.code : PatField → Nat
  | .base => 0 | .ctrl => 1 | .d0 => 2 | .d1 => 3 | .d2 => 4 | .d3 => 5 | .copy => 6 | .add => 7

/-! Decoding by major (R78). -/

/-- The two-operand instructions of majors 0x10 and 0x11 (R78). -/
def intOp (major fn : Nat) : Option (IntTy → Nat → Nat → Nat → Instr) :=
  match major, fn with
  | 0x10, 0 => some .add | 0x10, 1 => some .sub | 0x10, 2 => some .mul | 0x10, 3 => some .mulh | 0x10, 4 => some .mulhn
  | 0x10, 5 => some .div | 0x10, 6 => some .divn | 0x10, 7 => some .rem | 0x10, 8 => some .remn | 0x10, 9 => some .min
  | 0x10, 10 => some .max | 0x10, 11 => some .minn | 0x10, 12 => some .maxn
  | 0x11, 0 => some .and | 0x11, 1 => some .or | 0x11, 2 => some .xor | 0x11, 3 => some .andn | 0x11, 4 => some .orn
  | 0x11, 5 => some .shl | 0x11, 6 => some .shr | 0x11, 7 => some .sha | 0x11, 8 => some .cmpeq | 0x11, 9 => some .cmplt
  | 0x11, 10 => some .cmpltn
  | _, _ => none

def decInt (major : Nat) (f : FmtT) : Dec :=
  if major = 0x11 ∧ f.fn = 11 then sealWord (f.ty != 0) (f.low != 0) (.csel f.d f.a f.b f.c)
  else if major = 0x11 ∧ f.fn = 12 then sealWord (f.ty != 0) (f.b != 0 || f.c != 0 || f.low != 0) (.mov f.d f.a)
  else match intOp major f.fn with
    | none => .error .unassignedFunction
    | some mk => match IntTy.ofCode f.ty with
      | none => .error .undefinedValue
      | some t => sealWord false (f.c != 0 || f.low != 0) (mk t f.d f.a f.b)

def decBit (f : FmtT) : Dec :=
  let unary (mk : IntTy → Nat → Nat → Instr) : Dec := match IntTy.ofCode f.ty with
    | none => .error .undefinedValue
    | some t => sealWord false (f.b != 0 || f.c != 0 || f.low != 0) (mk t f.d f.a)
  let ext (mk : ExtW → Nat → Nat → Instr) : Dec := match ExtW.ofCode f.ty with
    | none => .error .undefinedValue
    | some t => sealWord false (f.b != 0 || f.c != 0 || f.low != 0) (mk t f.d f.a)
  match f.fn with
  | 0 => unary .clz
  | 1 => unary .ctz
  | 2 => unary .popc
  | 3 => ext .sext
  | 4 => ext .zext
  | 5 => sealWord (decide (7 ≤ f.ty)) (f.c != 0 || f.low != 0) (.addx f.ty f.d f.a f.b)
  | 6 => sealWord (decide (2 ≤ f.ty)) ((f.ty == 0 && f.c != 0) || f.low != 0) (.morton (f.ty == 1) f.d f.a f.b f.c)
  | _ => .error .unassignedFunction

def decImm (f : FmtI) : Dec :=
  let alu (mk : IntTy → Nat → Nat → Nat → Instr) (shift : Bool) : Dec := match IntTy.ofCode f.mod with
    | none => .error .undefinedValue
    | some t => sealWord false (shift && !shImmOk t f.imm) (mk t f.d f.a f.imm)
  let pos := bits f.imm 5 0
  let len := bits f.imm 13 8 + 1
  let field (mk : Nat → Nat → Nat → Nat → Instr) : Dec :=
    sealWord (decide (64 < pos + len)) (f.mod != 0 || bits f.imm 31 14 != 0 || bits f.imm 7 6 != 0) (mk f.d f.a pos len)
  match f.fn with
  | 0 => alu .addi false
  | 1 => alu .andi false
  | 2 => alu .ori false
  | 3 => alu .xori false
  | 4 => alu .shli true
  | 5 => alu .shri true
  | 6 => alu .shai true
  | 7 => sealWord false (f.mod != 0 || f.a != 0) (.li f.d f.imm)
  | 8 => sealWord false (f.mod != 0) (.lui f.d f.a f.imm)
  | 9 => field .bext
  | 10 => field .bins
  | 11 => sealWord (decide (8 ≤ f.mod) || (if f.mod % 2 = 1 then decide (3 ≤ f.mod / 2) else decide (2 ≤ f.mod / 2))) (f.imm != 0)
      (.demorton (f.mod % 2 == 1) f.d f.a (f.mod / 2))
  | _ => .error .unassignedFunction

def decFloat (f : FmtT) : Dec :=
  let fmt := FFmt.ofCode (f.ty / 8)
  let code := f.ty % 8
  let bad (l : List Nat) : Bool := l.any (fun r => decide (16 ≤ r))
  let arith (mk : FFmt → RmCode → Instr) (regs : List Nat) (resv : Bool) : Dec := match RmCode.ofCode code with
    | none => .error .undefinedValue
    | some rm => sealWord (bad regs) (resv || f.low != 0) (mk fmt rm)
  match f.fn with
  | 0 => arith (fun x r => .fadd x r f.d f.a f.b) [f.d, f.a, f.b] (f.c != 0)
  | 1 => arith (fun x r => .fsub x r f.d f.a f.b) [f.d, f.a, f.b] (f.c != 0)
  | 2 => arith (fun x r => .fmul x r f.d f.a f.b) [f.d, f.a, f.b] (f.c != 0)
  | 3 => arith (fun x r => .ffma x r f.d f.a f.b f.c) [f.d, f.a, f.b, f.c] false
  | 4 => arith (fun x r => .fdiv x r f.d f.a f.b) [f.d, f.a, f.b] (f.c != 0)
  | 5 => arith (fun x r => .fsqrt x r f.d f.a) [f.d, f.a] (f.b != 0 || f.c != 0)
  | 6 => sealWord (code != 0 || bad [f.d, f.a, f.b]) (f.c != 0 || f.low != 0) (.fmin fmt f.d f.a f.b)
  | 7 => sealWord (code != 0 || bad [f.d, f.a, f.b]) (f.c != 0 || f.low != 0) (.fmax fmt f.d f.a f.b)
  | 8 => match FRel.ofCode code with
    | none => .error .undefinedValue
    | some r => sealWord (bad [f.a, f.b]) (f.c != 0 || f.low != 0) (.fcmp fmt r f.d f.a f.b)
  | 9 => match Conv.ofCode f.ty, RmCode.ofCode f.c with
    | some c, some rm => sealWord ((!c.dstX && bad [f.d]) || (!c.srcX && bad [f.a])) (f.b != 0 || f.low != 0) (.fcvt c rm f.d f.a)
    | _, _ => .error .undefinedValue
  | 10 => sealWord (code != 0 || bad [f.a]) (f.b != 0 || f.c != 0 || f.low != 0) (.fclass fmt f.d f.a)
  | 11 => sealWord (code != 0 || bad [f.a]) (f.b != 0 || f.c != 0 || f.low != 0) (.fmovx fmt f.d f.a)
  | 12 => sealWord (code != 0 || bad [f.d]) (f.b != 0 || f.c != 0 || f.low != 0) (.fmovf fmt f.d f.a)
  | _ => .error .unassignedFunction

def decBranch (major : Nat) (f : FmtB) : Dec :=
  match major with
  | 0x40 => match Rel.ofCode f.cond with
    | some r => sealWord false (f.pred != 0 || f.zero != 0) (.bc (.rel r f.a f.b) f.woff)
    | none =>
      if f.cond = 6 then sealWord false (f.a != 0 || f.b != 0 || f.zero != 0) (.bc (.p f.pred) f.woff)
      else if f.cond = 7 then sealWord false (f.a != 0 || f.b != 0 || f.zero != 0) (.bc (.np f.pred) f.woff)
      else .error .unassignedFunction
  | 0x41 => if f.cond != 0 then .error .unassignedFunction
      else sealWord false (f.a != 0 || f.b != 0 || f.pred != 0 || f.zero != 0) (.jmp f.woff)
  | 0x42 => if f.cond != 0 then .error .unassignedFunction
      else sealWord false (f.b != 0 || f.pred != 0 || f.zero != 0) (.call f.a f.woff)
  | _ => if f.cond != 0 then .error .unassignedFunction
      else sealWord false (f.b != 0 || f.pred != 0 || f.zero != 0) (.loop f.a f.woff)

def decJump (f : FmtT) : Dec :=
  match f.fn with
  | 0 => sealWord false (f.b != 0 || f.c != 0 || f.ty != 0 || f.low != 0) (.jmpx f.d f.a)
  | 1 => sealWord false (f.d != 0 || f.b != 0 || f.c != 0 || f.ty != 0 || f.low != 0) (.ret f.a)
  | _ => .error .unassignedFunction

def decPred (f : FmtT) : Dec :=
  let bad (l : List Nat) : Bool := l.any (fun r => decide (8 ≤ r))
  match f.fn with
  | 0 => match Rel.ofCode f.ty with
    | none => .error .undefinedValue
    | some r => sealWord (bad [f.d]) (f.c != 0 || f.low != 0) (.pset r f.d f.a f.b)
  | 1 => sealWord (f.ty != 0 || bad [f.d, f.a, f.b]) (f.c != 0 || f.low != 0) (.pand f.d f.a f.b)
  | 2 => sealWord (f.ty != 0 || bad [f.d, f.a, f.b]) (f.c != 0 || f.low != 0) (.por f.d f.a f.b)
  | 3 => sealWord (f.ty != 0 || bad [f.d, f.a]) (f.b != 0 || f.c != 0 || f.low != 0) (.pnot f.d f.a)
  | _ => .error .unassignedFunction

def decSpecial (f : FmtI) : Dec :=
  match f.fn with
  | 0 => sealWord (decide (20 ≤ f.imm)) (f.a != 0 || f.mod != 0) (.rds f.d f.imm)
  | 1 => sealWord (decide (20 ≤ f.imm)) (f.d != 0 || f.mod != 0) (.wrs f.imm f.a)
  | _ => .error .unassignedFunction

/-- The load, store and atomic majors 0x50 to 0x5E (R129). -/
def decMem (major : Nat) (f : FmtM) : Dec :=
  let m (w : Wop) (o : Ord) : MemArgs := ⟨w, o, f.data, f.base, f.index, f.scale, f.off⟩
  let load (mk : MemArgs → Instr) (host : Bool) : Dec := match Wop.ofCode f.wop with
    | none => .error .unassignedFunction
    | some w => if !wopLoadOk host w then .error .unassignedFunction else match Ord.ofCode f.ord with
      | none => .error .undefinedValue
      | some o => sealWord (!ordLoadOk o || !memDataOk w f.data) (f.index == 0 && f.scale != 0) (mk (m w o))
  let store (mk : MemArgs → Instr) (host : Bool) : Dec := match Wop.ofCode f.wop with
    | none => .error .unassignedFunction
    | some w => if !wopStoreOk host w then .error .unassignedFunction else match Ord.ofCode f.ord with
      | none => .error .undefinedValue
      | some o => sealWord (!ordStoreOk o || !memDataOk w f.data) (f.index == 0 && f.scale != 0) (mk (m w o))
  let amo (mk : AmoArgs → Instr) : Dec := match AmoOp.ofCode f.wop with
    | none => .error .unassignedFunction
    | some op => match Ord.ofCode f.ord with
      | none => .error .undefinedValue
      | some o => sealWord (decide (2 ≤ f.scale)) false (mk ⟨op, f.scale == 1, o, f.data, f.base, f.index, f.off⟩)
  match major with
  | 0x50 => load .ldg false
  | 0x51 => store .stg false
  | 0x52 => amo .amog
  | 0x53 => load .ldl false
  | 0x54 => store .stl false
  | 0x55 => amo .amol
  | 0x56 => store .stx false
  | 0x57 => amo .amox
  | 0x58 => load .lda false
  | 0x59 => store .sta false
  | 0x5A => load .lds false
  | 0x5B => store .sts false
  | 0x5C => amo .amos
  | 0x5D => load .ldh true
  | _ => store .sth true

def decCounter (f : FmtT) : Dec :=
  match f.fn with
  | 0 => sealWord (decide (2 ≤ f.ty)) (f.c != 0 || f.low != 0) (.cadd (f.ty == 1) f.d f.a f.b)
  | 1 => sealWord (decide (2 ≤ f.ty)) (f.c != 0 || f.low != 0) (.cwait (f.ty == 1) f.d f.a f.b)
  | 2 => sealWord (decide (2 ≤ f.ty)) (f.b != 0 || f.c != 0 || f.low != 0) (.cread (f.ty == 1) f.d f.a)
  | _ => .error .unassignedFunction

def decFence (f : FmtT) : Dec :=
  match Scope.ofCode f.fn with
  | none => .error .unassignedFunction
  | some sc => match FenceKind.ofCode f.ty with
    | none => .error .undefinedValue
    | some k => sealWord false (f.d != 0 || f.a != 0 || f.b != 0 || f.c != 0 || f.low != 0) (.fence sc k)

def decBarrier (f : FmtI) : Dec :=
  match f.fn with
  | 0 => sealWord false (f.a != 0 || f.mod != 0 || decide (256 ≤ f.imm)) (.arrive f.d f.imm)
  | 1 => sealWord false (f.mod != 0 || decide (256 ≤ f.imm)) (.wait f.d f.a f.imm)
  | 2 => sealWord false (f.a != 0 || f.mod != 0 || decide (256 ≤ f.imm)) (.arrwait f.d f.imm)
  | 3 => sealWord false (f.a != 0 || f.mod != 0 || decide (256 ≤ f.imm)) (.gquery f.d f.imm)
  | _ => .error .unassignedFunction

def decPattern (f : FmtQ) : Dec :=
  match f.fn with
  | 0 => match PatSpace.ofCode (bits f.flags 2 0) with
    | none => .error .undefinedValue
    | some sp => sealWord false (f.queue != 0 || f.pb != 0 || f.xt != 0 || f.qd != 0 || bits f.flags 24 3 != 0) (.patld sp f.pa f.xs)
  | 1 => match PatField.ofCode (bits f.flags 3 0) with
    | none => .error .undefinedValue
    | some fd => sealWord false (f.queue != 0 || f.xt != 0 || f.qd != 0 || bits f.flags 24 4 != 0
        || (if fd = .copy then f.xs != 0 else f.pb != 0)) (.patset fd f.pa (if fd = .copy then f.pb else f.xs))
  | 2 => match PatField.ofCode (bits f.flags 3 0) with
    | none => .error .undefinedValue
    | some fd => sealWord (fd == .copy || fd == .add) (f.queue != 0 || f.pb != 0 || f.xt != 0 || f.qd != 0 || bits f.flags 24 4 != 0)
        (.patget fd f.pa f.xs)
  | _ => .error .unassignedFunction

/-- The fields of a stream or copy from a Q word with the transfer flags of R230. -/
def qArgs (f : FmtQ) : QArgs :=
  ⟨f.queue, f.pa, f.pb, f.xs, f.xt, f.qd, bits f.flags 24 20, bits f.flags 19 18, bits f.flags 17 16, bit f.flags 15,
    bit f.flags 12, bits f.flags 11 4, bits f.flags 3 0⟩

/-- The transfer-flag checks common to streams and copies (R230): undefined, then zero. -/
def xferUndef (q : QArgs) : Bool := q.csp == 3
def xferResv (f : FmtQ) (q : QArgs) : Bool := (q.ctr == 0 && q.csp != 0) || bits f.flags 14 13 != 0

def decStream (f : FmtQ) : Dec :=
  let q := qArgs f
  let resv := xferResv f q || q.rm != 0 || q.sat || q.grp
  match f.fn with
  | 0 => sealWord (xferUndef q) (resv || q.aux != 0 || q.pb != 0 || q.xs != 0) (.streamIn q)
  | 1 => sealWord (xferUndef q) (resv || q.aux != 0 || q.pb != 0 || q.xs != 0) (.streamOut q)
  | 2 => sealWord (xferUndef q) (resv || decide (16 ≤ q.aux) || q.pb != 0 || q.xs != 0) (.streamRec q)
  | 3 => sealWord (xferUndef q) (resv || q.aux != 0 || q.pb != 0) (.streamConst q)
  | 4 => sealWord (xferUndef q) (resv || q.aux != 0 || q.pb != 0 || q.xs != 0) (.streamDrop q)
  | 5 => sealWord (xferUndef q) (resv || q.aux != 0 || q.xs != 0) (.streamInd q)
  | _ => .error .unassignedFunction

def decGate (f : FmtQ) : Dec :=
  let m := bits f.flags 3 0
  let sbar (mk : Nat → Nat → Nat → Instr) : Dec :=
    sealWord (m != 0 && !qmaskOk m) (f.pa != 0 || f.pb != 0 || f.xs != 0 || f.xt != 0 || bits f.flags 24 4 != 0) (mk f.queue f.qd m)
  match f.fn with
  | 0 => sbar .sbarRd
  | 1 => sbar .sbarWr
  | 2 => sbar .sbarAll
  | 3 => sealWord (m == 0 || bits f.flags 19 18 == 3) (f.pa != 0 || f.pb != 0 || f.xs != 0 || bits f.flags 24 20 == 0 || bits f.flags 17 5 != 0)
      (.scond f.queue f.xt f.qd (bits f.flags 24 20) (bits f.flags 19 18) (bit f.flags 4) m)
  | _ => .error .unassignedFunction

def decCopy (f : FmtQ) : Dec :=
  let q := qArgs f
  match f.fn with
  | 0 => sealWord (xferUndef q) (xferResv f q || q.grp || q.aux != 0 || q.port != 0 || q.xs != 0) (.copy q)
  | 1 => sealWord (xferUndef q) (xferResv f q || q.grp || q.port != 0 || q.xs != 0) (.mcopy q)
  | 2 => sealWord (xferUndef q || decide (9 ≤ q.port))
      (xferResv f q || q.rm != 0 || q.sat || q.xs != 0) (.rcopy q)
  | _ => .error .unassignedFunction

def decStitch (f : FmtQ) : Dec :=
  let zero := f.pa != 0 || f.pb != 0 || f.xt != 0
  match f.fn with
  | 0 => sealWord false (zero || f.xs != 0 || bits f.flags 24 16 != 0) (.stitch f.queue f.qd (bits f.flags 15 0))
  | 1 => sealWord false (zero || f.xs != 0 || f.queue != 0 || f.qd != 0 || bits f.flags 24 16 != 0) (.qwait (bits f.flags 15 0))
  | 2 => sealWord false (zero || f.qd != 0 || bits f.flags 24 3 != 0) (.qstat f.queue f.xs (bits f.flags 1 0) (bit f.flags 2))
  | _ => .error .unassignedFunction

def decTask (f : FmtQ) : Dec :=
  let zero := f.queue != 0 || f.pa != 0 || f.pb != 0
  match f.fn with
  | 0 => sealWord false (zero || f.flags != 0) (.spawn f.xs f.xt f.qd)
  | 1 => sealWord false (zero || bits f.flags 24 8 != 0) (.spawnn f.xs f.xt f.qd (bits f.flags 7 0 + 1))
  | 2 => sealWord false (zero || f.xt != 0 || f.flags != 0) (.launch f.xs f.qd)
  | 3 => sealWord false (zero || f.flags != 0) (.cancel f.xs f.xt f.qd)
  | _ => .error .unassignedFunction

def decSys (f : FmtT) : Dec :=
  let abcd := f.d != 0 || f.a != 0 || f.b != 0 || f.c != 0
  match f.fn with
  | 0 => sealWord false (abcd || f.ty != 0 || f.low != 0) .yield
  | 1 => sealWord (decide (2 ≤ f.ty)) (f.d != 0 || f.c != 0 || f.low != 0 || (f.a == 0 && (f.b != 0 || f.ty != 0))) (.exit (f.ty == 1) f.a f.b)
  | 2 => sealWord (decide (2 ≤ f.ty)) (f.c != 0 || f.low != 0)
      (if f.ty = 0 then .scopeSet f.d f.a f.b else .scopeSplit f.d f.a f.b)
  | 3 => sealWord false (abcd || f.ty != 0 || f.low != 0) .chkc
  | 4 => sealWord false (f.b != 0 || f.c != 0 || f.ty != 0 || f.low != 0) (.squery f.d f.a)
  | _ => .error .unassignedFunction

def decMisc (f : FmtI) : Dec :=
  match f.fn with
  | 0 => sealWord false (f.d != 0 || f.mod != 0 || decide (64 ≤ f.imm)) (.trap f.a f.imm)
  | 1 => sealWord false (f.d != 0 || f.a != 0 || f.mod != 0 || decide (2 ≤ f.imm)) (if f.imm = 0 then .tret else .tretN)
  | 2 => sealWord (decide (2 ≤ f.mod)) (f.d != 0 || (if f.mod = 1 then f.imm != 0 else f.a != 0 || decide (24 ≤ f.imm)))
      (.prio (f.mod == 1) (if f.mod = 1 then f.a else f.imm))
  | 3 => sealWord (decide (16 ≤ f.imm)) (f.a != 0 || f.mod != 0) (.mtrd f.d f.imm)
  | 4 => sealWord false (f.d != 0 || f.a != 0 || f.mod != 0) (.halt f.imm)
  | 5 => sealWord false (f.d != 0 || f.a != 0 || f.mod != 0 || f.imm != 0) .nop
  | _ => .error .unassignedFunction

def decRegion (f : FmtI) : Dec :=
  let q := bits f.mod 3 0
  let badQ := !qmaskOk q
  let zero := f.a != 0 || bits f.mod 9 4 != 0
  match f.fn with
  | 0 => sealWord badQ (zero || f.d != 0 || bits f.imm 31 12 != 0) (.cfgld q (bits f.imm 11 0))
  | 1 => sealWord badQ (zero || f.d != 0 || f.imm != 0) (.cfgsw q)
  | 2 => sealWord badQ (zero || f.d != 0 || f.imm != 0) (.bdrain q)
  | 3 => sealWord (badQ || decide (4 ≤ f.imm)) zero (.bstat f.d q f.imm)
  | 4 => sealWord (badQ || (decide (9 ≤ bits f.imm 3 0) && bits f.imm 3 0 != 15) || bits f.imm 5 4 == 3)
      (zero || f.d != 0 || bits f.imm 31 6 != 0)
      (.spine q (if bits f.imm 3 0 = 15 then none else some (bits f.imm 3 0)) (bits f.imm 5 4))
  | 5 => sealWord badQ (zero || f.d != 0 || bits f.imm 31 8 != 0)
      (.accrd q (bits f.imm 3 0) (bit f.imm 4) (bits f.imm 6 5) (bit f.imm 7))
  | 6 => sealWord badQ (zero || f.d != 0 || f.imm != 0) (.accclr q)
  | _ => .error .unassignedFunction

/-- One word that is no block header (R78). -/
def decodeWord (w : Nat) : Dec :=
  match majorOf w with
  | 0x10 => decInt 0x10 (splitT w)
  | 0x11 => decInt 0x11 (splitT w)
  | 0x12 => decBit (splitT w)
  | 0x18 => decImm (splitI w)
  | 0x30 => decFloat (splitT w)
  | 0x40 => decBranch 0x40 (splitB w)
  | 0x41 => decBranch 0x41 (splitB w)
  | 0x42 => decBranch 0x42 (splitB w)
  | 0x43 => decJump (splitT w)
  | 0x44 => decBranch 0x44 (splitB w)
  | 0x48 => decPred (splitT w)
  | 0x4C => decSpecial (splitI w)
  | 0x50 => decMem 0x50 (splitM w)
  | 0x51 => decMem 0x51 (splitM w)
  | 0x52 => decMem 0x52 (splitM w)
  | 0x53 => decMem 0x53 (splitM w)
  | 0x54 => decMem 0x54 (splitM w)
  | 0x55 => decMem 0x55 (splitM w)
  | 0x56 => decMem 0x56 (splitM w)
  | 0x57 => decMem 0x57 (splitM w)
  | 0x58 => decMem 0x58 (splitM w)
  | 0x59 => decMem 0x59 (splitM w)
  | 0x5A => decMem 0x5A (splitM w)
  | 0x5B => decMem 0x5B (splitM w)
  | 0x5C => decMem 0x5C (splitM w)
  | 0x5D => decMem 0x5D (splitM w)
  | 0x5E => decMem 0x5E (splitM w)
  | 0x60 => decCounter (splitT w)
  | 0x61 => decFence (splitT w)
  | 0x62 => decBarrier (splitI w)
  | 0x70 => decPattern (splitQ w)
  | 0x71 => decStream (splitQ w)
  | 0x72 => decGate (splitQ w)
  | 0x80 => decCopy (splitQ w)
  | 0x81 => decStitch (splitQ w)
  | 0x90 => decTask (splitQ w)
  | 0x91 => decSys (splitT w)
  | 0xA0 => decMisc (splitI w)
  | 0xB8 => decRegion (splitI w)
  | _ => .error .unassignedMajor

/-! Block instructions (R85 to R89). -/

/-- The major is a block header (R73). -/
def isBlockMajor (major : Nat) : Bool := decide (0xB0 ≤ major) && decide (major ≤ 0xB5)

/-- Extension words that follow a header, 0 for any other word (R71). -/
def extCount (w : Nat) : Nat := if isBlockMajor (majorOf w) then bits w 55 52 else 0

/-- The weave word (R86, R166). -/
def splitWeave (w : Nat) : Weave :=
  ⟨bits w 63 60, bits w 59 56, bits w 55 54, bits w 53 52, bits w 51 48, bits w 47 44, bits w 43 42, bits w 41 40, bits w 39 38,
    bit w 37, bit w 36, bit w 35, bits w 34 32, bits w 31 23, bits w 22 19, bits w 18 17, bits w 16 15⟩

def joinWeave (v : Weave) : Nat :=
  v.aw * 2 ^ 60 + v.bw * 2 ^ 56 + v.ak * 2 ^ 54 + v.bk * 2 ^ 52 + v.flow * 2 ^ 48 + v.win * 2 ^ 44 + v.acc * 2 ^ 42 + v.scl * 2 ^ 40
    + v.spr * 2 ^ 38 + b2n v.ga * 2 ^ 37 + b2n v.gb * 2 ^ 36 + b2n v.stk * 2 ^ 35 + v.red * 2 ^ 32 + v.lanes * 2 ^ 23 + v.eop * 2 ^ 19
    + v.rx * 2 ^ 17 + v.ry * 2 ^ 15

/-- A loop word with tag 0b01 (R87). -/
def joinLoop (level trips : Nat) : Nat := 1 * 2 ^ 62 + level * 2 ^ 60 + trips * 2 ^ 40

/-- A binding word with tag 0b10 (R88). -/
def splitBind (w : Nat) : Bind := ⟨bit w 61, bits w 60 57, bits w 56 53, bits w 52 49, bits w 48 44⟩
def joinBind (b : Bind) : Nat :=
  2 * 2 ^ 62 + b2n b.egress * 2 ^ 61 + b.port * 2 ^ 57 + b.pat * 2 ^ 53 + b.queue * 2 ^ 49 + b.ctr * 2 ^ 44

/-- What the words after the weave word hold: for each word whether it is undefined (R89) and whether a zero field is set. DESIGN CHOICE (log 65): of
two words that name one port and direction the later one is undefined. -/
def extFlags : Nat → List Bind → Bool → List Nat → List (Bool × Bool)
  | _, _, _, [] => []
  | lvl, seen, inBinds, w :: t =>
    match bits w 63 62 with
    | 1 => (inBinds || bits w 61 60 != lvl || decide (4 ≤ lvl) || bits w 59 40 == 0, bits w 39 0 != 0)
        :: extFlags (lvl + 1) seen inBinds t
    | 2 =>
      let b := splitBind w
      (seen.any (fun c => c.egress == b.egress && c.port == b.port), bits w 43 0 != 0) :: extFlags lvl (b :: seen) true t
    | _ => (true, false) :: extFlags lvl seen inBinds t

/-- The loop trips among the words after the weave word. -/
def extLoops (l : List Nat) : List Nat := (l.filter fun w => bits w 63 62 == 1).map fun w => bits w 59 40
/-- The bindings among the words after the weave word. -/
def extBinds (l : List Nat) : List Bind := (l.filter fun w => bits w 63 62 == 2).map splitBind

/-- The class of a block major, and whether the header's class value is assigned (R85). -/
def classOk (major cls : Nat) : Bool :=
  match major with
  | 0xB0 => cls == 0 || cls == 1
  | 0xB1 => cls == 2
  | 0xB2 => cls == 3
  | 0xB3 => cls == 4
  | 0xB4 => cls == 5
  | _ => cls == 6

/-- The instruction of a class (R85). -/
def blockInstr (cls : Nat) (b : BlockArgs) : Instr :=
  match cls with
  | 0 => .blockMWs b
  | 1 => .blockMOs b
  | 2 => .blockE b
  | 3 => .blockA b
  | 4 => .blockS b
  | 5 => .blockZ b
  | _ => .blockG b

/-- A block instruction from its header and extension words; R77 reports the lowest word of the first step that fails. -/
def decodeBlock (h : Nat) (exts : List Nat) : Except Bad Instr :=
  let k := splitK h
  if !classOk (majorOf h) k.cls then .error ⟨.unassignedFunction, 0⟩ else
  let v := splitWeave (exts.headD 0)
  let rest := extFlags 0 [] false exts.tail
  let weaveBad := !exts.isEmpty && (weaveUpperUndef v k.cls || weaveLowerUndef v k.qmask || (k.cls == 6 && bits (exts.headD 0) 14 0 != 0))
  match firstTrue ((!qmaskOk k.qmask || k.n == 0) :: weaveBad :: rest.map (·.1)) with
  | some i => .error ⟨.undefinedValue, i⟩
  | none =>
    match firstTrue ((k.zero != 0 || bits k.flags 7 5 != 0) :: (bits (exts.headD 0) 14 0 != 0) :: rest.map (·.2)) with
    | some i => .error ⟨.reservedNonzero, i⟩
    | none => .ok (blockInstr k.cls ⟨k.qmask, k.folio, bit k.flags 4, bit k.flags 3, bit k.flags 2, bits k.flags 1 0, v,
        extLoops exts.tail, extBinds exts.tail⟩)

/-- An instruction from the words that hold it: the first word, and the extension words of a block (R71). -/
def decode : List Nat → Except Bad Instr
  | [] => .error ⟨.unassignedMajor, 0⟩
  | w :: exts =>
    if isBlockMajor (majorOf w) then decodeBlock w (exts.take (extCount w))
    else match decodeWord w with
      | .ok i => .ok i
      | .error r => .error ⟨r, 0⟩

/-- The words of a little-endian byte string (R71). -/
def wordsOf : List Byte → List Nat
  | b0 :: b1 :: b2 :: b3 :: b4 :: b5 :: b6 :: b7 :: t => ofBytes [b0, b1, b2, b3, b4, b5, b6, b7] :: wordsOf t
  | _ => []

/-- Decoding of the bytes as the tile store holds them. -/
def decodeBytes (l : List Byte) : Except Bad Instr := decode (wordsOf l)

/-- The instruction words of an opcode-table word: bits 63..0 are the first word (the host's numbering). -/
def tableWords (w : Nat) : List Nat := (List.range (1 + extCount (bits w 63 0))).map fun k => bits w (64 * k + 63) (64 * k)

/-- The instruction the decoder reads from a table word of nbits bits, the bits above nbits zero. -/
def decodeTableWord (nbits w : Nat) : Option Instr := (decodeBytes ((tableWords (w % 2 ^ nbits)).flatMap fun v => toBytes v 8)).toOption

/-! The encoder, from the same tables. -/

def encInt (major fn : Nat) (ty : IntTy) (d a b : Nat) : List Nat := [joinT major ⟨fn, d, a, b, 0, ty.code, 0⟩]
def encImm (fn d a mod imm : Nat) : List Nat := [joinI 0x18 ⟨fn, d, a, mod, imm⟩]
def encF (fn d a b c : Nat) (f : FFmt) (code : Nat) : List Nat := [joinT 0x30 ⟨fn, d, a, b, c, f.code * 8 + code, 0⟩]
def encMem (major : Nat) (m : MemArgs) : List Nat := [joinM major ⟨m.w.code, m.data, m.base, m.index, m.scale, m.ord.code, m.off⟩]
def encAmo (major : Nat) (m : AmoArgs) : List Nat := [joinM major ⟨m.op.code, m.data, m.base, m.src, b2n m.wide, m.ord.code, m.off⟩]
def qFlags (q : QArgs) : Nat :=
  q.ctr * 2 ^ 20 + q.csp * 2 ^ 18 + q.rm * 2 ^ 16 + b2n q.sat * 2 ^ 15 + b2n q.grp * 2 ^ 12 + q.aux * 2 ^ 4 + q.port
def encQ (major fn : Nat) (q : QArgs) : List Nat := [joinQ major ⟨fn, q.queue, q.pa, q.pb, q.xs, q.xt, q.qd, qFlags q⟩]
def encBlock (major cls : Nat) (b : BlockArgs) : List Nat :=
  joinK major ⟨1 + b.loops.length + b.binds.length, b.qmask, b.folio, cls, 0, b2n b.hold * 16 + b2n b.keep * 8 + b2n b.sat * 4 + b.rm⟩
    :: joinWeave b.weave :: (b.loops.zipIdx.map (fun p => joinLoop p.2 p.1) ++ b.binds.map joinBind)

/-- The words of a sequencer instruction; a hardware step has none. -/
def encode : Instr → List Nat
  | .add ty d a b => encInt 0x10 0 ty d a b
  | .sub ty d a b => encInt 0x10 1 ty d a b
  | .mul ty d a b => encInt 0x10 2 ty d a b
  | .mulh ty d a b => encInt 0x10 3 ty d a b
  | .mulhn ty d a b => encInt 0x10 4 ty d a b
  | .div ty d a b => encInt 0x10 5 ty d a b
  | .divn ty d a b => encInt 0x10 6 ty d a b
  | .rem ty d a b => encInt 0x10 7 ty d a b
  | .remn ty d a b => encInt 0x10 8 ty d a b
  | .min ty d a b => encInt 0x10 9 ty d a b
  | .max ty d a b => encInt 0x10 10 ty d a b
  | .minn ty d a b => encInt 0x10 11 ty d a b
  | .maxn ty d a b => encInt 0x10 12 ty d a b
  | .and ty d a b => encInt 0x11 0 ty d a b
  | .or ty d a b => encInt 0x11 1 ty d a b
  | .xor ty d a b => encInt 0x11 2 ty d a b
  | .andn ty d a b => encInt 0x11 3 ty d a b
  | .orn ty d a b => encInt 0x11 4 ty d a b
  | .shl ty d a b => encInt 0x11 5 ty d a b
  | .shr ty d a b => encInt 0x11 6 ty d a b
  | .sha ty d a b => encInt 0x11 7 ty d a b
  | .cmpeq ty d a b => encInt 0x11 8 ty d a b
  | .cmplt ty d a b => encInt 0x11 9 ty d a b
  | .cmpltn ty d a b => encInt 0x11 10 ty d a b
  | .csel d a b c => [joinT 0x11 ⟨11, d, a, b, c, 0, 0⟩]
  | .mov d a => [joinT 0x11 ⟨12, d, a, 0, 0, 0, 0⟩]
  | .clz ty d a => [joinT 0x12 ⟨0, d, a, 0, 0, ty.code, 0⟩]
  | .ctz ty d a => [joinT 0x12 ⟨1, d, a, 0, 0, ty.code, 0⟩]
  | .popc ty d a => [joinT 0x12 ⟨2, d, a, 0, 0, ty.code, 0⟩]
  | .sext w d a => [joinT 0x12 ⟨3, d, a, 0, 0, w.code, 0⟩]
  | .zext w d a => [joinT 0x12 ⟨4, d, a, 0, 0, w.code, 0⟩]
  | .addx s d a b => [joinT 0x12 ⟨5, d, a, b, 0, s, 0⟩]
  | .morton t d a b c => [joinT 0x12 ⟨6, d, a, b, c, b2n t, 0⟩]
  | .addi ty d a i => encImm 0 d a ty.code i
  | .andi ty d a i => encImm 1 d a ty.code i
  | .ori ty d a i => encImm 2 d a ty.code i
  | .xori ty d a i => encImm 3 d a ty.code i
  | .shli ty d a n => encImm 4 d a ty.code n
  | .shri ty d a n => encImm 5 d a ty.code n
  | .shai ty d a n => encImm 6 d a ty.code n
  | .li d i => encImm 7 d 0 0 i
  | .lui d a i => encImm 8 d a 0 i
  | .bext d a p l => encImm 9 d a 0 (p + (l - 1) * 2 ^ 8)
  | .bins d a p l => encImm 10 d a 0 (p + (l - 1) * 2 ^ 8)
  | .demorton t d a k => encImm 11 d a (b2n t + 2 * k) 0
  | .fadd f r d a b => encF 0 d a b 0 f r.code
  | .fsub f r d a b => encF 1 d a b 0 f r.code
  | .fmul f r d a b => encF 2 d a b 0 f r.code
  | .ffma f r d a b c => encF 3 d a b c f r.code
  | .fdiv f r d a b => encF 4 d a b 0 f r.code
  | .fsqrt f r d a => encF 5 d a 0 0 f r.code
  | .fmin f d a b => encF 6 d a b 0 f 0
  | .fmax f d a b => encF 7 d a b 0 f 0
  | .fcmp f r d a b => encF 8 d a b 0 f r.code
  | .fcvt c r d a => [joinT 0x30 ⟨9, d, a, 0, r.code, c.code, 0⟩]
  | .fclass f d a => encF 10 d a 0 0 f 0
  | .fmovx f d a => encF 11 d a 0 0 f 0
  | .fmovf f d a => encF 12 d a 0 0 f 0
  | .bc (.rel r a b) w => [joinB 0x40 ⟨r.code, a, b, 0, 0, w⟩]
  | .bc (.p k) w => [joinB 0x40 ⟨6, 0, 0, k, 0, w⟩]
  | .bc (.np k) w => [joinB 0x40 ⟨7, 0, 0, k, 0, w⟩]
  | .jmp w => [joinB 0x41 ⟨0, 0, 0, 0, 0, w⟩]
  | .call l w => [joinB 0x42 ⟨0, l, 0, 0, 0, w⟩]
  | .jmpx l a => [joinT 0x43 ⟨0, l, a, 0, 0, 0, 0⟩]
  | .ret a => [joinT 0x43 ⟨1, 0, a, 0, 0, 0, 0⟩]
  | .loop a w => [joinB 0x44 ⟨0, a, 0, 0, 0, w⟩]
  | .pset r d a b => [joinT 0x48 ⟨0, d, a, b, 0, r.code, 0⟩]
  | .pand d a b => [joinT 0x48 ⟨1, d, a, b, 0, 0, 0⟩]
  | .por d a b => [joinT 0x48 ⟨2, d, a, b, 0, 0, 0⟩]
  | .pnot d a => [joinT 0x48 ⟨3, d, a, 0, 0, 0, 0⟩]
  | .rds d n => [joinI 0x4C ⟨0, d, 0, 0, n⟩]
  | .wrs n a => [joinI 0x4C ⟨1, 0, a, 0, n⟩]
  | .ldg m => encMem 0x50 m
  | .stg m => encMem 0x51 m
  | .amog m => encAmo 0x52 m
  | .ldl m => encMem 0x53 m
  | .stl m => encMem 0x54 m
  | .amol m => encAmo 0x55 m
  | .stx m => encMem 0x56 m
  | .amox m => encAmo 0x57 m
  | .lda m => encMem 0x58 m
  | .sta m => encMem 0x59 m
  | .lds m => encMem 0x5A m
  | .sts m => encMem 0x5B m
  | .amos m => encAmo 0x5C m
  | .ldh m => encMem 0x5D m
  | .sth m => encMem 0x5E m
  | .cadd l d a b => [joinT 0x60 ⟨0, d, a, b, 0, b2n l, 0⟩]
  | .cwait l d a b => [joinT 0x60 ⟨1, d, a, b, 0, b2n l, 0⟩]
  | .cread l d a => [joinT 0x60 ⟨2, d, a, 0, 0, b2n l, 0⟩]
  | .fence s k => [joinT 0x61 ⟨s.code, 0, 0, 0, 0, k.code, 0⟩]
  | .arrive d g => [joinI 0x62 ⟨0, d, 0, 0, g⟩]
  | .wait d a g => [joinI 0x62 ⟨1, d, a, 0, g⟩]
  | .arrwait d g => [joinI 0x62 ⟨2, d, 0, 0, g⟩]
  | .gquery d g => [joinI 0x62 ⟨3, d, 0, 0, g⟩]
  | .patld sp pd xs => [joinQ 0x70 ⟨0, 0, pd, 0, xs, 0, 0, sp.code⟩]
  | .patset f pd src => [joinQ 0x70 ⟨1, 0, pd, if f = .copy then src else 0, if f = .copy then 0 else src, 0, 0, f.code⟩]
  | .patget f pa xd => [joinQ 0x70 ⟨2, 0, pa, 0, xd, 0, 0, f.code⟩]
  | .streamIn q => encQ 0x71 0 q
  | .streamOut q => encQ 0x71 1 q
  | .streamRec q => encQ 0x71 2 q
  | .streamConst q => encQ 0x71 3 q
  | .streamDrop q => encQ 0x71 4 q
  | .streamInd q => encQ 0x71 5 q
  | .sbarRd q d m => [joinQ 0x72 ⟨0, q, 0, 0, 0, 0, d, m⟩]
  | .sbarWr q d m => [joinQ 0x72 ⟨1, q, 0, 0, 0, 0, d, m⟩]
  | .sbarAll q d m => [joinQ 0x72 ⟨2, q, 0, 0, 0, 0, d, m⟩]
  | .scond q t d c s i k => [joinQ 0x72 ⟨3, q, 0, 0, 0, t, d, c * 2 ^ 20 + s * 2 ^ 18 + b2n i * 2 ^ 4 + k⟩]
  | .copy q => encQ 0x80 0 q
  | .mcopy q => encQ 0x80 1 q
  | .rcopy q => encQ 0x80 2 q
  | .stitch q d m => [joinQ 0x81 ⟨0, q, 0, 0, 0, 0, d, m⟩]
  | .qwait m => [joinQ 0x81 ⟨1, 0, 0, 0, 0, 0, 0, m⟩]
  | .qstat q d s c => [joinQ 0x81 ⟨2, q, 0, 0, d, 0, 0, b2n c * 4 + s⟩]
  | .spawn r t q => [joinQ 0x90 ⟨0, 0, 0, 0, r, t, q, 0⟩]
  | .spawnn r t q n => [joinQ 0x90 ⟨1, 0, 0, 0, r, t, q, n - 1⟩]
  | .launch d q => [joinQ 0x90 ⟨2, 0, 0, 0, d, 0, q, 0⟩]
  | .cancel s a q => [joinQ 0x90 ⟨3, 0, 0, 0, s, a, q, 0⟩]
  | .yield => [joinT 0x91 ⟨0, 0, 0, 0, 0, 0, 0⟩]
  | .exit l a b => [joinT 0x91 ⟨1, 0, a, b, 0, b2n l, 0⟩]
  | .scopeSet d p c => [joinT 0x91 ⟨2, d, p, c, 0, 0, 0⟩]
  | .scopeSplit d p c => [joinT 0x91 ⟨2, d, p, c, 0, 1, 0⟩]
  | .chkc => [joinT 0x91 ⟨3, 0, 0, 0, 0, 0, 0⟩]
  | .squery d a => [joinT 0x91 ⟨4, d, a, 0, 0, 0, 0⟩]
  | .trap a n => [joinI 0xA0 ⟨0, 0, a, 0, n⟩]
  | .tret => [joinI 0xA0 ⟨1, 0, 0, 0, 0⟩]
  | .tretN => [joinI 0xA0 ⟨1, 0, 0, 0, 1⟩]
  | .prio r v => [joinI 0xA0 ⟨2, 0, if r then v else 0, b2n r, if r then 0 else v⟩]
  | .mtrd d m => [joinI 0xA0 ⟨3, d, 0, 0, m⟩]
  | .halt c => [joinI 0xA0 ⟨4, 0, 0, 0, c⟩]
  | .nop => [joinI 0xA0 ⟨5, 0, 0, 0, 0⟩]
  | .blockMWs b => encBlock 0xB0 0 b
  | .blockMOs b => encBlock 0xB0 1 b
  | .blockE b => encBlock 0xB1 2 b
  | .blockA b => encBlock 0xB2 3 b
  | .blockS b => encBlock 0xB3 4 b
  | .blockZ b => encBlock 0xB4 5 b
  | .blockG b => encBlock 0xB5 6 b
  | .cfgld q f => [joinI 0xB8 ⟨0, 0, 0, q, f⟩]
  | .cfgsw q => [joinI 0xB8 ⟨1, 0, 0, q, 0⟩]
  | .bdrain q => [joinI 0xB8 ⟨2, 0, 0, q, 0⟩]
  | .bstat d q s => [joinI 0xB8 ⟨3, d, 0, q, s⟩]
  | .spine q w a => [joinI 0xB8 ⟨4, 0, 0, q, w.getD 15 + a * 2 ^ 4⟩]
  | .accrd q e c r s => [joinI 0xB8 ⟨5, 0, 0, q, e + b2n c * 2 ^ 4 + r * 2 ^ 5 + b2n s * 2 ^ 7⟩]
  | .accclr q => [joinI 0xB8 ⟨6, 0, 0, q, 0⟩]
  | _ => []

/-- The bytes of a sequencer instruction in the tile store (R71). -/
def encodeBytes (i : Instr) : List Byte := (encode i).flatMap fun w => toBytes w 8

/-- Bytes an instruction occupies (R71). -/
def Instr.size (i : Instr) : Nat := 8 * (encode i).length

end Sys2Proof
end

