-- ==== Sys2Proof/Machine/Formats.lean ====
section
/-! DEFINITION. Number formats: exact values, decoding, rounding and the block formats (R42 to R62, R417, R418). An exact value is
(-1)^neg * m * 2^e. -/

namespace Sys2Proof.Machine

/-- Rounding modes (R57). -/
inductive Rm where
  | rne | rtz | rup | rdn
  deriving DecidableEq, Repr

/-- The mode of a two-bit code (R23, R165, R230). -/
def Rm.ofCode (n : Nat) : Rm := match n % 4 with | 0 => .rne | 1 => .rtz | 2 => .rup | _ => .rdn

/-- An exact value, an infinity, or a NaN (`sig` when signalling). -/
inductive Num where
  | nan (sig : Bool)
  | inf (neg : Bool)
  | fin (neg : Bool) (m : Nat) (e : Int)
  deriving DecidableEq, Repr

/-- The exceptions of one operation: invalid, division by zero, overflow, underflow, inexact, conversion-invalid (R23, R59). -/
structure Exc where
  nv : Bool := false
  dz : Bool := false
  of : Bool := false
  uf : Bool := false
  nx : Bool := false
  ci : Bool := false
  deriving DecidableEq, Repr

/-- Exceptions of two steps together. -/
def Exc.or (a b : Exc) : Exc := ⟨a.nv || b.nv, a.dz || b.dz, a.of || b.of, a.uf || b.uf, a.nx || b.nx, a.ci || b.ci⟩

/-- An integer as an exact value. -/
def Num.ofInt (v : Int) : Num := .fin (decide (v < 0)) v.natAbs 0

/-- The zero of the given sign. -/
def Num.zero (neg : Bool) : Num := .fin neg 0 0

def Num.isNan : Num → Bool | .nan _ => true | _ => false
def Num.isSig : Num → Bool | .nan s => s | _ => false
def Num.isInf : Num → Bool | .inf _ => true | _ => false
def Num.isZero : Num → Bool | .fin _ 0 _ => true | _ => false
def Num.sign : Num → Bool | .nan _ => false | .inf n => n | .fin n _ _ => n
def Num.neg : Num → Num | .nan s => .nan s | .inf n => .inf (!n) | .fin n m e => .fin (!n) m e

/-- A floating format (R45): exponent bits, fraction bits, bias; `code` is the largest finite code without sign; whether it has
infinity and NaN. -/
structure FF where
  ebits : Nat
  mbits : Nat
  bias : Int
  maxCode : Nat
  hasInf : Bool
  nan : Option Nat
  deriving DecidableEq, Repr

/-- The floating formats of R42 by code; binary64 for any other code. -/
def ffOf (fmt : Nat) : FF :=
  match fmt with
  | 0x0D => ⟨8, 23, 127, 0x7F7FFFFF, true, some 0x7FC00000⟩
  | 0x0E => ⟨5, 10, 15, 0x7BFF, true, some 0x7E00⟩
  | 0x0F => ⟨8, 7, 127, 0x7F7F, true, some 0x7FC0⟩
  | 0x10 => ⟨4, 3, 7, 0x7E, false, some 0x7F⟩
  | 0x11 => ⟨5, 2, 15, 0x7B, true, some 0x7F⟩
  | 0x12 => ⟨3, 2, 3, 0x1F, false, none⟩
  | 0x13 => ⟨2, 3, 1, 0x1F, false, none⟩
  | 0x14 => ⟨2, 1, 1, 0x7, false, none⟩
  | _ => ⟨11, 52, 1023, 0x7FEFFFFFFFFFFFFF, true, some 0x7FF8000000000000⟩

/-- A floating code is one of 0x0C to 0x14 (R42). -/
def isFloatFmt (fmt : Nat) : Bool := decide (0x0C ≤ fmt) && decide (fmt ≤ 0x14)
/-- An integer code is one of 0x00 to 0x0B (R42). -/
def isIntFmt (fmt : Nat) : Bool := decide (fmt ≤ 0x0B)
/-- A signed integer code. -/
def isSignedFmt (fmt : Nat) : Bool := decide (fmt ≤ 5)
/-- The MX block formats (R49). -/
def isMxFmt (fmt : Nat) : Bool := decide (0x18 ≤ fmt) && decide (fmt ≤ 0x1D)
/-- Every block format (R42). -/
def isBlockFmt (fmt : Nat) : Bool := decide (0x17 ≤ fmt) && decide (fmt ≤ 0x1D)

/-- The width w of R42. -/
def fmtWidth (fmt : Nat) : Nat :=
  if fmt ≤ 0x0B then 2 ^ (fmt % 6 + 1)
  else match fmt with
  | 0x0C => 64 | 0x0D => 32 | 0x0E => 16 | 0x0F => 16 | 0x10 => 8 | 0x11 => 8 | 0x12 => 6 | 0x13 => 6 | 0x14 => 4
  | 0x15 => 8 | 0x16 => 8 | 0x17 => 40 | 0x18 => 264 | 0x19 => 264 | 0x1A => 200 | 0x1B => 200 | 0x1C => 136 | 0x1D => 264
  | _ => 1

/-- The bit-address multiple of R43. -/
def fmtAlign (fmt : Nat) : Nat :=
  if fmt = 0x12 || fmt = 0x13 then 2 else if isBlockFmt fmt then 8 else fmtWidth fmt

/-- Decoding of a floating format (R45). -/
def decodeFF (f : FF) (v : Nat) : Num :=
  let neg := bit v (f.ebits + f.mbits)
  let ex := bits v (f.ebits + f.mbits - 1) f.mbits
  let fr := v % 2 ^ f.mbits
  let code := v % 2 ^ (f.ebits + f.mbits)
  if f.maxCode < code then (if f.hasInf && fr == 0 then .inf neg else .nan (!bit fr (f.mbits - 1)))
  else if ex = 0 then .fin neg fr (1 - f.bias - f.mbits)
  else .fin neg (2 ^ f.mbits + fr) (ex - f.bias - f.mbits)

/-- Decoding of an element of a format that is no block format (R44, R45, R47, R48). -/
def decodeNum (fmt v : Nat) : Num :=
  if isIntFmt fmt then Num.ofInt (if isSignedFmt fmt then sext v (fmtWidth fmt) else (zext v (fmtWidth fmt) : Nat))
  else if fmt = 0x15 then (if v % 256 = 255 then .nan false else .fin false 1 (v % 256 - 127))
  else if fmt = 0x16 then
    (if bits v 7 5 = 0 then .fin false (v % 32) (-7) else .fin false (32 + v % 32) (bits v 7 5 - 8))
  else decodeFF (ffOf fmt) v

/-! Exact arithmetic. -/

/-- m * 2^e brought to exponent q ≤ e, as an integer with sign. -/
def alignTo (neg : Bool) (m : Nat) (e q : Int) : Int := if neg then -(m * 2 ^ (e - q).toNat : Nat) else (m * 2 ^ (e - q).toNat : Nat)

/-- The exact sum of two finite values; an exact zero sum is +0, or the common sign of two zeros, or -0 when `down` (R118). -/
def addFin (n1 : Bool) (m1 : Nat) (e1 : Int) (n2 : Bool) (m2 : Nat) (e2 : Int) (down : Bool) : Num :=
  let q := if e1 ≤ e2 then e1 else e2
  let s := alignTo n1 m1 e1 q + alignTo n2 m2 e2 q
  if s = 0 then .fin (if m1 = 0 && m2 = 0 && n1 == n2 then n1 else down) 0 0 else .fin (decide (s < 0)) s.natAbs q

/-- The exact sum, with the special cases of R118; the Bool is NV. -/
def addNum (x y : Num) (down : Bool) : Num × Bool :=
  match x, y with
  | .nan a, .nan b => (.nan false, a || b)
  | .nan a, _ => (.nan false, a)
  | _, .nan b => (.nan false, b)
  | .inf a, .inf b => if a = b then (.inf a, false) else (.nan false, true)
  | .inf a, .fin .. => (.inf a, false)
  | .fin .., .inf b => (.inf b, false)
  | .fin n1 m1 e1, .fin n2 m2 e2 => (addFin n1 m1 e1 n2 m2 e2 down, false)

/-- The exact product, with the special cases of R118; the Bool is NV. -/
def mulNum (x y : Num) : Num × Bool :=
  match x, y with
  | .nan a, .nan b => (.nan false, a || b)
  | .nan a, _ => (.nan false, a)
  | _, .nan b => (.nan false, b)
  | .inf a, .inf b => (.inf (a != b), false)
  | .inf a, .fin n m _ => if m = 0 then (.nan false, true) else (.inf (a != n), false)
  | .fin n m _, .inf b => if m = 0 then (.nan false, true) else (.inf (n != b), false)
  | .fin n1 m1 e1, .fin n2 m2 e2 => (.fin (n1 != n2) (m1 * m2) (e1 + e2), false)

/-- A quotient to at least 66 bits, with a last bit that is set when digits were dropped, so that it rounds as the exact quotient. -/
def divFin (neg : Bool) (m1 : Nat) (e1 : Int) (m2 : Nat) (e2 : Int) : Num :=
  let k := 66 + Nat.log2 m2
  let n := m1 * 2 ^ k
  .fin neg (2 * (n / m2) + b2n (n % m2 != 0)) (e1 - e2 - k - 1)

/-- The quotient; the Bools are NV and DZ (R118). -/
def divNum (x y : Num) : Num × Bool × Bool :=
  match x, y with
  | .nan a, .nan b => (.nan false, a || b, false)
  | .nan a, _ => (.nan false, a, false)
  | _, .nan b => (.nan false, b, false)
  | .inf _, .inf _ => (.nan false, true, false)
  | .inf a, .fin n _ _ => (.inf (a != n), false, false)
  | .fin n _ _, .inf b => (.fin (n != b) 0 0, false, false)
  | .fin n1 m1 e1, .fin n2 m2 e2 =>
    if m2 = 0 then (if m1 = 0 then (.nan false, true, false) else (.inf (n1 != n2), false, true))
    else if m1 = 0 then (.fin (n1 != n2) 0 0, false, false) else (divFin (n1 != n2) m1 e1 m2 e2, false, false)

/-- The square root by digits: the largest r with r * r ≤ v, from `k` down. -/
def isqrtGo (v : Nat) : Nat → Nat → Nat
  | 0, r => r
  | k + 1, r => if (r + 2 ^ k) * (r + 2 ^ k) ≤ v then isqrtGo v k (r + 2 ^ k) else isqrtGo v k r

/-- The integer square root. -/
def isqrt (v : Nat) : Nat := isqrtGo v (Nat.log2 v / 2 + 1) 0

/-- The square root to at least 66 bits with a sticky last bit; the Bool is NV (R118). -/
def sqrtNum (x : Num) : Num × Bool :=
  match x with
  | .nan a => (.nan false, a)
  | .inf n => if n then (.nan false, true) else (.inf false, false)
  | .fin n m e =>
    if m = 0 then (.fin n 0 0, false) else if n then (.nan false, true)
    else
      let v := if e % 2 = 0 then m * 2 ^ 140 else 2 * m * 2 ^ 140
      let h := if e % 2 = 0 then e / 2 else (e - 1) / 2
      let r := isqrt v
      (.fin false (2 * r + b2n (r * r != v)) (h - 71), false)

/-- Comparison of two values that are not NaN: less. -/
def ltNum (x y : Num) : Bool :=
  match x, y with
  | .inf a, .inf b => a && !b
  | .inf a, .fin .. => a
  | .fin .., .inf b => !b
  | .fin n1 m1 e1, .fin n2 m2 e2 =>
    let q := if e1 ≤ e2 then e1 else e2
    decide (alignTo n1 m1 e1 q < alignTo n2 m2 e2 q)
  | _, _ => false

/-- Equal values; +0 equals -0; a NaN equals nothing. -/
def eqNum (x y : Num) : Bool :=
  match x, y with
  | .nan _, _ => false
  | _, .nan _ => false
  | a, b => !ltNum a b && !ltNum b a

/-- minimumNumber and maximumNumber (R119): -0 ranks below +0; the Bool is NV. -/
def minmaxNum (isMax : Bool) (x y : Num) : Num × Bool :=
  match x, y with
  | .nan a, .nan b => (.nan false, a || b)
  | .nan a, v => (v, a)
  | v, .nan b => (v, b)
  | a, b =>
    let less := ltNum a b || (eqNum a b && a.sign && !b.sign)
    (if less != isMax then a else b, false)

/-! Rounding (R57, R58). -/

/-- n is rounded away: the discarded part is rem of 2^s (s > 0). -/
def roundUp (rm : Rm) (neg : Bool) (n rem s : Nat) : Bool :=
  match rm with
  | .rne => decide (2 ^ s < 2 * rem) || (2 * rem == 2 ^ s && n % 2 == 1)
  | .rtz => false
  | .rup => !neg && rem != 0
  | .rdn => neg && rem != 0

/-- m * 2^e as a multiple of 2^q under a mode, and whether it was inexact. -/
def roundAt (rm : Rm) (neg : Bool) (m : Nat) (e q : Int) : Nat × Bool :=
  if q ≤ e then (m * 2 ^ (e - q).toNat, false)
  else
    let s := (q - e).toNat
    let n := m / 2 ^ s
    let r := m % 2 ^ s
    (n + b2n (roundUp rm neg n r s), r != 0)

/-- An overflow goes to infinity (or NaN) rather than to the largest finite value (R58). -/
def overToInf (rm : Rm) (neg : Bool) : Bool :=
  match rm with
  | .rne => true
  | .rtz => false
  | .rup => !neg
  | .rdn => neg

/-- Sign bit in place. -/
def signBit (f : FF) (neg : Bool) : Nat := b2n neg * 2 ^ (f.ebits + f.mbits)

/-- An infinity of the format; NaN in E4M3, the largest value in the FP6 and FP4 formats (R58). -/
def infCode (f : FF) (neg : Bool) : Nat :=
  if f.hasInf then signBit f neg + (2 ^ f.ebits - 1) * 2 ^ f.mbits
  else match f.nan with
    | some c => c
    | none => signBit f neg + f.maxCode

/-- A NaN of the format, and conversion-invalid where it has none (R46, R59). -/
def nanCode (f : FF) : Nat × Exc :=
  match f.nan with
  | some c => (c, {})
  | none => (2 ^ (f.ebits + f.mbits + 1) - 1, { ci := true })

/-- The finite value m * 2^e is tiny after rounding with an unbounded exponent (R57, R118). -/
def tinyAfter (f : FF) (rm : Rm) (neg : Bool) (m : Nat) (e : Int) : Bool :=
  let l := (Nat.log2 m : Int) + e
  let r := roundAt rm neg m e (l - f.mbits)
  decide (l < 1 - f.bias) && !(r.1 == 2 ^ (f.mbits + 1) && decide (l + 1 = 1 - f.bias))

/-- round(x, fmt, mode) for a floating format; `sat` is saturate-to-finite, for E4M3 and E5M2 only (R57, R58). -/
def roundFF (f : FF) (satOk : Bool) (rm : Rm) (sat : Bool) (x : Num) : Nat × Exc :=
  match x with
  | .nan _ => nanCode f
  | .inf n => if satOk && sat then (signBit f n + f.maxCode, {}) else (infCode f n, {})
  | .fin n m e =>
    if m = 0 then (signBit f n, {})
    else
      let emin : Int := 1 - f.bias - f.mbits
      let l := (Nat.log2 m : Int) + e - f.mbits
      let q := if l < emin then emin else l
      let r := roundAt rm n m e q
      let code := (q - emin).toNat * 2 ^ f.mbits + r.1
      if f.maxCode < code then
        (if satOk && sat then signBit f n + f.maxCode
         else if !f.hasInf && f.nan.isNone then signBit f n + f.maxCode
         else if overToInf rm n then infCode f n else signBit f n + f.maxCode, { of := true, nx := true })
      else (signBit f n + code, { uf := r.2 && tinyAfter f rm n m e, nx := r.2 })

/-- The exact value rounded to an integer under a mode, and whether it was inexact. -/
def roundInt (rm : Rm) (n : Bool) (m : Nat) (e : Int) : Int × Bool :=
  let r := roundAt rm n m e 0
  (if n then -(r.1 : Int) else r.1, r.2)

/-- Conversion to an integer format (R60): saturating; `nv` when NaN or out of range, else `nx` when inexact (R120). -/
def roundToInt (signed : Bool) (w : Nat) (rm : Rm) (x : Num) : Nat × Exc :=
  let lo : Int := if signed then -(2 ^ (w - 1) : Nat) else 0
  let hi : Int := if signed then (2 ^ (w - 1) : Nat) - 1 else (2 ^ w : Nat) - 1
  match x with
  | .nan _ => (0, { nv := true })
  | .inf n => (wrap (if n then lo else hi) w, { nv := true })
  | .fin n m e =>
    let r := roundInt rm n m e
    if r.1 < lo || hi < r.1 then (wrap (sat r.1 lo hi) w, { nv := true }) else (wrap r.1 w, { nx := r.2 })

/-- Conversion into E8M0 (R417). -/
def roundE8M0 (rm : Rm) (x : Num) : Nat × Exc :=
  match x with
  | .nan _ => (255, { ci := true })
  | .inf n => if n then (255, { ci := true }) else (254, {})
  | .fin n m e =>
    if m = 0 then (0, {})
    else if n then (255, { ci := true })
    else
      let k := (Nat.log2 m : Int) + e
      if k < -127 then (0, {})
      else if 127 ≤ k then (254, {})
      else
        let lowX := (k + 127).toNat
        let pow := m == 2 ^ Nat.log2 m
        let up := match rm with
          | .rup => !pow
          | .rne => decide (3 * 2 ^ Nat.log2 m < 2 * m) || (3 * 2 ^ Nat.log2 m == 2 * m && lowX % 2 == 1)
          | _ => false
        (lowX + b2n up, {})

/-- Conversion into E3M5 (R418). -/
def roundE3M5 (rm : Rm) (x : Num) : Nat × Exc :=
  match x with
  | .nan _ => (0, { ci := true })
  | .inf n => (if n then 0 else 255, {})
  | .fin n m e =>
    if n || m = 0 then (0, {})
    else
      let l := (Nat.log2 m : Int) + e - 5
      let q := if l < -7 then -7 else l
      let code := (q + 7).toNat * 32 + (roundAt rm false m e q).1
      (if code ≤ 255 then code else 255, {})

/-- round(x, fmt, mode) for every format that is no block format. -/
def roundNum (fmt : Nat) (rm : Rm) (sat : Bool) (x : Num) : Nat × Exc :=
  if isIntFmt fmt then roundToInt (isSignedFmt fmt) (fmtWidth fmt) rm x
  else if fmt = 0x15 then roundE8M0 rm x
  else if fmt = 0x16 then roundE3M5 rm x
  else roundFF (ffOf fmt) (fmt == 0x10 || fmt == 0x11) rm sat x

/-! SX80 (R55) as an 80-bit number: s in bits 63..0, e in bits 79..64. -/

def sxNan : Nat := 0x7FFF * 2 ^ 64
def sxInf (neg : Bool) : Nat := (if neg then 0x7FFD else 0x7FFE) * 2 ^ 64

def decodeSx (v : Nat) : Num :=
  let s := sext v 64
  let e := bits v 79 64
  if s = 0 then (if e = 0x7FFF then .nan false else if e = 0x7FFE then .inf false else if e = 0x7FFD then .inf true else .zero false)
  else .fin (decide (s < 0)) s.natAbs (sext e 16)

/-- round(x, sx80, rne). -/
def roundSx (x : Num) : Nat :=
  match x with
  | .nan _ => sxNan
  | .inf n => sxInf n
  | .fin n m e =>
    if m = 0 then 0
    else
      let l := (Nat.log2 m : Int) + e - 62
      let q := if l < -32768 then -32768 else l
      let r := (roundAt .rne n m e q).1
      if r = 0 then 0
      else
        let norm : Nat × Int :=
          if !n && r == 2 ^ 63 then (2 ^ 62, q + 1)
          else if n && r == 2 ^ 62 && decide (-32768 < q) then (2 ^ 63, q - 1) else (r, q)
        if 32767 < norm.2 then sxInf n
        else wrap (if n then -(norm.1 : Int) else norm.1) 64 + wrap norm.2 16 * 2 ^ 64

/-! Block formats (R49, R50). -/

/-- The element format of an MX block (i8 for MXINT8). -/
def mxElem (fmt : Nat) : Nat :=
  match fmt with
  | 0x18 => 0x10 | 0x19 => 0x11 | 0x1A => 0x12 | 0x1B => 0x13 | 0x1C => 0x14 | _ => 0x02

/-- A value times 2^k. -/
def scaleNum (x : Num) (k : Int) : Num := match x with | .fin n m e => .fin n m (e + k) | v => v

/-- The 32 values of an MX block (R49). -/
def decodeMx (fmt v : Nat) : List Num :=
  let w := fmtWidth (mxElem fmt)
  let x := bits v (32 * w + 7) (32 * w)
  (List.range 32).map fun j =>
    if x = 255 then .nan false
    else scaleNum (decodeNum (mxElem fmt) (bits v (w * j + w - 1) (w * j))) ((x : Int) - 127 - (if fmt = 0x1D then 6 else 0))

/-- The eight elements of an FP4-B8 block (R50). -/
def decodeB8 (v : Nat) : List Num := (List.range 8).map fun j => decodeNum 0x14 (bits v (4 * j + 3) (4 * j))
/-- The scale of an FP4-B8 block. -/
def scaleB8 (v : Nat) : Num := decodeNum 0x16 (bits v 39 32)

/-- emax of R61. -/
def mxEmax (fmt : Nat) : Int := match fmt with | 0x18 => 8 | 0x19 => 15 | 0x1A => 4 | 0x1B => 2 | 0x1C => 2 | _ => 0

/-- floor(log2 |x|) of a finite nonzero value. -/
def floorLog (x : Num) : Option Int := match x with | .fin _ m e => if m = 0 then none else some ((Nat.log2 m : Int) + e) | _ => none

/-- The largest of floor(log2) over the finite nonzero values: the floor of log2 amax. -/
def maxLog (l : List Num) : Option Int :=
  (l.filterMap floorLog).foldl (fun a v => match a with | none => some v | some b => some (if b < v then v else b)) none

/-- Conversion of 32 exact values into an MX block (R61). -/
def encodeMx (fmt : Nat) (rm : Rm) (sat_ : Bool) (l : List Num) : Nat × Exc :=
  let w := fmtWidth (mxElem fmt)
  if l.any Num.isNan then (255 * 2 ^ (32 * w), {})
  else
    let x : Int := match maxLog l with
      | none => 0
      | some g => sat (g - mxEmax fmt + 127) 0 254
    let el := l.map fun v => roundNum (mxElem fmt) rm sat_ (scaleNum v (127 - x + (if fmt = 0x1D then 6 else 0)))
    (((el.zipIdx.map fun p => p.1.1 * 2 ^ (w * p.2)).sum) + x.toNat * 2 ^ (32 * w), el.foldl (fun a p => a.or p.2) {})

/-! The brick side of a format (R63). -/

/-- Bits of the significand, none when the format has no brick cell. -/
def sigBits (fmt : Nat) : Option Nat :=
  match fmt with
  | 0x00 | 0x06 => some 2
  | 0x01 | 0x07 => some 4
  | 0x02 | 0x08 => some 8
  | 0x03 | 0x09 => some 16
  | 0x0D => some 24
  | 0x0E => some 11
  | 0x0F => some 8
  | 0x10 | 0x18 | 0x13 | 0x1B => some 4
  | 0x11 | 0x19 | 0x12 | 0x1A => some 3
  | 0x14 | 0x1C | 0x17 => some 2
  | 0x1D => some 8
  | _ => none

/-- Digits of an operand. -/
def digitsOf (fmt : Nat) : Option Nat := (sigBits fmt).map fun b => cdiv b 2

/-- The brick kind of R44 and R63: 0 unsigned, 1 signed, 2 float. -/
def brickKind (fmt : Nat) : Nat := if isIntFmt fmt then (if isSignedFmt fmt then 1 else 0) else 2

/-! EX2 and LG2 (R206): the exact real to 256 bits or more with a sticky last bit (log 13). -/

/-- floor(ln 2 * 2^320) from the series of 1 / (k 2^k). -/
def ln2Fix : Nat := ((List.range 320).map fun k => 2 ^ 320 / ((k + 1) * 2 ^ (k + 1))).sum

/-- The series of exp at y * 2^-320, in units of 2^-320. -/
def expSeries (y : Nat) : Nat := ((List.range 96).foldl (fun (p : Nat × Nat) k => (p.1 * y / 2 ^ 320 / (k + 1), p.2 + p.1)) (2 ^ 320, 0)).2

/-- 2^x for a finite binary32 x, to 256 bits (exact for an integer x). -/
def exp2Num (x : Num) : Num :=
  match x with
  | .nan s => .nan s
  | .inf n => if n then .zero false else .inf false
  | .fin n m e =>
    if m = 0 then .fin false 1 0
    else if 0 ≤ e || m % 2 ^ (-e).toNat = 0 then
      let v := roundInt .rtz n m e
      if 400 < v.1 then .fin false 1 400 else if v.1 < -400 then .fin false 1 (-400) else .fin false 1 v.1
    else
      let fl := (roundInt .rdn n m e).1
      if 400 < fl then .fin false 1 400 else if fl < -400 then .fin false 1 (-400)
      else
        let frac := alignTo n m e (-400) - fl * 2 ^ 400
        let y := (frac.toNat * ln2Fix) / 2 ^ 400
        .fin false (2 * (expSeries y / 2 ^ 64) + 1) (fl - 257)

/-- Bits of log2 of y * 2^-700 in [1, 2), by repeated squaring. -/
def log2Bits : Nat → Nat → Nat → Nat
  | 0, _, acc => acc
  | k + 1, y, acc =>
    let z := y * y / 2 ^ 700
    if 2 ^ 701 ≤ z then log2Bits k (z / 2) (2 * acc + 1) else log2Bits k z (2 * acc)

/-- log2 x of a positive finite value, to 256 bits after the point (exact for a power of two). -/
def log2Num (m : Nat) (e : Int) : Num :=
  let l := Nat.log2 m
  if m = 2 ^ l then Num.ofInt ((l : Int) + e)
  else
    let frac := log2Bits 256 (m * 2 ^ (700 - l)) 0
    let v : Int := ((l : Int) + e) * 2 ^ 257 + (2 * frac + 1 : Nat)
    .fin (decide (v < 0)) v.natAbs (-257)

end Sys2Proof.Machine
end

