-- ==== Sys2Proof/Config.lean ====
section
/-! DEFINITION. What the spec leaves open: free values and functions without a body, so that no proof can see a value of them (logs 4, 5). -/

namespace Sys2Proof.Config

/-- A free number. `State.free` counts the ones taken (log 4). -/
opaque freeNat : Nat → Nat
/-- A free byte: what the host answers to byte k of the n-th read (R138, R289; log 4). -/
opaque hostByte : Nat → Nat → BitVec 8
/-- Free choices: a host read or write of a copy ends in an error or a time-out (R136, R249), a host completion is poisoned (R316), a read of
the reserve tier returns poison, by the address (R305, R316; log 4). -/
opaque hostFails : Nat → Bool
opaque hostPoison : Nat → Bool
opaque cxlPoison : Nat → Nat → Bool
/-- A free choice: which 8-byte part of a .b128 access or a PATLD is performed next (R131, R232; log 6). -/
opaque partFirst : Nat → Nat
/-- A free choice: whether an element that a copy has already overwritten is read old or new (R241, R182; log 6). -/
opaque overlapOld : Nat → Bool
/-- SHA-384 of a number taken as bits (R377, R382; log 5). -/
opaque sha384 : Nat → Nat
/-- The device key's signature of a message digest (R382, R391; log 5). -/
opaque sign : Nat → Nat
/-- The public key verifies the signature of a message (R377; log 5). -/
opaque verify (key msg sig : Nat) : Bool
/-- The owner key hash in Clasp's non-volatile store when the module is delivered (R377; log 5). -/
opaque ownerDelivered : Nat
/-- The device certificate chain (R384; log 5). -/
opaque certificate : Nat
/-- Measurements of the Clasp and firmware images (R384; log 5). -/
opaque imageMeasure : Nat → Nat
/-- The responder's share and proof of a key exchange (R384; log 5). -/
opaque keyShare : Nat → Nat
/-- The session secret that a FINISH must prove (R384; log 5). -/
opaque finishProof : Nat → Nat
/-- This module's number in its UALink domain, assigned by the rack scheduler (R374; log 5). -/
opaque moduleNo : Nat

end Sys2Proof.Config
end

