-- ==== Sys2Proof/Machine/Store.lean ====
section
/-! DEFINITION. Keyed lists in one sorted form, and byte stores with poison (R5, R139, R278): the list forms that State holds. -/

namespace Sys2Proof.Machine

/-- A finite map: key and value pairs in ascending key order. -/
abbrev Map (α : Type) := List (Nat × α)

/-- The entry of key k. -/
def mfind {α : Type} (k : Nat) : Map α → Option α
  | [] => none
  | (j, v) :: t => if j = k then some v else mfind k t

/-- The entry of key k, or d. -/
def mget {α : Type} (d : α) (m : Map α) (k : Nat) : α := (mfind k m).getD d

/-- The map without key k. -/
def mdel {α : Type} (k : Nat) : Map α → Map α
  | [] => []
  | (j, v) :: t => if j = k then mdel k t else (j, v) :: mdel k t

/-- Insertion before the first larger key. -/
def mins {α : Type} (k : Nat) (v : α) : Map α → Map α
  | [] => [(k, v)]
  | (j, w) :: t => if k < j then (k, v) :: (j, w) :: t else (j, w) :: mins k v t

/-- The map with key k bound to v. -/
def mput {α : Type} (m : Map α) (k : Nat) (v : α) : Map α := mins k v (mdel k m)

/-- The map with f applied to the entry of key k (d when absent). -/
def mmod {α : Type} (d : α) (m : Map α) (k : Nat) (f : α → α) : Map α := mput m k (f (mget d m k))

/-- The keys. -/
def mkeys {α : Type} (m : Map α) : List Nat := m.map (·.1)

/-- Membership in a sorted list of numbers. -/
def sadd (l : List Nat) (k : Nat) : List Nat := if l.contains k then l else insertBy (fun a b => decide (a < b)) k l

/-- A byte store: the bytes that differ from 0, by address, and the aligned 16-byte units that carry poison (R139). -/
structure Store where
  bytes : List Host.Cell
  poison : List Nat
  deriving DecidableEq, Repr

/-- An empty store: every byte 0, no poison. -/
def Store.empty : Store := ⟨[], []⟩

/-- One byte. An unlisted address reads 0 (R376 for HBM; log 1 for the rest). -/
def readByte (m : List Host.Cell) (a : Nat) : Byte := mget 0 m a

/-- One byte written, in the canonical form: an entry equal to 0 is not listed. -/
def writeByte (m : List Host.Cell) (a : Nat) (b : Byte) : List Host.Cell := if b = 0 then mdel a m else mput m a b

/-- Bytes written from address a upward. -/
def writeBytes (m : List Host.Cell) (a : Nat) : List Byte → List Host.Cell
  | [] => m
  | b :: t => writeBytes (writeByte m a b) (a + 1) t

/-- n bytes from address a upward. -/
def readBytes (m : List Host.Cell) (a n : Nat) : List Byte := (List.range n).map fun k => readByte m (a + k)

/-- The little-endian value of n bytes at a (R5). -/
def Store.read (s : Store) (a n : Nat) : Nat := ofBytes (readBytes s.bytes a n)

/-- The 16-byte units that n bytes at a touch. -/
def unitsOf (a n : Nat) : List Nat := if n = 0 then [] else (List.range ((a + n - 1) / 16 - a / 16 + 1)).map (a / 16 + ·)

/-- A touched unit carries poison (R139). -/
def Store.poisoned (s : Store) (a n : Nat) : Bool := (unitsOf a n).any s.poison.contains

/-- The first poisoned unit's address, or a. -/
def Store.poisonAddr (s : Store) (a n : Nat) : Nat := (((unitsOf a n).find? s.poison.contains).map (· * 16)).getD a

/-- Bytes written; a unit that is written in full loses its poison, a unit written in part keeps it (R139). -/
def Store.writeList (s : Store) (a : Nat) (l : List Byte) : Store :=
  ⟨writeBytes s.bytes a l, s.poison.filter fun u => !(decide (a ≤ u * 16) && decide (u * 16 + 16 ≤ a + l.length))⟩

/-- An n-byte value written little-endian. -/
def Store.write (s : Store) (a n v : Nat) : Store := s.writeList a (toBytes v n)

/-- The units of n bytes at a become poison (R242, R316). -/
def Store.addPoison (s : Store) (a n : Nat) : Store := ⟨s.bytes, (unitsOf a n).foldl sadd s.poison⟩

/-- Strictly rising addresses, no listed byte equal to 0. -/
def cellsWf : List Host.Cell → Bool
  | [] => true
  | (a, b) :: t => b != 0 && t.all (fun c => decide (a < c.1)) && cellsWf t

/-- The canonical form of a store's bytes. -/
def Store.wf (s : Store) : Bool := cellsWf s.bytes

end Sys2Proof.Machine
end

