-- ==== Sys2Proof/Machine/State.lean ====
section
/-! DEFINITION. The state of the module as plain data: every piece of state the spec names, the agenda that says which step is next,
the reasons a step can stop, and the state after reset (R10 to R39, R162, R222, R306, R342, R361, R370, R377 to R392). -/

namespace Sys2Proof.Machine

/-- Why the machine stops. -/
inductive Fault where
  /-- Raised by `step` when Clasp has removed power (R392) and the next act is no power-on: the spec gives an unpowered module no effect.
  Safe: nothing is claimed of an unpowered module. -/
  | noPower
  deriving DecidableEq, Repr

/-- Why an instruction has no meaning. -/
inductive Refusal where
  /-- Raised by an arm of `exec` for a row of the opcode table that has no meaning yet. Safe. -/
  | notModelled (mnemonic : String)
  deriving DecidableEq, Repr

/-- One act of an agent: the issue slot of a context of a tile, or one hardware step (log 3). -/
inductive Act where
  | issue (t c : Nat)
  | event (i : Instr)
  deriving DecidableEq, Repr

/-- The registers a task owns: R13, FMODE (R23), LSSUM (R24) and the SPINE overrides per quarter (R194). A register that is not listed
holds 0. -/
structure Regs where
  x : Map Word
  f : Map Word
  b : Map Bool
  p : Map (BitVec 256)
  pc : Word
  fmode : BitVec 9
  lssum : BitVec 4
  spineWin : Map Nat
  spineAcc : Map Nat
  deriving DecidableEq, Repr

/-- A task: the copy of its record (R36, R253), its launch, the priority it was queued at, the phase it last
arrived in by group (R156), and the registers a YIELD saved, with the YIELD's address (R124, R269). -/
structure Task where
  addr : Nat
  scope : Nat
  pri : Nat
  entry : Nat
  arg : Nat
  vtile : Nat
  groups : List Nat
  depAddr : Nat
  depTgt : Nat
  lid : Nat
  depWarned : Bool
  arrived : Map Nat
  saved : Option Regs
  lastPc : Option Word
  deriving DecidableEq, Repr

/-- What a waiting context waits for (R16). -/
inductive Wait where
  | cwait (loc : Bool) (d addr target : Nat)
  | barrier (d g p : Nat) (spent : Bool)
  | qwait (ids : List Nat)
  | bdrain (qmask : Nat)
  | block (cls : Nat) (b : BlockArgs) (imgs : List Nat) (ctrs : List Nat) (since : Nat) (after : List Nat)
  deriving DecidableEq, Repr

/-- Kind of an outstanding access (R133, R280). -/
inductive AKind where
  | load | store | amo | cadd | cread | gquery | mtrd | patld | zread
  | fence (sc : Scope) (k : FenceKind)
  deriving DecidableEq, Repr

/-- Where a result goes. -/
inductive Dst where
  | none | x (d : Nat) | f (d : Nat) | pair (d : Nat) | p (d : Nat)
  deriving DecidableEq, Repr

/-- How far an access is: issued, performed at its home with the value it read, or found faulting (R136, R271). -/
inductive ASt where
  | issued
  | performed (v : Nat)
  | faulted (cause addr aux : Nat)
  deriving DecidableEq, Repr

/-- The home of an access: a physical address of device memory (R298), a tile store, accumulator memory, staging memory of a die, host
memory of a partition (R278), or a physical address that the partition does not own, where nothing is performed (R298, R380). -/
inductive Home where
  | dev (pa : Nat) | tile (t off : Nat) | acc (t off : Nat) | staging (die off : Nat) | host (part iova : Nat) | lost (pa : Nat)
  deriving DecidableEq, Repr

/-- An outstanding access of a context, in program order: `own` is the serial number of its task, `inTrap` says that a trap handler
issued it, `got` holds the 8-byte parts of a .b128 access or a PATLD already performed, with the values read (R131, R232). -/
structure Access where
  id : Nat
  own : Nat
  kind : AKind
  space : Nat
  addr : Nat
  size : Nat
  wop : Wop
  op : AmoOp
  data : Nat
  expd : Nat
  ord : Ord
  dst : Dst
  pc : Nat
  tag : Nat
  inTrap : Bool
  home : Option Home
  got : Map Nat
  st : ASt
  deriving DecidableEq, Repr

/-- A deferred trap held for a context (R271). -/
structure Deferred where
  cause : Nat
  addr : Nat
  aux : Nat
  own : Bool
  deriving DecidableEq, Repr

/-- An arrival that awaits its answer (R154): `answer` is some (some p) for counted(p), some none for over-arrival. -/
structure Arriving where
  d : Nat
  g : Nat
  tag : Nat
  thenWait : Bool
  answer : Option (Option Nat)
  deriving DecidableEq, Repr

/-- Block status of a context on a quarter (R195); `no` numbers the context's instances. -/
structure BStat where
  beats : Nat
  cinv : Bool
  stray : Bool
  ls : Bool
  i0 : Nat
  i1 : Nat
  i2 : Nat
  i3 : Nat
  strays : Nat
  no : Nat
  deriving DecidableEq, Repr

/-- An instruction in flight (R109, R110): the cycle from which its result can be read, its destination (register file and number), whether it
holds the divide-and-square-root unit, whether it is a taken branch, behind which nothing issues until that cycle. -/
structure Busy where
  due : Nat
  dst : Option (Nat × Nat)
  divider : Bool
  jump : Bool
  deriving DecidableEq, Repr

/-- A sequencer context (R13, R16, R17). `serial` numbers the tasks it has run; `cont` is set while a block continuation is held
(R186), with the header's address; `lastPc` is the last instruction issued (R124); `spawnQ` is the quote and the acceptance of the last
spawn (R256); `killAt` the resident cycle of a cancel that covers a task in trap mode (R267), `doom` a CANCEL of its own that covers the
task before it is registered here (R268); `busy` the instructions whose results cannot be read yet (R109), `fflight` the cycle in which a float
instruction completes, with its flags (R122). -/
structure Ctx where
  regs : Regs
  task : Option Task
  serial : Nat
  wait : Option Wait
  trap : Bool
  halted : Bool
  trapPc : Word
  trapCause : BitVec 8
  trapAddr : Word
  trapAux : Word
  quoteLim : Word
  prio : Nat
  outs : List Access
  deferred : List Deferred
  cont : Option (Nat × Nat)
  bstat : Map BStat
  arriving : Option Arriving
  lastPc : Option Word
  spawnQ : Nat
  spawnAt : Nat
  killAt : Option Nat
  doom : Option Nat
  busy : List Busy
  fflight : List (Nat × Nat)
  age : Nat
  deriving DecidableEq, Repr

/-- The commands of an engine queue (R223). -/
inductive QKind where
  | copy | mcopy | rcopy | sIn | sOut | sRec | sConst | sDrop | sInd | sbarRd | sbarWr | sbarAll | scond | stitch
  deriving DecidableEq, Repr

/-- State of an entry: queued, started, its work done but not retired (R223, R224). -/
inductive QSt where
  | queued | started | finished
  deriving DecidableEq, Repr

/-- A leaf of a partition's page tables (R301). -/
structure Leaf where
  va : Nat
  psz : Nat
  frame : Nat
  rd : Bool
  wr : Bool
  deriving DecidableEq, Repr

/-- An element on its way through the network: its number, its byte address, and for an egress stream the memory it was translated to when the
port gave it up, with the bit shift (R309). -/
structure Flown where
  elem : Nat
  addr : Nat
  segs : List (Home × Nat)
  sh : Nat
  deriving DecidableEq, Repr

/-- A queue entry (R222): the command with everything captured at issue, its progress, and the status of its contribution. `pos` counts the
elements moved, `seq` is the next SEQ to send and `base` the last BASE told (R353), `stop` a fault at element `pos`, `old` the source of an
overlapping copy as it stood (R241), `fidx` the loop indices of a fault, `flight` the beats on their way by their first SEQ, `held` the
translations that a probe keeps (R245, R309), `ctrSent` a contribution on its way to another tile's record (R224), `no` its number among the
entries of its queue (R239), and `began` says that it has started (R247). -/
structure QEntry where
  id : Nat
  kind : QKind
  pa : Nat
  pb : Nat
  xs : Nat
  xt : Nat
  amount : Nat
  ctr : Option (Nat × Nat)
  rm : Nat
  sat : Bool
  aux : Nat
  port : Nat
  mask : Nat
  inv : Bool
  members : List Nat
  tag : Nat
  ctx : Nat
  own : Nat
  lid : Nat
  after : List Nat
  waits : List Nat
  skipped : Bool
  st : QSt
  engine : Option Nat
  probed : Bool
  pos : Nat
  seq : Nat
  base : Nat
  sentEnd : Bool
  trk : Option Nat
  stop : Option (Nat × Nat)
  cxl : Bool
  flt : Bool
  psn : Bool
  fcode : Nat
  faddr : Nat
  quote : Nat
  at_ : Nat
  byInst : Bool
  old : List Nat
  fidx : List Nat
  flight : Map (List Flown)
  held : List Leaf
  ctrSent : Bool
  no : Nat
  began : Bool
  deriving DecidableEq, Repr

/-- An engine queue (R222, R247). `entered` counts the entries that it has taken (R239). -/
structure Queue where
  entries : List QEntry
  entered : Nat
  skip : Nat
  retired : Nat
  fv : Bool
  faddr : Nat
  fidx : List Nat
  fcause : Nat
  fretired : Nat
  deriving DecidableEq, Repr

/-- One element in a port buffer: its storage bits, its format, the N of a compressed group (0 for a plain element), the byte address it came
from (R51, R185, R235). -/
structure PElem where
  bits : Nat
  fmt : Nat
  grp : Nat
  psn : Bool
  addr : Nat
  deriving DecidableEq, Repr

/-- A fabric port: the stream that holds it (queue and entry), the elements waiting between memory and fabric, and how many of the stream's
elements the fabric had moved when the cycle began (R228). -/
structure Port where
  holder : Option (Nat × Nat)
  fifo : List PElem
  mark : Nat
  deriving DecidableEq, Repr

/-- A gathering buffer (R353): BASE, slots by SEQ with data and poison, the last BASE told, the last SEQ of a stream end, the network
cycles BASE has waited (R356), the SQ of a stream end that the sender of a cancelled stream still owes (R359), and whether a resumption still
owes its window update (R358). -/
structure GBuf where
  base : Nat
  slots : Map (Nat × Bool)
  told : Nat
  endSeq : Option Nat
  waited : Nat
  endDue : Option Nat
  resync : Bool
  deriving DecidableEq, Repr

/-- A tracker of an egress stream: a remote one for space 2, or the memory edge's own for spaces 0 and 5 (R353); `port` is the stream's, which its
updates name (R354). -/
structure Tracker where
  srcTile : Nat
  port : Nat
  queue : Nat
  entry : Nat
  pat : Nat
  base : Nat
  slots : Map (Nat × Bool)
  told : Nat
  endSeq : Option Nat
  waited : Nat
  resync : Bool
  deriving DecidableEq, Repr

/-- A scoreboard entry (R159): the copy, its space, the range and whether it writes. -/
structure Range where
  id : Nat
  space : Nat
  lo : Nat
  hi : Nat
  write : Bool
  deriving DecidableEq, Repr

/-- The element part of a class-6 folio (R104, R207, R215), raw words. -/
structure EPart where
  rules : List (List Nat)
  conflicts : List (List Nat)
  handlers : List (List Nat)
  pbInit : List Nat
  frames : Nat
  convs : List Nat
  nodes : List Nat
  zeroBad : Bool
  deriving DecidableEq, Repr

/-- A folio image's header (R163) and element part. -/
structure Folio where
  weave : Nat
  irole : Nat
  erole : Nat
  size : Nat
  index : Nat
  qcnt : Nat
  plen : Nat
  eoff : Nat
  epart : Option EPart
  deriving DecidableEq, Repr

/-- A folio load in progress (R190): the issuing context, its task's serial number and the CFGLD's address, or none for the block scheduler's implicit load;
the cycles it takes, and those left (R181). -/
structure Load where
  id : Nat
  qmask : Nat
  folio : Nat
  by_ : Option (Nat × Nat × Nat)
  time : Nat
  left : Nat
  deriving DecidableEq, Repr

/-- A switch sweep (R191), the cycle of its CFGSW (R192), and the cycles left to it (R181). -/
structure Sweep where
  id : Nat
  qmask : Nat
  folio : Nat
  at_ : Nat
  left : Nat
  deriving DecidableEq, Repr

/-- A block fault that a context has not taken yet (R185). -/
structure BFault where
  cause : Nat
  addr : Nat
  aux : Nat
  deriving DecidableEq, Repr

/-- An element queue entry (R26); `wait` names the pending operation whose result makes it passable (R200), `seq` numbers the entries of
input queues in the order of their arrival, to which withdrawn ones return (R219). -/
structure QTok where
  data : Nat
  psn : Bool
  tag : Nat
  frame : Nat
  fword : Nat
  wait : Option Nat
  seq : Nat
  deriving DecidableEq, Repr

/-- An operation that has fired and not completed (R200, R208 to R210, R216, R218): element, rule index and word, the continuation with its
poison, what a withdrawal gives back (R219), the cycle ends to wait, the result (`skip` when DST is not written), the condition for the
predicate, a fault, and the access of a memory node that has not been performed. -/
structure EPend where
  id : Nat
  elem : Nat
  rule : Nat
  word : Nat
  tok : QTok
  taken : List (Nat × QTok)
  left : Nat
  val : Nat
  skip : Bool
  cond : Option Bool
  bad : Option (Nat × Nat)
  mem : Bool
  addr : Nat
  data : Nat
  deriving DecidableEq, Repr

/-- One element (R25). -/
structure Elem where
  e : Map Nat
  pb : Nat
  iq : Map (List QTok)
  oq : Map (List QTok)
  pendR : List Nat
  pendP : List Nat
  rr : Nat
  deriving DecidableEq, Repr

/-- The element array of a tile under a BLOCK.G instance (R197): elements, allocated frames with level and presence, level counts, the
SC token holder and the last holder, pending operations, the last numbers given to operations and to queue entries. -/
structure EArray where
  elems : Map Elem
  frames : Map (Nat × Nat)
  used : List Nat
  sc : Option Nat
  scLast : Nat
  pend : List EPend
  nextId : Nat
  nextSeq : Nat
  cycles : Nat
  deriving DecidableEq, Repr

/-- A block instance (R179): the block with its captured patterns and counters, the streams of its roles by port (egress ports from
16) with their patterns, its own streams, the operand elements taken but not used by role, the stationary panel, results on their way to
the port, and progress. `drain` counts the cycles until its last beat has passed the spine end (R181), `lastMsg` numbers the last message that it
has sent (R214). `scan` is set while its region is scanned out; `image`, `imgPoison`, `imgFmt` and `arr` are the scanned nodes and element array
(R187, R313). -/
structure Inst where
  ctx : Nat
  own : Nat
  cls : Nat
  blk : BlockArgs
  imgs : List Nat
  ctrs : List Nat
  after : List Nat
  tag : Nat
  started : Bool
  win : Option Nat
  acc : Option Nat
  streams : Map (Nat × Nat)
  pats : Map Nat
  ownIds : List Nat
  bufs : Map (List PElem)
  panel : List PElem
  beat : Nat
  drain : Nat
  sink : List PElem
  given : Map Nat
  lastMsg : Nat
  cinv : Bool
  lsq : Nat
  strays : Nat
  fault : Option BFault
  held : Bool
  scan : Bool
  image : List Host.Cell
  imgPoison : List Nat
  imgFmt : Map Nat
  arr : Option EArray
  deriving DecidableEq, Repr

/-- A run (R179, R180): quarters, folio, class, the instances left, current first. -/
structure Run where
  qmask : Nat
  folio : Nat
  cls : Nat
  ready : Bool
  insts : List Inst
  deriving DecidableEq, Repr

/-- A flit (R93, R342): header fields with the zero bit, 128-bit payload, check value (R95), the sideband route tag `edge`, the injecting die
and tile, and a header error: 0 none, 1 correctable, 2 not (R356). -/
structure Flit where
  dtile : Nat
  ddie : Nat
  cls : Nat
  kind : Nat
  age : Nat
  seq : Nat
  part : Nat
  zero : Bool
  payload : Nat
  chk : Nat
  edge : Bool
  sdie : Nat
  stile : Nat
  hdr : Nat
  deriving DecidableEq, Repr

/-- A flit in the mesh: the router it has reached and the input lane it came in on (R346). -/
structure MeshFlit where
  label : Nat
  lane : Nat
  flit : Flit
  deriving DecidableEq, Repr

/-- A drain token that has reached its agent: the flit, the queue entry, and the beats sent before it that the agent still waits for (R357). -/
structure TokenAt where
  flit : Flit
  entry : Nat
  awaits : List Nat
  deriving DecidableEq, Repr

/-- A remote store or atomic of the remote queue (R355): its context, access, destination tile, flits, tag-table entry once sent. -/
structure Remote where
  ctx : Nat
  acc : Nat
  dst : Nat
  rel : Bool
  flits : List Flit
  sent : Option Nat
  deriving DecidableEq, Repr

/-- Router status block (R360). -/
structure Router where
  defl : Nat
  poisonFill : Nat
  malf : Nat
  foreign : Nat
  hdrErr : Nat
  overAge : Nat
  deriving DecidableEq, Repr

/-- A cancel registered at a tile (R264, R265, R340); `sent` is set once the tile has reported. -/
structure Reg where
  no : Nat
  scope : Nat
  at_ : Nat
  purged : Nat
  killed : Nat
  cut : Nat
  sent : Bool
  deriving DecidableEq, Repr

/-- What other contexts still read of TRAPBASE and BUDGET in the cycle of a write (R128): the cycle, the writer, the old values. -/
structure WrOld where
  cycle : Nat
  ctx : Nat
  trapBase : Word
  budget : Nat
  deriving DecidableEq, Repr

/-- The pre-emption gate of a tile (R332). -/
inductive Gate where
  | open_ | hold | switch
  deriving DecidableEq, Repr

/-- A tile (R10, R17, R18, R159, R222, R297, R322, R353). `etrks` are the memory edge's trackers of its egress streams by port, kept with its
port-buffer state (R358), `claims` the streams of other tiles that wait for one of `trks`, as tile and entry, `drainToks` the drain tokens that
its agents hold (R357). `sentMsgs` counts the active messages that have entered the injection queue (R214). `pledged` holds the weights of the contexts that have this cycle's issue slots
and have not issued yet, `hold` the masks of the regions whose beat the budget holds this cycle, 0 for the element array (R198, R330). `scanned` holds
the scanned-out or set-aside instance of a context's continuation (R186, R187), `aside` an instance that has begun to take its panel and waits for a
later run (R185), `ranked` what the block scheduler saw at its last look (R326). -/
structure Tile where
  lid : Option Nat
  vtile : Nat
  vdie : Nat
  store : Store
  acc : List Host.Cell
  accPoison : List Nat
  accFmt : Map Nat
  trapBase : Word
  budget : Nat
  wrOld : Option WrOld
  charges : List Nat
  pledged : Map Nat
  hold : List Nat
  grp : Nat
  latch : Map (Nat × Bool)
  cancels : List Nat
  regs : List Reg
  ready : Map (List Task)
  dep : List Task
  res : Nat
  ctxs : Map Ctx
  nextAcc : Nat
  queues : Map Queue
  nextId : Nat
  score : List Range
  engines : Map (Nat × Nat)
  ips : Map Port
  eps : Map Port
  gbufs : Map GBuf
  trks : Map Tracker
  etrks : Map Tracker
  claims : List (Nat × Nat)
  drainToks : List TokenAt
  live : Map Nat
  shadow : List (Nat × Nat)
  loads : List Load
  sweeps : List Sweep
  strays : Map Nat
  runs : List Run
  scanned : Map Inst
  aside : Map Inst
  ranked : List (Nat × Nat × Nat)
  array : EArray
  msgs : Map (Nat × List Nat)
  msgOver : List Nat
  sentMsgs : Nat
  remoteQ : List Remote
  tags : Map (Nat × Nat)
  injq : List Flit
  intake : List Flit
  allot : Nat
  router : Router
  gate : Gate
  reported : Bool
  deriving DecidableEq, Repr

/-- A credit counter of a partition on a die (R347): size, free credits, credits on their way back with the tick of their return. -/
structure Credit where
  cap : Nat
  free : Nat
  back : List Nat
  ports : Map Nat
  deriving DecidableEq, Repr

/-- A flit in a die's edge crossbar (R351). -/
structure XItem where
  flit : Flit
  column : Option Nat
  deriving DecidableEq, Repr

/-- A cached translation, and the set it lies in (R303). -/
structure TEntry where
  set : Nat
  part : Nat
  va : Nat
  psz : Nat
  frame : Nat
  rd : Bool
  wr : Bool
  deriving DecidableEq, Repr

/-- A die, 0 to 27 (R22, R297, R303, R347, R351, R364, R368). `cancelNos` lists the cancels registered on it, first to last (R265, R340). -/
structure Die where
  cycle : Nat
  lclk : Nat
  stamp : Nat
  netCycle : Nat
  staging : Store
  cache : List TEntry
  credits : Map Credit
  mesh : List MeshFlit
  xbar : List XItem
  applied : Map (List Nat)
  cancelNos : List Nat
  inReset : Bool
  flushWait : List Nat
  fenced : Bool
  warned : Bool
  deriving DecidableEq, Repr

/-- A frame of a die-to-die link (R362). -/
structure Frame where
  flits : List Flit
  lclk : Nat
  toHigh : Bool
  deriving DecidableEq, Repr

/-- A die-to-die link (R361 to R363): failed sendings in a row of the first frame to the higher and to the lower die. -/
structure Link where
  down : Bool
  failsHigh : Nat
  failsLow : Nat
  frames : List Frame
  deriving DecidableEq, Repr

/-- A scheduling record (R317). -/
structure Sched where
  saveBase : Nat
  weights : List Nat
  bceil : Nat
  bdef : Nat
  slice : Nat
  dl : Bool
  hostx : Bool
  hqlim : Nat
  deriving DecidableEq, Repr

/-- A drain token of a map request (R94, R308): its number, the tile and entry of its agent, and whether it is back at the edge. -/
structure DrainTok where
  no : Nat
  tile : Nat
  entry : Nat
  back : Bool
  deriving DecidableEq, Repr

/-- A map request in progress (R306 to R310): the record, its phase (0 invalidation, 1 splicing, 2 redirecting), the page reached, the
beats copied, the frame that a redirected page has left, the drain tokens not yet acknowledged. -/
structure MapJob where
  req : Nat
  phase : Nat
  page : Nat
  copied : List Nat
  old : Nat
  tokens : List DrainTok
  deriving DecidableEq, Repr

/-- Why a partition is held (R332, R386) or switched. -/
structure Hold where
  suspend : Bool
  cap : Bool
  record : Bool
  mgmt : Bool
  deriving DecidableEq, Repr

/-- A partition: its entry (R378), scheduling record, page tables, pre-emption state, meters, colophon chain and BAR 0 registers (R370). `asked`
holds the tiles to which its die schedulers have sent a pre-empt request, with true for a switch, `halted` those whose halted report has come,
`resuming` those that a resume flit has not reached (R333, R340). -/
structure Partition where
  valid : Bool
  slots : List Nat
  auth : Nat
  gr4 : Nat
  bmax : Nat
  gr0 : Nat
  gr6 : Nat
  tsets : Nat
  tables : Nat
  dlok : Bool
  hostok : Bool
  sched : Option Sched
  nextSched : Option Sched
  leaves : List Leaf
  job : Option MapJob
  waiting : List Nat
  hold : Hold
  out : Bool
  saving : Bool
  restoring : Bool
  asked : Map Bool
  halted : List Nat
  resuming : List Nat
  saved : Map Tile
  sliceUsed : Nat
  meters : Map Nat
  partial_ : Map Nat
  caps : Map Nat
  atcap : Nat
  coloSeq : Nat
  coloPrev : Nat
  quote : Nat
  stSeq : Nat
  stBad : Nat
  stCode : Nat
  rbase : Nat
  rsize : Nat
  rhead : Nat
  rtail : Nat
  dropped : Nat
  grant : Nat
  deriving DecidableEq, Repr

/-- A group table entry (R33, R156). -/
structure Group where
  members : List Nat
  narr : Nat
  fscope : Nat
  phase : Nat
  arrived : Nat
  cxl : Bool
  wd : Nat
  exhausted : Bool
  deriving DecidableEq, Repr

/-- A port-binding table entry (R105). -/
structure PBind where
  folio : Nat
  egress : Bool
  port : Nat
  queue : Nat
  arel : Bool
  ctr : Nat
  image : Nat
  deriving DecidableEq, Repr

/-- State of a launch (R259, R260, R320). -/
inductive LSt where
  | admitted | placed | ended
  deriving DecidableEq, Repr

/-- A launch: the descriptor, where it runs, what its container gave, the end record's fields. -/
structure Launch where
  part : Nat
  cont : Nat
  csize : Nat
  arg : Nat
  endAddr : Nat
  root : Nat
  nvt : Nat
  pri : Nat
  ctr : Nat
  x2 : Nat
  parent : Option Nat
  rack : Option Nat
  st : LSt
  started : Bool
  tiles : List Nat
  folios : Map Folio
  binds : List PBind
  groups : Map Group
  perm : Bool
  refusal : Option Nat
  hlt : Bool
  hcode : Nat
  dt : Bool
  dtpc : Nat
  dcause : Nat
  dvtile : Nat
  dctx : Nat
  cxl : Bool
  lost : Bool
  deriving DecidableEq, Repr

/-- A task publication on its way to a tile, from the context that spawned it (R256, R257). -/
structure Pub where
  task : Task
  tile : Nat
  from_ : Option (Nat × Nat)
  deriving DecidableEq, Repr

/-- A barrier arrival on its way to its home (R154). -/
structure Arrival where
  lid : Nat
  g : Nat
  tag : Nat
  tile : Nat
  ctx : Nat
  serial : Nat
  deriving DecidableEq, Repr

/-- A barrier release on its way to a member tile (R153). -/
structure Release where
  lid : Nat
  g : Nat
  tile : Nat
  phase : Nat
  cxl : Bool
  deriving DecidableEq, Repr

/-- An accepted cancel at its home (R264, R265, R340): tiles and granule-only dies (with the cycle of their
registration) that have not reported to their die scheduler, the dies that the cancel flit has reached, each die's sums of purged, killed,
cut and dropped, the dies whose sums have not reached the home, the home's totals, the dies whose edge holds the scope, and whether the
record was written. `lid` is the launch that owns the scope (R260, R263), `parents` the cancels whose intervals contained it (R265). -/
structure Cancel where
  part : Nat
  lid : Option Nat
  scope : Nat
  ack : Option Nat
  quote : Nat
  tile : Nat
  at_ : Nat
  parents : List Nat
  tiles : List Nat
  dies : List (Nat × Nat)
  reached : List Nat
  sums : Map (List Nat)
  owed : List Nat
  totals : List Nat
  edges : List Nat
  done : Bool
  deriving DecidableEq, Repr

/-- A granule run of the configuration record (R378). -/
structure GRun where
  first : Nat
  count : Nat
  part : Nat
  deriving DecidableEq, Repr

/-- State of an SPDM requester's exchange (R384). -/
structure Session where
  who : Requester
  version : Bool
  caps : Bool
  algs : Bool
  key : Option Nat
  secure : Bool
  deriving DecidableEq, Repr

/-- What the module has sent to the outside: a response, a completion or a report, with its numbers. -/
structure Sent where
  to_ : String
  what : String
  vals : List Nat
  deriving DecidableEq, Repr

/-- A self-test that is queued: unit kind, die, unit, index, and the cycle of I/O die 0 at which its error was logged (R389, R390). The index of
an HBM sector is its physical address. -/
structure TestJob where
  kind : Nat
  die : Nat
  label : Nat
  quarter : Nat
  index : Nat
  since : Nat
  deriving DecidableEq, Repr

/-- The sparing record (R377, R390): spared units, fenced slots, and the sectors whose pages are retired. -/
structure SparRecord where
  spared : List (Nat × Nat × Nat)
  fenced : List Nat
  retired : List Nat
  deriving DecidableEq, Repr

/-- What a checkpoint holds (R391): the stacks, the partitions with their save areas, meters, caps and chains, and the records in force. -/
structure Snapshot where
  dev : Store
  parts : Map Partition
  launches : Map Launch
  record : Nat
  recSign : Option (Nat × Nat × Nat)
  runs : List GRun
  sparing : SparRecord
  sparSig : Option Nat
  deriving DecidableEq, Repr

/-- Clasp and the management side (R377 to R392). `capacity` is the installed reserve tier in granules, `cxl` the links that hold a device,
ascending (R373). `recSign` is what the configuration record in force came with: key, next key, signature. `spared`, `fenced` and `retired` are in
force; `sparRec` is the record of them and `sparSig` its signature. `counts` holds when each unit's errors were logged; `mailbox` its bytes;
`shutdown` the die that is too hot. -/
structure Clasp where
  owner : Option Nat
  record : Nat
  recordOk : Bool
  recSign : Option (Nat × Nat × Nat)
  runs : List GRun
  capacity : Nat
  cxl : List Nat
  spared : List (Nat × Nat × Nat)
  fenced : List Nat
  retired : List Nat
  sparRec : SparRecord
  sparSig : Option Nat
  log : List (List Nat)
  counts : Map (List Nat)
  tests : List TestJob
  ckNo : Nat
  manifest : Option Nat
  ckValid : Bool
  image : Option Snapshot
  mailbox : List Nat
  status : Nat
  shutdown : Option Nat
  sessions : List Session
  sent : List Sent
  deriving DecidableEq, Repr

/-- The whole module. `cur` is the tile and context that issues; `agenda` the acts that are next; `free` counts free values (log 4);
the last three are the model's own. -/
structure State where
  tiles : Map Tile
  dies : Map Die
  links : Map Link
  parts : Map Partition
  launches : Map Launch
  nextLid : Nat
  dev : Store
  host : Map Store
  pubs : List Pub
  arrivals : List Arrival
  releases : List Release
  cancels : Map Cancel
  nextCancel : Nat
  clasp : Clasp
  foldCycle : Nat
  foldLclk : Nat
  powered : Bool
  agenda : List Act
  cur : Nat × Nat
  free : Nat
  deriving DecidableEq, Repr

/-! Reset values. -/

/-- The register values of a task's start before ARG and ENTRY are loaded (R13, R23, R24, R194). -/
def Regs.reset : Regs := ⟨[], [], [], [], 0, 0, 0, [], []⟩

/-- A free context (R16, R17). -/
def Ctx.reset : Ctx :=
  { regs := Regs.reset, task := none, serial := 0, wait := none, trap := false, halted := false, trapPc := 0, trapCause := 0,
    trapAddr := 0, trapAux := 0, quoteLim := 0, prio := 0, outs := [], deferred := [], cont := none, bstat := [], arriving := none,
    lastPc := none, spawnQ := 0, spawnAt := 0, killAt := none, doom := none, busy := [], fflight := [], age := 0 }

def BStat.reset : BStat := ⟨0, false, false, false, 0, 0, 0, 0, 0, 0⟩
/-- An empty queue (R247). -/
def Queue.reset : Queue := ⟨[], 0, 0, 0, false, 0, [0, 0, 0, 0], 0, 0⟩
/-- A free port. -/
def Port.reset : Port := ⟨none, [], 0⟩
def GBuf.reset : GBuf := ⟨0, [], 0, none, 0, none, false⟩
/-- A tracker of a stream: the tile, queue and entry that send, and the pattern. -/
def Tracker.fresh (srcTile port queue entry pat : Nat) : Tracker := ⟨srcTile, port, queue, entry, pat, 0, [], 0, none, 0, false⟩
/-- An element after reset (R25). -/
def Elem.reset : Elem := ⟨[], 0, [], [], [], [], 0⟩
/-- An array at an instance's start (R197). DESIGN CHOICE (log 64): no rule names the last holder of the SC token then, the model takes element 0. -/
def EArray.reset : EArray := ⟨[], [], [0, 0, 0, 0], none, 0, [], 0, 0, 0⟩
def Router.reset : Router := ⟨0, 0, 0, 0, 0, 0⟩

/-- A tile after reset: BUDGET is the default 96 of R17, every other register 0 (log 2). -/
def Tile.reset : Tile :=
  { lid := none, vtile := 0, vdie := 0, store := Store.empty, acc := [], accPoison := [], accFmt := [], trapBase := 0, budget := 96, wrOld := none, charges := [],
    pledged := [], hold := [], grp := 0, latch := [], cancels := [], regs := [], ready := [], dep := [], res := 0, ctxs := [], nextAcc := 0, queues := [],
    nextId := 0, score := [], engines := [], ips := [], eps := [], gbufs := [], trks := [], etrks := [], claims := [], drainToks := [], live := [], shadow := [], loads := [],
    sweeps := [], strays := [], runs := [], scanned := [], aside := [], ranked := [], array := EArray.reset, msgs := [], msgOver := [], sentMsgs := 0, remoteQ := [], tags := [], injq := [],
    intake := [], allot := 0, router := Router.reset, gate := .open_, reported := false }

/-- A die after reset: CYCLE and LCLK are 0 (R17, R376). -/
def Die.reset : Die :=
  { cycle := 0, lclk := 0, stamp := 0, netCycle := 0, staging := Store.empty, cache := [], credits := [], mesh := [], xbar := [],
    applied := [], cancelNos := [], inReset := false, flushWait := [], fenced := false, warned := false }

def Link.reset : Link := ⟨false, 0, 0, []⟩
def Hold.none : Hold := ⟨false, false, false, false⟩

/-- A partition that no configuration record has named. -/
def Partition.reset : Partition :=
  { valid := false, slots := [], auth := 0, gr4 := 0, bmax := 0, gr0 := 0, gr6 := 0, tsets := 0, tables := 0, dlok := false,
    hostok := false, sched := none, nextSched := none, leaves := [], job := none, waiting := [], hold := Hold.none, out := false,
    saving := false, restoring := false, asked := [], halted := [], resuming := [], saved := [], sliceUsed := 0, meters := [], partial_ := [], caps := [], atcap := 0,
    coloSeq := 0, coloPrev := 0, quote := 0, stSeq := 0, stBad := 0, stCode := 0, rbase := 0, rsize := 0, rhead := 0, rtail := 0,
    dropped := 0, grant := 0 }

def Launch.reset : Launch :=
  { part := 0, cont := 0, csize := 0, arg := 0, endAddr := 0, root := 0, nvt := 0, pri := 0, ctr := 0, x2 := 0, parent := none,
    rack := none, st := .ended, started := false, tiles := [], folios := [], binds := [], groups := [], perm := false, refusal := none,
    hlt := false, hcode := 0, dt := false, dtpc := 0, dcause := 0, dvtile := 0, dctx := 0, cxl := false, lost := false }

def Group.reset : Group := ⟨[], 0, 0, 0, 0, false, 0, false⟩

/-- Clasp before a configuration record. DESIGN CHOICE (log 2): R2 gives the reserve tier "up to 4 TB" and no capacity installed at reset, so the
model starts with 0 and no device. -/
def Clasp.reset : Clasp :=
  { owner := none, record := 0, recordOk := false, recSign := none, runs := [], capacity := 0, cxl := [], spared := [], fenced := [], retired := [],
    sparRec := ⟨[], [], []⟩, sparSig := none, log := [], counts := [], tests := [], ckNo := 0, manifest := none, ckValid := false, image := none,
    mailbox := [], status := 0, shutdown := none, sessions := [], sent := [] }

/-- The module right after bring-up (R376): every die's CYCLE and LCLK 0, every memory empty, no partition configured, nothing running. -/
def State.reset : State :=
  { tiles := [], dies := [], links := [], parts := [], launches := [], nextLid := 0, dev := Store.empty, host := [], pubs := [],
    arrivals := [], releases := [], cancels := [], nextCancel := 0, clasp := Clasp.reset, foldCycle := 0, foldLclk := 0,
    powered := true, agenda := [], cur := (0, 0), free := 0 }

end Sys2Proof.Machine
end

