-- ==== Sys2Proof/Machine/Geometry.lean ====
section
/-! DEFINITION. The geometry of a region, the loop nest of an instance and the nodes it uses (R166 to R168, R172, R177). -/

namespace Sys2Proof.Machine

/-! Geometry (R167, R168). -/

def prodOf (l : List Nat) : Nat := l.foldl (· * ·) 1

/-- The geometry of a region. -/
structure Geo where
  rows : Nat
  cols : Nat
  kg : Nat
  lanes : Nat
  q : Nat
  qk : Nat
  k : Nat
  l : Nat
  ec : Nat
  deriving DecidableEq, Repr

def geoOf (w : Weave) (qmask : Nat) : Geo :=
  let rows := w.aw * (if w.ga then 3 else 1)
  let cols := w.bw * (if w.gb then 3 else 1)
  let kg := 96 / rows
  let lanes := if w.lanes = 0 then 512 / cols else w.lanes
  let q := (quartersOf qmask).length
  let qk := if w.stk then q else 1
  let qn := if w.stk then 1 else q
  { rows := rows, cols := cols, kg := kg, lanes := lanes, q := q, qk := qk, k := kg * qk, l := lanes * qn, ec := kg * lanes * q }

def blkGeo (b : BlockArgs) : Geo := geoOf b.weave b.qmask
/-- Beats of an instance, and the beats of one reduction. -/
def blkBeats (b : BlockArgs) : Nat := prodOf b.loops
def blkPeriod (b : BlockArgs) : Nat := prodOf (b.loops.take b.weave.red)
def blkTrips0 (b : BlockArgs) : Nat := b.loops.getD 0 1
/-- Reductions, and those released. -/
def blkRn (b : BlockArgs) : Nat := blkBeats b / blkPeriod b
def blkRh (b : BlockArgs) : Nat := if b.hold then blkRn b - 1 else blkRn b
/-- Node banks per lane: TRIPS0 in .os (R172). -/
def blkBanks (cls : Nat) (b : BlockArgs) : Nat := if cls = 1 then blkTrips0 b else 1
/-- N of BLOCK.Z, its groups and dense K positions per beat (R177). -/
def sprN (w : Weave) : Nat := match w.spr with | 1 => 8 | 2 => 4 | 3 => 2 | _ => 16
def blkGroups (b : BlockArgs) : Nat := (blkGeo b).kg / max (sprN b.weave) 4
def blkKd (b : BlockArgs) : Nat := 16 * blkGroups b * (blkGeo b).qk
/-- Taps of BLOCK.S (R170). -/
def blkTaps (w : Weave) : Nat := (2 * w.rx + 1) * (2 * w.ry + 1)
/-- Both operands are of integer kinds (R68). -/
def intKinds (w : Weave) : Bool := w.ak != 2 && w.bk != 2

/-! Nodes (R167, R172). -/

/-- The quarter and the number of node[j][n]. -/
def nodeAt (b : BlockArgs) (j n : Nat) : Nat × Nat :=
  let lanes := (blkGeo b).lanes
  let qs := quartersOf b.qmask
  if b.weave.stk then (qs.getD 0 0, j * lanes + n) else (qs.getD (n / lanes) 0, j * lanes + n % lanes)

/-- The quarters whose nodes take part. -/
def nodeQuarters (b : BlockArgs) : List Nat := if b.weave.stk then (quartersOf b.qmask).take 1 else quartersOf b.qmask

/-- Every bank and lane, in release order. -/
def bankLanes (cls : Nat) (b : BlockArgs) : List (Nat × Nat) :=
  (List.range (blkBanks cls b)).flatMap fun j => (List.range (blkGeo b).l).map fun n => (j, n)

/-- The nodes that an instance uses; BLOCK.E and BLOCK.G use none (R167, R175, R197). -/
def usedNodes (cls : Nat) (b : BlockArgs) : List (Nat × Nat) :=
  if cls = 2 || cls = 6 then [] else (bankLanes cls b).map fun x => nodeAt b x.1 x.2

end Sys2Proof.Machine
end

