-- ==== Sys2Proof/Machine/Ops.lean ====
section
/-! DEFINITION. The named operations over tiles, contexts, registers and memory, address translation and homes, and taking and leaving a
trap (R13, R28, R136, R271 to R274, R278, R302). Every instruction and hardware step is written over these. -/

namespace Sys2Proof.Machine

/-- The outcome of one instruction or hardware step. -/
abbrev Out := Host.Outcome State Fault Refusal

/-! Access to the parts of the state. -/

def State.tile (s : State) (t : Nat) : Tile := mget Tile.reset s.tiles t
def State.modTile (s : State) (t : Nat) (f : Tile → Tile) : State := { s with tiles := mput s.tiles t (f (s.tile t)) }
def Tile.ctx (tl : Tile) (c : Nat) : Ctx := mget Ctx.reset tl.ctxs c
def Tile.modCtx (tl : Tile) (c : Nat) (f : Ctx → Ctx) : Tile := { tl with ctxs := mput tl.ctxs c (f (tl.ctx c)) }
def State.ctx (s : State) (t c : Nat) : Ctx := (s.tile t).ctx c
def State.modCtx (s : State) (t c : Nat) (f : Ctx → Ctx) : State := s.modTile t fun tl => tl.modCtx c f
def State.die (s : State) (d : Nat) : Die := mget Die.reset s.dies d
def State.modDie (s : State) (d : Nat) (f : Die → Die) : State := { s with dies := mput s.dies d (f (s.die d)) }
def State.link (s : State) (k : Nat) : Link := mget Link.reset s.links k
def State.modLink (s : State) (k : Nat) (f : Link → Link) : State := { s with links := mput s.links k (f (s.link k)) }
/-- Failed sendings of the first frame in one direction (R363). -/
def Link.fails (l : Link) (toHigh : Bool) : Nat := if toHigh then l.failsHigh else l.failsLow
def Link.setFails (l : Link) (toHigh : Bool) (n : Nat) : Link := if toHigh then { l with failsHigh := n } else { l with failsLow := n }
def State.part (s : State) (p : Nat) : Partition := mget Partition.reset s.parts p
def State.modPart (s : State) (p : Nat) (f : Partition → Partition) : State := { s with parts := mput s.parts p (f (s.part p)) }
def State.launch (s : State) (l : Nat) : Launch := mget Launch.reset s.launches l
def State.modLaunch (s : State) (l : Nat) (f : Launch → Launch) : State := { s with launches := mput s.launches l (f (s.launch l)) }
def State.group (s : State) (l g : Nat) : Group := mget Group.reset (s.launch l).groups g
def State.modGroup (s : State) (l g : Nat) (f : Group → Group) : State :=
  s.modLaunch l fun la => { la with groups := mput la.groups g (f (mget Group.reset la.groups g)) }
def Tile.queue (tl : Tile) (q : Nat) : Queue := mget Queue.reset tl.queues q
def Tile.modQueue (tl : Tile) (q : Nat) (f : Queue → Queue) : Tile := { tl with queues := mput tl.queues q (f (tl.queue q)) }
def State.modClasp (s : State) (f : Clasp → Clasp) : State := { s with clasp := f s.clasp }

/-- The issuing tile and context. -/
def State.me (s : State) : Ctx := s.ctx s.cur.1 s.cur.2
def State.modMe (s : State) (f : Ctx → Ctx) : State := s.modCtx s.cur.1 s.cur.2 f
def State.myTile (s : State) : Tile := s.tile s.cur.1
def State.modMyTile (s : State) (f : Tile → Tile) : State := s.modTile s.cur.1 f

/-- The die and the route label of a tile number (R11). -/
def dieOf (t : Nat) : Nat := t / 128
def labelOf (t : Nat) : Nat := t % 128
def columnOf (t : Nat) : Nat := labelOf t / 8
def rowOf (t : Nat) : Nat := labelOf t % 8
/-- The module slot index of a tile (R10). -/
def slotOf (t : Nat) : Nat := dieOf t * 16 + columnOf t

/-- A partition is resident and not held (R332); a hold that has begun lasts until it is complete, whatever has become of its cause (R387). -/
def Partition.resident (p : Partition) : Bool :=
  p.valid && p.sched.isSome && !p.out && !p.saving && !p.hold.suspend && !p.hold.cap && !p.hold.record && !p.hold.mgmt && p.asked.isEmpty

/-- The resident partition of a tile: that of its live launch, else the owner of its slot that is not switched out, one with a scheduling record
first (R17, R332). -/
def State.occupant (s : State) (t : Nat) : Option Nat :=
  match (s.tile t).lid with
  | some l => some (s.launch l).part
  | none =>
    let l := s.parts.filter fun e => e.2.valid && e.2.slots.contains (slotOf t) && !e.2.out
    ((l.filter fun e => e.2.sched.isSome).map (·.1) ++ l.map (·.1)).head?

/-- Its number; 0 for a tile that no partition holds. -/
def State.partId (s : State) (t : Nat) : Nat := (s.occupant t).getD 0

/-- The launch that lives on the issuing tile. -/
def State.myLid (s : State) : Nat := (s.myTile.lid).getD 0
def State.myLaunch (s : State) : Launch := s.launch s.myLid
def State.myPart (s : State) : Nat := s.partId s.cur.1

/-- The tiles of a partition in the order of R318: by slot, then row. -/
def Partition.tiles (p : Partition) : List Nat := p.slots.flatMap fun sl => (List.range 8).map fun r => sl / 16 * 128 + sl % 16 * 8 + r
/-- The dies on which a partition owns slots. -/
def Partition.dies (p : Partition) : List Nat := (p.slots.map (· / 16)).eraseDups

/-! Registers (R13). -/

/-- x0 reads 0. -/
def Ctx.getX (c : Ctx) (r : Nat) : Word := if r = 0 then 0 else mget 0 c.regs.x r
/-- A write to x0 is discarded. -/
def Ctx.setX (c : Ctx) (r : Nat) (v : Word) : Ctx := if r = 0 then c else { c with regs := { c.regs with x := mput c.regs.x r v } }
def Ctx.getF (c : Ctx) (r : Nat) : Word := mget 0 c.regs.f r
def Ctx.setF (c : Ctx) (r : Nat) (v : Word) : Ctx := { c with regs := { c.regs with f := mput c.regs.f r v } }
/-- b0 reads 1. -/
def Ctx.getB (c : Ctx) (r : Nat) : Bool := if r = 0 then true else mget false c.regs.b r
/-- A write to b0 is discarded. -/
def Ctx.setB (c : Ctx) (r : Nat) (v : Bool) : Ctx := if r = 0 then c else { c with regs := { c.regs with b := mput c.regs.b r v } }
def Ctx.getP (c : Ctx) (r : Nat) : BitVec 256 := mget 0 c.regs.p r
def Ctx.setP (c : Ctx) (r : Nat) (v : BitVec 256) : Ctx := { c with regs := { c.regs with p := mput c.regs.p r v } }
def Ctx.setPc (c : Ctx) (v : Word) : Ctx := { c with regs := { c.regs with pc := v } }

def State.getX (s : State) (r : Nat) : Word := s.me.getX r
def State.setX (s : State) (r : Nat) (v : Word) : State := s.modMe (·.setX r v)
def State.getF (s : State) (r : Nat) : Word := s.me.getF r
def State.setF (s : State) (r : Nat) (v : Word) : State := s.modMe (·.setF r v)
def State.getB (s : State) (r : Nat) : Bool := s.me.getB r
def State.setB (s : State) (r : Nat) (v : Bool) : State := s.modMe (·.setB r v)
def State.getP (s : State) (r : Nat) : BitVec 256 := s.me.getP r
def State.setP (s : State) (r : Nat) (v : BitVec 256) : State := s.modMe (·.setP r v)
def State.pc (s : State) : Word := s.me.regs.pc
def State.setPc (s : State) (v : Word) : State := s.modMe (·.setPc v)
/-- Past an instruction of one word (R71). -/
def State.advance (s : State) : State := s.setPc (s.pc + 8)
/-- Past an instruction of n bytes. -/
def State.advanceBy (s : State) (n : Nat) : State := s.setPc (s.pc + BitVec.ofNat 64 n)
/-- The x register as a number. -/
def State.nx (s : State) (r : Nat) : Nat := (s.getX r).toNat
/-- The refusal value of a quote register (R40, R41). -/
def allOnes : Word := BitVec.ofNat 64 (2 ^ 64 - 1)

/-! Dies and links (R361). -/

/-- The 46 links in the order of their lower and higher die. -/
def dieLinks : List (Nat × Nat) :=
  ((List.range 24).flatMap fun d => (if d % 4 < 3 then [(d, d + 1)] else []) ++ (if d < 20 then [(d, d + 4)] else []))
    ++ [(0, 24), (1, 24), (2, 25), (3, 25), (20, 26), (21, 26), (22, 27), (23, 27)]

/-- A link carries frames: it is not down, and neither of its dies is in reset (R363, R368). -/
def State.linkUp (s : State) (k : Nat) : Bool :=
  !(s.link k).down && (match dieLinks[k]? with | some e => !(s.die e.1).inReset && !(s.die e.2).inReset | none => false)

/-- The neighbours of a die over links that are up, ascending. -/
def State.neighbours (s : State) (d : Nat) : List Nat :=
  sortBy (fun a b => decide (a < b)) ((dieLinks.zipIdx.filterMap fun e =>
    if !s.linkUp e.2 then none else if e.1.1 = d then some e.1.2 else if e.1.2 = d then some e.1.1 else none))

/-- Distances to die b by rounds of widening. -/
def State.distGo (s : State) : Nat → Nat → List (Nat × Nat) → List (Nat × Nat)
  | 0, _, acc => acc
  | k + 1, n, acc =>
    let front := (acc.filter fun e => e.2 == n).flatMap fun e => s.neighbours e.1
    let fresh := front.eraseDups.filter fun d => !(acc.map (·.1)).contains d
    if fresh.isEmpty then acc else State.distGo s k (n + 1) (acc ++ fresh.map fun d => (d, n + 1))

/-- The die-hop count of R361, none when no path remains. -/
def State.hops (s : State) (a b : Nat) : Option Nat := if a = b then some 0 else mfind a (s.distGo 28 0 [(b, 0)])

/-- The next die on the path of R361 from a to b. -/
def State.nextDie (s : State) (a b : Nat) : Option Nat :=
  match s.hops a b with
  | none => none
  | some n => (s.neighbours a).find? fun d => s.hops d b == some (n - 1)

/-- The path from die a to die b. -/
def State.path (s : State) (b : Nat) : Nat → Nat → List Nat
  | 0, a => [a]
  | n + 1, a => if a = b then [a] else match s.nextDie a b with | some d => a :: State.path s b n d | none => [a]

/-- The ends of a link: lower and higher die. -/
def linkEnds (k : Nat) : Nat × Nat := dieLinks.getD k (0, 0)
/-- The die that a frame comes from, and the one it goes to. -/
def frameFrom (k : Nat) (toHigh : Bool) : Nat := if toHigh then (linkEnds k).1 else (linkEnds k).2
def frameTo (k : Nat) (toHigh : Bool) : Nat := if toHigh then (linkEnds k).2 else (linkEnds k).1

/-- The path from a to b crosses a link, in one direction. -/
def State.crossesTo (s : State) (k : Nat) (toHigh : Bool) (a b : Nat) : Bool :=
  let p := s.path b 28 a
  (p.zip p.tail).any fun x => x == (frameFrom k toHigh, frameTo k toHigh)
/-- The path from a to b crosses a link. -/
def State.crosses (s : State) (k a b : Nat) : Bool := s.crossesTo k true a b || s.crossesTo k false a b

/-- A frame of a direction has come through, and none is queued behind it: the failures in a row are over (R363). -/
def State.delivered (s : State) (a b : Nat) : State :=
  match dieLinks.findIdx? fun e => e == (min a b, max a b) with
  | none => s
  | some k => if (s.link k).fails (decide (a < b)) = 0 || (s.link k).frames.any fun f => f.toHigh == decide (a < b) then s
    else s.modLink k fun l => l.setFails (decide (a < b)) 0

/-- Meters: one more count of meter m (R381). -/
def State.meter (s : State) (p m n : Nat) : State := s.modPart p fun q => { q with partial_ := mmod 0 q.partial_ m (· + n) }

/-- The flits of a message that brings n bytes (DESIGN CHOICE, log 61: R94 gives a flit 16 bytes of payload, and R355 leaves open how data fills
those inside the module). -/
def flitsFor (n : Nat) : Nat := max 1 ((n + 15) / 16)

/-- A message of k flits of partition p goes from die a to die b: every frame on the way carries its sender's LCLK, which the receiver's will pass,
and each link that a flit crosses is metered at both ends (R362, R363, R367, R381). -/
def State.message (s : State) (p a b k : Nat) : State :=
  if a = b then s
  else
    let l := s.path b 28 a
    let n := 24 * k * l.tail.length
    let u := ((l.zip l.tail).foldl (fun (x : State × Nat) e =>
      ((x.1.delivered e.1 e.2).modDie e.2 fun d => { d with stamp := max d.stamp x.2 }, max (x.1.die e.2).lclk (x.2 + 1))) (s, (s.die a).lclk)).1
    (u.meter p 10 n).meter p 11 n

/-! Translation (R301, R302) and physical memory (R298). -/

/-- The size of a page (R301). -/
def pageSize (psz : Nat) : Nat := match psz with | 0 => 2 ^ 16 | 1 => 2 ^ 21 | _ => 2 ^ 30

/-- The walk of R302 over the levels that hold leaves: 1 GB, then 2 MB, then 64 KB pages. -/
def walkLevels (l : List Leaf) (va : Nat) : List Nat → Option Leaf
  | [] => none
  | z :: t => match l.find? fun e => e.psz == z && va / pageSize z == e.va / pageSize z with
    | some e => some e
    | none => walkLevels l va t

/-- The fresh walk (R302). -/
def State.walk (s : State) (p va : Nat) : Option Leaf := walkLevels (s.part p).leaves va [2, 1, 0]

/-- The cached entry of a die's memory edge (R303). -/
def State.cached (s : State) (die p va : Nat) : Option Leaf :=
  ((s.die die).cache.find? fun e => e.part == p && va / pageSize e.psz == e.va / pageSize e.psz).map
    fun e => ⟨e.va, e.psz, e.frame, e.rd, e.wr⟩

/-- Does an entry grant what the access needs. -/
def Leaf.grants (e : Leaf) (rd wr : Bool) : Bool := (!rd || e.rd) && (!wr || e.wr)

/-- The entry that an access uses: the cached one when it grants the access, else one fresh walk (R302, R304). -/
def State.lookup (s : State) (die p va : Nat) (rd wr : Bool) : Option Leaf :=
  match s.cached die p va with
  | some e => if e.grants rd wr then some e else s.walk p va
  | none => s.walk p va

/-- translate of R302: the physical address, or the aux of cause 0x06. -/
def State.translate (s : State) (die p va : Nat) (rd wr : Bool) : Except Nat Nat :=
  match s.lookup die p va rd wr with
  | none => .error 0
  | some e => if rd && !e.rd then .error 1 else if wr && !e.wr then .error 2 else .ok (e.frame + va % pageSize e.psz)

/-- Granule g's first physical address (R378). -/
def granuleBase (g : Nat) : Nat :=
  if g < 1152 then g / 48 * 0x1000000000 + g % 48 * 2 ^ 30 else 0x800000000000 + (g - 1152) * 2 ^ 30

/-- The granules of a partition, ascending. -/
def State.granules (s : State) (p : Nat) : List Nat :=
  sortBy (fun a b => decide (a < b)) ((s.clasp.runs.filter fun r => r.part == p).flatMap fun r => (List.range r.count).map (r.first + ·))

/-- The granule of a physical address; none outside the homes of R298. -/
def granuleOf (pa : Nat) : Option Nat :=
  if pa < 24 * 0x1000000000 then (if pa % 0x1000000000 / 2 ^ 30 < 48 then some (pa / 0x1000000000 * 48 + pa % 0x1000000000 / 2 ^ 30) else none)
  else if 0x800000000000 ≤ pa && pa < 0x840000000000 then some (1152 + (pa - 0x800000000000) / 2 ^ 30) else none

/-- The granule of a physical address belongs to the partition. -/
def State.owns (s : State) (p pa : Nat) : Bool :=
  match granuleOf pa with
  | none => false
  | some g => s.clasp.runs.any fun r => r.part == p && decide (r.first ≤ g) && decide (g < r.first + r.count)

/-- The reserve granules of a partition in ascending order: its allotment (R305, R378). -/
def State.reserve (s : State) (p : Nat) : List Nat := (s.granules p).filter (1152 ≤ ·)

/-- The stacks that hold memory of the partition (R228). -/
def State.stacks (s : State) (p : Nat) : List Nat := (((s.granules p).filter (· < 1152)).map (· / 48)).eraseDups

/-- The columns of a partition on a die, ascending: its staging share (R28). -/
def State.columns (s : State) (p die : Nat) : List Nat :=
  sortBy (fun a b => decide (a < b)) (((s.part p).slots.filter fun sl => sl / 16 == die).map (· % 16))

def tileStoreSize : Nat := 0x300000
def shareSize : Nat := 6 * 2 ^ 20

/-- A tile of the launch that is on the same die and in the same partition (R28). -/
def State.remoteTile (s : State) (t v : Nat) : Option Nat :=
  match (s.tile t).lid with
  | none => none
  | some l => match (s.launch l).tiles[v]? with
    | some u => if dieOf u = dieOf t then some u else none
    | none => none

/-- Why an access to a space fails, with its cause and aux (R136). -/
abbrev Bad2 := Nat × Nat

/-- The range checks of R28 and R136 for n bytes of a space, as seen from tile t. -/
def State.rangeOk (s : State) (t space addr n : Nat) : Bool :=
  match space with
  | 0 => decide (addr + n ≤ 2 ^ 52)
  | 1 => decide (addr + n ≤ tileStoreSize)
  | 2 => decide (addr < 2 ^ 34) && decide (addr % 2 ^ 22 + n ≤ tileStoreSize) && (s.remoteTile t (addr / 2 ^ 22)).isSome
  | 3 => decide (addr + n ≤ 0x8000)
  | 4 => decide (addr + n ≤ 2 ^ 64)
  | 5 => decide (addr + n ≤ shareSize * (s.columns (s.partId t) (dieOf t)).length)
  | 6 => decide (addr + n ≤ 2 ^ 30 * (s.reserve (s.partId t)).length)
  | _ => false

/-- The home of a physical address for a partition: outside its granules no memory answers (R298, R380). -/
def State.devHome (s : State) (p pa : Nat) : Home := if s.owns p pa then .dev pa else .lost pa

/-- How an agent translates: the die whose memory edge receives its requests (R300), and the translations it holds (R245, R309). -/
structure Via where
  die : Nat
  held : List Leaf
  deriving DecidableEq, Repr

/-- A sequencer, or an agent that holds no translation, at its own die's edge. -/
def viaTile (t : Nat) : Via := ⟨dieOf t, []⟩

/-- The physical address that an agent uses: a translation that it holds is not looked up again (R309). -/
def State.translateVia (s : State) (v : Via) (p va : Nat) (rd wr : Bool) : Except Nat Nat :=
  match v.held.find? fun e => va / pageSize e.psz == e.va / pageSize e.psz && e.grants rd wr with
  | some e => .ok (e.frame + va % pageSize e.psz)
  | none => s.translate v.die p va rd wr

/-- The home of n bytes of a space as tile t's agent sees it, with the checks of R136. -/
def State.resolveVia (s : State) (v : Via) (t space addr n : Nat) (rd wr : Bool) : Except Bad2 Home :=
  if !s.rangeOk t space addr n then .error (0x04, 0)
  else match space with
  | 0 => match s.translateVia v (s.partId t) addr rd wr with
    | .ok pa => .ok (s.devHome (s.partId t) pa)
    | .error aux => .error (0x06, aux)
  | 1 => .ok (.tile t addr)
  | 2 => match s.remoteTile t (addr / 2 ^ 22) with
    | some u => .ok (.tile u (addr % 2 ^ 22))
    | none => .error (0x04, 0)
  | 3 => .ok (.acc t addr)
  | 4 => .ok (.host (s.partId t) addr)
  | 5 => match (s.columns (s.partId t) (dieOf t))[addr / shareSize]? with
    | some col => .ok (.staging (dieOf t) (col * shareSize + addr % shareSize))
    | none => .error (0x04, 0)
  | 6 => match (s.reserve (s.partId t))[addr / 2 ^ 30]? with
    | some g => .ok (.dev (granuleBase g + addr % 2 ^ 30))
    | none => .error (0x04, 0)
  | _ => .error (0x04, 0)

/-- The home of n bytes of a space as seen from tile t, with the checks of R136. -/
def State.resolve (s : State) (t space addr n : Nat) (rd wr : Bool) : Except Bad2 Home := s.resolveVia (viaTile t) t space addr n rd wr

/-- The page that a migrate moves now: its size, the first virtual address, the frame it moves to (R310). -/
def MapJob.size (j : MapJob) : Nat := pageSize (bits j.req 379 378)
def MapJob.va (j : MapJob) : Nat := bits j.req 511 448 + j.page * j.size
def MapJob.new (j : MapJob) : Nat := bits j.req 447 400 + j.page * j.size

/-- The old frame of a page that is splicing, when a physical address lies in it. -/
def MapJob.splices (j : MapJob) (leaves : List Leaf) (pa : Nat) : Option Nat :=
  if j.phase ≠ 1 then none
  else match leaves.find? fun e => e.va == j.va with
    | none => none
    | some e => if e.frame ≤ pa && pa < e.frame + j.size then some e.frame else none

/-- The beat of a page that splices was copied: a write to it is made in the new frame too (R310). -/
def MapJob.mirror (j : MapJob) (leaves : List Leaf) (pa : Nat) : Option Nat :=
  match j.splices leaves pa with
  | none => none
  | some old => if j.copied.contains ((pa - old) / 64) then some (j.new + (pa - old)) else none

/-- Where a physical write lands besides its own address: the new frames of splicing pages (R310). -/
def State.mirrors (s : State) (pa : Nat) : List Nat :=
  s.parts.filterMap fun e => match e.2.job with
    | some j => j.mirror e.2.leaves pa
    | none => none

/-- The pieces of n bytes at an address that lie in one beat each: address and length. -/
def beatsOf (pa n : Nat) : List (Nat × Nat) :=
  (List.range ((pa + n - 1) / 64 + 1 - pa / 64)).map fun k =>
    let a := max pa (64 * (pa / 64 + k))
    (a, min (pa + n) (64 * (pa / 64 + k + 1)) - a)

/-- One beat of a migration: 64 bytes from the old frame to the new, poison as poison (R310). -/
def Store.copyBeat (m : Store) (old new : Nat) : Store :=
  (List.range 4).foldl (fun x k => if m.poisoned (old + 16 * k) 16 then x.addPoison (new + 16 * k) 16 else x) (m.writeList new (readBytes m.bytes old 64))

/-- Beat b of a splicing page is copied. -/
def State.spliceBeat (s : State) (p : Nat) (j : MapJob) (old b : Nat) : State :=
  let s : State := { s with dev := s.dev.copyBeat (old + 64 * b) (j.new + 64 * b) }
  s.modPart p fun q => { q with job := q.job.map fun (j : MapJob) => { j with copied := j.copied ++ [b] } }

/-- A read that reaches beats of a splicing page not yet copied is forked: they are copied with it (R310). -/
def State.fork (s : State) (pa n : Nat) : State :=
  s.parts.foldl (fun s e => match e.2.job with
    | none => s
    | some j => match j.splices e.2.leaves pa with
      | none => s
      | some old => (beatsOf pa n).foldl (fun s x =>
          match (s.part e.1).job with
          | some j => if j.copied.contains ((x.1 - old) / 64) then s else s.spliceBeat e.1 j old ((x.1 - old) / 64)
          | none => s) s) s

/-- Where an access that reaches the old frame of a redirected page is performed (R310). -/
def State.forward (s : State) (pa : Nat) : Nat :=
  match s.parts.findSome? fun e => match e.2.job with
    | some j => if j.phase == 2 && decide (j.old ≤ pa) && decide (pa < j.old + j.size) then some (j.new + (pa - j.old)) else none
    | none => none with
  | some a => a
  | none => pa

/-- The nodes' bytes that a format keeps (R29, R137): ACC32 and I32 keep bytes 0 to 3, SX80 bytes 0 to 9; byte 15 keeps bit 7. -/
def accMask (sx : Bool) (off : Nat) (b : Byte) : Byte :=
  if off % 16 = 15 then b &&& 0x80 else if off % 16 < (if sx then 10 else 4) then b else 0

/-- The store behind a home, and the offset in it. -/
def State.homeStore (s : State) : Home → Store × Nat
  | .dev pa => (s.dev, pa)
  | .tile t off => ((s.tile t).store, off)
  | .acc t off => (⟨(s.tile t).acc, (s.tile t).accPoison⟩, off)
  | .staging d off => ((s.die d).staging, off)
  | .host p iova => (mget Store.empty s.host p, iova)
  | .lost pa => (Store.empty, pa)

/-- n bytes at a home, little-endian. -/
def State.readHome (s : State) (h : Home) (n : Nat) : Nat := (s.homeStore h).1.read (s.homeStore h).2 n
/-- A unit that n bytes at a home touch carries poison (R139); a request outside the partition's granules completes with poison (R380). -/
def State.poisonHome (s : State) (h : Home) (n : Nat) : Bool :=
  match h with | .lost _ => true | _ => (s.homeStore h).1.poisoned (s.homeStore h).2 n

/-- Bytes written at a home; accumulator nodes take only the bytes of their format (R137). -/
def State.writeHomeList (s : State) (h : Home) (l : List Byte) : State :=
  match h with
  | .dev pa => { s with dev := (beatsOf pa l.length).foldl (fun m x =>
      (s.mirrors x.1).foldl (fun m a => m.writeList a ((l.drop (x.1 - pa)).take x.2)) m) (s.dev.writeList pa l) }
  | .tile t off => s.modTile t fun tl => { tl with store := tl.store.writeList off l }
  | .acc t off => s.modTile t fun tl =>
      let m := Store.writeList ⟨tl.acc, tl.accPoison⟩ off (l.zipIdx.map fun e => accMask (mget 0 tl.accFmt (off / 8192) == 1) (off + e.2) e.1)
      { tl with acc := m.bytes, accPoison := m.poison }
  | .staging d off => s.modDie d fun di => { di with staging := di.staging.writeList off l }
  | .host p iova => { s with host := mput s.host p ((mget Store.empty s.host p).writeList iova l) }
  | .lost _ => s

/-- An n-byte value written at a home. -/
def State.writeHome (s : State) (h : Home) (n v : Nat) : State := s.writeHomeList h (toBytes v n)

/-- The units of n bytes at a home become poison. -/
def State.poisonAt (s : State) (h : Home) (n : Nat) : State :=
  match h with
  | .dev pa => { s with dev := (beatsOf pa n).foldl (fun m x => (s.mirrors x.1).foldl (fun m a => m.addPoison a x.2) m) (s.dev.addPoison pa n) }
  | .tile t off => s.modTile t fun tl => { tl with store := tl.store.addPoison off n }
  | .acc t off => s.modTile t fun tl => { tl with accPoison := (Store.addPoison ⟨tl.acc, tl.accPoison⟩ off n).poison }
  | .staging d off => s.modDie d fun di => { di with staging := di.staging.addPoison off n }
  | .host p iova => { s with host := mput s.host p ((mget Store.empty s.host p).addPoison iova n) }
  | .lost _ => s

/-- A home moved up by k bytes. -/
def Home.plus (h : Home) (k : Nat) : Home :=
  match h with
  | .dev a => .dev (a + k) | .tile t a => .tile t (a + k) | .acc t a => .acc t (a + k) | .staging d a => .staging d (a + k)
  | .host p a => .host p (a + k)
  | .lost a => .lost (a + k)

/-- A home moved down by k bytes. -/
def Home.minus (h : Home) (k : Nat) : Home :=
  match h with
  | .dev a => .dev (a - k) | .tile t a => .tile t (a - k) | .acc t a => .acc t (a - k) | .staging d a => .staging d (a - k)
  | .host p a => .host p (a - k)
  | .lost a => .lost (a - k)

/-- The I/O die of a partition's virtual function, where the module scheduler admits its launches and its host accesses leave (R319, R369). -/
def ioDie (p : Nat) : Nat := 24 + p / 32

/-- The I/O die of a reserve-tier address: 4 KB units interleave over the installed devices in ascending link order, four links on each I/O die
(R373). -/
def State.reserveDie (s : State) (pa : Nat) : Nat :=
  24 + (s.clasp.cxl[(pa - 0x800000000000) / 4096 % s.clasp.cxl.length]?).getD 0 / 4

/-- The die of a home. -/
def State.dieAt (s : State) (h : Home) : Nat :=
  match h with
  | .dev pa | .lost pa => if pa < 0x800000000000 then min (pa / 0x1000000000) 27 else s.reserveDie pa
  | .tile t _ | .acc t _ => dieOf t
  | .staging d _ => d
  | .host p _ => ioDie p

/-- HBM sectors are metered: 64 bytes each (R381). -/
def State.meterDev (s : State) (p : Nat) (h : Home) (n : Nat) (wr : Bool) : State :=
  match h with
  | .dev pa => if pa < 0x800000000000 then s.modPart p fun q =>
      { q with partial_ := mmod 0 q.partial_ (if wr then 7 else 6) (· + 64 * ((pa % 64 + n + 63) / 64)) } else s
  | _ => s

/-- The home lies in the reserve tier. -/
def Home.isReserve (h : Home) : Bool := match h with | .dev pa => decide (0x800000000000 ≤ pa) | _ => false

/-- What one read of the reserve tier returns as poison: the device says so, or its link is down (R305, R316; log 4). -/
def State.reservePoison (s : State) (h : Home) : Bool :=
  match h with | .dev pa => h.isReserve && Config.cxlPoison s.free pa | _ => false

/-- A read of n bytes at a home returns poison: stored, or of the reserve tier (R139, R305). -/
def State.poisonRead (s : State) (h : Home) (n : Nat) : Bool := s.poisonHome h n || s.reservePoison h

/-! Records to the outside. -/

/-- The fault ring takes records (R372). -/
def Partition.ringOk (p : Partition) : Bool :=
  p.rbase != 0 && p.rbase % 64 == 0 && decide (16 ≤ p.rsize) && decide (p.rsize ≤ 65536) && p.rsize == 2 ^ Nat.log2 p.rsize

/-- A 32-byte record goes to a partition's fault ring, or counts in DROPPED (R372). -/
def State.ringRecord (s : State) (p rec : Nat) : State :=
  let q := s.part p
  if !q.ringOk || (q.rhead + 2 ^ 64 - q.rtail) % 2 ^ 64 == q.rsize then s.modPart p fun q => { q with dropped := (q.dropped + 1) % 2 ^ 64 }
  else (s.writeHome (.host p (q.rbase + 32 * (q.rhead % q.rsize))) 32 rec).modPart p fun q => { q with rhead := (q.rhead + 1) % 2 ^ 64 }

/-- An error record of R389: type, code, value, unit kind, die, label. -/
def errRecord (lclk value code rtype ukind die label part : Nat) : Nat :=
  lclk % 2 ^ 64 * 2 ^ 192 + value % 2 ^ 64 * 2 ^ 128 + code * 2 ^ 96 + rtype * 2 ^ 88 + ukind * 2 ^ 84 + die % 32 * 2 ^ 79
    + label % 128 * 2 ^ 72 + part

/-- A record of type 2 with CODE 8: a completion record is unusable (R38, R389). -/
def State.badRecord (s : State) (p die addr : Nat) : State := s.ringRecord p (errRecord (s.die die).lclk addr 8 2 0 die 0 p)

/-- An event that the module sends outside. -/
def State.send (s : State) (to_ what : String) (vals : List Nat) : State := s.modClasp fun c => { c with sent := c.sent ++ [⟨to_, what, vals⟩] }

/-! Injection credits. -/

/-- The credit counter of a partition on a die (R347). -/
def State.credit (s : State) (die p : Nat) : Credit := mget ⟨0, 0, [], []⟩ (s.die die).credits p

/-- THROTTLE.HELD (R21, R348): the tile's allotment is empty, once the scheduler has given its partition a CAP; 0 at reset (log 62). -/
def State.throttled (s : State) (t : Nat) : Bool := (s.tile t).allot == 0 && (s.credit (dieOf t) (s.partId t)).cap != 0


/-! Barriers: completing phases (R33, R153, R156). -/

/-- A phase completes: PHASE rises, the next phase opens with the withdrawn arrivals, releases leave for every member. -/
def State.completePhase (s : State) (l g : Nat) : State :=
  let gr := s.group l g
  let ph := (gr.phase + 1) % 2 ^ 32
  let s := s.modGroup l g fun e => { e with phase := ph, arrived := e.wd, cxl := decide (0 < e.wd) }
  { s with releases := s.releases ++ gr.members.filterMap fun v => ((s.launch l).tiles[v]?).map fun t => ⟨l, g, t, ph, gr.cxl⟩ }

/-- The phase completes when ARRIVED has reached NARR. -/
def State.checkPhase (s : State) (l g : Nat) : State :=
  let gr := s.group l g
  if gr.narr ≤ gr.arrived && !gr.exhausted then s.completePhase l g else s

/-- A killed or purged task's arrivals are credited (R156). -/
def State.withdraw (s : State) (k : Task) : State :=
  k.groups.foldl (fun s g =>
    let gr := s.group k.lid g
    if gr.exhausted then s
    else
      let now := mfind g k.arrived != some gr.phase
      let wd := gr.wd + 1
      let s := s.modGroup k.lid g fun e =>
        { e with wd := wd, arrived := if now then e.arrived + 1 else e.arrived, cxl := e.cxl || now }
      if gr.narr ≤ wd then (s.completePhase k.lid g).modGroup k.lid g fun e => { e with exhausted := true, cxl := true }
      else s.checkPhase k.lid g) s

/-! Counts of a cancel (R39, R265, R340): each thing is counted by the one cancel whose registration first reached its tile or die. -/

/-- A 24-bit count, saturating (R340). -/
def sat24 (n : Nat) : Nat := min n (2 ^ 24 - 1)

/-- One more count in the first registration of a tile that `hit` selects; none once that one has reported. -/
def Tile.count (tl : Tile) (hit : Nat → Bool) (f : Reg → Reg) : Tile :=
  match tl.regs.findIdx? (fun g => hit g.scope) with
  | some n => { tl with regs := tl.regs.modify n fun g => if g.sent then g else f g }
  | none => tl

/-- Counts of purged, killed, cut and dropped are added up, each saturating at 24 bits. -/
def addCounts (a b : List Nat) : List Nat := (List.range 4).map fun k => sat24 (a.getD k 0 + b.getD k 0)

/-- A die's sums of a cancel grow. -/
def Cancel.addSum (c : Cancel) (die : Nat) (l : List Nat) : Cancel := { c with sums := mput c.sums die (addCounts (mget [] c.sums die) l) }

/-! Cancelling queue entries (R250). -/

/-- The entry has started, no cancel has reached it, with its work done or not, and its contribution has not left (R223, R224, R226, R250). -/
def QEntry.dispatched (e : QEntry) : Bool := e.began && !e.cxl && !e.ctrSent
/-- A cancel cuts it: a started copy or stream, no probe in progress (R250). -/
def QEntry.isCut (e : QEntry) : Bool := e.dispatched && (e.probed || !(e.kind == .mcopy || e.kind == .rcopy))

/-- An entry that the cancel ends; the Bool says that it counts as cut. An egress stream of the network stays until its end has reached its
tracker: what its port has given up is still written (R250, R359). -/
def QEntry.cancelled (e : QEntry) : QEntry × Bool :=
  match e.kind with
  | .copy | .mcopy | .rcopy | .sIn | .sOut | .sRec | .sConst | .sDrop | .sInd =>
    match e.st with
    | .queued => ({ e with cxl := true, st := .finished }, false)
    | .started => ({ e with cxl := true, st := if e.trk.isSome then .started else .finished, stop := none }, e.isCut)
    | .finished => (if e.dispatched then { e with cxl := true } else e, e.isCut)
  | _ => ({ e with st := .finished }, false)

/-- A port that an ended stream held is free. -/
def Port.release (id : Nat) (p : Port) : Port := if p.holder.map (·.2) == some id then Port.reset else p

/-- A stream's ports are free; a network stream's buffer waits for the end that its sender owes (R250, R359), an egress stream of the network
keeps its port until then. -/
def Tile.endStream (tl : Tile) (e : QEntry) : Tile :=
  { tl with
    ips := tl.ips.map fun x => (x.1, x.2.release e.id)
    eps := tl.eps.map fun x => (x.1, if e.trk.isSome then { x.2 with fifo := if x.2.holder.map (·.2) == some e.id then [] else x.2.fifo } else x.2.release e.id)
    gbufs := tl.gbufs.map fun x =>
      if x.1 == e.port && (e.kind == .sIn || e.kind == .sInd) && !e.sentEnd && e.st != .queued then (x.1, { x.2 with endDue := some (e.seq % 4096) }) else x }

/-- Every entry that `which` selects meets the fate of R250; the number of cuts is counted in the tile's registrations. -/
def Tile.cancelEntries (tl : Tile) (which : QEntry → Bool) : Tile × Nat :=
  let hit := tl.queues.flatMap fun q => q.2.entries.filter which
  let cut := (hit.filter fun e => e.cancelled.2).length
  let tl := { tl with queues := tl.queues.map (fun q => (q.1, { q.2 with entries := q.2.entries.map (fun e => if which e then e.cancelled.1 else e) })) }
  ((hit.filter fun e => e.st == .started || e.dispatched).foldl Tile.endStream tl, cut)

/-! Block runs: giving back an instance (R186, R189). -/

/-- The physical nodes of a quarter set are cleared to zero with their flags (R67, R194). -/
def Tile.clearNodes (tl : Tile) (qmask : Nat) : Tile :=
  { tl with acc := tl.acc.filter fun c => !bit qmask (c.1 / 8192), accPoison := tl.accPoison.filter fun u => !bit qmask (u / 512) }

/-- The nodes of an instance are cleared to zero with their flags (R186, R189). -/
def Tile.clearUsed (tl : Tile) (i : Inst) : Tile :=
  let l := usedNodes i.cls i.blk
  { tl with acc := tl.acc.filter fun c => !l.contains (c.1 / 8192, c.1 % 8192 / 16), accPoison := tl.accPoison.filter fun u => !l.contains (u / 512, u % 512) }

/-- The current instance of a run that `p` selects, with its run. -/
def Tile.headInst (tl : Tile) (p : Inst → Bool) : Option (Run × Inst) :=
  tl.runs.findSome? fun r => (r.insts.head?).bind fun i => if p i then some (r, i) else none

/-- Beats of a run have not passed the spine end (R181, R188). -/
def Tile.draining (tl : Tile) : Bool :=
  tl.runs.any fun r => match r.insts.head? with | some i => i.drain != 0 && !i.held && !i.scan | none => false

/-- The instance that a context's run currently executes, and the one that it holds as a continuation (R186), each with its run. -/
def Tile.instOf (tl : Tile) (c : Nat) : Option (Run × Inst) := tl.headInst fun i => i.ctx == c && !i.held
def Tile.heldOf (tl : Tile) (c : Nat) : Option (Run × Inst) := tl.headInst fun i => i.ctx == c && i.held

/-- The first instance of the run on qmask is replaced. -/
def Tile.modInst (tl : Tile) (qmask : Nat) (f : Inst → Inst) : Tile :=
  { tl with runs := tl.runs.map (fun r => if r.qmask == qmask then { r with insts := match r.insts with | i :: t => f i :: t | [] => [] } else r) }

/-- The instance of context c in the run on qmask is replaced. -/
def Tile.modCtxInst (tl : Tile) (qmask c : Nat) (f : Inst → Inst) : Tile :=
  { tl with runs := tl.runs.map (fun r => if r.qmask == qmask then { r with insts := r.insts.map fun i => if i.ctx == c then f i else i } else r) }

/-- Instances that have begun to take their panel stand aside for a later run of their entry (R179, R185). -/
def Tile.setAside (tl : Tile) (l : List Inst) : Tile :=
  { tl with aside := (l.filter (·.started)).foldl (fun m i => mput m i.ctx i) tl.aside }

/-- The run on qmask keeps its current instance alone; the others wait for a later run (R185, R186). -/
def Tile.keepOnly (tl : Tile) (qmask : Nat) (i : Inst) : Tile :=
  let tl := (tl.runs.filter fun r => r.qmask == qmask).foldl (fun tl r => tl.setAside r.insts.tail) tl
  { tl with runs := tl.runs.map fun r => if r.qmask == qmask then { r with insts := [i] } else r }

/-- The first instance of the run on qmask leaves it; an empty run frees its quarters. With `whole` the others wait for a later run. -/
def Tile.dropInst (tl : Tile) (qmask : Nat) (whole : Bool) : Tile :=
  let tl := if whole then (tl.runs.filter fun r => r.qmask == qmask).foldl (fun tl r => tl.setAside r.insts.tail) tl else tl
  { tl with runs := (tl.runs.map fun r => if r.qmask == qmask then { r with insts := if whole then [] else r.insts.tail } else r).filter (fun r => !r.insts.isEmpty) }

/-- The streams that an instance issued are cancelled as engine commands (R186, R250). -/
def Tile.cancelOwn (tl : Tile) (i : Inst) : Tile :=
  let res := tl.cancelEntries fun e => i.ownIds.contains e.id
  res.1.count (fun sc => covTag sc i.tag) fun g => { g with cut := g.cut + res.2 }

/-- Results of committed beats stand: those for an egress stream that held its port before the instance go to that port, beyond its room if need be
(R184, R186, R189). -/
def Tile.leaveSink (tl : Tile) (i : Inst) : Tile :=
  i.streams.foldl (fun tl x =>
    if x.1 < 16 || i.ownIds.contains x.2.2 then tl
    else { tl with eps := tl.eps.map fun e => if e.1 + 16 == x.1 && e.2.holder == some x.2 then (e.1, { e.2 with fifo := e.2.fifo ++ i.sink }) else e }) tl

/-- An instance is given up: its nodes cleared, its own streams cancelled, the quarters free (R186, R189). With `whole` the run ends and its
other instances wait for a later run. Operands taken but not used stay behind for the next sweep (R191). -/
def State.giveUp (s : State) (t : Nat) (r : Run) (i : Inst) (whole : Bool) : State :=
  s.modTile t fun tl =>
    let tl := { tl with strays := mmod 0 tl.strays (4 + ((quartersOf r.qmask).head?).getD 0) (fun n => n + (i.bufs.map fun (x : Nat × List PElem) => x.2.length).sum) }
    let tl := if r.cls = 6 then { tl with array := EArray.reset } else tl.clearUsed i
    ((tl.leaveSink i).cancelOwn i).dropInst r.qmask whole

/-- A scanned-out instance of a context is given up: its own streams are cancelled (R186, R187). -/
def Tile.dropScanned (tl : Tile) (c : Nat) : Tile :=
  match mfind c tl.scanned with
  | none => tl
  | some i => ({ tl with scanned := mdel c tl.scanned }.leaveSink i).cancelOwn i

/-- An instance of a context that stands aside is given up (R186, R189). -/
def Tile.dropAside (tl : Tile) (c : Nat) : Tile :=
  match mfind c tl.aside with
  | none => tl
  | some i => ({ tl with aside := mdel c tl.aside }.leaveSink i).cancelOwn i

/-- The block continuation of a context is discarded (R186). -/
def State.discardCont (s : State) (t c : Nat) : State :=
  match (s.ctx t c).cont with
  | none => s
  | some _ =>
    let s := match (s.tile t).heldOf c with
      | some (r, i) => s.giveUp t r i true
      | none => s.modTile t (fun tl => tl.dropScanned c)
    s.modCtx t c fun x => { x with cont := none }

/-! Ending a task and taking a trap. -/

/-- A context becomes free; posted accesses and fences go on (R16, R150, R269). Loads of the ended task lose their destination (R266). -/
def Ctx.freed (c : Ctx) : Ctx :=
  { c with task := none, wait := none, trap := false, cont := none, arriving := none, deferred := [], killAt := none, doom := none, age := 0,
           outs := c.outs.map fun a => { a with dst := .none } }

/-- An instance of a context that has not begun leaves its run. -/
def Tile.leaveFresh (tl : Tile) (c : Nat) : Tile :=
  let rs := tl.runs.map fun r => { r with insts := r.insts.filter fun i => i.ctx != c || i.started }
  { tl with runs := rs.filter fun r => !r.insts.isEmpty }

/-- An instance of a context that has not become current leaves its run. -/
def Tile.leaveRun (tl : Tile) (c : Nat) : Tile :=
  let rs := tl.runs.map fun r => { r with insts := r.insts.filter fun i => i.ctx != c }
  { tl with runs := rs.filter fun r => !r.insts.isEmpty }

/-- It leaves, and the streams that already fill its panel are cancelled. -/
def Tile.dropCtx (tl : Tile) (c : Nat) : Tile :=
  ((tl.runs.flatMap fun r => r.insts.tail.filter fun i => i.ctx == c).foldl Tile.cancelOwn tl).leaveRun c

/-- No instance of a context stays behind: a continuation is discarded, a started one stops, one that waits leaves its run, one that stands
aside is given up (R186, R189, R266). -/
def State.leaveBlocks (s : State) (t c : Nat) : State :=
  let s := s.discardCont t c
  let s := (s.tile t).runs.foldl (fun s r => match r.insts.head? with
    | some i => if i.ctx == c && i.started then s.giveUp t r i i.held else s
    | none => s) s
  s.modTile t fun tl => ((tl.dropCtx c).dropScanned c).dropAside c

/-- The task of a context ends; no block of it goes on (R269, R273). -/
def State.endTask (s : State) (t c : Nat) : State := (s.leaveBlocks t c).modCtx t c Ctx.freed

/-- TKILL counts a task: in the first registration here that covers it, else in the cancel of its own that it issued (R265, R268). -/
def State.countKill (s : State) (t c scope : Nat) : State :=
  if (s.tile t).regs.any fun g => contains g.scope scope
  then s.modTile t fun tl => tl.count (fun sc => contains sc scope) fun g => { g with killed := g.killed + 1 }
  else match (s.ctx t c).doom with
    | some no => { s with cancels := s.cancels.map fun x => if x.1 = no then (no, x.2.addSum (dieOf t) [0, 1]) else x }
    | none => s

/-- The task of a context is killed (R266): its started block instance stops, its groups are credited, it counts in TKILL. -/
def State.killTask (s : State) (t c : Nat) : State :=
  match (s.ctx t c).task with
  | none => s
  | some k => (((s.leaveBlocks t c).withdraw k).countKill t c k.scope).modCtx t c Ctx.freed

/-- A double trap (R273): the task ends, the first one of the launch is recorded. -/
def State.doubleTrap (s : State) (t c cause pc : Nat) : State :=
  match (s.ctx t c).task with
  | none => s.endTask t c
  | some k =>
    let s := s.modLaunch k.lid fun l =>
      if l.dt then l else { l with dt := true, dtpc := pc, dcause := cause, dvtile := (s.tile t).vtile, dctx := c }
    s.endTask t c

/-- TRAPBASE as a context reads and uses it: the old value in the cycle in which another context writes it (R128). -/
def State.trapBaseOf (s : State) (t c : Nat) : Word :=
  match (s.tile t).wrOld with
  | some o => if o.cycle = (s.die (dieOf t)).cycle ∧ o.ctx ≠ c then o.trapBase else (s.tile t).trapBase
  | none => (s.tile t).trapBase

/-- Trap entry (R272): the one operation that every trap of a context goes through. -/
def State.enter (s : State) (t c cause addr aux pc : Nat) : State :=
  let x := s.ctx t c
  let base := s.trapBaseOf t c
  if x.trap || base.toNat % 8 != 0 || decide (tileStoreSize ≤ base.toNat) then s.doubleTrap t c cause pc
  else s.modCtx t c fun x =>
    { x with trap := true, trapCause := BitVec.ofNat 8 cause, trapAddr := BitVec.ofNat 64 addr, trapAux := BitVec.ofNat 64 aux,
             trapPc := BitVec.ofNat 64 pc, wait := none, regs := { x.regs with pc := base } }

/-- trap() of R8: the issuing context traps at its instruction. -/
def State.trapNow (s : State) (cause addr aux : Nat) : State := s.enter s.cur.1 s.cur.2 cause addr aux s.pc.toNat

/-- Leaving trap mode (R274): the pc is the target; a continuation is kept only when the target is its header (R186). -/
def State.leaveTrap (s : State) (target : Word) (drop : Bool) : State :=
  let c := s.me
  let s := if drop || (match c.cont with | some h => h.2 != target.toNat | none => false) then s.discardCont s.cur.1 s.cur.2 else s
  s.modMe fun c => { c with trap := false, regs := { c.regs with pc := target } }

/-- The scope of a context's task, and whether a set of intervals covers a scope or a tag (R263). -/
def Ctx.scope (c : Ctx) : Nat := match c.task with | some k => k.scope | none => 0
def Tile.covers (tl : Tile) (scope : Nat) : Bool := tl.cancels.any fun i => contains i scope
def Tile.coversTag (tl : Tile) (tag : Nat) : Bool := tl.cancels.any fun i => covTag i tag

/-- A free value is taken (log 4). -/
def State.takeFree (s : State) : Nat × State := (Config.freeNat s.free, { s with free := s.free + 1 })

end Sys2Proof.Machine
end

