-- ==== Sys2Proof/Machine/Flags.lean ====
section
/-! DEFINITION. The flags and status bits that instructions write: FMODE (R23, R122), LSSUM (R24). -/

namespace Sys2Proof.Machine

/-- The flag bits of an operation in FMODE's places: NX 8, UF 7, OF 6, DZ 5, NV 4. -/
def Exc.mask (e : Exc) : Nat := b2n e.nv * 16 + b2n e.dz * 32 + b2n e.of * 64 + b2n e.uf * 128 + b2n e.nx * 256

/-- The sticky flags are ORed into FMODE (R122). -/
def orFmode (m : BitVec 9) (e : Exc) : BitVec 9 := m ||| BitVec.ofNat 9 e.mask

/-- The flags of a float instruction that completes `lat` cycles after it issues (R109, R122): a read of FMODE waits until then, and a write that
issues before takes them in. -/
def State.setFlags (s : State) (e : Exc) (lat : Nat := 4) : State :=
  let now := (s.die (dieOf s.cur.1)).cycle
  s.modMe fun c => { c with
    regs := { c.regs with fmode := orFmode c.regs.fmode e }
    fflight := (c.fflight.filter fun x => decide (now < x.1)) ++ [(now + lat, e.mask)] }

/-- The flags of the float instructions still in flight (R122). -/
def State.flightFlags (s : State) : BitVec 9 :=
  let now := (s.die (dieOf s.cur.1)).cycle
  (s.me.fflight.filter fun x => decide (now < x.1)).foldl (fun m x => m ||| BitVec.ofNat 9 x.2) 0

/-- The rounding mode of a float instruction (R117): FMODE.RM for code 0. -/
def State.rm (s : State) (r : RmCode) : Rm :=
  match r with
  | .fmode => Rm.ofCode s.me.regs.fmode.toNat
  | .rne => .rne | .rtz => .rtz | .rup => .rup | .rdn => .rdn

/-- LSSUM bits are set for the quarters of a mask (R24). -/
def orLssum (m : BitVec 4) (q : Nat) : BitVec 4 := m ||| BitVec.ofNat 4 q

/-- The width of a scalar format's code in R42. -/
def ffmt (f : FFmt) : Nat := match f with | .d => 0x0C | .s => 0x0D

end Sys2Proof.Machine
end

