-- ==== Sys2Proof/Machine/Operands.lean ====
section
/-! DEFINITION. Operand forms: addresses (R79), the values stores take from registers and loads put into them (R80), the typed sources and
results of the integer instructions (R113), float operands (R14, R118). -/

namespace Sys2Proof.Machine

/-! Integer types (R113). -/

/-- The width w of a type. -/
def tyWidth (ty : IntTy) : Nat := match ty with | .x => 64 | _ => 32

/-- The result written for a type: wrapped, sign-extended from 32 bits, or zero-extended from 32 bits. -/
def tyResult (ty : IntTy) (v : Int) : Word :=
  match ty with
  | .x => BitVec.ofNat 64 (wrap v 64)
  | .w => BitVec.ofNat 64 (wrap (sext (wrap v 32) 32) 64)
  | .wn => BitVec.ofNat 64 (wrap v 32)

/-! Addresses (R79). -/

/-- The address of a load or store. -/
def State.memAddr (s : State) (m : MemArgs) : Nat :=
  wrap (((s.nx m.base : Nat) : Int) + ((s.nx m.index * 2 ^ m.scale : Nat) : Int) + sext m.off 32) 64

/-- The address of an atomic. -/
def State.amoAddr (s : State) (m : AmoArgs) : Nat := wrap (((s.nx m.base : Nat) : Int) + sext m.off 32) 64

/-- The bytes of a width code (R135). -/
def wopBytes (w : Wop) : Nat :=
  match w with
  | .b8 | .i8 => 1
  | .b16 | .i16 => 2
  | .b32 | .i32 | .f32 => 4
  | .b64 | .f64 => 8
  | .b128 => 16

/-- The bytes of an atomic. -/
def amoBytes (m : AmoArgs) : Nat := if m.wide then 8 else 4

/-- What a store writes: the low bytes of its register or register pair (R80, R135). -/
def State.storeData (s : State) (m : MemArgs) : Nat :=
  match m.w with
  | .f32 | .f64 => (s.getF m.data).toNat % 2 ^ (8 * wopBytes m.w)
  | .b128 => s.nx m.data + s.nx (m.data + 1) * 2 ^ 64
  | _ => s.nx m.data % 2 ^ (8 * wopBytes m.w)

/-- The register a load fills. -/
def memDst (m : MemArgs) : Dst :=
  match m.w with
  | .f32 | .f64 => .f m.data
  | .b128 => .pair m.data
  | _ => .x m.data

/-- The value a load fills its register with (R80). -/
def wopFill (w : Wop) (v : Nat) : Nat :=
  match w with
  | .i8 => wrap (sext v 8) 64
  | .i16 => wrap (sext v 16) 64
  | .i32 => wrap (sext v 32) 64
  | _ => v

/-- A returning result is written to its destination (R80, R142). -/
def Ctx.fill (c : Ctx) (d : Dst) (w : Wop) (v : Nat) : Ctx :=
  match d with
  | .none => c
  | .x r => c.setX r (BitVec.ofNat 64 (wopFill w v))
  | .f r => c.setF r (BitVec.ofNat 64 v)
  | .pair r => (c.setX r (BitVec.ofNat 64 v)).setX (r + 1) (BitVec.ofNat 64 (v / 2 ^ 64))
  | .p r => c.setP r (BitVec.ofNat 256 v)

/-- The read-modify-write of R142: the new value from the old one, the operand and the expected value. -/
def amoNew (op : AmoOp) (n old a e : Nat) : Nat :=
  match op with
  | .add => (old + a) % 2 ^ (8 * n)
  | .and => old &&& a
  | .or => old ||| a
  | .xor => old ^^^ a
  | .swap => a
  | .cas => if old = e then a else old
  | .mini => if sext old (8 * n) ≤ sext a (8 * n) then old else a
  | .maxi => if sext a (8 * n) ≤ sext old (8 * n) then old else a
  | .minn => if old ≤ a then old else a
  | .maxn => if a ≤ old then old else a

/-! Float operands (R14, R118). -/

/-- The latency of FDIV and FSQRT (R109). -/
def divLat (f : FFmt) : Nat := match f with | .s => 12 | .d => 22

/-- The value of an f register read in a format. -/
def State.fnum (s : State) (f : FFmt) (r : Nat) : Num := decodeNum (ffmt f) ((s.getF r).toNat % 2 ^ fmtWidth (ffmt f))

/-- A float result rounded and written with its flags (R14, R118, R122). -/
def State.putFloat (s : State) (f : FFmt) (rm : Rm) (d : Nat) (x : Num) (e : Exc) (lat : Nat := 4) : State :=
  let r := roundNum (ffmt f) rm false x
  (s.setF d (BitVec.ofNat 64 r.1)).setFlags (r.2.or e) lat

/-- The relation of PSET and BC (R83, R126). -/
def relHolds (r : Rel) (a b : Word) : Bool :=
  match r with
  | .eq => a == b
  | .ne => a != b
  | .lt => decide (sext a.toNat 64 < sext b.toNat 64)
  | .ge => decide (sext b.toNat 64 ≤ sext a.toNat 64)
  | .ltn => decide (a.toNat < b.toNat)
  | .gen => decide (b.toNat ≤ a.toNat)

end Sys2Proof.Machine
end

