-- ==== Sys2Proof/Machine/Branch.lean ====
section
/-! DEFINITION. Branches, jumps, calls and loops of majors 0x40 to 0x44 (R123, R124). The target is judged when it is fetched. -/

namespace Sys2Proof.Machine

/-- The target of a B form (R82, R123). -/
def State.target (s : State) (woff : Nat) : Word := BitVec.ofNat 64 (wrap ((s.pc.toNat : Int) + 8 * sext woff 32) 64)

/-- The condition of BC (R83). -/
def State.condHolds (s : State) (c : BCond) : Bool :=
  match c with
  | .rel r a b => relHolds r (s.getX a) (s.getX b)
  | .p k => s.getB k
  | .np k => !s.getB k

def execBc (c : BCond) (woff : Nat) (s : State) : Out := .next (if s.condHolds c then s.setPc (s.target woff) else s.advance)
def execJmp (woff : Nat) (s : State) : Out := .next (s.setPc (s.target woff))
def execCall (link woff : Nat) (s : State) : Out := .next ((s.setX link (s.pc + 8)).setPc (s.target woff))
/-- JMPX reads its target before it writes the link (R123). -/
def execJmpx (link a : Nat) (s : State) : Out := .next ((s.setX link (s.pc + 8)).setPc (s.getX a))
def execRet (a : Nat) (s : State) : Out := .next (s.setPc (s.getX a))
/-- LOOP decrements and branches while the new value, as x[a] reads it, is not 0 (R84, R123). -/
def execLoop (a woff : Nat) (s : State) : Out :=
  let s' := s.setX a (s.getX a - 1)
  .next (if s'.getX a ≠ 0 then s'.setPc (s.target woff) else s'.advance)

end Sys2Proof.Machine
end

