-- ==== Sys2Proof/Machine/Patterns.lean ====
section
/-! DEFINITION. Pattern registers: fields, the element walk, addresses, beats, and reading and writing elements (R30 to R32, R43, R51,
R228, R232, R233). -/

namespace Sys2Proof.Machine

/-- The fields of a pattern register (R30). -/
structure Pat where
  base : Nat
  space : Nat
  fmt : Nat
  dims : Nat
  layout : Nat
  resv : Nat
  ext : List Nat
  str : List Nat
  deriving DecidableEq, Repr

/-- A pattern register's value read as fields (R30). -/
def patOf (v : Nat) : Pat :=
  { base := bits v 63 0, space := bits v 66 64, fmt := bits v 71 67, dims := bits v 73 72, layout := bits v 75 74, resv := bits v 79 76,
    ext := (List.range 4).map fun k => bits v (80 + 44 * k + 43) (80 + 44 * k + 24),
    str := (List.range 4).map fun k => bits v (80 + 44 * k + 23) (80 + 44 * k) }

/-- Values of a compressed group (R51). -/
def Pat.nval (p : Pat) : Nat := p.str.getD 0 0

/-- Bits of one pattern element: a group in layout 3 (R42, R51). -/
def Pat.width (p : Pat) : Nat := if p.layout = 3 then p.nval * (fmtWidth p.fmt + 4) else fmtWidth p.fmt

/-- A pattern that a stream or copy refuses with cause 0x02 (R31, R42, R51). -/
def Pat.bad (p : Pat) : Bool :=
  p.resv != 0 || decide (0x1E ≤ p.fmt) || (p.layout == 1 && p.dims == 0) || (p.layout == 2 && decide (p.dims ≤ 1))
    || (p.layout == 3 && (!(p.nval == 2 || p.nval == 4 || p.nval == 8) || p.width % 8 != 0 || isBlockFmt p.fmt || (sigBits p.fmt).isNone))

/-- The extents that count (R31). -/
def Pat.exts (p : Pat) : List Nat := p.ext.take (p.dims + 1)

/-- The number of elements (R31). -/
def Pat.count (p : Pat) : Nat := p.exts.foldl (· * ·) 1

/-- The indices of element number j, dimension 0 fastest (R31). -/
def digitsBy : Nat → List Nat → List Nat
  | _, [] => []
  | j, e :: t => j % e :: digitsBy (j / e) t

def Pat.index (p : Pat) (j : Nat) : List Nat := digitsBy j p.exts

/-- Sum of the index times the stride from dimension k on. -/
def Pat.linear (p : Pat) (ix : List Nat) (k : Nat) : Int :=
  ((ix.zip p.str).drop k).foldl (fun a e => a + (e.1 : Int) * sext e.2 24) 0

/-- The offset in elements (R32, R51). -/
def Pat.off (p : Pat) (ix : List Nat) : Int :=
  match p.layout with
  | 0 => p.linear ix 0
  | 1 => (interleave 2 (ix.take 2) 20 : Nat) + p.linear ix 2
  | 2 => (interleave 3 (ix.take 3) 20 : Nat) + p.linear ix 3
  | _ => (ix.getD 0 0 : Nat) + p.linear ix 1

/-- The bit address of the element with the given indices (R32). -/
def Pat.bitAddrAt (p : Pat) (ix : List Nat) : Int := (p.base : Int) * 8 + p.off ix * p.width
/-- The bit address of element number j. -/
def Pat.bitAddr (p : Pat) (j : Nat) : Int := p.bitAddrAt (p.index j)

/-- The payload bytes of E elements (R225). DESIGN CHOICE (log 66): in LAYOUT 3 an element is a group with its coordinates. -/
def Pat.bytesOf (p : Pat) (e : Nat) : Nat := cdiv (e * p.width) 8

/-- The 64-byte units of an element on one side, first and last. -/
def Pat.unit (p : Pat) (j : Nat) : Int × Int := (p.bitAddr j / 512, (p.bitAddr j + p.width - 1) / 512)

/-- An element continues the beat of the one before it on this side: both lie in one and the same unit (R228). -/
def Pat.joins (p : Pat) (j : Nat) : Bool :=
  let a := p.unit (j - 1)
  let b := p.unit j
  decide (0 < j) && a.1 == a.2 && b.1 == b.2 && a.1 == b.1

/-- An element of a transfer continues a beat: on the source, and on the destination, whose elements hold `div` source elements each touching
the whole of it (R228). -/
def joinsBeat (src dst : Option Pat) (div j : Nat) : Bool :=
  (match src with | some p => p.joins j | none => true)
    && (match dst with
        | some p => j % div != 0 || p.joins (j / div)
        | none => true)
    && decide (0 < j)

/-- The number of beats of n elements (R228). -/
def beatCount (src dst : Option Pat) (div n : Nat) : Nat := ((List.range n).filter fun j => !joinsBeat src dst div j).length

/-- The elements of the beat that begins at element j, at most k. -/
def beatLen (src dst : Option Pat) (div n : Nat) : Nat → Nat → Nat
  | 0, _ => 0
  | k + 1, j => if n ≤ j then 0 else if joinsBeat src dst div (j + 1) then 1 + beatLen src dst div n k (j + 1) else 1

/-- The lowest and highest byte that a pattern can touch (R159, R161). -/
def Pat.range (p : Pat) : Nat × Nat :=
  let corner := fun (hi : Bool) => p.bitAddrAt ((p.exts.zip p.str).zipIdx.map fun e =>
    let neg := decide (sext e.1.2 24 < 0) && !(decide (p.layout = 1) && decide (e.2 < 2)) && !(decide (p.layout = 2) && decide (e.2 < 3))
      && !(decide (p.layout = 3) && decide (e.2 = 0))
    if neg != hi then e.1.1 - 1 else 0)
  ((corner false / 8).toNat, ((corner true + p.width - 1) / 8).toNat)

/-! Reading and writing bytes and elements. -/

/-- The homes of n bytes, split where a 64 KB page ends; the failing address with cause and aux. -/
def State.segments (s : State) (v : Via) (t space addr n : Nat) (rd wr : Bool) : Except (Nat × Nat × Nat) (List (Home × Nat)) :=
  let cut := 65536 - addr % 65536
  let seg := fun (a m : Nat) => match s.resolveVia v t space a m rd wr with
    | .ok h => Except.ok (h, m)
    | .error e => .error (e.1, e.2, a)
  if n ≤ cut || space == 1 || space == 2 || space == 3 || space == 4 then (seg addr n).map fun h => [h]
  else match seg addr cut, seg (addr + cut) (n - cut) with
    | .ok a, .ok b => .ok [a, b]
    | .error e, _ => .error e
    | _, .error e => .error e

/-- Bytes over segments. -/
def State.readSegs (s : State) (l : List (Home × Nat)) : List Byte :=
  l.flatMap fun h => toBytes (s.readHome h.1 h.2) h.2
def State.segsPoisoned (s : State) (l : List (Home × Nat)) : Bool := l.any fun h => s.poisonHome h.1 h.2 || s.reservePoison h.1
def State.writeSegs (s : State) : List (Home × Nat) → List Byte → State
  | [], _ => s
  | (h, n) :: t, l => (s.writeHomeList h (l.take n)).writeSegs t (l.drop n)
def State.poisonSegs (s : State) (l : List (Home × Nat)) : State := l.foldl (fun s h => s.poisonAt h.1 h.2) s

/-- Where element bits lie: the byte address, the bytes, the bit shift; or the cause of R32 and R43 with the byte address. -/
def Pat.place (p : Pat) (j : Nat) : Except (Nat × Nat) (Nat × Nat × Nat) :=
  let a := p.bitAddr j
  if a < 0 then .error (0x04, wrap (a / 8) 64)
  else
    let al := if p.layout = 3 then 8 else fmtAlign p.fmt
    if a.toNat % al ≠ 0 then .error (0x05, a.toNat / 8)
    else .ok (a.toNat / 8, (a.toNat + p.width - 1) / 8 + 1 - a.toNat / 8, a.toNat % 8)

/-- The segments of element j, the shift and the byte address; or (cause, aux, byte address). -/
def State.elemAt (s : State) (v : Via) (t : Nat) (p : Pat) (j : Nat) (rd wr : Bool) :
    Except (Nat × Nat × Nat) (List (Home × Nat) × Nat × Nat) :=
  match p.place j with
  | .error e => .error (e.1, 0, e.2)
  | .ok (a, n, sh) => (s.segments v t p.space a n rd wr).map fun l => (l, sh, a)

/-- The address of the first poisoned unit of n bytes at a, by segments. -/
def State.poisonAddr (s : State) (l : List (Home × Nat)) (a : Nat) : Nat :=
  match l with
  | [] => a
  | (h, n) :: t =>
    if s.poisonHome h n then
      let st := s.homeStore h
      let u := st.1.poisonAddr st.2 n
      if u ≤ st.2 then a - (st.2 - u) else a + (u - st.2)
    else State.poisonAddr s t (a + n)

/-- The storage bits of element j, its poison, and the address of the poison or of the element; or a fault. -/
def State.readElem (s : State) (v : Via) (t : Nat) (p : Pat) (j : Nat) : Except (Nat × Nat × Nat) (Nat × Bool × Nat) :=
  (s.elemAt v t p j true false).map fun e =>
    let bad := s.segsPoisoned e.1
    (ofBytes (s.readSegs e.1) / 2 ^ e.2.1 % 2 ^ p.width, bad, if bad then s.poisonAddr e.1 e.2.2 else e.2.2)

/-- The w bits from bit sh of the segments take a value, and the segments' units poison when asked. -/
def State.putElem (s : State) (l : List (Home × Nat)) (sh w v : Nat) (psn : Bool) : State :=
  let old := s.readSegs l
  let o := ofBytes old
  let new := o % 2 ^ sh + v % 2 ^ w * 2 ^ sh + o / 2 ^ (sh + w) * 2 ^ (sh + w)
  let s' := s.writeSegs l (toBytes new old.length)
  if psn then s'.poisonSegs l else s'

/-- Element j takes the given storage bits, and its units poison when asked; or a fault. -/
def State.writeElem (s : State) (v : Via) (t : Nat) (p : Pat) (j x : Nat) (psn : Bool) : Except (Nat × Nat × Nat) State :=
  (s.elemAt v t p j false true).map fun e => s.putElem e.1 e.2.1 p.width x psn

/-- The leaf that a walk gives an agent for an address it holds afterwards. -/
def State.heldLeaf (s : State) (p va : Nat) : List Leaf := match s.walk p va with | some e => [e] | none => []

/-! Pattern register fields (R233). -/

/-- Bits hi..lo of v replaced by w. -/
def putBits (v hi lo w : Nat) : Nat := v - bits v hi lo * 2 ^ lo + w % 2 ^ (hi + 1 - lo) * 2 ^ lo

/-- PATSET of R233; `src` is x[xs]. -/
def patSet (f : PatField) (old src : Nat) : Nat :=
  match f with
  | .base => putBits old 63 0 src
  | .ctrl => putBits old 79 64 src
  | .d0 => putBits old 123 80 src
  | .d1 => putBits old 167 124 src
  | .d2 => putBits old 211 168 src
  | .d3 => putBits old 255 212 src
  | .copy => src
  | .add => putBits old 63 0 ((bits old 63 0 + src) % 2 ^ 64)

/-- PATGET of R233. -/
def patGet (f : PatField) (v : Nat) : Nat :=
  match f with
  | .base => bits v 63 0
  | .ctrl => bits v 79 64
  | .d0 => bits v 123 80
  | .d1 => bits v 167 124
  | .d2 => bits v 211 168
  | .d3 => bits v 255 212
  | .copy | .add => 0

end Sys2Proof.Machine
end

