-- ==== Sys2Proof/Machine/Issue.lean ====
section
/-! DEFINITION. Issue: fetching and decoding at the pc (R15, R71, R72, R124), and the interlocks that keep an instruction from issuing
(R109, R133, R137, R150, R160, R222, R257, R269, R355). -/

namespace Sys2Proof.Machine

/-! Outstanding accesses (R133, R150, R279). -/

/-- The access has been performed or has faulted. -/
def Access.done (a : Access) : Bool := match a.st with | .issued => false | _ => true
/-- The access reads. -/
def Access.reads (a : Access) : Bool :=
  match a.kind with
  | .load | .amo | .cread | .cadd | .gquery | .mtrd | .patld => true
  | _ => false
/-- The access writes. -/
def Access.writes (a : Access) : Bool := match a.kind with | .store | .amo | .cadd => true | _ => false
/-- A fence marker. -/
def Access.isFence (a : Access) : Bool := match a.kind with | .fence .. => true | _ => false
/-- The 8-byte parts that the access is performed in (R131, R232). -/
def Access.parts (a : Access) : Nat := match a.kind with | .patld => 4 | _ => if a.wop == .b128 then 2 else 1
/-- The result of the access can trap its context when it faults (R136, R271): posted accesses and stores have no result. -/
def Access.traps (a : Access) : Bool := match a.kind with | .load | .patld | .cread | .mtrd | .gquery => true | _ => a.dst != .none
/-- Nothing more comes of the access: it is performed and owes no register, or it has faulted and has no result. -/
def Access.finished (a : Access) : Bool :=
  match a.st with
  | .issued => false
  | .performed _ => a.dst == .none
  | .faulted .. => !a.traps

/-- The narrowest scope whose footprint holds a space (R132, R279): 0 tile, 1 cluster, 2 partition, 4 system. -/
def spaceRank (space : Nat) : Nat := match space with | 1 => 0 | 3 => 0 | 2 => 1 | 5 => 1 | 4 => 4 | _ => 2
/-- The scope that an ordering annotation has in a space (R132): device for space 0. -/
def ordRank (space : Nat) : Nat := match space with | 1 => 0 | 3 => 0 | 2 => 1 | 5 => 1 | 4 => 4 | _ => 3
def scopeRank (s : Scope) : Nat := match s with | .tile => 0 | .cluster => 1 | .partition => 2 | .device => 3 | .system => 4

/-- Does an ordering annotation make an acquire of a read, a release of a write (R132). -/
def isAcq (o : Ord) : Bool := o == .acq || o == .ar || o == .sc
def isRel (o : Ord) : Bool := o == .rel || o == .ar || o == .sc

/-- The access is an acquire (R132, R280): an annotated one that reads. -/
def Access.isAcquire (a : Access) : Bool := a.reads && isAcq a.ord
/-- An access is performed as a release of a scope sees it (R279, R280): a write outside the footprint does not count, a read and an
acquire always do. -/
def Access.awaited (a : Access) (rank : Nat) : Bool := !a.isFence && !a.done && (a.isAcquire || decide (spaceRank a.space ≤ rank))
/-- Every earlier access of the context is performed as a release of a scope asks (R280). -/
def Ctx.performedAt (c : Ctx) (rank : Nat) : Bool := c.outs.all fun a => !a.awaited rank
/-- Results that the context still awaits (R269): loads, atomics with return, GQUERY, MTRD, PATLD, CREAD and CADD with a destination. -/
def Ctx.awaits (c : Ctx) : Bool := c.outs.any fun a => a.own == c.serial && a.traps && !a.finished
/-- An atomic with return is outstanding: the context cannot be killed before its old value returns (R111, R144). -/
def Ctx.owesAtomic (c : Ctx) : Bool := c.outs.any fun a => a.kind == .amo && a.dst != .none
/-- Results that count against the limit of 8 (R133, R232, R276). -/
def Ctx.counted (c : Ctx) : Nat :=
  (c.outs.filter fun a => match a.kind with | .load | .gquery | .mtrd | .patld => true | .amo => a.dst != .none | _ => false).length

/-- A fence among the outstanding accesses still holds back a write, or every access (R150): .rel until what comes before it is performed
at its scope, a read wherever it goes and a write inside the footprint; .acq until every read before it has returned; .ar both. -/
def fenceHolds (write : Bool) : List Access → List Access → Bool
  | _, [] => false
  | before, a :: t =>
    (match a.kind with
     | .fence sc k =>
       let undone := before.any fun b => !b.isFence && !b.done && ((b.reads && !b.writes) || decide (spaceRank b.space ≤ scopeRank sc))
       let unread := before.any fun b => b.reads && !b.finished
       let zr := before.any fun b => match b.kind with | .zread => !b.done | _ => false
       (match k with
        | .rel => write && (undone || zr)
        | .acq => unread || zr
        | .ar => undone || unread || zr)
     | _ => false) || fenceHolds write (before ++ [a]) t

/-- A fence of tile scope or wider still holds back instruction fetch (R72, R150). -/
def Ctx.fetchHeld (c : Ctx) : Bool := fenceHolds false [] c.outs

/-! Registers an instruction names (R74, R109): 0 x, 1 f, 2 p. -/

/-- The registers of a transfer command. -/
def QArgs.named (q : QArgs) : List (Nat × Nat) := [(0, q.xs), (0, q.xt), (0, q.qd), (0, q.ctr), (2, q.pa), (2, q.pb)]
def MemArgs.named (m : MemArgs) : List (Nat × Nat) :=
  [(0, m.base), (0, m.index)] ++ (match m.w with
    | .f32 | .f64 => [(1, m.data)]
    | .b128 => [(0, m.data), (0, m.data + 1)]
    | _ => [(0, m.data)])
def AmoArgs.named (m : AmoArgs) : List (Nat × Nat) := [(0, m.base), (0, m.src), (0, m.data)]
def BlockArgs.named (b : BlockArgs) : List (Nat × Nat) := b.binds.flatMap fun x => [(2, x.pat), (0, x.ctr)]

/-- Every x, f or p register that an instruction reads or writes. -/
def named : Instr → List (Nat × Nat)
  | .add _ d a b | .sub _ d a b | .mul _ d a b | .mulh _ d a b | .mulhn _ d a b | .div _ d a b | .divn _ d a b | .rem _ d a b
  | .remn _ d a b | .min _ d a b | .max _ d a b | .minn _ d a b | .maxn _ d a b | .and _ d a b | .or _ d a b | .xor _ d a b
  | .andn _ d a b | .orn _ d a b | .shl _ d a b | .shr _ d a b | .sha _ d a b | .cmpeq _ d a b | .cmplt _ d a b
  | .cmpltn _ d a b | .addx _ d a b => [(0, d), (0, a), (0, b)]
  | .csel d a b c | .morton _ d a b c => [(0, d), (0, a), (0, b), (0, c)]
  | .mov d a | .clz _ d a | .ctz _ d a | .popc _ d a | .sext _ d a | .zext _ d a | .addi _ d a _ | .andi _ d a _ | .ori _ d a _
  | .xori _ d a _ | .shli _ d a _ | .shri _ d a _ | .shai _ d a _ | .lui d a _ | .bext d a _ _ | .bins d a _ _
  | .demorton _ d a _ => [(0, d), (0, a)]
  | .li d _ => [(0, d)]
  | .fadd _ _ d a b | .fsub _ _ d a b | .fmul _ _ d a b | .fdiv _ _ d a b | .fmin _ d a b | .fmax _ d a b => [(1, d), (1, a), (1, b)]
  | .ffma _ _ d a b c => [(1, d), (1, a), (1, b), (1, c)]
  | .fsqrt _ _ d a => [(1, d), (1, a)]
  | .fcmp _ _ d a b => [(0, d), (1, a), (1, b)]
  | .fcvt c _ d a => [(if c.dstX then 0 else 1, d), (if c.srcX then 0 else 1, a)]
  | .fclass _ d a | .fmovx _ d a => [(0, d), (1, a)]
  | .fmovf _ d a => [(1, d), (0, a)]
  | .bc (.rel _ a b) _ => [(0, a), (0, b)]
  | .call l _ | .loop l _ => [(0, l)]
  | .jmpx l a => [(0, l), (0, a)]
  | .ret a => [(0, a)]
  | .pset _ _ a b => [(0, a), (0, b)]
  | .rds d _ => [(0, d)]
  | .wrs _ a => [(0, a)]
  | .ldg m | .stg m | .ldl m | .stl m | .stx m | .lda m | .sta m | .lds m | .sts m | .ldh m | .sth m => MemArgs.named m
  | .amog m | .amol m | .amox m | .amos m => AmoArgs.named m
  | .cadd _ d a b | .cwait _ d a b => [(0, d), (0, a), (0, b)]
  | .cread _ d a => [(0, d), (0, a)]
  | .arrive d _ | .arrwait d _ | .gquery d _ => [(0, d)]
  | .wait d a _ => [(0, d), (0, a)]
  | .patld _ pd xs => [(2, pd), (0, xs)]
  | .patset f pd src => [(2, pd), (if f = .copy then 2 else 0, src)]
  | .patget _ pa xd => [(2, pa), (0, xd)]
  | .streamIn q | .streamOut q | .streamRec q | .streamConst q | .streamDrop q | .streamInd q | .copy q | .mcopy q | .rcopy q =>
    QArgs.named q
  | .sbarRd _ d _ | .sbarWr _ d _ | .sbarAll _ d _ | .stitch _ d _ | .qstat _ d _ _ => [(0, d)]
  | .scond _ t d c _ _ _ => [(0, t), (0, d), (0, c)]
  | .spawn a b c | .spawnn a b c _ | .cancel a b c | .scopeSet a b c | .scopeSplit a b c => [(0, a), (0, b), (0, c)]
  | .launch a b | .squery a b => [(0, a), (0, b)]
  | .exit _ a b => [(0, a), (0, b)]
  | .trap a _ => [(0, a)]
  | .prio reg v => if reg then [(0, v)] else []
  | .mtrd d _ => [(0, d)]
  | .blockMWs b | .blockMOs b | .blockE b | .blockA b | .blockS b | .blockZ b => BlockArgs.named b
  | .blockG b => BlockArgs.named b ++ (List.range 16).map fun k => (2, k)
  | .bstat d _ _ => [(0, d)]
  | _ => []

/-- A destination that an outstanding result still owes. -/
def Dst.owes (d : Dst) (r : Nat × Nat) : Bool :=
  match d with
  | .none => false
  | .x k => r == (0, k) && k != 0
  | .f k => r == (1, k)
  | .pair k => (r == (0, k) && k != 0) || r == (0, k + 1)
  | .p k => r == (2, k)

/-! Latencies (R109, R110). -/

/-- The instruction occupies the divide-and-square-root unit of its context (R110). -/
def divides : Instr → Bool
  | .div .. | .divn .. | .rem .. | .remn .. | .fdiv .. | .fsqrt .. => true
  | _ => false

/-- Cycles from issue until the result can be read (R109). -/
def latency : Instr → Nat
  | .mul .. | .mulh .. | .mulhn .. => 3
  | .div ty .. | .divn ty .. | .rem ty .. | .remn ty .. => match ty with | .x => 36 | _ => 20
  | .fadd .. | .fsub .. | .fmul .. | .ffma .. | .fmin .. | .fmax .. | .fcmp .. | .fcvt .. | .fclass .. => 4
  | .fdiv f .. | .fsqrt f .. => divLat f
  | _ => 1

/-- The branch leaves the fall-through path. -/
def State.branches (s : State) : Instr → Bool
  | .bc c _ => s.condHolds c
  | .jmp _ | .call .. | .jmpx .. | .ret _ => true
  | .loop a _ => (s.setX a (s.getX a - 1)).getX a != 0
  | _ => false

/-- What is in flight when the issuing context has issued an instruction (R109, R110). -/
def State.inFlight (s : State) (i : Instr) : State :=
  let now := (s.die (dieOf s.cur.1)).cycle
  let new : List Busy :=
    if s.branches i then [⟨now + 2, none, false, true⟩]
    else if latency i = 1 then [] else [⟨now + latency i, ((named i).head?).filter (· != (0, 0)), divides i, false⟩]
  s.modMe fun c => { c with busy := (c.busy.filter fun b => decide (now < b.due)) ++ new }

/-- An instruction in flight holds this one back: it writes a register that this one names, it holds the divider that this one needs, or it is
a taken branch (R109, R110). -/
def Busy.holds (b : Busy) (now : Nat) (i : Instr) : Bool :=
  decide (now < b.due) && (b.jump || (b.divider && divides i) || (match b.dst with | some r => (named i).contains r | none => false))

/-! The scoreboard (R160). -/

/-- A local access stalls on the ranges of copies in flight. -/
def Tile.scoreHits (tl : Tile) (space addr n : Nat) (write : Bool) : Bool :=
  tl.score.any fun r => r.space == space && decide (r.lo < addr + n) && decide (addr ≤ r.hi) && (write || r.write)

/-- A quarter of the mask is in a run that works: one whose instance is held for a trap handler does not (R137, R186, R192). -/
def Tile.running (tl : Tile) (qmask : Nat) : Bool :=
  tl.runs.any fun r => masksMeet r.qmask qmask && (match r.insts.head? with | some i => !i.held | none => false)
/-- A run holds a quarter of the mask (R186, R190, R195). -/
def Tile.owned (tl : Tile) (qmask : Nat) : Bool := tl.runs.any fun r => masksMeet r.qmask qmask && !r.insts.isEmpty


/-- What an instruction does to memory, for the fences and the scoreboard: space, address, bytes, reads, writes. -/
structure Touch where
  space : Nat
  addr : Nat
  size : Nat
  rd : Bool
  wr : Bool
  deriving DecidableEq, Repr

def State.touchLoad (s : State) (space : Nat) (m : MemArgs) : Option Touch := some ⟨space, s.memAddr m, wopBytes m.w, true, false⟩
def State.touchStore (s : State) (space : Nat) (m : MemArgs) : Option Touch := some ⟨space, s.memAddr m, wopBytes m.w, false, true⟩
def State.touchAmo (s : State) (space : Nat) (m : AmoArgs) : Option Touch := some ⟨space, s.amoAddr m, amoBytes m, true, true⟩

/-- The access of an instruction to memory, a counter or a barrier; barriers carry no bytes (space 8). -/
def State.touch (s : State) : Instr → Option Touch
  | .ldg m => s.touchLoad 0 m | .stg m => s.touchStore 0 m | .amog m => s.touchAmo 0 m
  | .ldl m => s.touchLoad 1 m | .stl m => s.touchStore 1 m | .amol m => s.touchAmo 1 m
  | .stx m => s.touchStore 2 m | .amox m => s.touchAmo 2 m
  | .lda m => s.touchLoad 3 m | .sta m => s.touchStore 3 m
  | .lds m => s.touchLoad 5 m | .sts m => s.touchStore 5 m | .amos m => s.touchAmo 5 m
  | .ldh m => s.touchLoad 4 m | .sth m => s.touchStore 4 m
  | .cadd l _ a _ => some ⟨if l then 1 else 0, s.nx a, 16, true, true⟩
  | .cwait l _ a _ => some ⟨if l then 1 else 0, s.nx a, 16, true, false⟩
  | .cread l _ a => some ⟨if l then 1 else 0, s.nx a, 16, true, false⟩
  | .arrive .. | .arrwait .. => some ⟨8, 0, 0, false, true⟩
  | .wait .. | .gquery .. => some ⟨8, 0, 0, true, false⟩
  | .patld sp _ xs => some ⟨match sp with | .g => 0 | .l => 1 | .s => 5, s.nx xs, 32, true, false⟩
  | .exit l a _ => if a = 0 then none else some ⟨if l then 1 else 0, s.nx a, 16, true, true⟩
  | _ => none

/-- The engine queue that a command enters. -/
def queueOf : Instr → Option Nat
  | .streamIn q | .streamOut q | .streamRec q | .streamConst q | .streamDrop q | .streamInd q | .copy q | .mcopy q | .rcopy q =>
    some q.queue
  | .sbarRd q _ _ | .sbarWr q _ _ | .sbarAll q _ _ | .scond q _ _ _ _ _ _ | .stitch q _ _ => some q
  | _ => none

/-- The instruction awaits a returning result and counts against the limit of 8 (R133). -/
def isCounted : Instr → Bool
  | .ldg _ | .ldl _ | .lda _ | .lds _ | .ldh _ | .gquery .. | .patld .. | .mtrd .. => true
  | .amog m | .amol m | .amox m | .amos m => m.data != 0
  | _ => false

def isBlock : Instr → Bool
  | .blockMWs _ | .blockMOs _ | .blockE _ | .blockA _ | .blockS _ | .blockZ _ | .blockG _ => true
  | _ => false

/-- An access in the sense of R280: memory, counters, barriers, command starts, block instances. -/
def State.accesses (s : State) (i : Instr) : Bool :=
  (s.touch i).isSome || (queueOf i).isSome || isBlock i || (match i with | .spawn .. | .spawnn .. | .launch .. | .exit .. => true | _ => false)

/-- An instruction at which a kill can take its task, in trap mode too (R267). -/
def isKillPoint : Instr → Bool
  | .chkc | .tret | .tretN | .cwait .. | .wait .. | .arrwait .. | .qwait _ | .bdrain _ => true
  | i => isBlock i

/-- A copy in flight writes the word, or a store of the context to it is outstanding: a fetch waits (R72, R160). -/
def State.wordHeld (s : State) (t c a : Nat) : Bool :=
  (s.tile t).scoreHits 1 a 8 false
    || (s.ctx t c).outs.any fun x => x.writes && x.space == 1 && !x.done && decide (x.addr < a + 8) && decide (a < x.addr + x.size)

/-- A kill of the task is due: its cancel is registered here (R266), or it cancelled a scope that contains its own (R268). -/
def State.condemned (s : State) (t c : Nat) : Bool := (s.tile t).covers (s.ctx t c).scope || (s.ctx t c).doom.isSome

/-- The interlocks: the instruction has not issued while one of these holds. What an acquire orders issues after its value has returned
(R280, R294). A block that resumes a continuation reads operands again behind every earlier access of its context, as R227 has it for
commands. A read of FMODE waits for the float instructions in flight, whose flags it depends on (R109, R122; DEDUCED, log 67). -/
def State.stalled (s : State) (i : Instr) : Bool :=
  let c := s.me
  let tl := s.myTile
  let tc := s.touch i
  (named i).any (fun r => c.outs.any fun a => a.dst.owes r)
    || c.busy.any (fun b => b.holds (s.die (dieOf s.cur.1)).cycle i)
    || (isCounted i && decide (8 ≤ c.counted))
    || (match i with | .ldh _ => tl.ctxs.any (fun e => e.2.outs.any fun a => match a.kind with | .load => a.space == 4 | _ => false) | _ => false)
    || (match i with
        | .stx _ | .amox _ => decide (32 ≤ tl.remoteQ.length)
        | .cancel .. | .halt _ => decide (16 ≤ tl.injq.length)
        | .rds _ n => n == 0x12 && c.fflight.any fun x => decide ((s.die (dieOf s.cur.1)).cycle < x.1)
        | _ => false)
    || (match queueOf i with | some q => decide (16 ≤ (tl.queue q).entries.length) | none => false)
    || (match tc with | some k => fenceHolds k.wr [] c.outs | none => false)
    || (s.accesses i && c.outs.any fun a => a.isAcquire && !a.finished)
    || (isKillPoint i && s.condemned s.cur.1 s.cur.2 && c.owesAtomic)
    || (match tc with | some k => (k.space == 1 || k.space == 3) && tl.scoreHits k.space k.addr k.size k.wr | none => false)
    || (match tc with | some k => k.space == 3 && tl.running (2 ^ (k.addr / 8192)) | none => false)
    || (match i with
        | .spawn .. | .spawnn .. | .launch .. => !c.performedAt 4
        | .exit _ a _ => c.awaits || (a != 0 && !c.performedAt 2)
        | .yield => c.awaits
        | .tretN => c.trap && (s.wordHeld s.cur.1 s.cur.2 c.trapPc.toNat || c.fetchHeld)
        | .blockMWs _ | .blockMOs _ | .blockE _ | .blockA _ | .blockS _ | .blockZ _ | .blockG _ =>
          (match c.cont with | some h => h.2 == c.regs.pc.toNat && !c.performedAt 4 | none => false)
        | .accrd q .. | .accclr q => tl.running q || c.outs.any (fun a => a.space == 3 && !a.isFence && !a.done)
        | _ => false)

/-! Fetch. -/

/-- The outcome of a fetch. -/
inductive Fetched where
  | fault (cause addr : Nat)
  | stall
  | bad (cause addr word : Nat)
  | instr (i : Instr)
  deriving DecidableEq, Repr

/-- The check of one word address (R15, R124). R15 gives no order for a target that is both misaligned and outside: the model tests
misalignment first (DESIGN CHOICE, log 59). -/
def Tile.wordFault (tl : Tile) (a : Nat) : Option Nat :=
  if a % 8 ≠ 0 then some 0x05 else if tileStoreSize ≤ a then some 0x04 else if tl.store.poisoned a 8 then some 0x07 else none

/-- What keeps n words at a from being read, none when all are there: the first word that faults, or that a write in flight holds. The
fetch of a word waits before its contents, poison too, are judged (R72, R160). -/
def State.wordsStop (s : State) (t c a : Nat) : Nat → Option Fetched
  | 0 => none
  | n + 1 =>
    if a % 8 = 0 ∧ a < tileStoreSize ∧ s.wordHeld t c a = true then some .stall
    else match (s.tile t).wordFault a with
      | some cause => some (.fault cause a)
      | none => s.wordsStop t c (a + 8) n

/-- The words of an instruction at a: the header says how many (R71). -/
def Tile.word (tl : Tile) (a : Nat) : Nat := tl.store.read a 8
def Tile.wordsAt (tl : Tile) (a n : Nat) : List Nat := (List.range n).map fun k => tl.word (a + 8 * k)

/-- Fetching and decoding at a context's pc. A fetch waits for a fence that orders it (R150), for a copy that writes the words (R72, R160)
and for a store of the context to them that has issued (R72). Without a fence R72 allows the old word or the new one: the model reads
what the store holds when the instruction issues, and waits for the context's own writes (DESIGN CHOICE, log 60). -/
def State.fetch (s : State) (t c : Nat) : Fetched :=
  let tl := s.tile t
  let x := s.ctx t c
  let pc := x.regs.pc.toNat
  if x.fetchHeld then .stall
  else match s.wordsStop t c pc 1 with
  | some e => e
  | none =>
    let n := 1 + extCount (tl.word pc)
    match s.wordsStop t c (pc + 8) (n - 1) with
    | some e => e
    | none => match decode (tl.wordsAt pc n) with
      | .ok i => .instr i
      | .error b => .bad b.why.cause (pc + 8 * b.word) (tl.word (pc + 8 * b.word))

/-- The context can take an issue slot (R16). -/
def Ctx.canIssue (c : Ctx) : Bool := c.task.isSome && !c.halted && c.wait.isNone && c.arriving.isNone

/-- A deferred trap is due before the next instruction: outside trap mode any, in trap mode only a faulting result of the handler's own that was
saved while the context was halted (R271, R334). -/
def Ctx.trapDue (c : Ctx) : Bool := if c.trap then c.deferred.any fun d => d.own else !c.deferred.isEmpty

/-- A kill of the task takes effect at its next instruction boundary (R266 to R268). -/
def State.killDue (s : State) (t c : Nat) : Bool :=
  let x := s.ctx t c
  x.task.isSome && !x.trap && s.condemned t c

/-- A waiting instruction that a condemned task reaches in trap mode ends the task (R267); outside trap mode the kill has come before. -/
def State.waitPoint (s k : State) : State := if s.me.trap && s.condemned s.cur.1 s.cur.2 then s.killTask s.cur.1 s.cur.2 else k

/-- The issuing context counts an issue (R124, R325). -/
def State.issued (s : State) : State := s.modMe fun c => { c with lastPc := some c.regs.pc, age := 0 }

/-- Bytes of an instruction at the pc that a waiting context holds: 8, or a block's header and extension words (R71). -/
def blockBytes (b : BlockArgs) : Nat := 8 * (2 + b.loops.length + b.binds.length)

end Sys2Proof.Machine
end

