-- ==== Sys2Proof/Machine/Budget.lean ====
section
/-! DEFINITION. The activity budget: weight classes, weights, charges and meter 15 (R196, R329 to R331, R381). -/

namespace Sys2Proof.Machine

/-- The rated weight of a class (R329). -/
def ratedWeight (cls : Nat) : Nat := ([0, 1, 1, 1, 1, 1, 0, 0, 1, 2, 2, 4]).getD cls 0

/-- The weight of a class in a partition's scheduling record; class 0 weighs 0 whatever WEIGHTS holds (R317, R329). -/
def State.weight (s : State) (p cls : Nat) : Nat :=
  if cls = 0 then 0 else match (s.part p).sched with | some r => r.weights.getD cls 0 | none => ratedWeight cls

/-- The weight class of an instruction (R329). -/
def classOf : Instr → Nat
  | .mul .. | .mulh .. | .mulhn .. | .div .. | .divn .. | .rem .. | .remn .. => 1
  | .fadd .. | .fsub .. | .fmul .. | .ffma .. | .fdiv .. | .fsqrt .. | .fmin .. | .fmax .. | .fcmp .. | .fcvt .. | .fclass ..
  | .fmovx .. | .fmovf .. => 2
  | .ldg _ | .stg _ | .amog _ | .ldl _ | .stl _ | .amol _ | .stx _ | .amox _ | .lda _ | .sta _ | .lds _ | .sts _ | .amos _ | .ldh _
  | .sth _ | .cadd .. | .cwait .. | .cread .. | .fence .. | .arrive .. | .wait .. | .arrwait .. | .gquery .. => 3
  | .patld .. | .patset .. | .patget .. | .streamIn _ | .streamOut _ | .streamRec _ | .streamConst _ | .streamDrop _ | .streamInd _
  | .sbarRd .. | .sbarWr .. | .sbarAll .. | .scond .. | .copy _ | .mcopy _ | .rcopy _ | .stitch .. | .qwait _ | .qstat .. | .spawn ..
  | .spawnn .. | .launch .. | .cancel .. | .blockMWs _ | .blockMOs _ | .blockE _ | .blockA _ | .blockS _ | .blockZ _ | .blockG _ => 4
  | _ => 0

/-- Work of a class is done on a tile: charged in the current cycle unless exempt, and metered at its rated weight (R330, R331, R381). -/
def State.work (s : State) (t cls n : Nat) (exempt : Bool) : State :=
  let p := s.partId t
  let w := if exempt then 0 else s.weight p cls * n
  let s := if w = 0 then s else s.modTile t fun tl => { tl with charges := match tl.charges with | c :: l => (c + w) :: l | [] => [w] }
  if ratedWeight cls * n = 0 then s else s.meter p 15 (ratedWeight cls * n)

/-- The issuing context's instruction is charged (R330, R331), and its result is on its way (R109). -/
def State.chargeIssue (s : State) (i : Instr) : State :=
  ((s.inFlight i).modMyTile fun tl => { tl with pledged := mdel s.cur.2 tl.pledged }).work s.cur.1 (classOf i) 1 s.me.trap

/-- A candidate of weight w fits the window that ends with the current cycle (R330). -/
def Tile.fits (tl : Tile) (w : Nat) : Bool := decide ((tl.charges.take 32).sum + w ≤ tl.budget)

end Sys2Proof.Machine
end

