-- ==== Sys2Proof/Machine/Memory.lean ====
section
/-! DEFINITION. What the memory instructions share: placing an access among the outstanding ones, when it may be performed (R280), and
performing it at its home (R133, R135, R136, R139, R142 to R144). -/

namespace Sys2Proof.Machine

/-- A fresh access of the issuing context. -/
def State.fresh (s : State) (kind : AKind) (space addr size : Nat) : Access :=
  { id := s.myTile.nextAcc, own := s.me.serial, kind := kind, space := space, addr := addr, size := size, wop := .b64, op := .add,
    data := 0, expd := 0, ord := .plain, dst := .none, pc := s.pc.toNat, tag := scLo s.me.scope, inTrap := s.me.trap, home := none,
    got := [], st := .issued }

/-- The access joins the outstanding ones. -/
def State.push (s : State) (a : Access) : State :=
  (s.modMyTile fun tl => { tl with nextAcc := tl.nextAcc + 1 }).modMe fun c => { c with outs := c.outs ++ [a] }

/-- Finished accesses leave, and fences with nothing before them. -/
def trimOuts : Bool → List Access → List Access
  | _, [] => []
  | first, a :: t =>
    match a.kind with
    | .fence .. => if first then trimOuts true t else a :: trimOuts false t
    | _ => if a.finished then trimOuts first t else a :: trimOuts false t

def Ctx.trim (c : Ctx) : Ctx := { c with outs := trimOuts true c.outs }

/-- An address is a multiple of n. -/
def aligned (addr n : Nat) : Bool := addr % n == 0

/-! Order (R280). -/

/-- The bytes of two accesses of one space overlap. -/
def Access.meets (a b : Access) : Bool :=
  a.space == b.space && decide (a.addr < b.addr + b.size) && decide (b.addr < a.addr + a.size)

/-- The access is a release (R132, R280): an annotated one that writes, or a counter add. -/
def Access.isRelease (a : Access) : Bool := (a.writes && isRel a.ord) || (match a.kind with | .cadd => true | _ => false)
/-- The scope of its release: partition for a .g counter, tile for a .l one, else that of its space. -/
def Access.relRank (a : Access) : Nat := match a.kind with | .cadd => spaceRank a.space | _ => ordRank a.space
/-- B waits for the earlier A: same location, A an acquire, B a release over A's footprint, both sc at one scope, or A a host store and B
a host access (R138). -/
def Access.orders (a b : Access) : Bool :=
  !a.done && !a.isFence &&
    (a.meets b || a.isAcquire || (b.isRelease && decide (spaceRank a.space ≤ b.relRank))
      || (a.ord == .sc && b.ord == .sc && ordRank a.space == ordRank b.space) || (a.writes && a.space == 4 && b.space == 4))

/-- No earlier access of the context still orders this one (R133, R138, R280): its accesses keep their program order across tasks. -/
def Ctx.mayPerform (c : Ctx) (b : Access) : Bool := (c.outs.takeWhile fun a => a.id != b.id).all fun a => !a.orders b

/-- A read that an instruction makes at once: no earlier access orders it. -/
def Ctx.mayRead (c : Ctx) (space addr n : Nat) : Bool :=
  c.outs.all fun a => a.done || a.isFence ||
    !(a.isAcquire || (a.space == space && decide (a.addr < addr + n) && decide (addr < a.addr + a.size)))

/-! Performing at the home. -/


/-- The intervals of a cancel stay until the launch that owns its scope ends (R260, R263). -/
def State.intervalStays (s : State) (c : Cancel) : Bool := match c.lid with | some l => (s.launch l).st != .ended | none => false

/-- A cancel registered on a die covers a tag of a partition: at the tiles, or at the edge (R144, R340). -/
def State.dieCovers (s : State) (die p tag : Nat) : Bool :=
  (s.part p).tiles.any (fun t => dieOf t == die && (s.tile t).coversTag tag)
    || s.cancels.any fun c => c.2.part == p && c.2.edges.contains die && s.intervalStays c.2 && covTag c.2.scope tag

/-- A dropped posted atomic is counted on its die, in the cancel that was first registered there (R39, R144, R265). -/
def State.countDrop (s : State) (die p tag : Nat) : State :=
  match (s.die die).cancelNos.find? fun no => match mfind no s.cancels with | some c => c.part == p && s.intervalStays c && covTag c.scope tag | none => false with
  | some no => { s with cancels := s.cancels.map fun x => if x.1 = no then (no, x.2.addSum die [0, 0, 0, 1]) else x }
  | none => s

/-- A partition's contiguous range of the 256 sets of an edge's translation cache, by its first set and its size: it follows those of the lower
partitions with slots on the die, and one without slots there comes behind all of these and has what is left (DESIGN CHOICE, log 61: R303 gives
the range, not its place). -/
def State.cacheRange (s : State) (die p : Nat) : Nat × Nat :=
  let mine := (s.part p).dies.contains die
  let before := s.parts.filter fun e => e.2.valid &&
    (let there := e.2.dies.contains die
     if mine then there && decide (e.1 < p) else there || decide (e.1 < p))
  let first := (before.map fun e => e.2.tsets).sum
  (first, min (s.part p).tsets (256 - first))

/-- The set that takes a page of a partition: pages are spread over its range by their number (DESIGN CHOICE, log 61: R303 gives no index). -/
def State.cacheSet (s : State) (die p va : Nat) : Nat := (s.cacheRange die p).1 + va / 2 ^ 16 % (s.cacheRange die p).2

/-- The edge's translation cache takes the entry of an access that had to be walked, whatever it grants (R302, R303): its set drops the oldest of
the partition's 16 entries (log 61). -/
def State.fillCache (s : State) (die p va : Nat) (rd wr : Bool) : State :=
  if (s.cacheRange die p).2 == 0 || (match s.cached die p va with | some e => e.grants rd wr | none => false) then s
  else match s.walk p va with
  | none => s
  | some e => s.modDie die fun d =>
      let k := s.cacheSet die p e.va
      let rest := d.cache.filter fun x => !(x.part == p && x.va == e.va && x.psz == e.psz)
      let mine := rest.filter fun x => x.set == k && x.part == p
      let cut := if 16 ≤ mine.length then rest.filter fun x => !(some x == mine.head?) else rest
      { d with cache := cut ++ [⟨k, p, e.va, e.psz, e.frame, e.rd, e.wr⟩] }

/-- A fault of an agent's element, when it is one of translation, has been walked: a die's cache holds what denies it (R302). -/
def State.denied (s : State) (die p cause va : Nat) : State := if cause = 0x06 then s.fillCache die p va true true else s

/-- A translation fault of the issuing context: the walk has filled the cache all the same (R302). -/
def State.missed (s : State) (cause va : Nat) (rd wr : Bool) : State :=
  if cause = 0x06 then s.fillCache (dieOf s.cur.1) s.myPart va rd wr else s

/-- The trap of a check at issue: an entry that denies it has entered the edge's cache before (R302). -/
def State.trapOn (s : State) (f : Nat × Nat × Nat) : State := (s.missed f.1 f.2.1 true true).trapNow f.1 f.2.1 f.2.2

/-- The outcome of performing: the state after, and the access's new status. -/
abbrev Performed := State × ASt

/-- A plain read at the home: a fault of R136, poison of R139, or the value. -/
def State.readAt (s : State) (t : Nat) (a : Access) (addr n : Nat) (wr : Bool) : Except ASt (Home × Nat) :=
  match (match a.home with | some h => Except.ok (h.plus (addr - a.addr)) | none => s.resolve t a.space addr n true wr) with
  | .error e => .error (.faulted e.1 addr e.2)
  | .ok h => if s.poisonHome h n then .error (.faulted 0x07 addr 0) else .ok (h, s.readHome h n)

/-- A load (R135). -/
def State.doLoad (s : State) (t p : Nat) (a : Access) : Performed :=
  match s.readAt t a a.addr a.size false with
  | .error e => (s, e)
  | .ok (h, v) => (s.meterDev p h a.size false, .performed v)

/-- A store at its home (R135, R139); host bytes are metered (R381). -/
def State.doStore (s : State) (p : Nat) (h : Home) (n v : Nat) : State :=
  let s := (s.writeHome h n v).meterDev p h n true
  match h with | .host .. => s.meter p 9 n | _ => s

/-- An atomic (R142). -/
def State.doAmo (s : State) (t p : Nat) (a : Access) : Performed :=
  match s.readAt t a a.addr a.size true with
  | .error e => (s, e)
  | .ok (h, old) =>
    let new := amoNew a.op a.size old a.data a.expd
    let s := s.meterDev p h a.size false
    (if new != old || a.op != .cas then s.doStore p h a.size new else s, .performed old)

/-- CADD (R146): VALUE grows, the status bits stay. -/
def State.doCadd (s : State) (t p : Nat) (a : Access) : Performed :=
  match s.readAt t a a.addr 16 true with
  | .error e => (s, e)
  | .ok (h, r) => ((s.meterDev p h 16 false).writeHome h 8 ((bits r 63 0 + a.data) % 2 ^ 64) |>.meterDev p h 16 true, .performed (bits r 63 0))

/-- GQUERY's snapshot (R155). -/
def Group.snapshot (g : Group) : Nat := g.narr * 2 ^ 45 + b2n g.cxl * 2 ^ 44 + g.arrived * 2 ^ 32 + g.phase

/-- A posted atomic of a cancelled scope is dropped (R144); AMOL is never posted (R143). -/
def State.dropsPosted (s : State) (p : Nat) (a : Access) : Bool :=
  match a.kind, a.dst, a.home with
  | .amo, .none, some h => a.space != 1 && s.dieCovers (s.dieAt h) p a.tag
  | _, _, _ => false

/-- The 8-byte part of a wider access that is performed now: a free choice among those left (R131, R232; log 6). -/
def Access.partNow (a : Access) (free : Nat) : Nat :=
  let left := (List.range a.parts).filter fun k => (mfind k a.got).isNone
  left.getD (Config.partFirst free % left.length) 0

/-- The value of an access whose parts have all been read. -/
def Access.whole (a : Access) : Option Nat :=
  if (List.range a.parts).all fun k => (mfind k a.got).isSome
  then some ((List.range a.parts).map fun k => mget 0 a.got k * 2 ^ (64 * k)).sum else none

/-- One 8-byte part of a .b128 load or a PATLD (R131, R232). The access keeps the home it was translated to (R309). -/
def State.loadPart (s : State) (t p : Nat) (a : Access) : State × Access :=
  let k := a.partNow s.free
  match s.readAt t a (a.addr + 8 * k) 8 false with
  | .error e => (s, { a with st := e })
  | .ok (h, v) =>
    let a' := { a with got := mput a.got k v, home := a.home <|> some (h.minus (8 * k)) }
    ({ s.meterDev p h 8 false with free := s.free + 1 }, match a'.whole with | some v => { a' with st := .performed v } | none => a')

/-- One half of a .b128 store; after both, a unit that was written in full carries no poison (R131, R139). -/
def State.storePart (s : State) (p : Nat) (h : Home) (a : Access) : State × Access :=
  let k := a.partNow s.free
  let half := s.doStore p (h.plus (8 * k)) 8 (bits a.data (64 * k + 63) (64 * k))
  let a' := { a with got := mput a.got k 0 }
  if a'.whole.isSome then (half.writeHome h 16 (half.readHome h 16), { a' with st := .performed 0 })
  else ({ half with free := s.free + 1 }, a')

/-- An access is performed at its home: a .b128 and a PATLD in 8-byte parts, one per call (R131, R232). MTRD is answered by a fold (R276,
R381). -/
def State.performAt (s : State) (t : Nat) (a : Access) : State × Access :=
  let p := s.partId t
  let fin := fun (r : Performed) => (r.1, { a with st := r.2 })
  match a.kind with
  | .load =>
    if a.wop == .b128 then s.loadPart t p a
    else fin (s.doLoad t p a)
  | .patld => s.loadPart t p a
  | .store =>
    match a.home with
    | none => (s, { a with st := .performed 0 })
    | some h =>
      if a.wop == .b128 then s.storePart p h a
      else (s.doStore p h a.size a.data, { a with st := .performed 0 })
  | .amo => if s.dropsPosted p a then (s.countDrop ((a.home.map s.dieAt).getD 0) p a.tag, { a with st := .performed 0 }) else fin (s.doAmo t p a)
  | .cadd => fin (s.doCadd t p a)
  | .cread => fin (match s.readAt t a a.addr 16 false with | .error e => (s, e) | .ok (h, v) => (s.meterDev p h 16 false, .performed (bits v 63 0)))
  | .gquery => fin (s, .performed (s.group ((s.tile t).lid.getD 0) a.addr).snapshot)
  | .mtrd | .zread | .fence .. => (s, a)

/-- An outstanding access is replaced by its new form. -/
def Ctx.setAccess (c : Ctx) (a : Access) : Ctx := { c with outs := replaceFirst (fun b => b.id == a.id) (fun _ => a) c.outs }

end Sys2Proof.Machine
end

