-- ==== Sys2Proof/Machine/LoadStore.lean ====
section
/-! DEFINITION. Loads and stores of majors 0x50, 0x51, 0x53, 0x54, 0x56, 0x58 to 0x5B, 0x5D, 0x5E (R129 to R141). -/

namespace Sys2Proof.Machine

/-- A load issues: alignment and range are judged first, precisely; its result returns later (R135, R136). -/
def State.load (s : State) (space : Nat) (m : MemArgs) : State :=
  let addr := s.memAddr m
  let n := wopBytes m.w
  if !aligned addr n then s.trapNow 0x05 addr 0
  else if !s.rangeOk s.cur.1 space addr n then s.trapNow 0x04 addr 0
  else (s.push { s.fresh .load space addr n with wop := m.w, ord := m.ord, dst := memDst m }).advance

/-- A store issues after every check of R136; its write is performed later (R135). -/
def State.store (s : State) (space : Nat) (m : MemArgs) : State :=
  let addr := s.memAddr m
  let n := wopBytes m.w
  if !aligned addr n then s.trapNow 0x05 addr 0
  else match s.resolve s.cur.1 space addr n false true with
    | .error e => (s.missed e.1 addr false true).trapNow e.1 addr e.2
    | .ok h => (s.push { s.fresh .store space addr n with wop := m.w, ord := m.ord, data := s.storeData m, home := some h }).advance

/-- A flit from tile t to tile u, with the check value of its payload (R93, R95). -/
def State.flit (s : State) (t u kind cls payload : Nat) : Flit :=
  { dtile := labelOf u, ddie := dieOf u, cls := cls, kind := kind, age := 0, seq := 0, part := s.partId t, zero := false, payload := payload,
    chk := crc16 payload, edge := false, sdie := dieOf t, stile := t, hdr := 0 }

/-- A flit from the issuing tile to another tile of its die (R93). -/
def State.flitTo (s : State) (dst kind payload : Nat) : Flit := s.flit s.cur.1 dst kind 0 payload

/-- The class-0 payload of a remote store (R355). -/
def storePayload (width : Nat) (rel : Bool) (off src ctx data : Nat) : Nat :=
  width * 2 ^ 122 + b2n rel * 2 ^ 121 + off * 2 ^ 99 + src * 2 ^ 92 + ctx * 2 ^ 89 + data

/-- The flits of a remote store: two of width 3 for .b128, the lower half first. -/
def State.storeFlits (s : State) (dst off n : Nat) (rel : Bool) (data : Nat) : List Flit :=
  let f := fun (w o v : Nat) => s.flitTo dst 3 (storePayload w rel o (labelOf s.cur.1) s.cur.2 v)
  if n = 16 then [f 3 off (data % 2 ^ 64), f 3 (off + 8) (data / 2 ^ 64)] else [f (Nat.log2 n) off data]

/-- The remote queue takes the flits of an access (R355). -/
def State.enqueueRemote (s : State) (dst : Nat) (rel : Bool) (flits : List Flit) (acc : Nat) : State :=
  s.modMyTile fun tl => { tl with remoteQ := tl.remoteQ ++ [⟨s.cur.2, acc, dst, rel, flits, none⟩] }

/-- A remote store (R140): checked, posted to the remote queue, outstanding until its acknowledgement. -/
def State.storeRemote (s : State) (m : MemArgs) : State :=
  let addr := s.memAddr m
  let n := wopBytes m.w
  if !aligned addr n then s.trapNow 0x05 addr 0
  else match s.resolve s.cur.1 2 addr n false true with
    | .error e => s.trapNow e.1 addr e.2
    | .ok (.tile dst off) =>
      let a := { s.fresh .store 2 addr n with wop := m.w, ord := m.ord, data := s.storeData m, home := some (.tile dst off) }
      ((s.push a).enqueueRemote dst (isRel m.ord) (s.storeFlits dst off n (isRel m.ord) (s.storeData m)) a.id).advance
    | .ok _ => s.trapNow 0x04 addr 0

def execLdg (m : MemArgs) (s : State) : Out := .next (s.load 0 m)
def execStg (m : MemArgs) (s : State) : Out := .next (s.store 0 m)
def execLdl (m : MemArgs) (s : State) : Out := .next (s.load 1 m)
def execStl (m : MemArgs) (s : State) : Out := .next (s.store 1 m)
def execStx (m : MemArgs) (s : State) : Out := .next (s.storeRemote m)
def execLda (m : MemArgs) (s : State) : Out := .next (s.load 3 m)
def execSta (m : MemArgs) (s : State) : Out := .next (s.store 3 m)
def execLds (m : MemArgs) (s : State) : Out := .next (s.load 5 m)
def execSts (m : MemArgs) (s : State) : Out := .next (s.store 5 m)
def execLdh (m : MemArgs) (s : State) : Out := .next (s.load 4 m)
def execSth (m : MemArgs) (s : State) : Out := .next (s.store 4 m)

end Sys2Proof.Machine
end

