-- ==== Sys2Proof/Machine/Atomic.lean ====
section
/-! DEFINITION. Atomics of majors 0x52, 0x55, 0x57, 0x5C (R142 to R144). -/

namespace Sys2Proof.Machine

/-- The access of an atomic (R142): operand and expected value in its width. -/
def State.amoAccess (s : State) (space : Nat) (m : AmoArgs) : Access :=
  { s.fresh .amo space (s.amoAddr m) (amoBytes m) with
    op := m.op, data := zext (s.nx m.src) (8 * amoBytes m), expd := zext (s.nx m.data) (8 * amoBytes m), ord := m.ord,
    dst := if m.data = 0 then .none else .x m.data }

/-- An atomic issues. With a return its translation and poison faults come with the result (R136); a posted one is checked before it
issues, like a store, poison included (R139, R143). -/
def State.atomic (s : State) (space : Nat) (m : AmoArgs) : State :=
  let addr := s.amoAddr m
  let n := amoBytes m
  if !aligned addr n then s.trapNow 0x05 addr 0
  else if !s.rangeOk s.cur.1 space addr n then s.trapNow 0x04 addr 0
  else if m.data ≠ 0 then (s.push (s.amoAccess space m)).advance
  else match s.resolve s.cur.1 space addr n true true with
    | .error e => (s.missed e.1 addr true true).trapNow e.1 addr e.2
    | .ok h => if s.poisonHome h n then s.trapNow 0x07 addr 0
      else (s.push { s.amoAccess space m with home := some h }).advance

/-- The class-1 payload of a remote atomic (R355). -/
def amoPayload (op : Nat) (wide : Bool) (ord off src ctx : Nat) (ret : Bool) (part tag data : Nat) : Nat :=
  2 ^ 124 + op * 2 ^ 120 + b2n wide * 2 ^ 119 + ord * 2 ^ 116 + off * 2 ^ 94 + src * 2 ^ 87 + ctx * 2 ^ 84 + b2n ret * 2 ^ 83
    + part * 2 ^ 81 + tag * 2 ^ 65 + data

/-- The flits of a remote atomic: a cas sends its expected and its new value. -/
def State.amoFlits (s : State) (dst off : Nat) (m : AmoArgs) (a : Access) : List Flit :=
  let f := fun (part v : Nat) => s.flitTo dst 3
    (amoPayload m.op.code m.wide m.ord.code off (labelOf s.cur.1) s.cur.2 (m.data != 0) part a.tag v)
  if m.op == .cas then [f 1 a.expd, f 2 a.data] else [f 0 a.data]

/-- AMOX (R143): through the remote queue to the destination tile. Its range is judged at issue; poison at the destination drops a posted
one and comes back with the result of the other (R139, R355). -/
def State.atomicRemote (s : State) (m : AmoArgs) : State :=
  let addr := s.amoAddr m
  let n := amoBytes m
  if !aligned addr n then s.trapNow 0x05 addr 0
  else match s.resolve s.cur.1 2 addr n true true with
    | .error e => s.trapNow e.1 addr e.2
    | .ok (.tile dst off) =>
      if m.data = 0 && s.poisonHome (.tile dst off) n then s.trapNow 0x07 addr 0
      else
        let a := { s.amoAccess 2 m with home := some (.tile dst off) }
        ((s.push a).enqueueRemote dst (isRel m.ord) (s.amoFlits dst off m a) a.id).advance
    | .ok _ => s.trapNow 0x04 addr 0

def execAmog (m : AmoArgs) (s : State) : Out := .next (s.atomic 0 m)
def execAmol (m : AmoArgs) (s : State) : Out := .next (s.atomic 1 m)
def execAmox (m : AmoArgs) (s : State) : Out := .next (s.atomicRemote m)
def execAmos (m : AmoArgs) (s : State) : Out := .next (s.atomic 5 m)

end Sys2Proof.Machine
end

