-- ==== Sys2Proof/Machine/Barrier.lean ====
section
/-! DEFINITION. Group barriers of major 0x62 (R152 to R158). -/

namespace Sys2Proof.Machine

/-- The slot of GRP that names group g (R19). -/
def Tile.slotOfGroup (tl : Tile) (g : Nat) : Option Nat :=
  (List.range 4).find? fun k => bit tl.grp (32 + k) && bits tl.grp (8 * k + 7) (8 * k) == g

/-- The latch of a slot: P_t and X_t (R153). -/
def Tile.latchOf (tl : Tile) (k : Nat) : Nat × Bool := mget (0, false) tl.latch k

/-- The checks of R154: the entry is valid, the tile is a member; the slot, or the cause. -/
def State.barrierSlot (s : State) (t g : Nat) : Except Nat Nat :=
  match (s.tile t).lid with
  | none => .error 0x04
  | some l =>
    if (mfind g (s.launch l).groups).isNone then .error 0x04
    else match (s.tile t).slotOfGroup g with
      | none => .error 0x0A
      | some k => .ok k

/-- ARRIVE sends an arrival with tag P_t; the context issues nothing until the home answers (R154). -/
def State.arrive (s : State) (d g : Nat) (thenWait : Bool) : State :=
  match s.barrierSlot s.cur.1 g with
  | .error cause => s.trapNow cause g 0
  | .ok k =>
    let tag := (s.myTile.latchOf k).1
    let s := s.modMe fun c => { c with arriving := some ⟨d, g, tag, thenWait, none⟩ }
    { s with arrivals := s.arrivals ++ [⟨s.myLid, g, tag, s.cur.1, s.cur.2, s.me.serial⟩] }

def execArrive (d g : Nat) (s : State) : Out := .next (s.arrive d g false)
def execArrwait (d g : Nat) (s : State) : Out := .next (s.waitPoint (s.arrive d g true))

/-- The group's entry is exhausted, as a wait that begins now finds it (R156). -/
def State.groupSpent (s : State) (t g : Nat) : Bool := (s.group ((s.tile t).lid.getD 0) g).exhausted

/-- Phase p has completed as the latch shows it (R154); a wait that began when the group was exhausted ends at once (R156). The status of R155. -/
def State.barrierDone (s : State) (t g p : Nat) (spent : Bool) : Option Nat :=
  match s.barrierSlot t g with
  | .error _ => none
  | .ok k =>
    let l := (s.tile t).latchOf k
    let gap := (l.1 + 2 ^ 32 - p % 2 ^ 32) % 2 ^ 32
    if spent then some (l.1 * 2 ^ 32 + 1)
    else if 1 ≤ gap && gap < 2 ^ 31 then some (l.1 * 2 ^ 32 + b2n (decide (1 < gap)) * 2 + b2n (gap == 1 && l.2)) else none

/-- WAIT (R154). -/
def execWait (d a g : Nat) (s : State) : Out :=
  .next (s.waitPoint (match s.barrierSlot s.cur.1 g with
  | .error cause => s.trapNow cause g 0
  | .ok _ =>
    let p := zext (s.nx a) 32
    let spent := s.groupSpent s.cur.1 g
    match (if s.me.mayRead 8 0 0 then s.barrierDone s.cur.1 g p spent else none) with
    | some st => (s.setX d (BitVec.ofNat 64 st)).advance
    | none => s.modMe fun c => { c with wait := some (.barrier d g p spent) }))

/-- GQUERY: the snapshot returns as a load's result does (R154, R155). -/
def execGquery (d g : Nat) (s : State) : Out :=
  match s.barrierSlot s.cur.1 g with
  | .error cause => .next (s.trapNow cause g 0)
  | .ok _ => .next ((s.push { s.fresh .gquery 8 g 0 with dst := .x d }).advance)

end Sys2Proof.Machine
end

