-- ==== Sys2Proof/Machine/Integer.lean ====
section
/-! DEFINITION. Integer register operations of majors 0x10 and 0x11 (R112, R113). -/

namespace Sys2Proof.Machine

/-- The unsigned source of a typed instruction (R113). -/
def State.ux (s : State) (ty : IntTy) (r : Nat) : Nat := zext (s.nx r) (tyWidth ty)
/-- The signed source. -/
def State.sx (s : State) (ty : IntTy) (r : Nat) : Int := sext (s.nx r) (tyWidth ty)

/-- The result is written and the pc moves past the word (R113). -/
def State.putInt (s : State) (ty : IntTy) (d : Nat) (v : Int) : State := (s.setX d (tyResult ty v)).advance

/-- div of R113: toward zero, -1 by a zero divisor. -/
def divVal (sa sb : Int) : Int :=
  if sb = 0 then -1
  else
    let v : Int := (sa.natAbs / sb.natAbs : Nat)
    if decide (sa < 0) != decide (sb < 0) then -v else v

/-- rem of R113: the sign of the dividend, the dividend by a zero divisor. -/
def remVal (sa sb : Int) : Int := if sb = 0 then sa else sa - sb * divVal sa sb

/-- divn and remn of R113. -/
def divnVal (ua ub : Nat) : Int := if ub = 0 then -1 else (ua / ub : Nat)
def remnVal (ua ub : Nat) : Int := if ub = 0 then ua else (ua % ub : Nat)

def execAdd (ty : IntTy) (d a b : Nat) (s : State) : Out := .next (s.putInt ty d (((s.ux ty a + s.ux ty b : Nat) : Int)))
def execSub (ty : IntTy) (d a b : Nat) (s : State) : Out := .next (s.putInt ty d ((s.ux ty a : Int) - s.ux ty b))
def execMul (ty : IntTy) (d a b : Nat) (s : State) : Out := .next (s.putInt ty d (s.sx ty a * s.sx ty b))
def execMulh (ty : IntTy) (d a b : Nat) (s : State) : Out := .next (s.putInt ty d (s.sx ty a * s.sx ty b / 2 ^ tyWidth ty))
def execMulhn (ty : IntTy) (d a b : Nat) (s : State) : Out := .next (s.putInt ty d ((s.ux ty a * s.ux ty b / 2 ^ tyWidth ty : Nat)))
def execDiv (ty : IntTy) (d a b : Nat) (s : State) : Out := .next (s.putInt ty d (divVal (s.sx ty a) (s.sx ty b)))
def execDivn (ty : IntTy) (d a b : Nat) (s : State) : Out := .next (s.putInt ty d (divnVal (s.ux ty a) (s.ux ty b)))
def execRem (ty : IntTy) (d a b : Nat) (s : State) : Out := .next (s.putInt ty d (remVal (s.sx ty a) (s.sx ty b)))
def execRemn (ty : IntTy) (d a b : Nat) (s : State) : Out := .next (s.putInt ty d (remnVal (s.ux ty a) (s.ux ty b)))
def execMin (ty : IntTy) (d a b : Nat) (s : State) : Out := .next (s.putInt ty d (if s.sx ty a ≤ s.sx ty b then s.sx ty a else s.sx ty b))
def execMax (ty : IntTy) (d a b : Nat) (s : State) : Out := .next (s.putInt ty d (if s.sx ty a ≤ s.sx ty b then s.sx ty b else s.sx ty a))
def execMinn (ty : IntTy) (d a b : Nat) (s : State) : Out := .next (s.putInt ty d (((if s.ux ty a ≤ s.ux ty b then s.ux ty a else s.ux ty b : Nat) : Int)))
def execMaxn (ty : IntTy) (d a b : Nat) (s : State) : Out := .next (s.putInt ty d (((if s.ux ty a ≤ s.ux ty b then s.ux ty b else s.ux ty a : Nat) : Int)))
def execAnd (ty : IntTy) (d a b : Nat) (s : State) : Out := .next (s.putInt ty d ((s.ux ty a &&& s.ux ty b : Nat)))
def execOr (ty : IntTy) (d a b : Nat) (s : State) : Out := .next (s.putInt ty d ((s.ux ty a ||| s.ux ty b : Nat)))
def execXor (ty : IntTy) (d a b : Nat) (s : State) : Out := .next (s.putInt ty d ((s.ux ty a ^^^ s.ux ty b : Nat)))
def execAndn (ty : IntTy) (d a b : Nat) (s : State) : Out := .next (s.putInt ty d ((s.ux ty a &&& (2 ^ tyWidth ty - 1 - s.ux ty b) : Nat)))
def execOrn (ty : IntTy) (d a b : Nat) (s : State) : Out := .next (s.putInt ty d ((s.ux ty a ||| (2 ^ tyWidth ty - 1 - s.ux ty b) : Nat)))
def execShl (ty : IntTy) (d a b : Nat) (s : State) : Out := .next (s.putInt ty d ((s.ux ty a * 2 ^ (s.ux ty b % tyWidth ty) : Nat)))
def execShr (ty : IntTy) (d a b : Nat) (s : State) : Out := .next (s.putInt ty d ((s.ux ty a / 2 ^ (s.ux ty b % tyWidth ty) : Nat)))
def execSha (ty : IntTy) (d a b : Nat) (s : State) : Out := .next (s.putInt ty d (s.sx ty a / 2 ^ (s.ux ty b % tyWidth ty)))
def execCmpeq (ty : IntTy) (d a b : Nat) (s : State) : Out := .next (s.putInt ty d ((b2n (s.ux ty a == s.ux ty b) : Nat)))
def execCmplt (ty : IntTy) (d a b : Nat) (s : State) : Out := .next (s.putInt ty d ((b2n (decide (s.sx ty a < s.sx ty b)) : Nat)))
def execCmpltn (ty : IntTy) (d a b : Nat) (s : State) : Out := .next (s.putInt ty d ((b2n (decide (s.ux ty a < s.ux ty b)) : Nat)))

/-- CSEL selects by x[c] (R113). -/
def execCsel (d a b c : Nat) (s : State) : Out := .next ((s.setX d (if s.getX c ≠ 0 then s.getX a else s.getX b)).advance)
def execMov (d a : Nat) (s : State) : Out := .next ((s.setX d (s.getX a)).advance)

end Sys2Proof.Machine
end

