-- ==== Sys2Proof/Machine/BitOps.lean ====
section
/-! DEFINITION. Bit and address operations of major 0x12 (R114). -/

namespace Sys2Proof.Machine

/-- clz of R114 in a width. -/
def clzVal (w ua : Nat) : Nat := if ua = 0 then w else w - 1 - Nat.log2 ua
/-- ctz of R114 in a width. -/
def ctzVal (w ua : Nat) : Nat := if ua = 0 then w else ((List.range w).find? (bit ua)).getD 0
/-- popc of R114. -/
def popcVal (w ua : Nat) : Nat := ((List.range w).filter (bit ua)).length

/-- The source width of SEXT and ZEXT (R75). -/
def extWidth (w : ExtW) : Nat := match w with | .b8 => 8 | .b16 => 16 | .b32 => 32

def execClz (ty : IntTy) (d a : Nat) (s : State) : Out := .next (s.putInt ty d (clzVal (tyWidth ty) (s.ux ty a) : Nat))
def execCtz (ty : IntTy) (d a : Nat) (s : State) : Out := .next (s.putInt ty d (ctzVal (tyWidth ty) (s.ux ty a) : Nat))
def execPopc (ty : IntTy) (d a : Nat) (s : State) : Out := .next (s.putInt ty d (popcVal (tyWidth ty) (s.ux ty a) : Nat))
def execSext (w : ExtW) (d a : Nat) (s : State) : Out := .next (s.putInt .x d (sext (s.nx a) (extWidth w)))
def execZext (w : ExtW) (d a : Nat) (s : State) : Out := .next (s.putInt .x d (zext (s.nx a) (extWidth w) : Nat))
def execAddx (shift d a b : Nat) (s : State) : Out := .next (s.putInt .x d (s.nx a + s.nx b * 2 ^ shift : Nat))

/-- MORTON interleaves 32 bits of two sources or 21 bits of three (R114). -/
def execMorton (three : Bool) (d a b c : Nat) (s : State) : Out :=
  .next (s.putInt .x d ((if three then interleave 3 [s.nx a, s.nx b, s.nx c] 21 else interleave 2 [s.nx a, s.nx b] 32 : Nat) : Int))

end Sys2Proof.Machine
end

