-- ==== Sys2Proof/Machine/Spine.lean ====
section
/-! DEFINITION. The spine: group sums (R64 to R66, R68, R69), accumulator nodes and their formats (R29, R54 to R56, R67, R194), release
(R61, R62, R173), sparse groups (R51, R52), element-wise results (R175). -/

namespace Sys2Proof.Machine

/-! Group sums. -/

/-- A term cut to a multiple of 2^q toward zero, as a count of units, and whether it lost bits (R65). -/
def cutTerm (q : Int) (neg : Bool) (m : Nat) (e : Int) : Int × Bool :=
  if q ≤ e then ((if neg then -(m * 2 ^ (e - q).toNat : Nat) else (m * 2 ^ (e - q).toNat : Nat)), false)
  else
    let sh := (q - e).toNat
    let k := m / 2 ^ sh
    ((if neg then -(k : Int) else k), m % 2 ^ sh != 0)

/-- The group sum under a window of w bits, and whether a term lost bits (R65, R66). -/
def groupSum (w : Nat) (ts : List Num) : Num × Bool :=
  if ts.any Num.isNan || (ts.any (fun t => t == .inf false) && ts.any fun t => t == .inf true) then (.nan false, false)
  else match ts.find? Num.isInf with
    | some t => (t, false)
    | none => match maxLog ts with
      | none => (.zero false, false)
      | some big =>
        let q := big - (w : Int) + 1
        let cut := ts.map fun t => match t with | .fin n m e => cutTerm q n m e | _ => (0, false)
        let g : Int := (cut.map fun c => c.1).foldl (· + ·) 0
        (.fin (decide (g < 0)) g.natAbs q, cut.any fun c => c.2)

/-- The exact integer value of a term of integer kinds. -/
def Num.toInt : Num → Int
  | .fin n m e => if n then -(m * 2 ^ e.toNat : Nat) else (m * 2 ^ e.toNat : Nat)
  | _ => 0

/-- An integer group sum (R68). -/
def intSum (ts : List Num) : Int := (ts.map Num.toInt).foldl (· + ·) 0

/-- The exact term of an FP4-B8 block (R69). -/
def b8Term (a b : Nat) : Num :=
  let s := ((decodeB8 a).zip (decodeB8 b)).foldl (fun t p => (addNum t (mulNum p.1 p.2).1 false).1) (.zero false)
  (mulNum (mulNum s (scaleB8 a)).1 (scaleB8 b)).1

/-! Accumulator nodes. -/

/-- A node's raw value as a number in accumulation mode `mode`: 0 ACC32, 1 SX80, 2 and 3 I32. -/
def nodeNum (mode v : Nat) : Num :=
  match mode with
  | 0 => decodeNum 0x0D (v % 2 ^ 32)
  | 1 => decodeSx (v % 2 ^ 80)
  | _ => .ofInt (sext v 32)

/-- An integer as an I32 node takes it (R56). -/
def fitI32 (mode : Nat) (v : Int) : Nat := wrap (if mode = 3 then sat v (-(2 ^ 31 : Nat)) ((2 ^ 31 : Nat) - 1) else v) 32

/-- A value rounded into a node under rne (R57, R173). DEDUCED (log 64): into I32 by R60, whose saturation leaves the wrap of mode 2 nothing to
do. -/
def nodeOf (mode : Nat) (x : Num) : Nat :=
  match mode with
  | 0 => (roundNum 0x0D .rne false x).1
  | 1 => roundSx x
  | _ => (roundToInt true 32 .rne x).1

/-- A node after one group (R56, R65, R66): its value and whether the group lost bits. -/
def addGroup (ints : Bool) (mode w v : Nat) (ts : List Num) : Nat × Bool :=
  if ints then (fitI32 mode ((nodeNum mode v).toInt + intSum ts), false)
  else
    let g := groupSum w ts
    (nodeOf mode (addNum (nodeNum mode v) g.1 false).1, g.2)

/-- The format of a quarter's nodes. -/
def Tile.nodeFmt (tl : Tile) (q : Nat) : Nat := mget 0 tl.accFmt q
/-- Node n of quarter q: value and lost-significance flag (R29). -/
def Tile.node (tl : Tile) (q n : Nat) : Nat × Bool :=
  let v := ofBytes (readBytes tl.acc (q * 8192 + n * 16) 16)
  (v % 2 ^ 127, bit v 127)
def Tile.setNode (tl : Tile) (q n v : Nat) (lost : Bool) : Tile :=
  { tl with acc := writeBytes tl.acc (q * 8192 + n * 16) (toBytes (v % 2 ^ 127 + b2n lost * 2 ^ 127) 16)
            accPoison := tl.accPoison.filter (· != q * 512 + n) }

/-- The format of a quarter's nodes changes: each value is converted and keeps its flag (R194). -/
def Tile.setNodeFmt (tl : Tile) (q mode : Nat) : Tile :=
  let old := tl.nodeFmt q
  if old = mode then tl
  else
    let tl' := if decide (2 ≤ old) && decide (2 ≤ mode) then tl
      else (List.range 512).foldl (fun (u : Tile) n =>
        let v := u.node q n
        u.setNode q n (nodeOf mode (nodeNum old v.1)) v.2) tl
    { tl' with accFmt := mput tl'.accFmt q mode }

/-! Sparse groups of 16 positions (R51, R52). -/

/-- The values and coordinates of a compressed group of n values of a format; none when the coordinates do not rise. -/
def sparseGroup (fmt n v : Nat) : Option (List (Nat × Num)) :=
  let w := fmtWidth fmt
  let co := (List.range n).map fun j => bits v (n * w + 4 * j + 3) (n * w + 4 * j)
  if (co.zip co.tail).all fun p => decide (p.1 < p.2)
  then some (co.zipIdx.map fun c => (c.1, decodeNum fmt (bits v (w * c.2 + w - 1) (w * c.2)))) else none

/-- A dense group of 16 values compressed to n: the nonzero positions and the lowest zero ones; none when too many are nonzero. -/
def compress (n : Nat) (l : List Num) : Option (List (Nat × Num)) :=
  let ix := l.zipIdx.map fun p => (p.2, p.1)
  let nz := ix.filter fun p => !p.2.isZero
  if n < nz.length then none
  else
    let keep := nz ++ (ix.filter fun p => p.2.isZero).take (n - nz.length)
    some (sortBy (fun a b => decide (a.1 < b.1)) keep)

/-- An egress group of 16 positions expanded (R53): the values in place, +0 elsewhere. -/
def expand (l : List (Nat × Num)) : List Num := (List.range 16).map fun k => match l.find? fun p => p.1 == k with | some p => p.2 | none => .zero false

/-! Element-wise results (R175). -/

/-- One result of BLOCK.E on float kinds: exact, rounded once at egress; `down` says that the rounding is toward -inf. -/
def eopFloat (op : Nat) (down : Bool) (a b c : Num) : Num :=
  match op with
  | 0 => (addNum a b down).1
  | 1 => (addNum a b.neg down).1
  | 2 => (mulNum a b).1
  | 3 => (addNum (mulNum a b).1 c down).1
  | 4 => (minmaxNum false a b).1
  | _ => (minmaxNum true a b).1

/-- One result of BLOCK.E on integer kinds: exact, then reduced to 32 bits (R175). -/
def eopInt (op mode : Nat) (a b c : Int) : Int :=
  let v : Int := match op with
    | 0 => a + b
    | 1 => a - b
    | 2 => a * b
    | 3 => a * b + c
    | 4 => if b < a then b else a
    | _ => if a < b then b else a
  sext (fitI32 mode v) 32

end Sys2Proof.Machine
end

