-- ==== Sys2Proof/Machine/Queues.lean ====
section
/-! DEFINITION. Engine queues: entries, the checks of R248, grants and access terms (R228, R299), quotes and acceptance (R41, R222, R228). -/

namespace Sys2Proof.Machine

/-- The largest die-hop count from a die to the given dies. -/
def State.maxHops (s : State) (die : Nat) (l : List Nat) : Nat := l.foldl (fun m d => max m ((s.hops die d).getD 0)) 0

/-- The tiles of a partition. -/
def Partition.ntiles (p : Partition) : Nat := 8 * p.slots.length

/-- The space-0 grant: GR0, or the smaller of GR0 and GR6 with reserve granules (R299). -/
def State.rho0 (s : State) (p : Nat) : Nat := if (s.reserve p).isEmpty then (s.part p).gr0 else min (s.part p).gr0 (s.part p).gr6

/-- The rate r of a space as a fraction, at most 1; none when its grant is 0 (R228, R299). -/
def State.rateOf (s : State) (p die space : Nat) : Option (Nat × Nat) :=
  let n := (s.part p).ntiles
  let sl := (s.columns p die).length
  let r := match space with
    | 0 => (s.rho0 p, 18 * n)
    | 2 => (n, 36 * n)
    | 4 => ((s.part p).gr4, 18 * n)
    | 5 => (4 * sl, 144 * sl)
    | 6 => ((s.part p).gr6, 18 * n)
    | _ => (1, 1)
  if r.1 = 0 then none else if r.2 < r.1 then some (1, 1) else some r

/-- ⌈n / r⌉ for the slowest space on the path. -/
def State.beatTime (s : State) (p die n : Nat) (spaces : List Nat) : Option Nat :=
  spaces.foldl (fun m sp => match m, s.rateOf p die sp with
    | some a, some r => some (max a (cdiv (n * r.2) r.1))
    | _, _ => none) (some n)

/-- The access term a of a space (R228). -/
def State.aTerm (s : State) (p die space : Nat) : Nat :=
  match space with
  | 1 | 3 => 4
  | 2 => 40
  | 5 => 24
  | 0 =>
    let v := 240 + 24 * s.maxHops die (s.stacks p)
    if (s.reserve p).isEmpty then v else max v 1000
  | 6 => 1000
  | _ => 2000000

/-! Entries. -/

/-- An entry with nothing set. -/
def QEntry.blank (k : QKind) : QEntry :=
  { id := 0, kind := k, pa := 0, pb := 0, xs := 0, xt := 0, amount := 0, ctr := none, rm := 0, sat := false, aux := 0, port := 0,
    mask := 0, inv := false, members := [], tag := 0, ctx := 0, own := 0, lid := 0, after := [], waits := [], skipped := false,
    st := .queued, engine := none, probed := false, pos := 0, seq := 0, base := 0, sentEnd := false, trk := none, stop := none,
    cxl := false, flt := false, psn := false, fcode := 0, faddr := 0, quote := 0, at_ := 0, byInst := false, old := [],
    fidx := [], flight := [], held := [], ctrSent := false, no := 0, began := false }

def QKind.isCopy (k : QKind) : Bool := match k with | .copy | .mcopy | .rcopy => true | _ => false
def QKind.isStream (k : QKind) : Bool := match k with | .sIn | .sOut | .sRec | .sConst | .sDrop | .sInd => true | _ => false
def QKind.isGate (k : QKind) : Bool := !k.isCopy && !k.isStream
/-- Streams that hold an ingress port, and streams that hold an egress port (R234). -/
def QKind.ingress (k : QKind) : Bool := match k with | .sIn | .sInd | .sConst | .sRec => true | _ => false
def QKind.egress (k : QKind) : Bool := match k with | .sOut | .sDrop | .sRec => true | _ => false
/-- The ingress port of a stream: AUX bits 3..0 in STREAM.REC (R230). -/
def QEntry.inPort (e : QEntry) : Nat := if e.kind = .sRec then e.aux % 16 else e.port

def QEntry.patA (e : QEntry) : Pat := patOf e.pa
def QEntry.patB (e : QEntry) : Pat := patOf e.pb

/-- The remaining bound of an entry (R228). -/
def Tile.remaining (tl : Tile) (e : QEntry) : Nat := e.quote - (tl.res - e.at_)
def Tile.largest (tl : Tile) (l : List QEntry) : Nat := l.foldl (fun m e => max m (tl.remaining e)) 0
def Tile.entries (tl : Tile) : List QEntry := tl.queues.flatMap fun q => q.2.entries
def Tile.entry (tl : Tile) (id : Nat) : Option QEntry := tl.entries.find? fun e => e.id == id
def Tile.modEntry (tl : Tile) (q id : Nat) (f : QEntry → QEntry) : Tile :=
  tl.modQueue q fun u => { u with entries := u.entries.map (fun e => if e.id == id then f e else e) }

/-- The ranges of spaces 1 and 3 that a copy touches (R159): (space, lo, hi, written). -/
def QEntry.ranges (e : QEntry) : List (Nat × Nat × Nat × Bool) :=
  ([(e.patA, false), (e.patB, true)].filter fun x => (x.1.space == 1 || x.1.space == 3) && x.1.count != 0).map
    fun x => (x.1.space, x.1.range.1, x.1.range.2, x.2)

/-- The engines that move a copy now: key, queue and entry. -/
def Tile.busyEngines (tl : Tile) : Map (Nat × Nat) :=
  tl.engines.filter fun x => match tl.entry x.2.2 with | some e => e.st == .started | none => false

/-- The entries that hold a resource an entry needs (R228): both engines, too few scoreboard entries, or the port. -/
def Tile.holders (tl : Tile) (e : QEntry) : List QEntry :=
  if e.kind.isCopy then
    (if tl.busyEngines.length < 2 then [] else tl.busyEngines.filterMap fun x => tl.entry x.2.2)
      ++ (if tl.score.length + e.ranges.length ≤ 32 then [] else tl.score.filterMap fun r => tl.entry r.id)
  else
    let port := fun (m : Map Port) (k : Nat) => ((mget Port.reset m k).holder).bind fun h => tl.entry h.2
    (if e.kind.ingress then [port tl.ips e.inPort] else []) ++ (if e.kind.egress then [port tl.eps e.port] else []) |>.filterMap id

/-- The entries that a gate waits for (R223, R238 to R240). -/
def Tile.gateWaits (tl : Tile) (q : Nat) (e : QEntry) : List QEntry :=
  let mine := (tl.queue q).entries.filter fun x => e.id = 0 || x.id < e.id
  let gates := mine.filter fun x => x.kind.isGate
  match e.kind with
  | .sbarRd => gates ++ mine.filter fun x => x.kind.ingress
  | .sbarWr => gates ++ mine.filter fun x => x.kind.egress
  | .sbarAll => gates ++ mine.filter fun x => x.kind.isStream
  | .scond => mine
  | _ => gates ++ tl.entries.filter fun x => e.waits.contains x.id

/-! Acceptance (R41, R222, R228). -/

/-- The accesses of a context that a command waits for (R227). -/
def Ctx.undone (c : Ctx) : List Nat := (c.outs.filter fun a => !a.isFence && !a.done).map (·.id)

/-- The bound of an entry: h, v and t of R228; `far` is the largest remaining bound of holders on another tile. -/
def Tile.bound (tl : Tile) (q : Nat) (e : QEntry) (t : Nat) (far : Nat) : Nat :=
  if e.kind.isGate then tl.largest (tl.gateWaits q e) + t
  else (match (tl.queue q).entries.getLast? with | some p => tl.remaining p | none => 0) + max (tl.largest (tl.holders e)) far + t

/-- The trackers of a destination tile count among the resources of a stream into space 2: the largest remaining bound of the streams that hold
them, when all 16 are held (R228, R353). -/
def State.trackersHeld (s : State) (e : QEntry) : Nat :=
  if e.kind != .sOut || e.patA.space != 2 then 0
  else match s.remoteTile s.cur.1 (bits e.patA.base 33 22) with
    | none => 0
    | some u =>
      let l := (s.tile u).trks
      if l.length < 16 then 0
      else l.foldl (fun m r => max m (match (s.tile r.2.srcTile).entry r.2.entry with | some x => (s.tile r.2.srcTile).remaining x | none => 0)) 0

/-- An entry joins its queue with everything captured (R222); a mark of R239 makes it skipped. -/
def State.enter_ (s : State) (q : Nat) (e : QEntry) (quote : Nat) : State :=
  let tl := s.myTile
  let skip := (tl.queue q).skip
  let e := { e with id := tl.nextId + 1, tag := scLo s.me.scope, ctx := s.cur.2, own := s.me.serial, lid := s.myLid,
                    after := s.me.undone, skipped := decide (0 < skip), quote := quote, at_ := tl.res, no := (tl.queue q).entered }
  s.modMyTile fun tl =>
    { tl.modQueue q (fun u => { u with entries := u.entries ++ [e], skip := u.skip - 1, entered := u.entered + 1 }) with nextId := tl.nextId + 1 }

/-- A command's fate by its bound (R41): the quote and the new state, or a refusal. -/
def State.accept (s : State) (q : Nat) (e : QEntry) (t : Option Nat) (limit : Bool) : Option (Nat × State) :=
  match t with
  | none => none
  | some t =>
    let quote := min (s.myTile.bound q e t (s.trackersHeld e)) (2 ^ 64 - 2)
    if limit && s.me.quoteLim != 0 && decide (s.me.quoteLim.toNat < quote) then none
    else some (quote, s.enter_ q e quote)

/-- A command ends: its quote or all ones goes to x[qd] (R41). -/
def State.finish (s : State) (q qd : Nat) (e : QEntry) (t : Option Nat) : State :=
  match s.accept q e t true with
  | some r => (r.2.setX qd (BitVec.ofNat 64 r.1)).advance
  | none => (s.setX qd allOnes).advance

/-! The checks of R248: a failing one gives cause, address and aux. -/

abbrev Trap3 := Nat × Nat × Nat

/-- The checks in order: the first that fails. -/
def firstFail : List (Bool × Trap3) → Option Trap3
  | [] => none
  | (b, e) :: t => if b then some e else firstFail t

/-- The counter record of a command (R248). -/
def State.ctrFault (s : State) (ctr : Option (Nat × Nat)) (wr : Bool) : Option Trap3 :=
  match ctr with
  | none => none
  | some (csp, a) =>
    if a % 16 ≠ 0 then some (0x05, a, 0)
    else match s.resolve s.cur.1 csp a 16 true wr with
      | .error e => some (e.1, a, 0)
      | .ok _ => none

/-- The counter a command names: none when CTR is 0 (R230). -/
def State.ctrOf (s : State) (ctr csp : Nat) : Option (Nat × Nat) := if ctr = 0 then none else some (csp, s.nx ctr)

/-- The group of MCOPY and RCOPY: its members when its entry is valid (R248). -/
def State.groupOf (s : State) (g : Nat) : Option (List Nat) := (mfind g s.myLaunch.groups).map (·.members)

/-- A pattern names space 4 although the scheduling record forbids host transfers (R318). -/
def State.hostRefused (s : State) (l : List Pat) : Bool :=
  l.any (fun p => p.space == 4) && !(match (s.part s.myPart).sched with | some r => r.hostx | none => false)

end Sys2Proof.Machine
end

