-- ==== Sys2Proof/Machine/Streams.lean ====
section
/-! DEFINITION. Stream commands of major 0x71 (R229, R230, R234 to R236). -/

namespace Sys2Proof.Machine

/-- The spaces a stream's pattern may name (R234). -/
def streamSpaces (k : QKind) : List Nat := match k with | .sOut => [0, 1, 2, 5] | .sIn => [0, 1, 5] | _ => [0]
/-- The stream reads or writes memory through pa. -/
def QKind.mem (k : QKind) : Bool := match k with | .sIn | .sOut | .sInd => true | _ => false

/-- Index formats of STREAM.IND and of RCOPY's integer operations: i32, i64, n32, n64 (R236, R244). -/
def isWide (fmt : Nat) : Bool := fmt == 4 || fmt == 5 || fmt == 0x0A || fmt == 0x0B

/-- The checks of R248 for a stream; ra and rb are the pattern registers. DESIGN CHOICE (log 66): an egress stream into FP4-B8 (R50) fails in the first
row. -/
def State.streamFault (s : State) (e : QEntry) (ra rb : Nat) : Option Trap3 :=
  let a := e.patA
  let b := e.patB
  let ind := e.kind == .sInd
  let flat := !e.kind.mem
  firstFail [
    (a.bad || (flat && a.layout != 0) || (e.kind == .sConst && decide (64 < a.width)) || (e.kind.egress && a.fmt == 0x17), (0x02, 0, ra)),
    (ind && b.bad, (0x02, 0, rb)),
    (!flat && a.space == 7, (0x04, 0, ra)),
    (ind && b.space == 7, (0x04, 0, rb)),
    (!flat && !(streamSpaces e.kind).contains a.space, (0x0B, 0, 3)),
    (ind && b.space != 0, (0x0B, 0, 3)),
    (ind && !(isWide a.fmt && a.layout == 0 && b.layout == 0 && b.dims == 0), (0x0B, 0, 2))] <|> s.ctrFault e.ctr true

/-- Payload bytes (R225). -/
def QEntry.streamBytes (e : QEntry) : Nat := if e.kind = .sInd then e.patB.bytesOf e.patA.count else e.patA.bytesOf e.patA.count

/-- t of a stream (R228); a gather touches a unit of its own per element, since its positions are not known when it is accepted. -/
def State.streamTime (s : State) (e : QEntry) : Option Nat :=
  let p := s.myPart
  let die := dieOf s.cur.1
  let a := e.patA
  match e.kind with
  | .sIn | .sOut => (s.beatTime p die (beatCount (some a) none 1 a.count) [a.space]).map fun n => s.aTerm p die a.space + n + 16
  | .sInd => (s.beatTime p die a.count [0]).map fun n => 2 * s.aTerm p die 0 + n + 16
  | _ => some (cdiv (a.count * a.width) 512 + 16)

/-- The entry of a stream command. -/
def State.streamEntry (s : State) (k : QKind) (q : QArgs) : QEntry :=
  let e := { QEntry.blank k with
    pa := (s.getP q.pa).toNat, pb := if k = QKind.sInd then (s.getP q.pb).toNat else 0, xs := s.nx q.xs, xt := q.xt, ctr := s.ctrOf q.ctr q.csp,
    aux := q.aux, port := q.port }
  { e with amount := if q.xt = 0 then e.streamBytes else s.nx q.xt }

/-- A stream command (R222, R228, R248). -/
def State.stream (s : State) (k : QKind) (q : QArgs) : State :=
  let e := s.streamEntry k q
  match s.streamFault e q.pa q.pb with
  | some f => s.trapOn f
  | none => s.finish q.queue q.qd e (s.streamTime e)

def execStreamIn (q : QArgs) (s : State) : Out := .next (s.stream .sIn q)
def execStreamOut (q : QArgs) (s : State) : Out := .next (s.stream .sOut q)
def execStreamRec (q : QArgs) (s : State) : Out := .next (s.stream .sRec q)
def execStreamConst (q : QArgs) (s : State) : Out := .next (s.stream .sConst q)
def execStreamDrop (q : QArgs) (s : State) : Out := .next (s.stream .sDrop q)
def execStreamInd (q : QArgs) (s : State) : Out := .next (s.stream .sInd q)

end Sys2Proof.Machine
end

