-- ==== Sys2Proof/Machine/StreamElem.lean ====
section
/-! DEFINITION. The elements that ingress streams deliver to their port (R51, R52, R234 to R236). -/

namespace Sys2Proof.Machine

/-- An element as a stream reads it. -/
def Pat.elem (p : Pat) (v : Nat) (psn : Bool) (addr : Nat) : PElem :=
  { bits := v, fmt := p.fmt, grp := if p.layout = 3 then p.nval else 0, psn := psn, addr := addr }

/-- An element as it enters the port buffer: a compressed group whose coordinates do not rise becomes poison at ingress, it alone (R52). -/
def PElem.checked (x : PElem) : PElem :=
  { x with psn := x.psn || (x.grp != 0 && (sparseGroup x.fmt x.grp x.bits).isNone) }

/-- The integer value of an index element (R236). -/
def indexOf (fmt v : Nat) : Int := if isSignedFmt fmt then sext v (fmtWidth fmt) else (v : Int)

/-- The edge that translates for a stream (R300): its tile's own die, and for STREAM.IND the die that holds the index pattern's memory (DESIGN
CHOICE, log 61: the home of the index pattern's first byte by a walk; the tile's own die when that byte is not mapped). -/
def State.streamVia (s : State) (t : Nat) (e : QEntry) : Via :=
  if e.kind != .sInd then viaTile t
  else match s.walk (s.partId t) e.patA.base with
    | some l => ⟨s.dieAt (.dev (l.frame + e.patA.base % pageSize l.psz)), []⟩
    | none => viaTile t

/-- The number of the data element that index j names, when the index is sound (R236). -/
def State.indexAt (s : State) (t : Nat) (e : QEntry) (j : Nat) : Option Nat :=
  match s.readElem (s.streamVia t e) t e.patA j with
  | .error _ => none
  | .ok ix =>
    let k := indexOf e.patA.fmt ix.1
    if ix.2.1 || k < 0 || (e.patB.ext.getD 0 0 : Int) ≤ k then none else some k.toNat

/-- Element j of STREAM.IND: the index is read, judged, and the data element gathered (R236, R312). DESIGN CHOICE (log 66): an index below 0 is
reported at the address of element 0. -/
def State.gatherElem (s : State) (t : Nat) (e : QEntry) (j : Nat) : Except Trap3 PElem :=
  let v := s.streamVia t e
  match s.readElem v t e.patA j with
  | .error x => .error x
  | .ok ix =>
    if ix.2.1 then .ok (e.patB.elem 0 true ix.2.2)
    else
      let k := indexOf e.patA.fmt ix.1
      if k < 0 || (e.patB.ext.getD 0 0 : Int) ≤ k then .error (0x04, 0, wrap (e.patB.bitAddrAt [k.toNat] / 8) 64)
      else (s.readElem v t e.patB k.toNat).map fun r => e.patB.elem r.1 r.2.1 r.2.2

/-- Element j of an ingress stream, or its fault with cause, aux and byte address. DESIGN CHOICE (log 64): an element read after an egress write of
the same instance to its bytes gives what memory now holds, one of the two values R182 allows. -/
def State.streamElem (s : State) (t : Nat) (e : QEntry) (j : Nat) : Except Trap3 PElem :=
  match e.kind with
  | .sConst => .ok (e.patA.elem (e.xs % 2 ^ e.patA.width) false 0)
  | .sInd => s.gatherElem t e j
  | _ => (s.readElem (viaTile t) t e.patA j).map fun r => e.patA.elem r.1 r.2.1 r.2.2

/-- The number of the first element that waits in a port's buffer. -/
def QEntry.firstWaiting (e : QEntry) (p : Port) : Nat := e.pos - p.fifo.length

/-- Poisoned elements that wait in a port are read again, and a stop at a faulting element is lifted (R185, R186). -/
def State.refreshPort (s : State) (t k : Nat) : State :=
  let tl := s.tile t
  let p := mget Port.reset tl.ips k
  match p.holder with
  | none => s
  | some h => match tl.entry h.2 with
    | none => s
    | some e =>
      let again := fun (x : PElem × Nat) =>
        if x.1.psn && e.kind != .sRec then
          (match s.streamElem t e (e.firstWaiting p + x.2) with | .ok v => v.checked | .error _ => x.1) else x.1
      s.modTile t fun tl => ({ tl with ips := mput tl.ips k { p with fifo := p.fifo.zipIdx.map again } }).modEntry h.1 h.2 fun e => { e with stop := none }

/-- A stop of an egress stream at a faulting element is lifted (R186). -/
def State.refreshOut (s : State) (t k : Nat) : State :=
  match (mget Port.reset (s.tile t).eps k).holder with
  | none => s
  | some h => s.modTile t fun tl => tl.modEntry h.1 h.2 fun e => { e with stop := none }

/-- Every port of a tile. -/
def State.refresh (s : State) (t : Nat) (ins outs : List Nat) : State :=
  outs.foldl (fun s k => s.refreshOut t k) (ins.foldl (fun s k => s.refreshPort t k) s)

end Sys2Proof.Machine
end

