-- ==== Sys2Proof/Machine/Blocks.lean ====
section
/-! DEFINITION. Issue of block instructions, majors 0xB0 to 0xB5: roles, counts and the checks of R171 (R85, R165, R169 to R171, R179,
R186, R237). -/

namespace Sys2Proof.Machine

/-! Roles (R163, R169): keys 0 to 15 are ingress ports, 16 to 31 egress ports. -/

/-- The role of a key. -/
def Folio.role (f : Folio) (key : Nat) : Nat :=
  if key < 16 then bits f.irole (4 * key + 3) (4 * key) else bits f.erole (4 * (key - 16) + 3) (4 * (key - 16))
/-- The keys that have a role. -/
def Folio.keys (f : Folio) : List Nat := (List.range 32).filter fun k => f.role k != 0
/-- The key that holds an ingress role. -/
def Folio.keyOf (f : Folio) (r : Nat) : Option Nat := (List.range 16).find? fun k => f.role k == r
/-- The key of the result role. -/
def Folio.resultKey (f : Folio) : Option Nat := (f.keys.find? fun k => decide (16 ≤ k) && f.role k == 1)
/-- The multiplied roles of a class: A, and S or B (R171). -/
def secondRole (cls : Nat) : Nat := if cls = 2 || cls = 3 then 3 else 2

def bindKey (x : Bind) : Nat := if x.egress then 16 + x.port else x.port

/-- The port-binding table entry of a key (R105). -/
def State.pbind (s : State) (l folio key : Nat) : Option PBind :=
  (s.launch l).binds.find? fun p => p.folio == folio && p.egress == decide (16 ≤ key) && p.port == key % 16

/-- The image of an entry: ARG is added to BASE when AREL is set (R105). -/
def PBind.pattern (p : PBind) (arg : Nat) : Nat := if p.arel then patSet .add p.image arg else p.image

/-- The port of a key. -/
def Tile.port (tl : Tile) (key : Nat) : Port := mget Port.reset (if key < 16 then tl.ips else tl.eps) (key % 16)

/-- The stream that a stream command has brought to the port of a key: source 2 of R169, never one that an instance issued for itself. -/
def Tile.fed (tl : Tile) (key : Nat) : Option (Nat × Nat) :=
  (tl.port key).holder.filter fun h => match tl.entry h.2 with | some e => !e.byInst | none => false

/-- Elements of a stream that its fabric side has still to take or give. -/
def Tile.toGo (tl : Tile) (key : Nat) (e : QEntry) : Nat :=
  if key < 16 then e.patA.count - (e.pos - (tl.port key).fifo.length) else e.patA.count - (e.pos + (e.flight.map fun x => x.2.length).sum + (tl.port key).fifo.length)

/-- The pattern image whose format the fabric sees: the data pattern in STREAM.IND. -/
def QEntry.image (e : QEntry) : Nat := if e.kind = .sInd then e.pb else e.pa

/-- The stream of a role port in the order of R169: its pattern image and its element count; none when it has none. -/
def State.roleStream (s : State) (t folio : Nat) (binds : List Bind) (imgs : List Nat) (key : Nat) : Option (Nat × Nat) :=
  match binds.findIdx? fun x => bindKey x == key with
  | some n => (imgs[n]?).map fun v => (v, (patOf v).count)
  | none => match ((s.tile t).fed key).bind fun h => (s.tile t).entry h.2 with
    | some e => some (e.image, (s.tile t).toGo key e)
    | none => (s.pbind ((s.tile t).lid.getD 0) folio key).map fun p =>
        let v := p.pattern (s.launch ((s.tile t).lid.getD 0)).arg
        (v, (patOf v).count)

/-! Counts (R170). -/

/-- A count of elements in units of a format's storage: blocks of 32 or of 8 (R170). -/
def unitCount (fmt n : Nat) : Option Nat :=
  let u := if isMxFmt fmt then 32 else if fmt = 0x17 then 8 else 1
  if n % u = 0 then some (n / u) else none

/-- Pattern elements whose values a role takes together: in BLOCK.A the blocks of all lanes, since blocks run along K (R49, R50, R174). -/
def rowWidth (cls role : Nat) (b : BlockArgs) (p : Pat) : Nat :=
  if cls = 3 && (role == 1 || role == 3) && isBlockFmt p.fmt then (blkGeo b).l else 1

/-- The number of elements that a role supplies or takes; none when the class gives it no count. -/
def roleCount (cls : Nat) (b : BlockArgs) (egress : Bool) (role : Nat) : Option Nat :=
  let g := blkGeo b
  let bt := blkBeats b
  let u := g.l * blkBanks cls b
  let m := blkRn b * blkBanks cls b
  match egress, role with
  | true, 1 => match cls with
    | 2 => some (bt * g.ec) | 4 => some (bt * g.l) | 6 => none
    | _ => some (blkRh b * u)
  | false, 1 => match cls with
    | 0 | 1 => some (bt * g.k) | 3 => some (bt * g.k * g.l) | 2 => some (bt * g.ec) | 4 => some (bt * g.l) | 5 => some (bt * blkKd b) | _ => none
  | false, 2 => match cls with
    | 0 => some (g.k * g.l) | 1 => some (bt / blkTrips0 b * g.k * g.l) | 4 => some (blkTaps b.weave) | 5 => some (blkKd b * g.l) | _ => none
  | false, 3 => match cls with
    | 3 => some (bt * g.k * g.l) | 2 => some (bt * g.ec) | _ => none
  | false, 4 => match cls with
    | 2 => some (bt * g.ec) | 4 | 6 => none
    | _ => some (blkRn b * u)
  | false, 5 => some (cdiv m 64)
  | false, 6 => some (cdiv g.l 64)
  | false, 7 => some bt
  | _, _ => none

/-- The count in storage elements of a pattern; a LAYOUT-3 S counts groups (R170). -/
def patCount (p : Pat) (n : Nat) : Option Nat := if p.layout = 3 then (if n % 16 = 0 then some (n / 16) else none) else unitCount p.fmt n

/-! The checks of R171. -/

/-- The accumulation mode with the context's override (R64, R194): overrides change ACC32 and SX80 only. -/
def nodeMode (cls : Nat) (w : Weave) (ov : Option Nat) : Nat :=
  if intKinds w || cls = 2 then w.acc else match ov with | some v => v - 1 | none => w.acc
/-- The window in bits with the override. -/
def windowOf (w : Weave) (ov : Option Nat) : Nat := 16 + 8 * (ov.getD w.win)

/-- The overrides of a quarter (R194). -/
def Regs.spineOf (r : Regs) (q : Nat) : Option Nat × Option Nat := (mfind q r.spineWin, mfind q r.spineAcc)

/-- A multiplied operand fits its brick side (reason 4). -/
def brickFits (side kind fmt : Nat) : Bool :=
  match digitsOf fmt with | none => false | some d => decide (d ≤ side) && brickKind fmt == kind

/-- A scale check that an ingress port fails (reason 5). -/
def scaleFails (w : Weave) (cls role fmt : Nat) : Bool :=
  if role = 5 || role = 6 then fmt != 0x0F
  else
    let mult := role == 1 || role == secondRole cls
    match w.scl with
    | 0 => isBlockFmt fmt
    | 1 => mult && !isMxFmt fmt
    | _ => mult && fmt != 0x17

/-- A role port with its pattern and count. -/
structure RolePort where
  key : Nat
  role : Nat
  pat : Pat
  count : Nat
  deriving DecidableEq, Repr

/-- The port field of TRAPAUX: bit 12 the direction (R171). -/
def keyAux (key : Nat) : Nat := key * 2 ^ 8

/-- Reason 6 of R171. -/
def shapeFails (cls : Nat) (b : BlockArgs) (aPat : Option Pat) : Bool :=
  let w := b.weave
  decide (b.loops.length < w.red) || (cls == 1 && (decide (w.red < 2) || decide (512 / (blkGeo b).lanes < blkTrips0 b)))
    || (cls == 4 && (w.red != 0 || decide ((blkGeo b).k < blkTaps w)
        || (decide (0 < w.ry) && (match aPat with | some p => p.dims == 0 | none => false))))

/-- Reasons 3 to 8 of R171: the TRAPAUX of the first that fails. In BLOCK.A the K positions of each lane fill whole blocks, since blocks run along
K (R49, R170, R174; DEDUCED, log 64). -/
def operandFails (cls : Nat) (b : BlockArgs) (regs : Regs) (l : List RolePort) : Option Nat :=
  let w := b.weave
  let find := fun (p : RolePort → Bool) => (l.find? p).map (·.key)
  let aPat := (l.find? fun r => r.role == 1 && decide (r.key < 16)).map (·.pat)
  let ov := (quartersOf b.qmask).map regs.spineOf
  let mode := nodeMode cls w ((ov.head?).bind (·.2))
  let cnt := find fun r => match roleCount cls b (decide (16 ≤ r.key)) r.role with
    | some n => patCount r.pat n != some r.count || (rowWidth cls r.role b r.pat != 1 && (unitCount r.pat.fmt (blkBeats b * (blkGeo b).k)).isNone)
    | none => false
  let same := ov.all fun o => some o == ov.head?
  if let some k := cnt then some (3 + keyAux k)

  else if let some k := find (fun r => decide (r.key < 16) && ((r.role == 1 && !brickFits (blkGeo b).rows w.ak r.pat.fmt)
      || (r.role == secondRole cls && !brickFits (blkGeo b).cols w.bk r.pat.fmt))) then some (4 + keyAux k)
  else if let some k := find (fun r => decide (r.key < 16) && scaleFails w cls r.role r.pat.fmt) then some (5 + keyAux k)
  else if shapeFails cls b aPat then some 6
  else if !same then some 7
  else (find fun r => decide (16 ≤ r.key) && r.role == 1 && (r.pat.fmt == 0x17 || (decide (mode ≤ 1) && isIntFmt r.pat.fmt))).map fun k => 8 + keyAux k

/-- The ingress roles of a class: required and optional (R169). -/
def roleTable (cls scl eop : Nat) : List Nat × List Nat :=
  let bands := if scl = 2 then [5, 6] else []
  match cls with
  | 0 | 1 | 5 => ([1, 2] ++ bands, [4])
  | 3 => ([1, 3], [4])
  | 2 => ([1, 3] ++ (if eop = 3 then [4] else []), [])
  | 4 => ([1, 2], [])
  | _ => ([7], [])

/-- The role of a key must have a stream (R169, R171). -/
def roleRequired (cls : Nat) (b : BlockArgs) (egress : Bool) (role : Nat) : Bool :=
  egress || (roleTable cls b.weave.scl b.weave.eop).1.contains role

/-- The check of R171: the TRAPAUX of the first reason. DESIGN CHOICE (log 64): where several fail, the lowest reason is reported, and a role-0
binding before a role without a stream. -/
def State.blockFails (s : State) (cls : Nat) (b : BlockArgs) (imgs : List Nat) (f : Folio) : Option Nat :=
  if f.weave != joinWeave b.weave then some 1
  else if let some x := b.binds.find? (fun x => f.role (bindKey x) == 0) then some (2 + keyAux (bindKey x))
  else
    let src := f.keys.map fun k => (k, s.roleStream s.cur.1 b.folio b.binds imgs k)
    match src.find? fun e => e.2.isNone && roleRequired cls b (decide (16 ≤ e.1)) (f.role e.1) with
    | some e => some (2 + keyAux e.1)
    | none => operandFails cls b s.me.regs (src.filterMap fun e => e.2.map fun v => ⟨e.1, f.role e.1, patOf v.1, v.2⟩)

/-! The stream commands of an instance (R169, R237). -/

/-- One stream command of an instance: key, queue, pattern image, counter address when there is one. -/
structure BindCmd where
  key : Nat
  queue : Nat
  img : Nat
  ctr : Option Nat
  reg : Nat
  deriving DecidableEq, Repr

/-- The commands that an instance issues: its binding words in order, then the table entries of role ports without a stream. -/
def State.bindCmds (s : State) (t : Nat) (b : BlockArgs) (imgs ctrs : List Nat) (f : Folio) : List BindCmd :=
  let tl := s.tile t
  let l := tl.lid.getD 0
  let mine := b.binds.zipIdx.map fun x => ⟨bindKey x.1, x.1.queue, imgs.getD x.2 0, if x.1.ctr = 0 then none else some (ctrs.getD x.2 0), x.1.pat⟩
  let free := f.keys.filter fun k => !(b.binds.any fun x => bindKey x == k) && (tl.fed k).isNone
  mine ++ free.filterMap fun k => (s.pbind l b.folio k).map fun p =>
    ⟨k, p.queue, p.pattern (s.launch l).arg, if p.ctr = 0 then none else some p.ctr, 0⟩

/-- The entry of such a command (R237). -/
def BindCmd.entry (c : BindCmd) : QEntry :=
  let e := { QEntry.blank (if c.key < 16 then .sIn else .sOut) with pa := c.img, port := c.key % 16, ctr := c.ctr.map fun a => (1, a), byInst := true }
  { e with amount := e.streamBytes }

/-- A command of the block would be refused (R237): each is judged behind those before it. -/
def State.bindsRefused (s : State) : List BindCmd → Bool
  | [] => false
  | c :: l => match s.accept c.queue c.entry (s.streamTime c.entry) true with
    | none => true
    | some r => State.bindsRefused r.2 l

end Sys2Proof.Machine
end

