-- ==== Sys2Proof/Machine/Rules.lean ====
section
/-! DEFINITION. Rule words, region tables and the checks of a folio load (R27, R90 to R92, R104, R163, R164, R169, R203, R207, R215). -/

namespace Sys2Proof.Machine

/-! Rule words (R90). -/

/-- The fields of a rule word. -/
structure Rule where
  care : Nat
  req : Nat
  ine : Nat
  osp : Nat
  op : Nat
  opa : Nat
  opb : Nat
  dst : Nat
  deq : Nat
  pidx : Nat
  pval : Bool
  pwe : Bool
  imm : Nat
  deriving DecidableEq, Repr

def ruleOf (w : Nat) : Rule :=
  ⟨bits w 63 56, bits w 55 48, bits w 47 44, bits w 43 40, bits w 39 33, bits w 32 29, bits w 28 25, bits w 24 21, bits w 20 17,
    bits w 16 14, bit w 13, bit w 12, bits w 11 0⟩

/-- The operations of R91. -/
def ruleOpOk (op : Nat) : Bool := decide (op ≤ 0x13) || (decide (0x20 ≤ op) && decide (op ≤ 0x2E)) || (decide (0x40 ≤ op) && decide (op ≤ 0x49))

/-- The operands that an operation uses, a and b (R203). -/
def ruleUses (r : Rule) : Bool × Bool :=
  match r.op with
  | 0x01 => (true, false)
  | 0x29 | 0x2A | 0x2B | 0x2C | 0x2D | 0x2E | 0x44 | 0x47 => (true, false)
  | 0x41 => (bit r.imm 0, false)
  | 0x42 => (bit r.imm 0, true)
  | 0x43 | 0x49 => (false, false)
  | _ => (true, true)

/-- The IMM bits that an operation uses when IMM is no value; none when it is a value (R203). -/
def ruleImmMask (op : Nat) : Option Nat :=
  match op with
  | 0x23 => some 7 | 0x2B | 0x2C => some 3 | 0x40 => some 0xFFF | 0x41 | 0x42 => some 1 | 0x43 | 0x44 => some 3
  | 0x45 => some 0x1F | 0x46 => some 0xFF | 0x47 => some 3 | 0x49 => some 1 | _ => none

/-- An operand code: its range, the queue it needs in INE, code 13 when it is not used. -/
def operandBad (r : Rule) (code : Nat) (used : Bool) : Bool :=
  decide (13 < code) || (decide (8 ≤ code) && decide (code ≤ 11) && !bit r.ine (code - 8)) || (!used && code != 13)
    || (code == 12 && (ruleImmMask r.op).isSome)

/-- A rule word that R92 or R203 refuses. -/
def ruleBad (w : Nat) : Bool :=
  let r := ruleOf w
  let u := ruleUses r
  if r.op = 0 then w != 0
  else
    !ruleOpOk r.op || operandBad r r.opa u.1 || operandBad r r.opb u.2 || decide (12 < r.dst)
      || (decide (8 ≤ r.dst) && decide (r.dst ≤ 11) && !bit r.osp (r.dst - 8))
      || r.deq &&& r.ine != r.deq || r.req &&& r.care != r.req
      || (match ruleImmMask r.op with | some m => r.imm &&& m != r.imm | none => false)
      || ((r.op == 0x44 || r.op == 0x49) && r.dst != 12)
      || (r.op == 0x40 && ((decide (8 ≤ r.dst) && decide (r.dst ≤ 11)) || (decide (0xC00 ≤ r.imm) && decide (r.imm ≤ 0xFFE))))
      || (r.op == 0x47 && (!(decide (8 ≤ r.dst) && decide (r.dst ≤ 11)) || r.dst == 8 + r.imm % 4 || !bit r.osp (r.imm % 4)))

/-! Region tables (R207, R215). -/

/-- The frame table: base address, frames, the reserve of a level. -/
def EPart.fbase (p : EPart) : Nat := bits p.frames 127 114 * 256
def EPart.fcount (p : EPart) : Nat := bits p.frames 113 103
def EPart.res (p : EPart) (l : Nat) : Nat := bits p.frames (16 * l + 15) (16 * l)

/-- A memory-node descriptor (R215). -/
structure NodeDesc where
  off : Nat
  count : Nat
  pat : Nat
  prel : Bool
  space : Nat
  width : Nat
  sgn : Bool
  ord : Nat
  zeroBad : Bool
  deriving DecidableEq, Repr

def nodeDescOf (v : Nat) : NodeDesc :=
  ⟨bits v 127 64, bits v 63 40, bits v 39 36, bit v 35, bits v 34 32, bits v 31 30, bit v 29, bits v 28 26, bits v 25 0 != 0⟩

def EPart.node (p : EPart) (k : Nat) : NodeDesc := nodeDescOf (p.nodes.getD k 0)

/-- The rule words of element e, and rule i. -/
def EPart.rule (p : EPart) (e i : Nat) : Rule := ruleOf ((p.rules.getD e []).getD i 0)

/-- A descriptor that a rule names breaks a check. -/
def NodeDesc.bad (d : NodeDesc) : Bool :=
  !([0, 1, 2, 5].contains d.space) || d.width == 3 || decide (5 ≤ d.ord) || d.count == 0 || d.zeroBad

/-- The node that a rule names: LDN and STN. -/
def Rule.nodeNo (r : Rule) : Option Nat := if r.op = 0x45 || r.op = 0x46 then some (r.imm % 32) else none

/-- Reason 7 (R104, R207, R215). DESIGN CHOICE (log 64): FCOUNT above the 1,024 that its field allows is refused here too. -/
def EPart.bad (p : EPart) : Bool :=
  p.zeroBad || decide (0x2F0000 < p.fbase + p.fcount * 256) || bits p.frames 102 64 != 0
    || (List.range 4).any (fun l => decide (1024 < p.res l)) || decide (p.fcount < p.res 0 + p.res 1 + p.res 2 + p.res 3)
    || decide (1024 < p.fcount) || p.convs.any (fun c => bits c 23 16 != 0 || bits c 5 0 != 0)
    || p.handlers.any (fun l => l.any fun h => bits h 7 6 != 0)
    || p.rules.any fun l => l.any fun w => match (ruleOf w).nodeNo with | some k => (p.node k).bad | none => false

/-- A conflict matrix that is not symmetric or has a diagonal bit (R27). -/
def matrixBad (m : List Nat) : Bool :=
  (List.range 16).any fun i => bit (m.getD i 0) i || (List.range i).any fun j => bit (m.getD i 0) j != bit (m.getD j 0) i

/-! The checks of a load (R164, R169). -/

/-- Class of a weave word: its FLOW (R86). -/
def Folio.cls (f : Folio) : Nat := bits f.weave 51 48

/-- The role codes of the ports, 0 left out. -/
def Folio.inRoles (f : Folio) : List Nat := ((List.range 16).map f.role).filter (· != 0)
def Folio.outRoles (f : Folio) : List Nat := ((List.range 16).map fun k => f.role (16 + k)).filter (· != 0)

/-- Reason 5. -/
def Folio.rolesBad (f : Folio) : Bool :=
  let t := roleTable f.cls (bits f.weave 41 40) (bits f.weave 22 19)
  let i := f.inRoles
  !(t.1.all i.contains) || i.any (fun r => !(t.1 ++ t.2).contains r) || (i.any fun r => r != 7 && decide (1 < i.count r))
    || (if f.cls = 6 then f.outRoles.isEmpty || f.outRoles.any (· != 2) else f.outRoles != [1])

/-- The refusal of a folio for a mask: cause and TRAPAUX, in the order of the reasons (R92, R164). -/
def Folio.refusal (f : Folio) (qmask : Nat) : Option (Nat × Nat) :=
  let part := f.epart
  if f.qcnt ≠ (quartersOf qmask).length then some (0x0E, 1)
  else if f.plen = 0 || 48 < f.plen then some (0x0E, 2)
  else if (match part with | some p => p.conflicts.any matrixBad | none => false) then some (0x0E, 3)
  else if f.inRoles.any (8 ≤ ·) || f.outRoles.any (3 ≤ ·) || (f.cls ≠ 6 && f.eoff ≠ 0) then some (0x0E, 4)
  else if f.rolesBad then some (0x0E, 5)
  else if f.cls ≠ 6 then none
  else match part with
    | none => some (0x0E, 7)
    | some p =>
      if p.bad then some (0x0E, 7)
      else (List.range 1024).findSome? fun k => if ruleBad ((p.rules.getD (k / 16) []).getD (k % 16) 0) then some (0x01, k) else none

/-- Operations are pending that complete before the array is saved or the instance ends (R189, R220). -/
def EArray.storing (a : EArray) : Bool := !a.pend.isEmpty

end Sys2Proof.Machine
end

