-- ==== Sys2Proof/Machine/Race.lean ====
section
/-! DEFINITION. The static graph of a class-6 folio's rules and the conflicts of its memory nodes (R201, R292, R293). -/

namespace Sys2Proof.Machine

/-- The rule slots in use: slot 16e + i is rule i of element e. -/
def EPart.slots (p : EPart) : List Nat := (List.range 1024).filter fun n => (p.rule (n / 16) (n % 16)).op != 0
def EPart.slot (p : EPart) (n : Nat) : Rule := p.rule (n / 16) (n % 16)

/-- The output queues that a rule enqueues into. -/
def Rule.feeds (r : Rule) : List Nat :=
  (if 8 ≤ r.dst && r.dst ≤ 11 then [r.dst - 8] else []) ++ (if r.op = 0x47 then [r.imm % 4] else [])

/-- The element and the input queue behind an output queue of the mesh (R201). -/
def meshConsumer (e q : Nat) : Option (Nat × Nat) :=
  match q with
  | 0 => if e % 8 < 7 then some (e + 1, 2) else none
  | 1 => if e / 8 < 7 then some (e + 8, 3) else none
  | 2 => if 0 < e % 8 then some (e - 1, 0) else none
  | _ => if 0 < e / 8 then some (e - 8, 1) else none

/-- An egress converter drains the output queue. -/
def Folio.drains (f : Folio) (p : EPart) (e q : Nat) : Bool :=
  (List.range 16).any fun k => f.role (16 + k) != 0 && bits (p.convs.getD k 0) 31 26 == e && bits (p.convs.getD k 0) 25 24 == q

/-- The registers that a rule reads in either operand, the only reads for which R292 gives an edge beside CARE and SEL. -/
def Rule.sources (r : Rule) : List Nat := [r.opa, r.opb].filter (· < 8)

/-- Rule j reads a register or predicate that rule i of its element writes; the register a SEND names in DST is read, not written (R210). -/
def Rule.readsOf (j i : Rule) : Bool :=
  (decide (i.dst < 8) && i.op != 0x40 && j.sources.contains i.dst) || (i.pwe && (bit j.care i.pidx || (j.op == 0x13 && j.pidx == i.pidx)))

/-- Rule j reads or dequeues an input queue. -/
def Rule.takesFrom (j : Rule) (q : Nat) : Bool := j.opa == 8 + q || j.opb == 8 + q || bit j.deq q

/-- An edge of the graph (R292). -/
def Folio.edge (f : Folio) (p : EPart) (m n : Nat) : Bool :=
  let i := p.slot m
  let j := p.slot n
  (m / 16 == n / 16 && j.readsOf i) || i.feeds.any fun q => !f.drains p (m / 16) q && (match meshConsumer (m / 16) q with
    | some (e, k) => e == n / 16 && j.takesFrom k
    | none => false)

/-- The slots reached over one or more edges. -/
def reachFrom (next : Nat → List Nat) : Nat → List Nat → List Nat → List Nat
  | 0, _, seen => seen
  | k + 1, front, seen =>
    let fresh := ((front.flatMap next).eraseDups).filter fun n => !seen.contains n
    if fresh.isEmpty then seen else reachFrom next k fresh (seen ++ fresh)

def Folio.reach (f : Folio) (p : EPart) (m : Nat) : List Nat := reachFrom (fun n => p.slots.filter fun k => f.edge p n k) 1024 [m] []

/-- The slots whose rules name node k. -/
def EPart.namers (p : EPart) (k : Nat) : List Nat := p.slots.filter fun n => (p.slot n).nodeNo == some k

/-- The nodes that rules name, ascending. -/
def EPart.named (p : EPart) : List Nat := (List.range 32).filter fun k => !(p.namers k).isEmpty

/-- ACC of a node: 1 loads, 2 stores, 3 both (R291). -/
def EPart.acc (p : EPart) (k : Nat) : Nat :=
  b2n ((p.namers k).any fun n => (p.slot n).op == 0x45) + 2 * b2n ((p.namers k).any fun n => (p.slot n).op == 0x46)

/-- No rule that names one of the nodes reaches a rule that names the other. -/
def Folio.apart (f : Folio) (p : EPart) (a b : Nat) : Bool :=
  let hit := fun (x y : Nat) => (p.namers x).any fun m => (p.namers y).any fun n => (f.reach p m).contains n
  !(hit a b) && !(hit b a)

/-- Bytes of a node's declared range from its origin. -/
def NodeDesc.span (d : NodeDesc) : Nat := d.count * 2 ^ d.width

/-- Two byte ranges meet. -/
def spansMeet (a n b m : Nat) : Bool := decide (a < b + m) && decide (b < a + n)

/-- The pair is decided at loading: both absolute in one space, or both relative to one pattern register in one space (R292). -/
def staticPair (a b : NodeDesc) : Bool := a.space == b.space && ((!a.prel && !b.prel) || (a.prel && b.prel && a.pat == b.pat))

/-- Two different nodes can race: related spaces, a writer, and no path between their rules (R292). -/
def Folio.unordered (f : Folio) (p : EPart) (a b : Nat) : Bool :=
  let x := p.node a
  let y := p.node b
  (x.space == y.space || (x.space + y.space == 3 && x.space != 0 && y.space != 0)) && (decide (2 ≤ p.acc a) || decide (2 ≤ p.acc b)) && f.apart p a b

/-- The pairs a ≤ b that conflict at loading (R292); a pair (k, k) is a writing node off every cycle. -/
def Folio.conflicts (f : Folio) (p : EPart) : List (Nat × Nat) :=
  p.named.flatMap fun a => p.named.filterMap fun b =>
    if a = b then (if 2 ≤ p.acc a && !((p.namers a).any fun m => (f.reach p m).contains m) then some (a, a) else none)
    else if a < b && staticPair (p.node a) (p.node b) && spansMeet (p.node a).off (p.node a).span (p.node b).off (p.node b).span && f.unordered p a b
    then some (a, b) else none

/-- The part of a range of space 2 that lies in window w of 4 MB, with the tile that the window resolves to: a place of tile u as (8 + u, first
byte, length), one of no tile as (2, first byte, length) (R293). -/
def State.windowRange (s : State) (a n w : Nat) : Nat × Nat × Nat :=
  let lo := max a (w * 2 ^ 22)
  let len := min (a + n) ((w + 1) * 2 ^ 22) - lo
  match (if w < 2 ^ 12 then s.remoteTile s.cur.1 w else none) with
  | some u => (8 + u, lo % 2 ^ 22, len)
  | none => (2, lo, len)

/-- A node's ranges at issue: space, first byte and length; those of spaces 1 and 2 by the tile they lie on (R215, R293). -/
def State.nodeRanges (s : State) (d : NodeDesc) (imgs : List Nat) : List (Nat × Nat × Nat) :=
  let a := (if d.prel then (patOf (imgs.getD d.pat 0)).base else 0) + d.off
  if d.space = 1 then [(8 + s.cur.1, a, d.span)]
  else if d.space = 2 then (List.range ((a + d.span - 1) / 2 ^ 22 + 1 - a / 2 ^ 22)).map fun k => s.windowRange a d.span (a / 2 ^ 22 + k)
  else [(d.space, a, d.span)]

/-- The deferred check of a BLOCK.G instance: TRAPAUX of the first overlapping pair (R293). `skip` images stand before the p registers. -/
def State.raceFails (s : State) (cls : Nat) (imgs : List Nat) (skip : Nat) (f : Folio) : Option Nat :=
  match f.epart with
  | none => none
  | some p =>
    if cls ≠ 6 || s.myLaunch.perm then none
    else
      let regs := imgs.drop skip
      p.named.findSome? fun a => (p.named.find? fun b =>
        let meet := (s.nodeRanges (p.node a) regs).any fun x => (s.nodeRanges (p.node b) regs).any fun y =>
          x.1 == y.1 && spansMeet x.2.1 x.2.2 y.2.1 y.2.2
        decide (a < b) && !staticPair (p.node a) (p.node b) && meet && f.unordered p a b).map fun b => 9 + a * 2 ^ 8 + b * 2 ^ 13

end Sys2Proof.Machine
end

