-- ==== Sys2Proof/Machine/BlockIssue.lean ====
section
/-! DEFINITION. The block instructions: issue, and resumption of a continuation (R85, R169 to R171, R179, R186, R237, R293). -/

namespace Sys2Proof.Machine

/-- The block instruction at the header of a continuation resumes its instance (R186): the failing elements are read again. -/
def State.resumeBlock (s : State) (cls : Nat) (b : BlockArgs) : State :=
  let s := s.modMe fun c => { c with cont := none, wait := some (.block cls b [] [] s.myTile.res []) }
  let keys := (mget ⟨0, 0, 0, 0, 0, 0, 0, 0, none⟩ s.myLaunch.folios b.folio).keys
  let s := s.refresh s.cur.1 (keys.filter (· < 16)) ((keys.filter (16 ≤ ·)).map (· - 16))
  match s.myTile.heldOf s.cur.2 with
  | some (r, _) => s.modMyTile fun tl => tl.modInst r.qmask fun i => { i with held := false, fault := none }
  | none => s

/-- A new instance of a block instruction (R85, R169 to R171, R179, R237): checked at issue, then the context waits as a thread token, where a
kill that is due is taken (R267). DESIGN CHOICE (log 65): of a block with a reserved operand format that both R42 and R171 refuse, cause 0x0B
comes before 0x02. -/
def State.issueBlock (s : State) (cls : Nat) (b : BlockArgs) : State :=
  match mfind b.folio s.myLaunch.folios with
  | none => s.trapNow 0x04 s.pc.toNat b.folio
  | some f =>
    let imgs := b.binds.map (fun x => (s.getP x.pat).toNat) ++ (if cls = 6 then (List.range 16).map fun k => (s.getP k).toNat else [])
    let ctrs := b.binds.map fun x => s.nx x.ctr
    match s.blockFails cls b imgs f <|> s.raceFails cls imgs (imgs.length - 16) f with
    | some aux => s.trapNow 0x0B 0 aux
    | none =>
      let cmds := s.bindCmds s.cur.1 b imgs ctrs f
      match cmds.findSome? fun c => s.streamFault c.entry c.reg 0 with
      | some e => s.trapOn e
      | none =>
        if s.bindsRefused cmds then s.advanceBy (blockBytes b)
        else s.waitPoint (s.modMe fun c => { c with wait := some (.block cls b imgs ctrs s.myTile.res c.undone) })

/-- A block instruction: outside trap mode, at the header of a continuation, it resumes its instance (R186). -/
def State.block (s : State) (cls : Nat) (b : BlockArgs) : State :=
  if !s.me.trap && (match s.me.cont with | some h => h.2 == s.pc.toNat | none => false) then s.resumeBlock cls b else s.issueBlock cls b

def execBlockMWs (b : BlockArgs) (s : State) : Out := .next (s.block 0 b)
def execBlockMOs (b : BlockArgs) (s : State) : Out := .next (s.block 1 b)
def execBlockE (b : BlockArgs) (s : State) : Out := .next (s.block 2 b)
def execBlockA (b : BlockArgs) (s : State) : Out := .next (s.block 3 b)
def execBlockS (b : BlockArgs) (s : State) : Out := .next (s.block 4 b)
def execBlockZ (b : BlockArgs) (s : State) : Out := .next (s.block 5 b)
def execBlockG (b : BlockArgs) (s : State) : Out := .next (s.block 6 b)

end Sys2Proof.Machine
end

