-- ==== Sys2Proof/Machine/Copies.lean ====
section
/-! DEFINITION. Copy commands of major 0x80 (R229, R230, R241 to R245). -/

namespace Sys2Proof.Machine

/-- Source elements per destination element: 32 into an MX block format (R242). -/
def copyDiv (a b : Pat) : Nat := if isMxFmt b.fmt && !isBlockFmt a.fmt then 32 else 1

/-- The format pair of COPY and MCOPY (R242): equal formats of one width, or a conversion. -/
def pairOk (a b : Pat) : Bool :=
  if a.fmt == b.fmt then a.width == b.width
  else !isBlockFmt a.fmt && a.layout != 3 && b.layout != 3 && (!isBlockFmt b.fmt || isMxFmt b.fmt)

/-- The format pair of RCOPY (R244). -/
def reduceOk (op : Nat) (a b : Pat) : Bool :=
  a.fmt == b.fmt && a.layout != 3 && b.layout != 3 && (if op = 8 then a.fmt == 0x0D else isWide a.fmt)

/-- A destination over the tiles of a group: space 2, and a BASE that leaves room for the member (R243). -/
def groupBase (b : Pat) : Bool := b.space == 2 && bits b.base 33 22 == 0

/-- Is the destination a group, and how many destinations are there. -/
def QEntry.grouped (e : QEntry) : Bool := e.kind == .mcopy || (e.kind == .rcopy && e.inv)
def QEntry.copies (e : QEntry) : Nat := if e.grouped then e.members.length else 1

/-- The spaces of a copy (R241, R243, R244, R248). -/
def QEntry.spacesOk (e : QEntry) : Bool :=
  if e.grouped then groupBase e.patB
  else match e.kind with
    | .rcopy => [0, 1, 2, 5].contains e.patB.space
    | _ => true

/-- The checks of R248 for a copy; `valid` says that its group entry is valid. DESIGN CHOICE (log 66): a conversion into FP4-B8 fails in the first row,
by R50, and not in the row of format pairs. -/
def State.copyFault (s : State) (e : QEntry) (ra rb g : Nat) (valid : Bool) : Option Trap3 :=
  let a := e.patA
  let b := e.patB
  firstFail [
    (a.bad, (0x02, 0, ra)), (b.bad || (b.fmt == 0x17 && a.fmt != 0x17 && e.kind != .rcopy), (0x02, 0, rb)),
    (a.space == 7, (0x04, 0, ra)), (b.space == 7, (0x04, 0, rb)),
    (!e.spacesOk, (0x0B, 0, 3)),
    (a.count != b.count * (if e.kind = .rcopy then 1 else copyDiv a b), (0x0B, 0, 1)),
    (!(if e.kind = .rcopy then reduceOk e.port a b else pairOk a b), (0x0B, 0, 2)),
    (!valid, (0x04, 0, g))] <|> s.ctrFault e.ctr true

/-- t of a copy (R228). -/
def State.copyTime (s : State) (e : QEntry) : Option Nat :=
  let p := s.myPart
  let die := dieOf s.cur.1
  let a := e.patA
  let b := e.patB
  let n := beatCount (some a) (some b) (copyDiv a b) a.count
  (s.beatTime p die (n * e.copies) [a.space, b.space]).map fun t =>
    s.aTerm p die a.space + (if e.kind = .copy then 1 else 2) * s.aTerm p die b.space + t + 16

/-- The entry of a copy command: `inv` holds GRP, `port` the operation. -/
def State.copyEntry (s : State) (k : QKind) (q : QArgs) (members : List Nat) : QEntry :=
  let e := { QEntry.blank k with
    pa := (s.getP q.pa).toNat, pb := (s.getP q.pb).toNat, xt := q.xt, ctr := s.ctrOf q.ctr q.csp, rm := q.rm, sat := q.sat, aux := q.aux,
    port := q.port, inv := q.grp, members := members }
  { e with amount := if q.xt = 0 then e.patB.bytesOf e.patB.count * e.copies else s.nx q.xt }

/-- A copy command (R222, R228, R248, R318). -/
def State.copyCmd (s : State) (k : QKind) (q : QArgs) : State :=
  let needs := k == .mcopy || (k == .rcopy && q.grp)
  let g := if needs then s.groupOf q.aux else some []
  let e := s.copyEntry k q (g.getD [])
  match s.copyFault e q.pa q.pb q.aux g.isSome with
  | some f => s.trapOn f
  | none => s.finish q.queue q.qd e (if s.hostRefused [e.patA, e.patB] then none else s.copyTime e)

def execCopy (q : QArgs) (s : State) : Out := .next (s.copyCmd .copy q)
def execMcopy (q : QArgs) (s : State) : Out := .next (s.copyCmd .mcopy q)
def execRcopy (q : QArgs) (s : State) : Out := .next (s.copyCmd .rcopy q)

end Sys2Proof.Machine
end

