-- ==== Sys2Proof/Machine/ErrLog.lean ====
section
/-! DEFINITION. Detected errors: Clasp's log, the queue of self-tests, and the record in the partition's fault ring (R365, R372, R389). -/

namespace Sys2Proof.Machine

/-- The last 70 bits of an error record that `errRecord` leaves zero: quarter, index, meter (R389). -/
def recordTail (quarter index meter : Nat) : Nat := quarter % 4 * 2 ^ 70 + index % 1024 * 2 ^ 60 + meter % 16 * 2 ^ 56

/-- A record goes to Clasp's log, and to a partition's ring when the unit serves one. -/
def State.logRecord (s : State) (part : Option Nat) (rec : Nat) : State :=
  let s := s.modClasp fun c => { c with log := c.log ++ [[rec]] }
  match part with | some p => s.ringRecord p rec | none => s

/-- A detected hardware error (R389): logged, reported, and queued for the self-test of its unit. An HBM sector is named by the record's VALUE, its
physical address, and the record's INDEX is 0. -/
def State.detect (s : State) (part : Option Nat) (die value code ukind label quarter index : Nat) : State :=
  let rec_ := errRecord (s.die die).lclk value code 2 ukind die label (part.getD 0) + recordTail quarter (if ukind = 5 then 0 else index) 0
  (s.logRecord part rec_).modClasp fun c => { c with tests := c.tests ++ [⟨ukind, die, label, quarter, index, (s.die 24).cycle⟩] }

/-- A detected error of a link (R389): its record names a lane, which is open (log 57); its test is the link's (log 49). -/
def State.detectLink (s : State) (k code : Nat) : State :=
  let f := s.takeFree
  let die := (linkEnds k).1
  let s := f.2.logRecord none (errRecord (s.die die).lclk 0 code 2 4 die 0 0 + recordTail 0 f.1 0)
  s.modClasp fun c => { c with tests := c.tests ++ [⟨4, die, 0, 0, k, (s.die 24).cycle⟩] }

/-- A request of n bytes goes to a home and, for a read, its answer comes back: both carry logical time between dies and are metered at the links
(R367, R369, R373, R381). -/
def State.roundTrip (s : State) (p die : Nat) (h : Home) (n : Nat) (rd wr : Bool) : State :=
  let s := s.message p die (s.dieAt h) (if wr then flitsFor n else 1)
  if rd then s.message p (s.dieAt h) die (flitsFor n) else s

/-- What the memory edge does about n bytes of an access of partition p beside the access itself: its cache takes a walked entry of space 0
(R302), a read of a splicing page is forked (R310), a physical address outside the partition's granules is logged (R380), the request and the
answer to a read carry logical time between dies (R367), and the reserve tier's next answer is another one (log 4). -/
def State.edgeTouch (s : State) (v : Via) (p space va n : Nat) (h : Home) (rd wr : Bool) : State :=
  let s := if space = 0 then s.fillCache v.die p va rd wr else s
  match h with
  | .lost pa => (s.roundTrip p v.die h n rd wr).detect (some p) (s.dieAt (.lost pa)) pa 7 5 0 0 pa
  | .dev pa =>
    let s := ((if rd then s.fork pa n else s).roundTrip p v.die h n rd wr)
    if h.isReserve then { s with free := s.free + 1 } else s
  | .host .. => s.roundTrip p v.die h n rd wr
  | _ => s

/-- The edge's part in an access of space 0 by an agent other than a context's load or store, whether it faults or not (R302). -/
def State.edgeAt (s : State) (v : Via) (p va n : Nat) (rd wr : Bool) : State :=
  match s.translateVia v p va rd wr with
  | .error _ => s.fillCache v.die p va rd wr
  | .ok pa => s.edgeTouch v p 0 va n (s.devHome p pa) rd wr

/-- The edge's part in a read of a record of space 0, metered where HBM holds it (R381). -/
def State.readRecordAt (s : State) (die p va n : Nat) : State :=
  match s.translate die p va true false with
  | .error _ => s.fillCache die p va true false
  | .ok pa => (s.edgeTouch ⟨die, []⟩ p 0 va n (s.devHome p pa) true false).meterDev p (s.devHome p pa) n false


/-! Counter records (R38). -/

/-- A contribution of an agent on a die reaches a record: VALUE, the status bits and FCODE; a poisoned record is left as it is and reported. -/
def State.contribute (s : State) (p die : Nat) (h : Home) (recAddr amount : Nat) (cxl flt psn : Bool) (fcode : Nat) : State :=
  let bad := s.poisonRead h 16
  let s := s.edgeTouch ⟨die, []⟩ p (match h with | .dev _ | .lost _ => 0 | _ => 8) recAddr 16 h true true
  if bad then s.badRecord p die recAddr
  else
    let r := s.readHome h 16
    let v := (bits r 63 0 + amount) % 2 ^ 64
    let st := (bits r 66 64) ||| (b2n cxl + 2 * b2n flt + 4 * b2n psn)
    let fc := if flt then fcode else bits r 127 96
    ((s.meterDev p h 16 false).writeHome h 16 (v + st * 2 ^ 64 + bits r 95 67 * 2 ^ 67 + fc % 2 ^ 32 * 2 ^ 96)).meterDev p h 16 true

end Sys2Proof.Machine
end

