-- ==== Sys2Proof/Machine/Counter.lean ====
section
/-! DEFINITION. Completion counters of major 0x60 (R145 to R148). -/

namespace Sys2Proof.Machine

/-- The space of a counter instruction. -/
def ctrSpace (loc : Bool) : Nat := if loc then 1 else 0

/-- CADD: every check is made before it issues (R139, R146); the add is performed at the home. -/
def State.cadd (s : State) (loc : Bool) (d a amount : Nat) : State :=
  if !aligned a 16 then s.trapNow 0x05 a 0
  else match s.resolve s.cur.1 (ctrSpace loc) a 16 true true with
    | .error e => (s.missed e.1 a true true).trapNow e.1 a e.2
    | .ok h => if s.poisonHome h 16 then s.trapNow 0x07 a 0
      else (s.push { s.fresh .cadd (ctrSpace loc) a 16 with data := amount, dst := if d = 0 then .none else .x d, home := some h }).advance

def execCadd (loc : Bool) (d a b : Nat) (s : State) : Out := .next (s.cadd loc d (s.nx a) (s.nx b))

/-- CREAD: a plain read of VALUE (R146); its faults come with the result (R136). -/
def execCread (loc : Bool) (d a : Nat) (s : State) : Out :=
  let addr := s.nx a
  if !aligned addr 16 then .next (s.trapNow 0x05 addr 0)
  else if !s.rangeOk s.cur.1 (ctrSpace loc) addr 16 then .next (s.trapNow 0x04 addr 0)
  else .next ((s.push { s.fresh .cread (ctrSpace loc) addr 16 with dst := .x d }).advance)

/-- What a look at the record of a CWAIT says. -/
inductive CLook where
  | wait
  | trap (cause aux : Nat)
  | done (status : Nat)
  deriving DecidableEq, Repr

/-- One look at the record (R146, R147): it waits for the context's own earlier accesses that order it. -/
def State.clook (s : State) (t c : Nat) (loc : Bool) (addr target : Nat) : CLook :=
  match s.resolve t (ctrSpace loc) addr 16 true false with
  | .error e => .trap e.1 e.2
  | .ok h =>
    if !(s.ctx t c).mayRead (ctrSpace loc) addr 16 then .wait
    else if s.poisonRead h 16 then .trap 0x07 0
    else if target ≤ bits (s.readHome h 16) 63 0 then .done (bits (s.readHome h 16) 127 64) else .wait

/-- The memory edge's part in the look that ends a CWAIT (R302, R310, R380, R381); the earlier looks, which find nothing, leave no trace (log 64). -/
def State.lookEnds (s : State) (t : Nat) (loc : Bool) (addr : Nat) : State :=
  if loc then s else s.readRecordAt (dieOf t) (s.partId t) addr 16

/-- CWAIT: done at once when the record meets the target, else the context waits (R146, R147). -/
def execCwait (loc : Bool) (d a b : Nat) (s : State) : Out :=
  let addr := s.nx a
  .next (s.waitPoint (if !aligned addr 16 then s.trapNow 0x05 addr 0
    else match s.clook s.cur.1 s.cur.2 loc addr (s.nx b) with
    | .trap cause aux => (s.lookEnds s.cur.1 loc addr).trapNow cause addr aux
    | .done st => ((s.lookEnds s.cur.1 loc addr).setX d (BitVec.ofNat 64 st)).advance
    | .wait => s.modMe fun c => { c with wait := some (.cwait loc d addr (s.nx b)) }))

end Sys2Proof.Machine
end

