-- ==== Sys2Proof/Machine/Gates.lean ====
section
/-! DEFINITION. Gates of majors 0x72 and 0x81, and waiting on queues (R238 to R240, R246, R247). -/

namespace Sys2Proof.Machine

/-- The bytes a configuration takes to load: ⌈SIZE / 256⌉ + PLEN (R228). -/
def Folio.loadTime (f : Folio) : Nat := cdiv f.size 256 + f.plen

def State.folio (s : State) (l k : Nat) : Folio := mget ⟨0, 0, 0, 0, 0, 0, 0, 0, none⟩ (s.launch l).folios k

/-- The loads and sweeps in progress on a quarter mask, with their folios (R238). -/
def Tile.configs (tl : Tile) (qmask : Nat) : List (Nat × Nat) :=
  ((tl.loads.filter fun l => masksMeet l.qmask qmask).map fun l => (l.id, l.folio))
    ++ (tl.sweeps.filter fun w => masksMeet w.qmask qmask).map fun w => (w.id, w.folio)

/-- An SBAR (R238): with a quarter mask it also waits for the configurations in progress there. -/
def State.sbar (s : State) (k : QKind) (q qd qmask : Nat) : State :=
  let cfg := s.myTile.configs qmask
  let more := cfg.foldl (fun m c => max m (s.folio s.myLid c.2).loadTime) 0
  s.finish q qd { QEntry.blank k with mask := qmask, waits := cfg.map (·.1) } (some (4 + more))

def execSbarRd (q qd qmask : Nat) (s : State) : Out := .next (s.sbar .sbarRd q qd qmask)
def execSbarWr (q qd qmask : Nat) (s : State) : Out := .next (s.sbar .sbarWr q qd qmask)
def execSbarAll (q qd qmask : Nat) (s : State) : Out := .next (s.sbar .sbarAll q qd qmask)

/-- SCOND (R239): target and record address are read at issue, and the record is checked as a transfer's is. -/
def execScond (q xt qd ctr csp : Nat) (inv : Bool) (skip : Nat) (s : State) : Out :=
  let e := { QEntry.blank .scond with xt := s.nx xt, ctr := some (csp, s.nx ctr), inv := inv, mask := skip }
  match s.ctrFault e.ctr true with
  | some f => .next (s.trapOn f)
  | none => .next (s.finish q qd e (some 4))

/-- Every entry in the queues of a mask. -/
def Tile.inQueues (tl : Tile) (mask : Nat) : List Nat :=
  tl.queues.flatMap fun q => if bit mask q.1 then q.2.entries.map (·.id) else []

/-- STITCH (R240): the entries now in the other queues of its mask. -/
def execStitch (q qd mask : Nat) (s : State) : Out :=
  .next (s.finish q qd { QEntry.blank .stitch with mask := mask, waits := s.myTile.inQueues (if bit mask q then mask - 2 ^ q else mask) } (some 4))

/-- Every one of the entries has retired or passed. -/
def Tile.left (tl : Tile) (ids : List Nat) : Bool := ids.all fun i => (tl.entry i).isNone

/-- QWAIT (R246): the context waits for the entries that are in the queues now. -/
def execQwait (mask : Nat) (s : State) : Out :=
  let ids := s.myTile.inQueues mask
  .next (s.waitPoint (if ids.isEmpty then s.advance else s.modMe fun c => { c with wait := some (.qwait ids) }))

/-- The words of QSTAT (R247). -/
def Queue.word (q : Queue) (sel : Nat) : Nat :=
  let ix := fun k => q.fidx.getD k 0
  match sel with
  | 0 => q.retired * 2 ^ 32 + q.entries.length * 2 ^ 16 + b2n (match q.entries.head? with | some e => e.began | none => false) * 2 + b2n q.fv
  | 1 => q.faddr
  | 2 => ix 2 * 2 ^ 40 + ix 1 * 2 ^ 20 + ix 0
  | _ => q.fretired * 2 ^ 32 + ix 3 * 2 ^ 8 + q.fcause

/-- QSTAT (R247): the word is read before FV is cleared. -/
def execQstat (q xd sel : Nat) (clr : Bool) (s : State) : Out :=
  let s' := s.setX xd (BitVec.ofNat 64 ((s.myTile.queue q).word sel))
  .next ((if clr then s'.modMyTile fun tl => tl.modQueue q fun u => { u with fv := false } else s').advance)

end Sys2Proof.Machine
end

