-- ==== Sys2Proof/Machine/Region.lean ====
section
/-! DEFINITION. Reconfiguration, drain, spine and accumulator control, major 0xB8 (R190 to R195). -/

namespace Sys2Proof.Machine

/-- The shadow of exactly this mask (R162): none where only a part of the mask, or more than it, was loaded (DESIGN CHOICE, log 65). -/
def Tile.shadowOf (tl : Tile) (qmask : Nat) : Option Nat := (tl.shadow.find? fun e => e.1 == qmask).map (·.2)
/-- Shadows and unfinished loads that share a quarter with the mask are no more (R162, R192). -/
def Tile.dropShadow (tl : Tile) (qmask : Nat) : Tile :=
  { tl with shadow := tl.shadow.filter (fun e => !masksMeet e.1 qmask), loads := tl.loads.filter fun e => !masksMeet e.qmask qmask }

/-- A load of a folio into the shadow starts (R190). -/
def Tile.startLoad (tl : Tile) (qmask folio time : Nat) (by_ : Option (Nat × Nat × Nat)) : Tile :=
  let tl := tl.dropShadow qmask
  { tl with loads := tl.loads ++ [⟨tl.nextId + 1, qmask, folio, by_, time, time⟩], nextId := tl.nextId + 1 }

/-- The cycles of a load (R181). -/
def Folio.loadCycles (f : Folio) : Nat := cdiv f.size 256

/-- CFGLD (R190). -/
def execCfgld (qmask folio : Nat) (s : State) : Out :=
  match mfind folio s.myLaunch.folios with
  | none => .next (s.trapNow 0x04 s.pc.toNat folio)
  | some f => .next ((s.modMyTile fun tl => tl.startLoad qmask folio f.loadCycles (some (s.cur.2, s.me.serial, s.pc.toNat))).advance)

/-- The switch token leaves; it takes `time` cycles to pass (R181, R190, R191). -/
def Tile.startSweep (tl : Tile) (qmask folio at_ time : Nat) : Tile :=
  { tl with sweeps := tl.sweeps ++ [⟨tl.nextId + 1, qmask, folio, at_, time⟩], nextId := tl.nextId + 1 }

/-- CFGSW (R190): the second one of a cycle on one mask traps (R192). -/
def execCfgsw (qmask : Nat) (s : State) : Out :=
  let now := (s.die (dieOf s.cur.1)).cycle
  match s.myTile.shadowOf qmask with
  | none => .next (s.trapNow 0x0E s.pc.toNat 6)
  | some f =>
    if s.myTile.sweeps.any fun w => w.qmask == qmask && w.at_ == now then .next (s.trapNow 0x0E s.pc.toNat 6)
    else .next ((s.modMyTile fun tl => tl.startSweep qmask f now (s.folio s.myLid f).plen).advance)

/-- No run, load or sweep is in progress on the mask (R190). -/
def Tile.drained (tl : Tile) (qmask : Nat) : Bool :=
  !tl.owned qmask && !(tl.loads.any fun e => masksMeet e.qmask qmask) && !tl.sweeps.any fun e => masksMeet e.qmask qmask

/-- BDRAIN (R190): a waiting state. -/
def execBdrain (qmask : Nat) (s : State) : Out :=
  .next (s.waitPoint (if s.myTile.drained qmask then s.advance else s.modMe fun c => { c with wait := some (.bdrain qmask) }))

/-- The later of two statuses; of one instance on two quarters, the flags of both. -/
def BStat.later (a b : BStat) : BStat :=
  if a.no < b.no then b else if b.no < a.no then a else { b with ls := a.ls || b.ls, cinv := a.cinv || b.cinv }

/-- The status of the latest instance of a context that used quarters of the mask (R195). -/
def Ctx.statusOf (c : Ctx) (qmask : Nat) : BStat := ((c.bstat.filter fun e => bit qmask e.1).map (·.2)).foldl BStat.later BStat.reset

/-- The live folio of a mask: every quarter holds the same one. DESIGN CHOICE (log 64): loads of one folio on parts of a mask, one after the other,
make it live on the mask. -/
def Tile.liveOf (tl : Tile) (qmask : Nat) : Option Nat :=
  let l := (quartersOf qmask).map fun q => mfind q tl.live
  match l.head? with
  | some (some f) => if l.all fun x => x == some f then some f else none
  | _ => none

/-- The words of BSTAT (R195). DESIGN CHOICE (log 65): SHADOW and SFOLIO are those of a shadow loaded for exactly this mask. -/
def State.bstatWord (s : State) (qmask sel : Nat) : Nat :=
  let tl := s.myTile
  let c := s.me
  let b := c.statusOf qmask
  match sel with
  | 0 =>
    min b.beats (2 ^ 32 - 1) * 2 ^ 32 + (tl.shadowOf qmask).getD 0 * 2 ^ 20 + (tl.liveOf qmask).getD 0 * 2 ^ 8 + b2n (c.cont.any fun h => masksMeet h.1 qmask) * 2 ^ 6
      + b2n b.cinv * 2 ^ 5 + b2n b.stray * 2 ^ 4 + b2n b.ls * 2 ^ 3 + b2n (tl.shadowOf qmask).isSome * 2 ^ 2 + b2n (tl.liveOf qmask).isSome * 2
      + b2n (tl.owned qmask || tl.sweeps.any fun e => masksMeet e.qmask qmask)
  | 1 => b.i2 * 2 ^ 40 + b.i1 * 2 ^ 20 + b.i0
  | 2 => b.i3
  | _ => min b.strays (2 ^ 32 - 1)

def execBstat (d qmask sel : Nat) (s : State) : Out := .next ((s.setX d (BitVec.ofNat 64 (s.bstatWord qmask sel))).advance)

/-- SPINE (R194): an override, or none, for each quarter of the mask. -/
def execSpine (qmask : Nat) (win : Option Nat) (acc : Nat) (s : State) : Out :=
  let set := fun (m : Map Nat) (v : Option Nat) => (quartersOf qmask).foldl (fun m q => match v with | some w => mput m q w | none => mdel q m) m
  .next ((s.modMe fun c => { c with
    regs := { c.regs with spineWin := set c.regs.spineWin win, spineAcc := set c.regs.spineAcc (if acc = 0 then none else some acc) } }).advance)

/-! ACCRD (R194). -/

/-- The nodes of a mask in order: node ascending, then quarter ascending; each with its quarter. -/
def nodesOf (qmask : Nat) : List (Nat × Nat) := (List.range 512).flatMap fun n => (quartersOf qmask).map fun q => (q, n)

/-- Values in blocks of 32. -/
def chunks {α : Type} (k : Nat) : Nat → List α → List (List α)
  | 0, _ => []
  | n + 1, l => if l.isEmpty then [] else l.take k :: chunks k n (l.drop k)

/-- Values converted to a result format, MX blocks by R61. -/
def egressElems (fmt : Nat) (rm : Rm) (sat : Bool) (l : List Num) : List (Nat × Exc) :=
  if isMxFmt fmt then (chunks 32 l.length l).map fun b => encodeMx fmt rm sat b else l.map fun x => roundNum fmt rm sat x

/-- A group of 16 results compressed into its storage bits (R51, R52); none on overflow. DESIGN CHOICE (log 66): a result counts as nonzero by its exact
value, before it is rounded to the output format. -/
def packGroup (p : Pat) (rm : Rm) (sat : Bool) (l : List Num) : Option (Nat × Bool) :=
  let n := p.nval
  let w := fmtWidth p.fmt
  (compress n l).map fun k =>
    let e := k.map fun x => (x.1, roundNum p.fmt rm sat x.2)
    ((e.zipIdx.map fun x => x.1.2.1 % 2 ^ w * 2 ^ (w * x.2) + x.1.1 * 2 ^ (n * w + 4 * x.2)).sum, e.any fun x => x.2.2.ci)

/-- The elements of full units: bits and conversion-invalid; none on overflow. -/
def egressWhole (p : Pat) (rm : Rm) (sat : Bool) (l : List Num) : Option (List (Nat × Bool)) :=
  if p.layout = 3 then (chunks 16 l.length l).mapM fun g => packGroup p rm sat g
  else some ((egressElems p.fmt rm sat l).map fun r => (r.1, r.2.ci))

/-- Where ACCRD sends to: a stream bound to the port with the right count; else the reason of R171. -/
def State.accrdFault (s : State) (qmask ep : Nat) : Option Nat :=
  match (s.myTile.port (16 + ep)).holder.bind fun h => s.myTile.entry h.2 with
  | none => some 2
  | some e => if patCount e.patA (512 * (quartersOf qmask).length) == some (s.myTile.toGo (16 + ep) e) then none else some 3

/-- The flags of a mask's nodes as LSSUM bits. -/
def Tile.lostBits (tl : Tile) (qmask : Nat) : Nat :=
  ((quartersOf qmask).map fun q => if (List.range 512).any (fun n => (tl.node q n).2) then 2 ^ q else 0).sum

/-- A context's status of quarters after a flag or an invalid conversion, on every quarter of the instances it belongs to (R195). -/
def Ctx.addStatus (c : Ctx) (qmask lost : Nat) (ci : Bool) : Ctx :=
  let m := (quartersOf qmask).foldl (fun m q => mmod BStat.reset m q id) c.bstat
  let nos := (m.filter fun e => bit qmask e.1).map (·.2.no)
  { c with bstat := m.map (fun e => (e.1, if bit qmask e.1 || (e.2.no != 0 && nos.contains e.2.no)
             then { e.2 with ls := e.2.ls || lost != 0, cinv := e.2.cinv || ci } else e.2)),
           regs := { c.regs with lssum := orLssum c.regs.lssum lost } }

/-- Nodes that carry poison make the elements that they contribute to poison, `per` nodes to an element (R139, R242). -/
def Tile.accrdPoison (tl : Tile) (qmask per : Nat) : List Bool :=
  (chunks per 2048 (nodesOf qmask)).map fun l => l.any fun x => tl.accPoison.contains (x.1 * 512 + x.2)

/-- The pattern that ACCRD sends through, and the values of the nodes it reads, in order. -/
def State.accrdPat (s : State) (ep : Nat) : Pat :=
  (((s.myTile.port (16 + ep)).holder.bind fun h => s.myTile.entry h.2).map fun e => e.patA).getD (patOf 0)
def State.accrdVals (s : State) (qmask : Nat) : List Num :=
  (nodesOf qmask).map fun x => nodeNum (s.myTile.nodeFmt x.1) (s.myTile.node x.1 x.2).1

/-- ACCRD (R194). A compressed group that would hold too many nonzero values traps as R52 has it for a block. -/
def execAccrd (qmask ep : Nat) (clr : Bool) (rm : Nat) (sat : Bool) (s : State) : Out :=
  match s.accrdFault qmask ep with
  | some r => .next (s.trapNow 0x0B 0 (r + keyAux (16 + ep)))
  | none =>
    let pat := s.accrdPat ep
    match egressWhole pat (Rm.ofCode rm) sat (s.accrdVals qmask) with
    | none => .next (s.trapNow 0x0C 0 0)
    | some out =>
      let s := s.modMe fun c => c.addStatus qmask (s.myTile.lostBits qmask) (out.any (·.2))
      let s := s.modMyTile fun tl =>
        let psn := tl.accrdPoison qmask (if pat.layout = 3 then 16 else if isMxFmt pat.fmt then 32 else 1)
        let els := out.zipIdx.map fun r => PElem.mk r.1.1 pat.fmt (if pat.layout = 3 then pat.nval else 0) (psn.getD r.2 false) 0
        let tl := { tl with eps := mmod Port.reset tl.eps ep fun p => { p with fifo := p.fifo ++ els } }
        if clr then tl.clearNodes qmask else tl
      .next s.advance

/-- ACCCLR (R194). -/
def execAccclr (qmask : Nat) (s : State) : Out := .next ((s.modMyTile fun tl => tl.clearNodes qmask).advance)

end Sys2Proof.Machine
end

