-- ==== Sys2Proof/Machine/BlockMath.lean ====
section
/-! DEFINITION. The arithmetic of a block beat: operand elements, groups, nodes, release and egress (R51 to R53, R61, R62, R64 to R70, R168,
R170, R172 to R177, R183, R194). -/

namespace Sys2Proof.Machine

/-! Operand values. One pattern element is spread into the values it holds: 32 of an MX block, 8 of an FP4-B8 block, the 16 positions of a
compressed group. A spread value of a block keeps the block's bits below its number. -/

/-- The format code that marks a dropped position of a compressed group. -/
def dropFmt : Nat := 0x1F

/-- The values of an element. -/
def PElem.spread (x : PElem) : List PElem :=
  if x.grp ≠ 0 then
    let n := x.grp
    let w := fmtWidth x.fmt
    (List.range 16).map fun k =>
      match (List.range n).find? fun j => Sys2Proof.bits x.bits (n * w + 4 * j + 3) (n * w + 4 * j) == k with
      | some j => { x with bits := Sys2Proof.bits x.bits (w * j + w - 1) (w * j) }
      | none => { x with bits := 0, fmt := dropFmt }
  else
    let m := if isMxFmt x.fmt then 32 else if x.fmt = 0x17 then 8 else 1
    if m = 1 then [x] else (List.range m).map fun j => { x with bits := x.bits + j * 2 ^ fmtWidth x.fmt }

/-- The block of a spread value, and its number in the block. -/
def PElem.block (x : PElem) : Nat := x.bits % 2 ^ fmtWidth x.fmt
def PElem.place (x : PElem) : Nat := x.bits / 2 ^ fmtWidth x.fmt

/-- The exact value (R45 to R50). -/
def PElem.value (x : PElem) : Num :=
  if x.fmt = dropFmt then .zero false
  else if isMxFmt x.fmt then (decodeMx x.fmt x.block).getD x.place (.zero false)
  else if x.fmt = 0x17 then (mulNum ((decodeB8 x.block).getD x.place (.zero false)) (scaleB8 x.block)).1
  else decodeNum x.fmt x.bits


/-- The values of elements taken together: the first of each, then the second of each. -/
def rowValues (l : List PElem) : List PElem :=
  let v := l.map PElem.spread
  (List.range (v.headD []).length).flatMap fun j => v.filterMap (·[j]?)

/-- An operand pair with the K positions of its two values, each counted in its own stream's order. -/
structure Pair where
  ka : Nat
  ks : Nat
  a : PElem
  s : PElem

/-- The pair that follows lies in the same block of either operand (R50, R64). -/
def Pair.sameBlock (p q : Pair) : Bool := p.ka / 8 == q.ka / 8 && p.ks / 8 == q.ks / 8

/-- FP4-B8 pairs in runs that lie in one block each: one block of 8 K positions is one term (R64, R69). -/
def b8Runs : List Pair → List (List Pair)
  | [] => []
  | p :: t => match b8Runs t with
    | [] => [[p]]
    | c :: r => if (match c.head? with | some q => p.sameBlock q | none => false) then (p :: c) :: r else [p] :: c :: r

/-- The exact term of a run (R69). -/
def b8RunTerm (l : List Pair) : Num :=
  let e := fun (x : PElem) => (decodeB8 x.block).getD x.place (.zero false)
  let s := l.foldl (fun t p => (addNum t (mulNum (e p.a) (e p.s)).1 false).1) (.zero false)
  match l.head? with
  | none => s
  | some p => (mulNum (mulNum s (scaleB8 p.a.block)).1 (scaleB8 p.s.block)).1

/-- The terms of paired operands (R64, R65, R69). -/
def termsOf (l : List Pair) : List Num :=
  if l.all fun p => p.a.fmt == 0x17 && p.s.fmt == 0x17 then (b8Runs l).map b8RunTerm else l.map fun p => (mulNum p.a.value p.s.value).1

/-! What a beat takes (R168, R170, R172 to R177). -/

/-- Beat k opens a reduction, ends one, and releases it. -/
def opensAt (b : BlockArgs) (k : Nat) : Bool := k % blkPeriod b == 0
def endsAt (b : BlockArgs) (k : Nat) : Bool := (k + 1) % blkPeriod b == 0
def releasesAt (cls : Nat) (b : BlockArgs) (k : Nat) : Bool :=
  endsAt b k && (cls == 4 || !(b.hold && k / blkPeriod b + 1 == blkRn b))

/-- K positions of a beat per lane: Kd in BLOCK.Z. -/
def beatK (cls : Nat) (b : BlockArgs) : Nat := if cls = 5 then blkKd b else (blkGeo b).k
/-- A beat opens a stationary panel. -/
def panelAt (cls : Nat) (b : BlockArgs) (k : Nat) : Bool := if cls = 1 then k % blkTrips0 b == 0 else k == 0
/-- Rows released once beat k has ended its reduction. -/
def rowsAt (cls : Nat) (b : BlockArgs) (k : Nat) : Nat := (k / blkPeriod b + 1) * blkBanks cls b

/-- The values of each role that must have been taken before beat k: those of S wait in `bufs` until the panel takes them, those of
roles 5 and 6, and those of A in BLOCK.S, stay there. `ext` is EXT0 of the stencil's A pattern. -/
def beatNeeds (cls : Nat) (b : BlockArgs) (hasC : Bool) (bands : Bool) (ext k : Nat) : List (Nat × Nat) :=
  let g := blkGeo b
  let kk := beatK cls b
  let c := fun (n : Nat) => if hasC && opensAt b k then [(4, n)] else []
  let bs := if bands && releasesAt cls b k then [(5, cdiv (rowsAt cls b k) 64), (6, cdiv g.l 64)] else []
  match cls with
  | 2 => [(1, g.ec), (3, g.ec)] ++ (if hasC then [(4, g.ec)] else [])
  | 3 => [(1, kk * g.l), (3, kk * g.l)] ++ c g.l
  | 4 => (if k = 0 then [(2, blkTaps b.weave)] else []) ++ [(1, min (blkBeats b * g.l) ((k + 1) * g.l + b.weave.rx + b.weave.ry * ext))]
  | _ => (if panelAt cls b k then [(2, kk * g.l)] else []) ++ [(1, kk)] ++ c (g.l * blkBanks cls b) ++ bs

def Inst.buf (i : Inst) (r : Nat) : List PElem := mget [] i.bufs r
/-- n values of a role leave its buffer. -/
def Inst.use (i : Inst) (r n : Nat) : Inst := { i with bufs := mput i.bufs r ((i.buf r).drop n) }

/-! Groups (R172, R174, R176, R177). -/

/-- Blocks of 16 positions. -/
def sixteens (n : Nat) (l : List PElem) : List (List PElem) := (List.range n).map fun g => (l.drop (16 * g)).take 16

/-- The kept positions of a group of S: as it stands when it came compressed, else compressed by R52; none on overflow. DESIGN CHOICE (log 66): all
values of a group that came compressed with another N than the weave's are terms. -/
def keptOf (n : Nat) (l : List PElem) : Option (List (Nat × PElem)) :=
  let ix := l.zipIdx.map fun p => (p.2, p.1)
  if l.any (·.grp != 0) then some (ix.filter fun p => p.2.fmt != dropFmt)
  else
    let nz := ix.filter fun p => !p.2.value.isZero
    if n < nz.length then none
    else
      let keep := nz ++ (ix.filter fun p => p.2.value.isZero).take (n - nz.length)
      some (sortBy (fun a b => decide (a.1 < b.1)) keep)

/-- Some group of a panel holds too many nonzero positions (R52, R177). -/
def panelOverflows (b : BlockArgs) (l : List PElem) : Bool := (sixteens (l.length / 16) l).any fun g => (keptOf (sprN b.weave) g).isNone

/-- The operand pairs of lane n in a beat. A streamed operand's K positions run on from beat to beat (R49, R172, R174, R177). -/
def lanePairs (cls : Nat) (b : BlockArgs) (a s panel : List PElem) (beat n : Nat) : List Pair :=
  let g := blkGeo b
  let kk := beatK cls b
  let k0 := beat * kk
  match cls with
  | 3 => (List.range kk).filterMap fun k => match a[k * g.l + n]?, s[k * g.l + n]? with | some x, some y => some ⟨k0 + k, k0 + k, x, y⟩ | _, _ => none
  | 5 =>
    let mine := (panel.drop (n * kk)).take kk
    (sixteens (kk / 16) mine).zipIdx.flatMap fun q => ((keptOf (sprN b.weave) q.1).getD []).filterMap fun e =>
      (a[16 * q.2 + e.1]?).map fun x => ⟨k0 + 16 * q.2 + e.1, n * kk + 16 * q.2 + e.1, x, e.2⟩
  | _ => (a.zip ((panel.drop (n * kk)).take kk)).zipIdx.map fun x => ⟨k0 + x.2, n * kk + x.2, x.1.1, x.1.2⟩

/-- The terms of the stencil result at A position r; `off` is the position of the first element taken (R176). -/
def stencilTerms (w : Weave) (p : Pat) (a coef : List PElem) (off r : Nat) : List Num :=
  let ix := p.index r
  let e := fun (k : Nat) => if p.dims < k then 1 else p.ext.getD k 1
  (List.range (2 * w.ry + 1)).flatMap fun (v : Nat) => (List.range (2 * w.rx + 1)).map fun (u : Nat) =>
    let x : Int := (ix.getD 0 0 : Nat) + (u : Int) - w.rx
    let y : Int := (ix.getD 1 0 : Nat) + (v : Int) - w.ry
    let at_ : Int := (r : Int) + ((u : Int) - w.rx) + ((v : Int) - w.ry) * (e 0 : Nat)
    let c := match coef[v * (2 * w.rx + 1) + u]? with | some z => z.value | none => .zero false
    let inside := decide (0 ≤ x) && decide (x < (e 0 : Nat)) && decide (0 ≤ y) && decide (y < (e 1 : Nat)) && decide ((off : Int) ≤ at_)
    let nb := if inside then (match a[Int.toNat (at_ - (off : Int))]? with | some z => z.value | none => .zero false) else .zero false
    (mulNum c nb).1

/-! Nodes (R172, R173, R194). -/

/-- Nodes take C or zero when a reduction opens (R173). -/
def Tile.openNodes (tl : Tile) (cls : Nat) (b : BlockArgs) (mode : Nat) (c : List PElem) : Tile :=
  (bankLanes cls b).zipIdx.foldl (fun (u : Tile) x =>
    let at_ := nodeAt b x.1.1 x.1.2
    u.setNode at_.1 at_.2 (match c.drop x.2 |>.head? with | some e => nodeOf mode e.value | none => 0) false) tl

/-- Each lane adds its group to its node of bank j. -/
def Tile.addGroups (tl : Tile) (b : BlockArgs) (mode w j : Nat) (terms : Nat → List Num) : Tile :=
  (List.range (blkGeo b).l).foldl (fun (u : Tile) n =>
    let at_ := nodeAt b j n
    let v := u.node at_.1 at_.2
    let r := addGroup (intKinds b.weave) mode w v.1 (terms n)
    u.setNode at_.1 at_.2 r.1 (v.2 || r.2)) tl

/-- The released values in order, the LSSUM bits of their flags, and the tile with the nodes cleared (R67, R173). -/
def Tile.release (tl : Tile) (cls : Nat) (b : BlockArgs) (mode : Nat) : List Num × Nat × Tile :=
  let l := (bankLanes cls b).map fun x => nodeAt b x.1 x.2
  (l.map fun x => nodeNum mode (tl.node x.1 x.2).1,
   ((nodeQuarters b).map fun q => if l.any (fun x => x.1 == q && (tl.node x.1 x.2).2) then 2 ^ q else 0).sum,
   l.foldl (fun (u : Tile) x => u.setNode x.1 x.2 0 false) tl)

/-- FP4-B8 results with their band scales; the first value lies in row m (R62). -/
def bandScale (b : BlockArgs) (bandA bandB : List PElem) (m : Nat) (l : List Num) : List Num :=
  if bandA.isEmpty && bandB.isEmpty then l
  else l.zipIdx.map fun x =>
    let row := m + x.2 / (blkGeo b).l
    let f := fun (s : List PElem) (k : Nat) => match s[k]? with | some e => e.value | none => .zero false
    (mulNum (mulNum x.1 (f bandA (row / 64))).1 (f bandB (x.2 % (blkGeo b).l / 64))).1

/-! Egress (R53, R57 to R62). -/

/-- An exact value kept as a number until its block of results is full, and back. -/
def packNum : Num → Nat
  | .nan _ => 0
  | .inf n => 1 + 4 * b2n n
  | .fin n m e => 2 + 4 * b2n n + 8 * ((e + 2 ^ 24).toNat % 2 ^ 25) + 2 ^ 28 * m
def unpackNum (v : Nat) : Num :=
  match v % 4 with
  | 0 => .nan false
  | 1 => .inf (bit v 2)
  | _ => .fin (bit v 2) (v / 2 ^ 28) ((bits v 27 3 : Int) - 2 ^ 24)

/-- The results that one stored element takes: 32 for an MX block, 16 for a compressed group. -/
def egressUnit (p : Pat) : Nat := if p.layout = 3 then 16 else if isMxFmt p.fmt then 32 else 1


/-- The instance takes results: full units go to its sink; none on overflow. -/
def Inst.emit (i : Inst) (p : Pat) (l : List Num) : Option Inst :=
  let all := ((i.buf 100).map fun e => unpackNum e.bits) ++ l
  let full := all.length / egressUnit p * egressUnit p
  (egressWhole p (Rm.ofCode i.blk.rm) i.blk.sat (all.take full)).map fun out =>
    { i with bufs := if (all.drop full).isEmpty then mdel 100 i.bufs else mput i.bufs 100 ((all.drop full).map fun x => ⟨packNum x, 0, 0, false, 0⟩),
             sink := i.sink ++ out.map (fun r => ⟨r.1, p.fmt, if p.layout = 3 then p.nval else 0, false, 0⟩),
             cinv := i.cinv || out.any (·.2) }

/-- What the edge unit of an egress port hands to its stream: a compressed group goes to a dense pattern expanded, with +0 in every position
that it does not name, in the output format (R53). -/
def Pat.egress (p : Pat) (rm : Rm) (sat : Bool) (x : PElem) : List PElem :=
  if x.grp = 0 || p.layout = 3 then [x]
  else (expand ((sparseGroup x.fmt x.grp x.bits).getD [])).map fun v => { x with bits := (roundNum p.fmt rm sat v).1, fmt := p.fmt, grp := 0 }

/-- A value of an expanded group that the output format cannot hold sets the region's conversion-invalid status (R59). -/
def Pat.egressInvalid (p : Pat) (rm : Rm) (sat : Bool) (x : PElem) : Bool :=
  x.grp != 0 && p.layout != 3 && (expand ((sparseGroup x.fmt x.grp x.bits).getD [])).any fun v => (roundNum p.fmt rm sat v).2.ci

/-! One beat (R172 to R177, R184). -/

/-- The accumulation mode and the window of an instance. -/
def Inst.mode (i : Inst) : Nat := nodeMode i.cls i.blk.weave i.acc
def Inst.window (i : Inst) : Nat := windowOf i.blk.weave i.win

/-- A beat of BLOCK.E (R175). -/
def Inst.elementBeat (i : Inst) (res : Pat) : Option Inst :=
  let b := i.blk
  let n := (blkGeo b).ec
  let at_ := fun (r k : Nat) => match (i.buf r)[k]? with | some e => e.value | none => Num.zero false
  let down := Rm.ofCode b.rm == .rdn
  let vals := (List.range n).map fun k =>
    if intKinds b.weave then Num.ofInt (eopInt b.weave.eop i.mode (at_ 1 k).toInt (at_ 3 k).toInt (at_ 4 k).toInt)
    else eopFloat b.weave.eop down (at_ 1 k) (at_ 3 k) (at_ 4 k)
  ((((i.use 1 n).use 3 n).use 4 n).emit res vals).map fun i => { i with beat := i.beat + 1 }

/-- The nodes of the region take the instance's mode at its first beat (R194). -/
def Tile.takeMode (tl : Tile) (i : Inst) : Tile :=
  if i.beat = 0 then (nodeQuarters i.blk).foldl (fun (u : Tile) q => u.setNodeFmt q i.mode) tl else tl

/-- A beat of the classes that sum groups: the instance and the tile after it, or none on an overflow of compressed results. `aPat` is the
pattern of A, `off` the position of the first element the instance took from it. -/
def Tile.sumBeat (tl : Tile) (i : Inst) (aPat res : Pat) (off : Nat) : Option (Inst × Tile) :=
  let b := i.blk
  let g := blkGeo b
  let k := i.beat
  let kk := beatK i.cls b
  let tl := tl.takeMode i
  let u := g.l * blkBanks i.cls b
  let i := if i.cls ≠ 3 && panelAt i.cls b k then
    (let n := if i.cls = 4 then blkTaps b.weave else kk * g.l; { i.use 2 n with panel := (i.buf 2).take n }) else i
  let kept := b.keep && i.cls ≠ 4 && k / blkPeriod b = 0
  let c := (i.buf 4).take u
  let tl := if opensAt b k && !kept then tl.openNodes i.cls b i.mode c else tl
  let i := if opensAt b k then i.use 4 u else i
  let a := i.buf 1
  let terms := fun (n : Nat) =>
    if i.cls = 4 then stencilTerms b.weave aPat a i.panel off (off + k * g.l + n)
    else termsOf (lanePairs i.cls b (a.take (if i.cls = 3 then kk * g.l else kk)) (i.buf 3) i.panel k n)
  let tl := tl.addGroups b i.mode i.window (if i.cls = 1 then k % blkTrips0 b else 0) terms
  let i := if i.cls = 4 then i else if i.cls = 3 then (i.use 1 (kk * g.l)).use 3 (kk * g.l) else i.use 1 kk
  let i := { i with beat := k + 1 }
  if releasesAt i.cls b k then
    let r := tl.release i.cls b i.mode
    let m := k / blkPeriod b * blkBanks i.cls b
    (({ i with lsq := i.lsq ||| r.2.1 }).emit res (bandScale b (i.buf 5) (i.buf 6) m r.1)).map fun i => (i, r.2.2)
  else some (i, tl)

end Sys2Proof.Machine
end

