-- ==== Sys2Proof/Machine/Flits.lean ====
section
/-! DEFINITION. Flits: payload fields, injection queues, control flits, malformed flits and status counters (R93 to R97, R354, R355, R360). -/

namespace Sys2Proof.Machine

/-- The tile number that stands for the memory edge as the source of a flit. -/
def edgeTile : Nat := 28 * 128

/-- The 48-bit header of a flit (R93). -/
def Flit.header (f : Flit) : Nat :=
  f.dtile % 128 * 2 ^ 41 + f.ddie % 32 * 2 ^ 36 + (if f.kind ≤ 2 then f.cls % 64 else 0) * 2 ^ 30 + f.kind % 8 * 2 ^ 27 + f.age % 256 * 2 ^ 19
    + f.seq % 4096 * 2 ^ 7 + f.part % 64 * 2 + b2n f.zero

/-- The payload fails its check value (R95). -/
def Flit.bad (f : Flit) : Bool := f.chk != crc16 f.payload

/-- A poisoned unit travels with a check value that fails (R95, R356; DESIGN CHOICE, log 57: the CRC with its lowest bit turned). -/
def Flit.poison (f : Flit) (psn : Bool) : Flit := if psn then { f with chk := crc16 f.payload ^^^ 1 } else f

/-- The check value is neither the payload's nor the mark of poison: the payload was changed on its way (R314, R389; log 57). -/
def Flit.failed (f : Flit) : Bool := f.bad && f.chk != crc16 f.payload ^^^ 1

/-- The injection queue of a tile, 16 flits, takes n more; a source that finds no room stalls (R349). -/
def Tile.room (tl : Tile) (n : Nat) : Bool := decide (tl.injq.length + n ≤ 16)

/-- A flit waits for injection at a tile (R349). -/
def Tile.inject (tl : Tile) (f : Flit) : Tile := { tl with injq := tl.injq ++ [f] }

/-- Class and RTYPE of a kind-3 flit (R94, R354). -/
def Flit.class_ (f : Flit) : Nat := bits f.payload 127 124
def Flit.rtype (f : Flit) : Nat := bits f.payload 123 120
def Flit.isClass (f : Flit) (c : Nat) : Bool := f.kind == 3 && f.class_ == c
def Flit.isResponse (f : Flit) (r : Nat) : Bool := f.isClass 4 && f.rtype == r
/-- A scheduler and pre-emption flit of an operation (R340). -/
def Flit.isSched (f : Flit) (op : Nat) : Bool := f.isClass 3 && f.rtype == op

/-- Window updates and stream ends (R354). -/
def ctlPayload (rtype sq port dir trk : Nat) : Nat := 4 * 2 ^ 124 + rtype * 2 ^ 120 + sq % 4096 * 2 ^ 108 + port * 2 ^ 104 + dir * 2 ^ 103 + trk * 2 ^ 99
/-- A drain token: its number, the port and the direction of its agent (R94). -/
def tokenPayload (no port dir : Nat) : Nat := no % 2 ^ 16 + port % 16 * 2 ^ 16 + dir % 2 * 2 ^ 20
/-- A cancel report: the home's cancel number and the counts, saturating (R340). -/
def reportPayload (slot purge kill cut drop : Nat) : Nat :=
  3 * 2 ^ 124 + 3 * 2 ^ 120 + slot % 256 * 2 ^ 112 + sat24 purge * 2 ^ 88 + sat24 kill * 2 ^ 64 + sat24 cut * 2 ^ 40 + sat24 drop * 2 ^ 16
/-- The scheduler's flits: 0 pre-empt request, with bit 112 set for a switch, 1 halted, 2 resume (R340). -/
def schedPayload (op : Nat) (toSave : Bool) : Nat := 3 * 2 ^ 124 + op * 2 ^ 120 + b2n toSave * 2 ^ 112
/-- A counter contribution (R355). -/
def ctrPayload (off : Nat) (psn flt cxl : Bool) (fcode amount : Nat) : Nat :=
  2 * 2 ^ 124 + off * 2 ^ 102 + b2n psn * 2 ^ 101 + b2n flt * 2 ^ 100 + b2n cxl * 2 ^ 99 + fcode % 256 * 2 ^ 91 + amount % 2 ^ 64

/-- A nonzero zero-field of R94 and R96. -/
def Flit.zeroBad (f : Flit) : Bool :=
  match f.kind with
  | 0 => bits f.payload 79 64 != 0 || bits f.payload 63 32 != 0
  | 1 => bits f.payload 79 64 != 0
  | 4 => bits f.payload 127 32 != 0
  | 5 => bits f.payload 127 21 != 0
  | _ => false

/-- A flit that its destination discards (R97); class 5 is malformed at a tile only. -/
def Flit.malformed (f : Flit) (atTile : Bool) : Bool :=
  decide (6 ≤ f.kind) || f.zero || decide (28 ≤ f.ddie) || f.zeroBad
    || (decide (f.kind ≤ 1) && f.cls % 16 != bits f.payload 121 118)
    || (f.kind == 3 && (decide (6 ≤ f.class_) || (f.class_ == 5 && atTile) || (f.class_ == 3 && decide (4 ≤ f.rtype))
        || (f.class_ == 4 && !(decide (1 ≤ f.rtype) && decide (f.rtype ≤ 4)))))

/-- A saturating 16-bit status count (R360). -/
def sat16 (n : Nat) : Nat := min (n + 1) 0xFFFF
def Tile.countMalf (tl : Tile) : Tile := { tl with router := { tl.router with malf := sat16 tl.router.malf } }

/-- The first flit of the intake that satisfies p, and the tile without it. -/
def Tile.takeIntake (tl : Tile) (p : Flit → Bool) : Option (Flit × Tile) := (takeFirst p tl.intake).map fun r => (r.1, { tl with intake := r.2 })

/-- A flit for the edge crossbar of a tile's die. -/
def Flit.toEdge (f : Flit) : Flit := { f with edge := true }

/-- The columns of the partition on a die that form one run with column c (R343): lowest and highest. -/
def runLow (cols : List Nat) : Nat → Nat → Nat
  | 0, c => c
  | n + 1, c => if 0 < c && cols.contains (c - 1) then runLow cols n (c - 1) else c
def runHigh (cols : List Nat) : Nat → Nat → Nat
  | 0, c => c
  | n + 1, c => if cols.contains (c + 1) then runHigh cols n (c + 1) else c

/-- Two tiles lie in one run of a partition (R343). -/
def State.sameRun (s : State) (p t u : Nat) : Bool :=
  let cols := s.columns p (dieOf t)
  dieOf t == dieOf u && cols.contains (columnOf u) && decide (runLow cols 16 (columnOf t) ≤ columnOf u) && decide (columnOf u ≤ runHigh cols 16 (columnOf t))

/-- A flit leaves tile t for tile u: inside the run, or edge-bound (R343). -/
def State.sendFlit (s : State) (t u : Nat) (f : Flit) : State :=
  s.modTile t fun tl => tl.inject (if s.sameRun (s.partId t) t u then f else f.toEdge)

/-- A flit leaves tile t for an agent behind its die's crossbar: it names its own tile, which no edge-bound flit to a tile does (log 57). -/
def State.sendEdge (s : State) (t : Nat) (f : Flit) : State := s.modTile t fun tl => tl.inject { f with dtile := labelOf t, ddie := dieOf t, edge := true }
/-- The flit is for the memory edge or the die scheduler of its own die. -/
def Flit.forEdge (f : Flit) (die : Nat) : Bool := f.edge && f.sdie == die && f.ddie == die && f.stile / 128 == die && f.dtile == f.stile % 128

/-- A flit that the edge of a tile's die sends to the tile waits for its column port (R351). -/
def State.fromEdge (s : State) (t : Nat) (f : Flit) : State :=
  s.modDie (dieOf t) fun d => { d with xbar := d.xbar ++ [⟨{ f with stile := edgeTile }, some (columnOf t)⟩] }

/-- A flit on its way on a die satisfies p: in an injection queue, the mesh, the crossbar, or an intake. -/
def State.onWay (s : State) (die : Nat) (p : Flit → Bool) : Bool :=
  ((s.die die).mesh.any fun m => p m.flit) || ((s.die die).xbar.any fun x => p x.flit)
    || s.tiles.any fun e => dieOf e.1 == die && (e.2.injq.any p || e.2.intake.any p)

end Sys2Proof.Machine
end

