-- ==== Sys2Proof/Machine/Transfer.lean ====
section
/-! DEFINITION. What the steps of engine queues share: moving one element of a copy, beats of streams, gathering buffers and trackers,
contributions (R225, R235, R241 to R245, R249, R352 to R354). -/

namespace Sys2Proof.Machine

/-- Every earlier access of the command's context is performed (R227). -/
def State.entryReady (s : State) (t : Nat) (e : QEntry) : Bool := !((s.ctx t e.ctx).outs.any fun a => e.after.contains a.id && !a.done)

/-! Copies. -/

/-- The destination patterns of a copy: one per member (R243). -/
def QEntry.targets (e : QEntry) : List Pat := if e.grouped then e.members.map fun v => { e.patB with base := e.patB.base + v * 2 ^ 22 } else [e.patB]

/-- A fault of a copy: cause, byte address, loop indices. -/
abbrev CopyFault := Nat × Nat × List Nat

/-- The source and the destination of a copy can share bytes (R241). -/
def QEntry.overlaps (e : QEntry) : Bool :=
  let a := e.patA.range
  let b := e.patB.range
  (e.patA.space == e.patB.space && decide (a.1 ≤ b.2) && decide (b.1 ≤ a.2)) || (e.patA.space + e.patB.space == 3 && e.patA.space != 0 && e.patB.space != 0)

/-- How a copy translates: at its own die's edge, with the pages that its probe holds (R245, R300, R309). -/
def QEntry.via (e : QEntry) (t : Nat) : Via := ⟨dieOf t, e.held⟩

/-- Source element j: bits and poison. A host read ends in an error, or gives free bytes with or without poison (R136, R249, R316); an
overlapped element is the old or the written one (R241; logs 4, 6). -/
def State.copySource (s : State) (t : Nat) (e : QEntry) (j : Nat) : Except CopyFault (Nat × Bool × State) :=
  let a := e.patA
  let ix := a.index j
  if a.space = 4 then
    match a.place j with
    | .error x => .error (x.1, x.2, ix)
    | .ok pl =>
      if !s.rangeOk t 4 pl.1 pl.2.1 then .error (0x04, pl.1, ix)
      else if Config.hostFails s.free then .error (0x08, pl.1, ix)
      else .ok (ofBytes ((List.range pl.2.1).map fun k => Config.hostByte s.free k) / 2 ^ pl.2.2 % 2 ^ a.width, Config.hostPoison s.free,
        { s with free := s.free + 1 })
  else match s.readElem (e.via t) t a j with
    | .error x => .error (x.1, x.2.2, ix)
    | .ok r => match e.old[j]? with
      | some v => .ok (if Config.overlapOld s.free then v else r.1, r.2.1, { s with free := s.free + 1 })
      | none => .ok (r.1, r.2.1, s)

/-- An element's bits in the destination format (R242). -/
def convertBits (a b : Pat) (rm : Nat) (sat : Bool) (v : Nat) : Nat :=
  if a.fmt = b.fmt then v else (roundNum b.fmt (Rm.ofCode rm) sat (decodeNum a.fmt v)).1

/-- Element k is written to every destination. A host write may end in an error (R136, R249; log 4). -/
def State.copyWrite (s : State) (v : Via) (t : Nat) (k x : Nat) (psn : Bool) : List Pat → Except CopyFault State
  | [] => .ok s
  | p :: rest => match s.writeElem v t p k x psn with
    | .error x => .error (x.1, x.2.2, p.index k)
    | .ok s' =>
      if p.space = 4 && Config.hostFails s.free then .error (0x08, (match p.place k with | .ok pl => pl.1 | .error _ => p.base), p.index k)
      else State.copyWrite (if p.space = 4 then { s' with free := s'.free + 1 } else s') v t k x psn rest

/-- The atomic operation of an RCOPY code (R244). -/
def reduceOp (op : Nat) : AmoOp :=
  match op with | 0 => .add | 1 => .and | 2 => .or | 3 => .xor | 4 => .mini | 5 => .maxi | 6 => .minn | _ => .maxn

/-- old combined with a (R244): an atomic of R142, or binary32 addition under rne. -/
def reduceBits (op fmt old a : Nat) : Nat :=
  if op = 8 then (roundNum 0x0D .rne false (addNum (decodeNum 0x0D old) (decodeNum 0x0D a) false).1).1 else amoNew (reduceOp op) (fmtWidth fmt / 8) old a 0

/-- Source element k is combined into every destination; poison on either side leaves the destination unchanged (R244). -/
def State.copyReduce (s : State) (t : Nat) (e : QEntry) (k v : Nat) (psn : Bool) : List Pat → Except CopyFault (State × Bool)
  | [] => .ok (s, psn)
  | p :: rest => match s.readElem (e.via t) t p k with
    | .error x => .error (x.1, x.2.2, p.index k)
    | .ok r =>
      if psn || r.2.1 then State.copyReduce s t e k v psn rest |>.map fun x => (x.1, true)
      else match s.writeElem (e.via t) t p k (reduceBits e.port p.fmt r.1 v) false with
        | .error x => .error (x.1, x.2.2, p.index k)
        | .ok s' => State.copyReduce s' t e k v psn rest

/-- The 32 values of a destination block that ends with source element j, and their poison. -/
def State.blockValues (s : State) (t : Nat) (e : QEntry) : Nat → Nat → Except CopyFault (List Num × Bool × State)
  | 0, _ => .ok ([], false, s)
  | n + 1, j => match s.copySource t e j with
    | .error x => .error x
    | .ok r => match State.blockValues r.2.2 t e n (j + 1) with
      | .error x => .error x
      | .ok u => .ok (decodeNum e.patA.fmt r.1 :: u.1, r.2.1 || u.2.1, u.2.2)

/-- Source element j moves (R241 to R244); the Bool is poison. -/
def State.copyElem (s : State) (t : Nat) (e : QEntry) (j : Nat) : Except CopyFault (State × Bool) :=
  if e.kind = .rcopy then
    match s.copySource t e j with
    | .error x => .error x
    | .ok r => r.2.2.copyReduce t e j r.1 r.2.1 e.targets
  else if copyDiv e.patA e.patB = 32 then
    if j % 32 ≠ 31 then (s.copySource t e j).map fun r => (s, r.2.1)
    else match s.blockValues t e 32 (j - 31) with
      | .error x => .error x
      | .ok r => (r.2.2.copyWrite (e.via t) t (j / 32) (encodeMx e.patB.fmt (Rm.ofCode e.rm) e.sat r.1).1 r.2.1 e.targets).map fun s' => (s', r.2.1)
  else match s.copySource t e j with
    | .error x => .error x
    | .ok r => (r.2.2.copyWrite (e.via t) t j (convertBits e.patA e.patB e.rm e.sat r.1) r.2.1 e.targets).map fun s' => (s', r.2.1)

/-- An entry whose fault ends it (R249). -/
def QEntry.faulted (e : QEntry) (x : CopyFault) : QEntry := { e with flt := true, fcode := x.1, faddr := x.2.1, fidx := x.2.2, st := .finished }

/-- n elements from the entry's position on, up to the first fault. DESIGN CHOICE (log 65): of the orders that R241 leaves to a copy's element
writes, that of the pattern. -/
def State.copyRun (s : State) (t : Nat) (e : QEntry) : Nat → State × QEntry
  | 0 => (s, if e.pos = e.patA.count then { e with st := .finished } else e)
  | n + 1 => match s.copyElem t e e.pos with
    | .error x => (s, e.faulted x)
    | .ok r => State.copyRun r.1 t { e with pos := e.pos + 1, psn := e.psn || r.2 } n

/-- The probe of R245: every destination element of every member, for writing, and for reading too in RCOPY. -/
def State.probe (s : State) (t : Nat) (e : QEntry) : Option CopyFault :=
  e.targets.findSome? fun p => (List.range p.count).findSome? fun k =>
    match s.elemAt (viaTile t) t p k (e.kind == .rcopy) true with | .error x => some (x.1, x.2.2, p.index k) | .ok _ => none

/-- The destination elements that a probe looks up, in their order, up to the first that faults. -/
def State.probed (s : State) (t : Nat) (e : QEntry) : List (Pat × Nat) :=
  let l := e.targets.flatMap fun p => (List.range p.count).map fun k => (p, k)
  l.take ((l.findIdx fun x => match s.elemAt (viaTile t) t x.1 x.2 (e.kind == .rcopy) true with | .error _ => true | .ok _ => false) + 1)

/-- The walks of a probe fill the edge's cache (R302). -/
def State.fillProbe (s : State) (t : Nat) (e : QEntry) : State :=
  (s.probed t e).foldl (fun s x => if x.1.space ≠ 0 then s else match x.1.place x.2 with
    | .error _ => s
    | .ok pl => [pl.1, pl.1 + pl.2.1 - 1].foldl (fun s a => s.fillCache (dieOf t) (s.partId t) a (e.kind == .rcopy) true) s) s

/-- The translations of a probe: a leaf for every page that a destination in space 0 touches (R245). -/
def State.probeLeaves (s : State) (t : Nat) (e : QEntry) : List Leaf :=
  (e.targets.flatMap fun p => if p.space ≠ 0 then [] else (List.range p.count).flatMap fun k =>
    match p.place k with
    | .error _ => []
    | .ok pl => s.heldLeaf (s.partId t) pl.1 ++ s.heldLeaf (s.partId t) (pl.1 + pl.2.1 - 1)).eraseDups

/-- What the memory edge does about one element beside its access, page by page. -/
def State.noteElem (s : State) (v : Via) (t : Nat) (p : Pat) (k : Nat) (rd wr : Bool) : State :=
  if p.space ≠ 0 && p.space ≠ 6 && p.space ≠ 4 then s
  else match s.elemAt v t p k rd wr with
    | .error x => if x.1 = 0x06 then s.edgeAt v (s.partId t) x.2.2 1 rd wr else s
    | .ok x => (x.1.foldl (fun (a : State × Nat) h => (a.1.edgeTouch v (s.partId t) p.space a.2 h.2 h.1 rd wr, a.2 + h.2)) (s, x.2.2)).1

/-- Elements i to j. -/
def State.noteElems (s : State) (v : Via) (t : Nat) (p : Pat) (i j : Nat) (rd wr : Bool) : State :=
  (List.range (j + 1 - i)).foldl (fun s k => s.noteElem v t p (i + k) rd wr) s

/-- Memory metering of one beat on one side (R381): the 64-byte units from element i to element j. -/
def State.meterBeat (s : State) (v : Via) (t : Nat) (p : Pat) (i j : Nat) (wr : Bool) : State :=
  let n := ((p.unit j).2 - (p.unit i).1 + 1).toNat * 64
  let s := s.noteElems v t p i j (!wr) wr
  if p.space = 4 then s.meter (s.partId t) (if wr then 9 else 8) (p.bytesOf (j + 1 - i))
  else match p.place i with
    | .error _ => s
    | .ok pl => match s.resolveVia v t p.space pl.1 pl.2.1 false false with
      | .ok (.dev pa) => if pa < 0x800000000000 then s.meter (s.partId t) (if wr then 7 else 6) n else s
      | _ => s

/-! Streams. -/

/-- The stream enters through the network (R352). -/
def QEntry.viaNet (e : QEntry) : Bool := e.kind == .sInd || (e.kind == .sIn && (e.patA.space == 0 || e.patA.space == 5))
/-- The stream leaves for another tile's store (R353). -/
def QEntry.viaTracker (e : QEntry) : Bool := e.kind == .sOut && e.patA.space == 2
/-- The stream leaves for its die's edge (R352). -/
def QEntry.viaEdge (e : QEntry) : Bool := e.kind == .sOut && (e.patA.space == 0 || e.patA.space == 5)
/-- Its egress port is a sender (R352). -/
def QEntry.netOut (e : QEntry) : Bool := e.viaTracker || e.viaEdge
/-- The sender still owes the stream end of a stream that is over (R359). -/
def QEntry.owesEnd (e : QEntry) : Bool := e.netOut && e.trk.isSome && !e.sentEnd && (e.st == .finished || e.cxl)
/-- Elements sent but not released. -/
def QEntry.inFlight (e : QEntry) : Nat := (e.flight.map fun x => x.2.length).sum
def QEntry.total (e : QEntry) : Nat := e.patA.count

/-- The bits of a port buffer's share, and those its elements take (R235, R297). -/
def shareBits : Nat := 12 * 1024 * 8
def Port.used (p : Port) : Nat := (p.fifo.map fun x => fmtWidth x.fmt).sum
/-- The elements that an egress edge unit holds: up to 4 beats (R235). -/
def egressRoom (w : Nat) : Nat := 4 * max 1 (512 / max 1 w)

/-- An ingress stream's work is done when the fabric has taken its last element, an egress stream's when it is written (R235); a cancelled one
that has sent its end is over when nothing of it travels (R250, R359). -/
def Tile.settle (tl : Tile) (q id : Nat) : Tile :=
  tl.modEntry q id fun e =>
    if e.st = .started && e.kind.isStream && ((e.cxl && e.sentEnd && e.flight.isEmpty)
        || (e.pos == e.total && !(e.kind.ingress && !((mget Port.reset tl.ips e.inPort).fifo.isEmpty))))
    then { e with st := .finished } else e

/-- The elements of an ingress beat from element j on, at most n, up to the first fault. -/
def State.readBeat (s : State) (t : Nat) (e : QEntry) : Nat → Nat → List PElem × Option Trap3
  | 0, _ => ([], none)
  | n + 1, j =>
    if e.total ≤ j then ([], none)
    else match s.streamElem t e j with
      | .error x => ([], some x)
      | .ok v =>
        let r := State.readBeat s t e n (j + 1)
        (v :: r.1, r.2)

/-- The 512 bits of a port beat, element after element, and which of its four flits carry poison. -/
def packBeat (w : Nat) (l : List PElem) : Nat := (l.zipIdx.map fun x => x.1.bits % 2 ^ w * 2 ^ (w * x.2)).sum
def packPoison (w : Nat) (l : List PElem) (k : Nat) : Bool :=
  l.zipIdx.any fun x => x.1.psn && decide (w * x.2 < 128 * (k + 1)) && decide (128 * k < w * x.2 + w)

/-- The four flits of a beat (R94, R352). -/
def State.beatFlits (s : State) (t u cls seq w : Nat) (l : List PElem) : List Flit :=
  (List.range 4).map fun k =>
    { s.flit t u 2 cls (bits (packBeat w l) (128 * k + 127) (128 * k)) with seq := (seq + k) % 4096 }.poison (packPoison w l k)

/-- The window of a sender has room for a beat (R353). -/
def QEntry.windowOpen (e : QEntry) : Bool := decide ((e.seq + 3 + 4096 - e.base) % 4096 < 64)

/-- Elements of a port beat. -/
def QEntry.perBeat (e : QEntry) : Nat := max 1 (512 / max 1 (patOf (if e.kind = .sInd then e.pb else e.pa)).width)
def QEntry.elemWidth (e : QEntry) : Nat := (patOf (if e.kind = .sInd then e.pb else e.pa)).width

/-- What an ingress beat does at the edge beside its reads: for a gather the indices, then each gathered element (R236, R312). -/
def State.meterIn (s : State) (t : Nat) (e : QEntry) (i n : Nat) : State :=
  if e.kind = .sInd then
    let v := s.streamVia t e
    (List.range n).foldl (fun s k => match s.indexAt t e (i + k) with
      | some x => s.meterBeat v t e.patB x x false
      | none => s) (s.meterBeat v t e.patA i (i + n - 1) false)
  else s.meterBeat (viaTile t) t e.patA i (i + n - 1) false

/-- The stream end of an ingress stream, from the edge (R354, R359). -/
def State.edgeEnd (s : State) (t port sq : Nat) : State := s.fromEdge t (s.flit t t 3 0 (ctlPayload 2 sq port 0 0))

/-- The edge sends the next beat of an ingress stream, and its end right behind the last (R352 to R354). -/
def State.edgeBeat (s : State) (t q : Nat) (e : QEntry) : State :=
  let sent := e.pos + e.inFlight
  if e.stop.isSome || sent = e.total || !e.windowOpen then s
  else
    let r := s.readBeat t e e.perBeat sent
    match r.1, r.2 with
    | [], some x => (s.denied (s.streamVia t e).die (s.partId t) x.1 x.2.2).modTile t fun tl =>
        tl.modEntry q e.id fun e => { e with stop := some (x.1, x.2.2) }
    | l, _ =>
      let fl := s.beatFlits t t e.port e.seq e.elemWidth l
      let next := (e.seq + 4) % 4096
      let last := sent + l.length == e.total
      let s := (fl.foldl (fun s f => s.fromEdge t f) s).meterIn t e sent l.length
      let s := if last then s.edgeEnd t e.port next else s
      s.modTile t fun tl => tl.modEntry q e.id fun e =>
        { e with seq := next, sentEnd := last, flight := mput e.flight e.seq (l.zipIdx.map fun x => ⟨sent + x.2, x.1.addr, [], 0⟩) }

/-- A stream that its own tile serves moves the next beat into its port (R234, R235). -/
def State.localBeat (s : State) (t q : Nat) (e : QEntry) : State :=
  let p := mget Port.reset (s.tile t).ips e.inPort
  if e.stop.isSome || decide (shareBits < p.used + 512) && !p.fifo.isEmpty then s
  else
    let n := if e.kind = .sConst then e.perBeat else beatLen (some e.patA) none 1 e.total e.perBeat e.pos
    let r := s.readBeat t e n e.pos
    match r.1, r.2 with
    | [], some x => s.modTile t fun tl => tl.modEntry q e.id fun e => { e with stop := some (x.1, x.2.2) }
    | l, _ => s.modTile t fun tl =>
        ({ tl with ips := mput tl.ips e.inPort { p with fifo := p.fifo ++ l.map PElem.checked } }).modEntry q e.id fun e =>
          { e with pos := e.pos + l.length }

/-- STREAM.REC moves results into its ingress port (R235); STREAM.DROP discards them. -/
def State.passBeat (s : State) (t q : Nat) (e : QEntry) : State :=
  let tl := s.tile t
  let ep := mget Port.reset tl.eps e.port
  let l := ep.fifo.take (e.total - e.pos)
  if e.kind = .sDrop then
    s.modTile t fun tl => ({ tl with eps := mput tl.eps e.port { ep with fifo := ep.fifo.drop l.length } }).modEntry q e.id fun e => { e with pos := e.pos + l.length }
  else
    let ip := mget Port.reset tl.ips e.inPort
    let n := min l.length ((shareBits - ip.used) / max 1 e.patA.width)
    s.modTile t fun tl => ({ tl with eps := mput tl.eps e.port { ep with fifo := ep.fifo.drop n },
                                     ips := mput tl.ips e.inPort { ip with fifo := ip.fifo ++ l.take n } }).modEntry q e.id fun e => { e with pos := e.pos + n }

/-- Results are written to memory in order, up to the first fault. -/
def State.writeBeat (s : State) (t : Nat) (e : QEntry) : List PElem → Nat → State × Nat × Option Trap3
  | [], j => (s, j, none)
  | x :: l, j => match s.writeElem (viaTile t) t e.patA j x.bits x.psn with
    | .error f => (s, j, some f)
    | .ok s' => State.writeBeat s' t e l (j + 1)

/-- STREAM.OUT into the tile's own store writes the next beat (R234, R235, R352). -/
def State.outBeat (s : State) (t q : Nat) (e : QEntry) : State :=
  let p := mget Port.reset (s.tile t).eps e.port
  let l := p.fifo.take (min (beatLen (some e.patA) none 1 e.total e.perBeat e.pos) (e.total - e.pos))
  if e.stop.isSome || l.isEmpty then s
  else
    let r := s.writeBeat t e l e.pos
    let n := r.2.1 - e.pos
    let s := if n = 0 then r.1 else r.1.meterBeat (viaTile t) t e.patA e.pos (r.2.1 - 1) true
    let s := match r.2.2 with | some x => s.denied (dieOf t) (s.partId t) x.1 x.2.2 | none => s
    s.modTile t fun tl => ({ tl with eps := mmod Port.reset tl.eps e.port fun p => { p with fifo := p.fifo.drop n } }).modEntry q e.id fun e =>
      { e with pos := e.pos + n, stop := r.2.2.map (fun (x : Trap3) => (x.1, x.2.2)) }

/-- The tile that a stream into space 2 writes to: the one its BASE names. -/
def State.trackerTile (s : State) (t : Nat) (e : QEntry) : Option Nat := s.remoteTile t (bits e.patA.base 33 22)

/-- n elements from number j on as the port gives them up, with the memory they are translated to, up to the first fault (R309). -/
def State.takeOut (s : State) (t : Nat) (p : Pat) : Nat → Nat → List Flown × Option Trap3
  | _, 0 => ([], none)
  | j, n + 1 => match s.elemAt (viaTile t) t p j false true with
    | .error x => ([], some x)
    | .ok y =>
      let r := State.takeOut s t p (j + 1) n
      (⟨j, y.2.2, y.1, y.2.1⟩ :: r.1, r.2)

/-- A flit of an egress stream leaves its port: to the tile of a remote tracker, or to the edge (R352). -/
def State.sendOut (s : State) (t u : Nat) (e : QEntry) (f : Flit) : State := if e.viaEdge then s.sendEdge t f else s.sendFlit t u f

/-- The stream end of an egress stream (R354, R359). -/
def State.outEnd (s : State) (t q u : Nat) (e : QEntry) : State :=
  (s.sendOut t u e (s.flit t u 3 0 (ctlPayload 2 e.seq e.port 1 (e.trk.getD 0)))).modTile t fun tl => tl.modEntry q e.id fun e => { e with sentEnd := true }

/-- STREAM.OUT through the network sends the next beat to its tracker, or its end, when the injection queue has room (R349, R352 to R354). A
stream into spaces 0 and 5 names its egress port, which the edge's tracker goes by. -/
def State.trackerBeat (s : State) (t q : Nat) (e : QEntry) (u : Nat) : State :=
  let sent := e.pos + e.inFlight
  let p := mget Port.reset (s.tile t).eps e.port
  if e.stop.isSome || e.cxl then s
  else if sent = e.total then (if e.sentEnd || !(s.tile t).room 1 then s else s.outEnd t q u e)
  else
    let l := p.fifo.take (min e.perBeat (e.total - sent))
    if l.isEmpty || !e.windowOpen || !(s.tile t).room 4 then s
    else
      let r := s.takeOut t e.patA sent l.length
      if r.1.isEmpty then
        (match r.2 with | some x => s.denied (dieOf t) (s.partId t) x.1 x.2.2 | none => s).modTile t fun tl =>
          tl.modEntry q e.id fun e => { e with stop := r.2.map (fun (x : Trap3) => (x.1, x.2.2)) }
      else
        let l := l.take r.1.length
        let fl := s.beatFlits t u (if e.viaEdge then e.port else e.trk.getD 0) e.seq e.elemWidth l
        let s := (fl.foldl (fun s f => s.sendOut t u e f) s).meterBeat (viaTile t) t e.patA sent (sent + l.length - 1) true
        s.modTile t fun tl => ({ tl with eps := mput tl.eps e.port { p with fifo := p.fifo.drop l.length } }).modEntry q e.id fun e =>
          { e with seq := (e.seq + 4) % 4096, flight := mput e.flight e.seq r.1 }

/-! Contributions (R38, R225). -/

/-- An entry's contribution is applied (R38, R225). -/
def State.contributeEntry (s : State) (t : Nat) (e : QEntry) : State :=
  let p := s.partId t
  match e.ctr with
  | none => s
  | some (csp, a) => match s.resolve t csp a 16 true true with
    | .error x => (s.denied (dieOf t) p x.1 a).badRecord p (dieOf t) a
    | .ok h => s.contribute p (dieOf t) h a e.amount e.cxl e.flt e.psn e.fcode

/-- The record lies in another tile's store: the contribution travels to it, as tile and offset (R355). -/
def State.farRecord (s : State) (t : Nat) (e : QEntry) : Option (Nat × Nat) :=
  match e.ctr with
  | some (2, a) => (match s.resolve t 2 a 16 true true with | .ok (.tile u off) => some (u, off) | _ => none)
  | _ => none

/-- The payload of such a contribution. -/
def QEntry.farPayload (e : QEntry) (off : Nat) : Nat := ctrPayload off e.psn e.flt e.cxl (if e.flt then e.fcode else 0) e.amount

end Sys2Proof.Machine
end

