-- ==== Sys2Proof/Machine/EvQueue.lean ====
section
/-! DEFINITION. Hardware steps of engine queues (R159, R222 to R226, R235, R238 to R245, R249, R366). A step that is not enabled changes
nothing. -/

namespace Sys2Proof.Machine

/-- The queues start and move work (R251, R333). -/
def Tile.open_ (tl : Tile) : Bool := tl.gate == .open_

/-- An entry that ends without moving data. -/
def QEntry.skip (e : QEntry) : QEntry := { e with st := .finished, cxl := true }

/-! Copies (R159, R223, R241, R245). -/

/-- The ranges of a copy as scoreboard entries. -/
def QEntry.scores (e : QEntry) : List Range := e.ranges.map fun r => ⟨e.id, r.1, r.2.1, r.2.2.1, r.2.2.2⟩

/-- A quarter that a copy reads or writes in space 3 is in a run (R137). -/
def Tile.copyHeld (tl : Tile) (e : QEntry) : Bool :=
  e.ranges.any fun r => r.1 == 3 && (quartersOf 15).any fun k => decide (r.2.1 < 8192 * (k + 1)) && decide (8192 * k ≤ r.2.2.1) && tl.running (2 ^ k)

/-- The source elements of an overlapping copy as they stand at its start (R241). -/
def State.snapshot (s : State) (t : Nat) (e : QEntry) : List Nat :=
  if !e.overlaps then [] else (List.range e.patA.count).map fun j => match s.readElem (e.via t) t e.patA j with | .ok r => r.1 | .error _ => 0

/-- The copy starts on an engine. -/
def State.startCopy (s : State) (t q : Nat) (e : QEntry) : State :=
  let old := s.snapshot t e
  s.modTile t fun tl =>
    let busy := tl.busyEngines
    let k := if (mfind 0 busy).isNone then 0 else 1
    ({ tl with engines := mput busy k (q, e.id), score := tl.score ++ e.scores }).modEntry q e.id fun e =>
      { e with st := .started, began := true, engine := some k, old := old }

/-- COPY_START (R159, R223, R227, R239): the head of a queue starts when an engine and scoreboard entries are free. -/
def execCopyStart (t q : Nat) (s : State) : Out :=
  let tl := s.tile t
  match (tl.queue q).entries.head? with
  | none => .next s
  | some e =>
    if !e.kind.isCopy || e.st != .queued || !tl.open_ || !s.entryReady t e then .next s
    else if e.skipped then .next (s.modTile t fun tl => tl.modEntry q e.id QEntry.skip)
    else if 2 ≤ tl.busyEngines.length || decide (32 < tl.score.length + e.ranges.length) || tl.copyHeld e then .next s
    else .next (s.startCopy t q e)

/-- The copy has to probe its destinations first (R245). -/
def QEntry.toProbe (e : QEntry) : Bool := (e.kind == .mcopy || e.kind == .rcopy) && !e.probed

/-- Metering of the elements that a beat moved: source and destinations (R381). -/
def State.meterCopy (s : State) (t : Nat) (e : QEntry) (i j : Nat) : State :=
  if j ≤ i then s
  else
    let d := if e.kind = .rcopy then 1 else copyDiv e.patA e.patB
    let s := s.meterBeat (e.via t) t e.patA i (j - 1) false
    e.targets.foldl (fun s p =>
      let s := if e.kind = .rcopy then s.meterBeat (e.via t) t p (i / d) ((j - 1) / d) false else s
      s.meterBeat (e.via t) t p (i / d) ((j - 1) / d) true) s

/-- COPY_BEAT (R241 to R245, R249): the probe, whose translations are held until the entry retires, or the elements of the next beat; a quarter
that is touched in space 3 has to be drained (R137, R241). -/
def execCopyBeat (t q : Nat) (s : State) : Out :=
  let tl := s.tile t
  match (tl.queue q).entries.head? with
  | none => .next s
  | some e =>
    if !e.kind.isCopy || e.st != .started || !tl.open_ || tl.copyHeld e then .next s
    else if e.toProbe then
      let e' := match s.probe t e with | some x => e.faulted x | none => { e with probed := true, held := s.probeLeaves t e }
      .next ((s.fillProbe t e).modTile t fun tl => tl.modEntry q e.id fun _ => e')
    else
      let d := if e.kind = .rcopy then 1 else copyDiv e.patA e.patB
      let n := beatLen (some e.patA) (some e.patB) d e.total e.total e.pos
      let r := s.copyRun t e n
      let s := (r.1.meterCopy t e e.pos r.2.pos).work t 5 1 (s.ctx t e.ctx).trap
      let s := if r.2.flt && r.2.fcode == 0x08 then { s with free := s.free + 1 } else s
      let s := if r.2.flt then s.denied (dieOf t) (s.partId t) r.2.fcode r.2.faddr else s
      .next (s.modTile t fun tl => tl.modEntry q e.id fun _ => r.2)

/-! Retirement (R224, R225, R247, R249). -/

/-- The fault record of a queue takes a faulted entry (R247). -/
def Queue.noteFault (u : Queue) (e : QEntry) : Queue :=
  if e.flt then { u with fv := true, faddr := e.faddr, fidx := (List.range 4).map (fun k => e.fidx.getD k 0), fcause := e.fcode, fretired := u.retired } else u

/-- An entry leaves its queue. DESIGN CHOICE (log 64): the RETIRED value that a fault record keeps counts the faulted entry. -/
def Queue.retire (u : Queue) (e : QEntry) : Queue :=
  ({ u with entries := u.entries.filter (fun x => x.id != e.id), retired := (u.retired + 1) % 2 ^ 32 }).noteFault e

/-- The entry leaves its queue, its scoreboard entries and its ports. -/
def Tile.retire (tl : Tile) (q : Nat) (e : QEntry) : Tile :=
  { tl.modQueue q (fun u => u.retire e) with
    score := tl.score.filter fun r => r.id != e.id
    ips := tl.ips.map fun x => (x.1, x.2.release e.id)
    eps := tl.eps.map fun x => (x.1, x.2.release e.id) }

/-- TRANSFER_RETIRE (R159, R224, R287): the earliest transfer of the queue, when its work is done and its stream end is sent. A contribution to
another tile's record leaves first, when the injection queue has room (R349) and no pre-emption stops the tile (R358), and the entry retires once
it has been applied. -/
def execTransferRetire (t q : Nat) (s : State) : Out :=
  match ((s.tile t).queue q).entries.find? fun e => !e.kind.isGate with
  | none => .next s
  | some e =>
    if e.st != .finished || e.owesEnd then .next s
    else match s.farRecord t e with
    | none => .next ((s.contributeEntry t e).modTile t fun tl => tl.retire q e)
    | some (u, off) =>
      let f := s.flit t u 3 0 (e.farPayload off)
      if !e.ctrSent then
        (if (s.tile t).open_ && (s.tile t).room 1 then .next ((s.sendFlit t u f).modTile t fun tl => tl.modEntry q e.id fun e => { e with ctrSent := true }) else .next s)
      else if s.onWay (dieOf t) fun g => g.stile == t && g.isClass 2 && g.payload == f.payload then .next s
      else .next (s.modTile t fun tl => tl.retire q e)

/-! Streams (R223, R226, R235, R353). -/

/-- The first queued entry of a queue when it is a stream that only streams precede. -/
def Queue.nextStream (u : Queue) : Option QEntry :=
  match u.entries.find? fun e => e.st == .queued with
  | none => none
  | some e => if e.kind.isStream && (u.entries.takeWhile fun x => x.id != e.id).all (fun x => x.kind.isStream) then some e else none

/-- The ports of a stream: keys below 16 ingress, from 16 egress. -/
def QEntry.portKeys (e : QEntry) : List Nat := (if e.kind.ingress then [e.inPort] else []) ++ (if e.kind.egress then [16 + e.port] else [])

/-- The stream that holds a port is still at work there: a cancelled one is not once its end has been answered (R250). -/
def Tile.heldBy (tl : Tile) (p : Port) : Bool :=
  match p.holder with
  | none => false
  | some h => match tl.entry h.2 with | some e => !(e.st == .finished && e.cxl && !e.owesEnd) | none => true

/-- A port holds a stream, or a buffer or tracker of one still drains (R359). -/
def Tile.portBusy (tl : Tile) (k : Nat) : Bool :=
  if k < 16 then tl.heldBy (mget Port.reset tl.ips k) || (mfind k tl.gbufs).isSome
  else tl.heldBy (mget Port.reset tl.eps (k - 16)) || (mfind (k - 16) tl.etrks).isSome

/-- Nothing of an earlier stream remains for a port's next one: no window update for it is on its way (R359). -/
def State.updateComing (s : State) (t k : Nat) : Bool :=
  s.onWay (dieOf t) fun f => f.isResponse 1 && bits f.payload 107 104 == k % 16 && bit f.payload 103 == decide (16 ≤ k)
    && (if k < 16 then f.stile == t else f.ddie == dieOf t && f.dtile == labelOf t)

/-- A stream of another queue that entered before waits for one of the ports (R226). -/
def State.portWanted (s : State) (t q : Nat) (e : QEntry) : Bool :=
  (s.tile t).queues.any fun u => u.1 != q && (match u.2.nextStream with
    | some x => decide (x.id < e.id) && s.entryReady t x && !x.skipped && x.portKeys.any fun k => e.portKeys.contains k
    | none => false)

/-- The stream takes its ports. -/
def Tile.takePorts (tl : Tile) (t q : Nat) (e : QEntry) : Tile :=
  let set := fun (m : Map Port) (on : Bool) (k : Nat) => if on then mput m k { Port.reset with holder := some (q, e.id) } else m
  { tl with ips := set tl.ips e.kind.ingress e.inPort, eps := set tl.eps e.kind.egress e.port,
            gbufs := if e.viaNet then mput tl.gbufs e.inPort GBuf.reset else tl.gbufs,
            etrks := if e.viaEdge then mput tl.etrks e.port (Tracker.fresh t e.port q e.id e.pa) else tl.etrks }

/-- A claim still waits: its stream is queued and no cancel or mark has reached it. -/
def State.claimLive (s : State) (c : Nat × Nat) : Bool :=
  match (s.tile c.1).entry c.2 with | some e => e.st == .queued && !e.skipped | none => false

/-- The tracker that a stream into space 2 claims: its tile and its number; none while all 16 are held or an earlier claim waits (R353). -/
def State.claim (s : State) (t : Nat) (e : QEntry) : Option (Option (Nat × Nat)) :=
  if !e.viaTracker then some none
  else match s.trackerTile t e with
    | none => some none
    | some u =>
      let first := match ((s.tile u).claims.filter s.claimLive).head? with | some c => c == (t, e.id) | none => true
      if !first then none else ((List.range 16).find? fun k => (mfind k (s.tile u).trks).isNone).map fun k => some (u, k)

/-- A claim joins the queue of the destination (R353). -/
def State.addClaim (s : State) (t : Nat) (e : QEntry) : State :=
  match s.trackerTile t e with
  | none => s
  | some u => s.modTile u fun tl =>
      let l := tl.claims.filter s.claimLive
      { tl with claims := if l.contains (t, e.id) then l else l ++ [(t, e.id)] }

/-- STREAM_DISPATCH (R223, R226, R235, R239, R353). -/
def execStreamDispatch (t q : Nat) (s : State) : Out :=
  let tl := s.tile t
  match (tl.queue q).nextStream with
  | none => .next s
  | some e =>
    if !tl.open_ || !s.entryReady t e then .next s
    else if e.skipped then .next (s.modTile t fun tl => tl.modEntry q e.id QEntry.skip)
    else if e.portKeys.any (fun k => tl.portBusy k || s.updateComing t k) || s.portWanted t q e then .next s
    else if e.total = 0 then .next (s.modTile t fun tl => tl.modEntry q e.id fun e => { e with st := .finished, began := true })
    else match s.claim t e with
      | none => .next (s.addClaim t e)
      | some c =>
        let s := match c with
          | some (u, k) => s.modTile u fun tl =>
              { tl with trks := mput tl.trks k (Tracker.fresh t e.port q e.id e.pa), claims := tl.claims.filter (· != (t, e.id)) }
          | none => s
        .next (s.modTile t fun tl => (tl.takePorts t q e).modEntry q e.id fun e =>
          { e with st := .started, began := true, trk := if e.viaEdge then some 0 else c.map (·.2) })

/-- A run of the tile uses the port that a stream holds. -/
def Tile.portInUse (tl : Tile) (q id : Nat) : Bool :=
  (tl.runs.any fun r => r.insts.any fun i => i.streams.any fun x => x.2 == (q, id)) || (tl.scanned ++ tl.aside).any fun c => c.2.streams.any fun x => x.2 == (q, id)

/-- A beat of a stream by its kind. -/
def State.beat (s : State) (t q : Nat) (e : QEntry) : State :=
  if e.kind == .sRec || e.kind == .sDrop then s.passBeat t q e
  else if e.viaNet then s.edgeBeat t q e
  else if e.viaEdge then s.trackerBeat t q e t
  else if e.viaTracker then
    match s.trackerTile t e with
    | some u => s.trackerBeat t q e u
    | none => s.modTile t fun tl => tl.modEntry q e.id fun e => { e with stop := some (0x04, e.patA.base) }
  else if e.kind == .sOut then s.outBeat t q e
  else s.localBeat t q e

/-- An egress stream stopped at a fault that no block instance can take ends as R249 lays down, once what it has sent is written. DESIGN CHOICE
(log 66): an ingress stream in that case stays started, its stop kept for the next instance. -/
def Tile.orphan (tl : Tile) (q id : Nat) : Tile :=
  tl.modEntry q id fun e => match e.stop with
    | some x => if e.kind == .sOut && e.st == .started && e.flight.isEmpty && !tl.portInUse q id
      then { e with st := .finished, flt := true, fcode := x.1, faddr := x.2, fidx := e.patA.index e.pos, stop := none } else e
    | none => e

/-- The entry has moved a beat at its port. -/
def QEntry.moved (e : QEntry) (now : Option QEntry) : Bool :=
  match now with | some x => x.pos != e.pos || x.seq != e.seq | none => false

/-- The partition's senders on a tile's die stop together when a pre-emption request has reached one of its tiles there (R358). -/
def State.sendersOpen (s : State) (t : Nat) : Bool := (s.part (s.partId t)).tiles.all fun u => dieOf u != dieOf t || (s.tile u).open_

/-- An egress stream that its own tile serves: what its port holds is still written behind a pre-emption request (R188, R333). -/
def QEntry.drainsOut (e : QEntry) : Bool := e.kind.egress && !e.netOut

/-- STREAM_BEAT (R188, R234, R235, R329, R352, R353, R358). -/
def execStreamBeat (t q id : Nat) (s : State) : Out :=
  let tl := s.tile t
  match (tl.queue q).entries.find? fun e => e.id == id with
  | none => .next s
  | some e => if !e.kind.isStream || e.st != .started || (!tl.open_ && !e.drainsOut) || ((e.viaNet || e.netOut) && !s.sendersOpen t) then .next s
    else
      let s' := s.beat t q e
      let s' := if e.moved ((s'.tile t).entry id) then s'.work t 6 1 (s.ctx t e.ctx).trap else s'
      .next (s'.modTile t fun tl => (tl.settle q id).orphan q id)

/-! Gates (R223, R238 to R240). -/

/-- The entries of a queue before one of them. -/
def Queue.before (u : Queue) (e : QEntry) : List QEntry := u.entries.takeWhile fun x => x.id != e.id

/-- The condition of SCOND: none while its record cannot be read (R239). -/
def State.scondTrue (s : State) (t : Nat) (e : QEntry) : Option Bool :=
  match e.ctr with
  | none => none
  | some (csp, a) => match s.resolve t csp a 16 true false with
    | .error _ => none
    | .ok h => if s.poisonRead h 16 then none else some (decide (e.xt ≤ bits (s.readHome h 16) 63 0) != e.inv)

/-- The edge's part in a look at the record of an SCOND. -/
def State.touchScond (s : State) (t : Nat) (e : QEntry) : State :=
  match e.ctr with
  | some (0, a) => if e.kind == .scond then s.readRecordAt (dieOf t) (s.partId t) a 16 else s
  | _ => s

/-- The n entries that enter after a gate are skipped, those to come too; one that a cancel has ended meanwhile counts among them (R239). -/
def Queue.mark (u : Queue) (no n : Nat) : Queue :=
  { u with entries := u.entries.map (fun x => if no < x.no ∧ x.no ≤ no + n then { x with skipped := true } else x), skip := max u.skip (no + n + 1 - u.entered) }

def Queue.drop (u : Queue) (id : Nat) : Queue := { u with entries := u.entries.filter fun x => x.id != id }

/-- No load or sweep that an SBAR waits for is in progress (R238). -/
def Tile.configDone (tl : Tile) (ids : List Nat) : Bool := !(tl.loads.any fun l => ids.contains l.id) && !tl.sweeps.any fun w => ids.contains w.id

/-- The queue after its first gate passed; none while it waits. -/
def State.passGate (s : State) (t q : Nat) (e : QEntry) : Option Queue :=
  let tl := s.tile t
  let u := tl.queue q
  let free := fun (k : QKind → Bool) => !(u.before e).any fun x => k x.kind
  if e.skipped then some (u.drop e.id)
  else match e.kind with
    | .sbarRd => if free QKind.ingress && tl.configDone e.waits then some (u.drop e.id) else none
    | .sbarWr => if free QKind.egress && tl.configDone e.waits then some (u.drop e.id) else none
    | .sbarAll => if free QKind.isStream && tl.configDone e.waits then some (u.drop e.id) else none
    | .stitch => if tl.left e.waits then some (u.drop e.id) else none
    | _ => if !(u.before e).isEmpty then none
      else (s.scondTrue t e).map fun c => if c then u.drop e.id else (u.mark e.no e.mask).drop e.id

/-- GATE_PASS (R223, R238 to R240, R250): the first gate of the queue, or one that a cancel has let pass. -/
def execGatePass (t q : Nat) (s : State) : Out :=
  let tl := s.tile t
  let gates := (tl.queue q).entries.filter fun e => e.kind.isGate
  match gates.find? fun e => e.st == .finished with
  | some e => .next (s.modTile t fun tl => tl.modQueue q fun u => u.drop e.id)
  | none => match gates.head? with
    | none => .next s
    | some e => if !tl.open_ || !s.entryReady t e then .next s
      else match s.passGate t q e with
        | none => .next s
        | some u => .next ((s.touchScond t e).modTile t fun tl => tl.modQueue q fun _ => u)

/-! Contributions that travel, and quotes that expire. -/

/-- COUNTER_CONTRIBUTION_FLIT (R38, R355): a contribution reaches a record of the tile's store. -/
def execCounterContributionFlit (t : Nat) (s : State) : Out :=
  match (s.tile t).takeIntake fun f => f.isClass 2 with
  | none => .next s
  | some (f, tl) =>
    let s := s.modTile t fun _ => tl
    let off := bits f.payload 123 102
    let p := s.partId t
    if off % 16 ≠ 0 || decide (tileStoreSize < off + 16) then .next (s.badRecord p (dieOf t) off)
    else if f.bad then .next ((s.poisonAt (.tile t off) 16).badRecord p (dieOf t) off)
    else .next (s.contribute p (dieOf t) (.tile t off) off (bits f.payload 63 0) (bit f.payload 99) (bit f.payload 100) (bit f.payload 101)
      (bits f.payload 98 91))

/-- A link that is down, or a frame of which is being replayed (R366). -/
def Link.troubled (l : Link) : Bool := l.down || decide (0 < l.failsHigh) || decide (0 < l.failsLow)

/-- A path between die a and one of the dies crosses a link in trouble: by today's routes, or by those that every link would give (R361, R366;
log 37). -/
def State.linkTrouble (s : State) (a : Nat) (ds : List Nat) : Bool :=
  let whole : State := { s with links := [] }
  s.links.any fun l => l.2.troubled && ds.any fun d =>
    whole.crosses l.1 a d || whole.crosses l.1 d a || s.crosses l.1 a d || s.crosses l.1 d a

/-- The homes of element j of a pattern; none where its address has no translation. -/
def State.elemHomes (s : State) (v : Via) (t : Nat) (p : Pat) (j : Nat) : List (Home × Nat) :=
  match s.elemAt v t p j false false with | .ok x => x.1 | .error _ => []

/-- The homes that the elements of an entry's next beat are read from, and those they are written to. -/
def State.nextHomes (s : State) (t : Nat) (e : QEntry) : List (Home × Nat) × List (Home × Nat) :=
  let js := (List.range (min e.perBeat (e.total - e.pos))).map (e.pos + ·)
  let homes := fun (v : Via) (p : Pat) (l : List Nat) => l.flatMap fun j => s.elemHomes v t p j
  if e.kind.isCopy then
    let d := if e.kind = .rcopy then 1 else copyDiv e.patA e.patB
    (homes (e.via t) e.patA js, e.targets.flatMap fun p => homes (e.via t) p (js.map (· / d)).eraseDups)
  else if e.kind = .sInd then
    (homes (s.streamVia t e) e.patA js ++ homes (s.streamVia t e) e.patB (js.filterMap fun j => s.indexAt t e j), [])
  else if e.kind.ingress then (homes (viaTile t) e.patA js, [])
  else ([], homes (viaTile t) e.patA js)

/-- A running block takes the elements of a stream. -/
def Tile.feeds (tl : Tile) (e : QEntry) : Bool :=
  tl.runs.any fun r => r.insts.any fun i => i.started && i.streams.any fun x => x.2.2 == e.id

/-- QUOTE_EXPIRY_COMPLETION (R366): at the end of its quote a transfer that waits across a link in trouble completes with FLT and FCODE 0x07: the
data that it waits for is poison where it would have gone (DEDUCED, log 37). A stream that feeds a running block stops there with cause 0x07, and
the block gives it up. -/
def execQuoteExpiryCompletion (t q id : Nat) (s : State) : Out :=
  let tl := s.tile t
  match (tl.queue q).entries.find? fun e => e.id == id with
  | none => .next s
  | some e =>
    let h := s.nextHomes t e
    if e.kind.isGate || e.st == .finished || tl.remaining e != 0 || !s.linkTrouble (dieOf t) ((h.1 ++ h.2).map fun x => s.dieAt x.1) then .next s
    else if e.kind.ingress && tl.feeds e then .next (s.modTile t fun tl => tl.modEntry q id fun e =>
      { e with flt := true, fcode := 0x07, psn := true, stop := some (0x07, (e.patA.place e.pos |>.toOption.map (·.1)).getD 0) })
    else
      let s := if e.kind.isCopy then h.2.foldl (fun s x => s.poisonAt x.1 x.2) s else s
      .next (s.modTile t fun tl => (tl.endStream e).modEntry q id fun e =>
        { e with st := .finished, flt := true, fcode := 0x07, psn := true, stop := none })

end Sys2Proof.Machine
end

