-- ==== Sys2Proof/Machine/EvBlock.lean ====
section
/-! DEFINITION. Hardware steps of block runs: selection, configuration loads and sweeps, beats, faults, completion and scan-out (R164,
R169, R172 to R192, R237, R313, R326 to R328). A step that is not enabled changes nothing. -/

namespace Sys2Proof.Machine

/-! Entries and their ranking (R326, R327). -/

/-- A thread token: a context that waits at a block and is in no run (R179). -/
structure Token where
  ctx : Nat
  cls : Nat
  blk : BlockArgs
  imgs : List Nat
  ctrs : List Nat
  since : Nat
  after : List Nat
  prio : Nat
  deriving DecidableEq, Repr

def Tile.tokens (tl : Tile) : List Token :=
  tl.ctxs.filterMap fun x => match x.2.wait with
    | some (.block cls b imgs ctrs since after) =>
      if tl.runs.any fun r => r.insts.any fun i => i.ctx == x.1 && !i.held then none else some ⟨x.1, cls, b, imgs, ctrs, since, after, x.2.prio⟩
    | _ => none

/-- A block entry with its tokens (R326). -/
structure Entry where
  folio : Nat
  qmask : Nat
  toks : List Token
  deriving DecidableEq, Repr

def Tile.blockEntries (tl : Tile) : List Entry :=
  let toks := tl.tokens
  ((toks.map fun k => (k.blk.folio, k.blk.qmask)).eraseDups).map fun e => ⟨e.1, e.2, toks.filter fun k => (k.blk.folio, k.blk.qmask) == e⟩

def Entry.prio (e : Entry) : Nat := e.toks.foldl (fun m k => max m k.prio) 0
/-- tokens + ⌊age / 1,024⌋. -/
def Entry.weight (e : Entry) (now : Nat) : Nat := e.toks.length + (e.toks.foldl (fun m k => max m (now - k.since)) 0) / 1024
def Entry.cls (e : Entry) : Nat := match e.toks.head? with | some k => k.cls | none => 0

/-- The rank of R326. -/
def Entry.above (now : Nat) (a b : Entry) : Bool :=
  decide (b.prio < a.prio) || (a.prio == b.prio && (decide (b.weight now < a.weight now) || (a.weight now == b.weight now &&
    (decide (a.folio < b.folio) || (a.folio == b.folio && decide (a.qmask < b.qmask))))))

/-- Two users of quarters, ports and the element array share a resource (R180, R197). -/
def State.clash (s : State) (l q1 f1 c1 q2 f2 c2 : Nat) : Bool :=
  masksMeet q1 q2 || (c1 == 6 && c2 == 6) || (s.folio l f1).keys.any fun k => (s.folio l f2).keys.contains k

/-- Every resource of an entry is free (R180, R327). -/
def State.entryFree (s : State) (t : Nat) (e : Entry) : Bool :=
  let tl := s.tile t
  let l := tl.lid.getD 0
  !(tl.runs.any fun r => s.clash l e.qmask e.folio e.cls r.qmask r.folio r.cls) && !(tl.sweeps.any fun w => masksMeet w.qmask e.qmask)
    && (tl.liveOf e.qmask == some e.folio || !tl.loads.any fun w => masksMeet w.qmask e.qmask)

/-- The first entry in rank order that may start: no higher one needs its resources (R327). -/
def State.pickEntry (s : State) (t : Nat) : List Entry → List Entry → Option Entry
  | _, [] => none
  | above, e :: rest =>
    let l := (s.tile t).lid.getD 0
    if s.entryFree t e && !(above.any fun a => s.clash l e.qmask e.folio e.cls a.qmask a.folio a.cls) then some e
    else s.pickEntry t (above ++ [e]) rest

/-- The instance of a token (R179). -/
def State.freshInst (s : State) (t : Nat) (k : Token) : Inst :=
  let x := s.ctx t k.ctx
  let ov := x.regs.spineOf (((quartersOf k.blk.qmask).head?).getD 0)
  { ctx := k.ctx, own := x.serial, cls := k.cls, blk := k.blk, imgs := k.imgs, ctrs := k.ctrs, after := k.after, tag := scLo x.scope,
    started := false, win := ov.1, acc := ov.2, streams := [], pats := [], ownIds := [], bufs := [], panel := [], beat := 0, sink := [],
    given := [], drain := 0, lastMsg := 0, cinv := false, lsq := 0, strays := 0, fault := none, held := false, scan := false, image := [], imgPoison := [], imgFmt := [], arr := none }

/-- A folio is on its way to be live: by a sweep when the shadow holds it, else by a load (R180). -/
def Tile.makeLive (tl : Tile) (qmask folio : Nat) (f : Folio) : Tile :=
  if tl.shadowOf qmask == some folio then tl.startSweep qmask folio 0 f.plen else tl.startLoad qmask folio f.loadCycles none

/-- The instance that a token goes on with: one set aside, else, outside a handler, the one of its continuation (R185, R186). -/
def State.backInst (s : State) (t : Nat) (k : Token) : Option Inst :=
  mfind k.ctx (s.tile t).aside <|> if (s.ctx t k.ctx).cont.isNone then mfind k.ctx (s.tile t).scanned else none

/-- A run starts, its folio made live first (R179, R180). -/
def State.startRun (s : State) (t : Nat) (e : Entry) : State :=
  let tl := s.tile t
  let live := tl.liveOf e.qmask == some e.folio
  let insts := e.toks.map fun k => match s.backInst t k with
    | some i => { i with held := false, fault := none }
    | none => s.freshInst t k
  let mine := fun (c : Nat) => e.toks.any fun k => k.ctx == c
  s.modTile t fun tl =>
    let tl := { tl with runs := tl.runs ++ [⟨e.qmask, e.folio, e.cls, live, insts⟩],
                        scanned := tl.scanned.filter (fun c => !mine c.1 || (s.ctx t c.1).cont.isSome || (mfind c.1 tl.aside).isSome)
                        aside := tl.aside.filter fun c => !mine c.1 }
    if live then tl else tl.makeLive e.qmask e.folio (s.folio (tl.lid.getD 0) e.folio)

/-- Every entry that may start now starts, in rank order (R327); a tile has at most eight. -/
def State.startRuns (s : State) (t : Nat) : Nat → State
  | 0 => s
  | n + 1 => match s.pickEntry t [] (sortBy (Entry.above (s.tile t).res) (s.tile t).blockEntries) with
    | none => s
    | some e => State.startRuns (s.startRun t e) t n

/-- A run whose implicit load or sweep was lost to another configuration of its quarters begins it again (R180, R192). -/
def State.reload (s : State) (t : Nat) : State :=
  (s.tile t).runs.foldl (fun s r =>
    if r.ready || ((s.tile t).loads.any fun l => masksMeet l.qmask r.qmask) || (s.tile t).sweeps.any fun w => masksMeet w.qmask r.qmask then s
    else s.modTile t fun tl => tl.makeLive r.qmask r.folio (s.folio (tl.lid.getD 0) r.folio)) s

/-- What holds quarters, ports or the array, by kind 0 to 2, and the block entries, kind 3. -/
def Tile.marks (tl : Tile) : List (Nat × Nat × Nat) :=
  (tl.runs.map fun r => (0, r.qmask, r.folio)) ++ (tl.sweeps.map fun w => (1, w.id, 0)) ++ (tl.loads.map fun w => (2, w.id, 0))
    ++ tl.blockEntries.map fun e => (3, e.folio, e.qmask)

/-- Since the last look a quarter, a port or the array has fallen free, or an entry has appeared (R326). -/
def Tile.rankDue (tl : Tile) : Bool :=
  (tl.ranked.any fun m => m.1 != 3 && !tl.marks.contains m) || tl.marks.any fun m => m.1 == 3 && !tl.ranked.contains m

/-- BLOCK_RUN_START (R179, R180, R326 to R328): the entries are ranked, and those that may start do, in a cycle in which something falls free or
an entry appears. -/
def execBlockRunStart (t : Nat) (s : State) : Out :=
  if !(s.tile t).open_ then .next s
  else
    let s := s.reload t
    let s := if (s.tile t).rankDue then s.startRuns t 8 else s
    .next (s.modTile t fun tl => { tl with ranked := tl.marks })

/-! Loads and sweeps (R164, R180, R190, R191). -/

/-- Every context of a run whose folio is refused traps at its header (R180). -/
def State.refuseRun (s : State) (t qmask folio cause aux : Nat) : State :=
  let hit := (s.tile t).runs.filter fun r => r.qmask == qmask && r.folio == folio && !r.ready
  let s := s.modTile t fun tl => { tl with runs := tl.runs.filter fun r => !(r.qmask == qmask && r.folio == folio && !r.ready) }
  (hit.flatMap (·.insts)).foldl (fun s i =>
    let hdr := (s.ctx t i.ctx).regs.pc.toNat
    let s := if i.started then (s.modTile t fun tl => { tl with scanned := mput tl.scanned i.ctx { i with held := true } }).modCtx t i.ctx fun x =>
      { x with cont := some (qmask, hdr) } else s
    (s.modCtx t i.ctx fun x => { x with wait := none }).enter t i.ctx cause hdr aux hdr) s

/-- FOLIO_LOAD_COMPLETE (R162, R164, R180, R181, R190): in the load's last cycle. -/
def execFolioLoadComplete (t qmask : Nat) (s : State) : Out :=
  let tl := s.tile t
  match tl.loads.find? fun l => l.qmask == qmask with
  | none => .next s
  | some l =>
    if !tl.open_ then .next s
    else if 1 < l.left then .next (s.modTile t fun tl => { tl with loads := replaceFirst (fun x => x.id == l.id) (fun x => { x with left := x.left - 1 }) tl.loads })
    else
      let s := s.modTile t fun tl => { tl with loads := tl.loads.filter fun x => x.id != l.id }
      match (s.folio (tl.lid.getD 0) l.folio).refusal qmask, l.by_ with
      | none, b => .next (s.modTile t fun tl =>
          let tl := { tl with shadow := tl.shadow.filter (fun e => !masksMeet e.1 qmask) ++ [(qmask, l.folio)] }
          if b.isNone then tl.startSweep qmask l.folio 0 (s.folio (tl.lid.getD 0) l.folio).plen else tl)
      | some r, some (c, serial, addr) =>
        let x := s.ctx t c
        if x.task.isSome && x.serial == serial then .next (s.modCtx t c fun x => { x with deferred := x.deferred ++ [⟨r.1, addr, r.2, false⟩] })
        else .next s
      | some r, none => .next (s.refuseRun t qmask l.folio r.1 r.2)

/-- Stray tokens of a quarter count when a sweep passes (R191). -/
def Tile.sweepStrays (tl : Tile) (qmask : Nat) : Tile :=
  { tl with strays := (quartersOf qmask).foldl (fun m q => mdel (4 + q) (mmod 0 m q (fun n => n + mget 0 m (4 + q)))) tl.strays }

/-- SWITCH_SWEEP_COMPLETE (R181, R191, R192): PLEN cycles behind the last beat of a live run. -/
def execSwitchSweepComplete (t qmask : Nat) (s : State) : Out :=
  let tl := s.tile t
  match tl.sweeps.find? fun w => w.qmask == qmask with
  | none => .next s
  | some w =>
    if !tl.open_ || tl.runs.any fun r => r.ready && masksMeet r.qmask qmask then .next s
    else if 1 < w.left then .next (s.modTile t fun tl => { tl with sweeps := replaceFirst (fun x => x.id == w.id) (fun x => { x with left := x.left - 1 }) tl.sweeps })
    else .next (s.modTile t fun tl =>
      { tl.sweepStrays qmask with
        sweeps := tl.sweeps.filter (fun x => x.id != w.id)
        live := (quartersOf qmask).foldl (fun m q => mput m q w.folio) tl.live
        runs := tl.runs.map fun r => if r.qmask == qmask && r.folio == w.folio then { r with ready := true } else r })

/-! Starting an instance (R169, R182, R237). -/

/-- The queues have room for every command of an instance. -/
def Tile.roomFor (tl : Tile) (l : List BindCmd) : Bool :=
  l.all fun c => decide ((tl.queue c.queue).entries.length + (l.filter fun d => d.queue == c.queue).length ≤ 16)

/-- The commands enter their queues in order; each key with its queue and entry. -/
def State.issueBinds (s : State) (l : List BindCmd) : State × List (Nat × Nat × Nat) :=
  l.foldl (fun a c => match a.1.accept c.queue c.entry (a.1.streamTime c.entry) false with
    | some r => (r.2, a.2 ++ [(c.key, c.queue, r.2.myTile.nextId)])
    | none => a) (s, [])

/-- The scanned state of a region comes back (R187). -/
def Tile.scanIn (tl : Tile) (i : Inst) : Tile :=
  if i.imgFmt.isEmpty then tl
  else { tl with acc := i.image.foldl (fun m c => writeByte m c.1 c.2) (tl.acc.filter fun c => !bit i.blk.qmask (c.1 / 8192)),
                 accPoison := i.imgPoison.foldl sadd (tl.accPoison.filter fun u => !bit i.blk.qmask (u / 512)),
                 accFmt := i.imgFmt.foldl (fun m e => mput m e.1 e.2) tl.accFmt, array := i.arr.getD tl.array }

/-- The element array at the start of an instance (R197). -/
def EArray.fresh (p : EPart) : EArray :=
  { EArray.reset with elems := (List.range 64).map fun e => (e, { Elem.reset with pb := p.pbInit.getD e 0 }) }

/-- A block whose commands would now be refused is refused as a whole: nothing starts, and its context goes on behind it (R237; DEDUCED,
log 17). -/
def State.refuseInst (s : State) (t : Nat) (i : Inst) : State :=
  (s.modTile t fun tl => tl.leaveFresh i.ctx).modCtx t i.ctx fun x =>
    { x with wait := none, regs := { x.regs with pc := x.regs.pc + BitVec.ofNat 64 (blockBytes i.blk) } }

/-- The instance starts: its accesses are performed, its commands issue, its ports are known. -/
def State.startInst (s : State) (t : Nat) (r : Run) (i : Inst) : State :=
  let x := s.ctx t i.ctx
  let l := (s.tile t).lid.getD 0
  let f := s.folio l r.folio
  let cmds := s.bindCmds t i.blk i.imgs i.ctrs f
  if x.outs.any (fun a => i.after.contains a.id && !a.done) || !(s.tile t).roomFor cmds then s
  else if ({ s with cur := (t, i.ctx) }).bindsRefused cmds then s.refuseInst t i
  else
    let res := ({ s with cur := (t, i.ctx) }).issueBinds cmds
    let s' := { res.1 with cur := s.cur }
    let src := f.keys.filterMap fun k => match res.2.find? fun e => e.1 == k with
      | some e => some (k, e.2)
      | none => ((s.tile t).fed k).map fun h => (k, h)
    let pats := src.filterMap fun e => ((s'.tile t).entry e.2.2).map fun q => (e.1, q.image)
    s'.modTile t fun tl =>
      let tl := if i.cls = 6 then { tl with array := match f.epart with | some p => EArray.fresh p | none => EArray.reset } else tl
      tl.modCtxInst r.qmask i.ctx fun i => { i with started := true, streams := src, pats := pats, ownIds := res.2.map (·.2.2) }

/-! Ports of an instance. -/

/-- The port of a key with the stream of the instance that holds it. -/
def Tile.portOf (tl : Tile) (i : Inst) (key : Nat) : Option (Port × Nat × QEntry) :=
  let p := tl.port key
  match p.holder, mfind key i.streams with
  | some h, some k => if h == k then (tl.entry h.2).map fun e => (p, h.1, e) else none
  | _, _ => none

/-- A port that a stream command feeds has gone to its next stream: the instance goes on with that one (R235). The position at which it begins
to take A is kept under key 200 from its first element on (R176). -/
def Tile.follow (tl : Tile) (i : Inst) (f : Folio) : Inst :=
  let own := fun (k : Nat) => match mfind k i.streams with | some h => i.ownIds.contains h.2 | none => false
  let keys := f.keys.filter fun k => !own k && ((mfind k i.streams).isSome || roleRequired i.cls i.blk (decide (16 ≤ k)) (f.role k))
  let i := { i with streams := keys.foldl (fun m k => match tl.fed k with | some h => mput m k h | none => m) i.streams }
  let i := { i with pats := f.keys.foldl (fun m k => match tl.portOf i k with | some (_, _, e) => mput m k e.image | none => m) i.pats }
  match (f.keyOf 1).bind fun k => (tl.portOf i k).map fun x => (k, x.2.2) with
  | some (k, e) =>
    if (mget [] i.bufs 1).isEmpty && (mget [] i.bufs 111).isEmpty && i.beat = 0 then { i with given := mput i.given 200 (e.patA.count - tl.toGo k e) } else i
  | none => i

/-- Elements leave a port buffer until n values wait: w of them give their values together, `part` are those of an unfinished row. A block along K is
taken whole, and R171 has refused the shapes whose K does not hold whole blocks (R49, R174; DEDUCED, log 64). -/
def takeUpTo (w n : Nat) : List PElem → List PElem → List PElem → List PElem × List PElem × List PElem
  | buf, part, [] => (buf, part, [])
  | buf, part, x :: t =>
    if n ≤ buf.length || x.psn then (buf, part, x :: t)
    else if part.length + 1 < w then takeUpTo w n buf (part ++ [x]) t
    else takeUpTo w n (buf ++ rowValues (part ++ [x])) [] t

/-- The instance takes what its next beat needs of one role; an unfinished row waits under key 110 + role. -/
def Tile.pull (tl : Tile) (i : Inst) (key role n : Nat) : Tile × Inst :=
  match tl.portOf i key with
  | none => (tl, i)
  | some (p, q, e) =>
    let r := takeUpTo (rowWidth i.cls role i.blk (patOf e.image)) n (i.buf role) (i.buf (110 + role)) p.fifo
    let bufs := mput i.bufs role r.1
    ({ tl with ips := mput tl.ips key { p with fifo := r.2.2 } }.settle q e.id,
     { i with bufs := if r.2.1.isEmpty then mdel (110 + role) bufs else mput bufs (110 + role) r.2.1 })

/-- A fault at the head of an ingress port: poison, or the element at which its stream stopped (R185, R249). -/
def Tile.headFault (tl : Tile) (i : Inst) (key : Nat) : Option (Nat × Nat) :=
  match tl.portOf i key with
  | none => none
  | some (p, _, e) => match p.fifo with
    | x :: _ => if x.psn then some (0x07, x.addr) else none
    | [] => if e.flight.isEmpty then e.stop else none

/-- The elements that an egress port takes now: up to 4 beats wait in its edge unit, those of a STREAM.REC in the share of its ingress port
(R235). -/
def Tile.egressSpace (tl : Tile) (p : Port) (e : QEntry) : Nat :=
  let w := e.patA.width
  (if e.kind = .sRec then (shareBits - (mget Port.reset tl.ips e.inPort).used) / max 1 w else egressRoom w) - p.fifo.length

/-- Results go to the egress port, as many as it takes (R53, R235). -/
def Tile.flush (tl : Tile) (i : Inst) (key : Nat) : Tile × Inst :=
  match tl.portOf i key with
  | none => (tl, i)
  | some (p, _, e) =>
    let n := tl.egressSpace p e
    let rm := Rm.ofCode i.blk.rm
    ({ tl with eps := mput tl.eps (key - 16) { p with fifo := p.fifo ++ (i.sink.take n).flatMap (e.patA.egress rm i.blk.sat) } },
     { i with sink := i.sink.drop n, cinv := i.cinv || (i.sink.take n).any (e.patA.egressInvalid rm i.blk.sat) })

/-- Everything the instance gave to its egress port has been written or passed on. -/
def Tile.egressDone (tl : Tile) (i : Inst) (key : Nat) : Bool :=
  match tl.portOf i key with
  | none => true
  | some (p, _, e) => p.fifo.isEmpty && e.flight.isEmpty

/-! Faults (R183, R185, R187). -/

/-- The loop indices that BSTAT gives for BLOCK.G (R219). -/
def EArray.index (a : EArray) : List Nat := [a.cycles % 2 ^ 20, 0, 0]
/-- The loop indices of a beat (R168). -/
def beatIndex (b : BlockArgs) (k : Nat) : List Nat := digitsBy k b.loops

/-- The status of an instance in its context (R183, R195). -/
def Ctx.putStatus (c : Ctx) (i : Inst) (beats : Nat) (ix : List Nat) (strays : Nat) : Ctx :=
  let no := c.bstat.foldl (fun m e => max m e.2.no) 0 + 1
  let st : BStat := {
    beats := beats, cinv := i.cinv, stray := decide (0 < strays), ls := i.lsq != 0, i0 := ix.getD 0 0, i1 := ix.getD 1 0, i2 := ix.getD 2 0,
    i3 := ix.getD 3 0, strays := strays, no := no }
  { c with bstat := (quartersOf i.blk.qmask).foldl (fun m q => mput m q st) c.bstat }

/-- TRAPAUX of a block fault (R185). DESIGN CHOICE (log 64): in a region of several quarters the quarter field gives the lowest, for a port too. -/
def faultAux (b : BlockArgs) (kind port row : Nat) : Nat :=
  2 ^ 31 + kind * 2 ^ 29 + ((quartersOf b.qmask).head?).getD 0 * 2 ^ 27 + port % 512 * 2 ^ 18 + row % 128 * 2 ^ 11

/-- The context traps on its block; the instance is held, the others of the run wait for a later one (R185, R186). -/
def State.blockTrap (s : State) (t qmask : Nat) (i : Inst) (f : BFault) : State :=
  let hdr := (s.ctx t i.ctx).regs.pc.toNat
  (s.modCtx t i.ctx fun x => { x with wait := none, cont := some (qmask, hdr) }).enter t i.ctx f.cause f.addr f.aux hdr

/-- A started instance is held as a continuation of its context, whose status is the instance's (R186, R195). -/
def State.holdInst (s : State) (t : Nat) (qmask : Nat) (i : Inst) : State :=
  let a := i.arr.getD (s.tile t).array
  let p := if i.cls = 6 then (a.cycles, a.index) else (i.beat, beatIndex i.blk i.beat)
  s.modCtx t i.ctx fun x => { x.putStatus i p.1 p.2 0 with wait := none, cont := some (qmask, x.regs.pc.toNat) }

/-- A node faults before the next beat. A translation fault starts the scan-out (R187). -/
def State.blockFault (s : State) (t : Nat) (r : Run) (i : Inst) (cause addr aux : Nat) (ix : List Nat) : State :=
  let f : BFault := ⟨cause, addr, aux⟩
  let scan := cause == 0x06
  let i := { i with fault := some f, held := !scan, scan := scan }
  let s := (s.modTile t fun tl => tl.keepOnly r.qmask i).modCtx t i.ctx fun x => x.putStatus i i.beat ix 0
  if scan then s else s.blockTrap t r.qmask i f

/-- SCAN_OUT_COMPLETE (R187, R313): the region's state leaves, the quarters are free, and the context traps. -/
def execScanOutComplete (t qmask : Nat) (s : State) : Out :=
  let tl := s.tile t
  match tl.runs.find? fun r => r.qmask == qmask with
  | none => .next s
  | some r => match r.insts.head? with
    | none => .next s
    | some i => match i.fault with
      | none => .next s
      | some f =>
        if !i.scan then .next s
        else
          let i := { i with scan := false, held := true, image := tl.acc.filter fun c => bit qmask (c.1 / 8192),
                            imgPoison := tl.accPoison.filter fun u => bit qmask (u / 512),
                            imgFmt := (quartersOf qmask).map fun q => (q, tl.nodeFmt q), arr := if r.cls = 6 then some tl.array else none }
          let s := s.modTile t fun tl =>
            let tl := tl.dropScanned i.ctx
            { tl with scanned := mput tl.scanned i.ctx i, runs := tl.runs.filter (fun x => x.qmask != qmask),
                      array := if r.cls = 6 then EArray.reset else tl.array }
          .next (s.blockTrap t qmask i f)

/-! Beats (R172 to R178, R184, R185, R189). -/

/-- The meter of a beat (R276, R381). -/
def beatMeter (cls : Nat) (b : BlockArgs) : Nat :=
  let side := max (blkGeo b).rows (blkGeo b).cols
  if cls = 2 || 4 < side then 3 else if side ≤ 1 then 0 else if side = 2 then 1 else 2

/-- A committed beat is charged and metered (R196, R381). -/
def State.countBeat (s : State) (t : Nat) (i : Inst) : State :=
  let n := (quartersOf i.blk.qmask).length
  let c := if i.cls = 2 then 10 else if i.cls = 5 then 9 else 8
  (s.work t c n (s.ctx t i.ctx).trap).meter (s.partId t) (beatMeter i.cls i.blk) n

/-- The needs of an instance's next beat, as key, role and number of values. An optional role without a stream needs none (R169, R173). -/
def Inst.needs (i : Inst) (f : Folio) : List (Nat × Nat × Nat) :=
  let pat := fun (r : Nat) => (f.keyOf r).bind fun k => mfind k i.pats
  let aPat := ((pat 1).map patOf).getD (patOf 0)
  (beatNeeds i.cls i.blk (pat 4).isSome (pat 5).isSome (aPat.ext.getD 0 0) i.beat).filterMap fun e => (f.keyOf e.1).map fun k => (k, e.1, e.2)

/-- The values of one stationary panel, and the number of panels of an instance (R172). -/
def panelSize (cls : Nat) (b : BlockArgs) : Nat :=
  match cls with | 2 | 3 | 6 => 0 | 4 => blkTaps b.weave | _ => beatK cls b * (blkGeo b).l
def panelCount (cls : Nat) (b : BlockArgs) : Nat := if cls = 1 then blkBeats b / blkTrips0 b else 1
/-- The panels that the beats so far have begun. -/
def Inst.panelsBegun (i : Inst) : Nat := if i.cls = 1 then cdiv i.beat (blkTrips0 i.blk) else min i.beat 1
/-- The instance has taken every value of its S role. -/
def Inst.panelsTaken (i : Inst) : Bool :=
  decide (panelCount i.cls i.blk * panelSize i.cls i.blk ≤ i.panelsBegun * panelSize i.cls i.blk + (i.buf 2).length)

/-- The stationary panel that comes next fills the shadow registers, in .os during the current panel's beats (R172). -/
def Tile.pullPanel (tl : Tile) (i : Inst) (f : Folio) : Tile × Inst :=
  match f.keyOf 2 with
  | some k => if i.panelsBegun < panelCount i.cls i.blk then tl.pull i k 2 (panelSize i.cls i.blk) else (tl, i)
  | none => (tl, i)

/-- Values of a role wait, or enough have been taken. -/
def Tile.roleWaits (tl : Tile) (i : Inst) (e : Nat × Nat × Nat) : Bool :=
  decide (e.2.2 ≤ (i.buf e.2.1).length) || (match tl.portOf i e.1 with | some (p, _, _) => !p.fifo.isEmpty | none => false)

/-- The stationary panel comes first; a beat takes the values of its other roles together, none while the panel is not whole or a role has no
value waiting (R172, R405; DEDUCED, log 64). -/
def Tile.pullAll (tl : Tile) (i : Inst) (f : Folio) : Tile × Inst :=
  let a := tl.pullPanel i f
  let l := a.2.needs f
  if l.all (fun e => if e.2.1 = 2 then decide (e.2.2 ≤ (a.2.buf 2).length) else a.1.roleWaits a.2 e)
  then (l.filter fun e => e.2.1 != 2).foldl (fun a e => a.1.pull a.2 e.1 e.2.1 e.2.2) a else a

/-- The lowest-numbered port of an instance whose stream has met a translation fault: it stops the region's clock at once (R187, R313). -/
def Tile.clockStop (tl : Tile) (i : Inst) (f : Folio) : Option (Nat × Nat × Nat) :=
  (sortBy (fun a b => decide (a % 16 < b % 16)) f.keys).findSome? fun k => match tl.portOf i k with
    | some (_, _, e) => match e.stop with | some x => if x.1 = 0x06 then some (k, x) else none | none => none
    | none => none

/-- The first port, by number, that cannot supply a role because of a fault. -/
def Tile.roleFault (tl : Tile) (i : Inst) (l : List (Nat × Nat × Nat)) : Option (Nat × Nat × Nat) :=
  (sortBy (fun a b => decide (a.1 < b.1)) (l.filter fun e => decide ((i.buf e.2.1).length < e.2.2))).findSome? fun e =>
    (tl.headFault i e.1).map fun x => (e.1, x)

/-- The computation of the next beat; none when a compressed result overflows (R52). -/
def Tile.compute (tl : Tile) (i : Inst) (f : Folio) : Option (Inst × Tile) :=
  let pat := fun (k : Option Nat) => ((k.bind fun k => mfind k i.pats).map patOf).getD (patOf 0)
  let res := pat f.resultKey
  if i.cls = 2 then (i.elementBeat res).map fun i => (i, tl) else tl.sumBeat i (pat (f.keyOf 1)) res (mget 0 i.given 200)

/-- The beat itself, once its operands wait: an overflow of BLOCK.Z or of a compressed result faults with cause 0x0C (R52, R177). -/
def State.runBeat (s : State) (t : Nat) (r : Run) (i : Inst) (f : Folio) : State :=
  let ix := beatIndex i.blk i.beat
  if i.cls = 5 && panelAt i.cls i.blk i.beat && panelOverflows i.blk ((i.buf 2).take (beatK i.cls i.blk * (blkGeo i.blk).l)) then
    s.blockFault t r i 0x0C 0 (faultAux i.blk 1 ((f.keyOf 2).getD 0) 0) ix
  else match (s.tile t).compute i f with
    | none => s.blockFault t r i 0x0C 0 (faultAux i.blk 1 ((f.resultKey.getD 16) - 16) 0) ix
    | some (i', tl') => (s.modTile t fun _ => tl'.modInst r.qmask fun _ => { i' with drain := f.plen }).countBeat t i

/-- A cycle passes, and the results of earlier beats go to the egress port (R181, R235). -/
def State.flushInst (s : State) (t : Nat) (r : Run) (i : Inst) (rk : Nat) : State × Inst :=
  let i := { i with drain := i.drain - 1 }
  let a := if !i.sink.isEmpty && (match (s.tile t).portOf i rk with | some (_, _, e) => e.stop.isNone | none => false)
    then (s.tile t).flush i rk else (s.tile t, i)
  (s.modTile t fun _ => a.1.modInst r.qmask fun _ => a.2, a.2)

/-- One step of a started brick instance: a translation fault stops it; else results leave, operands come, a beat or a fault. A beat that the
budget holds waits at the source gate (R196, R330). -/
def State.workInst (s : State) (t : Nat) (r : Run) (i : Inst) : State :=
  let f := s.folio ((s.tile t).lid.getD 0) r.folio
  let rk := f.resultKey.getD 16
  let ix := beatIndex i.blk i.beat
  let i := (s.tile t).follow i f
  match (if i.held || i.scan then none else (s.tile t).clockStop i f) with
  | some x => s.blockFault t r i x.2.1 x.2.2 (faultAux i.blk 1 (x.1 % 16) 0) ix
  | none =>
    let fl := s.flushInst t r i rk
    let s := fl.1
    let i := fl.2
    let tl := s.tile t
    if i.held || i.scan then s
    else match (match tl.portOf i rk with | some (_, _, e) => e.stop | none => none) with
      | some x => s.blockFault t r i x.1 x.2 (faultAux i.blk 1 (rk - 16) 0) ix
      | none =>
        if !i.sink.isEmpty || blkBeats i.blk ≤ i.beat then s
        else
          let a := tl.pullAll i f
          let s := s.modTile t fun _ => a.1.modInst r.qmask fun _ => a.2
          let i := a.2
          match a.1.roleFault i (i.needs f) with
          | some x => if a.1.egressDone i rk then s.blockFault t r i x.2.1 x.2.2 (faultAux i.blk 1 x.1 0) ix else s
          | none => if (i.needs f).all (fun e => decide (e.2.2 ≤ (i.buf e.2.1).length)) && !tl.hold.contains r.qmask then s.runBeat t r i f else s

/-- The next instance of a run takes its stationary panel during the beats of the current one; from a stream that both take from once the
current one has taken its own panels (R179, R235). -/
def State.prefetch (s : State) (t qmask : Nat) : State :=
  match (s.tile t).runs.find? fun r => r.qmask == qmask with
  | none => s
  | some r => match r.insts with
    | i :: j :: _ =>
      let f := s.folio ((s.tile t).lid.getD 0) r.folio
      if r.cls = 6 || !r.ready || !i.started || i.held || i.scan || s.condemned t j.ctx then s
      else if !j.started then s.startInst t r j
      else match f.keyOf 2 with
        | none => s
        | some k =>
          if ((s.tile t).fed k).isSome && !i.panelsTaken then s
          else
            let a := (s.tile t).pullPanel ((s.tile t).follow j f) f
            s.modTile t fun _ => a.1.modCtxInst qmask j.ctx fun _ => a.2
    | _ => s

/-- A pre-emption request gates the sources; what has been committed still drains to its port (R188, R333). -/
def State.drainInst (s : State) (t : Nat) (r : Run) (i : Inst) : State :=
  if !r.ready || !i.started || i.held || i.scan || !i.imgFmt.isEmpty || i.cls = 6 then s
  else (s.flushInst t r i ((s.folio ((s.tile t).lid.getD 0) r.folio).resultKey.getD 16)).1

/-- BLOCK_BEAT (R184 to R189): the instance starts, stops in a cancelled subtree, or goes on by a beat. -/
def execBlockBeat (t qmask : Nat) (s : State) : Out :=
  let tl := s.tile t
  match tl.runs.find? fun r => r.qmask == qmask with
  | none => .next s
  | some r => match r.insts.head? with
    | none => .next s
    | some i =>
      if !tl.open_ then .next (s.drainInst t r i)
      else if !r.ready then .next s
      else if !i.held && !i.scan && s.condemned t i.ctx then .next (if (s.ctx t i.ctx).owesAtomic || (r.cls == 6 && tl.array.storing) then s else s.killTask t i.ctx)
      else if !i.started then .next (s.startInst t r i)
      else if !i.imgFmt.isEmpty && !i.held then .next (s.modTile t fun tl =>
        (tl.scanIn i).modInst qmask fun i => { i with image := [], imgPoison := [], imgFmt := [], arr := none })
      else if i.cls = 6 then .next s
      else .next ((s.workInst t r i).prefetch t qmask)

/-! Completion (R182, R183). -/

/-- The stray count of the quarters that sweeps have counted (R191). -/
def Tile.countedStrays (tl : Tile) (qmask : Nat) : Nat := ((quartersOf qmask).map fun q => mget 0 tl.strays q).sum

/-- An instance completes: status, LSSUM, and its context goes on behind the block (R179, R183). -/
def State.completeInst (s : State) (t : Nat) (r : Run) (i : Inst) (ix : List Nat) (beats : Nat) : State :=
  let strays := i.strays + (s.tile t).countedStrays r.qmask
  (s.modCtx t i.ctx fun x =>
    let x := { x.putStatus i beats ix strays with wait := none }
    { x with regs := { x.regs with lssum := orLssum x.regs.lssum i.lsq, pc := x.regs.pc + BitVec.ofNat 64 (blockBytes i.blk) } }).modTile t fun tl =>
    { tl with strays := (quartersOf r.qmask).foldl (fun m q => mdel q m) tl.strays }.dropInst r.qmask false

/-- INSTANCE_COMPLETE (R179, R181 to R183): every beat is committed, the last one PLEN cycles ago, and every egress write performed. -/
def execInstanceComplete (t qmask : Nat) (s : State) : Out :=
  let tl := s.tile t
  match tl.runs.find? fun r => r.qmask == qmask with
  | none => .next s
  | some r => match r.insts.head? with
    | none => .next s
    | some i =>
      let rk := (s.folio (tl.lid.getD 0) r.folio).resultKey.getD 16
      if r.cls = 6 || !i.started || i.held || i.scan || !i.imgFmt.isEmpty || decide (i.beat < blkBeats i.blk) || i.drain != 0 || !i.sink.isEmpty || !tl.egressDone i rk
      then .next s
      else .next (s.completeInst t r i (beatIndex i.blk (i.beat - 1)) i.beat)

end Sys2Proof.Machine
end

