-- ==== Sys2Proof/Machine/Elements.lean ====
section
/-! DEFINITION. The element array: readiness, operands, operations, frames, memory nodes and completion of results (R25, R26, R198 to R210,
R215 to R219). -/

namespace Sys2Proof.Machine

/-! Access to elements. -/

def EArray.elem (a : EArray) (e : Nat) : Elem := mget Elem.reset a.elems e
def EArray.modElem (a : EArray) (e : Nat) (f : Elem → Elem) : EArray := { a with elems := mput a.elems e (f (a.elem e)) }
def Elem.reg (x : Elem) (k : Nat) : Nat := mget 0 x.e k
def Elem.inq (x : Elem) (k : Nat) : List QTok := mget [] x.iq k
def Elem.outq (x : Elem) (k : Nat) : List QTok := mget [] x.oq k
def Elem.modIn (x : Elem) (k : Nat) (f : List QTok → List QTok) : Elem := { x with iq := mput x.iq k (f (x.inq k)) }
def Elem.modOut (x : Elem) (k : Nat) (f : List QTok → List QTok) : Elem := { x with oq := mput x.oq k (f (x.outq k)) }
/-- Entries join an input queue, numbered in the order of their arrival. -/
def EArray.enqueue (a : EArray) (e k : Nat) (l : List QTok) : EArray :=
  { (a.modElem e fun x => x.modIn k (· ++ l.zipIdx.map fun y => { y.1 with seq := a.nextSeq + 1 + y.2 })) with nextSeq := a.nextSeq + l.length }
/-- A withdrawn entry returns to its place, ahead of every entry that arrived after it (R219). -/
def putBack (k : QTok) : List QTok → List QTok
  | [] => [k]
  | x :: l => if k.seq < x.seq then k :: x :: l else x :: putBack k l
/-- Predicate k takes a value. -/
def Elem.setP (x : Elem) (k : Nat) (v : Bool) : Elem := { x with pb := x.pb - b2n (bit x.pb k) * 2 ^ k + b2n v * 2 ^ k }

/-! Operands (R202). -/

/-- The operations whose IMM is a binary32 (R90). -/
def isFpOp (op : Nat) : Bool := decide (0x20 ≤ op) && decide (op ≤ 0x2E)
/-- The operations that produce a condition (R202). -/
def isCondOp (op : Nat) : Bool := [0x10, 0x11, 0x12, 0x26, 0x27, 0x28].contains op

/-- The value of an operand code, and the poison of the entry it reads. -/
def Elem.operand (x : Elem) (r : Rule) (code : Nat) : Nat × Bool :=
  if code < 8 then (x.reg code, false)
  else if code < 12 then (match (x.inq (code - 8)).head? with | some k => (k.data, k.psn) | none => (0, false))
  else if code = 12 then (if isFpOp r.op then r.imm * 2 ^ 20 else wrap (Sys2Proof.sext r.imm 12) 32, false)
  else (0, false)

/-- The queues of DEQ, ascending. -/
def Rule.deqs (r : Rule) : List Nat := (List.range 4).filter (bit r.deq)

/-- The continuation of a firing; `lo` is that of the instance's SCOPE. -/
def Elem.cont (x : Elem) (r : Rule) (lo : Nat) : QTok :=
  match r.deqs.head? with
  | none => ⟨0, false, lo, 0, 0, none, 0⟩
  | some q => match (x.inq q).head? with | some k => { k with wait := none, seq := 0 } | none => ⟨0, false, lo, 0, 0, none, 0⟩

/-! Operations of classes A and V (R203 to R206, R217). -/

/-- Class of an operation: 0 A, 1 V, 2 F, 3 M, 4 S (R203). -/
def ruleClass (op : Nat) : Nat :=
  match op with
  | 0x01 | 0x13 | 0x47 | 0x48 => 1
  | 0x40 => 4
  | 0x41 | 0x42 | 0x43 | 0x44 => 2
  | 0x45 | 0x46 | 0x49 => 3
  | _ => 0

/-- Integer operations (R204). -/
def intOp (op a b : Nat) : Nat :=
  let ua := a % 2 ^ 32
  let ub := b % 2 ^ 32
  let sa := sext a 32
  let sb := sext b 32
  let sh := ub % 32
  match op with
  | 0x02 => (ua + ub) % 2 ^ 32
  | 0x03 => wrap ((ua : Int) - ub) 32
  | 0x04 => wrap (sa * sb) 32
  | 0x05 => wrap (sa * sb / 2 ^ 32) 32
  | 0x06 => ua &&& ub
  | 0x07 => ua ||| ub
  | 0x08 => ua ^^^ ub
  | 0x09 => ua * 2 ^ sh % 2 ^ 32
  | 0x0A => ua / 2 ^ sh
  | 0x0B => wrap (sa / 2 ^ sh) 32
  | 0x0C => wrap (if sa < sb then sa else sb) 32
  | 0x0D => wrap (if sa < sb then sb else sa) 32
  | 0x0E => if ua < ub then ua else ub
  | 0x0F => if ua < ub then ub else ua
  | 0x10 => b2n (ua == ub)
  | 0x11 => b2n (decide (sa < sb))
  | 0x12 => b2n (decide (ua < ub))
  | _ => ua

/-- EX2 and LG2 (R206). -/
def ex2 (a : Nat) : Nat := (roundNum 0x0D .rne false (exp2Num (decodeNum 0x0D a))).1
def lg2 (a : Nat) : Nat :=
  (roundNum 0x0D .rne false (match decodeNum 0x0D a with
    | .nan s => .nan s
    | .inf n => if n then .nan false else .inf false
    | .fin n m e => if m = 0 then .inf true else if n then .nan false else log2Num m e)).1

/-- Floating operations (R205); c is the addend register of FFMA. -/
def floatOp (op a b c imm : Nat) : Nat :=
  let x := decodeNum 0x0D a
  let y := decodeNum 0x0D b
  let r := fun (v : Num) => (roundNum 0x0D .rne false v).1
  let nan := x.isNan || y.isNan
  match op with
  | 0x20 => r (addNum x y false).1
  | 0x21 => r (addNum x y.neg false).1
  | 0x22 => r (mulNum x y).1
  | 0x23 => r (addNum (mulNum x y).1 (decodeNum 0x0D c) false).1
  | 0x24 => r (minmaxNum false x y).1
  | 0x25 => r (minmaxNum true x y).1
  | 0x26 => b2n (!nan && eqNum x y)
  | 0x27 => b2n (!nan && ltNum x y)
  | 0x28 => b2n (!nan && (ltNum x y || eqNum x y))
  | 0x29 => r (.ofInt (sext a 32))
  | 0x2A => r (.ofInt (a % 2 ^ 32 : Nat))
  | 0x2B => (roundNum 0x04 (Rm.ofCode imm) false x).1
  | 0x2C => (roundNum 0x0A (Rm.ofCode imm) false x).1
  | 0x2D => ex2 a
  | _ => lg2 a

/-- The result of a class-A or class-V rule. -/
def Elem.compute (x : Elem) (r : Rule) (a b : Nat) : Nat :=
  if r.op = 0x13 then (if bit x.pb r.pidx then a else b)
  else if isFpOp r.op then floatOp r.op a b (x.reg (r.imm % 8)) r.imm
  else if r.op = 0x01 || r.op = 0x47 || r.op = 0x48 then a
  else intOp r.op a b

/-! The cycle's working state. -/

/-- A fault of a cycle: kind, rule or port, element, cause, address (R185, R219). -/
structure EFault where
  kind : Nat
  row : Nat
  elem : Nat
  cause : Nat
  addr : Nat
  deriving DecidableEq, Repr

/-- The array while a cycle runs on tile t, with the module's state, the firings and the first fault. -/
structure Cyc where
  s : State
  t : Nat
  p : EPart
  i : Inst
  a : EArray
  fired : Nat
  bad : Option EFault

/-- A memory node that has not been performed, and the release of the SC token (R216, R218). -/
def EPend.isNode (p : EPend) : Bool := p.mem
def EPend.isRelease (p : EPend) : Bool := (ruleOf p.word).op == 0x49 && !bit (ruleOf p.word).imm 0 && p.bad.isNone

/-- The first fault stays. -/
def Cyc.fail (c : Cyc) (f : EFault) : Cyc := { c with bad := some (c.bad.getD f) }
def Cyc.mod (c : Cyc) (e : Nat) (f : Elem → Elem) : Cyc := { c with a := c.a.modElem e f }

/-! Readiness (R199, R200, R208, R210, R216, R218). -/

/-- The registers and predicates that a rule names. -/
def Rule.regs (r : Rule) : List Nat :=
  ([r.opa, r.opb, r.dst].filter (· < 8)) ++ (if r.op = 0x23 then [r.imm % 8] else []) ++ (if r.op = 0x46 then [r.imm / 32 % 8] else [])
def Rule.preds (r : Rule) : List Nat :=
  ((List.range 8).filter (bit r.care)) ++ (if r.op = 0x13 || r.pwe then [r.pidx] else [])

def EArray.u (a : EArray) (l : Nat) : Nat := a.used.getD l 0

/-- A pending operation is a memory node of ORD 4 (R218). -/
def EPart.isSc (p : EPart) (x : EPend) : Bool := x.mem && ((ruleOf x.word).nodeNo.map fun k => (p.node k).ord) == some 4

/-- The element holds the SC token: until its release takes effect (R218). -/
def Cyc.holds (c : Cyc) (e : Nat) : Bool := c.a.sc == some e

/-- The class-specific readiness; `winner` is the element that an acquire of the SC token goes to. -/
def Cyc.opReady (c : Cyc) (e : Nat) (r : Rule) (winner : Option Nat) : Bool :=
  match r.op with
  | 0x43 => decide (1 + ((List.range (r.imm % 4)).map fun l => c.p.res l - c.a.u l).sum ≤ c.p.fcount - c.a.frames.length)
  | 0x40 => !c.s.throttled c.t && decide ((c.s.tile c.t).injq.length < 16)
  | 0x45 | 0x46 =>
    decide ((c.a.pend.filter fun p => p.elem == e && ((ruleOf p.word).op == 0x45 || (ruleOf p.word).op == 0x46)).length < 4)
      && ((c.p.node (r.imm % 32)).ord != 4 || c.holds e)
  | 0x49 => !bit r.imm 0 || (c.a.sc.isNone && winner == some e)
  | _ => true

/-- A rule is ready, conflicts and classes apart. -/
def Cyc.ready (c : Cyc) (e : Nat) (r : Rule) (winner : Option Nat) : Bool :=
  let x := c.a.elem e
  r.op != 0 && x.pb &&& r.care == r.req
    && (List.range 4).all (fun k => (!bit r.ine k || !(x.inq k).isEmpty) && (!bit r.osp k || decide ((x.outq k).length < 4)))
    && !(r.regs.any x.pendR.contains) && !(r.preds.any x.pendP.contains) && c.opReady e r winner


/-! Frames (R208, R209). -/

/-- The lowest free frame. -/
def Cyc.freeFrame (c : Cyc) : Nat := ((List.range c.p.fcount).find? fun f => (mfind f c.a.frames).isNone).getD 0

def setAt (l : List Nat) (k v : Nat) : List Nat := (List.range 4).map fun j => if j = k then v else l.getD j 0

/-- What an operation of class F, M or S does at its firing: the state after, the result, the condition, whether DST is left unwritten, the
poison it adds, and a fault found at completion. -/
structure Effect where
  c : Cyc
  val : Nat
  cond : Option Bool
  skip : Bool
  psn : Bool
  bad : Option (Nat × Nat)
  mem : Bool
  addr : Nat
  data : Nat

def Effect.of (c : Cyc) : Effect := ⟨c, 0, none, false, false, none, false, 0, 0⟩

/-- FALLOC and FFREE (R208). FFREE is judged and returns its frame when it completes. -/
def Cyc.falloc (c : Cyc) (l : Nat) : Effect :=
  let f := c.freeFrame
  { Effect.of { c with a := { c.a with frames := mput c.a.frames f (l, 0), used := setAt c.a.used l (c.a.u l + 1) } } with val := f }
def Cyc.ffree (c : Cyc) (a : Nat) (psn : Bool) : Effect :=
  if psn then { Effect.of c with bad := some (0x07, 0) } else { Effect.of c with val := a, skip := true }
/-- A frame of level l returns to the free ones; none when it is not one of them (R208). -/
def Cyc.freed (c : Cyc) (l a : Nat) : Option Cyc :=
  if 2 ^ 16 ≤ a || c.p.fcount ≤ a || (mfind a c.a.frames).map (·.1) != some l then none
  else some { c with a := { c.a with frames := mdel a c.a.frames, used := setAt c.a.used l (c.a.u l - 1) } }

/-- FLD and FST (R209). `b` is the word stored, `toReg` says that the result is bound for a register. -/
def Cyc.frameOp (c : Cyc) (isSt : Bool) (addr b : Nat) (addrPsn bPsn readPsn toReg : Bool) : Effect :=
  let fr := addr / 64
  let w := addr % 64
  let at_ := c.p.fbase + 256 * fr + 4 * w
  let tl := c.s.tile c.t
  if addrPsn then { Effect.of c with bad := some (0x07, 0) }
  else if 2 ^ 22 ≤ addr || c.p.fcount ≤ fr then { Effect.of c with bad := some (0x0D, 0) }
  else match mfind fr c.a.frames with
    | none => { Effect.of c with bad := some (0x0D, at_) }
    | some (l, pres) =>
      let has := bit pres w
      let psn := has && tl.store.poisoned at_ 4
      let put := fun (v : Nat) => { c.a with frames := mput c.a.frames fr (l, v) }
      if (psn || readPsn) && toReg && (has || !isSt) then { Effect.of c with bad := some (0x07, if psn then at_ else 0) }
      else if has then
        { Effect.of (if isSt then { c with a := put (pres - 2 ^ w) } else c) with val := tl.store.read at_ 4, cond := some true, psn := psn }
      else if isSt then
        let s := c.s.writeHome (.tile c.t at_) 4 b
        { Effect.of { c with s := if bPsn then s.poisonAt (.tile c.t at_) 4 else s, a := put (pres + 2 ^ w) } with cond := some false, skip := true }
      else { Effect.of c with val := 0, cond := some false }

/-! Messages and memory nodes (R210, R216, R218). -/

/-- SEND (R210). DESIGN CHOICE (log 66): poison is judged before the destination. -/
def Cyc.send (c : Cyc) (r : Rule) (x : Elem) (tag a b : Nat) (psn : Bool) : Effect :=
  let dest := if r.imm = 0xFFF then some c.t else (c.s.launch ((c.s.tile c.t).lid.getD 0)).tiles[r.imm]?
  if psn then { Effect.of c with bad := some (0x07, 0) }
  else match dest with
    | none => { Effect.of c with bad := some (0x04, 0) }
    | some u =>
      let w1 := if r.dst < 8 then x.reg r.dst else 0
      let f := c.s.flit c.t u (b2n (decide (r.dst < 8))) (bits a 25 22) (a % 2 ^ 32 * 2 ^ 96 + tag % 2 ^ 16 * 2 ^ 80 + w1 * 2 ^ 32 + b % 2 ^ 32)
      let n := (c.s.tile c.t).sentMsgs + 1
      Effect.of { c with s := ((c.s.sendFlit c.t u f).modTile c.t fun tl => { tl with sentMsgs := n }).meter (c.s.partId c.t) 5 1, i := { c.i with lastMsg := n } }

/-- The origin of a memory node (R215). -/
def Cyc.origin (c : Cyc) (d : NodeDesc) : Nat :=
  (if d.prel then (patOf (c.i.imgs.getD (c.i.blk.binds.length + d.pat) 0)).base else 0) + d.off

/-- LDN and STN (R216). -/
def Cyc.nodeOp (c : Cyc) (r : Rule) (x : Elem) (a b : Nat) (aPsn bPsn : Bool) : Effect :=
  let d := c.p.node (r.imm % 32)
  let isSt := r.op == 0x46
  let ix := (if isSt then x.reg (r.imm / 32 % 8) else a) % 2 ^ 32
  let addr := c.origin d + ix * 2 ^ d.width
  if bPsn || (!isSt && aPsn) then { Effect.of c with bad := some (0x07, 0) }
  else if b % 2 ^ 32 = 0 then Effect.of c
  else if d.count ≤ ix then { Effect.of c with bad := some (0x04, addr) }
  else { Effect.of c with mem := true, addr := addr, data := a }

/-- SCHOLD (R218): a release takes effect when it completes. -/
def Cyc.schold (c : Cyc) (e : Nat) (acquire : Bool) : Effect :=
  if acquire then Effect.of { c with a := { c.a with sc := some e, scLast := e } }
  else if c.holds e then Effect.of c
  else { Effect.of c with bad := some (0x0D, 0) }

/-! Firing (R199, R200, R202, R219). -/

/-- The operation of a rule of class F, M or S. -/
def Cyc.effect (c : Cyc) (e : Nat) (r : Rule) (x : Elem) (k : QTok) (a b : Nat × Bool) : Effect :=
  match r.op with
  | 0x40 => c.send r x k.tag a.1 b.1 (a.2 || b.2)
  | 0x41 | 0x42 =>
    let own := bit r.imm 0
    c.frameOp (r.op == 0x42) (if own then a.1 % 2 ^ 32 else k.frame * 64 + k.fword) (b.1 % 2 ^ 32) (if own then a.2 else k.psn) b.2 (a.2 || b.2)
      (decide (r.dst < 8))
  | 0x43 => c.falloc (r.imm % 4)
  | 0x44 => c.ffree (a.1 % 2 ^ 32) a.2
  | 0x49 => c.schold e (bit r.imm 0)
  | _ => c.nodeOp r x a.1 b.1 a.2 b.2

/-- The output queues of a rule: DST, and the second one of TFORK. -/
def Rule.outs (r : Rule) : List Nat := (if 8 ≤ r.dst && r.dst ≤ 11 then [r.dst - 8] else []) ++ (if r.op = 0x47 then [r.imm % 4] else [])

/-- A rule fires: entries leave, results take their places, its register and predicate are pending. -/
def Cyc.place (c : Cyc) (e n word : Nat) (r : Rule) (k : QTok) (f : Effect) (left : Nat) (later : Bool) : Cyc :=
  let id := c.a.nextId + 1
  let x := c.a.elem e
  let taken := r.deqs.filterMap fun q => (x.inq q).head?.map fun t => (q, t)
  let tok : QTok := { k with data := f.val % 2 ^ 32, wait := if later then some id else none }
  let x := r.deqs.foldl (fun (x : Elem) q => x.modIn q List.tail) x
  let x := r.outs.foldl (fun (x : Elem) q => x.modOut q (· ++ [tok])) x
  let x := { x with pendR := x.pendR ++ (if r.dst < 8 && r.op != 0x40 then [r.dst] else []), pendP := x.pendP ++ (if r.pwe then [r.pidx] else []) }
  let p : EPend := {
    id := id, elem := e, rule := n, word := word, tok := k, taken := taken, left := left, val := f.val % 2 ^ 32, skip := f.skip, cond := f.cond,
    bad := f.bad, mem := f.mem, addr := f.addr, data := f.data }
  { c with a := { (c.a.modElem e fun _ => x) with nextId := id, pend := c.a.pend ++ [p] }, fired := c.fired + 1 }

/-- Rule n of element e is performed. A fault of class A or V is found at once and nothing is done. DESIGN CHOICE (log 66): the predicate of a SEND
stops being pending at the end of the firing cycle. -/
def Cyc.fire (c : Cyc) (e n word : Nat) : Cyc :=
  let r := ruleOf word
  let x := c.a.elem e
  let a := x.operand r r.opa
  let b := x.operand r r.opb
  let k0 := x.cont r c.i.tag
  let psn := a.2 || b.2
  let k := { k0 with psn := psn }
  if ruleClass r.op ≤ 1 then
    if psn && (r.dst < 8 || (r.pwe && isCondOp r.op)) then c.fail ⟨2, n, e, 0x07, 0⟩
    else
      let v := x.compute r a.1 b.1
      c.place e n word r k { Effect.of c with val := v, cond := if isCondOp r.op then some (v != 0) else none } 0 false
  else
    let f := c.effect e r x k0 a b
    let poisoned := f.bad.isNone && (r.op == 0x45 || r.op == 0x46) && psn && r.dst < 8
    let f := if poisoned then { f with bad := some (0x07, 0), mem := false } else f
    f.c.place e n word r { k with psn := psn || f.psn } f (if ruleClass r.op = 2 then 1 else 0) true

/-- The pass of an element over its rules from rule n on: the rules fired and their classes. -/
def Cyc.pass (c : Cyc) (e : Nat) (winner : Option Nat) : Nat → List Nat → List Nat → Cyc
  | 0, _, _ => c
  | m + 1, done, classes =>
    if c.bad.isSome then c
    else
      let n := 15 - m
      let word := (c.p.rules.getD e []).getD n 0
      let r := ruleOf word
      if !c.ready e r winner || done.any (fun j => bit ((c.p.conflicts.getD e []).getD n 0) j) || classes.contains (ruleClass r.op)
      then Cyc.pass c e winner m done classes
      else Cyc.pass (c.fire e n word) e winner m (done ++ [n]) (classes ++ [ruleClass r.op])

/-- Elements 0 to n - 1 make their passes in element order. DESIGN CHOICE (log 65): R199 orders the rules of an element, the model orders the
elements by their numbers, so the lower one gets the last room of the injection queue (R210). -/
def Cyc.passes (c : Cyc) (w : Option Nat) (n : Nat) : Cyc :=
  (List.range n).foldl (fun c e => if (c.p.rules.getD e []).all (· == 0) then c else c.pass e w 16 [] []) c

/-- The element that an acquire goes to: of those whose SCHOLD is ready when their pass comes to it, the lowest above the last holder,
cyclically (R199, R218). -/
def Cyc.winner (c : Cyc) : Option Nat :=
  if c.a.sc.isSome then none
  else ((List.range 64).map fun k => (c.a.scLast + 1 + k) % 64).find? fun e =>
    (List.range 16).any (fun i => let r := c.p.rule e i; r.op == 0x49 && bit r.imm 0) && (c.passes (some e) (e + 1)).a.sc == some e

/-- Every element makes its pass. -/
def Cyc.fireAll (c : Cyc) : Cyc := c.passes c.winner 64

/-! Completion of results (R198, R200, R202, R219). -/

/-- A firing is withdrawn: its entries return to their places, its enqueues and marks go. DESIGN CHOICE (log 65): a queue that has refilled
meanwhile holds more than its 4 entries then, and takes none until it has room (R219). -/
def EArray.withdraw (a : EArray) (p : EPend) : EArray :=
  let r := ruleOf p.word
  let a := a.modElem p.elem fun x =>
    let x := p.taken.foldl (fun (x : Elem) t => x.modIn t.1 (putBack t.2)) x
    let x := r.outs.foldl (fun (x : Elem) q => x.modOut q fun l => l.filter fun t => t.wait != some p.id) x
    { x with pendR := if r.dst < 8 && r.op != 0x40 then x.pendR.erase r.dst else x.pendR, pendP := if r.pwe then x.pendP.erase r.pidx else x.pendP }
  { a with pend := a.pend.filter fun q => q.id != p.id }

/-- A result becomes visible. -/
def EArray.finish (a : EArray) (p : EPend) : EArray :=
  let r := ruleOf p.word
  let a := a.modElem p.elem fun x =>
    let x := r.outs.foldl (fun (x : Elem) q => x.modOut q fun l =>
      if p.skip then l.filter fun t => t.wait != some p.id
      else l.map fun t => if t.wait == some p.id then { t with data := p.val, wait := none } else t) x
    let x := if r.dst < 8 && r.op != 0x40 then
      { x with e := if p.skip then x.e else mput x.e r.dst p.val, pendR := x.pendR.erase r.dst } else x
    if r.pwe then { x.setP r.pidx (match p.cond with | some v => v == r.pval | none => r.pval) with pendP := x.pendP.erase r.pidx } else x
  { a with pend := a.pend.filter fun q => q.id != p.id }

/-- The release of the SC token waits until every sc node of the element is performed (R218). -/
def Cyc.releaseWaits (c : Cyc) (p : EPend) : Bool := p.isRelease && c.a.pend.any fun q => q.elem == p.elem && c.p.isSc q

/-- An operation completes: its result is visible, a frame is free, the SC token is released; or it is withdrawn with a fault. -/
def Cyc.completeOp (c : Cyc) (p : EPend) : Cyc :=
  let fail := fun (b : Nat × Nat) => { c with a := c.a.withdraw p }.fail ⟨2, p.rule, p.elem, b.1, b.2⟩
  match p.bad with
  | some b => fail b
  | none =>
    if (ruleOf p.word).op = 0x44 then
      match c.freed ((ruleOf p.word).imm % 4) p.val with
      | none => fail (0x0D, 0)
      | some c => { c with a := c.a.finish p }
    else { c with a := { c.a.finish p with sc := if p.isRelease && c.a.sc == some p.elem then none else c.a.sc } }

/-- Results that complete in this cycle, in firing order. -/
def Cyc.settle (c : Cyc) : Cyc :=
  c.a.pend.foldl (fun (c : Cyc) p =>
    if p.mem || c.releaseWaits p then c
    else if p.left != 0 then { c with a := { c.a with pend := c.a.pend.map fun q => if q.id == p.id then { q with left := q.left - 1 } else q } }
    else c.completeOp p) c

end Sys2Proof.Machine
end

