-- ==== Sys2Proof/Machine/EvElement.lean ====
section
/-! DEFINITION. Hardware steps of the element array: the element cycle, memory nodes and active messages (R178, R189, R198, R201, R202,
R211 to R214, R216, R219). A step that is not enabled changes nothing. -/

namespace Sys2Proof.Machine

/-! Intake (R198, R211, R213). -/

/-- The converters of a run: those of the quarters of its mask whose port has the token role. -/
def tokenPorts (f : Folio) (qmask : Nat) (egress : Bool) : List Nat :=
  (List.range 16).filter fun k => bit qmask (k / 4) && f.role (k + if egress then 16 else 0) == (if egress then 2 else 7)

/-- A candidate of an element: handler, words, continuation with its poison. -/
structure Cand where
  hnd : Nat
  words : List Nat
  tok : QTok
  deriving DecidableEq, Repr

/-- The address of an entry of a message queue. -/
def msgAddr (e slot : Nat) : Nat := 0x2F0000 + 1024 * e + 16 * slot

/-- The head of an element's message queue, with the bytes its entry holds now. -/
def Tile.msgHead (tl : Tile) (e : Nat) : Option Cand :=
  match mfind e tl.msgs with
  | some (h, kind :: _) =>
    let v := tl.store.read (msgAddr e h) 16
    some ⟨bits v 121 118, [bits v 31 0] ++ (if kind = 1 then [bits v 63 32] else []),
      ⟨0, tl.store.poisoned (msgAddr e h) 16, bits v 95 80, bits v 117 102, bits v 101 96, none, 0⟩⟩
  | _ => none

/-- The next token of ingress converter k. -/
def Cyc.token (c : Cyc) (k : Nat) : Option Cand :=
  if mget 0 c.i.given k ≥ blkBeats c.i.blk then none
  else match (c.s.tile c.t).portOf c.i k with
    | none => none
    | some (p, _, _) => (p.fifo.head?).map fun x =>
        ⟨bits (c.p.convs.getD k 0) 9 6, [x.bits % 2 ^ 32], ⟨0, x.psn, c.i.tag, 0, 0, none, 0⟩⟩

/-- The handler's queue has room and its predicate is not pending. -/
def Cyc.takes (c : Cyc) (e : Nat) (k : Cand) : Bool :=
  let h := (c.p.handlers.getD e []).getD k.hnd 0
  let x := c.a.elem e
  decide ((x.inq (bits h 5 4)).length + k.words.length ≤ 4) && !x.pendP.contains (bits h 2 0)

/-- A candidate is taken from source n (0 the message queue, 1 + k converter k). -/
def Cyc.take (c : Cyc) (e n : Nat) (k : Cand) : Cyc :=
  let h := (c.p.handlers.getD e []).getD k.hnd 0
  let c := c.mod e fun x => { x.setP (bits h 2 0) (bit h 3) with rr := n }
  let c := { c with a := c.a.enqueue e (bits h 5 4) (k.words.map fun w => { k.tok with data := w }) }
  if n = 0 then
    { c with s := c.s.modTile c.t fun tl => { tl with msgs := match mfind e tl.msgs with
        | some m => mput tl.msgs e ((m.1 + 1) % 64, m.2.tail) | none => tl.msgs } }
  else
    { c with i := { c.i with given := mmod 0 c.i.given (n - 1) (· + 1) }
             s := c.s.modTile c.t fun tl => match tl.portOf c.i (n - 1) with
               | some (p, q, x) => { tl with ips := mput tl.ips (n - 1) { p with fifo := p.fifo.tail } }.settle q x.id
               | none => tl }

/-- An element's intake: the first source after the last served that can be taken. A poisoned message faults. -/
def Cyc.intake (c : Cyc) (ports : List Nat) (e : Nat) : Cyc :=
  let x := c.a.elem e
  let src := ((List.range 17).map fun k => (x.rr + 1 + k) % 17).filterMap fun n =>
    if n = 0 then ((c.s.tile c.t).msgHead e).map fun k => (n, k)
    else if ports.contains (n - 1) && bits (c.p.convs.getD (n - 1) 0) 15 10 == e then (c.token (n - 1)).map fun k => (n, k) else none
  match src.find? fun y => c.takes e y.2 with
  | none => c
  | some (n, k) => if n = 0 && k.tok.psn then c.fail ⟨2, 16, e, 0x07, msgAddr e ((mfind e (c.s.tile c.t).msgs).getD (0, [])).1⟩ else c.take e n k

/-- The stop of the stream at an ingress port, when the instance still takes from it: at once when it is a translation fault (R187), else behind its
last element. -/
def Cyc.inStop (c : Cyc) (k : Nat) : Option (Nat × Nat) :=
  if mget 0 c.i.given k ≥ blkBeats c.i.blk then none
  else match (c.s.tile c.t).portOf c.i k with
    | some (p, _, e) => if (p.fifo.isEmpty && e.flight.isEmpty) || (e.stop.any fun x => x.1 == 0x06) then e.stop else none
    | none => none

/-- The stop of the stream at an egress port, at once. -/
def Cyc.outStop (c : Cyc) (k : Nat) : Option (Nat × Nat) := ((c.s.tile c.t).portOf c.i (16 + k)).bind fun x => x.2.2.stop

/-- A stream of a converter stopped at a fault (R185): translation faults first, by the lowest port number (R187, R313), then the others. -/
def Cyc.streamFault (c : Cyc) (ports outs : List Nat) : Cyc :=
  let stops := (List.range 16).flatMap fun k =>
    (if ports.contains k then ((c.inStop k).map fun x => (k, x)).toList else []) ++ if outs.contains k then ((c.outStop k).map fun x => (k, x)).toList else []
  match (stops.find? fun x => x.2.1 == 0x06) <|> stops.head? with
  | some (k, x) => c.fail ⟨1, k, 0, x.1, x.2⟩
  | none => c

/-! Passing between queues (R201, R213). -/

/-- The consumer of an output queue: element and input queue. -/
def neighbour (e q : Nat) : Option (Nat × Nat) :=
  match q with
  | 0 => if e % 8 < 7 then some (e + 1, 2) else none
  | 1 => if e / 8 < 7 then some (e + 8, 3) else none
  | 2 => if 0 < e % 8 then some (e - 1, 0) else none
  | _ => if 0 < e / 8 then some (e - 8, 1) else none

/-- The egress converter that drains an output queue: of several that name it, the lowest (DESIGN CHOICE, log 66; R201 orders none). -/
def Cyc.drain (c : Cyc) (ports : List Nat) (e q : Nat) : Option Nat :=
  ports.find? fun k => bits (c.p.convs.getD k 0) 31 26 == e && bits (c.p.convs.getD k 0) 25 24 == q

/-- An egress converter writes one element. -/
def Cyc.convert (c : Cyc) (e q k : Nat) (x : QTok) : Cyc :=
  match (c.s.tile c.t).portOf c.i (16 + k) with
  | none => c
  | some (p, _, s) =>
    if (c.s.tile c.t).egressSpace p s = 0 || (c.s.tile c.t).toGo (16 + k) s = 0 then c
    else if x.psn then c.fail ⟨3, k, e, 0x07, 0⟩
    else
      let el : PElem := ⟨x.data % 2 ^ s.patA.width, s.patA.fmt, if s.patA.layout = 3 then s.patA.nval else 0, false, 0⟩
      { c.mod e (fun y => y.modOut q List.tail) with
        s := c.s.modTile c.t fun tl => { tl with eps := mput tl.eps k { p with fifo := p.fifo ++ [el] } } }

/-- An output queue that held an entry when the cycle began passes its head. -/
def Cyc.passOut (c : Cyc) (ports : List Nat) (e q : Nat) : Cyc :=
  match ((c.a.elem e).outq q).head? with
  | none => c
  | some x =>
    if x.wait.isSome then c
    else match c.drain ports e q with
      | some k => c.convert e q k x
      | none => match neighbour e q with
        | none => c
        | some (u, k) => if 4 ≤ ((c.a.elem u).inq k).length then c
          else { c with a := (c.a.modElem e fun y => y.modOut q List.tail).enqueue u k [x] }

/-! The cycle (R178, R198, R214, R219). -/

/-- The instance's conditions for completion at a cycle boundary (R214). -/
def Cyc.complete (c : Cyc) (ins outs : List Nat) : Bool :=
  let tl := c.s.tile c.t
  ins.all (fun k => decide (blkBeats c.i.blk ≤ mget 0 c.i.given k))
    && outs.all (fun k => match tl.portOf c.i (16 + k) with | some (_, _, e) => tl.toGo (16 + k) e == 0 | none => true)
    && c.a.pend.isEmpty && decide (c.i.lastMsg + (tl.injq.filter fun f => decide (f.kind ≤ 1)).length ≤ tl.sentMsgs)
    && !((List.range 64).any fun e => (List.range 16).any fun n => c.ready e (c.p.rule e n) c.winner)

/-- Entries left in element queues. -/
def EArray.left (a : EArray) : Nat := (a.elems.map fun x => ((x.2.iq ++ x.2.oq).map fun q => q.2.length).sum).sum

/-- Step 1 of a cycle, intake (R198, R211, R213), behind the stop of a stream. -/
def Cyc.takeIn (c : Cyc) (ins outs : List Nat) : Cyc :=
  let c := c.streamFault ins outs
  if c.bad.isSome then c else (List.range 64).foldl (fun c e => c.intake ins e) c

/-- The three steps of a cycle (R198); a cycle whose class 11 the budget holds fires no rule. DESIGN CHOICE (log 38): a fault found at intake
ends the cycle there. DESIGN CHOICE (log 65): a converter too takes only from a queue that held an entry when the cycle began (R198, R201). -/
def Cyc.run (c : Cyc) (ins outs : List Nat) (held : Bool) : Cyc :=
  let full := (List.range 64).flatMap fun e => (List.range 4).filterMap fun q => if ((c.a.elem e).outq q).isEmpty then none else some (e, q)
  let c := c.takeIn ins outs
  if c.bad.isSome then c
  else
    let c := (if held then c else c.fireAll).settle
    let c := full.foldl (fun c x => c.passOut outs x.1 x.2) c
    { c with a := { c.a with cycles := if held then c.a.cycles else c.a.cycles + 1 } }

/-- TRAPAUX of an element-array fault (R202, R219). -/
def EFault.aux (f : EFault) (b : BlockArgs) : Nat :=
  if f.kind = 3 then 2 ^ 31 + 3 * 2 ^ 29 + f.row / 4 * 2 ^ 27 + f.row * 2 ^ 18 + f.elem * 2 ^ 11 else faultAux b f.kind f.row f.elem


/-- The working state goes back into the module. -/
def Cyc.store (c : Cyc) (qmask : Nat) : State := c.s.modTile c.t fun tl => { tl with array := c.a }.modInst qmask fun _ => c.i

/-- The module after a cycle: a fault is taken at its end boundary (R219), a committed cycle stands. -/
def Cyc.close (c : Cyc) (r : Run) : State :=
  let s := c.store r.qmask
  let s := if c.fired = 0 then s else (s.work c.t 11 1 (s.ctx c.t c.i.ctx).trap).meter (s.partId c.t) 4 c.fired
  match c.bad with
  | some b => s.blockFault c.t r { c.i with beat := c.a.cycles } b.cause b.addr (b.aux c.i.blk) c.a.index
  | none => s

/-- A cycle boundary: a message-queue overflow, which a context in trap mode takes behind its handler (R271), completion, or the next cycle. -/
def State.elementStep (s : State) (t : Nat) (r : Run) (i : Inst) (f : Folio) (p : EPart) : State :=
  let tl := s.tile t
  let ins := tokenPorts f r.qmask false
  let outs := tokenPorts f r.qmask true
  let i := { i with beat := tl.array.cycles }
  let c : Cyc := ⟨s, t, p, i, tl.array, 0, none⟩
  match tl.msgOver with
  | e :: _ =>
    let s := s.modTile t fun tl => { tl with msgOver := tl.msgOver.tail }
    if (s.ctx t i.ctx).trap then s.modCtx t i.ctx fun x => { x with deferred := x.deferred ++ [⟨0x0D, 0, faultAux i.blk 2 16 e, false⟩] }
    else s.blockFault t r i 0x0D 0 (faultAux i.blk 2 16 e) tl.array.index
  | [] =>
    if (c.streamFault ins outs).bad.isNone && c.complete ins outs then
      (if outs.all fun k => tl.egressDone i (16 + k)
       then (s.completeInst t r { i with strays := i.strays + tl.array.left } tl.array.index tl.array.cycles).modTile t fun tl =>
         { tl with array := EArray.reset }
       else s)
    else (c.run ins outs (tl.hold.contains 0)).close r

/-- The array comes to rest (R189, R220): pending reads are withdrawn, with a release of the SC token that waits for them; so is, of an instance held
for its handler, whatever has met a fault: it fires again when the instance goes on. -/
def Cyc.rest (c : Cyc) : Cyc :=
  let reads := c.a.pend.filter fun p => ((p.mem || p.bad.isSome) && (ruleOf p.word).op == 0x45) || (c.i.held && p.bad.isSome)
  let rel := c.a.pend.filter fun p => p.isRelease && reads.any fun q => q.elem == p.elem && c.p.isSc q
  { c with a := (reads ++ rel).foldl EArray.withdraw c.a }

/-- A step of an array that comes to rest: operations of class F and stores complete, no rule fires (R220). -/
def State.restStep (s : State) (t : Nat) (r : Run) (i : Inst) (p : EPart) : State :=
  (Cyc.mk s t p i (s.tile t).array 0 none).rest.settle.close r

/-- ELEMENT_CYCLE (R198, R211, R214, R219, R220). -/
def execElementCycle (t : Nat) (s : State) : Out :=
  let tl := s.tile t
  match tl.runs.find? fun r => r.cls == 6 with
  | none => .next s
  | some r => match r.insts.head? with
    | none => .next s
    | some i =>
      let f := s.folio (tl.lid.getD 0) r.folio
      match f.epart with
      | none => .next s
      | some p =>
        if !r.ready || !i.started || i.scan || !i.imgFmt.isEmpty then .next s
        else if !tl.open_ || s.condemned t i.ctx then
          .next (if tl.array.storing then s.restStep t r i p
            else if !tl.open_ || i.held || (s.ctx t i.ctx).owesAtomic then s else s.killTask t i.ctx)
        else if i.held then .next s
        else .next (s.elementStep t r i f p)

/-! Memory nodes (R136, R216, R219). -/

/-- The access of a memory node: the value read or the token, or a fault. -/
def State.nodeAccess (s : State) (t : Nat) (d : NodeDesc) (isSt : Bool) (p : EPend) : State × EPend :=
  let n := 2 ^ d.width
  let fail := fun (c : Nat) => (s, { p with mem := false, bad := some (c, p.addr) })
  if p.addr % n ≠ 0 then fail 0x05
  else match s.resolve t d.space p.addr n (!isSt) isSt with
    | .error e =>
      let r := fail e.1
      (if d.space = 0 then s.edgeAt (viaTile t) (s.partId t) p.addr n (!isSt) isSt else s, r.2)
    | .ok h =>
      let psn := s.poisonRead h n
      let s := s.edgeTouch (viaTile t) (s.partId t) d.space p.addr n h (!isSt) isSt
      if isSt then
        let s' := s.doStore (s.partId t) h n (p.data % 2 ^ (8 * n))
        (if p.tok.psn then s'.poisonAt h n else s', { p with mem := false, val := 1 })
      else if psn then (s, { p with mem := false, bad := some (0x07, p.addr) })
      else
        let v := s.readHome h n
        (s.meterDev (s.partId t) h n false, { p with mem := false, val := if d.sgn then wrap (sext v (8 * n)) 32 else v })

/-- An earlier firing of the same node, or an earlier sc firing of the same element, is performed first (R218, R277, R290). -/
def EArray.nodeWaits (a : EArray) (part : EPart) (p : EPend) : Bool :=
  a.pend.any fun q => q.mem && decide (q.id < p.id)
    && ((ruleOf q.word).nodeNo == (ruleOf p.word).nodeNo || (q.elem == p.elem && part.isSc q && part.isSc p))

/-- MEMORY_NODE_COMPLETE (R216): the access is performed; a translation fault stops the clock (R187, R219). -/
def execMemoryNodeComplete (t id : Nat) (s : State) : Out :=
  let tl := s.tile t
  match tl.runs.find? fun r => r.cls == 6 with
  | none => .next s
  | some r => match r.insts.head?, (s.folio (tl.lid.getD 0) r.folio).epart, tl.array.pend.find? fun p => p.id == id && p.mem with
    | some i, some part, some p =>
      let w := ruleOf p.word
      if i.scan || (!tl.open_ && w.op != 0x46) || tl.array.nodeWaits part p then .next s
      else
        let x := s.nodeAccess t (part.node (w.imm % 32)) (w.op == 0x46) p
        match x.2.bad with
        | some b =>
          if b.1 = 0x06 && !i.held then
            .next ((x.1.modTile t fun tl => { tl with array := tl.array.withdraw p }).blockFault t r { i with beat := tl.array.cycles } 0x06 b.2
              (faultAux i.blk 2 p.rule p.elem) tl.array.index)
          else .next (x.1.modTile t fun tl => { tl with array := { tl.array with pend := replaceFirst (fun q => q.id == id) (fun _ => x.2) tl.array.pend } })
        | none => .next (x.1.modTile t fun tl => { tl with array := { tl.array with pend := replaceFirst (fun q => q.id == id) (fun _ => x.2) tl.array.pend } })
    | _, _, _ => .next s

/-! Active messages (R211, R212). -/

/-- ACTIVE_MESSAGE_ARRIVAL (R211): discarded when its tag is cancelled, or when the queue is full. -/
def execActiveMessageArrival (t : Nat) (s : State) : Out :=
  match (s.tile t).takeIntake fun f => decide (f.kind ≤ 1) with
  | none => .next s
  | some (f, tl) =>
    let v := f.payload
    let e := bits v 127 122
    let m := (mfind e tl.msgs).getD (0, [])
    if tl.coversTag (bits v 95 80) then .next (s.modTile t fun _ => tl)
    else if 64 ≤ m.2.length then .next (s.modTile t fun _ => { tl with msgOver := tl.msgOver ++ [e] })
    else .next (s.modTile t fun _ =>
      let a := msgAddr e ((m.1 + m.2.length) % 64)
      let st := tl.store.write a 16 v
      { tl with store := if f.bad then st.addPoison a 16 else st, msgs := mput tl.msgs e (m.1, m.2 ++ [f.kind]) })

end Sys2Proof.Machine
end

