-- ==== Sys2Proof/Machine/Launches.lean ====
section
/-! DEFINITION. Launch descriptors (R258), their checks and admission with the quote of R320 (R319, R320). -/

namespace Sys2Proof.Machine

/-- A launch descriptor (R258). -/
structure Desc where
  cont : Nat
  csize : Nat
  arg : Nat
  endAddr : Nat
  root : Nat
  nvt : Nat
  pri : Nat
  ctr : Nat
  zeroBad : Bool
  deriving DecidableEq, Repr

def descOf (v : Nat) : Desc :=
  { cont := bits v 511 448, csize := bits v 447 384, arg := bits v 383 320, endAddr := bits v 319 256, root := bits v 255 224,
    nvt := bits v 223 212, pri := bits v 211 207, ctr := bits v 191 128, zeroBad := bits v 206 192 != 0 || bits v 127 0 != 0 }


/-- The live launches of a partition. -/
def State.liveLaunches (s : State) (p : Nat) : List (Nat × Launch) := s.launches.filter fun l => l.2.part == p && l.2.st != .ended

/-- The tile of a partition: in its save area while the partition is switched out (R335). -/
def State.tileOf (s : State) (p t : Nat) : Tile := if (s.part p).out then mget Tile.reset (s.part p).saved t else s.tile t
def State.modTileOf (s : State) (p t : Nat) (f : Tile → Tile) : State :=
  if (s.part p).out then s.modPart p fun q => { q with saved := mput q.saved t (f (mget Tile.reset q.saved t)) } else s.modTile t f

/-- A tile of a partition holds a live launch. -/
def State.tileLive (s : State) (p t : Nat) : Bool :=
  match (s.tileOf p t).lid with | some l => (s.launch l).st != .ended | none => false

/-- The tiles of a partition without a live launch, in the order of R318. -/
def State.freeTiles (s : State) (p : Nat) : List Nat := (s.part p).tiles.filter fun t => !s.tileLive p t

/-- The root overlaps that of a live launch. -/
def State.rootTaken (s : State) (p root : Nat) : Bool := (s.liveLaunches p).any fun l => scOverlap l.2.root root

/-- A space-0 address of n bytes translates with write permission, as seen from a die: the cause and aux that R136 gives otherwise. DESIGN CHOICE
(log 66): an I/O die translates at an edge of its own. -/
def State.writable (s : State) (p die addr n : Nat) : Except (Nat × Nat) Home :=
  if 2 ^ 52 < addr + n then .error (0x04, 0)
  else match s.translate die p addr false true with | .ok pa => .ok (s.devHome p pa) | .error x => .error (0x06, x)

/-- The checks of R258 on a descriptor that has been read: cause and aux. -/
def State.descFault (s : State) (p die : Nat) (d : Desc) : Option (Nat × Nat) :=
  let wr := fun (a n : Nat) => if a = 0 then none else match s.writable p die a n with | .ok _ => none | .error e => some e
  if d.endAddr % 32 ≠ 0 || d.ctr % 16 ≠ 0 then some (0x05, 0)
  else wr d.endAddr 32 <|> wr d.ctr 16 <|>
    (if d.zeroBad || d.nvt == 0 || decide (3072 < d.nvt) || decide (24 ≤ d.pri) || !scValid d.root || s.rootTaken p d.root
     then some (0x02, 0) else none)

/-- The launch quote; none when the space-0 grant is 0 (R320). -/
def State.launchQuote (s : State) (p die : Nat) (d : Desc) : Option Nat :=
  if s.rho0 p = 0 then none
  else some (min (2048 + 24 * s.maxHops die (s.stacks p) + cdiv d.csize (64 * min 4 (s.rho0 p)) + 16 * d.nvt) (2 ^ 64 - 2))

/-- The tiles that are not reserved: free ones less those of launches that the loader has still to place (R320; log 9). -/
def State.unreserved (s : State) (p : Nat) : Nat :=
  (s.freeTiles p).length - (((s.liveLaunches p).filter fun l => l.2.st == .admitted).map fun l => l.2.nvt).sum

/-- Admission (R320): NVT tiles are reserved at once (log 9). -/
def State.enrol (s : State) (p die limit : Nat) (d : Desc) (x2 : Nat) (parent rack : Option Nat) : Option (Nat × State) :=
  match s.launchQuote p die d with
  | none => none
  | some q =>
    if (limit != 0 && decide (limit < q)) || decide (s.unreserved p < d.nvt) || s.rootTaken p d.root then none
    else
      let l := s.nextLid + 1
      let s := s.modLaunch l fun _ => { Launch.reset with
        part := p, cont := d.cont, csize := d.csize, arg := d.arg, endAddr := d.endAddr, root := d.root, nvt := d.nvt, pri := d.pri,
        ctr := d.ctr, x2 := x2, parent := parent, rack := rack, st := .admitted }
      some (q, { s with nextLid := l })

/-- Deadline admission (R275, R317). -/
def State.deadline (s : State) (p : Nat) : Bool := match (s.part p).sched with | some r => r.dl | none => false

/-- The priority that a task is queued at (R36, R275). -/
def State.priOf (s : State) (p v : Nat) : Nat := min v (if s.deadline p then 23 else 19)

end Sys2Proof.Machine
end

