-- ==== Sys2Proof/Machine/Tasks.lean ====
section
/-! DEFINITION. Spawning, launching and cancelling, major 0x90 (R253 to R258, R263 to R265, R322, R323). -/

namespace Sys2Proof.Machine

/-! Task records (R36, R255). -/

/-- The fields of a task record as a task of a launch. -/
def State.taskOf (s : State) (l addr r : Nat) : Task :=
  { addr := addr, scope := bits r 255 224, pri := s.priOf (s.launch l).part (bits r 175 171), entry := bits r 319 256,
    arg := bits r 383 320, vtile := bits r 187 176,
    groups := ((List.range 4).filter (fun k => bit r (188 + k))).map (fun k => bits r (192 + 8 * k + 7) (192 + 8 * k)) |>.eraseDups,
    depAddr := bits r 447 384, depTgt := bits r 511 448, lid := l, depWarned := false, arrived := [], saved := none, lastPc := none }

/-- The rules of R36 for a record of a spawner. -/
def State.recordBad (s : State) (l scope r : Nat) : Bool :=
  bits r 170 0 != 0 || decide (24 ≤ bits r 175 171) || bits r 258 256 != 0 || !scValid (bits r 255 224)
    || !contains scope (bits r 255 224)
    || (List.range 4).any (fun k => bit r (188 + k) && (mfind (bits r (192 + 8 * k + 7) (192 + 8 * k)) (s.launch l).groups).isNone)
    || bits r 387 384 != 0

/-- The checks of one record, in order: its task and home, or the trap (R255). -/
def State.readRecord (s : State) (addr k : Nat) : Except Trap3 (Task × Home) :=
  if addr % 64 ≠ 0 then .error (0x05, addr, k)
  else match s.resolve s.cur.1 0 addr 64 true false with
    | .error e => .error (e.1, addr, k)
    | .ok h =>
      if s.poisonRead h 64 then .error (0x07, addr, k)
      else
        let r := s.readHome h 64
        let task := s.taskOf s.myLid addr r
        let dep := if task.depAddr = 0 then none else
          match s.resolve s.cur.1 0 task.depAddr 16 true false with | .error e => some e.1 | .ok _ => none
        if s.recordBad s.myLid s.me.scope r then .error (0x02, addr, k)
        else match dep with
          | some c => .error (c, task.depAddr, k)
          | none => if task.vtile != 0xFFF && decide (s.myLaunch.nvt ≤ task.vtile) then .error (0x04, addr, k) else .ok (task, h)

/-- The edge's part in reading a record, and the one of its dependence (R302, R310, R380, R381). -/
def State.touchRecord (s : State) (addr : Nat) (r : Except Trap3 (Task × Home)) : State :=
  let die := dieOf s.cur.1
  if addr % 64 ≠ 0 || !s.rangeOk s.cur.1 0 addr 64 then s
  else
    let u := s.readRecordAt die s.myPart addr 64
    match r with
    | .error f => u.missed f.1 f.2.1 true false
    | .ok x => if x.1.depAddr = 0 then u else u.fillCache die s.myPart x.1.depAddr true false

/-- Every record of the batch from number k on, one after the other. -/
def State.readRecords (s : State) (base : Nat) : Nat → Nat → State × Except Trap3 (List (Task × Home))
  | _, 0 => (s, .ok [])
  | k, n + 1 =>
    let addr := (base + 64 * k) % 2 ^ 64
    let r := s.readRecord addr k
    let u := s.touchRecord addr r
    match r with
    | .error e => (u, .error e)
    | .ok x => let rest := u.readRecords base (k + 1) n; (rest.1, rest.2.map fun t => x :: t)

/-! Publication (R257, R322, R323). -/

/-- Published tasks of a tile: queued, dependent, and on their way to it. -/
def State.published (s : State) (t : Nat) : Nat :=
  let tl := s.tile t
  (tl.ready.map fun q => q.2.length).sum + tl.dep.length + (s.pubs.filter fun p => p.tile == t).length

/-- The tile of a task: the one VTILE names, or the one with the fewest published tasks (R323). -/
def State.placeTask (s : State) (k : Task) : Nat :=
  let l := s.launch k.lid
  if k.vtile ≠ 0xFFF then l.tiles.getD k.vtile s.cur.1
  else
    let near := l.tiles.filter fun t => dieOf t == dieOf s.cur.1
    (bestOf (fun a b => decide (s.published a < s.published b)) (if near.isEmpty then l.tiles else near)).getD s.cur.1

/-- Tasks leave for their tiles in order; none when a destination has no room (R322). -/
def State.publishAll (s : State) : List Task → Option State
  | [] => some s
  | k :: t =>
    let u := s.placeTask k
    if 16448 ≤ s.published u then none
    else
      let v := ((s.launch k.lid).tiles.findIdx? fun x => x == u).getD 0
      State.publishAll { s with pubs := s.pubs ++ [⟨{ k with vtile := v }, u, some s.cur⟩] } t

/-- What is left of the bound of the context's earlier spawn, while a task of it is still on its way (R256). -/
def State.spawnLeft (s : State) : Nat :=
  if s.pubs.any fun p => p.from_ == some s.cur then s.me.spawnQ - (s.myTile.res - s.me.spawnAt) else 0

/-- The bound t of R256 with the remaining bound of the context's earlier spawn. -/
def State.spawnQuote (s : State) (l : List (Task × Home)) : Nat :=
  let die := dieOf s.cur.1
  let la := s.myLaunch
  let near := l.filterMap fun x => if x.2.isReserve then none else some (s.dieAt x.2)
  let far := l.flatMap fun x => (if x.1.vtile = 0xFFF then la.tiles else (la.tiles[x.1.vtile]?).toList).map dieOf
  min (256 + 24 * s.maxHops die near + 24 * s.maxHops die far + 16 * l.length + (if l.any fun x => x.2.isReserve then 760 else 0)
    + s.spawnLeft) (2 ^ 64 - 2)

/-- SPAWN and SPAWNN: the checks, the cancel set, the quote, and publication; the status as R257 has it. -/
def State.spawnAll (s : State) (xr xst xq n : Nat) (status : Nat → Nat) : State :=
  let r := s.readRecords (s.nx xr) 0 n
  let s := r.1
  match r.2 with
  | .error f => s.trapNow f.1 f.2.1 f.2.2
  | .ok l =>
    let live := (l.map (·.1)).filter fun k => !s.myTile.covers k.scope
    let q := s.spawnQuote l
    if s.me.quoteLim != 0 && decide (s.me.quoteLim.toNat < q) then (s.setX xq allOnes).advance
    else match s.publishAll live with
      | none => (s.setX xq allOnes).advance
      | some s' =>
        (((s'.modMe fun c => { c with spawnQ := q, spawnAt := s.myTile.res }).setX xq (BitVec.ofNat 64 q)).setX xst
          (BitVec.ofNat 64 (status live.length))).advance

def execSpawn (xr xst xq : Nat) (s : State) : Out := .next (s.spawnAll xr xst xq 1 fun n => 1 - n)
def execSpawnn (xr xst xq count : Nat) (s : State) : Out :=
  .next (s.spawnAll xr xst xq count fun n => (count - n) * 2 ^ 32 + n)

/-! LAUNCH (R258). -/

def execLaunch (xd xq : Nat) (s : State) : Out :=
  let a := s.nx xd
  let die := ioDie s.myPart
  if a % 64 ≠ 0 then .next (s.trapNow 0x05 a 0)
  else match s.resolve s.cur.1 0 a 64 true false with
    | .error e => .next ((s.missed e.1 a true false).trapNow e.1 a e.2)
    | .ok h =>
      let bad := s.poisonRead h 64
      let s := s.readRecordAt (dieOf s.cur.1) s.myPart a 64
      if bad then .next (s.trapNow 0x07 a 0)
      else
        let d := descOf (s.readHome h 64)
        match s.descFault s.myPart die d with
        | some f => .next (s.trapNow f.1 a f.2)
        | none => match s.enrol s.myPart die s.me.quoteLim.toNat d a (some s.myLid) none with
          | some r => .next ((r.2.setX xq (BitVec.ofNat 64 r.1)).advance)
          | none => .next ((s.setX xq allOnes).advance)

/-! CANCEL (R263 to R265, R340). -/

/-- The scope may be cancelled by the issuing task (R259, R264). -/
def State.mayCancel (s : State) (sc : Nat) : Bool :=
  contains s.me.scope sc || s.launches.any fun l => l.2.parent == some s.myLid && contains l.2.root sc

/-- A cancel set after a registration (R263). -/
def register (l : List Nat) (sc : Nat) : List Nat :=
  if l.any fun i => contains i sc then l else l.filter (fun i => !contains sc i) ++ [sc]

/-- The earlier cancels whose registered intervals contain a scope: a wider one has replaced those that it contains, and of equal ones the first
counts (R263, R265). More than one only where intervals overlap without nesting (R261). -/
def State.cancelsOver (s : State) (p sc : Nat) : List (Nat × Cancel) :=
  let l := s.cancels.filter fun c => c.2.part == p && contains c.2.scope sc && !c.2.done
  l.filter fun c => l.all fun d => !contains d.2.scope c.2.scope || (contains c.2.scope d.2.scope && decide (c.1 ≤ d.1))

/-- Their largest remaining bound (R265). -/
def State.cancelBefore (s : State) (p sc : Nat) : Nat :=
  (s.cancelsOver p sc).foldl (fun m c => max m (c.2.quote - ((s.tile c.2.tile).res - c.2.at_))) 0

/-- The launches whose root a cancel covers are marked (R260). -/
def State.markRoots (s : State) (p sc : Nat) : State :=
  { s with launches := s.launches.map fun l => (l.1, if l.2.part = p && l.2.st != .ended && contains sc l.2.root then { l.2 with cxl := true } else l.2) }

/-- The live launch that owns a scope. -/
def State.ownerOf (s : State) (p sc : Nat) : Option Nat :=
  (s.launches.find? fun l => l.2.part == p && l.2.st != .ended && contains l.2.root sc).map (·.1)

/-- A cancel is accepted: it goes out to every tile of the partition, and to the edges of the dies that hold only its granules (R340). -/
def State.openCancel (s : State) (p sc quote : Nat) (ack : Option Nat) : State :=
  let q := s.part p
  let n := s.nextCancel + 1
  let only := (s.stacks p).filter fun d => !q.dies.contains d
  let c : Cancel := {
    part := p, lid := s.ownerOf p sc, scope := sc, ack := ack, quote := quote, tile := s.cur.1, at_ := s.myTile.res,
    parents := (s.cancelsOver p sc).map (·.1), tiles := q.tiles, dies := only.map (fun d => (d, (s.die d).cycle)), reached := [], sums := [],
    owed := q.dies ++ only, totals := [0, 0, 0, 0], edges := [], done := false }
  { s.markRoots p sc with cancels := mput s.cancels n c, nextCancel := n }.sendEdge s.cur.1 (s.flit s.cur.1 s.cur.1 4 0 (sc % 2 ^ 32))

/-- The quote of CANCEL (R265): a partition's dies are those of its slots and those whose stacks hold its granules (R340). -/
def State.cancelQuote (s : State) (p sc : Nat) : Nat :=
  let hostx := match (s.part p).sched with | some r => r.hostx | none => false
  min (1024 + 64 * s.maxHops (dieOf s.cur.1) ((s.part p).dies ++ s.stacks p) + (if hostx then 2004096 else 4096) + s.cancelBefore p sc) (2 ^ 64 - 2)

/-- The cancel set that a tile will hold once every accepted cancel has been registered there, and then this scope (R264). -/
def State.cancelsSoon (s : State) (p t sc : Nat) : List Nat :=
  register (((s.cancels.filter fun c => c.2.part == p && !c.2.done && !c.2.edges.contains (dieOf t) && s.intervalStays c.2).map fun c => c.2.scope).foldl register
    (s.tile t).cancels) sc

/-- The registration would need a 257th interval at some tile (R263, R264). -/
def State.cancelFull (s : State) (p sc : Nat) : Bool := (s.part p).tiles.any fun t => decide (256 < (s.cancelsSoon p t sc).length)

/-- A CANCEL that contains its issuer's own scope ends the issuer at its next instruction boundary (R268). -/
def State.doomSelf (s : State) (sc : Nat) : State := if contains sc s.me.scope then s.modMe fun c => { c with doom := some s.nextCancel } else s

def execCancel (xs xa xq : Nat) (s : State) : Out :=
  let v := s.nx xs
  let a := s.nx xa
  if !scValid v || !s.mayCancel v then .next (s.trapNow 0x0F 0 v)
  else if a % 32 ≠ 0 then .next (s.trapNow 0x05 a 0)
  else match s.resolve s.cur.1 0 a 32 false true with
    | .error e => .next ((s.missed e.1 a false true).trapNow e.1 a e.2)
    | .ok _ =>
      let q := s.cancelQuote s.myPart v
      if (s.me.quoteLim != 0 && decide (s.me.quoteLim.toNat < q)) || s.cancelFull s.myPart v then .next ((s.setX xq allOnes).advance)
      else .next ((((s.openCancel s.myPart v q (some a)).doomSelf v).setX xq (BitVec.ofNat 64 q)).advance)

end Sys2Proof.Machine
end

