-- ==== Sys2Proof/Machine/Scopes.lean ====
section
/-! DEFINITION. Yielding, ending and scopes, major 0x91 (R261, R262, R267, R269). -/

namespace Sys2Proof.Machine

/-- A task of at least this priority is ready for the tile. -/
def Tile.readyAt (tl : Tile) (prio : Nat) : Bool := tl.ready.any fun q => decide (prio ≤ q.1) && !q.2.isEmpty

/-- The task is requeued with its registers (R269). -/
def State.requeue (s : State) : State :=
  let c := s.me
  match c.task with
  | none => s
  | some k =>
    let k := { k with pri := c.prio, saved := some { c.regs with pc := c.regs.pc + 8 }, lastPc := some c.regs.pc }
    (s.endTask s.cur.1 s.cur.2).modMyTile fun tl => { tl with ready := mmod [] tl.ready c.prio (· ++ [k]) }

/-- YIELD (R269). -/
def execYield (s : State) : Out :=
  .next (if s.me.trap then s.trapNow 0x10 0 0 else if s.myTile.readyAt s.me.prio then s.requeue else s.advance)

/-- EXIT (R269): the contribution is made like a CADD with no destination, then the task ends. -/
def execExit (loc : Bool) (a b : Nat) (s : State) : Out :=
  if a = 0 then .next (s.endTask s.cur.1 s.cur.2)
  else
    let addr := s.nx a
    let sp := ctrSpace loc
    if !aligned addr 16 then .next (s.trapNow 0x05 addr 0)
    else match s.resolve s.cur.1 sp addr 16 true true with
      | .error e => .next ((s.missed e.1 addr true true).trapNow e.1 addr e.2)
      | .ok h =>
        if s.poisonRead h 16 then .next (s.trapNow 0x07 addr 0)
        else .next ((s.push { s.fresh .cadd sp addr 16 with data := s.nx b, home := some h }).endTask s.cur.1 s.cur.2)

/-- The parent of SCOPE: x[xp], or the task's own scope (R261). -/
def State.scopeParent (s : State) (p : Nat) : Nat := if p = 0 then s.me.scope else s.nx p

/-- The last check of SCOPE and its result (R261). -/
def State.scopeChild (s : State) (d p c : Nat) : State :=
  if !scValid c || !(decide (scLo p < scLo c) && decide (scHi c ≤ scHi p)) then s.trapNow 0x0F 0 c
  else (s.setX d (if s.myTile.covers c then allOnes else BitVec.ofNat 64 c)).advance

/-- SCOPE.set (R261). -/
def execScopeSet (d p c : Nat) (s : State) : Out :=
  let pv := s.scopeParent p
  .next (if !scValid pv || !contains s.me.scope pv then s.trapNow 0x0F 0 pv else s.scopeChild d pv (zext (s.nx c) 32))

/-- SCOPE.split (R261): child k of width w. -/
def execScopeSplit (d p c : Nat) (s : State) : Out :=
  let pv := s.scopeParent p
  let w := bits (s.nx c) 15 0
  let lo := scLo pv + 1 + bits (s.nx c) 31 16 * w
  .next (if !scValid pv || !contains s.me.scope pv || w == 0 || decide (0xFFFF < lo + w - 1) then s.trapNow 0x0F 0 pv
    else s.scopeChild d pv (lo * 2 ^ 16 + (lo + w - 1)))

/-- CHKC (R262, R267): a kill point, in trap mode too. -/
def execChkc (s : State) : Out := .next (if s.condemned s.cur.1 s.cur.2 then s.killTask s.cur.1 s.cur.2 else s.advance)

/-- The bits of SQUERY (R262). -/
def State.squery (s : State) (v : Nat) : Nat :=
  if !scValid v then 4
  else b2n (contains v s.me.scope) * 8 + b2n (contains s.me.scope v) * 2 + b2n (s.myTile.covers v)

def execSquery (d a : Nat) (s : State) : Out := .next ((s.setX d (BitVec.ofNat 64 (s.squery (s.nx a)))).advance)

end Sys2Proof.Machine
end

