-- ==== Sys2Proof/Machine/System.lean ====
section
/-! DEFINITION. Traps, priority, meters and halting, major 0xA0 (R270, R274 to R276). -/

namespace Sys2Proof.Machine

/-- TRAP (R274). -/
def execTrap (a n : Nat) (s : State) : Out := .next (s.trapNow (0x40 + n) 0 (s.nx a))

/-- A kill that is due takes the place of the return (R267). -/
def State.returnOr (s : State) (k : State) : State :=
  if !s.me.trap then s.trapNow 0x10 0 0 else if s.condemned s.cur.1 s.cur.2 then s.killTask s.cur.1 s.cur.2 else k

/-- TRET (R274): back to TRAPPC. -/
def execTret (s : State) : Out := .next (s.returnOr (s.leaveTrap s.me.trapPc false))

/-- TRET.n (R274): past the instruction at TRAPPC; a fault while reading it is a trap in trap mode. -/
def execTretN (s : State) : Out :=
  let a := s.me.trapPc.toNat
  .next (s.returnOr (match s.myTile.wordFault a with
    | some cause => s.trapNow cause a 0
    | none => s.leaveTrap (s.me.trapPc + BitVec.ofNat 64 (8 * (1 + extCount (s.myTile.word a)))) true))

/-- PRIO (R275). -/
def execPrio (reg : Bool) (v : Nat) (s : State) : Out :=
  .next ((s.modMe fun c => { c with prio := s.priOf s.myPart (if reg then s.nx v else v) }).advance)

/-- MTRD (R276): the meter returns as a load's result does. -/
def execMtrd (d m : Nat) (s : State) : Out := .next ((s.push { s.fresh .mtrd 8 m 0 with dst := .x d }).advance)

/-- HALT (R270): the task ends, then the launch's root scope is cancelled with no record. -/
def execHalt (code : Nat) (s : State) : Out :=
  let l := s.myLid
  let s' := (s.endTask s.cur.1 s.cur.2).modLaunch l fun x => if x.hlt then x else { x with hlt := true, hcode := code }
  .next (s'.openCancel s.myPart (s.launch l).root (s.cancelQuote s.myPart (s.launch l).root) none)

def execNop (s : State) : Out := .next s.advance

end Sys2Proof.Machine
end

