-- ==== Sys2Proof/Machine/EvContext.lean ====
section
/-! DEFINITION. Hardware steps of contexts: fetch faults, deferred traps, results, waking, memory at its home, barriers, and tasks coming to
tiles (R37, R124, R133 to R139, R146, R147, R151, R153, R154, R252 to R257, R271, R324). A step that is not enabled changes nothing. -/

namespace Sys2Proof.Machine

/-! Traps that arise outside an instruction. -/

/-- FETCH_FAULT (R72, R124): the trap names the failing word, and the last instruction issued. -/
def execFetchFault (t c : Nat) (s : State) : Out :=
  let x := s.ctx t c
  if !x.canIssue then .next s
  else match s.fetch t c with
    | .fault cause addr => .next (s.enter t c cause addr (match x.lastPc with | some p => p.toNat | none => allOnes.toNat) x.regs.pc.toNat)
    | _ => .next s

/-- An instance of a context that has begun to take its panel: in a run behind the current one, or aside (R179). -/
def Tile.waitingInst (tl : Tile) (c : Nat) : Option (Nat × Inst) :=
  ((tl.runs.flatMap fun r => (r.insts.filter fun i => i.ctx == c && i.started).map fun i => (r.qmask, i))
    ++ ((tl.aside ++ tl.scanned).filter fun x => x.1 == c).map fun x => (x.2.blk.qmask, x.2)).head?

/-- A waiting context stops waiting: an instance that has started is held as a continuation, one that has not leaves its run (R186, R271). -/
def State.abandonWait (s : State) (t c : Nat) : State :=
  let x := s.ctx t c
  match x.wait with
  | some (.block ..) => match (s.tile t).instOf c with
    | some (r, i) => if i.started
      then (s.modTile t fun tl => tl.keepOnly r.qmask { i with held := true }).holdInst t r.qmask i
      else s.modTile t (fun tl => tl.dropInst r.qmask false) |>.modCtx t c fun x => { x with wait := none }
    | none => match (s.tile t).waitingInst c with
      | some (q, i) => (s.modTile t fun tl => { tl with scanned := mput tl.scanned c i, aside := mdel c tl.aside }.leaveRun c).holdInst t q i
      | none => s.modTile t (fun tl => tl.dropCtx c) |>.modCtx t c fun x => { x with wait := none }
  | _ => s.modCtx t c fun x => { x with wait := none }

/-- The context's instance is being scanned out: its own fault comes first (R185, R313). -/
def Tile.scanningOut (tl : Tile) (c : Nat) : Bool := match tl.instOf c with | some (_, i) => i.scan | none => false

/-- DEFERRED_TRAP (R271): taken at an instruction boundary outside trap mode; a handler's own faulting result that was saved in a halt is a
double trap of the instruction that it names (R273, R334). -/
def execDeferredTrap (t c : Nat) (s : State) : Out :=
  let x := s.ctx t c
  match x.deferred with
  | [] => .next s
  | d :: rest =>
    if x.task.isNone || x.halted || x.arriving.isSome || (s.tile t).scanningOut c then .next s
    else if x.trap then match x.deferred.find? fun d => d.own with
      | some o => .next (s.doubleTrap t c o.cause (bits o.aux 53 32))
      | none => .next s
    else
      let s := (s.abandonWait t c).modCtx t c fun x => { x with deferred := rest }
      .next (s.enter t c d.cause d.addr d.aux x.regs.pc.toNat)

/-! Results (R133, R136, R271). -/

/-- TRAPAUX of a faulting result (R271). -/
def resultAux (a : Access) (aux : Nat) : Nat := 2 ^ 63 + a.pc % 2 ^ 22 * 2 ^ 32 + aux % 2 ^ 32

/-- A result returns to its context (R133, R136, R271, R273). To a halted context a result that would trap is saved as a pending trap (R334). -/
def State.returnResult (s : State) (t c id : Nat) : Out :=
  let x := s.ctx t c
  match x.outs.find? fun a => a.id == id with
  | none => .next s
  | some a =>
    let gone := fun (x : Ctx) => { x with outs := x.outs.filter fun b => b.id != id }.trim
    let mine := a.own == x.serial && x.task.isSome
    match a.st with
    | .issued => .next s
    | .performed v => .next (s.modCtx t c fun x => gone (if mine then x.fill a.dst a.wop v else x))
    | .faulted cause addr aux =>
      let s := s.modCtx t c gone
      if !mine then .next s
      else if a.inTrap && x.trap && !x.halted then .next (s.doubleTrap t c cause a.pc)
      else .next (s.modCtx t c fun x => { x with deferred := x.deferred ++ [⟨cause, addr, resultAux a aux, a.inTrap && x.trap⟩] })

/-- An access takes a new form, and finished ones leave. -/
def State.putAccess (s : State) (t c : Nat) (a : Access) : State := s.modCtx t c fun x => (x.setAccess a).trim

/-- LDH_TIMEOUT (R136). -/
def execLdhTimeout (t c id : Nat) (s : State) : Out :=
  match (s.ctx t c).outs.find? fun a => a.id == id with
  | some a => if a.kind == .load && a.space == 4 && a.st == .issued then .next (s.putAccess t c { a with st := .faulted 0x08 a.addr 0 }) else .next s
  | none => .next s

/-! Memory at its home (R135, R136, R302). -/

/-- The home an access has now. -/
def State.homeOf (s : State) (t : Nat) (a : Access) : Option Home :=
  match a.home with
  | some h => some h
  | none => match s.resolve t a.space a.addr a.size a.reads (a.kind == .amo || a.kind == .cadd) with | .ok h => some h | .error _ => none

/-- The physical address of an access lies outside its partition's granules (R380). -/
def State.foreignAccess (s : State) (t : Nat) (a : Access) : Bool :=
  match s.homeOf t a with | some (.lost _) => true | _ => false

/-- The edge's part in an access of a context: R302, R310, R367, R380. -/
def State.atEdgeOf (s : State) (t : Nat) (a : Access) : State :=
  match s.homeOf t a with
  | some h => s.edgeTouch (viaTile t) (s.partId t) a.space a.addr a.size h a.reads (a.kind == .amo || a.kind == .cadd)
  | none => if a.space = 0 then s.edgeAt (viaTile t) (s.partId t) a.addr a.size a.reads (a.kind == .amo || a.kind == .cadd) else s

/-- A value read from the host: free bytes (R138; log 4). -/
def State.hostValue (s : State) (n : Nat) : Nat × State :=
  (ofBytes ((List.range n).map fun k => Config.hostByte s.free k), { s with free := s.free + 1 })

/-- An LDH is answered (R136, R138): with an error, with a poisoned completion (R316; log 4), or with a value. -/
def State.answerLdh (s : State) (t c : Nat) (a : Access) (hostError : Bool) : State :=
  if hostError then s.putAccess t c { a with st := .faulted 0x08 a.addr 1 }
  else
    let v := (s.atEdgeOf t a).hostValue a.size
    (v.2.meter (s.partId t) 8 a.size).putAccess t c { a with st := if Config.hostPoison s.free then .faulted 0x07 a.addr 0 else .performed v.1 }

/-- The access is to a quarter whose region runs: it waits until the region has drained (R29, R137). A run whose next instance has not started,
and waits for this very access, does not hold it, nor, behind a pre-emption request, one whose beats have passed the spine end (R188). -/
def State.quarterBusy (s : State) (t : Nat) (a : Access) : Bool :=
  a.space == 3 && (s.tile t).runs.any fun r => masksMeet r.qmask (2 ^ (a.addr / 8192)) &&
    (match r.insts.head? with
     | some i => !i.held && (if (s.tile t).open_ then i.started || !i.after.contains a.id else i.drain != 0 || (r.cls == 6 && (s.tile t).array.storing))
     | none => false)

/-- MEMORY_ACCESS_AT_HOME (R302): the access is translated and performed. Remote accesses travel as flits, and reads of the reserve tier end
with their CXL return. -/
def execMemoryAccessAtHome (t c id : Nat) (hostError : Bool) (s : State) : Out :=
  let x := s.ctx t c
  match x.outs.find? fun a => a.id == id with
  | none => .next s
  | some a =>
    if a.st != .issued || a.isFence || a.kind == .zread || a.space == 2 || !x.mayPerform a || s.quarterBusy t a then .next s
    else if a.kind == .load && a.space == 4 then .next (s.answerLdh t c a hostError)
    else if a.reads && (match s.homeOf t a with | some h => h.isReserve | none => false) then .next s
    else
      let u := s.atEdgeOf t a
      if s.foreignAccess t a then .next (u.putAccess t c { a with st := if a.reads then .faulted 0x07 a.addr 0 else .performed 0 })
      else
        let r := u.performAt t a
        .next (r.1.putAccess t c r.2)

/-- CXL_READ_RETURN (R305, R316): a read of the reserve tier completes, with poison when the device says so. -/
def execCxlReadReturn (t c id : Nat) (poisoned : Bool) (s : State) : Out :=
  let x := s.ctx t c
  match x.outs.find? fun a => a.id == id with
  | none => .next s
  | some a =>
    if a.st != .issued || !a.reads || !(match s.homeOf t a with | some h => h.isReserve | none => false) || !x.mayPerform a then .next s
    else if poisoned then .next ((s.atEdgeOf t a).putAccess t c { a with st := .faulted 0x07 a.addr 0 })
    else
      let r := (s.atEdgeOf t a).performAt t a
      .next (r.1.putAccess t c r.2)

/-- ZERO_LENGTH_READ_COMPLETION (R151): the read that a FENCE.s issued, behind every earlier host access of the context. -/
def execZeroLengthReadCompletion (t c : Nat) (s : State) : Out :=
  let x := s.ctx t c
  match x.outs.find? fun a => a.kind == .zread && a.st == .issued with
  | none => .next s
  | some a => if x.mayPerform a then .next (s.putAccess t c { a with st := .performed 0 }) else .next s

/-! Waking (R16, R146, R147, R154, R246). -/

/-- A waiting instruction is done: it writes its status and the pc moves past it. -/
def Ctx.doneWaiting (c : Ctx) (d v : Nat) : Ctx :=
  let c := { c with wait := none }.setX d (BitVec.ofNat 64 v)
  c.setPc (c.regs.pc + 8)

/-- A waiting context looks again at what it waits for. -/
def State.wake (s : State) (t c : Nat) (w : Wait) : State :=
  match w with
  | .cwait loc d addr target => match s.clook t c loc addr target with
    | .wait => s
    | .trap cause aux => (s.lookEnds t loc addr).enter t c cause addr aux (s.ctx t c).regs.pc.toNat
    | .done st => (s.lookEnds t loc addr).modCtx t c fun x => x.doneWaiting d st
  | .barrier d g p spent => match (if (s.ctx t c).mayRead 8 0 0 then s.barrierDone t g p spent else none) with
    | some st => s.modCtx t c fun x => x.doneWaiting d st
    | none => s
  | .qwait ids => if (s.tile t).left ids then s.modCtx t c fun x => x.doneWaiting 0 0 else s
  | .bdrain q => if (s.tile t).drained q then s.modCtx t c fun x => x.doneWaiting 0 0 else s
  | .block .. => s

/-- An element instance has operations that complete before it ends (R220), unless it is scanned out. -/
def State.mustFinish (s : State) (t c : Nat) (w : Wait) : Bool :=
  match w with
  | .block 6 _ _ _ _ _ => (s.tile t).array.storing && (match (s.tile t).instOf c with | some (r, i) => r.cls == 6 && i.started && !i.scan | none => false)
  | _ => false

/-- CONTEXT_WAKE (R16): a wait is a kill point, in trap mode too (R267). -/
def execContextWake (t c : Nat) (s : State) : Out :=
  let x := s.ctx t c
  if x.task.isNone || x.halted then .next s
  else match x.wait with
    | none => .next s
    | some w => if s.condemned t c then .next (if s.mustFinish t c w || x.owesAtomic then s else s.killTask t c) else .next (s.wake t c w)

/-! Barriers (R153, R154, R156). -/

/-- The die of a group's home: that of the member tile with the lowest virtual tile number (R153). -/
def State.groupDie (s : State) (l g : Nat) : Nat :=
  match (bestOf (fun a b => decide (a < b)) (s.group l g).members).bind fun v => (s.launch l).tiles[v]? with | some t => dieOf t | none => 0

/-- BARRIER_ARRIVAL_AT_HOME (R154): performed behind every earlier access of the context at the group's scope. -/
def execBarrierArrivalAtHome (n : Nat) (s : State) : Out :=
  match s.arrivals[n]? with
  | none => .next s
  | some a =>
    let gr := s.group a.lid a.g
    if !(s.ctx a.tile a.ctx).performedAt gr.fscope then .next s
    else
      let home := s.groupDie a.lid a.g
      let p := (s.launch a.lid).part
      let s := ({ s with arrivals := s.arrivals.eraseIdx n }.message p (dieOf a.tile) home 1).message p home (dieOf a.tile) 1
      let answer := fun (s : State) (v : Option Nat) => s.modCtx a.tile a.ctx fun x =>
        { x with arriving := x.arriving.map fun r => { r with answer := some v } }
      if gr.exhausted then .next (answer s (some gr.phase))
      else if a.tag ≠ gr.phase then .next (answer s none)
      else
        let s := s.modGroup a.lid a.g fun g => { g with arrived := g.arrived + 1 }
        let s := s.modCtx a.tile a.ctx fun x => { x with task := x.task.map fun k => { k with arrived := mput k.arrived a.g gr.phase } }
        .next ((answer s (some gr.phase)).checkPhase a.lid a.g)

/-- ARRIVAL_ANSWER (R154, R334): the answer of a halted context is saved with it and applied before it issues again. -/
def execArrivalAnswer (t c : Nat) (s : State) : Out :=
  let x := s.ctx t c
  if x.halted then .next s
  else match x.arriving with
  | none => .next s
  | some r => match r.answer with
    | none => .next s
    | some none => .next ((s.modCtx t c fun x => { x with arriving := none }).enter t c 0x09 r.g r.tag x.regs.pc.toNat)
    | some (some p) => .next (s.modCtx t c fun x =>
        if r.thenWait then { x with arriving := none, wait := some (.barrier r.d r.g p (s.groupSpent t r.g)) } else { x with arriving := none }.doneWaiting r.d p)

/-- A latch takes the newest phase it has been told (R153). -/
def Tile.latchTo (tl : Tile) (k phase : Nat) (cxl : Bool) : Tile :=
  let gap := (phase + 2 ^ 32 - (tl.latchOf k).1) % 2 ^ 32
  if 1 ≤ gap && gap < 2 ^ 31 then { tl with latch := mput tl.latch k (phase, cxl) } else tl

/-- BARRIER_RELEASE_ARRIVAL (R153). -/
def execBarrierReleaseArrival (n : Nat) (s : State) : Out :=
  match s.releases[n]? with
  | none => .next s
  | some r =>
    let s := { s with releases := s.releases.eraseIdx n }.message (s.launch r.lid).part (s.groupDie r.lid r.g) (dieOf r.tile) 1
    if (s.tile r.tile).lid != some r.lid then .next s
    else match (s.tile r.tile).slotOfGroup r.g with
      | none => .next s
      | some k => .next (s.modTile r.tile fun tl => tl.latchTo k r.phase r.cxl)

/-! Tasks coming to tiles (R37, R252, R253, R257, R322, R324). -/

/-- The dependence of a task of a partition: met or not; none when its record cannot be read (R37). -/
def State.depLook (s : State) (p t : Nat) (k : Task) : Option Bool :=
  if k.depAddr = 0 then some true
  else if 2 ^ 52 < k.depAddr + 16 then none
  else match s.translate (dieOf t) p k.depAddr true false with
    | .error _ => none
    | .ok pa =>
      let h := s.devHome p pa
      if s.poisonRead h 16 then none else some (decide (k.depTgt ≤ bits (s.readHome h 16) 63 0))

/-- The die that a publication leaves: its spawner's, or for the loader's root task the partition's I/O die (R257, R320). -/
def Pub.fromDieOf (p : Pub) (part : Nat) : Nat := match p.from_ with | some f => dieOf f.1 | none => ioDie part

/-- A task joins its ready queue. -/
def Tile.enqueue (tl : Tile) (k : Task) : Tile := { tl with ready := mmod [] tl.ready k.pri (· ++ [k]) }

/-- A published task is discarded by a cancel (R257, R266): its groups are credited, and it counts until the tile has reported. -/
def State.purge (s : State) (t : Nat) (k : Task) : State :=
  (s.withdraw k).modTileOf (s.launch k.lid).part t fun tl => tl.count (fun sc => contains sc k.scope) fun g => { g with purged := g.purged + 1 }

/-- The edge's part in a look at a dependence record; a record known to lie outside the partition's granules is asked for no more. -/
def State.touchDep (s : State) (p t : Nat) (k : Task) : State :=
  if k.depAddr = 0 || decide (2 ^ 52 < k.depAddr + 16) then s
  else match s.translate (dieOf t) p k.depAddr true false with
    | .ok pa => if k.depWarned && !s.owns p pa then s else s.edgeAt (viaTile t) p k.depAddr 16 true false
    | .error _ => s.fillCache (dieOf t) p k.depAddr true false

/-- The memory that a look at a dependence record reads (R381). -/
def State.meterDep (s : State) (p t : Nat) (k : Task) : State :=
  if k.depAddr = 0 then s
  else match s.translate (dieOf t) p k.depAddr true false with
    | .ok pa => s.meterDev p (s.devHome p pa) 16 false
    | .error _ => s

/-- One look at a dependent task: it becomes ready, stays, or is reported the first time its record is unusable (R37, R389). R37 looks again when
something reaches the record, and the model looks on and on: it meters the first look and the one that finds the target met (DESIGN CHOICE, log 66). -/
def State.checkTask (s : State) (p t : Nat) (k : Task) (first : Bool) : State × Task × Bool :=
  let u := s.touchDep p t k
  match s.depLook p t k with
  | some b => (if first || b then u.meterDep p t k else u, k, b)
  | none => if k.depWarned then (u, k, false) else (u.badRecord p (dieOf t) k.depAddr, { k with depWarned := true }, false)

/-- The ready queues and the spill of a partition's tile are looked after by its die scheduler: while the partition is on its tiles, and for a
deadline tenant while it is out, so that its task can switch the resident tenant (R339). -/
def State.tended (s : State) (p : Nat) : Bool := !(s.part p).out || (s.deadline p && !(s.part p).restoring)

/-- TASK_PUBLICATION_ARRIVAL (R257, R339): publications to one tile arrive in order. -/
def execTaskPublicationArrival (n : Nat) (s : State) : Out :=
  match s.pubs[n]? with
  | none => .next s
  | some p =>
    let q := (s.launch p.task.lid).part
    if !s.tended q || (s.pubs.take n).any fun q => q.tile == p.tile then .next s
    else
      let s := { s with pubs := s.pubs.eraseIdx n }.message q (p.fromDieOf q) (dieOf p.tile) (flitsFor 64)
      if (s.tileOf q p.tile).covers p.task.scope then .next (s.purge p.tile p.task)
      else
        let r := s.checkTask q p.tile p.task true
        .next (r.1.modTileOf q p.tile fun tl => if r.2.2 then tl.enqueue r.2.1 else { tl with dep := tl.dep ++ [r.2.1] })

/-- Every dependent task of a list is looked at in order. -/
def State.checkTasks (s : State) (p t : Nat) : List Task → State
  | [] => s
  | k :: l =>
    let r := s.checkTask p t k false
    State.checkTasks (r.1.modTileOf p t fun tl => if r.2.2 then tl.enqueue r.2.1 else { tl with dep := tl.dep ++ [r.2.1] }) p t l

/-- The dependent tasks of a partition's tile. -/
def State.checkTile (s : State) (p t : Nat) : State := (s.modTileOf p t fun tl => { tl with dep := [] }).checkTasks p t (s.tileOf p t).dep

/-- DEPENDENCE_CHECK (R37, R339): at the tile, and for a deadline tenant that is out. -/
def execDependenceCheck (t : Nat) (s : State) : Out :=
  let absent := s.parts.filter fun e => e.2.valid && e.2.out && e.2.slots.contains (slotOf t) && s.tended e.1
  .next (absent.foldl (fun s e => s.checkTile e.1 t) (s.checkTile (s.partId t) t))

/-- The free context that takes a task: the lowest (DESIGN CHOICE, log 65; R324 names none). -/
def Tile.freeCtx (tl : Tile) : Option Nat := (List.range 8).find? fun c => (tl.ctx c).task.isNone

/-- The head of the highest non-empty ready queue (R324). -/
def Tile.nextTask (tl : Tile) : Option Task := (tl.ready.filter fun q => !q.2.isEmpty).getLast?.bind fun q => q.2.head?

/-- The registers of a task at its start (R13, R253), or those a YIELD saved (R269). -/
def Task.regs (k : Task) : Regs :=
  match k.saved with
  | some r => r
  | none => { Regs.reset with x := [(1, BitVec.ofNat 64 k.arg), (2, BitVec.ofNat 64 k.addr)], pc := BitVec.ofNat 64 k.entry }

/-- A context takes a task. Its divide-and-square-root unit may still hold the last operation of the task before (R110). -/
def Ctx.bind_ (c : Ctx) (k : Task) : Ctx :=
  { Ctx.reset with
    regs := k.regs, task := some { k with saved := none, lastPc := none }, serial := c.serial + 1, prio := k.pri, outs := c.outs,
    lastPc := k.lastPc, spawnQ := c.spawnQ, spawnAt := c.spawnAt
    busy := (c.busy.filter fun b => b.divider).map fun b => { b with dst := none } }

/-- TASK_BIND (R324). -/
def execTaskBind (t : Nat) (s : State) : Out :=
  let tl := s.tile t
  if tl.gate != .open_ || !(s.part (s.partId t)).resident then .next s
  else match tl.freeCtx, tl.nextTask with
    | some c, some k => .next (s.modTile t fun tl =>
        { tl with ready := mmod [] tl.ready k.pri List.tail }.modCtx c fun x => x.bind_ k)
    | _, _ => .next s

end Sys2Proof.Machine
end

