-- ==== Sys2Proof/Machine/Network.lean ====
section
/-! DEFINITION. The deflection network of a die: directions, placing by age, injection, credits, and what arrives (R342 to R351, R356, R360). -/

namespace Sys2Proof.Machine

/-- Where a router can send a flit (R346). -/
inductive Dir where
  | eject | north | south | east | west
  deriving DecidableEq, Repr

def absDiff (a b : Nat) : Nat := (a - b) + (b - a)

/-- The distance of a flit from a router (R344). -/
def Flit.distance (f : Flit) (lab : Nat) : Nat :=
  if f.edge then lab % 8 + 1 else absDiff (f.dtile / 8) (lab / 8) + absDiff (f.dtile % 8) (lab % 8) + 1

/-- The direction is productive (R344). -/
def Dir.productive (d : Dir) (lab : Nat) (f : Flit) : Bool :=
  match d with
  | .eject => !f.edge && f.dtile == lab
  | .north => f.edge || decide (f.dtile % 8 < lab % 8)
  | .south => !f.edge && decide (lab % 8 < f.dtile % 8)
  | .east => !f.edge && decide (lab / 8 < f.dtile / 8)
  | .west => !f.edge && decide (f.dtile / 8 < lab / 8)

/-- The link exists and lies inside the run of columns lo to hi (R342, R343). -/
def Dir.permitted (d : Dir) (lo hi lab : Nat) : Bool :=
  match d with
  | .eject | .north => true
  | .south => decide (lab % 8 < 7)
  | .east => decide (lab / 8 < hi)
  | .west => decide (lo < lab / 8)

/-- The rank of an arrived flit (R346): age descending, distance and input lane ascending. -/
def MeshFlit.before (a b : MeshFlit) : Bool :=
  let x := a.flit.distance a.label
  let y := b.flit.distance b.label
  decide (b.flit.age < a.flit.age) || (a.flit.age == b.flit.age && (decide (x < y) || (x == y && decide (a.lane < b.lane))))

/-- A router's placements in one cycle: what left, in order. -/
abbrev Placed := List (Dir × Flit)

def Placed.used (p : Placed) (d : Dir) : Nat := (p.filter fun x => x.1 == d).length

/-- The direction a flit takes, if any lane is free, and whether it is deflected (R346). -/
def Placed.choose (p : Placed) (lo hi lab : Nat) (f : Flit) : Option (Dir × Bool) :=
  let free := fun (d : Dir) => d.permitted lo hi lab && decide (p.used d < 8)
  match [Dir.eject, .north, .south, .east, .west].find? fun d => d.productive lab f && free d with
  | some d => some (d, false)
  | none => ([Dir.north, .south, .east, .west].find? fun d => free d && !(d == .north && lab % 8 == 0)).map fun d => (d, true)

/-- A sideband report of a returned credit (R347): it counts again from the second tick after this one. -/
def Die.giveBack (d : Die) (p : Nat) : Die :=
  { d with credits := mmod ⟨0, 0, [], []⟩ d.credits p fun c => { c with back := c.back ++ [d.netCycle / 8] } }

/-- A token reaches its agent. -/
def State.takeToken (s : State) (t : Nat) (f : Flit) : State :=
  match (s.part f.part).job.bind fun j => j.tokens.find? fun k => k.no == bits f.payload 15 0 && k.tile == t with
  | none => s
  | some k => s.modTile t fun tl =>
      { tl with drainToks := tl.drainToks ++ [⟨f, k.entry, match tl.entry k.entry with | some e => mkeys e.flight | none => []⟩] }

/-- A started copy repeats its probe; what a probe held is dropped with the save (R251, R309). -/
def QEntry.reprobe (e : QEntry) : QEntry :=
  if e.kind == .mcopy || e.kind == .rcopy then { e with probed := e.probed && e.st != .started, held := [] } else e

/-- A tile goes on from its saved state: the budget window is empty, every receiver tells its sender BASE first (R331, R337, R358). -/
def Tile.reopen (tl : Tile) : Tile :=
  let due := fun (m : Map Tracker) => m.map fun x => (x.1, { x.2 with resync := true })
  { tl with
    gate := .open_, reported := false, charges := []
    ctxs := tl.ctxs.map fun x => (x.1, { x.2 with halted := false })
    queues := tl.queues.map fun q => (q.1, { q.2 with entries := q.2.entries.map QEntry.reprobe })
    gbufs := tl.gbufs.map fun x => (x.1, { x.2 with resync := true })
    trks := due tl.trks, etrks := due tl.etrks }

/-- A resume flit reaches a tile (R337, R340). -/
def State.openTile (s : State) (t : Nat) : State :=
  (s.modPart (s.partId t) fun q => { q with resuming := q.resuming.filter (· != t) }).modTile t Tile.reopen

/-- A flit whose payload was changed on its way is a failed check of the router that hands it over (R314, R389; log 57). -/
def State.checkFlit (s : State) (t : Nat) (f : Flit) : State := if f.failed then s.detect (some f.part) (dieOf t) 0 1 3 (labelOf t) 0 0 else s

/-- A flit leaves the network at its tile (R97, R350): malformed ones are discarded and counted, and nothing else happens; a drain token goes to
its agent, a resume flit opens the tile. -/
def State.eject (s : State) (t : Nat) (f : Flit) : State :=
  let s := s.modDie (dieOf t) fun d => d.giveBack f.part
  if f.malformed true then s.modTile t Tile.countMalf
  else
    let s := s.checkFlit t f
    if f.kind = 5 then s.takeToken t f
    else if f.isSched 2 then s.openTile t
    else s.modTile t fun tl => { tl with intake := tl.intake ++ [f] }

/-- Flits of another partition than the resident one are discarded and counted (R360, R380). -/
def Tile.countForeign (tl : Tile) (n : Nat) : Tile :=
  { tl with router := { tl.router with foreign := min 0xFFFF (tl.router.foreign + n) } }

/-- A flit leaves row 0 northwards: it enters its column's share of the crossbar, when it is the resident partition's (R351, R380). -/
def State.intoShare (s : State) (t : Nat) (f : Flit) : State :=
  let s := s.modDie (dieOf t) fun d => d.giveBack f.part
  if s.occupant t = some f.part then s.modDie (dieOf t) fun d => { d with xbar := d.xbar ++ [⟨f, none⟩] }
  else s.modTile t fun tl => tl.countForeign 1

/-- The placement of lane k in a direction: ejection, the crossbar, or an input lane of the neighbour (R342, R346). -/
def State.move (s : State) (die lab : Nat) (x : Dir × Nat × Flit) : State :=
  let f := x.2.2
  let go := fun (l lane : Nat) => s.modDie die fun d => { d with mesh := d.mesh ++ [⟨l, lane + x.2.1, f⟩] }
  match x.1 with
  | .eject => s.eject (die * 128 + lab) f
  | .north => if lab % 8 = 0 then s.intoShare (die * 128 + lab) f else go (lab - 1) 16
  | .south => go (lab + 1) 0
  | .east => go (lab + 8) 24
  | .west => go (lab - 8) 8

/-- The lanes of a list of placements, in order. -/
def Placed.lanes (p : Placed) : List (Dir × Nat × Flit) := p.zipIdx.map fun x => (x.1.1, Placed.used (p.take x.2) x.1.1, x.1.2)

/-- Arrived flits in rank order are placed; a flit without a lane stays. The last part counts deflections. -/
def placeAll (lo hi lab : Nat) : List MeshFlit → Placed → Nat → Placed × List MeshFlit × Nat
  | [], p, n => (p, [], n)
  | m :: l, p, n => match p.choose lo hi lab m.flit with
    | some (d, defl) => placeAll lo hi lab l (p ++ [(d, m.flit)]) (n + b2n defl)
    | none => let r := placeAll lo hi lab l p n; (r.1, m :: r.2.1, r.2.2)

/-- At most n flits of a queue in order are injected (R349). The number that left is the second part. -/
def injectFrom (lo hi lab : Nat) : Nat → List Flit → Placed → Placed × Nat
  | 0, _, p => (p, 0)
  | _, [], p => (p, 0)
  | n + 1, f :: l, p => match p.choose lo hi lab f with
    | some (d, _) => let r := injectFrom lo hi lab n l (p ++ [(d, f)]); (r.1, r.2 + 1)
    | none => (p, 0)

/-- The crossbar's items for a column port, without the first n of them. -/
def dropColumn (col : Nat) : Nat → List XItem → List XItem
  | 0, l => l
  | _, [] => []
  | n + 1, x :: l => if x.column == some col then dropColumn col n l else x :: dropColumn col (n + 1) l

/-- The partition's credit counter on a die. -/
def Die.credit (d : Die) (p : Nat) : Credit := mget ⟨0, 0, [], []⟩ d.credits p

/-- The item waits for the column port and is of another partition than p (R380). -/
def XItem.strange (x : XItem) (col : Nat) (p : Option Nat) : Bool := x.column == some col && p != some x.flit.part

/-- One router for one cycle (R343, R346, R349, R356, R380): discards, placing, injection from the column port and from the tile. -/
def State.route (s : State) (die lab : Nat) (arrived : List MeshFlit) : State :=
  let t := die * 128 + lab
  let p := s.partId t
  let cols := s.columns p die
  let lo := runLow cols 16 (lab / 8)
  let hi := runHigh cols 16 (lab / 8)
  let sound := arrived.filter fun m => m.flit.hdr != 2
  let here := s.occupant t
  let alien := if lab % 8 = 0 then ((s.die die).xbar.filter fun x => x.strange (lab / 8) here).length else 0
  let s := if alien = 0 then s else s.modDie die fun d => { d with xbar := d.xbar.filter fun x => !x.strange (lab / 8) here }
  let foreign := sound.filter fun m => here != some m.flit.part
  let mine := (sound.filter fun m => here == some m.flit.part).map fun m => { m with flit := { m.flit with hdr := 0 } }
  let r := placeAll lo hi lab (sortBy MeshFlit.before mine) [] 0
  let di := s.die die
  let port := if lab % 8 = 0 then ((di.xbar.filter fun x => x.column == some (lab / 8)).map (·.flit)) else []
  let i := injectFrom lo hi lab (min 8 (mget 0 (di.credit p).ports (lab / 8))) port r.1
  let tl := s.tile t
  let j := injectFrom lo hi lab (min (8 - i.2) tl.allot) tl.injq i.1
  let s := s.modDie die fun d =>
    { d with
      xbar := dropColumn (lab / 8) i.2 d.xbar
      credits := if i.2 = 0 then d.credits else mput d.credits p { d.credit p with ports := mmod 0 (d.credit p).ports (lab / 8) (· - i.2) }
      mesh := d.mesh ++ r.2.1 }
  let hdrs := (arrived.filter fun m => m.flit.hdr != 0).length
  let s := s.modTile t fun tl =>
    { tl with
      injq := tl.injq.drop j.2
      allot := tl.allot - j.2
      router := { tl.router with
        defl := (tl.router.defl + r.2.2) % 2 ^ 32
        foreign := min 0xFFFF (tl.router.foreign + foreign.length + alien)
        hdrErr := min 0xFFFF (tl.router.hdrErr + hdrs) } }
  let s := (arrived.filter fun m => m.flit.hdr != 0).foldl (fun s _ => s.detect here die 0 2 3 lab 0 0) s
  (Placed.lanes j.1).foldl (fun s x => s.move die lab x) s

/-! The remote queue (R355). -/

/-- A tag-table entry that is free, of 4096. -/
def Tile.freeTag (tl : Tile) : Option Nat := (List.range (tl.tags.length + 1)).find? fun k => decide (k < 4096) && (mfind k tl.tags).isNone

/-- The first entry of the remote queue that may leave: nothing unacknowledged of its context toward its tile, and its order is met. A
pre-emption request does not keep it: what has issued is delivered before the save (R141, R157, R296). -/
def Tile.remoteNext (tl : Tile) : List Remote → List Remote → Option Remote
  | _, [] => none
  | done, r :: l =>
    let first := !done.any fun x => x.ctx == r.ctx && x.dst == r.dst
    let ready := match (tl.ctx r.ctx).outs.find? fun a => a.id == r.acc with | some a => (tl.ctx r.ctx).mayPerform a | none => true
    if first && r.sent.isNone && ready && tl.room r.flits.length then some r
    else Tile.remoteNext tl (done ++ [r]) l

/-- The remote queue gives its next entry to the injection queue, with a tag (R355). -/
def State.pumpRemote (s : State) (t : Nat) : State :=
  let tl := s.tile t
  match tl.remoteNext [] tl.remoteQ, tl.freeTag with
  | some r, some g =>
    let s := s.modTile t fun tl =>
      { tl with tags := mput tl.tags g (r.ctx, r.acc), remoteQ := tl.remoteQ.map (fun x => if x.acc == r.acc && x.ctx == r.ctx then { x with sent := some g } else x) }
    r.flits.foldl (fun s f => s.sendFlit t r.dst { f with seq := g }) s
  | _, _ => s

end Sys2Proof.Machine
end

