-- ==== Sys2Proof/Machine/Gather.lean ====
section
/-! DEFINITION. Stream reassembly at the receiving tile: gathering buffers and remote trackers (R352 to R354, R356, R359). -/

namespace Sys2Proof.Machine

/-- The four flits of the beat at b are present. -/
def beatHere (slots : Map (Nat × Bool)) (b : Nat) : Bool := (List.range 4).all fun k => (mfind ((b + k) % 4096) slots).isSome

/-- Slots below a released beat are free again. -/
def dropBeat (slots : Map (Nat × Bool)) (b : Nat) : Map (Nat × Bool) := (List.range 4).foldl (fun m k => mdel ((b + k) % 4096) m) slots

/-- The elements of a beat: bits and poison, in the order of their positions (R94). -/
def beatParts (slots : Map (Nat × Bool)) (b w n : Nat) : List (Nat × Bool) :=
  let at_ := fun (k : Nat) => mget (0, false) slots ((b + k) % 4096)
  let data := ((List.range 4).map fun k => (at_ k).1 % 2 ^ 128 * 2 ^ (128 * k)).sum
  (List.range n).map fun i => (data / 2 ^ (w * i) % 2 ^ w,
    (List.range 4).any fun k => (at_ k).2 && decide (w * i < 128 * (k + 1)) && decide (128 * k < w * i + w))

/-- A window update to the sender of an ingress stream, at the edge of the tile's die (R353). -/
def State.updateEdge (s : State) (t port sq : Nat) : State := s.sendEdge t (s.flit t t 3 0 (ctlPayload 1 sq port 0 0))

/-- A window update from the edge to the egress port of a stream into spaces 0 and 5 (R353). -/
def State.updatePort (s : State) (t port sq : Nat) : State := s.fromEdge t (s.flit t t 3 0 (ctlPayload 1 sq port 1 0))

/-- A window update to the tile that sends into a tracker. -/
def State.updateSender (s : State) (t src port trk sq : Nat) : State := s.sendFlit t src (s.flit t src 3 0 (ctlPayload 1 sq port 1 trk))

/-- The next beat of a gathering buffer goes to its port; a cancelled stream's beat is discarded (R353, R359). None when it must wait. -/
def State.releaseOne (s : State) (t port : Nat) : Option State :=
  let tl := s.tile t
  match mfind port tl.gbufs with
  | none => none
  | some g =>
    if !beatHere g.slots g.base then none
    else
      let p := mget Port.reset tl.ips port
      let pass := fun (tl : Tile) => { tl with gbufs := mput tl.gbufs port { g with slots := dropBeat g.slots g.base, base := (g.base + 4) % 4096, waited := 0 } }
      match p.holder.bind fun h => (tl.entry h.2).map fun e => (h.1, e) with
      | none => some (s.modTile t pass)
      | some (q, e) =>
        if decide (shareBits < p.used + 512 + 8192) && !p.fifo.isEmpty then none
        else
          let l := mget [] e.flight g.base
          let pat := patOf (if e.kind = .sInd then e.pb else e.pa)
          let els := ((beatParts g.slots g.base e.elemWidth l.length).zip l).map fun x => (pat.elem x.1.1 x.1.2 x.2.addr).checked
          some (s.modTile t fun tl => (pass { tl with ips := mput tl.ips port { p with fifo := p.fifo ++ els } }).modEntry q e.id fun e =>
            { e with pos := e.pos + l.length, flight := mdel g.base e.flight })

def State.releaseAll (s : State) (t port : Nat) : Nat → State
  | 0 => s
  | n + 1 => match s.releaseOne t port with | some s' => State.releaseAll s' t port n | none => s

/-- The update that a resumption owes leaves before anything else, once the tile's injection goes on (R358). -/
def State.resyncGather (s : State) (t port : Nat) : State :=
  match mfind port (s.tile t).gbufs with
  | none => s
  | some g => if !g.resync || (s.tile t).gate != .open_ || !(s.tile t).room 1 then s
    else (s.updateEdge t port g.base).modTile t fun tl => { tl with gbufs := mput tl.gbufs port { g with told := g.base, resync := false } }

/-- Beats are released, the sender is told when the injection queue has room, and a buffer whose stream has ended is freed (R349, R353, R359). At
a tile that a pre-emption stops the buffer stays as it is (R358). -/
def State.settleGather (s : State) (t port : Nat) : State :=
  let s := s.resyncGather t port
  let stay := match mfind port (s.tile t).gbufs with | some g => g.resync | none => true
  let s := if stay || (s.tile t).gate != .open_ then s else s.releaseAll t port 17
  match mfind port (s.tile t).gbufs with
  | none => s
  | some g =>
    if stay || (s.tile t).gate != .open_ || !(s.tile t).room 1 then s
    else if g.endSeq = some g.base then (s.updateEdge t port g.base).modTile t fun tl => { tl with gbufs := mdel port tl.gbufs }
    else if 16 ≤ (g.base + 4096 - g.told) % 4096 then
      (s.updateEdge t port g.base).modTile t fun tl => { tl with gbufs := mput tl.gbufs port { g with told := g.base } }
    else s

/-- A complete beat of a tracker is written in any order, where its elements were translated to when their port gave them up (R241, R309,
R353). -/
def State.writeTracked (s : State) (r : Tracker) (b : Nat) : State :=
  match (s.tile r.srcTile).entry r.entry with
  | none => s
  | some e =>
    if e.st != .started then s
    else
      let l := mget [] e.flight b
      (l.zip (beatParts r.slots b e.elemWidth l.length)).foldl (fun s x => s.putElem x.1.segs x.1.sh e.elemWidth x.2.1 x.2.2) s

/-- BASE of a tracker passes the beats that are present. -/
def Tracker.advance (r : Tracker) : Nat → Tracker
  | 0 => r
  | n + 1 => if beatHere r.slots r.base then Tracker.advance { r with slots := dropBeat r.slots r.base, base := (r.base + 4) % 4096, waited := 0 } n else r


/-- A tracker passes what is present, tells its sender, and is freed after the stream's end (R353, R359). -/
def State.settleTracker (s : State) (t k : Nat) : State :=
  match mfind k (s.tile t).trks with
  | none => s
  | some r =>
    let r := r.advance 17
    let room := (s.tile t).gate == .open_ && (s.tile t).room 1
    let ended := r.endSeq == some r.base && room
    let tell := ended || ((r.resync || decide (16 ≤ (r.base + 4096 - r.told) % 4096)) && room)
    let s := if tell then s.updateSender t r.srcTile r.port k r.base else s
    s.modTile t fun tl => { tl with trks := if ended then mdel k tl.trks else mput tl.trks k (if tell then { r with told := r.base, resync := false } else r) }

/-- The edge's own tracker of an egress port does the same (R353, R359). -/
def State.settleEdge (s : State) (t port : Nat) : State :=
  match mfind port (s.tile t).etrks with
  | none => s
  | some r =>
    let r := r.advance 17
    let go := (s.tile t).gate == .open_
    let ended := r.endSeq == some r.base && go
    let tell := ended || ((r.resync || decide (16 ≤ (r.base + 4096 - r.told) % 4096)) && go)
    let s := if tell then s.updatePort t port r.base else s
    s.modTile t fun tl => { tl with etrks := if ended then mdel port tl.etrks else mput tl.etrks port (if tell then { r with told := r.base, resync := false } else r) }

/-- The flit is outside the window, or its slot already holds its SEQ (R353, R356). -/
def offWindow (slots : Map (Nat × Bool)) (base seq : Nat) : Bool := decide (64 ≤ (seq + 4096 - base) % 4096) || (mfind seq slots).isSome

/-- A stream flit enters a gathering buffer. -/
def State.intoGather (s : State) (t : Nat) (f : Flit) (g : GBuf) : State :=
  if offWindow g.slots g.base f.seq then s.modTile t Tile.countMalf
  else (s.modTile t fun tl => { tl with gbufs := mput tl.gbufs f.cls { g with slots := mput g.slots f.seq (f.payload, f.bad) } }).settleGather t f.cls

/-- A stream flit enters a tracker. -/
def State.intoTracker (s : State) (t : Nat) (f : Flit) (r : Tracker) : State :=
  if offWindow r.slots r.base f.seq then s.modTile t Tile.countMalf
  else
    let r := { r with slots := mput r.slots f.seq (f.payload, f.bad) }
    let b := f.seq / 4 * 4
    let s := s.modTile t fun tl => { tl with trks := mput tl.trks f.cls r }
    (if beatHere r.slots b then s.writeTracked r b else s).settleTracker t f.cls

/-- A stream flit enters the edge's tracker of the port that it names; one without a tracker or outside the window is discarded and counted at the
tile it comes from (log 61). -/
def State.intoEdge (s : State) (f : Flit) : State :=
  let t := f.stile
  match mfind f.cls (s.tile t).etrks with
  | none => s.modTile t Tile.countMalf
  | some r =>
    if offWindow r.slots r.base f.seq then s.modTile t Tile.countMalf
    else
      let r := { r with slots := mput r.slots f.seq (f.payload, f.bad) }
      let b := f.seq / 4 * 4
      let s := s.modTile t fun tl => { tl with etrks := mput tl.etrks f.cls r }
      (if beatHere r.slots b then s.writeTracked r b else s).settleEdge t f.cls

/-- The stream end of an egress stream reaches the edge's tracker (R359). -/
def State.endEdge (s : State) (f : Flit) : State :=
  let k := bits f.payload 107 104
  match mfind k (s.tile f.stile).etrks with
  | none => s
  | some r => (s.modTile f.stile fun tl => { tl with etrks := mput tl.etrks k { r with endSeq := some (bits f.payload 119 108) } }).settleEdge f.stile k

/-! Stream ends that are owed, and drain tokens (R308, R357, R359). -/

/-- The sender of a cancelled ingress stream, the edge, sends its end. -/
def State.payEnds (s : State) (t : Nat) : State :=
  let s := (s.tile t).gbufs.foldl (fun s x => match x.2.endDue with
    | some sq => (s.edgeEnd t x.1 sq).modTile t fun tl => { tl with gbufs := mput tl.gbufs x.1 { x.2 with endDue := none } }
    | none => s) s
  (s.tile t).queues.foldl (fun s q => q.2.entries.foldl (fun s e =>
    if e.owesEnd && (s.tile t).gate == .open_ && (s.tile t).room 1 then
      (match s.trackerTile t e with | some u => (s.outEnd t q.1 u e).modTile t fun tl => tl.settle q.1 e.id | none => (s.outEnd t q.1 t e).modTile t fun tl => tl.settle q.1 e.id)
    else s) s) s

/-- A flit of one of the beats at a tile's port travels still: to the tile, or from it. -/
def State.beatsOut (s : State) (t port : Nat) (beats : List Nat) : Bool :=
  s.onWay (dieOf t) fun f => f.kind == 2 && beats.contains (f.seq / 4 * 4)
    && (f.stile == t || (f.stile == edgeTile && f.ddie == dieOf t && f.dtile == labelOf t && f.cls == port))

/-- What the agent of a token still has to see: the beats on their way when the token came, unless they have been released since (R357), and a
copy's retirement while it holds the pages of its probe (R308). A switch drops these and only delivers the beats, and so does the end of the
stream (R251, R309). -/
def State.tokenWaits (s : State) (t : Nat) (k : TokenAt) : Bool :=
  let tl := s.tile t
  match tl.entry k.entry with
  | none => s.beatsOut t (bits k.flit.payload 19 16) k.awaits
  | some e =>
    if tl.gate == .open_ then !e.held.isEmpty || k.awaits.any fun b => (mfind b e.flight).isSome
    else (tl.gate == .hold && !e.held.isEmpty) || s.beatsOut t (bits k.flit.payload 19 16) k.awaits

/-- The agents that have seen everything before their tokens send them back to the edge, as the injection queue has room. -/
def State.returnTokens (s : State) (t : Nat) : State :=
  (s.tile t).drainToks.foldl (fun s k =>
    let tl := s.tile t
    if s.tokenWaits t k || !tl.room 1 then s
    else (s.sendEdge t (s.flit t t 5 0 k.flit.payload)).modTile t fun tl => { tl with drainToks := removeFirst (fun x => x == k) tl.drainToks }) s

/-- A token is back at the edge behind everything its agent had sent. -/
def State.tokenBack (s : State) (f : Flit) : State :=
  s.modPart f.part fun q => { q with job := q.job.map fun j =>
    { j with tokens := j.tokens.map fun k => if k.no == bits f.payload 15 0 && k.tile == f.stile then { k with back := true } else k } }

/-- The first SEQ from BASE on that is missing. -/
def missing (slots : Map (Nat × Bool)) (base : Nat) : Nat :=
  ((List.range 64).find? fun k => (mfind ((base + k) % 4096) slots).isNone).getD 64

/-- BASE waits for a SEQ while a later one is present, or after the stream's end (R356). -/
def lacking (slots : Map (Nat × Bool)) (base : Nat) (endSeq : Option Nat) : Bool :=
  let k := missing slots base
  slots.any (fun x => decide (k < (x.1 + 4096 - base) % 4096)) || (match endSeq with | some n => decide (k < (n + 4096 - base) % 4096) | none => false)

/-- A tile that a pre-empt request has halted reports to its die scheduler (R333, R340). -/
def State.reportHalt (s : State) (t : Nat) : State :=
  let tl := s.tile t
  if tl.gate == .open_ || tl.reported || tl.draining || !tl.room 1 then s
  else (s.sendEdge t (s.flit t t 3 0 (schedPayload 1 false))).modTile t fun tl => { tl with reported := true }

/-- One network cycle of waiting at a tile's buffers and trackers, with a try to go on. -/
def State.tickGather (s : State) (t : Nat) : State :=
  let s := (s.tile t).gbufs.foldl (fun s x => s.settleGather t x.1) s
  let s := (s.tile t).trks.foldl (fun s x => s.settleTracker t x.1) s
  let s := (s.tile t).etrks.foldl (fun s x => if x.2.resync then s.settleEdge t x.1 else s) s
  let s := ((s.payEnds t).returnTokens t).reportHalt t
  s.modTile t fun tl =>
    { tl with
      etrks := tl.etrks.map fun x => (x.1, { x.2 with waited := if lacking x.2.slots x.2.base x.2.endSeq then x.2.waited + 1 else 0 })
      gbufs := tl.gbufs.map fun x => (x.1, { x.2 with waited := if lacking x.2.slots x.2.base x.2.endSeq then x.2.waited + 1 else 0 })
      trks := tl.trks.map fun x => (x.1, { x.2 with waited := if lacking x.2.slots x.2.base x.2.endSeq then x.2.waited + 1 else 0 }) }

end Sys2Proof.Machine
end

