-- ==== Sys2Proof/Machine/EvNetwork.lean ====
section
/-! DEFINITION. Hardware steps of the on-die network: cycles, ages, credits, the crossbar, remote stores and atomics, streams (R342 to R357).
A step that is not enabled changes nothing. -/

namespace Sys2Proof.Machine

/-- The tiles of a die that the state lists. -/
def State.tilesOf (s : State) (die : Nat) : List Nat := (mkeys s.tiles).filter fun t => dieOf t == die

/-- The routers with something to do this cycle. -/
def State.busyRouters (s : State) (die : Nat) : List Nat :=
  let d := s.die die
  ((d.mesh.map fun (m : MeshFlit) => m.label) ++ (d.xbar.filterMap fun (x : XItem) => x.column.map (8 * ·)) ++ ((s.tilesOf die).filter fun t => !(s.tile t).injq.isEmpty).map labelOf).eraseDups

/-- A pre-emption of the partition is due, or one that has begun is not complete (R332, R387). -/
def Partition.stopping (q : Partition) : Bool :=
  q.valid && q.sched.isSome && !q.out && (q.saving || q.hold.suspend || q.hold.cap || q.hold.record || q.hold.mgmt || !q.asked.isEmpty)

/-- A die scheduler sends a pre-empt request to each tile of a partition on its die that has not had one of that level, once its resume flit has
arrived (R332, R337, R340). -/
def State.askTiles (s : State) (die p : Nat) : State :=
  let q := s.part p
  if !q.stopping then s
  else (q.tiles.filter fun t => dieOf t == die && !q.resuming.contains t
      && (match mfind t q.asked with | none => true | some lvl => q.saving && !lvl)).foldl (fun s t =>
    (s.fromEdge t (s.flit t t 3 0 (schedPayload 0 q.saving))).modPart p fun q =>
      { q with asked := mput q.asked t q.saving, halted := q.halted.filter (· != t) }) s

/-- NETWORK_CYCLE (R332, R343, R346, R349, R353, R355). -/
def execNetworkCycle (die : Nat) (s : State) : Out :=
  if 24 ≤ die then .next s
  else
    let s := (mkeys s.parts).foldl (fun s p => s.askTiles die p) s
    let s := (s.tilesOf die).foldl (fun s t => s.pumpRemote t) s
    let old := (s.die die).mesh
    let labels := s.busyRouters die
    let s := s.modDie die fun d => { d with mesh := [] }
    let s := labels.foldl (fun s l => s.route die l (old.filter fun m => m.label == l)) s
    let s := (s.tilesOf die).foldl (fun s t => s.tickGather t) s
    .next (s.modDie die fun d => { d with netCycle := d.netCycle + 1 })

/-- AGE_TICK (R345, R360). -/
def execAgeTick (die : Nat) (s : State) : Out :=
  let d := s.die die
  if d.netCycle % 8 ≠ 0 then .next s
  else
    let s := (d.mesh.filter fun m => m.flit.age == 254).foldl (fun s m => s.modTile (die * 128 + m.label) fun tl =>
      { tl with router := { tl.router with overAge := sat16 tl.router.overAge } }) s
    .next (s.modDie die fun d => { d with mesh := d.mesh.map fun m => { m with flit := { m.flit with age := min 255 (m.flit.age + 1) } } })

/-- CREDIT_DRAW (R347): an injection point of a partition on its tiles fills its allotment of up to 4. Points from 128 on are column ports. -/
def execCreditDraw (die part point : Nat) (s : State) : Out :=
  let c := (s.die die).credit part
  let t := die * 128 + point
  if point < 128 then
    if s.occupant t ≠ some part then .next s
    else
      let n := min (4 - (s.tile t).allot) c.free
      .next ((s.modTile t fun tl => { tl with allot := tl.allot + n }).modDie die fun d => { d with credits := mput d.credits part { c with free := c.free - n } })
  else if (s.part part).out || !(s.columns part die).contains (point - 128) then .next s
  else
    let n := min (4 - mget 0 c.ports (point - 128)) c.free
    .next (s.modDie die fun d =>
      { d with credits := mput d.credits part { c with free := c.free - n, ports := mmod 0 c.ports (point - 128) (· + n) } })

/-- CREDIT_RETURN (R347): returned credits count again from the second tick after their return. -/
def execCreditReturn (die part : Nat) (s : State) : Out :=
  .next (s.modDie die fun d =>
    let c := d.credit part
    let due := c.back.filter fun k => decide (k + 2 ≤ d.netCycle / 8)
    { d with credits := mput d.credits part { c with free := c.free + due.length, back := c.back.filter (fun k => !decide (k + 2 ≤ d.netCycle / 8)) } })

/-- CAP of a partition on a die (R348). -/
def State.capOf (s : State) (p die : Nat) : Nat :=
  let cols := s.columns p die
  let widest := cols.foldl (fun m c => max m (runHigh cols 16 c - runLow cols 16 c + 1)) 0
  min 255 (1024 / (widest + 7))

/-! Senders that hear of a new BASE (R353, R354). -/

/-- An update moves BASE on; one that the network has delivered behind a later one moves nothing. -/
def QEntry.newer (e : QEntry) (sq : Nat) : Bool := decide ((sq + 4096 - e.base) % 4096 ≤ (e.seq + 4096 - e.base) % 4096)

/-- The sender of an ingress stream learns BASE. -/
def Tile.toldIngress (tl : Tile) (port sq : Nat) : Tile :=
  match (mget Port.reset tl.ips port).holder with
  | none => tl
  | some h => tl.modEntry h.1 h.2 fun e => if e.newer sq then { e with base := sq } else e

/-- The sender of a tracked stream learns BASE: beats below it are written. -/
def QEntry.toldTracked (e : QEntry) (sq : Nat) : QEntry :=
  if !e.newer sq then e
  else
    let below := fun (k : Nat) => decide (4 ≤ (sq + 4096 - k) % 4096) && decide ((sq + 4096 - k) % 4096 ≤ 64)
    let n := ((e.flight.filter fun x => below x.1).map fun x => x.2.length).sum
    { e with base := sq, pos := e.pos + n, flight := e.flight.filter fun x => !below x.1 }

/-! What the die scheduler takes from the crossbar: cancels and their reports (R340). -/

/-- A cancel has not reached a die; beyond its home it is forwarded by it. -/
def Cancel.comes (c : Cancel) (f : Flit) (die : Nat) : Bool :=
  c.part == f.part && c.scope % 2 ^ 32 == bits f.payload 31 0 && !c.reached.contains die && (dieOf c.tile == die || c.reached.contains (dieOf c.tile))

/-- A flit from a die's own agents to another die. -/
def Flit.from_ (f : Flit) (die to_ : Nat) : Flit := { f with ddie := to_, sdie := die, stile := edgeTile, edge := true, age := 0 }

/-- The cancel flit reaches a die scheduler; the home forwards it to the partition's other dies (R340). -/
def State.cancelReaches (s : State) (die : Nat) (f : Flit) : State :=
  match s.cancels.find? fun c => c.2.comes f die with
  | none => s
  | some (no, c) =>
    let s := { s with cancels := mput s.cancels no { c with reached := c.reached ++ [die] } }
    if die ≠ dieOf c.tile then s
    else s.modDie die fun d => { d with xbar := d.xbar ++ (c.owed.filter (· != die)).map fun k => ⟨f.from_ die k, none⟩ }

/-- The report of a die scheduler to the home: the sums of its tiles and edge (R340). -/
def State.dieReport (s : State) (no : Nat) (c : Cancel) (die : Nat) : State :=
  let l := mget [] c.sums die
  if die = dieOf c.tile then
    { s with cancels := mput s.cancels no { c with
        totals := (List.range 4).map (fun k => c.totals.getD k 0 + l.getD k 0), sums := mdel die c.sums, owed := c.owed.filter (· != die) } }
  else
    let f := (s.flit (die * 128) (die * 128) 3 0 (reportPayload no (l.getD 0 0) (l.getD 1 0) (l.getD 2 0) (l.getD 3 0))).from_ die (dieOf c.tile)
    let s : State := { s with cancels := mput s.cancels no { c with sums := mdel die c.sums } }
    s.modDie die fun d => { d with xbar := d.xbar ++ [⟨{ f with part := c.part }, none⟩] }

/-- The counts of a report flit (R340). -/
def reportCounts (v : Nat) : List Nat := [bits v 111 88, bits v 87 64, bits v 63 40, bits v 39 16]

/-- The cancel that a report names. -/
def State.cancelOf (s : State) (f : Flit) : Option (Nat × Cancel) :=
  s.cancels.find? fun c => c.1 % 256 == bits f.payload 119 112 && c.2.part == f.part && !c.2.done

/-- A tile's report reaches its die scheduler, or a die's report the home (R340). -/
def State.reportReaches (s : State) (die : Nat) (f : Flit) : State :=
  match s.cancelOf f with
  | none => s
  | some (no, c) =>
    if f.stile = edgeTile then
      { s with cancels := mput s.cancels no { c with
          totals := (List.range 4).map (fun k => c.totals.getD k 0 + (reportCounts f.payload).getD k 0), owed := c.owed.filter (· != f.sdie) } }
    else
      let c := { c with tiles := c.tiles.filter (· != f.stile) }.addSum die (reportCounts f.payload)
      if c.tiles.any fun u => dieOf u == die then { s with cancels := mput s.cancels no c } else s.dieReport no c die

/-- A tile's halted report reaches its die scheduler (R333, R340). -/
def State.haltReaches (s : State) (f : Flit) : State :=
  s.modPart f.part fun q => { q with halted := if (mfind f.stile q.asked).isSome then sadd q.halted f.stile else q.halted }

/-- What the agents behind the crossbar do with a flit from a tile of their die: window updates, stream ends and beats for the memory edge, drain
tokens, cancels and reports (R308, R340, R352, R353). -/
def State.atEdge (s : State) (die : Nat) (f : Flit) : State :=
  if f.isResponse 1 then s.modTile f.stile fun tl => tl.toldIngress (bits f.payload 107 104) (bits f.payload 119 108)
  else if f.isResponse 2 then s.endEdge f
  else if f.kind = 2 then s.intoEdge f
  else if f.kind = 5 then s.tokenBack f
  else if f.kind = 4 then s.cancelReaches die f
  else if f.isSched 3 then s.reportReaches die f
  else if f.isSched 1 then s.haltReaches f
  else s

/-! Answers to requests, and flits that no path takes on (R355, R364). -/

/-- A request is answered for good: its tag and its place in the remote queue are free, and homes forget its tag. -/
def State.freeTag (s : State) (t tag : Nat) : State :=
  let s := s.modTile t fun tl => { tl with tags := mdel tag tl.tags, remoteQ := tl.remoteQ.filter fun r => r.sent != some tag }
  { s with dies := s.dies.map fun d => (d.1, { d.2 with applied := d.2.applied.map fun x => (x.1, x.2.filter (fun k => k / 4 != t * 4096 + tag)) }) }

/-- A request will not be answered: data ends with poison, a write is dropped (R364). -/
def State.endTag (s : State) (t tag : Nat) (data : Bool) : State :=
  match mfind tag (s.tile t).tags with
  | none => s
  | some (c, acc) =>
    (s.modCtx t c fun x => { x with outs := x.outs.map fun (a : Access) =>
        if a.id == acc then { a with st := if data then .faulted 0x07 a.addr 0 else .performed 0 } else a }.trim).freeTag t tag

/-- A flit that no path takes on is dropped (R364). -/
def State.dropFlit (s : State) (f : Flit) : State :=
  if f.isClass 0 || f.isClass 1 then s.endTag f.stile f.seq (f.isClass 1 && bit f.payload 83)
  else if f.isResponse 3 || f.isResponse 4 then s.endTag (f.ddie * 128 + f.dtile) f.seq (f.isResponse 3)
  else s

/-- The flit is for the die scheduler of a die that it has come to. -/
def Flit.forSched (f : Flit) (die : Nat) : Bool := f.ddie == die && (f.kind == 4 || f.isClass 3)

/-- The router whose counter takes what the agents behind a die's crossbar discard: the sender's, or the first one for a flit from another die
(DESIGN CHOICE, log 57: R97 names no router for them). -/
def Flit.counter (f : Flit) (die : Nat) : Nat := if f.sdie = die ∧ f.stile ≠ edgeTile then f.stile else die * 128

/-- CROSSBAR_CROSSING (R97, R351): an item from a column reaches an agent behind the crossbar, a column of its die, or a die-to-die link; only
its destination discards a malformed flit, and one that names no die has none beyond this crossbar. A frame carries the LCLK at which its last
flit joined it (R362). -/
def execCrossbarCrossing (die n : Nat) (s : State) : Out :=
  match (s.die die).xbar[n]? with
  | none => .next s
  | some x =>
    if x.column.isSome then .next s
    else
      let f := x.flit
      let without := s.modDie die fun d => { d with xbar := d.xbar.eraseIdx n }
      let here := f.forEdge die || f.forSched die
      if decide (28 ≤ f.ddie) || (here && f.malformed false) then .next (without.modTile (f.counter die) Tile.countMalf)
      else if here then .next ((without.checkFlit (f.counter die) f).atEdge die f)
      else if f.ddie = die then
        .next (s.modDie die fun d => { d with xbar := d.xbar.modify n fun _ => ⟨{ f with age := 0, edge := false }, some (f.dtile / 8)⟩ })
      else match s.nextDie die f.ddie with
        | none => .next (without.dropFlit f)
        | some d =>
          let k := (dieLinks.findIdx? fun e => e == (min die d, max die d)).getD 0
          let up := decide (die < d)
          let put := fun (fs : List Frame) =>
            match fs.getLast? with
            | some l => if l.toHigh == up && decide (l.flits.length < 10)
              then fs.dropLast ++ [⟨l.flits ++ [f], (s.die die).lclk, up⟩] else fs ++ [⟨[f], (s.die die).lclk, up⟩]
            | none => [⟨[f], (s.die die).lclk, up⟩]
          .next ((without.modLink k fun l => { l with frames := put l.frames }).meter f.part 10 24)

/-! Remote stores and atomics (R140 to R144, R355). -/

/-- The destination answers the flit it applied. -/
def State.answer (s : State) (t : Nat) (f : Flit) (rtype data : Nat) : State :=
  s.sendFlit t f.stile { s.flit t f.stile 3 0 (4 * 2 ^ 124 + rtype * 2 ^ 120 + data) with seq := f.seq }

/-- The issuer's access takes its outcome. -/
def State.remoteDone (s : State) (f : Flit) (st : ASt) : State :=
  match mfind f.seq (s.tile f.stile).tags with
  | none => s
  | some (c, acc) => s.modCtx f.stile c fun x => { x with outs := x.outs.map fun (a : Access) => if a.id == acc then { a with st := st } else a }.trim

/-- One half of a .b128 store has been written: whether its flit failed its check (R131). -/
def State.firstHalf (s : State) (f : Flit) : Option Bool :=
  match mfind f.seq (s.tile f.stile).tags with
  | none => none
  | some (c, acc) => ((s.ctx f.stile c).outs.find? fun a => a.id == acc).bind fun a => (mfind 0 a.got).map fun v => v == 1

/-- The number of flits that are still to be applied of a flit's request. -/
def State.flitsOf (s : State) (f : Flit) : Nat :=
  match (s.tile f.stile).remoteQ.find? fun r => r.sent == some f.seq with
  | some r => if (s.firstHalf f).isSome then 1 else r.flits.length
  | none => 1

/-- The first request of the intake that satisfies p and is whole: its flits, and the tile without them. -/
def State.takeRequest (s : State) (t : Nat) (p : Flit → Bool) : Option (List Flit × Tile) :=
  let tl := s.tile t
  let same := fun (f g : Flit) => p g && g.stile == f.stile && g.seq == f.seq
  match tl.intake.find? fun f => p f && decide (s.flitsOf f ≤ (tl.intake.filter fun g => same f g).length) with
  | none => none
  | some f => some (tl.intake.filter fun g => same f g, { tl with intake := tl.intake.filter fun g => !same f g })

/-- The data of one remote-store flit is written. -/
def State.storeFlit (s : State) (t : Nat) (f : Flit) : State :=
  let n := 2 ^ bits f.payload 123 122
  let h := Home.tile t (bits f.payload 120 99)
  let s := s.writeHome h n (bits f.payload 63 0 % 2 ^ (8 * n))
  if f.bad then s.poisonAt h n else s

/-- The issuer's access notes that one half has been written, and whether its flit failed its check. -/
def State.noteHalf (s : State) (f : Flit) : State :=
  match mfind f.seq (s.tile f.stile).tags with
  | none => s
  | some (c, acc) => s.modCtx f.stile c fun x =>
      { x with outs := x.outs.map fun (a : Access) => if a.id == acc then { a with got := [(0, b2n f.bad)] } else a }

/-- REMOTE_STORE_APPLY (R131, R139 to R141, R355): written and acknowledged once, when the answer finds room. The halves of a .b128 store are
written one per step, the first a free choice (log 6). -/
def execRemoteStoreApply (t : Nat) (s : State) : Out :=
  if !(s.tile t).room 1 then .next s
  else match s.takeRequest t fun f => f.isClass 0 with
  | none => .next s
  | some (fl, tl) => match fl with
    | [f] =>
      let u := (s.modTile t fun _ => tl).storeFlit t f
      let h := Home.tile t (bits f.payload 120 99 / 16 * 16)
      let u := if s.firstHalf f = some false && !f.bad then u.writeHome h 16 (u.readHome h 16) else u
      .next ((u.remoteDone f (.performed 0)).answer t f 4 0)
    | [a, b] =>
      let f := if Config.partFirst s.free % 2 = 0 then a else b
      let s := ((s.modTile t fun tl => { tl with intake := removeFirst (fun x => x == f) tl.intake }).storeFlit t f).noteHalf f
      .next { s with free := s.free + 1 }
    | _ => .next s

/-- REMOTE_ATOMIC_APPLY (R139, R142 to R144, R355): performed, or a posted one dropped when its tag is cancelled, and answered, when the answer
finds room in the injection queue (R349). An operand that fails its check is poison, as the location's would be (R95; log 57). -/
def execRemoteAtomicApply (t : Nat) (s : State) : Out :=
  if !(s.tile t).room 1 then .next s
  else match s.takeRequest t fun f => f.isClass 1 with
  | none => .next s
  | some (fl, tl) =>
    let s := s.modTile t fun _ => tl
    match fl.head? with
    | none => .next s
    | some f =>
      let part := fun (k : Nat) => match fl.find? fun g => bits g.payload 82 81 == k with | some g => bits g.payload 63 0 | none => 0
      let n := if bit f.payload 119 then 8 else 4
      let h := Home.tile t (bits f.payload 115 94)
      let op := (AmoOp.ofCode (bits f.payload 123 120)).getD .add
      let ret := bit f.payload 83
      let reply := fun (s : State) (v cause : Nat) =>
        s.answer t f (if ret then 3 else 4) (if ret then b2n (cause == 7) * 2 ^ 119 + cause * 2 ^ 111 + v else 0)
      if !ret && tl.coversTag (bits f.payload 80 65) then
        .next (reply ((s.countDrop (dieOf t) f.part (bits f.payload 80 65)).remoteDone f (.performed 0)) 0 0)
      else if s.poisonHome h n || fl.any Flit.bad then
        let addr := match mfind f.seq (s.tile f.stile).tags with
          | some (c, acc) => (match (s.ctx f.stile c).outs.find? fun a => a.id == acc with | some a => a.addr | none => 0)
          | none => 0
        .next (reply (s.remoteDone f (if ret then .faulted 0x07 addr 0 else .performed 0)) 0 7)
      else
        let old := s.readHome h n
        let new := if op = .cas then amoNew op n old (part 2) (part 1) else amoNew op n old (part 0) 0
        .next (reply ((s.writeHome h n new).remoteDone f (.performed old)) old 0)


/-- Nobody waits for the value that an answer brings. -/
def State.unwanted (s : State) (t : Nat) (f : Flit) : Bool :=
  match mfind f.seq (s.tile t).tags with
  | none => true
  | some (c, acc) => match (s.ctx t c).outs.find? fun a => a.id == acc with | some a => a.dst == .none | none => true

/-- ACKNOWLEDGEMENT_RECEIPT (R355). An old value for a context that has ended is dropped here. -/
def execAcknowledgementReceipt (t : Nat) (s : State) : Out :=
  match (s.tile t).takeIntake fun f => f.isResponse 4 || (f.isResponse 3 && s.unwanted t f) with
  | none => .next s
  | some (f, tl) => .next ((s.modTile t fun _ => tl).freeTag t f.seq)

/-- The value that an answer brings fails its check: the access ends with poison (R95, R139, R314). -/
def State.checkAnswer (s : State) (t c id : Nat) (f : Flit) : State :=
  if f.bad then s.modCtx t c fun x => { x with outs := x.outs.map fun (a : Access) => if a.id == id then { a with st := .faulted 0x07 a.addr 0 } else a }
  else s

/-- LOAD_RESULT_RETURN of a remote atomic consumes the answer flit; every other result needs none (R133, R355). -/
def execLoadResultReturn (t c id : Nat) (s : State) : Out :=
  match (s.tile t).tags.find? fun x => x.2 == (c, id) with
  | none => s.returnResult t c id
  | some (tag, _) => match (s.tile t).takeIntake fun f => f.isResponse 3 && f.seq == tag with
    | none => .next s
    | some (f, tl) => (((s.modTile t fun _ => tl).checkAnswer t c id f).freeTag t tag).returnResult t c id

/-! Streams (R353, R354, R356, R359). -/

/-- GATHER_FLIT_ARRIVAL (R353, R356). DESIGN CHOICE (log 65): a flit of a stream into space 2 carries its tracker's number in CLASS, and is told from
an ingress port's by the tile it comes from. -/
def execGatherFlitArrival (t : Nat) (s : State) : Out :=
  match (s.tile t).takeIntake fun f => f.kind == 2 with
  | none => .next s
  | some (f, tl) =>
    let s := s.modTile t fun _ => tl
    match mfind f.cls tl.trks, mfind f.cls tl.gbufs with
    | some r, g => if r.srcTile = f.stile then .next (s.intoTracker t f r)
      else match g with | some g => .next (s.intoGather t f g) | none => .next (s.modTile t Tile.countMalf)
    | none, some g => .next (s.intoGather t f g)
    | none, none => .next (s.modTile t Tile.countMalf)

/-- The window update comes from the stream's own tracker: at the tile that the stream writes to, or at the edge (R353, R359). -/
def State.fromTracker (s : State) (t : Nat) (e : QEntry) (f : Flit) : Bool :=
  e.trk == some (bits f.payload 102 99) && (if e.viaEdge then f.stile == edgeTile else s.trackerTile t e == some f.stile)

/-- WINDOW_UPDATE_RECEIPT (R354): at the tile whose egress port sends. -/
def execWindowUpdateReceipt (t : Nat) (s : State) : Out :=
  match (s.tile t).takeIntake fun f => f.isResponse 1 with
  | none => .next s
  | some (f, tl) =>
    let sq := bits f.payload 119 108
    let port := bits f.payload 107 104
    match (mget Port.reset tl.eps port).holder with
    | none => .next (s.modTile t fun _ => tl)
    | some h => .next (s.modTile t fun _ => (tl.modEntry h.1 h.2 fun e => if s.fromTracker t e f then e.toldTracked sq else e).settle h.1 h.2)

/-- STREAM_END_RECEIPT (R359). -/
def execStreamEndReceipt (t : Nat) (s : State) : Out :=
  match (s.tile t).takeIntake fun f => f.isResponse 2 with
  | none => .next s
  | some (f, tl) =>
    let s := s.modTile t fun _ => tl
    let sq := bits f.payload 119 108
    if bit f.payload 103 then
      let k := bits f.payload 102 99
      match mfind k tl.trks with
      | none => .next s
      | some r => .next ((s.modTile t fun tl => { tl with trks := mput tl.trks k { r with endSeq := some sq } }).settleTracker t k)
    else
      let k := bits f.payload 107 104
      match mfind k tl.gbufs with
      | none => .next s
      | some g => .next ((s.modTile t fun tl => { tl with gbufs := mput tl.gbufs k { g with endSeq := some sq } }).settleGather t k)

/-- POISON_FILL_TIMEOUT (R356). Ports from 16 on are trackers, from 32 on those of the edge. -/
def execPoisonFillTimeout (t port : Nat) (s : State) : Out :=
  let count := fun (tl : Tile) => { tl with router := { tl.router with poisonFill := sat16 tl.router.poisonFill } }
  if port < 16 then match mfind port (s.tile t).gbufs with
    | none => .next s
    | some g => if g.waited < 2048 then .next s
      else .next ((s.modTile t fun tl => count { tl with gbufs := mput tl.gbufs port { g with slots := mput g.slots ((g.base + missing g.slots g.base) % 4096) (0, true), waited := 0 } }).settleGather t port)
  else if 32 ≤ port then match mfind (port - 32) (s.tile t).etrks with
    | none => .next s
    | some r => if r.waited < 2048 then .next s
      else
        let k := (r.base + missing r.slots r.base) % 4096
        let r' := { r with slots := mput r.slots k (0, true), waited := 0 }
        let s := s.modTile t fun tl => count { tl with etrks := mput tl.etrks (port - 32) r' }
        let b := k / 4 * 4
        .next ((if beatHere r'.slots b then s.writeTracked r' b else s).settleEdge t (port - 32))
  else match mfind (port - 16) (s.tile t).trks with
    | none => .next s
    | some r => if r.waited < 2048 then .next s
      else
        let k := (r.base + missing r.slots r.base) % 4096
        let r' := { r with slots := mput r.slots k (0, true), waited := 0 }
        let s := s.modTile t fun tl => count { tl with trks := mput tl.trks (port - 16) r' }
        let b := k / 4 * 4
        .next ((if beatHere r'.slots b then s.writeTracked r' b else s).settleTracker t (port - 16))

end Sys2Proof.Machine
end

