-- ==== Sys2Proof/Machine/EvCancel.lean ====
section
/-! DEFINITION. Hardware steps of cancellation (R189, R212, R220, R250, R263 to R268, R340). A step that is not enabled changes nothing. -/

namespace Sys2Proof.Machine

/-- A queued message's unit, with its poison, moves to another entry of its queue. -/
def Tile.moveMsg (tl : Tile) (e i j : Nat) : Tile :=
  if i = j then tl
  else
    let a := msgAddr e (i % 64)
    let b := msgAddr e (j % 64)
    let st := tl.store.write b 16 (tl.store.read a 16)
    { tl with store := if tl.store.poisoned a 16 then st.addPoison b 16 else st }

/-- The messages of one element without those of a cancelled tag: the rest closes up toward the head (R212). `n` counts the entries kept. -/
def Tile.keepMsgs (tl : Tile) (sc e head : Nat) : Nat → Nat → List Nat → Tile × List Nat
  | _, _, [] => (tl, [])
  | i, n, k :: l =>
    if covTag sc (bits (tl.store.read (msgAddr e ((head + i) % 64)) 16) 95 80) then Tile.keepMsgs tl sc e head (i + 1) n l
    else
      let r := Tile.keepMsgs (tl.moveMsg e (head + i) (head + n)) sc e head (i + 1) (n + 1) l
      (r.1, k :: r.2)

/-- Every message queue of the tile (R212). -/
def Tile.dropMsgs (tl : Tile) (sc : Nat) : Tile :=
  tl.msgs.foldl (fun tl x =>
    let r := tl.keepMsgs sc x.1 x.2.1 0 0 x.2.2
    { r.1 with msgs := mput r.1.msgs x.1 (x.2.1, r.2) }) tl

/-- Element queues lose the entries of a cancelled tag (R212). -/
def EArray.dropTags (a : EArray) (sc : Nat) : EArray :=
  let cut := fun (q : Map (List QTok)) => q.map fun x => (x.1, x.2.filter fun (k : QTok) => !covTag sc k.tag)
  { a with elems := a.elems.map fun x => (x.1, { x.2 with iq := cut x.2.iq, oq := cut x.2.oq }) }

/-- The published tasks of a tile that a cancel covers are discarded (R266). -/
def State.purgeAll (s : State) (t sc : Nat) : State :=
  let tl := s.tile t
  let hit := fun (k : Task) => contains sc k.scope
  let gone := (tl.ready.flatMap fun q => q.2.filter hit) ++ tl.dep.filter hit
  let s := s.modTile t fun tl => { tl with ready := tl.ready.map (fun q => (q.1, q.2.filter fun k => !hit k)), dep := tl.dep.filter fun k => !hit k }
  gone.foldl (fun s k => s.purge t k) s

/-- The instance on the element array is not ended by the cancel. -/
def State.arrayStays (s : State) (t sc : Nat) : Bool :=
  (s.tile t).runs.all fun r => r.cls != 6 || (match r.insts.head? with | some i => !contains sc (s.ctx t i.ctx).scope | none => true)

/-- A cancel is registered at one tile (R263, R265, R266). -/
def State.registerAt (s : State) (no sc t : Nat) : State :=
  let tl := s.tile t
  let reg : Reg := ⟨no, sc, tl.res, 0, 0, 0, false⟩
  if tl.covers sc then s.modTile t fun tl => { tl with regs := tl.regs ++ [reg] }
  else
    let stays := s.arrayStays t sc
    let s := s.modTile t fun tl => { tl with cancels := register tl.cancels sc, regs := tl.regs ++ [reg] }
    let s := s.purgeAll t sc
    s.modTile t fun tl =>
      let r := tl.cancelEntries fun e => covTag sc e.tag
      let tl := { r.1 with regs := r.1.regs.map fun (g : Reg) => if g.no = no then { g with cut := g.cut + r.2 } else g }
      let tl := tl.dropMsgs sc
      let drop := fun (m : Map Inst) => m.map fun x => (x.1, if contains sc (tl.ctx x.1).scope then x.2 else { x.2 with arr := x.2.arr.map (·.dropTags sc) })
      { tl with
        array := if stays then tl.array.dropTags sc else tl.array
        scanned := drop tl.scanned
        aside := drop tl.aside
        ctxs := tl.ctxs.map fun x => (x.1, if x.2.task.isSome && contains sc x.2.scope && x.2.killAt.isNone then { x.2 with killAt := some tl.res } else x.2) }

/-- A cancel comes to a tile: its interval joins the cancel set unless the launch that owns the scope has ended (R260, R263). -/
def State.registerHere (s : State) (no : Nat) (c : Cancel) (t : Nat) : State :=
  if s.intervalStays c then s.registerAt no c.scope t
  else s.modTile t fun tl => { tl with regs := tl.regs ++ [⟨no, c.scope, tl.res, 0, 0, 0, false⟩] }

/-- CANCEL_REGISTRATION (R266, R340): at every tile of the partition on the die of t, and at its edge, in one step, once the cancel flit has
reached the die's scheduler. -/
def execCancelRegistration (no t : Nat) (s : State) : Out :=
  match mfind no s.cancels with
  | none => .next s
  | some c =>
    let die := dieOf t
    let p := s.part c.part
    let here := p.tiles.filter fun u => dieOf u == die
    if c.done || !c.reached.contains die || c.edges.contains die || p.out || p.restoring || (here.isEmpty && !(c.dies.map (·.1)).contains die)
      || here.any (fun u => decide (256 < (register (s.tile u).cancels c.scope).length)) then .next s
    else
      let s := here.foldl (fun s u => s.registerHere no c u) s
      let s := s.modDie die fun d => { d with cancelNos := d.cancelNos ++ [no] }
      .next { s with cancels := mmod c s.cancels no fun c => { c with
        edges := c.edges ++ [die], dies := c.dies.map fun x => if x.1 = die then (die, (s.die die).cycle) else x } }

/-- TASK_KILL (R144, R266): at the next instruction boundary of a context outside trap mode, once no atomic owes it an old value. -/
def execTaskKill (t c : Nat) (s : State) : Out :=
  let x := s.ctx t c
  if s.killDue t c && !x.halted && x.wait.isNone && x.arriving.isNone && !x.owesAtomic then .next (s.killTask t c) else .next s

/-- TRAP_MODE_KILL_TIMEOUT (R267). -/
def execTrapModeKillTimeout (t c : Nat) (s : State) : Out :=
  let x := s.ctx t c
  match x.killAt with
  | none => .next s
  | some a =>
    if x.task.isSome && x.trap && !x.halted && x.arriving.isNone && !x.owesAtomic && decide (a + 4096 ≤ (s.tile t).res)
    then .next (s.killTask t c) else .next s

/-- A tile has applied a cancel to everything it covers (R340). -/
def Tile.cancelDone (tl : Tile) (g : Reg) : Bool :=
  tl.ctxs.all (fun x => (x.2.task.isNone || !contains g.scope x.2.scope)
    && x.2.outs.all fun a => a.done || !covTag g.scope a.tag || !(a.kind == .store || a.kind == .amo || a.kind == .cadd))
  && (tl.queues.all fun q => q.2.entries.all fun e => !covTag g.scope e.tag) && decide (g.at_ + 512 ≤ tl.res)

/-- CANCEL_TILE_REPORT (R340): a tile sends its report when the injection queue has room, or the scheduler of a die that holds only granules
reports for its edge. -/
def execCancelTileReport (no t : Nat) (s : State) : Out :=
  match mfind no s.cancels with
  | none => .next s
  | some c =>
    let die := dieOf t
    if c.tiles.contains t then match (s.tile t).regs.find? fun g => g.no == no with
      | none => .next s
      | some g =>
        if g.sent || (s.part c.part).out || !(s.tile t).cancelDone g || !(s.tile t).room 1 then .next s
        else .next ((s.modTile t fun tl => { tl with regs := tl.regs.map fun r => if r.no = no then { r with sent := true } else r }).sendEdge t
          (s.flit t t 3 0 (reportPayload no g.purged g.killed g.cut 0)))
    else match mfind die c.dies with
      | none => .next s
      | some a => if c.edges.contains die && decide (a + 512 ≤ (s.die die).cycle)
        then .next (s.dieReport no { c with dies := c.dies.filter fun x => x.1 != die } die) else .next s

/-- The record of R39 without DONE. -/
def Cancel.record (c : Cancel) : Nat :=
  let n := fun (k : Nat) => min (c.totals.getD k 0) 0xFFFFFFFF
  n 3 * 2 ^ 224 + n 2 * 2 ^ 192 + n 0 * 2 ^ 160 + n 1 * 2 ^ 128 + c.scope % 2 ^ 32 * 2 ^ 96

/-- The cancels whose registered intervals contained this one's scope are over (R265). -/
def State.parentDone (s : State) (c : Cancel) : Bool :=
  c.parents.all fun n => match mfind n s.cancels with | some d => d.done | none => true

/-- CANCEL_ACK_WRITE (R39, R264, R265). -/
def execCancelAckWrite (no : Nat) (s : State) : Out :=
  match mfind no s.cancels with
  | none => .next s
  | some c =>
    if c.done || !c.tiles.isEmpty || !c.dies.isEmpty || !c.owed.isEmpty || !s.parentDone c then .next s
    else
      let s := { s with cancels := mput s.cancels no { c with done := true } }
      match c.ack with
      | none => .next s
      | some a => match s.translate (dieOf c.tile) c.part a false true with
        | .error _ => .next ((s.edgeAt ⟨dieOf c.tile, []⟩ c.part a 32 false true).badRecord c.part (dieOf c.tile) a)
        | .ok pa =>
          let h := s.devHome c.part pa
          let s := (s.edgeAt ⟨dieOf c.tile, []⟩ c.part a 32 false true).meterDev c.part h 32 true
          .next ((s.writeHome h 32 c.record).writeHome h 1 1)

end Sys2Proof.Machine
end

