-- ==== Sys2Proof/Machine/EvPreempt.lean ====
section
/-! DEFINITION. Pre-emption: holds, switches, resumption, and tenants that share slots (R188, R251, R332 to R339, R358). A step that is not
enabled changes nothing. -/

namespace Sys2Proof.Machine

/-- Some cause holds the partition (R332). -/
def Partition.held (p : Partition) : Bool := p.hold.suspend || p.hold.cap || p.hold.record || p.hold.mgmt

/-- A cause that lasts until it is lifted; a new record only asks for a resumption (R332, R386). -/
def Partition.blocked (p : Partition) : Bool := p.hold.suspend || p.hold.cap || p.hold.mgmt

/-- The tile stops: contexts halt where they are, with every issued instruction complete, and sources are gated (R111, R333). A folio load in
progress is discarded and done again on resumption (R188, R192). -/
def Tile.halt (tl : Tile) (g : Gate) : Tile :=
  { tl with
    gate := g, reported := false, wrOld := none, loads := tl.loads.map fun l => { l with left := l.time }
    ctxs := tl.ctxs.map fun x => (x.1, { x.2 with halted := x.2.halted || x.2.task.isSome, busy := [], fflight := [] }) }

/-- PREEMPT_HOLD_REQUEST (R333, R340): the request's flit reaches the tile; a switch in progress is not undone (R337). -/
def execPreemptHoldRequest (t : Nat) (s : State) : Out :=
  match (s.tile t).takeIntake fun f => f.isSched 0 && !bit f.payload 112 with
  | none => .next s
  | some (_, tl) => .next (s.modTile t fun _ => if tl.gate = .open_ then tl.halt .hold else tl)

/-- PREEMPT_SWITCH_REQUEST (R333, R340): it replaces a hold (R337). -/
def execPreemptSwitchRequest (t : Nat) (s : State) : Out :=
  match (s.tile t).takeIntake fun f => f.isSched 0 && bit f.payload 112 with
  | none => .next s
  | some (_, tl) => .next (s.modTile t fun _ => tl.halt .switch)

/-- Nothing of a tile is on its way (R141, R157, R334): results are in their registers, everything that the remote queue held is delivered, element
stores are performed, tokens back. -/
def Tile.quiet (tl : Tile) : Bool :=
  tl.gate == .switch && tl.reported && tl.ctxs.all (fun x => x.2.outs.all fun a => a.isFence || (a.done && a.dst == .none))
    && tl.remoteQ.isEmpty && tl.tags.isEmpty && tl.injq.isEmpty && tl.intake.isEmpty && tl.drainToks.isEmpty
    && !tl.array.storing

/-- Every tile of the partition has reported and is quiet, and no flit, publication, arrival or release of it travels (R333, R334, R337). -/
def State.quiet (s : State) (p : Nat) : Bool :=
  let q := s.part p
  (q.tiles.all fun t => q.halted.contains t && (s.tile t).quiet)
    && (q.dies.all fun d => ((s.die d).mesh.all fun m => m.flit.part != p) && (s.die d).xbar.all fun x => x.flit.part != p)
    && (s.links.all fun l => l.2.frames.all fun f => f.flits.all fun x => x.part != p)
    && (s.pubs.all fun k => !q.tiles.contains k.tile) && (s.arrivals.all fun a => !q.tiles.contains a.tile)
    && s.releases.all fun r => !q.tiles.contains r.tile

/-! Tenants (R338, R339). -/

/-- The partitions that share slots with p (R338). -/
def State.cotenants (s : State) (p : Nat) : List Nat :=
  ((s.parts.filter fun e => e.1 != p && e.2.valid && e.2.sched.isSome && e.2.slots.any fun x => (s.part p).slots.contains x).map (·.1))

/-- A DL tenant has a ready or running task of priority 20 to 23 (R339). -/
def State.urgent (s : State) (p : Nat) : Bool :=
  s.deadline p && ((s.part p).tiles.any (fun t =>
      let tl := s.tileOf p t
      tl.readyAt 20 || tl.ctxs.any fun x => x.2.task.isSome && decide (20 ≤ x.2.prio))
    || s.pubs.any fun k => (s.launch k.task.lid).part == p && decide (20 ≤ k.task.pri))

/-- The tenant may take the slots: it has a launch or accepted work, and nothing holds it (R338). -/
def State.eligible (s : State) (p : Nat) : Bool := (s.part p).out && !(s.part p).blocked && !(s.liveLaunches p).isEmpty

/-- The tenant that follows p: an urgent DL tenant, else the next in rotation (R338, R339). -/
def State.nextTenant (s : State) (p : Nat) : Option Nat :=
  let l := (s.cotenants p ++ [p]).filter s.eligible
  match l.find? s.urgent with
  | some d => some d
  | none => bestOf (fun a b => decide ((a + 64 - p - 1) % 64 < (b + 64 - p - 1) % 64)) l

/-- A switch of the partition begins (R332). -/
def State.beginSwitch (s : State) (p : Nat) : State := s.modPart p fun q => if q.out then q else { q with saving := true }

/-- The credits that a partition's tiles and column ports on a die have drawn are back at its counter (R347). -/
def State.regainCredits (s : State) (p : Nat) : State :=
  (s.part p).dies.foldl (fun s d => s.modDie d fun di =>
    let c := di.credit p
    let drawn := (((s.part p).tiles.filter fun t => dieOf t == d).map fun t => (s.tile t).allot).sum + (c.ports.map (·.2)).sum
    { di with credits := mput di.credits p { c with free := c.free + drawn, ports := [] } }) s

/-- STATE_SAVE_COMPLETE (R335, R336): the tiles leave for the save area, and the next tenant's restore begins. -/
def execStateSaveComplete (p : Nat) (s : State) : Out :=
  let q := s.part p
  if !q.saving || !s.quiet p then .next s
  else
    let tiles := q.tiles.map fun t => (t, { s.tile t with charges := [], allot := 0 })
    let s := s.regainCredits p
    let s := q.tiles.foldl (fun s t => s.modTile t fun _ => Tile.reset) s
    let s := s.modPart p fun q => { q with
      saving := false, out := true, asked := [], halted := [], resuming := [], sliceUsed := 0, saved := tiles.foldl (fun m x => mput m x.1 x.2) [] }
    match s.nextTenant p with
    | some n => if (s.cotenants p).any fun c => !(s.part c).out || (s.part c).restoring then .next s
      else if n = p && (s.cotenants p).isEmpty then .next s
      else .next (s.modPart n fun q => { q with restoring := true })
    | none => .next s

/-! Resumption (R331, R337, R348, R358). -/


/-- The credit counters of a partition get their size (R348). -/
def State.setCaps (s : State) (p : Nat) : State :=
  (s.part p).dies.foldl (fun s d => s.modDie d fun di =>
    let c := di.credit p
    let cap := s.capOf p d
    { di with credits := mput di.credits p { c with cap := cap, free := c.free + cap - c.cap } }) s

/-- The partition runs again: a new scheduling record takes effect (R318), and its die schedulers send a resume flit to every tile (R340). -/
def State.release (s : State) (p : Nat) : State :=
  let s := s.modClasp fun c => { c with ckValid := false }
  let s := s.modPart p fun q => { q with
    sched := q.nextSched <|> q.sched, nextSched := none, hold := { q.hold with record := false }, asked := [], halted := [], resuming := q.tiles }
  ((s.part p).tiles.foldl (fun s t => s.fromEdge t (s.flit t t 3 0 (schedPayload 2 false))) s).setCaps p

/-- A die of the partition is in reset: it may not resume (R368). -/
def State.inReset (s : State) (p : Nat) : Bool :=
  ((s.part p).dies ++ s.stacks p).any fun d => (s.die d).inReset || !(s.die d).flushWait.isEmpty

/-- RESUME_REQUEST (R337, R338, R368, R387): a held partition is released once its hold is complete, that is, every tile has reported; one that is
switched out begins its restore when no other tenant has its slots, but a co-tenant without work is skipped. -/
def execResumeRequest (p : Nat) (s : State) : Out :=
  let q := s.part p
  if !q.valid || q.sched.isNone || q.blocked || q.saving || q.restoring || s.inReset p then .next s
  else if q.out then
    if (s.cotenants p).all (fun c => (s.part c).out && !(s.part c).restoring) && ((s.cotenants p).isEmpty || s.eligible p) then .next (s.modPart p fun q => { q with restoring := true }) else .next s
  else if (q.hold.record || !q.asked.isEmpty) && q.tiles.all q.halted.contains then .next (s.release p) else .next s

/-- RESTORE_COMPLETE (R336, R337, R368): a cap reached meanwhile holds the partition once the restore is complete. -/
def execRestoreComplete (p : Nat) (s : State) : Out :=
  let q := s.part p
  if !q.restoring || s.inReset p then .next s
  else
    let s := q.tiles.foldl (fun s t => s.modTile t fun _ => { (mget Tile.reset q.saved t).halt .hold with reported := true }) s
    let s := s.modPart p fun q => { q with
      restoring := false, out := false, saved := [], sliceUsed := 0, asked := q.tiles.foldl (fun m t => mput m t false) [], halted := q.tiles }
    .next (if q.blocked then s else s.release p)

/-- SLICE_EXPIRY (R338, R339): a tenant alone on its slots, or the only one with work, stays. -/
def execSliceExpiry (p : Nat) (s : State) : Out :=
  let q := s.part p
  match q.sched with
  | none => .next s
  | some r =>
    if !q.resident || decide (q.sliceUsed < r.slice * 1024) || s.urgent p then .next s
    else if (s.cotenants p).any s.eligible then .next (s.beginSwitch p)
    else .next (s.modPart p fun q => { q with sliceUsed := 0 })

/-- DEADLINE_PREEMPTION (R339): p is the DL tenant that is out. -/
def execDeadlinePreemption (p : Nat) (s : State) : Out :=
  if (s.part p).out && s.urgent p && s.eligible p then
    .next ((s.cotenants p).foldl (fun s c => if (s.part c).resident then s.beginSwitch c else s) s)
  else .next s

end Sys2Proof.Machine
end

