-- ==== Sys2Proof/Machine/Loader.lean ====
section
/-! DEFINITION. The loader: containers, sections, folio images, port bindings, groups, relocation, scopes and memory-node ranges (R19, R33,
R102 to R107, R163, R207, R259, R291, R292, R321). A refusal answers the FCODE of R260. -/

namespace Sys2Proof.Machine

/-- n bytes of a list at an offset, little-endian. -/
def leAt (l : List Byte) (off n : Nat) : Nat := ofBytes ((l.drop off).take n)

/-- Container bytes in space 0, page by page (R103, R260): FCODE 6 without a readable translation, 7 on poison. -/
def State.readVirt (s : State) (p : Nat) : Nat → Nat → Nat → Except Nat (List Byte)
  | 0, _, _ => .ok []
  | k + 1, addr, n =>
    if n = 0 then .ok []
    else if 2 ^ 52 ≤ addr then .error 6
    else match s.translate (ioDie p) p addr true false with
      | .error _ => .error 6
      | .ok pa =>
        let m := min n (2 ^ 16 - addr % 2 ^ 16)
        if s.poisonHome (s.devHome p pa) m || s.reservePoison (s.devHome p pa) then (match State.readVirt s p k (addr + m) (n - m) with | .error 6 => .error 6 | _ => .error 7)
        else (State.readVirt s p k (addr + m) (n - m)).map fun l => readBytes s.dev.bytes pa m ++ l

/-- A section: type, its place in the container, its bytes (R102). -/
structure Section where
  typ : Nat
  off : Nat
  body : List Byte
  deriving DecidableEq, Repr

/-- The section entries; none when one breaks R103. -/
def readSections (raw : List Byte) : Nat → Nat → Option (List Section)
  | 0, _ => some []
  | n + 1, k =>
    let e := leAt raw (32 + 32 * k) 32
    let size := bits e 191 128
    let off := bits e 127 64
    let typ := bits e 7 0
    if raw.length < 64 + 32 * k || bits e 255 192 != 0 || bits e 63 8 != 0 || typ == 0 || decide (8 < typ) || decide (raw.length < off + size) then none
    else (readSections raw n (k + 1)).map fun l => ⟨typ, off, (raw.drop off).take size⟩ :: l

/-! Folio images (R104, R163). -/

/-- The element part at an offset of an image. -/
def epartOf (img : List Byte) (off : Nat) : EPart :=
  let at_ := fun (k n : Nat) => leAt img (off + k) n
  { rules := (List.range 64).map fun e => (List.range 16).map fun i => at_ (192 * e + 8 * i) 8,
    conflicts := (List.range 64).map fun e => (List.range 16).map fun i => at_ (192 * e + 128 + 2 * i) 2,
    handlers := (List.range 64).map fun e => (List.range 16).map fun h => at_ (192 * e + 160 + h) 1,
    pbInit := (List.range 64).map fun e => at_ (192 * e + 176) 1,
    frames := at_ 12288 16,
    convs := (List.range 16).map fun k => at_ (12304 + 4 * k) 4,
    nodes := (List.range 32).map fun k => at_ (12368 + 16 * k) 16,
    zeroBad := ((List.range 64).any fun e => at_ (192 * e + 177) 15 != 0) || at_ 12880 48 != 0 }

/-- A folio from its image. -/
def folioOf (img : List Byte) : Folio :=
  let h := leAt img 0 64
  let eoff := bits h 266 235
  let size := bits h 319 288
  { weave := bits h 511 448, irole := bits h 447 384, erole := bits h 383 320, size := size, index := bits h 287 276, qcnt := bits h 275 273,
    plen := bits h 272 267, eoff := eoff,
    epart := if bits h 499 496 = 6 && eoff != 0 && eoff % 64 == 0 && decide (eoff + 12928 ≤ size) then some (epartOf img eoff) else none }

/-- The images of a folio section, back to back (R103); one more than there are indices repeats an INDEX. -/
def readFolios : Nat → List Byte → Map Folio → Option (Map Folio)
  | 0, l, m => if l.isEmpty then some m else none
  | n + 1, l, m =>
    if l.isEmpty then some m
    else
      let size := leAt l 36 4
      if size < 64 || size % 64 ≠ 0 || l.length < size then none
      else
        let f := folioOf (l.take size)
        if (mfind f.index m).isSome then none else readFolios n (l.drop size) (mput m f.index f)

/-! Port bindings, groups, scopes (R105 to R107). -/

/-- The entries of a port-binding section. -/
def readBinds (body : List Byte) (folios : Map Folio) : Option (List PBind) :=
  let l := (List.range (body.length / 48)).map fun k => (leAt body (48 * k) 16, leAt body (48 * k + 16) 32)
  let key := fun (h : Nat) => bits h 127 111
  let bad := fun (x : Nat × Nat) => bits x.1 105 64 != 0 || (patOf x.2).resv != 0 || (mfind (bits x.1 127 116) folios).isNone
    || bits x.1 63 0 % 16 != 0 || decide (tileStoreSize < bits x.1 63 0 + 16)
  if body.length % 48 ≠ 0 || l.any bad || (l.map fun x => key x.1).eraseDups.length ≠ l.length then none
  else some (l.map fun x => ⟨bits x.1 127 116, bit x.1 115, bits x.1 114 111, bits x.1 110 107, bit x.1 106, bits x.1 63 0, x.2⟩)

/-- One entry of a group section; the outer none refuses it (R106). DESIGN CHOICE (log 65): so does every other breach of the entry's layout: a
nonzero entry with VALID 0, a bitmap that is misaligned or below byte 8,192, PHASE, ARRIVED or CXL set, and no members. -/
def readGroup (body : List Byte) (nvt g : Nat) : Option (Option Group) :=
  let e := leAt body (32 * g) 32
  let off := bits e 255 192
  if !bit e 114 then (if e = 0 then some none else none)
  else
    let map := leAt body off 384
    let mem := (List.range 3072).filter (bit map)
    if bits e 164 160 != 0 || bits e 159 115 != 0 || bits e 113 0 != 0 || bits e 179 168 == 0 || decide (4 < bits e 167 165) || off % 64 != 0
        || decide (off < 8192) || decide (body.length < off + 384) || bits e 191 180 == 0 || mem.length != bits e 191 180 || mem.any (nvt ≤ ·) then none
    else some (some { Group.reset with members := mem, narr := bits e 179 168, fscope := bits e 167 165 })

/-- The group table of a container, from entry g on. -/
def readGroups (body : List Byte) (nvt : Nat) : Nat → Nat → Option (Map Group)
  | 0, _ => some []
  | n + 1, g => match readGroup body nvt g, readGroups body nvt n (g + 1) with
    | some (some e), some m => some ((g, e) :: m)
    | some none, some m => some m
    | _, _ => none

/-- A scope-declaration section is refused (R107). -/
def scopesBad (body : List Byte) (root : Nat) : Bool :=
  body.length % 16 != 0 || (List.range (body.length / 16)).any fun k =>
    let v := leAt body (16 * k + 12) 4
    !scValid v || !contains root v

/-! Memory-node ranges (R291, R292). -/

/-- An entry differs from its descriptor, or its ACC from the rules. -/
def rangeBad (folios : Map Folio) (e : Nat) : Bool :=
  match (mfind (bits e 255 244) folios).bind (·.epart) with
  | none => true
  | some p =>
    let d := p.node (bits e 243 239)
    bits e 225 192 != 0 || bits e 103 0 != 0 || d.space != bits e 238 236 || d.prel != bit e 235 || d.pat != bits e 234 231 || d.width != bits e 230 229
      || d.off != bits e 191 128 || d.count != bits e 127 104 || p.acc (bits e 243 239) != bits e 228 227

/-- The conflicts of every class-6 folio: folio, node, node. -/
def allConflicts (folios : Map Folio) : List (Nat × Nat × Nat) :=
  folios.flatMap fun x => match x.2.epart with | some p => (x.2.conflicts p).map fun c => (x.1, c.1, c.2) | none => []

/-- The check of the range section: the flagged pairs and PERM; none refuses. -/
def checkRanges (folios : Map Folio) (body : Option (List Byte)) : Option (List (Nat × Nat × Nat) × Bool) :=
  let named := folios.flatMap fun x => match x.2.epart with | some p => p.named.map fun k => (x.1, k) | none => []
  match body with
  | none => if named.isEmpty then some ([], false) else none
  | some b =>
    let h := leAt b 0 32
    let es := (List.range (bits h 31 16)).map fun k => leAt b (32 + 32 * k) 32
    let has := es.map fun e => (bits e 255 244, bits e 243 239)
    let con := allConflicts folios
    if b.length < 32 || b.length ≠ 32 + 32 * bits h 31 16 || bits h 255 64 != 0 || bits h 15 1 != 0 || es.any (rangeBad folios)
        || named.any (fun x => !has.contains x) || (!con.isEmpty && !bit h 0) then none
    else some (con, bit h 0)

/-! Relocation (R321). -/

/-- A virtual tile's entry: virtual die, virtual column, row. -/
abbrev VPos := Nat × Nat × Nat

/-- The entries of a relocation section; none refuses. -/
def readReloc (body : List Byte) (nvt : Nat) : Option (List VPos) :=
  let es := (List.range nvt).map fun v => leAt body (4 * v) 4
  let l : List VPos := es.map fun e => (bits e 31 27, bits e 26 23, bits e 22 20)
  if body.length ≠ 4 * nvt || (es.any fun e => bits e 19 12 != 0xE4 || bits e 11 0 != 0) || l.eraseDups.length ≠ l.length then none else some l

/-- The lowest owned columns of a die for virtual columns in ascending order: their tiles must be free. -/
def placeColumns (cols : List Nat) (free : Nat → Nat → Bool) (rows : Nat → List Nat) : List Nat → Nat → Option (List (Nat × Nat))
  | [], _ => some []
  | v :: rest, from_ => match cols.find? fun c => decide (from_ ≤ c) && (rows v).all (free c) with
    | none => none
    | some c => (placeColumns cols free rows rest (c + 1)).map fun l => (v, c) :: l

/-- Virtual dies in ascending order get distinct dies, the lexicographically lowest that works. -/
def placeDies (dies : List Nat) (cols : Nat → Nat → Option (List (Nat × Nat))) : List Nat → List Nat → Option (List (Nat × Nat × List (Nat × Nat)))
  | [], _ => some []
  | v :: rest, used => dies.findSome? fun d => if used.contains d then none else match cols v d with
    | none => none
    | some cs => (placeDies dies cols rest (d :: used)).map fun l => (v, d, cs) :: l

/-- The placement of a launch: the tile of each virtual tile (R321; log 9). -/
def State.place (s : State) (p : Nat) (l : List VPos) : Option (List Nat) :=
  let up := sortBy (fun (a b : Nat) => decide (a < b))
  let free := s.freeTiles p
  let cols := fun (v d : Nat) =>
    placeColumns (s.columns p d) (fun c r => free.contains (d * 128 + c * 8 + r))
      (fun c => (l.filter fun x => x.1 == v && x.2.1 == c).map fun x => x.2.2)
      (up ((l.filter fun x => x.1 == v).map fun x => x.2.1).eraseDups) 0
  match placeDies (up (s.part p).dies) cols (up (l.map fun x => x.1).eraseDups) [] with
  | none => none
  | some m => some (l.map fun x => match m.find? fun e => e.1 == x.1 with
    | some e => e.2.1 * 128 + mget 0 e.2.2 x.2.1 * 8 + x.2.2
    | none => 0)

/-! The container as a whole (R103). -/

/-- What a container gives a launch. -/
structure Loaded where
  entry : Nat
  trap : Nat
  image : List Byte
  folios : Map Folio
  binds : List PBind
  groups : Map Group
  reloc : List VPos
  ranges : Option Section
  flagged : List (Nat × Nat × Nat)
  perm : Bool
  deriving DecidableEq, Repr

/-- Zeros up to the next 64-byte boundary. -/
def pad64 (l : List Byte) : List Byte := l ++ List.replicate ((64 - l.length % 64) % 64) 0

/-- A container's contents; none refuses it. -/
def parseContainer (raw : List Byte) (nvt root : Nat) : Option Loaded :=
  let h := leAt raw 0 32
  if raw.length < 32 || bits h 31 0 ≠ 0x5348524C || bits h 47 32 ≠ 1 || bits h 255 192 ≠ 0 then none
  else do
    let secs ← readSections raw (bits h 63 48) 0
    let one := fun (k : Nat) => secs.find? fun x => x.typ == k
    let body := fun (k : Nat) => (one k).map fun x => x.body
    if ([1, 3, 4, 5, 6, 7, 8].any fun k => decide (1 < (secs.filter fun x => x.typ == k).length)) then none
    else
      let prog ← body 1
      let rel ← body 6
      let folios ← readFolios 4096 ((body 3).getD []) []
      let image := (secs.filter fun x => x.typ == 2).foldl (fun l x => pad64 l ++ x.body) prog
      let top := if folios.any fun f => f.2.cls == 6 then 0x2F0000 else tileStoreSize
      let binds ← readBinds ((body 4).getD []) folios
      let groups ← match body 5 with | none => some [] | some b => if b.length < 8192 then none else readGroups b nvt 256 0
      let reloc ← readReloc rel nvt
      let ranges ← checkRanges folios (body 8)
      if decide (top < (pad64 image).length) || scopesBad ((body 7).getD []) root
          || ((List.range nvt).any fun v => decide (4 < (groups.filter fun g => g.2.members.contains v).length)) then none
      else some ⟨bits h 127 64, bits h 191 128, image, folios, binds, groups, reloc, one 8, ranges.1, ranges.2⟩

/-- GRP of a virtual tile (R19). -/
def grpOf (groups : Map Group) (v : Nat) : Nat :=
  (((groups.filter fun g => g.2.members.contains v).take 4).zipIdx.map fun x => x.1.1 * 2 ^ (8 * x.2) + 2 ^ (32 + x.2)).sum

/-- A tile takes a launch: the program and data at address 0, the identity, TRAPBASE, GRP and BUDGET; nothing of an earlier launch stays in
its queues, ports, configurations and arrays, and what its router and its memories hold stays, as do the partition's registered cancels and
every access still on its way (R17, R18, R103, R247, R263, R269, R317). -/
def Tile.placed (tl : Tile) (l v vdie budget : Nat) (c : Loaded) : Tile :=
  { Tile.reset with
    lid := some l
    vtile := v
    vdie := vdie
    store := tl.store.writeList 0 c.image
    acc := tl.acc
    accPoison := tl.accPoison
    accFmt := tl.accFmt
    trapBase := BitVec.ofNat 64 c.trap
    budget := budget
    grp := grpOf c.groups v
    cancels := tl.cancels
    ctxs := tl.ctxs.map fun x => (x.1, { Ctx.reset with outs := x.2.outs, serial := x.2.serial })
    res := tl.res
    nextAcc := tl.nextAcc
    nextId := tl.nextId
    remoteQ := tl.remoteQ
    tags := tl.tags
    sentMsgs := tl.sentMsgs
    injq := tl.injq
    intake := tl.intake
    allot := tl.allot
    router := tl.router
    gate := tl.gate
    reported := tl.reported
    regs := tl.regs }

/-- FLAGGED and RACE are written into the container (R292). DESIGN CHOICE (log 66): where its page does not translate for writing the write is left
out. -/
def State.writeFlags (s : State) (p cont : Nat) (c : Loaded) : State :=
  match c.ranges with
  | none => s
  | some sec =>
    if !c.perm then s
    else
      let put := fun (s : State) (a n v : Nat) => match s.translate (ioDie p) p a false true with | .ok pa => s.writeHome (s.devHome p pa) n v | .error _ => s
      let s := put s (cont + sec.off + 4) 4 (c.flagged.length % 2 ^ 32)
      (List.range (sec.body.length / 32 - 1)).foldl (fun s k =>
        let e := leAt sec.body (32 + 32 * k) 32
        if c.flagged.any fun x => x.1 == bits e 255 244 && (x.2.1 == bits e 243 239 || x.2.2 == bits e 243 239)
        then put s (cont + sec.off + 32 + 32 * k + 28) 4 (bits e 255 224 + 4 - bits e 226 226 * 4) else s) s

end Sys2Proof.Machine
end

