-- ==== Sys2Proof/Machine/EvLaunch.lean ====
section
/-! DEFINITION. Launches from outside, the loader, and the end of a launch (R258 to R260, R319, R320, R370, R371, R375). A step that is not
enabled changes nothing. -/

namespace Sys2Proof.Machine

/-- The windows of a partition are open: its scheduling record has been accepted (R376). -/
def State.windowsOpen (s : State) (p : Nat) : Bool := (s.part p).valid && (s.part p).sched.isSome

/-- A submission of a descriptor from outside: the code of R371, the quote, and the state (R319). A descriptor that came as poison is refused as
R258 refuses one that is read so, with 0x07 (R316, R371). -/
def State.submit (s : State) (p limit desc : Nat) (psn : Bool) (rack : Option Nat) : Nat × Nat × State :=
  let d := descOf desc
  match (if psn then some (0x07, 0) else s.descFault p (ioDie p) d) with
  | some f => (f.1, allOnes.toNat, s)
  | none => match s.enrol p (ioDie p) limit d 0 none rack with
    | some r => (0, r.1, r.2)
    | none => (0xFF, allOnes.toNat, s)

/-- LAUNCH_WINDOW_WRITE (R319, R370, R371). Bit 512 of the operand is the TLP's EP (R316). -/
def execLaunchWindowWrite (p desc : Nat) (s : State) : Out :=
  if !s.windowsOpen p then .next s
  else
    let limit := match (s.part p).sched with | some r => r.hqlim | none => 0
    let r := s.submit p limit (desc % 2 ^ 512) (bit desc 512) none
    .next (r.2.2.modPart p fun q => { q with quote := r.2.1, stSeq := (q.stSeq + 1) % 2 ^ 32, stCode := r.1 })

/-- PARTIAL_WINDOW_WRITE (R370, R371). -/
def execPartialWindowWrite (p : Nat) (s : State) : Out :=
  if !s.windowsOpen p then .next s else .next (s.modPart p fun q => { q with stBad := min (q.stBad + 1) (2 ^ 24 - 1) })

/-- The residency report as its 256 bits (R375). -/
def reportWord (request quote code free live lclk module : Nat) : Nat :=
  request % 2 ^ 32 * 2 ^ 224 + quote % 2 ^ 64 * 2 ^ 160 + code % 256 * 2 ^ 152 + free % 2 ^ 12 * 2 ^ 140 + live % 2 ^ 12 * 2 ^ 128
    + lclk % 2 ^ 64 * 2 ^ 64 + module % 512 * 2 ^ 55

/-- A residency report leaves for the rack scheduler (R375). -/
def State.report (s : State) (p request quote code : Nat) : State :=
  s.send "rack" "residency report"
    [reportWord request quote code (s.unreserved p) (s.liveLaunches p).length (s.die (ioDie p)).lclk Config.moduleNo]

/-- LAUNCH_PACKET (R319, R375). Bit 614 of the operand says that it came as poison. -/
def execLaunchPacket (packet : Nat) (s : State) : Out :=
  let p := bits packet 613 608
  let request := bits packet 607 576
  if !s.windowsOpen p then .next (s.report p request allOnes.toNat 0xFF)
  else
    let r := s.submit p (bits packet 575 512) (packet % 2 ^ 512) (bit packet 614) (some request)
    .next (r.2.2.report p request r.2.1 r.1)

/-! The loader (R103, R259, R320). -/

/-- The entry task (R259). -/
def State.entryTask (s : State) (l : Nat) (entry : Nat) : Task :=
  let la := s.launch l
  { addr := la.x2, scope := la.root, pri := s.priOf la.part la.pri, entry := entry, arg := la.arg, vtile := 0, groups := [], depAddr := 0,
    depTgt := 0, lid := l, depWarned := false, arrived := [], saved := none, lastPc := none }

/-- The loader refuses: FCODE of R260. -/
def State.refuseLaunch (s : State) (l fcode : Nat) : State := s.modLaunch l fun la => { la with refusal := some fcode }

/-- A container is placed and the entry task published. -/
def State.placeLaunch (s : State) (l : Nat) (c : Loaded) (tiles : List Nat) : State :=
  let la := s.launch l
  let bdef := match (s.part la.part).sched with | some r => r.bdef | none => 96
  let s := (tiles.zipIdx).foldl (fun s x => s.modTileOf la.part x.1 fun tl => tl.placed l x.2 ((c.reloc.getD x.2 (0, 0, 0)).1) bdef c) s
  let s := s.modLaunch l fun la =>
    { la with st := .placed, started := true, tiles := tiles, folios := c.folios, binds := c.binds, groups := c.groups, perm := c.perm }
  let s := s.writeFlags la.part la.cont c
  match tiles.head? with
  | some t => { s with pubs := s.pubs ++ [⟨s.entryTask l c.entry, t, none⟩] }
  | none => s

/-- The edge's part in the loader's reads, page by page (R302, R310, R380, R381). -/
def State.containerRead (s : State) (p addr n : Nat) : State :=
  (List.range (n / 2 ^ 16 + 2)).foldl (fun s k =>
    let a := max addr ((addr / 2 ^ 16 + k) * 2 ^ 16)
    let b := min (addr + n) ((addr / 2 ^ 16 + k + 1) * 2 ^ 16)
    if a < b then s.readRecordAt (ioDie p) p a (b - a) else s) s

/-- LOADER_PLACEMENT (R103, R259, R320, R321). A partition that is switched out is loaded once it is back, a deadline tenant at once (R339). -/
def execLoaderPlacement (l : Nat) (s : State) : Out :=
  let la := s.launch l
  let q := s.part la.part
  if la.st != .admitted || la.refusal.isSome || !s.tended la.part || q.restoring || q.saving then .next s
  else
    let t := s.containerRead la.part la.cont la.csize
    match s.readVirt la.part (la.csize / 2 ^ 16 + 2) la.cont la.csize with
    | .error e => .next (t.refuseLaunch l e)
    | .ok raw => match parseContainer raw la.nvt la.root with
      | none => .next (t.refuseLaunch l 2)
      | some c => match t.place la.part c.reloc with
        | none => .next (t.refuseLaunch l 2)
        | some tiles => .next (t.placeLaunch l c tiles)

/-! The end of a launch (R260). -/

/-- A tile holds no task, entry or instance of its launch, and every write of its tasks has been performed (R260, R288). -/
def Tile.idle (tl : Tile) (l : Nat) : Bool :=
  (tl.ready.all fun q => q.2.isEmpty) && tl.dep.isEmpty && (tl.ctxs.all fun c => c.2.task.isNone && c.2.outs.all fun a => a.isFence || a.finished)
    && tl.remoteQ.isEmpty && tl.runs.isEmpty && tl.scanned.isEmpty && tl.aside.isEmpty && tl.queues.all fun q => q.2.entries.all fun e => e.lid != l

/-- The end record without DONE. -/
def Launch.record (la : Launch) : Nat :=
  la.dtpc % 2 ^ 64 * 2 ^ 192 + la.hcode % 2 ^ 32 * 2 ^ 160 + la.dcause % 256 * 2 ^ 152 + la.dvtile % 2 ^ 12 * 2 ^ 140 + la.dctx % 8 * 2 ^ 137
    + b2n la.refusal.isSome * 16 + b2n la.dt * 8 + b2n la.hlt * 4 + b2n (la.cxl || la.hlt) * 2

/-- The end record, when the descriptor names one; a write that faults is reported (R260). -/
def State.writeEnd (s : State) (la : Launch) : State :=
  if la.endAddr = 0 then s
  else match s.writable la.part (ioDie la.part) la.endAddr 32 with
    | .error _ => s.badRecord la.part (ioDie la.part) la.endAddr
    | .ok h =>
      let s := (s.edgeAt ⟨ioDie la.part, []⟩ la.part la.endAddr 32 false true).meterDev la.part h 32 true
      (s.writeHome h 32 la.record).writeHome h 1 (la.record % 256 + 1)

/-- FCODE of a launch's contribution: a double trap, the loader's refusal, or a fenced die (R260, R364, R390). -/
def Launch.fcode (la : Launch) : Nat := if la.dt then 0x11 else if la.lost then 0x07 else la.refusal.getD 0

/-- The contribution to CTR. -/
def State.contributeEnd (s : State) (la : Launch) : State :=
  if la.ctr = 0 then s
  else match s.writable la.part (ioDie la.part) la.ctr 16 with
    | .error _ => s.badRecord la.part (ioDie la.part) la.ctr
    | .ok h => s.contribute la.part (ioDie la.part) h la.ctr 1 (la.cxl || la.hlt) (la.fcode != 0) false la.fcode

/-- A tile without its launch. -/
def Tile.freed (tl : Tile) : Tile := { tl with lid := none, vtile := 0, vdie := 0, grp := 0 }

/-- The registered cancels within a root are gone, and what they have reported (R260, R263). -/
def Tile.dropCancels (tl : Tile) (root : Nat) : Tile :=
  { tl with cancels := tl.cancels.filter fun i => !contains root i, regs := tl.regs.filter fun g => !(g.sent && contains root g.scope) }

/-- The launch ends: its tiles are free, and the cancels of its scopes leave every tile of the partition (R260). -/
def State.endLaunch (s : State) (l : Nat) : State :=
  let la := s.launch l
  let s := (s.writeEnd la).contributeEnd la
  let s := la.tiles.foldl (fun s t => s.modTileOf la.part t Tile.freed) s
  let s := (s.part la.part).tiles.foldl (fun s t => s.modTileOf la.part t fun tl => tl.dropCancels la.root) s
  let s := s.modLaunch l fun la => { la with st := .ended }
  let q := s.takeFree
  q.2.report la.part 0 (q.1 % 2 ^ 64) 0

/-- LAUNCH_END (R260). -/
def execLaunchEnd (l : Nat) (s : State) : Out :=
  let la := s.launch l
  if la.st = .ended then .next s
  else if la.refusal.isSome then .next (s.endLaunch l)
  else if la.st != .placed || !la.started || (s.pubs.any fun p => p.task.lid == l) || !(la.tiles.all fun t => (s.tileOf la.part t).idle l) then .next s
  else .next (s.endLaunch l)

end Sys2Proof.Machine
end

