-- ==== Sys2Proof/Machine/EvMap.lean ====
section
/-! DEFINITION. Map requests, invalidation and page migration (R300 to R311, R318). A step that is not enabled changes nothing. -/

namespace Sys2Proof.Machine

/-! The fields of a request (R306). -/

structure MapReq where
  va : Nat
  pa : Nat
  count : Nat
  psz : Nat
  op : Nat
  rd : Bool
  wr : Bool
  csp : Bool
  zeroBad : Bool
  ctr : Nat
  amt : Nat
  deriving DecidableEq, Repr

def mapReqOf (v : Nat) : MapReq :=
  let op := bits v 377 375
  { va := bits v 511 448, pa := bits v 447 400, count := bits v 399 380, psz := bits v 379 378, op := op, rd := bit v 374, wr := bit v 373,
    csp := bit v 372, zeroBad := bits v 371 320 != 0 || bits v 191 0 != 0 || (!(op == 0 || op == 3) && bits v 447 400 != 0),
    ctr := bits v 319 256, amt := bits v 255 192 }

/-- Page i of a request. -/
def MapReq.page (r : MapReq) (i : Nat) : Nat := r.va + i * pageSize r.psz
def MapReq.frame (r : MapReq) (i : Nat) : Nat := r.pa + i * pageSize r.psz
def MapReq.size (r : MapReq) : Nat := r.count * pageSize r.psz
/-- A leaf is one of the request's pages. -/
def MapReq.names (r : MapReq) (e : Leaf) : Bool := e.psz == r.psz && decide (r.va ≤ e.va) && decide (e.va < r.va + r.size)

/-! The checks (R307). -/

/-- Bytes of the table store that a set of leaves takes (R301). -/
def tableBytes (l : List Leaf) : Nat :=
  let two := (l.map fun e => e.va / 2 ^ 39).eraseDups.length
  let one := ((l.filter fun e => decide (e.psz ≤ 1)).map fun e => e.va / 2 ^ 30).eraseDups.length
  let low := ((l.filter fun e => e.psz == 0).map fun e => e.va / 2 ^ 21).eraseDups.length
  2 ^ 16 + 4096 * two + 4096 * one + 256 * low

/-- FCODE 2: a malformed request. -/
def MapReq.malformed (r : MapReq) : Bool :=
  r.psz == 3 || decide (5 ≤ r.op) || r.count == 0 || r.zeroBad || r.va % pageSize r.psz != 0 || r.pa % pageSize r.psz != 0
    || decide (2 ^ 52 < r.va + r.size)

/-- The leaves with a request's pages mapped. -/
def MapReq.mapped (r : MapReq) (l : List Leaf) : List Leaf := l ++ (List.range r.count).map fun i => ⟨r.page i, r.psz, r.frame i, r.rd, r.wr⟩

/-- A page of the save area, of the record in force or of an accepted one, that an unmap or a protect takes (R318). -/
def Partition.savesIn (q : Partition) (r : MapReq) : Bool :=
  (r.op == 1 || (r.op == 2 && !r.wr)) && (q.sched.toList ++ q.nextSched.toList).any fun k =>
    decide (r.va < k.saveBase + 8 * q.slots.length * 0x800000) && decide (k.saveBase < r.va + r.size)

/-- FCODE 4: the pages are not as the operation needs them. -/
def Partition.mapClash (q : Partition) (r : MapReq) : Bool :=
  match r.op with
  | 0 => (q.leaves.any fun e => decide (e.va < r.va + r.size) && decide (r.va < e.va + pageSize e.psz))
      || decide (q.tables * 4096 < tableBytes (r.mapped q.leaves))
  | 1 | 2 | 3 => (q.leaves.filter fun e => r.names e).length != r.count || q.savesIn r
  | _ => false

/-- The frame that a page of a request has. -/
def State.oldFrame (s : State) (p : Nat) (r : MapReq) (i : Nat) : Option Nat :=
  ((s.part p).leaves.find? fun e => e.psz == r.psz && e.va == r.page i).map fun e => e.frame

/-- FCODE 6: a frame outside the partition's granules: one that is mapped, or one that a migrate leaves (R298). -/
def State.framesForeign (s : State) (p : Nat) (r : MapReq) : Bool :=
  ((r.op == 0 || r.op == 3) && (List.range (cdiv r.size (2 ^ 30) + 1)).any fun k => !s.owns p (min (r.pa + k * 2 ^ 30) (r.pa + r.size - 1)))
    || (r.op == 3 && (List.range r.count).any fun i => match s.oldFrame p r i with | some f => !s.owns p f | none => false)

/-- The home of a request's counter record; none when the record cannot be used (R307). -/
def State.mapCounter (s : State) (p : Nat) (r : MapReq) : Option Home :=
  if r.ctr % 16 ≠ 0 then none
  else if r.csp then (if s.poisonRead (.host p r.ctr) 16 then none else some (.host p r.ctr))
  else match s.writable p (ioDie p) r.ctr 16 with
    | .error _ => none
    | .ok h => if s.poisonRead h 16 then none else some h

/-- The request ends by its contribution, or by a record when its counter has become unusable (R38, R307). -/
def State.mapDone (s : State) (p : Nat) (r : MapReq) (fcode : Nat) : State :=
  match s.mapCounter p r with
  | none => s.badRecord p (ioDie p) r.ctr
  | some h => s.contribute p (ioDie p) h r.ctr r.amt false (fcode != 0) false fcode

/-! Carrying out (R307, R308, R310). -/

/-- Every edge forgets its entries for the request's pages (R308). -/
def State.forget (s : State) (p va n : Nat) : State :=
  { s with dies := s.dies.map fun d => (d.1, { d.2 with cache := d.2.cache.filter fun e => !(e.part == p && decide (e.va < va + n) && decide (va < e.va + pageSize e.psz)) }) }

/-- An n-byte element at a meets the pages. -/
def onPages (va len a n : Nat) : Bool := decide (a < va + len) && decide (va < a + n)

/-- On one memory side, whose elements in space 0 are walked in the order of `ks`, an agent holds the page of the next element and that of the first
later element on another page (R308). -/
def State.sideHolds (s : State) (p : Nat) (a : Pat) (ks : List Nat) (va len : Nat) : Bool :=
  let at_ := fun (k : Nat) => (a.place k).toOption.map fun x => (x.1, x.2.1)
  if a.space ≠ 0 then false
  else match ks.filterMap at_ with
  | [] => false
  | x :: l => onPages va len x.1 x.2 || (match s.walk p x.1 with
    | none => false
    | some e => match l.find? fun y => !(decide (e.va ≤ y.1) && decide (y.1 + y.2 ≤ e.va + pageSize e.psz)) with
      | some y => onPages va len y.1 y.2
      | none => false)

/-- The entry's patterns name the spaces that its agent reads or writes: no constant, and no stream that never leaves its tile (R226). -/
def QEntry.walks (e : QEntry) : Bool := e.kind.isCopy || e.kind == .sIn || e.kind == .sOut || e.kind == .sInd

/-- The agent of an entry holds a translation of one of the pages: of its next elements, or of its probe until it retires (R245, R308). -/
def State.holdsPages (s : State) (p t : Nat) (e : QEntry) (va len : Nat) : Bool :=
  let ks := (List.range (e.total - (e.pos + e.inFlight))).map (e.pos + e.inFlight + ·)
  let d := if e.kind = .rcopy then 1 else copyDiv e.patA e.patB
  (e.held.any fun l => onPages va len l.va (pageSize l.psz))
    || (e.st == .started && e.walks && (s.sideHolds p e.patA ks va len
      || (e.kind == .sInd && s.sideHolds p e.patB (ks.filterMap fun k => s.indexAt t e k) va len)
      || (e.kind.isCopy && e.targets.any fun b => s.sideHolds p b (ks.map (· / d)) va len)))

/-- The drain tokens for the stream ports and copy engines that hold a translation of the pages (R308; log 43): none of a partition that is
switched out, whose agents have dropped theirs (R309). -/
def State.drains (s : State) (p va n : Nat) : List DrainTok :=
  if (s.part p).out then []
  else ((s.part p).tiles.flatMap fun t => (s.tile t).entries.filterMap fun e =>
    if s.holdsPages p t e va n then some (t, e.id) else none).zipIdx.map fun x => ⟨x.2, x.1.1, x.1.2, false⟩

/-- The port and the direction that a drain token names (R94): an egress stream's port, an ingress stream's, or a copy's engine. -/
def QEntry.agent (e : QEntry) : Nat × Nat :=
  if e.kind.isCopy then (e.engine.getD 0, 0) else if e.kind.ingress then (e.inPort, 0) else (e.port, 1)

/-- The edges inject the tokens at their agents (R308). -/
def State.sendTokens (s : State) (l : List DrainTok) : State :=
  l.foldl (fun s k => match (s.tile k.tile).entry k.entry with
    | some e => s.fromEdge k.tile (s.flit k.tile k.tile 5 0 (tokenPayload k.no e.agent.1 e.agent.2))
    | none => s) s

/-- An invalidation starts with the change of the leaves: the tokens leave to the agents that held a translation before it. -/
def State.invalidate (s : State) (p req : Nat) (r : MapReq) (leaves : List Leaf → List Leaf) : State :=
  let l := s.drains p r.va r.size
  let s := (s.modPart p fun q => { q with leaves := leaves q.leaves }).forget p r.va r.size
  (s.sendTokens l).modPart p fun q => { q with job := some ⟨req, 0, 0, [], 0, l⟩ }

/-- A protect takes a permission away from a page. -/
def Partition.removes (q : Partition) (r : MapReq) : Bool := q.leaves.any fun e => r.names e && ((e.rd && !r.rd) || (e.wr && !r.wr))

/-- A request is carried out (R307). The partition's job says whether it is still in progress. -/
def State.carryOut (s : State) (p req : Nat) : State :=
  let r := mapReqOf req
  let q := s.part p
  if (s.mapCounter p r).isNone then s.badRecord p (ioDie p) r.ctr
  else if r.malformed then s.mapDone p r 2
  else if q.mapClash r then s.mapDone p r 4
  else if s.framesForeign p r then s.mapDone p r 6
  else match r.op with
    | 0 => (s.modPart p fun q => { q with leaves := r.mapped q.leaves }).mapDone p r 0
    | 1 => s.invalidate p req r fun l => l.filter fun e => !r.names e
    | 2 =>
      let protect := fun (l : List Leaf) => l.map fun e => if r.names e then { e with rd := r.rd, wr := r.wr } else e
      if q.removes r then s.invalidate p req r protect else (s.modPart p fun q => { q with leaves := protect q.leaves }).mapDone p r 0
    | 3 => s.modPart p fun q => { q with job := some ⟨req, 1, 0, [], 0, []⟩ }
    | _ => s.mapDone p r 0

/-- A migrate names the page that the job in progress splices or redirects (R311). -/
def MapJob.clashes (j : MapJob) (r : MapReq) : Bool :=
  r.op == 3 && j.phase != 0 && decide (r.va ≤ j.va) && decide (j.va < r.va + r.size)

/-- Requests wait in submission order until one stays in progress; a migrate of a page that is on its way fails (R311). -/
def State.pumpMaps (s : State) (p : Nat) : List Nat → State
  | [] => s.modPart p fun q => { q with waiting := [] }
  | r :: l => match (s.part p).job with
    | none => (s.carryOut p r).pumpMaps p l
    | some j =>
      let m := mapReqOf r
      if !j.clashes m then s.modPart p fun q => { q with waiting := r :: l }
      else (if (s.mapCounter p m).isNone then s.badRecord p (ioDie p) m.ctr else s.mapDone p m (if m.malformed then 2 else 4)).pumpMaps p l

/-- A request of one of the operations `ops` comes through the map window, which counts once the partition's scheduling record has been accepted, or
from Clasp: bit 512 of the operand says which (R306, R370, R376). -/
def State.mapWrite (s : State) (p req : Nat) (ops : List Nat) : State :=
  let r := req % 2 ^ 512
  if !(s.part p).valid || !(s.windowsOpen p || bit req 512) || !ops.contains (bits r 377 375) then s
  else s.pumpMaps p ((s.part p).waiting ++ [r])

/-- The job in progress is over. -/
def State.mapEnd (s : State) (p : Nat) (r : MapReq) : State :=
  let s := (s.modPart p fun q => { q with job := none }).mapDone p r 0
  s.pumpMaps p (s.part p).waiting

/-- MAP_REQUEST_MAP (R307); a request with an operation that R306 does not list ends here with FCODE 0x02. -/
def execMapRequestMap (p req : Nat) (s : State) : Out := .next (s.mapWrite p req [0, 5, 6, 7])
/-- MAP_REQUEST_UNMAP (R308). -/
def execMapRequestUnmap (p req : Nat) (s : State) : Out := .next (s.mapWrite p req [1])
/-- MAP_REQUEST_PROTECT (R307). -/
def execMapRequestProtect (p req : Nat) (s : State) : Out := .next (s.mapWrite p req [2])
/-- MAP_REQUEST_MIGRATE (R310). -/
def execMapRequestMigrate (p req : Nat) (s : State) : Out := .next (s.mapWrite p req [3])
/-- MAP_REQUEST_ORDER (R307). -/
def execMapRequestOrder (p req : Nat) (s : State) : Out := .next (s.mapWrite p req [4])

/-- DRAIN_TOKEN_ARRIVAL (R308, R309, R357): the n-th token of the partition's request is back at the edge. -/
def execDrainTokenArrival (p n : Nat) (s : State) : Out :=
  match (s.part p).job with
  | none => .next s
  | some j => match j.tokens[n]? with
    | none => .next s
    | some k => if !k.back then .next s
      else .next (s.modPart p fun q => { q with job := some { j with tokens := j.tokens.eraseIdx n } })

/-- The elements that an egress stream has sent with a translation of the pages (R309). -/
def QEntry.owesPages (e : QEntry) (va len : Nat) : Bool :=
  !e.kind.ingress && e.patA.space == 0 && e.flight.any fun x => x.2.any fun f => onPages va len f.addr ((f.segs.map fun h => h.2).sum)

/-- Accesses translated before the change are performed (R308, R309): those of a partition that is switched out were before its save (R251). -/
def State.oldAccessesDone (s : State) (p : Nat) (r : MapReq) : Bool :=
  (s.part p).out || (s.part p).tiles.all fun t =>
    ((s.tile t).ctxs.all fun c => c.2.outs.all fun a => a.done || a.space != 0 || a.home.isNone || !onPages r.va r.size a.addr a.size)
      && (s.tile t).entries.all fun e => !e.owesPages r.va r.size

/-- INVALIDATION_COMPLETE (R308). -/
def execInvalidationComplete (p : Nat) (s : State) : Out :=
  match (s.part p).job with
  | none => .next s
  | some j =>
    let r := mapReqOf j.req
    if j.phase ≠ 0 || !j.tokens.isEmpty || !s.oldAccessesDone p r then .next s else .next (s.mapEnd p r)


/-- The first beat of a page that has not been copied. -/
def MapJob.nextBeat (j : MapJob) : Nat := ((List.range (j.copied.length + 1)).find? fun b => !j.copied.contains b).getD 0

/-- MIGRATION_SPLICE_BEAT (R310): in ascending order, the next beat that is not copied, poison as poison. -/
def execMigrationSpliceBeat (p : Nat) (s : State) : Out :=
  match (s.part p).job with
  | none => .next s
  | some j => match s.oldFrame p (mapReqOf j.req) j.page with
    | none => .next s
    | some old => if j.phase ≠ 1 || decide (j.size / 64 ≤ j.nextBeat) then .next s else .next (s.spliceBeat p j old j.nextBeat)

/-- A home in a frame of n bytes moves to another frame. -/
def Home.moved (old new n : Nat) (h : Home) : Home :=
  match h with | .dev a => if old ≤ a && a < old + n then Home.dev (new + (a - old)) else .dev a | h => h

/-- The translations that a queue entry holds, and the elements its port has given up, follow a page to another frame (R309, R310). -/
def QEntry.refit (e : QEntry) (old new n : Nat) : QEntry :=
  { e with
    held := e.held.map fun l => if old ≤ l.frame && l.frame < old + n then { l with frame := new + (l.frame - old) } else l
    flight := e.flight.map fun x => (x.1, x.2.map fun f => { f with segs := f.segs.map fun h => (h.1.moved old new n, h.2) }) }

/-- Accesses that travel to a frame are performed at another (R310). -/
def State.redirect (s : State) (p old new n : Nat) : State :=
  (s.part p).tiles.foldl (fun s t => s.modTileOf p t fun tl =>
    { tl with
      ctxs := tl.ctxs.map fun c => (c.1, { c.2 with outs := c.2.outs.map fun a => { a with home := a.home.map fun h => h.moved old new n } })
      queues := tl.queues.map fun q => (q.1, { q.2 with entries := q.2.entries.map fun e => e.refit old new n }) }) s

/-- MIGRATION_REDIRECT (R310): the leaf names the new frame at every edge, and tokens leave. -/
def execMigrationRedirect (p : Nat) (s : State) : Out :=
  match (s.part p).job with
  | none => .next s
  | some j =>
    let r := mapReqOf j.req
    let n := pageSize r.psz
    match s.oldFrame p r j.page with
    | none => .next s
    | some old =>
      if j.phase ≠ 1 || decide (j.copied.length < n / 64) then .next s
      else
        let va := r.page j.page
        let new := r.frame j.page
        let l := s.drains p va n
        let s := s.modPart p fun q => { q with leaves := q.leaves.map fun e => if e.psz == r.psz && e.va == va then { e with frame := new } else e }
        let s := (s.redirect p old new n).forget p va n
        .next ((s.sendTokens l).modPart p fun q => { q with job := some { j with phase := 2, old := old, tokens := l } })

/-- MIGRATION_DONE (R310): the next page, or the request is complete. -/
def execMigrationDone (p : Nat) (s : State) : Out :=
  match (s.part p).job with
  | none => .next s
  | some j =>
    let r := mapReqOf j.req
    if j.phase ≠ 2 || !j.tokens.isEmpty then .next s
    else if j.page + 1 < r.count then
      let s := s.modPart p fun q => { q with job := some ⟨j.req, 1, j.page + 1, [], 0, []⟩ }
      .next (s.pumpMaps p (s.part p).waiting)
    else .next (s.mapEnd p r)

end Sys2Proof.Machine
end

