-- ==== Sys2Proof/Machine/EvHost.lean ====
section
/-! DEFINITION. What the host and other modules do: BAR 0, device memory, link transfers (R289, R316, R360, R370, R372, R374). A step that is
not enabled changes nothing. -/

namespace Sys2Proof.Machine

/-- CTRL_SUSPEND (R332, R370). -/
def execCtrlSuspend (p : Nat) (s : State) : Out :=
  if (s.part p).valid then .next (s.modPart p fun q => { q with hold := { q.hold with suspend := true } }) else .next s

/-- CTRL_RESUME (R337, R370). -/
def execCtrlResume (p : Nat) (s : State) : Out :=
  if (s.part p).valid then .next (s.modPart p fun q => { q with hold := { q.hold with suspend := false } }) else .next s

/-- ROUTER_STATUS_WRITE (R360, R370): a write of zero to the status block of tile k clears it. -/
def execRouterStatusWrite (p k : Nat) (s : State) : Out :=
  match ((s.part p).tiles)[k]? with
  | some t => .next (s.modTileOf p t fun tl => { tl with router := Router.reset })
  | none => .next s

/-- REGISTER_WRITE (R370): CTRL, RBASE, RSIZE, RTAIL and the peer grant; a write elsewhere is ignored, and one of CTRL that does not set bit 0 alone
or bit 1 alone. -/
def execRegisterWrite (p off val : Nat) (s : State) : Out :=
  if !(s.part p).valid then .next s
  else if off = 0x80 then (if val = 1 then execCtrlSuspend p s else if val = 2 then execCtrlResume p s else .next s)
  else .next (s.modPart p fun q => match off with
    | 0x200 => { q with rbase := val % 2 ^ 64 }
    | 0x208 => { q with rsize := val % 2 ^ 64 }
    | 0x218 => { q with rtail := val % 2 ^ 64 }
    | 0x340 => { q with grant := val % 2 ^ 256 }
    | _ => q)

/-- The launch status doubleword (R371). -/
def Partition.launchStatus (q : Partition) : Nat := q.stSeq % 2 ^ 32 * 2 ^ 32 + q.stBad % 2 ^ 24 * 2 ^ 8 + q.stCode % 256

/-- The status block of a router (R360). -/
def Router.word (r : Router) : Nat :=
  r.defl % 2 ^ 32 * 2 ^ 96 + r.poisonFill % 2 ^ 16 * 2 ^ 80 + r.malf % 2 ^ 16 * 2 ^ 48 + r.foreign % 2 ^ 16 * 2 ^ 32 + r.hdrErr % 2 ^ 16 * 2 ^ 16 + r.overAge % 2 ^ 16

/-- What a read of the doubleword at an offset of BAR 0 returns (R370): the router status of tile k at 0x4000 + 16k, 0 at write-only offsets. -/
def State.barRead (s : State) (p off : Nat) : Nat :=
  let q := s.part p
  if 0x4000 ≤ off then match q.tiles[(off - 0x4000) / 16]? with
    | some t => bits (s.tileOf p t).router.word (64 * (off / 8 % 2) + 63) (64 * (off / 8 % 2))
    | none => 0
  else if 0x340 ≤ off && off < 0x360 then bits q.grant (64 * ((off - 0x340) / 8) + 63) (64 * ((off - 0x340) / 8))
  else match off with
    | 0x040 => q.quote
    | 0x048 => q.launchStatus
    | 0x200 => q.rbase
    | 0x208 => q.rsize
    | 0x210 => q.rhead
    | 0x218 => q.rtail
    | 0x220 => q.dropped
    | _ => 0

/-! Device memory (R289, R316, R380). -/

/-- Every byte of a physical range belongs to the partition. -/
def State.ownsAll (s : State) (p pa n : Nat) : Bool := n == 0 || ((List.range (n / 2 ^ 30 + 2)).all fun k => s.owns p (min (pa + k * 2 ^ 30) (pa + n - 1)))

/-- What the memory edge does about one beat of the host's or of a link transfer beside the access, and the meters of its sectors (R310, R367,
R380, R381). -/
def State.beatTouch (s : State) (p space va n : Nat) (h : Home) (wr : Bool) : State :=
  (s.edgeTouch ⟨ioDie p, []⟩ p space va n h (!wr) wr).meterDev p h n wr

/-- HOST_WRITE_TLP (R289, R316): beat by beat at its home; a poisoned TLP makes poison of every unit it writes. -/
def execHostWriteTlp (p pa : Nat) (bytes : List Nat) (ep : Bool) (s : State) : Out :=
  if !s.ownsAll p pa bytes.length then .next (s.detect (some p) (ioDie p) pa 7 5 0 0 pa)
  else .next ((beatsOf pa bytes.length).foldl (fun s x =>
    let h := Home.dev (s.forward x.1)
    let s := (s.beatTouch p 8 x.1 x.2 h true).writeHomeList h (((bytes.drop (x.1 - pa)).take x.2).map fun b => BitVec.ofNat 8 b)
    if ep then s.poisonAt h x.2 else s) s)

/-- Beats that the host reads: the poison of any, and the bytes (R305, R316). -/
def State.hostBeats (s : State) (p : Nat) : List (Nat × Nat) → State × Bool × List Nat
  | [] => (s, false, [])
  | x :: l =>
    let a := s.forward x.1
    let r := State.hostBeats (s.beatTouch p 8 x.1 x.2 (.dev a) false) p l
    (r.1, s.poisonRead (.dev a) x.2 || r.2.1, ((readBytes s.dev.bytes a x.2).map fun b => b.toNat) ++ r.2.2)

/-- HOST_READ_TLP (R289, R316): the completion names the poison first, then the bytes. -/
def execHostReadTlp (p pa n : Nat) (s : State) : Out :=
  if !s.ownsAll p pa n then .next ((s.detect (some p) (ioDie p) pa 7 5 0 0 pa).send "host" "poisoned completion" [p, pa, n])
  else
    let r := s.hostBeats p (beatsOf pa n)
    .next (r.1.send "host" "read completion" ([p, pa, b2n r.2.1] ++ r.2.2))

/-! Link transfers (R374). -/

structure LinkReq where
  lva : Nat
  rva : Nat
  len : Nat
  peer : Nat
  ppart : Nat
  dirRead : Bool
  net : Bool
  zero : Nat
  ctr : Nat
  amt : Nat
  rest : Nat
  deriving DecidableEq, Repr

def linkReqOf (v : Nat) : LinkReq :=
  ⟨bits v 511 448, bits v 447 384, bits v 383 344, bits v 343 335, bits v 334 329, bit v 328, bit v 327, bits v 326 320, bits v 319 256, bits v 255 192, bits v 191 0⟩

/-- Records that move nothing (R374). -/
def LinkReq.bad (r : LinkReq) : Bool :=
  r.len == 0 || r.len % 64 != 0 || r.lva % 64 != 0 || r.rva % 64 != 0 || decide (2 ^ 52 < r.lva + r.len) || decide (2 ^ 52 < r.rva + r.len)
    || r.zero != 0 || r.rest != 0

/-- The 64-byte units of a range of space 0, virtual and physical address each; or the first that does not translate, or lies outside the
partition's granules (R298). -/
def State.unitsAt (s : State) (p va : Nat) (rd wr : Bool) : Nat → Except Nat (List (Nat × Nat))
  | 0 => .ok []
  | n + 1 => match s.translate (ioDie p) p va rd wr with
    | .error _ => .error va
    | .ok pa => if s.owns p pa then (State.unitsAt s p (va + 64) rd wr n).map fun l => (va, pa) :: l else .error va

/-- The edge turns the unit at va away: it has walked, or logs the foreign address (R302, R380). -/
def State.unitFails (s : State) (p va : Nat) (rd wr : Bool) : State := s.edgeAt ⟨ioDie p, []⟩ p va 64 rd wr

/-- A transfer is over: its contribution, with FLT and a cause when nothing moved. -/
def State.linkDone (s : State) (p : Nat) (r : LinkReq) (fcode : Nat) : State :=
  match s.writable p (ioDie p) r.ctr 16 with
  | .error _ => s.badRecord p (ioDie p) r.ctr
  | .ok h => s.contribute p (ioDie p) h r.ctr r.amt false (fcode != 0) false fcode

/-- CTR cannot be used (R374). -/
def State.linkCtrBad (s : State) (p : Nat) (r : LinkReq) : Bool :=
  r.ctr % 16 != 0 || (match s.writable p (ioDie p) r.ctr 16 with | .error _ => true | .ok h => s.poisonRead h 16)

/-- Bytes and poison of a unit: stored poison, or the reserve tier's (R305, R316). -/
def State.unitAt (s : State) (pa : Nat) : List Byte × List Bool :=
  (readBytes s.dev.bytes pa 64, (List.range 4).map fun k => s.poisonRead (.dev (pa + 16 * k)) 16)

/-- Every unit in order: what it holds is sent, and the edge does its part (R310, R374). -/
def State.unitsOut (s : State) (p : Nat) (what : String) (head : List Nat) (rva : Nat) (l : List (Nat × Nat)) : State :=
  l.zipIdx.foldl (fun s x =>
    let u := s.unitAt x.1.2
    (s.beatTouch p 0 x.1.1 64 (.dev x.1.2) false).send "peer" what (head ++ [rva + 64 * x.2] ++ u.2.map b2n ++ u.1.map fun b => b.toNat)) s

/-- A unit is written with its poison. -/
def State.putUnit (s : State) (p va pa : Nat) (l : List Byte) (psn : List Bool) : State :=
  (psn.zipIdx).foldl (fun s x => if x.1 then s.poisonAt (.dev (pa + 16 * x.2)) 16 else s)
    ((s.beatTouch p 0 va 64 (.dev pa) true).writeHomeList (.dev pa) l)

/-- The peer module's answer is an open value (log 4): it grants the range, or nothing moves. -/
def State.peerGrants (s : State) : Bool × State := let r := s.takeFree; (r.1 % 2 == 1, r.2)

/-- LINK_TRANSFER_WRITE (R374): local units leave for the peer. -/
def execLinkTransferWrite (p req : Nat) (s : State) : Out :=
  let r := linkReqOf req
  if !s.windowsOpen p || r.dirRead then .next s
  else if s.linkCtrBad p r then .next (s.badRecord p (ioDie p) r.ctr)
  else if r.bad then .next (s.linkDone p r 2)
  else match s.unitsAt p r.lva true false (r.len / 64) with
    | .error va => .next ((s.unitFails p va true false).linkDone p r 6)
    | .ok l =>
      let g := s.peerGrants
      if !g.1 then .next (g.2.linkDone p r 6)
      else .next (((g.2.unitsOut p "write" [r.peer, r.ppart, b2n r.net] r.rva l).meter p 13 r.len).linkDone p r 0)

/-- LINK_TRANSFER_READ (R374): what the peer holds is open (log 4). -/
def execLinkTransferRead (p req : Nat) (s : State) : Out :=
  let r := linkReqOf req
  if !s.windowsOpen p || !r.dirRead then .next s
  else if s.linkCtrBad p r then .next (s.badRecord p (ioDie p) r.ctr)
  else if r.bad then .next (s.linkDone p r 2)
  else match s.unitsAt p r.lva false true (r.len / 64) with
    | .error va => .next ((s.unitFails p va false true).linkDone p r 6)
    | .ok l =>
      let g := s.peerGrants
      if !g.1 then .next (g.2.linkDone p r 6)
      else
        let s := g.2.send "peer" "read" [r.peer, r.ppart, b2n r.net, r.rva, r.len]
        let s := l.foldl (fun s x =>
          let f := s.takeFree
          { f.2.putUnit p x.1 x.2 ((List.range 64).map fun k => Config.hostByte f.2.free k) ((List.range 4).map fun k => bit f.1 k) with free := f.2.free + 1 }) s
        .next ((s.meter p 12 r.len).linkDone p r 0)

/-- The bytes and poison of unit k of a peer's data: a byte above 255 marks its 16-byte unit as poison (R316, R374). -/
def peerUnit (data : List Nat) (k : Nat) : List Byte × List Bool :=
  let l := (data.drop (64 * k)).take 64
  (l.map fun b => BitVec.ofNat 8 b, (List.range 4).map fun j => ((l.drop (16 * j)).take 16).any fun b => decide (256 ≤ b))

/-- PEER_LINK_TRANSFER (R374): performed only within the peer grant, poison as poison. -/
def execPeerLinkTransfer (peer ppart : Nat) (dirRead : Bool) (p rva len : Nat) (data : List Nat) (s : State) : Out :=
  let g := (s.part p).grant
  let base := bits g 255 192
  let covered := bits g 127 119 == peer && bits g 118 113 == ppart && bits g 112 0 == 0 && decide (base ≤ rva) && decide (rva + len ≤ base + bits g 191 128)
  let no := .next (s.send "peer" "refused" [peer, ppart, rva, len])
  if !(s.part p).valid || !covered || len == 0 || len % 64 != 0 || rva % 64 != 0 || decide (2 ^ 52 < rva + len) || (!dirRead && data.length != len) then no
  else match s.unitsAt p rva dirRead (!dirRead) (len / 64) with
    | .error va => .next ((s.unitFails p va dirRead (!dirRead)).send "peer" "refused" [peer, ppart, rva, len])
    | .ok l =>
      if dirRead then .next (s.unitsOut p "data" [peer, ppart] rva l)
      else .next ((l.zipIdx.foldl (fun s x => s.putUnit p x.1.1 x.1.2 (peerUnit data x.2).1 (peerUnit data x.2).2) s).send "peer" "done" [peer, ppart, rva, len])

end Sys2Proof.Machine
end

