-- ==== Sys2Proof/Machine/EvDie.lean ====
section
/-! DEFINITION. Die-to-die links, logical time at receipt, link failure, and die reset (R361 to R368, R309, R341). A step that is not enabled
changes nothing. -/

namespace Sys2Proof.Machine


/-- A flit leaves a link at its receiver: on to its column, or on through the crossbar (R351). One of a partition that the record in force does
not list has no share there: it is discarded and counted at the router that log 57 names (R299, R380). -/
def State.offLink (s : State) (die : Nat) (f : Flit) : State :=
  let s := s.meter f.part 11 24
  let item : XItem := if f.ddie = die && !f.forSched die then ⟨{ f with age := 0, edge := false }, some (f.dtile / 8)⟩ else ⟨f, none⟩
  if (s.part f.part).valid then s.modDie die fun d => { d with xbar := d.xbar ++ [item] }
  else s.modTile (f.counter die) fun tl => tl.countForeign 1

/-- The tag of a write that a home remembers: its tag-table entry and which of its two flits it is (R355, R364). -/
def Flit.writeTag (f : Flit) : Option Nat :=
  if f.isClass 0 then some ((f.stile * 4096 + f.seq) * 4 + bits f.payload 102 102)
  else if f.isClass 1 then some ((f.stile * 4096 + f.seq) * 4 + bits f.payload 82 81) else none

/-- The home has applied the write already (R364). -/
def Die.knows (d : Die) (f : Flit) : Bool := match f.writeTag with | some k => (mget [] d.applied f.sdie).contains k | none => false

/-- The home notes a write: the last 4,096 of each source die (R364). -/
def Die.note (d : Die) (f : Flit) : Die :=
  match f.writeTag with
  | some k => { d with applied := mput d.applied f.sdie ((k :: mget [] d.applied f.sdie).take 4096) }
  | none => d

/-- One flit of a received frame. -/
def State.takeFlit (s : State) (k die : Nat) (f : Flit) : State :=
  let d := s.die die
  if d.flushWait.contains k && f.isClass 4 then s
  else if f.ddie = die && d.knows f then s
  else (if f.ddie = die then s.modDie die (·.note f) else s).offLink die f

/-- D2D_FRAME_RECEIPT (R362, R367): frames of one direction arrive in order; the receiver's LCLK will pass the stamp. -/
def execD2dFrameReceipt (k : Nat) (toHigh : Bool) (s : State) : Out :=
  let l := s.link k
  match takeFirst (fun f => f.toHigh == toHigh) l.frames with
  | none => .next s
  | some (f, rest) =>
    if l.down then .next s
    else
      let die := frameTo k toHigh
      let s := (s.modLink k fun l => { l.setFails toHigh 0 with frames := rest }).modDie die fun d => { d with stamp := max d.stamp f.lclk }
      .next (f.flits.foldl (fun s x => s.takeFlit k die x) s)

/-- The messages on their way between dies beside flits: partition, sender and receiver of each publication, arrival and release (R153, R154,
R257). -/
def State.messages (s : State) : List (Nat × Nat × Nat) :=
  (s.pubs.map fun x => let p := (s.launch x.task.lid).part; (p, x.fromDieOf p, dieOf x.tile))
    ++ (s.arrivals.map fun a => ((s.launch a.lid).part, dieOf a.tile, s.groupDie a.lid a.g))
    ++ s.releases.map fun r => ((s.launch r.lid).part, s.groupDie r.lid r.g, dieOf r.tile)

/-- An outstanding memory access, the next beat of a started copy or stream, a publication, an arrival or a release goes over the link in this
direction: a frame of it can fail too (R362, R363). -/
def State.memoryOn (s : State) (k : Nat) (toHigh : Bool) : Bool :=
  let both := fun (t : Nat) (h : Home) => s.crossesTo k toHigh (dieOf t) (s.dieAt h) || s.crossesTo k toHigh (s.dieAt h) (dieOf t)
  (s.messages.any fun m => s.crossesTo k toHigh m.2.1 m.2.2)
    || s.tiles.any fun t =>
      (t.2.ctxs.any fun c => c.2.outs.any fun a => !a.done && !a.isFence && (match s.homeOf t.1 a with | none => false | some h => both t.1 h))
        || t.2.entries.any fun e => e.st == .started && (let h := s.nextHomes t.1 e; (h.1 ++ h.2).any fun x => both t.1 x.1)

/-- FRAME_REPLAY (R363, R389): the first frame of a direction fails its check and is sent again with every later one. -/
def execFrameReplay (k : Nat) (toHigh : Bool) (s : State) : Out :=
  let l := s.link k
  if l.down || (!(l.frames.any fun f => f.toHigh == toHigh) && !s.memoryOn k toHigh) then .next s
  else .next ((s.modLink k fun l => l.setFails toHigh (l.fails toHigh + 1)).detectLink k 5)

/-! A link goes down (R364, R365). -/


/-- The dies of the path from a to b before the link. -/
def State.nearSide (s : State) (k a b : Nat) : List Nat :=
  let p := s.path b 28 a
  p.take (((p.zip p.tail).findIdx fun x => (min x.1 x.2, max x.1 x.2) == linkEnds k) + 1)

/-- The tag of an atomic with return on another die whose request has crossed the link and whose answer is not back. -/
def State.crossedTag (s : State) (k t c : Nat) (a : Access) : Option Nat :=
  match a.home with
  | some (.tile u _) =>
    if a.dst == .none || !s.crosses k (dieOf t) (dieOf u) then none
    else match (s.tile t).tags.find? fun x => x.2 == (c, a.id) with
      | none => none
      | some (g, _) =>
        if (s.nearSide k (dieOf t) (dieOf u)).any fun d => s.onWay d fun f => f.isClass 1 && f.stile == t && f.seq == g then none else some g
  | _ => none

/-- The fate of one outstanding access that was crossing the link (R364): data ends with poison, a write is sent again or dropped. The last
part counts LOADS, RESENT, UNSENT. -/
def State.accessFate (before after : State) (k t c : Nat) (a : Access) : Access × Nat × Nat × Nat :=
  if (before.crossedTag k t c a).isSome then ({ a with st := .faulted 0x07 a.addr 0 }, 1, 0, 0)
  else match before.homeOf t a with
  | none | some (.tile ..) | some (.acc ..) => (a, 0, 0, 0)
  | some h =>
    let d := after.dieAt h
    if a.done || a.isFence || !(before.crosses k (dieOf t) d || before.crosses k d (dieOf t)) then (a, 0, 0, 0)
    else if a.reads && a.dst != .none then ({ a with st := .faulted 0x07 a.addr 0 }, 1, 0, 0)
    else if (after.hops (dieOf t) d).isSome then (a, 0, 1, 0)
    else ({ a with st := .performed 0 }, 0, 0, 1)

/-- The late answer of an access that has ended finds nobody: its tag stays until then (R355, R364). -/
def Tile.disown (tl : Tile) (c : Nat) (gs : List Nat) : Tile :=
  { tl with tags := tl.tags.map (fun x => if gs.contains x.1 then (x.1, (c, tl.nextAcc)) else x), nextAcc := tl.nextAcc + 1 }

/-- Every outstanding access of a partition meets its fate. -/
def State.accessFates (before s : State) (k p : Nat) : State × Nat × Nat × Nat :=
  (s.part p).tiles.foldl (fun acc t =>
    (mkeys (acc.1.tile t).ctxs).foldl (fun acc c =>
      let now := (acc.1.ctx t c).outs
      let rs := now.map fun a => State.accessFate before acc.1 k t c a
      let outs := rs.map fun (r : Access × Nat × Nat × Nat) => r.1
      ((acc.1.modCtx t c fun x => { x with outs := outs }.trim).modTile t fun tl => tl.disown c (now.filterMap fun a => before.crossedTag k t c a),
       acc.2.1 + (rs.map fun r => r.2.1).sum, acc.2.2.1 + (rs.map fun r => r.2.2.1).sum, acc.2.2.2 + (rs.map fun r => r.2.2.2).sum)) acc) (s, 0, 0, 0)

/-- A flit that was on the link goes through the sender's crossbar again; without a path it is dropped. -/
def State.resend (s : State) (die : Nat) (f : Flit) : State :=
  if (s.hops die f.ddie).isSome then s.modDie die fun d => { d with xbar := d.xbar ++ [⟨f, none⟩] } else s.dropFlit f

/-- A flit of a request for data that has ended with poison, or its answer, is no write that is sent again (R364). -/
def Flit.forData (f : Flit) : Bool := (f.isClass 1 && bit f.payload 83) || f.isResponse 3

/-- The link-fault record (R365). -/
def linkRecord (lclk loads resent unsent k p : Nat) : Nat :=
  let cap := fun (n : Nat) => n % 2 ^ 32
  lclk % 2 ^ 64 * 2 ^ 192 + cap loads * 2 ^ 160 + cap resent * 2 ^ 128 + cap unsent * 2 ^ 96 + (linkEnds k).1 * 2 ^ 11 + (linkEnds k).2 * 2 ^ 6 + p

/-- The die is an end of the link. -/
def onLinkDie (k die : Nat) : Bool := (linkEnds k).1 == die || (linkEnds k).2 == die

/-- Reports for a cancel of the partition come, or would come, over the link (R341). -/
def State.cancelBeyond (s : State) (k p : Nat) : Bool :=
  s.cancels.any fun c => c.2.part == p && !c.2.done &&
    let beyond := fun (d : Nat) => s.crosses k (dieOf c.2.tile) d
    (c.2.tiles.any fun t => beyond (dieOf t)) || (c.2.dies.any fun d => beyond d.1) || c.2.owed.any beyond

/-- One partition's traffic on the link, and with its record its cancel reports from beyond, which count as made, and the map tokens of the agents
on an end die of the link, which count as acknowledged (R309, R341, R364, R365). A message is sent again, or there is no path for it. -/
def State.linkFate (before s : State) (k p : Nat) (flits : List (Nat × Flit)) : State :=
  let mine := flits.filter fun x => x.2.part == p && !x.2.forData
  let r := State.accessFates before s k p
  let s := r.1
  let sent := before.messages.filter fun m => m.1 == p && before.crosses k m.2.1 m.2.2
  let gone := (mine.filter fun x => (s.hops x.1 x.2.ddie).isNone).length + (sent.filter fun m => (s.hops m.2.1 m.2.2).isNone).length
  let resent := r.2.2.1 + mine.length + sent.length - gone
  if r.2.1 = 0 && resent = 0 && r.2.2.2 = 0 && gone = 0 && !before.cancelBeyond k p then s
  else
    let s : State := { s with cancels := s.cancels.map fun (c : Nat × Cancel) => if c.2.part = p
      then (c.1, { c.2 with
        tiles := c.2.tiles.filter (fun t => !before.crosses k (dieOf c.2.tile) (dieOf t))
        dies := c.2.dies.filter (fun d => !before.crosses k (dieOf c.2.tile) d.1)
        owed := c.2.owed.filter (fun d => !before.crosses k (dieOf c.2.tile) d) }) else c }
    let s := s.modPart p fun q => { q with job := q.job.map fun j => { j with tokens := j.tokens.filter fun x => !onLinkDie k (dieOf x.tile) } }
    s.logRecord (some p) (linkRecord (s.die (linkEnds k).1).lclk r.2.1 resent (r.2.2.2 + gone) k p)

/-- The dies that no path joins to I/O die 0. -/
def State.cutOff (s : State) : List Nat := (List.range 28).filter fun d => (s.hops 24 d).isNone && !(s.die d).fenced && !(s.die d).inReset

/-- A launch is ended by Clasp: its tiles are emptied, and its records carry CXL, FLT and FCODE 0x07 (R364, R390). -/
def State.abortLaunch (s : State) (l : Nat) : State :=
  let la := s.launch l
  let s := s.modLaunch l fun la => { la with cxl := true, lost := true }
  let s := la.tiles.foldl (fun s t => s.modTileOf la.part t fun tl =>
    { tl with
      ctxs := tl.ctxs.map fun c => (c.1, { c.2.freed with outs := [] })
      ready := [], dep := [], queues := [], ips := [], eps := [], runs := [], scanned := [], aside := [], engines := [], score := [], array := EArray.reset }) s
  ({ s with pubs := s.pubs.filter fun k => k.task.lid != l, arrivals := s.arrivals.filter fun a => a.lid != l, releases := s.releases.filter fun r => r.lid != l }).endLaunch l

/-- The launches of partitions with slots or granules on a die. -/
def State.launchesOn (s : State) (die : Nat) : List Nat :=
  (s.launches.filter fun l => l.2.st != .ended && ((s.part l.2.part).dies.contains die || (s.stacks l.2.part).contains die)).map fun l => l.1

/-- Clasp fences a cut-off die (R364). -/
def State.fenceDie (s : State) (die : Nat) : State :=
  let s := s.modDie die fun d => { d with fenced := true }
  (s.launchesOn die).foldl (fun s l => s.abortLaunch l) s

/-- LINK_DOWN (R363 to R365): after eight failed replays of one frame. -/
def execLinkDown (k : Nat) (s : State) : Out :=
  let l := s.link k
  if l.down || decide (max l.failsHigh l.failsLow < 9) || decide (46 ≤ k) then .next s
  else
    let flits := l.frames.flatMap fun f => f.flits.map fun x => (frameFrom k f.toHigh, x)
    let after := s.modLink k fun _ => { Link.reset with down := true }
    let r := (mkeys s.parts).foldl (fun s' p => State.linkFate s s' k p flits) after
    let r := flits.foldl (fun s x => s.resend x.1 x.2) r
    .next (r.cutOff.foldl (fun s d => s.fenceDie d) r)

/-! Die reset (R368). -/

/-- The links of a die. -/
def linksOf (die : Nat) : List Nat := (List.range 46).filter fun k => onLinkDie k die

/-- The partitions with slots on a die or granules on its stack. -/
def State.partsOn (s : State) (die : Nat) : List Nat :=
  (mkeys s.parts).filter fun p => (s.part p).valid && ((s.part p).dies.contains die || (s.stacks p).contains die)

/-- A Clasp call's status byte: 0 done, 1 refused, 2 signature, 3 busy (R388). -/
def State.status (s : State) (v : Nat) : State := s.modClasp fun c => { c with status := v }

/-- The bytes of a call in the mailbox of 256 bytes (R388): its number, and the low 8 bytes of each operand (log 56). -/
def callBytes (l : List Nat) : List Nat :=
  match l with
  | [] => []
  | n :: args => (n % 256 :: args.flatMap fun v => (toBytes v 8).map BitVec.toNat).take 256

/-- A call comes through the mailbox: its number and what it brings (R388; log 56). -/
def State.call (s : State) (l : List Nat) : State := s.modClasp fun c => { c with mailbox := callBytes l }

/-- Partitions are switched out and kept out until they are resumed (R332, R368, R379, R391). -/
def State.switchOut (s : State) (ps : List Nat) : State :=
  ps.foldl (fun s p => (s.beginSwitch p).modPart p fun q => { q with hold := { q.hold with mgmt := true } }) s

/-- DIE_RESET (R368, R388): busy until every partition of the die has been switched out. -/
def execDieReset (die : Nat) (s : State) : Out :=
  let s := s.call [5, die]
  let ps := s.partsOn die
  if 24 ≤ die then .next (s.status 1)
  else if ps.any fun p => !(s.part p).out && (s.part p).sched.isSome then .next ((s.switchOut ps).status 3)
  else
    let s := (s.tilesOf die).foldl (fun s t => s.modTile t fun _ => Tile.reset) s
    .next ((s.modDie die fun d => { Die.reset with staging := d.staging, fenced := d.fenced, inReset := true, flushWait := linksOf die }).status 0)

/-- FLUSH_MARKER_RETURN (R368): when every marker is back the die's links count as up. -/
def execFlushMarkerReturn (k : Nat) (s : State) : Out :=
  let back := fun (d : Die) => if !d.flushWait.contains k then d
    else
      let w := d.flushWait.filter (· != k)
      { d with flushWait := w, inReset := d.inReset && !w.isEmpty }
  let clear := fun (d : Nat) (toHigh : Bool) => !(s.die d).flushWait.contains k || !((s.link k).frames.any fun f => f.toHigh == toHigh)
  if clear (linkEnds k).1 false && clear (linkEnds k).2 true then .next ((s.modDie (linkEnds k).1 back).modDie (linkEnds k).2 back) else .next s

/-- A self-test of the link is still to run (R390). -/
def State.linkUntested (s : State) (k : Nat) : Bool := s.clasp.tests.any fun j => j.kind == 4 && j.index == k

/-- RETRAIN_LINK (R363, R388, R390): a down link carries frames again after its self-tests; busy until they have run (log 49). -/
def execRetrainLink (k : Nat) (s : State) : Out :=
  let s := s.call [6, k]
  if !(s.link k).down then .next (s.status 1)
  else if s.linkUntested k then .next (s.status 3)
  else .next ((s.modLink k fun l => { l with down := false, failsHigh := 0, failsLow := 0 }).status 0)

end Sys2Proof.Machine
end

