-- ==== Sys2Proof/Machine/EvTrust.lean ====
section
/-! DEFINITION. Clasp: configuration and scheduling records, meters and caps, sparing and self-test, checkpoint, power and temperature (R305,
R317, R318, R376 to R381, R386 to R392). A step that is not enabled changes nothing. -/

namespace Sys2Proof.Machine

/-! Meters and caps (R381, R386). -/

def meterTop : Nat := 2 ^ 64 - 1

/-- ATCAP from the folded meters and the caps. -/
def Partition.atcapOf (q : Partition) : Nat :=
  ((List.range 16).map fun m => b2n (mget 0 q.caps m != 0 && decide (mget 0 q.caps m ≤ mget 0 q.meters m)) * 2 ^ m).sum

/-- The partial counts of a partition are folded into its meters. -/
def Partition.fold (q : Partition) : Partition :=
  { q with meters := (List.range 16).foldl (fun m k => mput m k (min meterTop (mget 0 m k + mget 0 q.partial_ k))) q.meters, partial_ := [] }

/-- A fold of one partition: a meter that reaches its cap sets ATCAP, asks for a hold, and is reported (R386, R389). -/
def State.foldPart (s : State) (p : Nat) : State :=
  let old := (s.part p).atcap
  let s := s.modPart p Partition.fold
  let at_ := old ||| (s.part p).atcapOf
  let new := (List.range 16).filter fun m => bit at_ m && !bit old m
  let s := s.modPart p fun q => { q with atcap := at_, hold := { q.hold with cap := at_ != 0 } }
  new.foldl (fun s m => s.logRecord (some p) (errRecord (s.die 24).lclk (mget 0 (s.part p).meters m) 0 1 0 24 0 p + recordTail 0 0 m)) s

/-- Every MTRD that has issued reads the folded value: it holds every event before its issue (R276, R381). -/
def State.answerMeters (s : State) : State :=
  let read := fun (p : Nat) (a : Access) => if a.kind == .mtrd && a.st == .issued then { a with st := .performed (mget 0 (s.part p).meters a.addr) } else a
  { s with tiles := s.tiles.map fun e => (e.1, { e.2 with ctxs := e.2.ctxs.map fun c => (c.1, { c.2 with outs := c.2.outs.map (read (s.partId e.1)) }) }) }

/-- METER_FOLD (R381, R386): every 2,048 cycles of I/O die 0. -/
def State.foldAll (s : State) : State :=
  let s := ((mkeys s.parts).foldl (fun s p => s.foldPart p) s).answerMeters
  { s with foldCycle := (s.die 24).cycle, foldLclk := (s.die 24).lclk }
def execMeterFold (s : State) : Out := if s.foldCycle + 2048 ≤ (s.die 24).cycle then .next s.foldAll else .next s

/-! Configuration records (R377 to R380). The record as a number holds entry p at bit 1024p and the granule runs from bit 65,536 on, up to the
first word of zeros (log 7). -/

/-- A partition entry as the record in force gives it. -/
def entryOf (e : Nat) (q : Partition) : Partition :=
  { q with
    slots := (List.range 384).filter fun i => bit e (640 + i), auth := bits e 639 256, gr4 := bits e 246 243, bmax := bits e 242 234,
    gr0 := bits e 233 228, gr6 := bits e 227 223, tsets := bits e 222 214, tables := bits e 213 201, dlok := bit e 200, hostok := bit e 199,
    valid := bit e 198 }

def recordEntry (record p : Nat) : Nat := bits record (1024 * p + 1023) (1024 * p)

/-- The granule runs of a record. -/
def recordRuns (record : Nat) : Nat → Nat → List GRun
  | 0, _ => []
  | n + 1, k =>
    let w := bits record (65536 + 32 * k + 31) (65536 + 32 * k)
    if w = 0 then [] else ⟨bits w 31 19, bits w 18 6, bits w 5 0⟩ :: recordRuns record n (k + 1)

/-- The partitions of a record. -/
def recordParts (record : Nat) : List (Nat × Partition) := (List.range 64).map fun p => (p, entryOf (recordEntry record p) Partition.reset)

/-- A number appears once in a sum over the partitions that satisfy p. -/
def sumWhere (l : List (Nat × Partition)) (p : Nat × Partition → Bool) (f : Partition → Nat) : Nat := ((l.filter p).map fun x => f x.2).sum

/-- The granules of a partition under a list of runs. -/
def runGranules (runs : List GRun) (p : Nat) : List Nat := (runs.filter fun r => r.part == p).flatMap fun r => (List.range r.count).map (r.first + ·)

/-- Runs overlap, pass the capacity, or name an invalid entry (R379). -/
def runsBad (runs : List GRun) (parts : List (Nat × Partition)) (capacity : Nat) : Bool :=
  runs.zipIdx.any fun x =>
    let r := x.1
    decide (5247 < r.first + r.count - 1) || (decide (1152 ≤ r.first + r.count - 1) && decide (1152 + capacity ≤ r.first + r.count - 1))
      || r.count == 0 || !(parts.any fun p => p.1 == r.part && p.2.valid)
      || (runs.drop (x.2 + 1)).any fun t => decide (r.first < t.first + t.count) && decide (t.first < r.first + r.count)

/-- Entries share slots without being equal in them (R338). -/
def tenantsBad (parts : List (Nat × Partition)) : Bool :=
  parts.any fun x => parts.any fun y => x.2.valid && y.2.valid && x.2.slots != y.2.slots && x.2.slots.any fun k => y.2.slots.contains k

/-- The partition is a deadline tenant, or will be when its accepted record takes effect (R318, R338). -/
def State.deadlineSoon (s : State) (p : Nat) : Bool := s.deadline p || (match (s.part p).nextSched with | some n => n.dl | none => false)

/-- A record fails R379 or R338. -/
def State.configBad (s : State) (record : Nat) : Bool :=
  let parts := recordParts record
  let live := parts.filter fun x => x.2.valid
  let runs := recordRuns record (record.log2 / 32 + 1) 0
  let stk := fun (p : Nat) => (((runGranules runs p).filter (· < 1152)).map (· / 48)).eraseDups
  let dies := List.range 24
  runsBad runs parts s.clasp.capacity
    || (List.range 64).any (fun p => bits (recordEntry record p) 255 247 != 0 || bits (recordEntry record p) 197 0 != 0)
    || live.any (fun x => decide (x.2.tables < 16) || x.2.tsets == 0)
    || tenantsBad parts
    || live.any (fun x => s.deadlineSoon x.1 && live.any fun y => y.1 != x.1 && s.deadlineSoon y.1 && x.2.slots.any y.2.slots.contains)
    || dies.any (fun d => decide (36 < sumWhere live (fun x => (stk x.1).contains d) (·.gr0)))
    || decide (28 < sumWhere live (fun _ => true) (·.gr6))
    || live.any (fun x => decide (4 < x.2.gr4))
    || [0, 1].any (fun k => decide (4 < sumWhere live (fun x => x.1 / 32 == k) (·.gr4)))
    || dies.any (fun d => decide (256 < sumWhere live (fun x => x.2.dies.contains d) (·.tsets)) || decide (8192 < sumWhere live (fun x => x.2.dies.contains d) (·.tables)))
    || decide (96 * 3072 < (((List.range 384).map fun i => (live.filter fun x => x.2.slots.contains i).foldl (fun m x => max m x.2.bmax) 0).sum) * 8)
    || (mkeys s.parts).any fun p => !(s.liveLaunches p).isEmpty &&
        (let q := (parts.getD p (0, Partition.reset)).2
         (s.part p).slots.any (fun k => !q.slots.contains k) || (s.granules p).any fun g => !(runGranules runs p).contains g)

/-- A record's entry changes what is in force. -/
def State.entryChanges (s : State) (record p : Nat) : Bool :=
  (s.part p).valid && (recordEntry record p != recordEntry s.clasp.record p
    || runGranules (recordRuns record (record.log2 / 32 + 1) 0) p != runGranules s.clasp.runs p)

/-- Granules that pass to another partition are zeroed (R379). -/
def State.zeroGranules (s : State) (runs : List GRun) : State :=
  let owner := fun (l : List GRun) (g : Nat) => (l.find? fun r => decide (r.first ≤ g) && decide (g < r.first + r.count)).map fun r => r.part
  let moved := fun (pa : Nat) => match granuleOf pa with
    | some g => (owner runs g).isSome && owner runs g != owner s.clasp.runs g
    | none => false
  { s with dev := ⟨s.dev.bytes.filter fun c => !moved c.1, s.dev.poison.filter fun u => !moved (u * 16)⟩ }

/-- A migration whose frames are no longer the partition's ends with FCODE 0x06 (R298, R307): no request reaches another partition's granule. -/
def State.endLostMigration (s : State) (p : Nat) : State :=
  match (s.part p).job with
  | none => s
  | some j =>
    let r := mapReqOf j.req
    let old := if j.phase = 2 then j.old else (s.oldFrame p r j.page).getD 0
    if r.op ≠ 3 || (!s.framesForeign p r && s.owns p old) then s
    else
      let s := (s.modPart p fun q => { q with job := none }).mapDone p r 6
      s.pumpMaps p (s.part p).waiting

/-- The reserve tier has room for a checkpoint (R391): at least 1,168 granules outside allotments. -/
def Clasp.checkpointFits (c : Clasp) : Bool :=
  decide (1168 + (c.runs.map fun r => (r.first + r.count) - max 1152 r.first).sum ≤ c.capacity)

/-- The record takes effect: entries, runs, and meters of entries that become valid (R381). The sets of the edges' caches are given anew, so these
start empty (R303). A checkpoint whose area an allotment takes is gone (R379, R391; DESIGN CHOICE, log 66: it goes when what is left outside
allotments no longer holds one). -/
def State.install (s : State) (record : Nat) : State :=
  let runs := recordRuns record (record.log2 / 32 + 1) 0
  let s := s.zeroGranules runs
  let s := (List.range 64).foldl (fun s p =>
    if recordEntry record p = 0 && (mfind p s.parts).isNone then s
    else s.modPart p fun q =>
      let n := entryOf (recordEntry record p) q
      if n.valid && !q.valid then { n with meters := [], partial_ := [], atcap := 0 } else n) s
  let s := s.modClasp fun c => { c with record := record, recordOk := true, runs := runs }
  let s := s.modClasp fun c => if c.checkpointFits then c else { c with image := none }
  let s := { s with dies := s.dies.map fun d => (d.1, { d.2 with cache := [] }) }
  (mkeys s.parts).foldl (fun s p => s.endLostMigration p) s

/-- What the owner signs: the record with the key that comes next behind it (R377; log 56). -/
def signedRecord (record newKey : Nat) : Nat := record * 2 ^ 768 + newKey % 2 ^ 768

/-- The hash of the owner key in force (R377): the last that a record brought, else the one the module was delivered with. -/
def Clasp.ownerHash (c : Clasp) : Nat := c.owner.getD Config.ownerDelivered

/-- SUBMIT_CONFIGURATION (R377, R379, R388): signed by the owner key; busy until the partitions it changes are switched out. A nonzero new key
replaces the owner's. -/
def execSubmitConfiguration (record sig key newKey : Nat) (s : State) : Out :=
  let s := s.call [1, record, sig, key, newKey]
  let changed := (mkeys s.parts).filter fun p => s.entryChanges record p
  if Config.sha384 key ≠ s.clasp.ownerHash || !Config.verify key (signedRecord record newKey) sig then .next (s.status 2)
  else if s.configBad record then .next (s.status 1)
  else if changed.any fun p => !(s.part p).out && (s.part p).sched.isSome then .next ((s.switchOut changed).status 3)
  else
    let s := s.install record
    .next ((s.modClasp fun c => { c with
      recSign := some (key, newKey, sig), owner := if newKey % 2 ^ 768 = 0 then c.owner else some (Config.sha384 (newKey % 2 ^ 768)) }).status 0)

/-! Scheduling records (R317, R318). -/

def schedOf (v : Nat) : Sched :=
  { saveBase := bits v 511 448, weights := (List.range 16).map fun c => bits v (384 + 4 * c + 3) (384 + 4 * c), bceil := bits v 383 375,
    bdef := bits v 374 366, slice := bits v 365 350, dl := bit v 349, hostx := bit v 348, hqlim := bits v 319 256 }

/-- Every page of the save area is mapped writable. -/
def State.saveMapped (s : State) (p base : Nat) : Bool :=
  let n := 8 * (s.part p).slots.length * 0x800000
  decide (base + n ≤ 2 ^ 52) && (List.range (n / 2 ^ 16)).all fun k => match s.walk p (base + k * 2 ^ 16) with | some e => e.wr | none => false

/-- A record that R317, R318 or R338 refuses. -/
def State.schedBad (s : State) (p v : Nat) : Bool :=
  let r := schedOf v
  let q := s.part p
  r.saveBase % 2 ^ 16 != 0 || !s.saveMapped p r.saveBase || bits v 347 320 != 0 || bits v 255 0 != 0 || decide (r.bceil < r.bdef) || decide (480 < r.bceil)
    || r.slice == 0 || [7, 12, 13, 14, 15].any (fun c => r.weights.getD c 0 != 0) || decide (q.bmax < r.bceil) || (r.dl && !q.dlok)
    || (r.hostx && !q.hostok) || (r.dl && (s.cotenants p).any s.deadlineSoon)

/-- SUBMIT_SCHEDULING_RECORD (R317, R318, R332, R368, R388): the first one makes the partition resident unless a co-tenant is or a die of it is in
reset; a later one takes effect at a resumption that is asked for at once. -/
def execSubmitSchedulingRecord (p rec_ : Nat) (s : State) : Out :=
  let s := s.call [3, p, rec_]
  let q := s.part p
  let r := schedOf rec_
  if !q.valid || s.schedBad p rec_ then .next (s.status 1)
  else if q.sched.isSome then .next ((s.modPart p fun q => { q with nextSched := some r, hold := { q.hold with record := true } }).status 0)
  else
    let taken := s.inReset p || (s.cotenants p).any fun c => !(s.part c).out
    .next (((s.modPart p fun q => { q with sched := some r, out := taken }).setCaps p).status 0)

/-- PARTITION_CONTROL (R332, R388): 0 hold, 1 switch, 2 resume; ATCAP stays. -/
def execPartitionControl (p op : Nat) (s : State) : Out :=
  let s := s.call [4, p, op]
  if !(s.part p).valid || decide (2 < op) then .next (s.status 1)
  else if op = 2 then .next ((s.modPart p fun q => { q with hold := { q.hold with mgmt := false, suspend := false } }).status 0)
  else if op = 1 then .next ((s.switchOut [p]).status 0)
  else .next ((s.modPart p fun q => { q with hold := { q.hold with mgmt := true } }).status 0)

/-! What Clasp hands out (R360, R388). -/

/-- The status block of a tile's router, and behind it the blocks that are saved with the partitions that are switched out of it (R360). -/
def State.routerBlocks (s : State) (t : Nat) : List Nat :=
  [t, (s.tile t).router.word]
    ++ (s.parts.filter fun e => e.2.out && (mfind t e.2.saved).isSome).flatMap fun e => [e.1, (s.tileOf e.1 t).router.word]

/-- READ_ROUTER_STATUS (R360, R388): of any partition. -/
def execReadRouterStatus (t : Nat) (s : State) : Out :=
  .next (((s.call [7, t]).send "management" "router status" (s.routerBlocks t)).status 0)

/-- READ_ERROR_LOG (R388, R389). -/
def execReadErrorLog (s : State) : Out :=
  .next (((s.call [9]).send "management" "error log" (s.clasp.log.map fun l => l.getD 0 0)).status 0)

/-! Errors, self-test and sparing (R12, R315, R389, R390). -/

/-- The partition that a column of a die serves. -/
def State.servedBy (s : State) (die label : Nat) : Option Nat :=
  ((s.parts.filter fun e => e.2.valid && e.2.slots.contains (die * 16 + label / 8)).map (fun e => e.1)).head?

/-- The partition that owns the granule of a physical address. -/
def State.ownerOfGranule (s : State) (pa : Nat) : Option Nat :=
  (granuleOf pa).bind fun g => (s.clasp.runs.find? fun r => decide (r.first ≤ g) && decide (g < r.first + r.count)).map fun r => r.part

/-- A record of type 3 (spared) or 4 (fenced) for a unit (R389, R390): an HBM sector, whose index is its physical address, serves the owner of its
granule. -/
def State.sparingRecord (s : State) (rtype kind die label quarter index : Nat) : State :=
  let hbm := decide (kind = 5)
  let p := if hbm then s.ownerOfGranule index else s.servedBy die label
  s.logRecord p (errRecord (s.die die).lclk (if hbm then index else 0) 6 rtype kind die label (p.getD 0)
    + recordTail quarter (if hbm then 0 else index) 0)

/-- A unit as the sparing record names it: a column, bank or lane, a sector by its number. -/
def unitKey (kind label quarter index : Nat) : Nat := if kind = 5 then index / 64 else (label * 4 + quarter) * 1024 + index

/-- A unit as its errors are counted. -/
def TestJob.key (j : TestJob) : Nat := (unitKey j.kind j.label j.quarter j.index * 32 + j.die) * 8 + j.kind

/-- The sparing record as a number, which the device key signs (R377; log 56). -/
def SparRecord.word (r : SparRecord) : Nat :=
  ([r.spared.length, r.fenced.length] ++ (r.spared.flatMap fun x => [x.1, x.2.1, x.2.2]) ++ r.fenced ++ r.retired).foldl (fun n x => n * 2 ^ 64 + x % 2 ^ 64) 1

/-- The sparing record holds what is in force, signed with the device key (R377, R390). -/
def Clasp.seal (c : Clasp) : Clasp :=
  let r : SparRecord := ⟨c.spared, c.fenced, c.retired⟩
  { c with sparRec := r, sparSig := some (Config.sign (Config.sha384 r.word)) }

/-- Clasp spares, fences or retires a unit, and records it in the sparing record (R390). -/
def State.recordSparing (s : State) (f : Clasp → Clasp) : State := s.modClasp fun c => (f c).seal

/-- A slot is fenced: launches with tiles there end (R390). -/
def State.fenceSlot (s : State) (die label : Nat) : State :=
  let slot := die * 16 + label / 8
  let s := s.recordSparing fun c => { c with fenced := sadd c.fenced slot }
  let hit := (s.launches.filter fun l => l.2.st != .ended && l.2.tiles.any fun t => slotOf t == slot).map fun l => l.1
  (hit.foldl (fun s l => s.abortLaunch l) s).sparingRecord 4 6 die label 0 0

/-- A tile gives its position to the spare of its column group, or its slot is fenced when that spare is bound (R12, R390). -/
def State.spareTile (s : State) (die label : Nat) : State :=
  let group := label / 32
  if s.clasp.spared.any fun x => x.1 == 6 && x.2.1 == die && x.2.2 / 32 == group then s.fenceSlot die label
  else
    let ps := (mkeys s.parts).filter fun p => (s.part p).slots.contains (die * 16 + label / 8)
    let s := ps.foldl (fun s p => if (s.part p).sched.isSome then s.beginSwitch p else s) s
    (s.recordSparing fun c => { c with spared := c.spared ++ [(6, die, label)] }).sparingRecord 3 6 die label 0 0

/-- The leaf of a partition whose page holds a physical address of its granules; of several the largest, whose page holds the others'. -/
def State.leafAt (s : State) (pa : Nat) : Option (Nat × Leaf) :=
  s.parts.findSome? fun e =>
    (bestOf (fun (a b : Leaf) => decide (b.psz < a.psz))
      (e.2.leaves.filter fun l => s.owns e.1 pa && decide (l.frame ≤ pa) && decide (pa < l.frame + pageSize l.psz))).map fun l => (e.1, l)

/-- A frame of the partition's granules that no leaf uses and no retired page meets; the lowest. -/
def State.freeFrame (s : State) (p psz : Nat) : Option Nat :=
  let n := pageSize psz
  (s.granules p).findSome? fun g => ((List.range (2 ^ 30 / n)).map fun k => granuleBase g + k * n).find? fun f =>
    !((s.part p).leaves.any fun l => decide (l.frame < f + n) && decide (f < l.frame + pageSize l.psz))
      && !(s.clasp.retired.any fun r => decide (f ≤ r) && decide (r < f + n))

/-- A sector's page is retired at its edge, and its data moves to a free frame, which every leaf of the old frame then names (R310, R390). -/
def State.retirePage (s : State) (pa : Nat) : State :=
  let s := s.recordSparing fun c => { c with retired := sadd c.retired pa }
  match s.leafAt pa with
  | none => s
  | some (p, l) => match s.freeFrame p l.psz with
    | none => s
    | some f =>
      let n := pageSize l.psz
      let cells := (s.dev.bytes.filter fun c => decide (l.frame ≤ c.1) && decide (c.1 < l.frame + n))
      let old : Store := ⟨s.dev.bytes.filter fun c => !(decide (f ≤ c.1) && decide (c.1 < f + n)), s.dev.poison.filter fun u => !(decide (f ≤ u * 16) && decide (u * 16 < f + n))⟩
      let dev := cells.foldl (fun m c => m.writeList (f + (c.1 - l.frame)) [c.2]) old
      let psn := s.dev.poison.filter fun u => decide (l.frame ≤ u * 16) && decide (u * 16 < l.frame + n)
      let dev := psn.foldl (fun m u => m.addPoison (f + (u * 16 - l.frame)) 16) dev
      let inside := fun (a m : Nat) => decide (l.frame ≤ a) && decide (a + m ≤ l.frame + n)
      let moved := fun (e : Leaf) => if inside e.frame (pageSize e.psz) then { e with frame := f + (e.frame - l.frame) } else e
      let s := { s with dev := dev }.modPart p fun q => { q with leaves := q.leaves.map moved }
      let s := s.redirect p l.frame f n
      let kept := fun (d : Die) => d.cache.filter fun e => !(e.part == p && inside e.frame 0)
      { s with dies := s.dies.map fun d => (d.1, { d.2 with cache := kept d.2 }) }

/-- A unit is spared, and its record written (R390). -/
def State.spareUnit (s : State) (j : TestJob) : State :=
  (s.recordSparing fun c => { c with spared := c.spared ++ [(j.kind, j.die, unitKey j.kind j.label j.quarter j.index)] }).sparingRecord 3 j.kind j.die
    j.label j.quarter j.index

/-- A lasting fault of a unit (R390). A link whose lane has been repaired is tested again before it is retrained (R363). -/
def State.lasting (s : State) (j : TestJob) : State :=
  match j.kind with
  | 0 =>
    let used := (s.clasp.spared.filter fun x => x.1 == 0 && x.2.1 == j.die && x.2.2 / 1024 == (j.label * 4 + j.quarter)).length
    if used < 8 then s.spareUnit j else s.spareTile j.die j.label
  | 1 => s.spareUnit j
  | 4 => (s.spareUnit j).modClasp fun c => { c with tests := c.tests ++ [j], counts := mdel j.key c.counts }
  | 5 => (s.retirePage j.index).spareUnit j
  | _ => s.spareTile j.die j.label

/-- When the test of a unit may run (R390). -/
def State.testReady (s : State) (j : TestJob) : Bool :=
  let tl := s.tile (j.die * 128 + j.label)
  match j.kind with
  | 0 => !tl.running (2 ^ j.quarter)
  | 2 => tl.runs.all fun r => r.cls != 6
  | 3 => match s.servedBy j.die j.label with | some p => (s.part p).out || (s.part p).saving || (s.part p).sched.isNone | none => true
  | 4 => (s.link j.index).down
  | _ => true

/-- The times of a unit's errors that lie within 24 hours of this one, in cycles of 1 ns (R1, R390). -/
def TestJob.recent (j : TestJob) (l : List Nat) : List Nat := l.filter fun t => decide (j.since < t + 86400 * 10 ^ 9)

/-- SELF_TEST (R390): job n of the queue runs and passes or fails. -/
def execSelfTest (n : Nat) (pass : Bool) (s : State) : Out :=
  match s.clasp.tests[n]? with
  | none => .next s
  | some j =>
    if !s.testReady j then .next s
    else
      let s := s.modClasp fun c => { c with tests := c.tests.eraseIdx n, counts := mmod [] c.counts j.key (j.recent · ++ [j.since]) }
      .next (if pass && (mget [] s.clasp.counts j.key).length < 16 then s else s.lasting j)

/-- The sparing record verifies under the device key (R376, R377). -/
def Clasp.sparingOk (c : Clasp) : Bool := c.sparSig == some (Config.sign (Config.sha384 c.sparRec.word))

/-- SUBMIT_SPARING (R377, R388, R390): an update that self-test has proposed, that is a sparing or fencing that Clasp has put in force, is in the
record, which Clasp signs anew; every other is refused (DEDUCED, log 49). For a fence `unit` is the slot. -/
def execSubmitSparing (kind die unit index : Nat) (fence : Bool) (s : State) : Out :=
  let s := s.call [2, kind, die, unit, index, b2n fence]
  let proposed := if fence then s.clasp.fenced.contains unit else s.clasp.spared.contains (kind, die, if kind = 6 then unit else unit * 1024 + index)
  if proposed then .next ((s.modClasp Clasp.seal).status 0) else .next (s.status 1)

/-- HBM_SCRUB (R315): whether a sector holds an error is open (log 4): none, one that is corrected, or one that poisons the sector. -/
def execHbmScrub (stack sector : Nat) (s : State) : Out :=
  let pa := stack * 0x1000000000 + sector * 64
  match granuleOf pa with
  | none => .next s
  | some g =>
    if 1152 ≤ g then .next s
    else
      let f := s.takeFree
      let p := s.ownerOfGranule pa
      match f.1 % 3 with
      | 0 => .next f.2
      | 1 => .next (f.2.detect p stack pa 3 5 0 0 pa)
      | _ => .next ((f.2.poisonAt (.dev pa) 64).detect p stack pa 4 5 0 0 pa)

/-! Checkpoint, power and temperature (R376, R391, R392). -/


/-- The partitions that are still on their tiles. -/
def State.onTiles (s : State) : List Nat := (mkeys s.parts).filter fun p => (s.part p).valid && (s.part p).sched.isSome && !(s.part p).out

/-- The checkpoint is written and signed (R389, R391). -/
def State.writeCheckpoint (s : State) : State :=
  let s := s.foldAll
  let image : Snapshot := {
    dev := ⟨s.dev.bytes.filter fun c => decide (c.1 < 0x800000000000), s.dev.poison.filter fun u => decide (u * 16 < 0x800000000000)⟩
    parts := s.parts, launches := s.launches, record := s.clasp.record, recSign := s.clasp.recSign, runs := s.clasp.runs,
    sparing := ⟨s.clasp.spared, s.clasp.fenced, s.clasp.retired⟩, sparSig := s.clasp.sparSig }
  let n := s.clasp.ckNo + 1
  let s := s.modClasp fun c => { c with ckNo := n, ckValid := true, image := some image, manifest := some (Config.sign (Config.sha384 n)) }
  s.logRecord none (errRecord (s.die 24).lclk n 0 5 0 24 0 0)

/-- CHECKPOINT (R388, R391): busy until every partition is switched out. -/
def execCheckpoint (s : State) : Out :=
  let s := s.call [8]
  if !s.clasp.checkpointFits then .next (s.status 1)
  else if !s.onTiles.isEmpty then .next ((s.switchOut s.onTiles).status 3)
  else .next (s.writeCheckpoint.status 0)

/-- The configuration record in the non-volatile store verifies (R376, R377). -/
def Clasp.recordVerified (c : Clasp) : Bool :=
  c.recordOk && (match c.recSign with | some k => Config.verify k.1 (signedRecord c.record k.2.1) k.2.2 | none => false)

/-- Power returns (R376): Clasp's non-volatile store stays, and of its records those that verify are in force; the links that fail their test are
open (log 4), and stay down until they pass another. -/
def State.boot (s : State) : State :=
  let c := s.clasp
  let fresh := { State.reset with
    clasp := { Clasp.reset with
      owner := c.owner, record := c.record, recordOk := c.recordVerified, recSign := c.recSign, capacity := c.capacity, cxl := c.cxl,
      spared := if c.sparingOk then c.sparRec.spared else [], fenced := if c.sparingOk then c.sparRec.fenced else [],
      retired := if c.sparingOk then c.sparRec.retired else [], sparRec := c.sparRec, sparSig := c.sparSig,
      ckNo := c.ckNo, manifest := c.manifest, ckValid := c.ckValid, image := c.image }
    free := s.free }
  let fresh := { fresh with parts := s.parts.map (fun (e : Nat × Partition) => (e.1, { Partition.reset with coloSeq := e.2.coloSeq, coloPrev := e.2.coloPrev })) }
  let f := fresh.takeFree
  let links := (List.range 46).foldl (fun m k => if bit f.1 k then mput m k { Link.reset with down := true } else m) ([] : Map Link)
  let s := { f.2 with links := links }
  let s := (mkeys links).foldl (fun s k => s.detectLink k 6) s
  if c.recordVerified then s.install c.record else s

/-- A checkpoint is restored in place of empty stacks (R391). The colophon chains go on from Clasp's own store, which is at least as new (R383), and
new launches from the numbers that were given. The records in force are the checkpoint's, with the signatures they had. -/
def State.restoreFrom (s : State) (k : Snapshot) : State :=
  let chained := fun (e : Nat × Partition) => (e.1, { e.2 with coloSeq := (s.part e.1).coloSeq, coloPrev := (s.part e.1).coloPrev })
  let later := s.parts.filter fun (e : Nat × Partition) => (mfind e.1 k.parts).isNone
  ({ s with
    dev := ⟨k.dev.bytes, k.dev.poison⟩
    parts := later.foldl (fun (m : Map Partition) (e : Nat × Partition) => mput m e.1 (chained (e.1, Partition.reset)).2) (k.parts.map chained : Map Partition)
    launches := k.launches, nextLid := (mkeys k.launches).foldl max s.nextLid }.modClasp fun c =>
    { c with record := k.record, recSign := k.recSign, runs := k.runs, spared := k.sparing.spared, fenced := k.sparing.fenced,
             retired := k.sparing.retired, sparRec := k.sparing, sparSig := k.sparSig })

/-- POWER_ON (R376, R391). A checkpoint is restored when it is the latest and nothing has resumed since. -/
def execPowerOn (s : State) : Out :=
  if s.powered then .next s
  else match s.clasp.image with
    | some k => if s.clasp.ckValid && s.clasp.manifest == some (Config.sign (Config.sha384 s.clasp.ckNo)) then .next (s.boot.restoreFrom k) else .next s.boot
    | none => .next s.boot

/-- TEMPERATURE_WARNING (R392): type 2, CODE 6. -/
def execTemperatureWarning (die : Nat) (s : State) : Out :=
  .next ((s.modDie die fun d => { d with warned := true }).logRecord none (errRecord (s.die die).lclk 0 6 2 0 die 0 0))

/-- TEMPERATURE_SHUTDOWN (R391, R392): the checkpoint first when the reserve tier permits it, then power goes. While partitions are still on their
tiles the shutdown is pending, and the clock of I/O die 0 goes on with it. -/
def execTemperatureShutdown (die : Nat) (s : State) : Out :=
  if s.clasp.checkpointFits then
    if s.onTiles.isEmpty then .next { s.writeCheckpoint with powered := false }
    else .next ((s.switchOut s.onTiles).modClasp fun c => { c with shutdown := some die })
  else .next { s with powered := false }

end Sys2Proof.Machine
end

