-- ==== Sys2Proof/Machine/EvSpdm.lean ====
section
/-! DEFINITION. The SPDM responder and the vendor requests (R382 to R387; logs 5, 14). -/

namespace Sys2Proof.Machine

/-- The exchange of a requester: one per function and per management side; a session shares that of its key. -/
def State.session (s : State) (r : Requester) : Session :=
  (s.clasp.sessions.find? fun x => x.who == r).getD ⟨r, false, false, false, none, false⟩
def State.modSession (s : State) (r : Requester) (f : Session → Session) : State :=
  s.modClasp fun c => { c with sessions := c.sessions.filter (fun x => x.who != r) ++ [f (s.session r)] }

/-- A response leaves. -/
def State.respond (s : State) (what : String) (vals : List Nat) : Out := .next (s.send "spdm" what vals)
/-- The error that changes nothing (R385). -/
def State.unsupported (s : State) : Out := s.respond "UnsupportedRequest" []
/-- A request before the exchanges it needs. -/
def State.unexpected (s : State) : Out := s.respond "UnexpectedRequest" []

/-- GET_VERSION (R384): SPDM 1.3; the exchange begins again. -/
def execGetVersion (r : Requester) (s : State) : Out :=
  (s.modSession r fun x => { x with version := true, caps := false, algs := false, key := none, secure := false }).respond "VERSION" [0x13]

/-- GET_CAPABILITIES (R384). -/
def execGetCapabilities (r : Requester) (s : State) : Out :=
  if (s.session r).version then (s.modSession r fun x => { x with caps := true }).respond "CAPABILITIES" [] else s.unexpected

/-- The algorithms of R384. -/
def spdmAlgorithms : List String := ["ECDSA P-384", "SHA-384", "ECDHE P-384", "AES-256-GCM"]

/-- NEGOTIATE_ALGORITHMS (R384): each algorithm offered is taken when the module has it. -/
def execNegotiateAlgorithms (r : Requester) (offer : List String) (s : State) : Out :=
  if (s.session r).caps then
    (s.modSession r fun x => { x with algs := spdmAlgorithms.all offer.contains }).respond "ALGORITHMS" (spdmAlgorithms.map fun a => b2n (offer.contains a))
  else s.unexpected

/-- A request that needs negotiated algorithms. -/
def State.afterAlgs (s : State) (r : Requester) (out : Out) : Out := if (s.session r).algs then out else s.unexpected

/-- GET_DIGESTS (R384): slot 0. -/
def execGetDigests (r : Requester) (s : State) : Out := s.afterAlgs r (s.respond "DIGESTS" [0, Config.sha384 Config.certificate])
/-- GET_CERTIFICATE (R384): slot 0. -/
def execGetCertificate (r : Requester) (s : State) : Out := s.afterAlgs r (s.respond "CERTIFICATE" [0, Config.certificate])
/-- CHALLENGE (R384): signed by the device key. -/
def execChallenge (r : Requester) (nonce : Nat) (s : State) : Out :=
  s.afterAlgs r (s.respond "CHALLENGE_AUTH" [Config.sha384 Config.certificate, nonce, Config.sign (Config.sha384 nonce)])

/-- The partition entries that a requester sees in measurement 4. -/
def State.seenEntries (s : State) (r : Requester) : List Nat :=
  match r with
  | .vf p => [recordEntry s.clasp.record p]
  | .session _ => []
  | .pf | .mgmt => (List.range 64).map fun p => recordEntry s.clasp.record p


/-- The measurement of an index (R384). -/
def State.measure (s : State) (r : Requester) (index : Nat) : Option (List Nat) :=
  match index with
  | 1 => some [Config.imageMeasure 1]
  | 2 => some [Config.imageMeasure 2]
  | 3 => some [Config.sha384 s.clasp.record]
  | 4 => some ((s.seenEntries r).map Config.sha384)
  | 5 => some [Config.sha384 s.clasp.sparRec.word]
  | _ => none

/-- GET_MEASUREMENTS (R384). -/
def execGetMeasurements (r : Requester) (index : Nat) (s : State) : Out :=
  s.afterAlgs r (match s.measure r index with | some l => s.respond "MEASUREMENTS" (index :: l) | none => s.unsupported)

/-- KEY_EXCHANGE (R384): a session begins; its requester key is the one whose hash is given. -/
def execKeyExchange (r : Requester) (keyHash share : Nat) (s : State) : Out :=
  s.afterAlgs r ((s.modSession r fun x => { x with key := some keyHash, secure := false }).respond "KEY_EXCHANGE_RSP"
    [Config.keyShare share, Config.sign (Config.sha384 (Config.keyShare share))])

/-- FINISH (R384): the proof of the session secret makes it secure. -/
def execFinish (r : Requester) (proof : Nat) (s : State) : Out :=
  match (s.session r).key with
  | none => s.unexpected
  | some k => if proof = Config.finishProof k then (s.modSession r fun x => { x with secure := true }).respond "FINISH_RSP" []
    else (s.modSession r fun x => { x with key := none, secure := false }).respond "DecryptError" []

/-- END_SESSION (R384). -/
def execEndSession (r : Requester) (s : State) : Out :=
  if (s.session r).secure then (s.modSession r fun x => { x with key := none, secure := false }).respond "END_SESSION_ACK" [] else s.unexpected

/-! Vendor requests (R382, R383, R385 to R387). -/

/-- A function for its own partition; the physical function and the management side for any (R385). -/
def mayReadPart (r : Requester) (p : Nat) : Bool := match r with | .vf k => k == p | .pf | .mgmt => true | .session _ => false

/-- Bits 2303..0 of a colophon (R382). -/
def State.colophonBody (s : State) (p nonce : Nat) : Nat :=
  let q := s.part p
  q.coloPrev % 2 ^ 384 * 2 ^ 1920 + nonce % 2 ^ 256 * 2 ^ 1664 + ((List.range 16).map fun m => mget 0 q.meters m % 2 ^ 64 * 2 ^ (640 + 64 * m)).sum
    + (q.coloSeq + 1) % 2 ^ 64 * 2 ^ 576 + s.foldLclk % 2 ^ 64 * 2 ^ 512 + Config.sha384 s.clasp.record % 2 ^ 384 * 2 ^ 128
    + q.atcap % 2 ^ 16 * 2 ^ 64 + 2 ^ 48 + p % 64 * 2 ^ 32 + 0x4E4F4C43

/-- GETCOLO (R382, R383, R385): the next colophon of the partition's chain, over the meters of the last fold. -/
def execGetcolo (r : Requester) (p nonce : Nat) (s : State) : Out :=
  if !mayReadPart r p || decide (64 ≤ p) then s.unsupported
  else
    let body := s.colophonBody p nonce
    let c := Config.sign (Config.sha384 body) % 2 ^ 768 * 2 ^ 2304 + body
    (s.modPart p fun q => { q with coloSeq := q.coloSeq + 1, coloPrev := Config.sha384 c }).respond "colophon" [c]

/-- The key of the requester's secure session hashes to AUTH (R385). -/
def State.isAuthority (s : State) (r : Requester) (p : Nat) : Bool :=
  (match (s.session r).key with | some k => (s.session r).secure && k == (s.part p).auth | none => false)
    || (match r with
      | .session k => k == (s.part p).auth && s.clasp.sessions.any fun x => x.secure && x.key == some k
      | _ => false)

/-- SETCAPS (R385, R387): all 16 caps, and ATCAP from the folded meters in the same step. -/
def execSetcaps (r : Requester) (p : Nat) (caps : List Nat) (s : State) : Out :=
  if !s.isAuthority r p || caps.length ≠ 16 then s.unsupported
  else
    let s := s.modPart p fun q => { q with caps := (List.range 16).foldl (fun m k => mput m k (caps.getD k 0 % 2 ^ 64)) [] }
    let s := s.modPart p fun q => { q with atcap := q.atcapOf, hold := { q.hold with cap := q.atcapOf != 0 } }
    s.respond "status" [0]

/-- GETCAPS (R385). -/
def execGetcaps (r : Requester) (p : Nat) (s : State) : Out :=
  if !mayReadPart r p || decide (64 ≤ p) then s.unsupported else s.respond "caps" ((List.range 16).map fun m => mget 0 (s.part p).caps m)

end Sys2Proof.Machine
end

