-- ==== Sys2Proof/Machine/EvClock.lean ====
section
/-! DEFINITION. The clock of a die: what a cycle counts, and which acts it brings, the weighted work of each tile in the order of R330
(R17, R225, R228, R325, R330, R331, R338, R343, R367, R381; log 3). -/

namespace Sys2Proof.Machine

/-! What a cycle counts. -/

/-- CYCLE and LCLK (R17, R367). -/
def Die.tick (d : Die) : Die := { d with cycle := d.cycle + 1, lclk := max (d.lclk + 1) (d.stamp + 1), stamp := 0 }

/-- The elements that the fabric has moved of the stream that holds a port: taken from it, or given to it. -/
def Tile.moved (tl : Tile) (ingress : Bool) (p : Port) : Nat :=
  match p.holder.bind fun h => tl.entry h.2 with
  | some e => if ingress then e.firstWaiting p else e.pos + e.inFlight + p.fifo.length
  | none => 0

/-- A port whose fabric side has refused a beat in the cycle that ends (R228): elements wait, and it has taken none; or none wait, and it has given
none. -/
def Tile.portRefuses (tl : Tile) (k : Nat) : Bool :=
  match mfind (k % 16) (if k < 16 then tl.ips else tl.eps) with
  | some p => p.holder.isSome && tl.moved (decide (k < 16)) p == p.mark && (if k < 16 then !p.fifo.isEmpty else p.fifo.isEmpty)
  | none => false

/-- The cycle does not count against streams that hold a refusing port or wait for it (R228). -/
def Tile.excuse (tl : Tile) (e : QEntry) : QEntry :=
  if e.kind.isStream && e.st != .finished && e.portKeys.any tl.portRefuses then { e with at_ := e.at_ + 1 } else e

/-- A resident cycle of a tile: the budget window moves on (R330), the resident count grows (R40). -/
def Tile.tick (tl : Tile) : Tile :=
  { tl with
    res := tl.res + 1, charges := (0 :: tl.charges).take 32, pledged := [], hold := []
    ips := tl.ips.map fun x => (x.1, { x.2 with mark := tl.moved true x.2 })
    eps := tl.eps.map fun x => (x.1, { x.2 with mark := tl.moved false x.2 })
    queues := tl.queues.map fun q => (q.1, { q.2 with entries := q.2.entries.map tl.excuse }) }

/-- The die whose clock counts for a partition: its lowest. -/
def Partition.clock (q : Partition) : Nat := (q.dies.foldl (fun m d => match m with | none => some d | some k => some (min k d)) none).getD 24

/-- The resident partitions with slots on a die. -/
def State.residents (s : State) (die : Nat) : List Nat := (s.partsOn die).filter fun p => (s.part p).resident

/-- A resident cycle of a partition: its slice (R338) and meter 14 (R381). -/
def State.tickPart (s : State) (p : Nat) : State :=
  (s.modPart p fun q => { q with sliceUsed := q.sliceUsed + 1 }).meter p 14 (s.part p).slots.length

/-- The counts of a cycle. -/
def State.tick (s : State) (die : Nat) : State :=
  let live := s.residents die
  let s := s.modDie die Die.tick
  let s := (live.flatMap fun p => (s.part p).tiles.filter fun t => dieOf t == die).foldl (fun s t => if (mfind t s.tiles).isSome then s.modTile t Tile.tick else s) s
  (live.filter fun p => (s.part p).clock == die).foldl (fun s p => s.tickPart p) s

/-! Weighted work (R330). -/

/-- The state after a step that does not stop. -/
def after (o : Out) (s : State) : State := match o with | .next s' => s' | _ => s

/-- Candidates that are offered in order: those that proceed, the state behind them, and whether one was refused. -/
structure Offer where
  s : State
  refused : Bool
  acts : List Act

/-- A candidate of a tile: no bypass behind a refusal; what weighs 0 proceeds (R330). -/
def Offer.one (t : Nat) (o : Offer) (i : Instr) (run : State → Out) : Offer :=
  let s' := after (run o.s) o.s
  let w := (s'.tile t).charges.headD 0 - (o.s.tile t).charges.headD 0
  if w = 0 then ⟨s', o.refused, o.acts ++ [.event i]⟩
  else if o.refused || !(o.s.tile t).fits w then { o with refused := true }
  else ⟨s', false, o.acts ++ [.event i]⟩

/-- A region or the element array (mask 0): when it is held, only its beat or its firing is (R198, R330). -/
def Offer.region (t qmask : Nat) (o : Offer) (i : Instr) (run : State → Out) : Offer :=
  let p := o.one t i run
  if p.acts.length ≠ o.acts.length then p
  else
    let h := o.s.modTile t fun tl => { tl with hold := tl.hold ++ [qmask] }
    ⟨after (run h) h, true, o.acts ++ [.event i]⟩

/-- The lowest quarter of a mask. -/
def lowQuarter (q : Nat) : Nat := ((List.range 4).find? fun k => bit q k).getD 4

/-- The stream that holds a port. -/
def Offer.stream (t k : Nat) (o : Offer) : Offer :=
  match (if k % 2 = 0 then mfind (k / 2) (o.s.tile t).ips else mfind (k / 2) (o.s.tile t).eps) with
  | none => o
  | some p => match p.holder with
    | none => o
    | some (q, id) =>
      if k % 2 = 1 && (match (o.s.tile t).entry id with | some e => e.kind.ingress | none => false) then o
      else o.one t (.streamBeat t q id) (execStreamBeat t q id)

/-- Beats of regions by lowest quarter, the element cycle, the copy engines, streams by port. -/
def State.offerBeats (s : State) (t : Nat) : Offer :=
  let tl := s.tile t
  let runs := (sortBy (fun (a b : Run) => decide (lowQuarter a.qmask < lowQuarter b.qmask)) tl.runs).map fun r => r.qmask
  let o := runs.foldl (fun (o : Offer) q => o.region t q (.blockBeat t q) (execBlockBeat t q)) ⟨s, false, []⟩
  let o := if tl.runs.any fun r => r.cls == 6 then o.region t 0 (.elementCycle t) (execElementCycle t) else o
  let o := [0, 1].foldl (fun (o : Offer) k => match mfind k (o.s.tile t).engines with
    | some x => o.one t (.copyBeat t x.1) (execCopyBeat t x.1)
    | none => o) o
  (List.range 32).foldl (fun o k => o.stream t k) o

/-- The context could issue but for arbitration: the weight of what it would issue (R325, R329); a fault, a kill or an entry of a trap weighs 0. -/
def State.wants (s : State) (t c : Nat) : Option Nat :=
  let s := { s with cur := (t, c) }
  let x := s.me
  if !x.canIssue then none
  else if s.killDue t c || x.trapDue then some 0
  else match s.fetch t c with
    | .fault _ _ | .bad _ _ _ => some 0
    | .stall => none
    | .instr i => if s.stalled i then none else some (if x.trap then 0 else s.weight (s.partId t) (classOf i))

/-- The rank of an issuable context: number, age and PRIO (R325). -/
def outranks (a b : Nat × Nat × Nat) : Bool :=
  let old := fun (x : Nat × Nat × Nat) => decide (4 ≤ x.2.1)
  if old a && old b then decide (b.2.1 < a.2.1) || (a.2.1 == b.2.1 && decide (a.1 < b.1))
  else if old a || old b then old a
  else decide (b.2.2 < a.2.2) || (a.2.2 == b.2.2 && decide (a.1 < b.1))

/-- Contexts in rank order are offered to what the budget has left: those that issue. -/
def offerCtxs (tl : Tile) : List (Nat × Nat) → Nat → Bool → List Nat
  | [], _, _ => []
  | (c, w) :: l, used, refused =>
    if w = 0 then c :: offerCtxs tl l used refused
    else if refused || !tl.fits (used + w) then offerCtxs tl l used true
    else c :: offerCtxs tl l (used + w) refused

/-- The contexts of a tile that issue this cycle, and every context that could have (R325, R330). -/
def State.issuers (s : State) (t : Nat) (refused : Bool) : List Nat × List Nat :=
  let could := (mkeys (s.tile t).ctxs).filterMap fun c => (s.wants t c).map fun w => (c, w)
  let ranked := sortBy (fun a b => outranks (a.1, (s.ctx t a.1).age, (s.ctx t a.1).prio) (b.1, (s.ctx t b.1).age, (s.ctx t b.1).prio)) could
  (offerCtxs (s.tile t) (ranked.take 2) 0 refused, could.map (·.1))

/-- The steps of an engine queue that begin its entries. -/
def startSteps (t q : Nat) : List Instr := [.gatePass t q, .copyStart t q, .streamDispatch t q]

/-- A command that issues in this cycle can begin in it. -/
def State.startsOf (s : State) (t c : Nat) : List Act :=
  match s.fetch t c with
  | .instr i => (match queueOf i with | some q => (startSteps t q).map .event | none => [])
  | _ => []

/-- The weighted work of a tile in a cycle; contexts issue in the order of their numbers (R325). -/
def State.tileWork (s : State) (t : Nat) : State × List Act :=
  if !(s.tile t).open_ then (s, [])
  else
    let o := s.offerBeats t
    let x := o.s.issuers t o.refused
    let aged := fun (e : Nat × Ctx) => (e.1, { e.2 with age := if x.2.contains e.1 && !x.1.contains e.1 then e.2.age + 1 else 0 })
    (s.modTile t fun tl => { tl with ctxs := tl.ctxs.map aged, hold := (o.s.tile t).hold, pledged := ((List.range 8).filter x.1.contains).map fun c => (c, (o.s.wants t c).getD 0) },
     o.acts ++ ((List.range 8).filter x.1.contains).flatMap fun c => Act.issue t c :: s.startsOf t c)

/-- The weighted work of a list of tiles. -/
def State.dieWork (s : State) : List Nat → State × List Act
  | [] => (s, [])
  | t :: l =>
    let r := s.tileWork t
    let q := State.dieWork r.1 l
    (q.1, r.2 ++ q.2)

/-! The hardware steps of a cycle. A step that is not enabled changes nothing. -/

/-- Indices of a list from the last to the first. -/
def downFrom {α : Type} (l : List α) (p : α → Bool) : List Nat := ((l.zipIdx.filter fun x => p x.1).map fun x => x.2).reverse

/-- The crossbar items that cross, in their order: the index each has when its turn comes. -/
def State.crossings (s : State) (die : Nat) : Nat → List Instr
  | 0 => []
  | n + 1 => match (s.die die).xbar.findIdx? fun x => x.column.isNone with
    | none => []
    | some k => .crossbarCrossing die k :: State.crossings (after (execCrossbarCrossing die k s) s) die n

/-- Credits of the partitions on a die (R347). -/
def State.creditSteps (s : State) (die : Nat) : List Instr :=
  (s.partsOn die).flatMap fun p =>
    .creditReturn die p
      :: (((s.part p).tiles.filter fun t => dieOf t == die).map fun t => .creditDraw die p (t % 128))
      ++ (s.columns p die).map fun c => .creditDraw die p (128 + c)

/-- The step that takes a flit from the intake of a tile. -/
def takerOf (t : Nat) (f : Flit) : List Instr :=
  if f.kind ≤ 1 then [.activeMessageArrival t]
  else if f.kind = 2 then [.gatherFlitArrival t]
  else if f.isClass 0 then [.remoteStoreApply t]
  else if f.isClass 1 then [.remoteAtomicApply t]
  else if f.isClass 2 then [.counterContributionFlit t]
  else if f.isResponse 1 then [.windowUpdateReceipt t]
  else if f.isResponse 2 then [.streamEndReceipt t]
  else if f.isSched 0 then [if bit f.payload 112 then .preemptSwitchRequest t else .preemptHoldRequest t]
  else [.acknowledgementReceipt t]

/-- The steps of a context: its accesses, waits and answers. -/
def ctxSteps (t : Nat) (e : Nat × Ctx) : List Instr :=
  (e.2.outs.flatMap fun a => if a.done then [] else List.replicate a.parts (Instr.memoryAccessAtHome t e.1 a.id false))
    ++ (e.2.outs.flatMap fun a => if a.done || !a.reads then [] else List.replicate a.parts (Instr.cxlReadReturn t e.1 a.id false))
    ++ [.zeroLengthReadCompletion t e.1]
    ++ (e.2.outs.filterMap fun a => if a.finished then none else some (Instr.loadResultReturn t e.1 a.id))
    ++ [.arrivalAnswer t e.1, .contextWake t e.1, .trapModeKillTimeout t e.1]
    ++ (if e.2.wait.isSome && e.2.trapDue then [.deferredTrap t e.1] else [])

/-- The steps of an engine queue. -/
def queueSteps (t : Nat) (e : Nat × Queue) : List Instr :=
  startSteps t e.1
    ++ (e.2.entries.map fun x => .quoteExpiryCompletion t e.1 x.id) ++ [.transferRetire t e.1]

/-- Behind a pre-emption request the committed results of runs and the egress ports drain (R188, R333). -/
def Tile.drainSteps (tl : Tile) (t : Nat) : List Instr :=
  (tl.runs.map fun r => .blockBeat t r.qmask)
    ++ tl.eps.filterMap fun x => x.2.holder.bind fun h => (tl.entry h.2).bind fun e => if e.drainsOut then some (.streamBeat t h.1 h.2) else none

/-- The steps of a tile. -/
def State.tileSteps (s : State) (t : Nat) : List Instr :=
  let tl := s.tile t
  tl.intake.flatMap (takerOf t)
    ++ tl.ctxs.flatMap (ctxSteps t)
    ++ (tl.loads.map fun l => .folioLoadComplete t l.qmask)
    ++ (tl.sweeps.map fun w => .switchSweepComplete t w.qmask)
    ++ (tl.runs.flatMap fun r => [.instanceComplete t r.qmask, .scanOutComplete t r.qmask])
    ++ (if tl.open_ then [] else tl.drainSteps t)
    ++ [.blockRunStart t] ++ (if !tl.open_ && tl.array.storing then [.elementCycle t] else [])
    ++ (tl.array.pend.filterMap fun p => if p.mem then some (Instr.memoryNodeComplete t p.id) else none)
    ++ tl.queues.flatMap (queueSteps t)
    ++ (tl.gbufs.map fun g => .poisonFillTimeout t g.1)
    ++ (tl.trks.map fun r => .poisonFillTimeout t (16 + r.1))
    ++ (tl.etrks.map fun r => .poisonFillTimeout t (32 + r.1))
    ++ [.dependenceCheck t, .taskBind t]

/-- The steps of a partition: cancels, pre-emption, map requests, launches. -/
def State.partSteps (s : State) (p : Nat) : List Instr :=
  ((s.cancels.filter fun c => c.2.part == p && !c.2.done).flatMap fun c =>
      ((s.part p).tiles.flatMap fun t => [.cancelRegistration c.1 t, .cancelTileReport c.1 t])
      ++ (c.2.dies.flatMap fun d => [.cancelRegistration c.1 (d.1 * 128), .cancelTileReport c.1 (d.1 * 128)]) ++ [.cancelAckWrite c.1])
    ++ [.deadlinePreemption p, .sliceExpiry p, .stateSaveComplete p, .restoreComplete p, .resumeRequest p]
    ++ (match (s.part p).job with | some j => (downFrom j.tokens fun _ => true).map fun n => .drainTokenArrival p n | none => [])
    ++ [.invalidationComplete p, .migrationSpliceBeat p, .migrationRedirect p, .migrationDone p]
    ++ (s.liveLaunches p).flatMap fun l => [.loaderPlacement l.1, .launchEnd l.1]

/-- The steps of the links into a die. -/
def State.linkSteps (s : State) (die : Nat) : List Instr :=
  (s.links.flatMap fun l =>
      ((l.2.frames.filter fun f => frameTo l.1 f.toHigh == die).map fun f => .d2dFrameReceipt l.1 f.toHigh)
      ++ (if (linkEnds l.1).1 = die then [.linkDown l.1] else []))
    ++ (s.die die).flushWait.map fun k => .flushMarkerReturn k

/-- The hardware steps of a die in a cycle; the I/O die folds meters (R381). -/
def State.dieSteps (s : State) (die : Nat) (tiles parts : List Nat) : List Instr :=
  s.crossings die (s.die die).xbar.length
    ++ (if die < 24 then [.networkCycle die, .networkCycle die, .ageTick die] ++ s.creditSteps die else [])
    ++ s.linkSteps die
    ++ (downFrom s.pubs fun k => dieOf k.tile == die).map (fun n => .taskPublicationArrival n)
    ++ (downFrom s.arrivals fun a => dieOf a.tile == die).map (fun n => .barrierArrivalAtHome n)
    ++ (downFrom s.releases fun r => dieOf r.tile == die).map (fun n => .barrierReleaseArrival n)
    ++ tiles.flatMap s.tileSteps
    ++ parts.flatMap s.partSteps
    ++ (if die = 24 then .meterFold :: (match s.clasp.shutdown with | some d => [.temperatureShutdown d] | none => []) else [])

/-- CLOCK_CYCLE (log 3): a cycle of a die is counted, and its acts become next. -/
def execClockCycle (die : Nat) (s : State) : Out :=
  if 28 ≤ die then .next s
  else
    let s := s.tick die
    let tiles := s.tilesOf die
    let r := s.dieWork (tiles.filter fun t => (s.part (s.partId t)).resident)
    let parts := (mkeys s.parts).filter fun p => (s.part p).clock == die
    .next { r.1 with agenda := r.1.agenda ++ r.2 ++ (r.1.dieSteps die tiles parts).map .event }

end Sys2Proof.Machine
end

