-- ==== Sys2Proof/Machine/Fence.lean ====
section
/-! DEFINITION. Fences of major 0x61 (R149 to R151). -/

namespace Sys2Proof.Machine

/-- A fence issues at once and takes its place among the outstanding accesses, where it holds back later ones (R150). FENCE.s issues a
zero-length read to the host before it (R151). -/
def execFence (sc : Scope) (k : FenceKind) (s : State) : Out :=
  let s := if sc == .system then s.push (s.fresh .zread 4 0 0) else s
  .next ((s.push (s.fresh (.fence sc k) 8 0 0)).modMe Ctx.trim |>.advance)

end Sys2Proof.Machine
end

