-- ==== Sys2Proof/Machine/Float.lean ====
section
/-! DEFINITION. Scalar floating point of major 0x30 (R117 to R122). -/

namespace Sys2Proof.Machine

/-- A signalling NaN among the operands (R118). -/
def anySig (l : List Num) : Bool := l.any Num.isSig

/-- The rounding mode makes an exact zero sum -0 (R118). -/
def downMode (rm : Rm) : Bool := rm == .rdn

/-- The result of a float operation with its invalid flag is rounded and written, and the pc moves on. -/
def State.floatOut (s : State) (f : FFmt) (rm : Rm) (d : Nat) (r : Num × Bool) (lat : Nat := 4) : State :=
  (s.putFloat f rm d r.1 { nv := r.2 } lat).advance


def execFadd (f : FFmt) (rm : RmCode) (d a b : Nat) (s : State) : Out :=
  .next (s.floatOut f (s.rm rm) d (addNum (s.fnum f a) (s.fnum f b) (downMode (s.rm rm))))

def execFsub (f : FFmt) (rm : RmCode) (d a b : Nat) (s : State) : Out :=
  .next (s.floatOut f (s.rm rm) d (addNum (s.fnum f a) (s.fnum f b).neg (downMode (s.rm rm))))

def execFmul (f : FFmt) (rm : RmCode) (d a b : Nat) (s : State) : Out :=
  .next (s.floatOut f (s.rm rm) d (mulNum (s.fnum f a) (s.fnum f b)))

/-- FFMA: exact product and sum, one rounding; Inf times 0 is invalid even beside a quiet NaN (R118). -/
def fmaNum (x y z : Num) (down : Bool) : Num × Bool :=
  let p := mulNum x y
  let r := addNum p.1 z down
  (r.1, p.2 || r.2)

def execFfma (f : FFmt) (rm : RmCode) (d a b c : Nat) (s : State) : Out :=
  .next (s.floatOut f (s.rm rm) d (fmaNum (s.fnum f a) (s.fnum f b) (s.fnum f c) (downMode (s.rm rm))))

def execFdiv (f : FFmt) (rm : RmCode) (d a b : Nat) (s : State) : Out :=
  let r := divNum (s.fnum f a) (s.fnum f b)
  .next ((s.putFloat f (s.rm rm) d r.1 { nv := r.2.1, dz := r.2.2 } (divLat f)).advance)

def execFsqrt (f : FFmt) (rm : RmCode) (d a : Nat) (s : State) : Out :=
  .next (s.floatOut f (s.rm rm) d (sqrtNum (s.fnum f a)) (divLat f))

def execFmin (f : FFmt) (d a b : Nat) (s : State) : Out := .next (s.floatOut f .rne d (minmaxNum false (s.fnum f a) (s.fnum f b)))
def execFmax (f : FFmt) (d a b : Nat) (s : State) : Out := .next (s.floatOut f .rne d (minmaxNum true (s.fnum f a) (s.fnum f b)))

/-- The relations of FCMP (R119). -/
def fcmpHolds (r : FRel) (x y : Num) : Bool :=
  match r with
  | .eq => eqNum x y
  | .lt => !x.isNan && !y.isNan && ltNum x y
  | .le => !x.isNan && !y.isNan && !ltNum y x
  | .un => x.isNan || y.isNan

/-- NV of FCMP (R119). -/
def fcmpInvalid (r : FRel) (x y : Num) : Bool :=
  match r with
  | .lt | .le => x.isNan || y.isNan
  | .eq | .un => anySig [x, y]

def execFcmp (f : FFmt) (r : FRel) (d a b : Nat) (s : State) : Out :=
  let x := s.fnum f a
  let y := s.fnum f b
  .next (((s.setX d (BitVec.ofNat 64 (b2n (fcmpHolds r x y)))).setFlags { nv := fcmpInvalid r x y }).advance)

/-- The source value of a conversion (R75, R120). -/
def State.convSrc (s : State) (c : Conv) (a : Nat) : Num :=
  match c with
  | .d_i | .s_i => decodeNum 0x05 (s.nx a)
  | .d_n | .s_n => decodeNum 0x0B (s.nx a)
  | .s_d | .i_d | .n_d => s.fnum .d a
  | .d_s | .i_s | .n_s | .h_s | .bf_s => s.fnum .s a
  | .s_h => decodeNum 0x0E (bits (s.getF a).toNat 15 0)
  | .s_bf => decodeNum 0x0F (bits (s.getF a).toNat 15 0)

/-- The target format of a conversion (R75). -/
def convTarget (c : Conv) : Nat :=
  match c with
  | .d_s | .d_i | .d_n => 0x0C
  | .s_d | .s_i | .s_n | .s_h | .s_bf => 0x0D
  | .i_d | .i_s => 0x05
  | .n_d | .n_s => 0x0B
  | .h_s => 0x0E
  | .bf_s => 0x0F

/-- FCVT (R120): a signalling NaN sets NV on the way to a float. -/
def execFcvt (c : Conv) (rm : RmCode) (d a : Nat) (s : State) : Out :=
  let x := s.convSrc c a
  let r := roundNum (convTarget c) (s.rm rm) false x
  if c.dstX then .next (((s.setX d (BitVec.ofNat 64 r.1)).setFlags r.2).advance)
  else .next (((s.setF d (BitVec.ofNat 64 r.1)).setFlags (r.2.or { nv := x.isSig })).advance)

/-- The class bit of FCLASS (R119). -/
def classBit (f : FFmt) (x : Num) : Nat :=
  match x with
  | .nan sig => if sig then 8 else 9
  | .inf n => if n then 0 else 7
  | .fin n m _ =>
    if m = 0 then (if n then 3 else 4)
    else if m < 2 ^ (ffOf (ffmt f)).mbits then (if n then 2 else 5) else (if n then 1 else 6)

/-- FCLASS (R119). DEDUCED (log 63): of a signalling NaN too it sets no flag, as R119 says of FCLASS alone, against the general words of R118. -/
def execFclass (f : FFmt) (d a : Nat) (s : State) : Out :=
  .next ((s.setX d (BitVec.ofNat 64 (2 ^ classBit f (s.fnum f a)))).advance)

/-- FMOVX and FMOVF move raw bits (R121). -/
def execFmovx (f : FFmt) (d a : Nat) (s : State) : Out :=
  .next ((s.setX d (BitVec.ofNat 64 ((s.getF a).toNat % 2 ^ fmtWidth (ffmt f)))).advance)
def execFmovf (f : FFmt) (d a : Nat) (s : State) : Out :=
  .next ((s.setF d (BitVec.ofNat 64 (s.nx a % 2 ^ fmtWidth (ffmt f)))).advance)

end Sys2Proof.Machine
end

