-- ==== Sys2Proof/Machine/Immediate.lean ====
section
/-! DEFINITION. Immediate operations of major 0x18 (R115). -/

namespace Sys2Proof.Machine

/-- The sign-extended immediate as a source of a type: wrap(i, 64), then the type's low bits. -/
def immU (ty : IntTy) (imm : Nat) : Nat := zext (wrap (sext imm 32) 64) (tyWidth ty)

def execAddi (ty : IntTy) (d a imm : Nat) (s : State) : Out := .next (s.putInt ty d ((s.ux ty a + immU ty imm : Nat) : Int))
def execAndi (ty : IntTy) (d a imm : Nat) (s : State) : Out := .next (s.putInt ty d ((s.ux ty a &&& immU ty imm : Nat) : Int))
def execOri (ty : IntTy) (d a imm : Nat) (s : State) : Out := .next (s.putInt ty d ((s.ux ty a ||| immU ty imm : Nat) : Int))
def execXori (ty : IntTy) (d a imm : Nat) (s : State) : Out := .next (s.putInt ty d ((s.ux ty a ^^^ immU ty imm : Nat) : Int))
def execShli (ty : IntTy) (d a n : Nat) (s : State) : Out := .next (s.putInt ty d ((s.ux ty a * 2 ^ n : Nat) : Int))
def execShri (ty : IntTy) (d a n : Nat) (s : State) : Out := .next (s.putInt ty d ((s.ux ty a / 2 ^ n : Nat) : Int))
def execShai (ty : IntTy) (d a n : Nat) (s : State) : Out := .next (s.putInt ty d (s.sx ty a / 2 ^ n))
def execLi (d imm : Nat) (s : State) : Out := .next (s.putInt .x d (sext imm 32))
def execLui (d a imm : Nat) (s : State) : Out := .next (s.putInt .x d ((imm * 2 ^ 32 + bits (s.nx a) 31 0 : Nat) : Int))
def execBext (d a pos len : Nat) (s : State) : Out := .next (s.putInt .x d ((bits (s.nx a) (pos + len - 1) pos : Nat) : Int))

/-- BINS replaces len bits of x[d] from pos upward (R115). -/
def execBins (d a pos len : Nat) (s : State) : Out :=
  .next (s.putInt .x d ((s.nx d : Int) - (bits (s.nx d) (pos + len - 1) pos * 2 ^ pos : Nat) + (bits (s.nx a) (len - 1) 0 * 2 ^ pos : Nat)))

/-- DEMORTON extracts coordinate k (R115). -/
def execDemorton (three : Bool) (d a k : Nat) (s : State) : Out :=
  .next (s.putInt .x d ((if three then deinterleave 3 k (s.nx a) 21 else deinterleave 2 k (s.nx a) 32 : Nat) : Int))

end Sys2Proof.Machine
end

