-- ==== Sys2Proof/Machine/PatternInstr.lean ====
section
/-! DEFINITION. Pattern instructions of major 0x70 (R232, R233). -/

namespace Sys2Proof.Machine

/-- The space of PATLD. -/
def patSpace (sp : PatSpace) : Nat := match sp with | .g => 0 | .l => 1 | .s => 5

/-- PATLD is a plain load of 32 bytes into a pattern register (R232). -/
def execPatld (sp : PatSpace) (pd xs : Nat) (s : State) : Out :=
  let addr := s.nx xs
  if !aligned addr 32 then .next (s.trapNow 0x05 addr 0)
  else if !s.rangeOk s.cur.1 (patSpace sp) addr 32 then .next (s.trapNow 0x04 addr 0)
  else .next ((s.push { s.fresh .patld (patSpace sp) addr 32 with dst := .p pd }).advance)

/-- PATSET writes one part of a pattern register, field 6 a whole one (R233). -/
def execPatset (f : PatField) (pd src : Nat) (s : State) : Out :=
  let v := if f = .copy then (s.getP src).toNat else s.nx src
  .next ((s.setP pd (BitVec.ofNat 256 (patSet f (s.getP pd).toNat v))).advance)

/-- PATGET reads one part (R233). -/
def execPatget (f : PatField) (pa xd : Nat) (s : State) : Out :=
  .next ((s.setX xd (BitVec.ofNat 64 (patGet f (s.getP pa).toNat))).advance)

end Sys2Proof.Machine
end

