-- ==== Sys2Proof/Machine/Predicate.lean ====
section
/-! DEFINITION. Predicates of major 0x48 (R126). -/

namespace Sys2Proof.Machine

def execPset (r : Rel) (d a b : Nat) (s : State) : Out := .next ((s.setB d (relHolds r (s.getX a) (s.getX b))).advance)
def execPand (d a b : Nat) (s : State) : Out := .next ((s.setB d (s.getB a && s.getB b)).advance)
def execPor (d a b : Nat) (s : State) : Out := .next ((s.setB d (s.getB a || s.getB b)).advance)
def execPnot (d a : Nat) (s : State) : Out := .next ((s.setB d (!s.getB a)).advance)

end Sys2Proof.Machine
end

