-- ==== Sys2Proof/Machine/Special.lean ====
section
/-! DEFINITION. Special-register access of major 0x4C (R17 to R24, R127, R128). -/

namespace Sys2Proof.Machine

/-- The partition's ceiling of BUDGET (R20, R317); the default 96 before a scheduling record. -/
def State.budgetCeil (s : State) (p : Nat) : Nat := match (s.part p).sched with | some r => r.bceil | none => 96

/-- THROTTLE (R21, R348): HELD, CAP and the credits in flight; a credit that is back at the counter is in flight no more (R347). -/
def State.throttle (s : State) (t : Nat) : Nat :=
  let p := s.partId t
  let cr := s.credit (dieOf t) p
  let allots := ((s.part p).tiles.filter fun u => dieOf u == dieOf t).map fun u => (s.tile u).allot
  let flight := cr.cap - cr.free - cr.back.length - allots.sum - (cr.ports.map (·.2)).sum
  b2n (s.throttled t) * 2 ^ 16 + cr.cap % 256 * 2 ^ 8 + flight % 256

/-- The weight counted in the window that ends with the current cycle, with that of every context that issues in it (R20, R330). -/
def Tile.budgetUse (tl : Tile) : Nat := (tl.charges.take 32).sum + (tl.pledged.map (·.2)).sum

/-- BUDGET as a context reads it: the old value in the cycle in which another context writes it (R128). -/
def State.budgetOf (s : State) (t c : Nat) : Nat :=
  match (s.tile t).wrOld with
  | some o => if o.cycle = (s.die (dieOf t)).cycle ∧ o.ctx ≠ c then o.budget else (s.tile t).budget
  | none => (s.tile t).budget

/-- A write to a tile-wide register is about to be made: the values that other contexts read until the cycle ends (R128). -/
def State.keepOld (s : State) : State :=
  let now := (s.die (dieOf s.cur.1)).cycle
  s.modMyTile fun tl => if tl.wrOld.any fun o => o.cycle == now then tl
    else { tl with wrOld := some ⟨now, s.cur.2, tl.trapBase, tl.budget⟩ }

/-- The value of special register n for the issuing context (R17). -/
def State.special (s : State) (n : Nat) : Nat :=
  let c := s.me
  let tl := s.myTile
  match n with
  | 0x00 => s.cur.2
  | 0x01 => tl.vtile % 2 ^ 12 * 2 ^ 32 + labelOf s.cur.1
  | 0x02 => tl.vdie % 32 * 2 ^ 16 + dieOf s.cur.1
  | 0x03 => s.myPart
  | 0x04 => c.scope
  | 0x05 => c.prio
  | 0x06 => tl.grp
  | 0x07 => (s.trapBaseOf s.cur.1 s.cur.2).toNat
  | 0x08 => c.trapPc.toNat
  | 0x09 => c.trapCause.toNat
  | 0x0A => c.trapAddr.toNat
  | 0x0B => c.trapAux.toNat
  | 0x0C => c.quoteLim.toNat
  | 0x0D => s.budgetOf s.cur.1 s.cur.2
  | 0x0E => tl.budgetUse
  | 0x0F => s.throttle s.cur.1
  | 0x10 => (s.die (dieOf s.cur.1)).lclk
  | 0x11 => (s.die (dieOf s.cur.1)).cycle
  | 0x12 => c.regs.fmode.toNat
  | 0x13 => c.regs.lssum.toNat
  | _ => 0

/-- The width of special register n (R17). -/
def specialWidth (n : Nat) : Nat :=
  match n with
  | 0x00 => 3 | 0x01 => 44 | 0x02 => 21 | 0x03 => 6 | 0x04 => 32 | 0x05 => 5 | 0x06 => 36 | 0x09 => 8 | 0x0D => 9 | 0x0E => 9
  | 0x0F => 17 | 0x12 => 9 | 0x13 => 4 | _ => 64

/-- Read-only registers and trap-mode registers (R17). -/
def specialReadOnly (n : Nat) : Bool := decide (n ≤ 0x06) || (decide (0x0E ≤ n) && decide (n ≤ 0x11))
def specialTrapOnly (n : Nat) : Bool := decide (0x07 ≤ n) && decide (n ≤ 0x0B)

/-- RDS: the register, zero-extended from its width (R127). -/
def execRds (d n : Nat) (s : State) : Out := .next ((s.setX d (BitVec.ofNat 64 (zext (s.special n) (specialWidth n)))).advance)

/-- A special register takes a value (R127); FMODE keeps the flags of float instructions still in flight (R122), and a TRAPPC other than the header
of a block continuation discards the continuation (R186). -/
def State.putSpecial (s : State) (n : Nat) (v : Word) : State :=
  match n with
  | 0x07 => s.keepOld.modMyTile fun tl => { tl with trapBase := v }
  | 0x08 => (if s.me.cont.any fun h => h.2 != v.toNat then s.discardCont s.cur.1 s.cur.2 else s).modMe fun c => { c with trapPc := v }
  | 0x09 => s.modMe fun c => { c with trapCause := v.setWidth 8 }
  | 0x0A => s.modMe fun c => { c with trapAddr := v }
  | 0x0B => s.modMe fun c => { c with trapAux := v }
  | 0x0C => s.modMe fun c => { c with quoteLim := v }
  | 0x0D => s.keepOld.modMyTile fun tl => { tl with budget := Nat.min v.toNat (s.budgetCeil s.myPart) }
  | 0x12 => s.modMe fun c => { c with regs := { c.regs with fmode := v.setWidth 9 ||| s.flightFlags } }
  | 0x13 => s.modMe fun c => { c with regs := { c.regs with lssum := v.setWidth 4 } }
  | _ => s

/-- WRS (R17, R20, R23, R127): a protected register traps with cause 0x03, reserved bits of FMODE with cause 0x02, and nothing changes. DESIGN CHOICE
(log 65): TRAPADDR and TRAPAUX are 0. -/
def execWrs (n a : Nat) (s : State) : Out :=
  if specialReadOnly n || (specialTrapOnly n && !s.me.trap) then .next (s.trapNow 0x03 0 0)
  else if n = 0x12 && bits (s.nx a) 3 2 != 0 then .next (s.trapNow 0x02 0 0)
  else .next ((s.putSpecial n (s.getX a)).advance)

end Sys2Proof.Machine
end

