-- ==== Sys2Proof/Machine/Dispatch.lean ====
section
/-! DEFINITION. One arm per row of the opcode table. -/

namespace Sys2Proof.Machine

/-- The meaning of every instruction and hardware step. -/
def exec (i : Instr) (s : State) : Host.Outcome State Fault Refusal :=
  match i with
  | .add ty d a b => Sys2Proof.Machine.execAdd ty d a b s
  | .sub ty d a b => Sys2Proof.Machine.execSub ty d a b s
  | .mul ty d a b => Sys2Proof.Machine.execMul ty d a b s
  | .mulh ty d a b => Sys2Proof.Machine.execMulh ty d a b s
  | .mulhn ty d a b => Sys2Proof.Machine.execMulhn ty d a b s
  | .div ty d a b => Sys2Proof.Machine.execDiv ty d a b s
  | .divn ty d a b => Sys2Proof.Machine.execDivn ty d a b s
  | .rem ty d a b => Sys2Proof.Machine.execRem ty d a b s
  | .remn ty d a b => Sys2Proof.Machine.execRemn ty d a b s
  | .min ty d a b => Sys2Proof.Machine.execMin ty d a b s
  | .max ty d a b => Sys2Proof.Machine.execMax ty d a b s
  | .minn ty d a b => Sys2Proof.Machine.execMinn ty d a b s
  | .maxn ty d a b => Sys2Proof.Machine.execMaxn ty d a b s
  | .and ty d a b => Sys2Proof.Machine.execAnd ty d a b s
  | .or ty d a b => Sys2Proof.Machine.execOr ty d a b s
  | .xor ty d a b => Sys2Proof.Machine.execXor ty d a b s
  | .andn ty d a b => Sys2Proof.Machine.execAndn ty d a b s
  | .orn ty d a b => Sys2Proof.Machine.execOrn ty d a b s
  | .shl ty d a b => Sys2Proof.Machine.execShl ty d a b s
  | .shr ty d a b => Sys2Proof.Machine.execShr ty d a b s
  | .sha ty d a b => Sys2Proof.Machine.execSha ty d a b s
  | .cmpeq ty d a b => Sys2Proof.Machine.execCmpeq ty d a b s
  | .cmplt ty d a b => Sys2Proof.Machine.execCmplt ty d a b s
  | .cmpltn ty d a b => Sys2Proof.Machine.execCmpltn ty d a b s
  | .csel d a b c => Sys2Proof.Machine.execCsel d a b c s
  | .mov d a => Sys2Proof.Machine.execMov d a s
  | .clz ty d a => Sys2Proof.Machine.execClz ty d a s
  | .ctz ty d a => Sys2Proof.Machine.execCtz ty d a s
  | .popc ty d a => Sys2Proof.Machine.execPopc ty d a s
  | .sext w d a => Sys2Proof.Machine.execSext w d a s
  | .zext w d a => Sys2Proof.Machine.execZext w d a s
  | .addx shift d a b => Sys2Proof.Machine.execAddx shift d a b s
  | .morton three d a b c => Sys2Proof.Machine.execMorton three d a b c s
  | .addi ty d a imm => Sys2Proof.Machine.execAddi ty d a imm s
  | .andi ty d a imm => Sys2Proof.Machine.execAndi ty d a imm s
  | .ori ty d a imm => Sys2Proof.Machine.execOri ty d a imm s
  | .xori ty d a imm => Sys2Proof.Machine.execXori ty d a imm s
  | .shli ty d a n => Sys2Proof.Machine.execShli ty d a n s
  | .shri ty d a n => Sys2Proof.Machine.execShri ty d a n s
  | .shai ty d a n => Sys2Proof.Machine.execShai ty d a n s
  | .li d imm => Sys2Proof.Machine.execLi d imm s
  | .lui d a imm => Sys2Proof.Machine.execLui d a imm s
  | .bext d a pos len => Sys2Proof.Machine.execBext d a pos len s
  | .bins d a pos len => Sys2Proof.Machine.execBins d a pos len s
  | .demorton three d a k => Sys2Proof.Machine.execDemorton three d a k s
  | .fadd f rm d a b => Sys2Proof.Machine.execFadd f rm d a b s
  | .fsub f rm d a b => Sys2Proof.Machine.execFsub f rm d a b s
  | .fmul f rm d a b => Sys2Proof.Machine.execFmul f rm d a b s
  | .ffma f rm d a b c => Sys2Proof.Machine.execFfma f rm d a b c s
  | .fdiv f rm d a b => Sys2Proof.Machine.execFdiv f rm d a b s
  | .fsqrt f rm d a => Sys2Proof.Machine.execFsqrt f rm d a s
  | .fmin f d a b => Sys2Proof.Machine.execFmin f d a b s
  | .fmax f d a b => Sys2Proof.Machine.execFmax f d a b s
  | .fcmp f r d a b => Sys2Proof.Machine.execFcmp f r d a b s
  | .fcvt c rm d a => Sys2Proof.Machine.execFcvt c rm d a s
  | .fclass f d a => Sys2Proof.Machine.execFclass f d a s
  | .fmovx f d a => Sys2Proof.Machine.execFmovx f d a s
  | .fmovf f d a => Sys2Proof.Machine.execFmovf f d a s
  | .bc c woff => Sys2Proof.Machine.execBc c woff s
  | .jmp woff => Sys2Proof.Machine.execJmp woff s
  | .call link woff => Sys2Proof.Machine.execCall link woff s
  | .jmpx link a => Sys2Proof.Machine.execJmpx link a s
  | .ret a => Sys2Proof.Machine.execRet a s
  | .loop a woff => Sys2Proof.Machine.execLoop a woff s
  | .pset r d a b => Sys2Proof.Machine.execPset r d a b s
  | .pand d a b => Sys2Proof.Machine.execPand d a b s
  | .por d a b => Sys2Proof.Machine.execPor d a b s
  | .pnot d a => Sys2Proof.Machine.execPnot d a s
  | .rds d n => Sys2Proof.Machine.execRds d n s
  | .wrs n a => Sys2Proof.Machine.execWrs n a s
  | .ldg m => Sys2Proof.Machine.execLdg m s
  | .stg m => Sys2Proof.Machine.execStg m s
  | .amog m => Sys2Proof.Machine.execAmog m s
  | .ldl m => Sys2Proof.Machine.execLdl m s
  | .stl m => Sys2Proof.Machine.execStl m s
  | .amol m => Sys2Proof.Machine.execAmol m s
  | .stx m => Sys2Proof.Machine.execStx m s
  | .amox m => Sys2Proof.Machine.execAmox m s
  | .lda m => Sys2Proof.Machine.execLda m s
  | .sta m => Sys2Proof.Machine.execSta m s
  | .lds m => Sys2Proof.Machine.execLds m s
  | .sts m => Sys2Proof.Machine.execSts m s
  | .amos m => Sys2Proof.Machine.execAmos m s
  | .ldh m => Sys2Proof.Machine.execLdh m s
  | .sth m => Sys2Proof.Machine.execSth m s
  | .cadd loc d a b => Sys2Proof.Machine.execCadd loc d a b s
  | .cwait loc d a b => Sys2Proof.Machine.execCwait loc d a b s
  | .cread loc d a => Sys2Proof.Machine.execCread loc d a s
  | .fence sc k => Sys2Proof.Machine.execFence sc k s
  | .arrive d g => Sys2Proof.Machine.execArrive d g s
  | .wait d a g => Sys2Proof.Machine.execWait d a g s
  | .arrwait d g => Sys2Proof.Machine.execArrwait d g s
  | .gquery d g => Sys2Proof.Machine.execGquery d g s
  | .patld sp pd xs => Sys2Proof.Machine.execPatld sp pd xs s
  | .patset f pd src => Sys2Proof.Machine.execPatset f pd src s
  | .patget f pa xd => Sys2Proof.Machine.execPatget f pa xd s
  | .streamIn q => Sys2Proof.Machine.execStreamIn q s
  | .streamOut q => Sys2Proof.Machine.execStreamOut q s
  | .streamRec q => Sys2Proof.Machine.execStreamRec q s
  | .streamConst q => Sys2Proof.Machine.execStreamConst q s
  | .streamDrop q => Sys2Proof.Machine.execStreamDrop q s
  | .streamInd q => Sys2Proof.Machine.execStreamInd q s
  | .sbarRd q qd qmask => Sys2Proof.Machine.execSbarRd q qd qmask s
  | .sbarWr q qd qmask => Sys2Proof.Machine.execSbarWr q qd qmask s
  | .sbarAll q qd qmask => Sys2Proof.Machine.execSbarAll q qd qmask s
  | .scond q xt qd ctr csp inv skip => Sys2Proof.Machine.execScond q xt qd ctr csp inv skip s
  | .copy q => Sys2Proof.Machine.execCopy q s
  | .mcopy q => Sys2Proof.Machine.execMcopy q s
  | .rcopy q => Sys2Proof.Machine.execRcopy q s
  | .stitch q qd mask => Sys2Proof.Machine.execStitch q qd mask s
  | .qwait mask => Sys2Proof.Machine.execQwait mask s
  | .qstat q xd sel clr => Sys2Proof.Machine.execQstat q xd sel clr s
  | .spawn xr xst xq => Sys2Proof.Machine.execSpawn xr xst xq s
  | .spawnn xr xst xq count => Sys2Proof.Machine.execSpawnn xr xst xq count s
  | .launch xd xq => Sys2Proof.Machine.execLaunch xd xq s
  | .cancel xs xa xq => Sys2Proof.Machine.execCancel xs xa xq s
  | .yield => Sys2Proof.Machine.execYield s
  | .exit loc a b => Sys2Proof.Machine.execExit loc a b s
  | .scopeSet d p c => Sys2Proof.Machine.execScopeSet d p c s
  | .scopeSplit d p c => Sys2Proof.Machine.execScopeSplit d p c s
  | .chkc => Sys2Proof.Machine.execChkc s
  | .squery d a => Sys2Proof.Machine.execSquery d a s
  | .trap a n => Sys2Proof.Machine.execTrap a n s
  | .tret => Sys2Proof.Machine.execTret s
  | .tretN => Sys2Proof.Machine.execTretN s
  | .prio reg v => Sys2Proof.Machine.execPrio reg v s
  | .mtrd d m => Sys2Proof.Machine.execMtrd d m s
  | .halt code => Sys2Proof.Machine.execHalt code s
  | .nop => Sys2Proof.Machine.execNop s
  | .blockMWs b => Sys2Proof.Machine.execBlockMWs b s
  | .blockMOs b => Sys2Proof.Machine.execBlockMOs b s
  | .blockE b => Sys2Proof.Machine.execBlockE b s
  | .blockA b => Sys2Proof.Machine.execBlockA b s
  | .blockS b => Sys2Proof.Machine.execBlockS b s
  | .blockZ b => Sys2Proof.Machine.execBlockZ b s
  | .blockG b => Sys2Proof.Machine.execBlockG b s
  | .cfgld qmask folio => Sys2Proof.Machine.execCfgld qmask folio s
  | .cfgsw qmask => Sys2Proof.Machine.execCfgsw qmask s
  | .bdrain qmask => Sys2Proof.Machine.execBdrain qmask s
  | .bstat d qmask sel => Sys2Proof.Machine.execBstat d qmask sel s
  | .spine qmask win acc => Sys2Proof.Machine.execSpine qmask win acc s
  | .accrd qmask ep clr rm sat => Sys2Proof.Machine.execAccrd qmask ep clr rm sat s
  | .accclr qmask => Sys2Proof.Machine.execAccclr qmask s
  | .fetchFault t c => Sys2Proof.Machine.execFetchFault t c s
  | .deferredTrap t c => Sys2Proof.Machine.execDeferredTrap t c s
  | .loadResultReturn t c id => Sys2Proof.Machine.execLoadResultReturn t c id s
  | .ldhTimeout t c id => Sys2Proof.Machine.execLdhTimeout t c id s
  | .contextWake t c => Sys2Proof.Machine.execContextWake t c s
  | .taskBind t => Sys2Proof.Machine.execTaskBind t s
  | .taskPublicationArrival n => Sys2Proof.Machine.execTaskPublicationArrival n s
  | .dependenceCheck t => Sys2Proof.Machine.execDependenceCheck t s
  | .copyStart t q => Sys2Proof.Machine.execCopyStart t q s
  | .copyBeat t q => Sys2Proof.Machine.execCopyBeat t q s
  | .transferRetire t q => Sys2Proof.Machine.execTransferRetire t q s
  | .streamDispatch t q => Sys2Proof.Machine.execStreamDispatch t q s
  | .streamBeat t q id => Sys2Proof.Machine.execStreamBeat t q id s
  | .gatePass t q => Sys2Proof.Machine.execGatePass t q s
  | .counterContributionFlit t => Sys2Proof.Machine.execCounterContributionFlit t s
  | .blockRunStart t => Sys2Proof.Machine.execBlockRunStart t s
  | .folioLoadComplete t qmask => Sys2Proof.Machine.execFolioLoadComplete t qmask s
  | .switchSweepComplete t qmask => Sys2Proof.Machine.execSwitchSweepComplete t qmask s
  | .blockBeat t qmask => Sys2Proof.Machine.execBlockBeat t qmask s
  | .instanceComplete t qmask => Sys2Proof.Machine.execInstanceComplete t qmask s
  | .scanOutComplete t qmask => Sys2Proof.Machine.execScanOutComplete t qmask s
  | .elementCycle t => Sys2Proof.Machine.execElementCycle t s
  | .memoryNodeComplete t id => Sys2Proof.Machine.execMemoryNodeComplete t id s
  | .activeMessageArrival t => Sys2Proof.Machine.execActiveMessageArrival t s
  | .networkCycle die => Sys2Proof.Machine.execNetworkCycle die s
  | .ageTick die => Sys2Proof.Machine.execAgeTick die s
  | .creditDraw die part point => Sys2Proof.Machine.execCreditDraw die part point s
  | .creditReturn die part => Sys2Proof.Machine.execCreditReturn die part s
  | .crossbarCrossing die n => Sys2Proof.Machine.execCrossbarCrossing die n s
  | .remoteStoreApply t => Sys2Proof.Machine.execRemoteStoreApply t s
  | .remoteAtomicApply t => Sys2Proof.Machine.execRemoteAtomicApply t s
  | .acknowledgementReceipt t => Sys2Proof.Machine.execAcknowledgementReceipt t s
  | .gatherFlitArrival t => Sys2Proof.Machine.execGatherFlitArrival t s
  | .windowUpdateReceipt t => Sys2Proof.Machine.execWindowUpdateReceipt t s
  | .streamEndReceipt t => Sys2Proof.Machine.execStreamEndReceipt t s
  | .poisonFillTimeout t port => Sys2Proof.Machine.execPoisonFillTimeout t port s
  | .drainTokenArrival part n => Sys2Proof.Machine.execDrainTokenArrival part n s
  | .memoryAccessAtHome t c id hostError => Sys2Proof.Machine.execMemoryAccessAtHome t c id hostError s
  | .barrierArrivalAtHome n => Sys2Proof.Machine.execBarrierArrivalAtHome n s
  | .barrierReleaseArrival n => Sys2Proof.Machine.execBarrierReleaseArrival n s
  | .cancelRegistration no t => Sys2Proof.Machine.execCancelRegistration no t s
  | .taskKill t c => Sys2Proof.Machine.execTaskKill t c s
  | .trapModeKillTimeout t c => Sys2Proof.Machine.execTrapModeKillTimeout t c s
  | .cancelTileReport no t => Sys2Proof.Machine.execCancelTileReport no t s
  | .cancelAckWrite no => Sys2Proof.Machine.execCancelAckWrite no s
  | .preemptHoldRequest t => Sys2Proof.Machine.execPreemptHoldRequest t s
  | .preemptSwitchRequest t => Sys2Proof.Machine.execPreemptSwitchRequest t s
  | .resumeRequest part => Sys2Proof.Machine.execResumeRequest part s
  | .stateSaveComplete part => Sys2Proof.Machine.execStateSaveComplete part s
  | .restoreComplete part => Sys2Proof.Machine.execRestoreComplete part s
  | .sliceExpiry part => Sys2Proof.Machine.execSliceExpiry part s
  | .deadlinePreemption part => Sys2Proof.Machine.execDeadlinePreemption part s
  | .launchWindowWrite part desc => Sys2Proof.Machine.execLaunchWindowWrite part desc s
  | .partialWindowWrite part => Sys2Proof.Machine.execPartialWindowWrite part s
  | .launchPacket packet => Sys2Proof.Machine.execLaunchPacket packet s
  | .loaderPlacement lid => Sys2Proof.Machine.execLoaderPlacement lid s
  | .launchEnd lid => Sys2Proof.Machine.execLaunchEnd lid s
  | .mapRequestMap part req => Sys2Proof.Machine.execMapRequestMap part req s
  | .mapRequestUnmap part req => Sys2Proof.Machine.execMapRequestUnmap part req s
  | .mapRequestProtect part req => Sys2Proof.Machine.execMapRequestProtect part req s
  | .mapRequestMigrate part req => Sys2Proof.Machine.execMapRequestMigrate part req s
  | .mapRequestOrder part req => Sys2Proof.Machine.execMapRequestOrder part req s
  | .invalidationComplete part => Sys2Proof.Machine.execInvalidationComplete part s
  | .migrationSpliceBeat part => Sys2Proof.Machine.execMigrationSpliceBeat part s
  | .migrationRedirect part => Sys2Proof.Machine.execMigrationRedirect part s
  | .migrationDone part => Sys2Proof.Machine.execMigrationDone part s
  | .ctrlSuspend part => Sys2Proof.Machine.execCtrlSuspend part s
  | .ctrlResume part => Sys2Proof.Machine.execCtrlResume part s
  | .routerStatusWrite part k => Sys2Proof.Machine.execRouterStatusWrite part k s
  | .registerWrite part off val => Sys2Proof.Machine.execRegisterWrite part off val s
  | .linkTransferWrite part req => Sys2Proof.Machine.execLinkTransferWrite part req s
  | .linkTransferRead part req => Sys2Proof.Machine.execLinkTransferRead part req s
  | .hostWriteTlp part pa bytes ep => Sys2Proof.Machine.execHostWriteTlp part pa bytes ep s
  | .hostReadTlp part pa n => Sys2Proof.Machine.execHostReadTlp part pa n s
  | .cxlReadReturn t c id poisoned => Sys2Proof.Machine.execCxlReadReturn t c id poisoned s
  | .d2dFrameReceipt link toHigh => Sys2Proof.Machine.execD2dFrameReceipt link toHigh s
  | .frameReplay link toHigh => Sys2Proof.Machine.execFrameReplay link toHigh s
  | .linkDown link => Sys2Proof.Machine.execLinkDown link s
  | .quoteExpiryCompletion t q id => Sys2Proof.Machine.execQuoteExpiryCompletion t q id s
  | .flushMarkerReturn link => Sys2Proof.Machine.execFlushMarkerReturn link s
  | .meterFold => Sys2Proof.Machine.execMeterFold s
  | .submitConfiguration record sig key newKey => Sys2Proof.Machine.execSubmitConfiguration record sig key newKey s
  | .submitSparing kind die unit index fence => Sys2Proof.Machine.execSubmitSparing kind die unit index fence s
  | .submitSchedulingRecord part rec => Sys2Proof.Machine.execSubmitSchedulingRecord part rec s
  | .partitionControl part op => Sys2Proof.Machine.execPartitionControl part op s
  | .dieReset die => Sys2Proof.Machine.execDieReset die s
  | .retrainLink link => Sys2Proof.Machine.execRetrainLink link s
  | .readRouterStatus t => Sys2Proof.Machine.execReadRouterStatus t s
  | .checkpoint => Sys2Proof.Machine.execCheckpoint s
  | .readErrorLog => Sys2Proof.Machine.execReadErrorLog s
  | .selfTest n pass => Sys2Proof.Machine.execSelfTest n pass s
  | .hbmScrub stack sector => Sys2Proof.Machine.execHbmScrub stack sector s
  | .powerOn => Sys2Proof.Machine.execPowerOn s
  | .temperatureWarning die => Sys2Proof.Machine.execTemperatureWarning die s
  | .temperatureShutdown die => Sys2Proof.Machine.execTemperatureShutdown die s
  | .clockCycle die => Sys2Proof.Machine.execClockCycle die s
  | .arrivalAnswer t c => Sys2Proof.Machine.execArrivalAnswer t c s
  | .peerLinkTransfer peer ppart dirRead part rva len data => Sys2Proof.Machine.execPeerLinkTransfer peer ppart dirRead part rva len data s
  | .zeroLengthReadCompletion t c => Sys2Proof.Machine.execZeroLengthReadCompletion t c s
  | .getVersion r => Sys2Proof.Machine.execGetVersion r s
  | .getCapabilities r => Sys2Proof.Machine.execGetCapabilities r s
  | .negotiateAlgorithms r offer => Sys2Proof.Machine.execNegotiateAlgorithms r offer s
  | .getDigests r => Sys2Proof.Machine.execGetDigests r s
  | .getCertificate r => Sys2Proof.Machine.execGetCertificate r s
  | .challenge r nonce => Sys2Proof.Machine.execChallenge r nonce s
  | .getMeasurements r index => Sys2Proof.Machine.execGetMeasurements r index s
  | .keyExchange r keyHash share => Sys2Proof.Machine.execKeyExchange r keyHash share s
  | .finish r proof => Sys2Proof.Machine.execFinish r proof s
  | .endSession r => Sys2Proof.Machine.execEndSession r s
  | .getcolo r part nonce => Sys2Proof.Machine.execGetcolo r part nonce s
  | .setcaps r part caps => Sys2Proof.Machine.execSetcaps r part caps s
  | .getcaps r part => Sys2Proof.Machine.execGetcaps r part s

end Sys2Proof.Machine
end

