-- ==== Sys2Proof/Machine/Step.lean ====
section
/-! DEFINITION. One step of the module: the next act of the agenda, or the clock of the next die (log 3). -/

namespace Sys2Proof.Machine

/-- The die whose clock is behind: the least CYCLE, the lowest die among equals (log 3). -/
def State.nextClock (s : State) : Nat :=
  (bestOf (fun a b => decide ((s.die a).cycle < (s.die b).cycle)) (List.range 28)).getD 0

/-- The issue slot of the context `cur` (R16, R76, R124, R266, R271, R330): a kill, a deferred trap, a fetch fault, an encoding trap, a stall,
or the
instruction at the pc, which is charged. -/
def issueSlot (s : State) : Host.Outcome State Fault Refusal :=
  let t := s.cur.1
  let c := s.cur.2
  if !s.me.canIssue then .next s
  else if s.killDue t c then exec (.taskKill t c) s
  else if s.me.trapDue then exec (.deferredTrap t c) s
  else match s.fetch t c with
    | .fault _ _ => exec (.fetchFault t c) s
    | .stall => .next s
    | .bad cause addr word => .next (s.issued.trapNow cause addr word)
    | .instr i => if s.stalled i then .next s else exec i (s.issued.chargeIssue i)

/-- One act. An unpowered module takes no act but POWER_ON (R392). -/
def act (a : Act) (s : State) : Host.Outcome State Fault Refusal :=
  match a with
  | .event i => if s.powered || i == .powerOn then exec i s else .fault .noPower
  | .issue t c => if s.powered then issueSlot { s with cur := (t, c) } else .fault .noPower

/-- One step of the module. -/
def step (s : State) : Host.Outcome State Fault Refusal :=
  match s.agenda with
  | [] => act (.event (.clockCycle s.nextClock)) s
  | a :: rest => act a { s with agenda := rest }

/-- A task that stands for one that the loader or a spawn has bound (log 10). -/
def Task.placed (lid : Nat) : Task :=
  { addr := 0, scope := 0xFFFF, pri := 0, entry := 0, arg := 0, vtile := 0, groups := [], depAddr := 0, depTgt := 0, lid := lid,
    depWarned := false, arrived := [], saved := none, lastPc := none }

/-- s with an instruction at the pc of context `cur`, that context running a task and next to issue (log 10). -/
def State.withFetchWord (s : State) (nbits w : Nat) : State :=
  let words := tableWords (w % 2 ^ nbits)
  let s := s.modMyTile fun tl => { tl with store := tl.store.writeList s.pc.toNat (words.flatMap fun v => toBytes v 8) }
  let s := s.modMe fun c =>
    { c with task := some (c.task.getD (Task.placed s.myLid)), halted := false, wait := none, arriving := none, deferred := [] }
  { s with agenda := [.issue s.cur.1 s.cur.2], powered := true }

end Sys2Proof.Machine
end

