-- ==== Sys2Proof/Safety.lean ====
section
/-! DEFINITION. What claims are stated in: the canonical form of the memories, a step that answers a next state, what a frame says, and the
results of the scalar instructions over bit vectors (R113, R114, R115), written apart from the meanings. -/

namespace Sys2Proof.Machine

/-! Memories. -/

/-- The bytes of a tile are in canonical form. -/
def Tile.bytesWf (tl : Tile) : Bool := tl.store.wf && cellsWf tl.acc

/-- The save area of a partition holds tiles whose bytes are in canonical form. -/
def Partition.bytesWf (p : Partition) : Bool := p.saved.all fun e => e.2.bytesWf

/-- A checkpoint's bytes are in canonical form. -/
def Snapshot.bytesWf (k : Snapshot) : Bool := k.dev.wf && k.parts.all fun e => e.2.bytesWf

/-- Every byte store of the module, save areas and the checkpoint included, is in canonical form: addresses strictly rising, no listed byte
equal to what an unlisted address reads as. -/
def Memory.wf (s : State) : Bool :=
  s.dev.wf && s.tiles.all (fun e => e.2.bytesWf) && s.dies.all (fun e => e.2.staging.wf) && s.host.all (fun e => e.2.wf)
    && s.parts.all (fun e => e.2.bytesWf) && (match s.clasp.image with | some k => k.bytesWf | none => true)

/-- A step of the module answers a next state. -/
def State.Goes (s s' : State) : Prop := step s = .next s'

/-! Frames. -/

/-- Nothing but the issuing context differs. -/
def State.OnlyMe (s t : State) : Prop := t = s.modMe fun _ => t.me

/-- No byte of any memory differs. -/
def State.SameMemory (s t : State) : Prop := ∀ h : Home, t.readHome h 1 = s.readHome h 1

/-- Nothing differs but what the memory edge and its way keep: its cache, stamps and links, a page that is spliced, rings, meters, Clasp's log and
the number of the reserve tier's next answer (R302, R309, R310, R367, R380, R381). -/
def State.EdgeOnly (s t : State) : Prop :=
  t = { s with dev := t.dev, host := t.host, parts := t.parts, dies := t.dies, links := t.links, clasp := t.clasp, free := t.free }

/-- The SPDM responder answers, and nothing outside Clasp differs. -/
def State.Answered (s t : State) (what : String) (vals : List Nat) : Prop :=
  t.clasp.sent = s.clasp.sent ++ [⟨"spdm", what, vals⟩] ∧ { t with clasp := s.clasp } = s

/-- No special register of R17 reads differently, FMODE set apart when `fm` holds. -/
def State.SameSpecials (s t : State) (fm : Bool) : Prop := ∀ n, (fm = true → n ≠ 0x12) → t.special n = s.special n

/-- The frame of an instruction that writes registers only: nothing outside the issuing context changes, of the context only its registers,
and of these only those that the four predicates let go, the pc, and FMODE with the flags in flight when `fm` holds. -/
structure State.Frame (s t : State) (x f b p : Nat → Prop) (fm : Bool) : Prop where
  only : s.OnlyMe t
  rest : t.me = { s.me with regs := t.me.regs, fflight := if fm then t.me.fflight else s.me.fflight }
  memory : s.SameMemory t
  x : ∀ r, ¬ x r → t.getX r = s.getX r
  f : ∀ r, ¬ f r → t.getF r = s.getF r
  b : ∀ r, ¬ b r → t.getB r = s.getB r
  p : ∀ r, ¬ p r → t.getP r = s.getP r
  specials : s.SameSpecials t fm
  spine : t.me.regs.spineWin = s.me.regs.spineWin ∧ t.me.regs.spineAcc = s.me.regs.spineAcc

/-- No register. -/
def noReg (_ : Nat) : Prop := False

/-! Results of scalar instructions over bit vectors. -/

/-- A typed result (R113): in 64 bits for type .x; for .w and .wn in 32 bits, sign-extended or zero-extended. -/
def typed (ty : IntTy) (f : (w : Nat) → BitVec w → BitVec w → BitVec w) (a b : Word) : Word :=
  match ty with
  | .x => f 64 a b
  | .w => (f 32 (a.setWidth 32) (b.setWidth 32)).signExtend 64
  | .wn => (f 32 (a.setWidth 32) (b.setWidth 32)).setWidth 64

/-- x[d] takes a typed result of x[a] and x[b], and the pc moves past the word. -/
def State.typed2 (s : State) (ty : IntTy) (d a b : Nat) (f : (w : Nat) → BitVec w → BitVec w → BitVec w) : State :=
  (s.setX d (typed ty f (s.getX a) (s.getX b))).advance

/-- The immediate of 32 bits as a register's value (R115). -/
def immWord (imm : Nat) : Word := (BitVec.ofNat 32 imm).signExtend 64

/-- x[d] takes a typed result of x[a] and the immediate. -/
def State.typedImm (s : State) (ty : IntTy) (d a imm : Nat) (f : (w : Nat) → BitVec w → BitVec w → BitVec w) : State :=
  (s.setX d (typed ty f (s.getX a) (immWord imm))).advance

/-- x[d] takes a typed result of x[a] alone. -/
def State.typed1 (s : State) (ty : IntTy) (d a : Nat) (f : (w : Nat) → BitVec w → BitVec w) : State :=
  (s.setX d (typed ty (fun w x _ => f w x) (s.getX a) 0)).advance

/-- A truth value as a number. -/
def flagBit (w : Nat) (b : Bool) : BitVec w := if b then 1#w else 0#w

/-- Bit j of the Morton code of 2 or 3 coordinates (R32, R114). -/
def mortonBit (three : Bool) (a b c : Word) (j : Nat) : Bool :=
  if three then decide (j < 63) && (if j % 3 = 0 then a else if j % 3 = 1 then b else c).getLsbD (j / 3)
  else (if j % 2 = 0 then a else b).getLsbD (j / 2)

/-- The relations of R83 over bit vectors. -/
def relBits (r : Rel) (a b : Word) : Bool :=
  match r with
  | .eq => decide (a = b)
  | .ne => decide (a ≠ b)
  | .lt => a.slt b
  | .ge => !a.slt b
  | .ltn => a.ult b
  | .gen => !a.ult b

/-- The target of a branch (R123). -/
def State.branchTo (s : State) (woff : Nat) : Word := s.pc + (immWord woff) <<< 3

/-- x[d] of the instructions that write one x register and nothing else (R113 to R115, R119, R121, R127, R195, R233, R262). -/
def xDest : Instr → Option Nat
  | .add _ d _ _ | .sub _ d _ _ | .mul _ d _ _ | .mulh _ d _ _ | .mulhn _ d _ _ | .div _ d _ _ | .divn _ d _ _ | .rem _ d _ _
  | .remn _ d _ _ | .min _ d _ _ | .max _ d _ _ | .minn _ d _ _ | .maxn _ d _ _ | .and _ d _ _ | .or _ d _ _ | .xor _ d _ _
  | .andn _ d _ _ | .orn _ d _ _ | .shl _ d _ _ | .shr _ d _ _ | .sha _ d _ _ | .cmpeq _ d _ _ | .cmplt _ d _ _ | .cmpltn _ d _ _
  | .addx _ d _ _ | .csel d _ _ _ | .morton _ d _ _ _ | .mov d _ | .clz _ d _ | .ctz _ d _ | .popc _ d _ | .sext _ d _ | .zext _ d _
  | .addi _ d _ _ | .andi _ d _ _ | .ori _ d _ _ | .xori _ d _ _ | .shli _ d _ _ | .shri _ d _ _ | .shai _ d _ _ | .li d _ | .lui d _ _
  | .bext d _ _ _ | .bins d _ _ _ | .demorton _ d _ _ | .fclass _ d _ | .fmovx _ d _ | .rds d _ | .bstat d _ _ | .patget _ _ d
  | .squery d _ => some d
  | _ => none

/-- f[d] of the float instructions that write an f register and flags (R118, R119, R120). -/
def fDest : Instr → Option Nat
  | .fadd _ _ d _ _ | .fsub _ _ d _ _ | .fmul _ _ d _ _ | .ffma _ _ d _ _ _ | .fdiv _ _ d _ _ | .fsqrt _ _ d _ | .fmin _ d _ _
  | .fmax _ d _ _ => some d
  | .fcvt c _ d _ => if c.dstX then none else some d
  | _ => none

/-- x[d] of the float instructions that write an x register and flags (R119, R120). -/
def fxDest : Instr → Option Nat
  | .fcmp _ _ d _ _ => some d
  | .fcvt c _ d _ => if c.dstX then some d else none
  | _ => none

/-! Traps. -/

/-- The issuing context is outside trap mode and the TRAPBASE it reads (R128) is an address that R15 accepts. -/
def State.CanTrap (s : State) : Prop :=
  s.me.trap = false ∧ (s.trapBaseOf s.cur.1 s.cur.2).toNat % 8 = 0 ∧ (s.trapBaseOf s.cur.1 s.cur.2).toNat < 0x300000

/-- The issuing context has entered a trap (R272). -/
def State.entered (s : State) (cause addr aux : Nat) : State :=
  s.modMe fun c => { c with
    trap := true, trapCause := BitVec.ofNat 8 cause, trapAddr := BitVec.ofNat 64 addr, trapAux := BitVec.ofNat 64 aux, trapPc := s.pc,
    wait := none, regs := { c.regs with pc := s.trapBaseOf s.cur.1 s.cur.2 } }

/-- The same of any context of a tile, and its entry. -/
def State.CtxCanTrap (s : State) (t c : Nat) : Prop :=
  (s.ctx t c).trap = false ∧ (s.trapBaseOf t c).toNat % 8 = 0 ∧ (s.trapBaseOf t c).toNat < 0x300000
def State.enteredAt (s : State) (t c cause addr aux pc : Nat) : State :=
  s.modCtx t c fun x => { x with
    trap := true, trapCause := BitVec.ofNat 8 cause, trapAddr := BitVec.ofNat 64 addr, trapAux := BitVec.ofNat 64 aux,
    trapPc := BitVec.ofNat 64 pc, wait := none, regs := { x.regs with pc := s.trapBaseOf t c } }

/-- No kill takes the issuing context when it reaches a waiting instruction (R267). -/
def State.Spared (s : State) : Prop := s.me.trap = false ∨ s.condemned s.cur.1 s.cur.2 = false

/-- No other context has written a tile-wide register of the issuing tile in this cycle (R128). -/
def State.AloneWriting (s : State) : Prop :=
  ∀ o, s.myTile.wrOld = some o → o.cycle = (s.die (dieOf s.cur.1)).cycle → o.ctx = s.cur.2

/-! Memory. -/

/-- The loads with their spaces, and the stores with theirs (R135, R137, R138, R141). -/
def loadsOf (m : MemArgs) : List (Nat × Instr) := [(0, .ldg m), (1, .ldl m), (3, .lda m), (4, .ldh m), (5, .lds m)]
def storesOf (m : MemArgs) : List (Nat × Instr) := [(0, .stg m), (1, .stl m), (3, .sta m), (4, .sth m), (5, .sts m)]
def atomicsOf (m : AmoArgs) : List (Nat × Instr) := [(0, .amog m), (1, .amol m), (5, .amos m)]

/-- The byte address in a home, and the same memory at another address. -/
def Home.off (h : Home) : Nat := match h with | .dev a => a | .tile _ a => a | .acc _ a => a | .staging _ a => a | .host _ a => a | .lost a => a
def Home.at (h : Home) (k : Nat) : Home :=
  match h with | .dev _ => .dev k | .tile t _ => .tile t k | .acc t _ => .acc t k | .staging d _ => .staging d k | .host p _ => .host p k | .lost _ => .lost k
/-- The home lies in accumulator memory, whose nodes keep only the bytes of their format (R137). -/
def Home.isAcc (h : Home) : Bool := match h with | .acc .. => true | _ => false

/-- The home lies in no granule of the partition (R298, R380). -/
def Home.isLost (h : Home) : Bool := match h with | .lost _ => true | _ => false

/-- The home is not behind a memory edge's way to device or host memory. -/
def Home.isOnTile (h : Home) : Bool := match h with | .tile .. | .acc .. | .staging .. => true | _ => false

/-- An access that has no home yet meets no cached entry that denies it and that a fresh walk would overrule (R302, R304). -/
def State.CacheAgrees (s : State) (t : Nat) (a : Access) : Prop :=
  a.home = none → a.space = 0 → ∀ e, s.cached (dieOf t) (s.partId t) a.addr = some e → e.grants a.reads (a.kind == .amo || a.kind == .cadd) = true

/-- The instructions that read a record of space 0 in the step that executes them (R146, R255, R258). -/
def readsRecord : Instr → Bool
  | .spawn .. | .spawnn .. | .launch .. | .cwait false .. => true
  | _ => false

/-- Byte k of a value, least significant first (R5). -/
def byteOf (v k : Nat) : Nat := v / 256 ^ k % 256

/-- After a write of n bytes of v at a home, of memory that is no accumulator memory: those bytes hold v, every other byte is as before. -/
def State.Wrote (s t : State) (h : Home) (n v : Nat) : Prop :=
  (∀ k, t.readHome (h.at k) 1 = if h.off ≤ k ∧ k < h.off + n then byteOf v (k - h.off) else s.readHome (h.at k) 1)
    ∧ ∀ g : Home, g.at 0 ≠ h.at 0 → t.readHome g 1 = s.readHome g 1

/-- The new value of an atomic over bit vectors (R142): `e` is the expected value of cas. -/
def atomicBits {w : Nat} (op : AmoOp) (old a e : BitVec w) : BitVec w :=
  match op with
  | .add => old + a
  | .and => old &&& a
  | .or => old ||| a
  | .xor => old ^^^ a
  | .swap => a
  | .cas => if old = e then a else old
  | .mini => if a.slt old then a else old
  | .maxi => if old.slt a then a else old
  | .minn => if a.ult old then a else old
  | .maxn => if old.ult a then a else old

/-- The instructions that issue an access whose result, if any, comes later (R133). -/
def issuesAccess : Instr → Bool
  | .ldg _ | .ldl _ | .lda _ | .lds _ | .ldh _ | .stg _ | .stl _ | .sta _ | .sts _ | .sth _ | .stx _ | .amog _ | .amol _ | .amos _
  | .amox _ | .cadd .. | .cread .. | .gquery .. | .patld .. | .mtrd .. | .fence .. => true
  | _ => false

/-- Nothing but the issuing tile differs, and of it no other context. -/
def State.OnlyMyTile (s t : State) : Prop :=
  t = { s with tiles := t.tiles } ∧ (∀ u, u ≠ s.cur.1 → t.tile u = s.tile u) ∧ ∀ c, c ≠ s.cur.2 → t.ctx s.cur.1 c = s.ctx s.cur.1 c

/-- Every register of the issuing context except the pc, and every special register, is as before. -/
def State.SameRegisters (s t : State) : Prop :=
  (∀ r, t.getX r = s.getX r ∧ t.getF r = s.getF r ∧ t.getB r = s.getB r ∧ t.getP r = s.getP r) ∧ s.SameSpecials t false

/-- Fields of a pattern register by PATSET and PATGET: lowest bit and length (R233). -/
def patBits : PatField → Nat × Nat
  | .base => (0, 64) | .ctrl => (64, 16) | .d0 => (80, 44) | .d1 => (124, 44) | .d2 => (168, 44) | .d3 => (212, 44)
  | .copy => (0, 256) | .add => (0, 64)

/-- The quote of a command whose service time is n: its bound, at most 2^64 - 2 (R41, R228). -/
def State.quoteOf (s : State) (q : Nat) (e : QEntry) (n : Nat) : Nat := min (s.myTile.bound q e n (s.trackersHeld e)) (2 ^ 64 - 2)
/-- QUOTELIM lets a quote pass (R41). -/
def State.within (s : State) (k : Nat) : Prop := s.me.quoteLim = 0 ∨ k ≤ s.me.quoteLim.toNat
/-- A command of service time n has entered its queue, its quote is in x[qd], and the pc has moved on. -/
def State.queued (s : State) (q qd : Nat) (e : QEntry) (n : Nat) : State :=
  ((s.enter_ q e (s.quoteOf q e n)).setX qd (BitVec.ofNat 64 (s.quoteOf q e n))).advance
/-- A stream command passes its checks and its quote passes QUOTELIM. -/
def State.StreamPasses (s : State) (k : QKind) (q : QArgs) (n : Nat) : Prop :=
  s.streamFault (s.streamEntry k q) q.pa q.pb = none ∧ s.streamTime (s.streamEntry k q) = some n ∧ s.within (s.quoteOf q.queue (s.streamEntry k q) n)
/-- A copy command whose group has these members passes its checks and its quote passes QUOTELIM. -/
def State.CopyPasses (s : State) (k : QKind) (q : QArgs) (g : List Nat) (n : Nat) : Prop :=
  let e := s.copyEntry k q g
  s.copyFault e q.pa q.pb q.aux true = none ∧ s.hostRefused [e.patA, e.patB] = false ∧ s.copyTime e = some n ∧ s.within (s.quoteOf q.queue e n)

/-- A pattern that the first row of R248 refuses: reserved bits, a reserved format, a layout with too few dimensions, a fault of R51. -/
def Pat.Refused (p : Pat) : Prop :=
  p.resv ≠ 0 ∨ 0x1E ≤ p.fmt ∨ (p.layout = 1 ∧ p.dims < 1) ∨ (p.layout = 2 ∧ p.dims < 2)
    ∨ (p.layout = 3 ∧ (p.nval ∉ [2, 4, 8] ∨ p.width % 8 ≠ 0 ∨ isBlockFmt p.fmt = true ∨ sigBits p.fmt = none))

/-- A check of R248: what fails, with the cause, TRAPADDR and TRAPAUX of its trap. -/
abbrev IssueCheck := Prop × Nat × Nat × Nat
/-- The first check of a list that fails, with its trap; no check fails. -/
def FirstFails (l : List IssueCheck) (f : Nat × Nat × Nat) : Prop := ∃ pre c post, l = pre ++ (c, f) :: post ∧ c ∧ ∀ x ∈ pre, ¬ x.1
def PassAll (l : List IssueCheck) : Prop := ∀ x ∈ l, ¬ x.1

/-- The checks on a counter record (R248). -/
def State.ctrChecks (s : State) (ctr : Option (Nat × Nat)) : List IssueCheck :=
  match ctr with
  | none => []
  | some (sp, a) => [
      (a % 16 ≠ 0, 0x05, a, 0), (s.rangeOk s.cur.1 sp a 16 = false, 0x04, a, 0),
      (∃ aux, s.resolve s.cur.1 sp a 16 true true = .error (0x06, aux), 0x06, a, 0)]

/-- The checks of a stream command in the order of R248 (R234 to R236). -/
def State.streamChecks (s : State) (k : QKind) (q : QArgs) : List IssueCheck :=
  let a := patOf (s.getP q.pa).toNat
  let b := patOf (s.getP q.pb).toNat
  let mem := k ∈ [QKind.sIn, .sOut, .sInd]
  let ind := k = QKind.sInd
  [(a.Refused ∨ (¬ mem ∧ a.layout ≠ 0) ∨ (k = .sConst ∧ 64 < a.width) ∨ (k ∈ [QKind.sOut, .sDrop, .sRec] ∧ a.fmt = 0x17), 0x02, 0, q.pa),
   (ind ∧ b.Refused, 0x02, 0, q.pb), (mem ∧ a.space = 7, 0x04, 0, q.pa), (ind ∧ b.space = 7, 0x04, 0, q.pb),
   ((k = .sIn ∧ a.space ∉ [0, 1, 5]) ∨ (k = .sOut ∧ a.space ∉ [0, 1, 2, 5]) ∨ (ind ∧ (a.space ≠ 0 ∨ b.space ≠ 0)), 0x0B, 0, 3),
   (ind ∧ ¬ (a.fmt ∈ [0x04, 0x05, 0x0A, 0x0B] ∧ a.layout = 0 ∧ b.layout = 0 ∧ b.dims = 0), 0x0B, 0, 2)]
  ++ s.ctrChecks (s.ctrOf q.ctr q.csp)

/-- The format pairs of COPY and MCOPY (R242), and of RCOPY (R244). -/
def PairAllowed (a b : Pat) : Prop :=
  (a.fmt = b.fmt ∧ a.width = b.width)
    ∨ (a.fmt ≠ b.fmt ∧ isBlockFmt a.fmt = false ∧ a.layout ≠ 3 ∧ b.layout ≠ 3 ∧ (isBlockFmt b.fmt = true → isMxFmt b.fmt = true))
def ReduceAllowed (op : Nat) (a b : Pat) : Prop :=
  a.fmt = b.fmt ∧ a.layout ≠ 3 ∧ b.layout ≠ 3 ∧ (if op = 8 then a.fmt = 0x0D else a.fmt ∈ [0x04, 0x05, 0x0A, 0x0B])

/-- The checks of a copy command in the order of R248 (R241 to R244). -/
def State.copyChecks (s : State) (k : QKind) (q : QArgs) : List IssueCheck :=
  let a := patOf (s.getP q.pa).toNat
  let b := patOf (s.getP q.pb).toNat
  let grouped := k = QKind.mcopy ∨ (k = QKind.rcopy ∧ q.grp = true)
  [(a.Refused, 0x02, 0, q.pa), (b.Refused ∨ (b.fmt = 0x17 ∧ a.fmt ≠ 0x17 ∧ k ≠ .rcopy), 0x02, 0, q.pb), (a.space = 7, 0x04, 0, q.pa),
   (b.space = 7, 0x04, 0, q.pb),
   ((grouped ∧ ¬ (b.space = 2 ∧ bits b.base 33 22 = 0)) ∨ (¬ grouped ∧ k = .rcopy ∧ b.space ∉ [0, 1, 2, 5]), 0x0B, 0, 3),
   (a.count ≠ b.count * (if k ≠ .rcopy ∧ isMxFmt b.fmt = true ∧ isBlockFmt a.fmt = false then 32 else 1), 0x0B, 0, 1),
   ((k = .rcopy ∧ ¬ ReduceAllowed q.port a b) ∨ (k ≠ .rcopy ∧ ¬ PairAllowed a b), 0x0B, 0, 2),
   (grouped ∧ s.groupOf q.aux = none, 0x04, 0, q.aux)]
  ++ s.ctrChecks (s.ctrOf q.ctr q.csp)

/-- The command at the pc traps on a check of R248; a translation that denies it has entered the memory edge's cache before (R302). -/
def State.trapsOn (s : State) (f : Nat × Nat × Nat) : State := (s.missed f.1 f.2.1 true true).entered f.1 f.2.1 f.2.2

/-- Every pattern of the list takes a value at element k, one after the other (R243). -/
def State.WritesAll (s : State) (v : Via) (t k x : Nat) (psn : Bool) : List Pat → State → Prop
  | [], u => u = s
  | p :: l, u => ∃ w, s.writeElem v t p k x psn = .ok w ∧ State.WritesAll w v t k x psn l u

/-- The pattern registers and counter addresses that a block instruction captures. -/
def State.blockImgs (s : State) (cls : Nat) (b : BlockArgs) : List Nat :=
  b.binds.map (fun x => (s.getP x.pat).toNat) ++ (if cls = 6 then (List.range 16).map fun k => (s.getP k).toNat else [])
def State.blockCtrs (s : State) (b : BlockArgs) : List Nat := b.binds.map fun x => s.nx x.ctr
/-- The block instruction at the pc starts a new instance: it is not, outside trap mode, the header of a continuation (R186). -/
def State.StartsNew (s : State) : Prop := s.me.trap = true ∨ ∀ h, s.me.cont = some h → h.2 ≠ s.pc.toNat
/-- A block instruction passes every check of R171 and R237, no kill is due, and no bound refuses its streams. -/
def State.BlockPasses (s : State) (cls : Nat) (b : BlockArgs) : Prop :=
  s.StartsNew ∧ s.Spared ∧ ∃ f, mfind b.folio s.myLaunch.folios = some f ∧ s.blockFails cls b (s.blockImgs cls b) f = none
    ∧ s.raceFails cls (s.blockImgs cls b) ((s.blockImgs cls b).length - 16) f = none
    ∧ (∀ c ∈ s.bindCmds s.cur.1 b (s.blockImgs cls b) (s.blockCtrs b) f, s.streamFault c.entry c.reg 0 = none)
    ∧ s.bindsRefused (s.bindCmds s.cur.1 b (s.blockImgs cls b) (s.blockCtrs b) f) = false
/-- The context waits as the thread token of a block, with its patterns and counters captured (R179). -/
def State.token (s : State) (cls : Nat) (b : BlockArgs) : State :=
  s.modMe fun c => { c with wait := some (.block cls b (s.blockImgs cls b) (s.blockCtrs b) s.myTile.res c.undone) }

/-- The stream commands and the copies with their kinds (R229). -/
def streamsOf (q : QArgs) : List (QKind × Instr) :=
  [(.sIn, .streamIn q), (.sOut, .streamOut q), (.sRec, .streamRec q), (.sConst, .streamConst q), (.sDrop, .streamDrop q), (.sInd, .streamInd q)]
def copiesOf (q : QArgs) : List (QKind × Instr) := [(.copy, .copy q), (.mcopy, .mcopy q), (.rcopy, .rcopy q)]

/-- The block instructions with their classes (R85). -/
def blocksOf (b : BlockArgs) : List (Nat × Instr) :=
  [(0, .blockMWs b), (1, .blockMOs b), (2, .blockE b), (3, .blockA b), (4, .blockS b), (5, .blockZ b), (6, .blockG b)]

end Sys2Proof.Machine
end

