-- ==== Sys2Proof/Certificates/Slice0/Obligations.lean ====
section
/-! DEFINITION. The statements for the provers, from the numbered rules of the spec. -/

open Sys2Proof Sys2Proof.Machine

/-! Scalar instructions. -/

/-- R113: each typed integer instruction puts its result, computed in the type's width, into x[d] (x0 discards it), and the pc moves on: arithmetic,
logic, shifts by the amount modulo the width, comparisons as 0 or 1; and the selection by x[c] and the move. -/
def Obligations.IntegerAndLogicInstructionResults : Prop :=
  (∀ (s : State) (ty : IntTy) (d a b : Nat),
      exec (.add ty d a b) s = .next (s.typed2 ty d a b fun _ x y => x + y)
      ∧ exec (.sub ty d a b) s = .next (s.typed2 ty d a b fun _ x y => x - y)
      ∧ exec (.mul ty d a b) s = .next (s.typed2 ty d a b fun _ x y => x * y)
      ∧ exec (.mulh ty d a b) s = .next (s.typed2 ty d a b fun w x y => ((x.signExtend (2 * w) * y.signExtend (2 * w)) >>> w).setWidth w)
      ∧ exec (.mulhn ty d a b) s = .next (s.typed2 ty d a b fun w x y => ((x.setWidth (2 * w) * y.setWidth (2 * w)) >>> w).setWidth w)
      ∧ exec (.div ty d a b) s = .next (s.typed2 ty d a b fun w x y => if y = 0#w then BitVec.allOnes w else x.sdiv y)
      ∧ exec (.divn ty d a b) s = .next (s.typed2 ty d a b fun w x y => if y = 0#w then BitVec.allOnes w else x.udiv y)
      ∧ exec (.rem ty d a b) s = .next (s.typed2 ty d a b fun w x y => if y = 0#w then x else x.srem y)
      ∧ exec (.remn ty d a b) s = .next (s.typed2 ty d a b fun w x y => if y = 0#w then x else x.umod y)
      ∧ exec (.min ty d a b) s = .next (s.typed2 ty d a b fun _ x y => if x.slt y then x else y)
      ∧ exec (.max ty d a b) s = .next (s.typed2 ty d a b fun _ x y => if x.slt y then y else x)
      ∧ exec (.minn ty d a b) s = .next (s.typed2 ty d a b fun _ x y => if x.ult y then x else y)
      ∧ exec (.maxn ty d a b) s = .next (s.typed2 ty d a b fun _ x y => if x.ult y then y else x))
  ∧ (∀ (s : State) (ty : IntTy) (d a b c : Nat),
      exec (.and ty d a b) s = .next (s.typed2 ty d a b fun _ x y => x &&& y)
      ∧ exec (.or ty d a b) s = .next (s.typed2 ty d a b fun _ x y => x ||| y)
      ∧ exec (.xor ty d a b) s = .next (s.typed2 ty d a b fun _ x y => x ^^^ y)
      ∧ exec (.andn ty d a b) s = .next (s.typed2 ty d a b fun _ x y => x &&& ~~~y)
      ∧ exec (.orn ty d a b) s = .next (s.typed2 ty d a b fun _ x y => x ||| ~~~y)
      ∧ exec (.shl ty d a b) s = .next (s.typed2 ty d a b fun w x y => x <<< (y.toNat % w))
      ∧ exec (.shr ty d a b) s = .next (s.typed2 ty d a b fun w x y => x >>> (y.toNat % w))
      ∧ exec (.sha ty d a b) s = .next (s.typed2 ty d a b fun w x y => x.sshiftRight (y.toNat % w))
      ∧ exec (.cmpeq ty d a b) s = .next (s.typed2 ty d a b fun w x y => flagBit w (decide (x = y)))
      ∧ exec (.cmplt ty d a b) s = .next (s.typed2 ty d a b fun w x y => flagBit w (x.slt y))
      ∧ exec (.cmpltn ty d a b) s = .next (s.typed2 ty d a b fun w x y => flagBit w (x.ult y))
      ∧ exec (.csel d a b c) s = .next ((s.setX d (if s.getX c = 0 then s.getX b else s.getX a)).advance)
      ∧ exec (.mov d a) s = .next ((s.setX d (s.getX a)).advance))

/-- R114, R115: zeros and ones counted in the type's width, extensions, the scaled sum, the Morton code bit by bit; the immediate forms, a field of
bits read or replaced in place, and coordinate k of a Morton code. -/
def Obligations.BitAddressAndImmediateInstructionResults : Prop :=
  (∀ (s : State) (ty : IntTy) (d a b c : Nat),
      exec (.clz ty d a) s = .next (s.typed1 ty d a fun _ x => x.clz)
      ∧ exec (.ctz ty d a) s = .next (s.typed1 ty d a fun _ x => x.ctz)
      ∧ exec (.popc ty d a) s = .next (s.typed1 ty d a fun _ x => x.cpop)
      ∧ (∀ w, exec (.sext w d a) s = .next ((s.setX d (((s.getX a).setWidth (extWidth w)).signExtend 64)).advance))
      ∧ (∀ w, exec (.zext w d a) s = .next ((s.setX d (((s.getX a).setWidth (extWidth w)).setWidth 64)).advance))
      ∧ (∀ shift, exec (.addx shift d a b) s = .next ((s.setX d (s.getX a + s.getX b <<< shift)).advance))
      ∧ (∀ three, ∃ v : Word, exec (.morton three d a b c) s = .next ((s.setX d v).advance)
          ∧ ∀ j, j < 64 → v.getLsbD j = mortonBit three (s.getX a) (s.getX b) (s.getX c) j))
  ∧ (∀ (s : State) (ty : IntTy) (d a imm n : Nat),
      exec (.addi ty d a imm) s = .next (s.typedImm ty d a imm fun _ x y => x + y)
      ∧ exec (.andi ty d a imm) s = .next (s.typedImm ty d a imm fun _ x y => x &&& y)
      ∧ exec (.ori ty d a imm) s = .next (s.typedImm ty d a imm fun _ x y => x ||| y)
      ∧ exec (.xori ty d a imm) s = .next (s.typedImm ty d a imm fun _ x y => x ^^^ y)
      ∧ exec (.shli ty d a n) s = .next (s.typed1 ty d a fun _ x => x <<< n)
      ∧ exec (.shri ty d a n) s = .next (s.typed1 ty d a fun _ x => x >>> n)
      ∧ exec (.shai ty d a n) s = .next (s.typed1 ty d a fun _ x => x.sshiftRight n)
      ∧ exec (.li d imm) s = .next ((s.setX d (immWord imm)).advance)
      ∧ exec (.lui d a imm) s = .next ((s.setX d (BitVec.ofNat 32 imm ++ (s.getX a).setWidth 32)).advance)
      ∧ (∀ pos len, 1 ≤ len → pos + len ≤ 64 → ∃ v : Word, exec (.bext d a pos len) s = .next ((s.setX d v).advance)
          ∧ ∀ k, k < 64 → v.getLsbD k = (decide (k < len) && (s.getX a).getLsbD (pos + k)))
      ∧ (∀ pos len, 1 ≤ len → pos + len ≤ 64 → ∃ v : Word, exec (.bins d a pos len) s = .next ((s.setX d v).advance)
          ∧ ∀ k, k < 64 → v.getLsbD k = if pos ≤ k ∧ k < pos + len then (s.getX a).getLsbD (k - pos) else (s.getX d).getLsbD k)
      ∧ (∀ three k, k < (if three then 3 else 2) → ∃ v : Word, exec (.demorton three d a k) s = .next ((s.setX d v).advance)
          ∧ ∀ j, j < 64 → v.getLsbD j = if three then decide (j < 21) && (s.getX a).getLsbD (3 * j + k)
              else decide (j < 32) && (s.getX a).getLsbD (2 * j + k)))


/-- R13, R113 to R115, R127: an instruction whose only destination is x[d] leaves every other register, every special register, every other
part of the machine and every byte of memory as they were, and the pc moves past its word. That FCLASS leaves FMODE as it was for a signalling NaN
too is the model's reading of R118 and R119 (log 63). -/
def Obligations.XRegisterInstructionsChangeOnlyTheirDestination : Prop :=
  ∀ (i : Instr) (d : Nat) (s t : State), xDest i = some d → exec i s = .next t →
    s.Frame t (· = d) noReg noReg noReg false ∧ t.pc = s.pc + 8

/-! Floating point. -/

/-- R117 to R121: what each float instruction writes: the rounded value of the operation on the operands' values, flags ORed into FMODE, and
the pc past the word; moves copy bits. That FCLASS sets no flag for a signalling NaN is the model's reading of R118 and R119 (log 63). -/
def Obligations.FloatInstructionsWriteRoundedResults : Prop :=
  ∀ (s : State) (f : FFmt) (rm : RmCode) (d a b c : Nat),
    exec (.fadd f rm d a b) s = .next (s.floatOut f (s.rm rm) d (addNum (s.fnum f a) (s.fnum f b) (downMode (s.rm rm))))
    ∧ exec (.fsub f rm d a b) s = .next (s.floatOut f (s.rm rm) d (addNum (s.fnum f a) (s.fnum f b).neg (downMode (s.rm rm))))
    ∧ exec (.fmul f rm d a b) s = .next (s.floatOut f (s.rm rm) d (mulNum (s.fnum f a) (s.fnum f b)))
    ∧ exec (.ffma f rm d a b c) s = .next (s.floatOut f (s.rm rm) d (fmaNum (s.fnum f a) (s.fnum f b) (s.fnum f c) (downMode (s.rm rm))))
    ∧ exec (.fdiv f rm d a b) s = .next ((s.putFloat f (s.rm rm) d (divNum (s.fnum f a) (s.fnum f b)).1
        { nv := (divNum (s.fnum f a) (s.fnum f b)).2.1, dz := (divNum (s.fnum f a) (s.fnum f b)).2.2 } (divLat f)).advance)
    ∧ exec (.fsqrt f rm d a) s = .next (s.floatOut f (s.rm rm) d (sqrtNum (s.fnum f a)) (divLat f))
    ∧ exec (.fmin f d a b) s = .next (s.floatOut f .rne d (minmaxNum false (s.fnum f a) (s.fnum f b)))
    ∧ exec (.fmax f d a b) s = .next (s.floatOut f .rne d (minmaxNum true (s.fnum f a) (s.fnum f b)))
    ∧ (∀ r, exec (.fcmp f r d a b) s = .next (((s.setX d (if fcmpHolds r (s.fnum f a) (s.fnum f b) then 1 else 0)).setFlags
        { nv := fcmpInvalid r (s.fnum f a) (s.fnum f b) }).advance))
    ∧ (∀ k, k.dstX = true → let r := roundNum (convTarget k) (s.rm rm) false (s.convSrc k a)
        exec (.fcvt k rm d a) s = .next (((s.setX d (BitVec.ofNat 64 r.1)).setFlags r.2).advance))
    ∧ (∀ k, k.dstX = false → let r := roundNum (convTarget k) (s.rm rm) false (s.convSrc k a)
        exec (.fcvt k rm d a) s = .next (((s.setF d (BitVec.ofNat 64 r.1)).setFlags (r.2.or { nv := (s.convSrc k a).isSig })).advance))
    ∧ exec (.fclass f d a) s = .next ((s.setX d (1 <<< classBit f (s.fnum f a))).advance)
    ∧ exec (.fmovx .d d a) s = .next ((s.setX d (s.getF a)).advance)
    ∧ exec (.fmovx .s d a) s = .next ((s.setX d ((s.getF a).setWidth 32 |>.setWidth 64)).advance)
    ∧ exec (.fmovf .d d a) s = .next ((s.setF d (s.getX a)).advance)
    ∧ exec (.fmovf .s d a) s = .next ((s.setF d ((s.getX a).setWidth 32 |>.setWidth 64)).advance)

/-- R23, R122: a float instruction clears no flag, and leaves the rounding mode and the reserved bits of FMODE; besides its destination and
the flags it changes nothing. -/
def Obligations.FloatFlagsAreStickyAndNothingElseChanges : Prop :=
  ∀ (i : Instr) (d : Nat) (s t : State), exec i s = .next t →
    (fDest i = some d → s.Frame t noReg (· = d) noReg noReg true ∧ t.pc = s.pc + 8)
    ∧ (fxDest i = some d → s.Frame t (· = d) noReg noReg noReg true ∧ t.pc = s.pc + 8)
    ∧ (fDest i = some d ∨ fxDest i = some d →
        s.me.regs.fmode &&& t.me.regs.fmode = s.me.regs.fmode ∧ t.me.regs.fmode &&& 0xF = s.me.regs.fmode &&& 0xF)

/-- R14: what writes a binary32 result, an instruction or a returning load, writes bits 63..32 as zero; what reads a binary32 operand has the same
result whatever bits 63..32 hold, and a register's value is all that it holds. -/
def Obligations.SingleResultsClearTheUpperHalf : Prop :=
  (∀ (i : Instr) (s t : State) (rm : RmCode) (d a b c : Nat),
    i ∈ [Instr.fadd .s rm d a b, .fsub .s rm d a b, .fmul .s rm d a b, .ffma .s rm d a b c, .fdiv .s rm d a b, .fsqrt .s rm d a,
      .fmin .s d a b, .fmax .s d a b, .fmovf .s d a, .fcvt .s_d rm d a, .fcvt .s_i rm d a, .fcvt .s_n rm d a, .fcvt .s_h rm d a,
      .fcvt .s_bf rm d a] → exec i s = .next t → (t.getF d).toNat < 2 ^ 32)
  ∧ (∀ (c : Ctx) (d v : Nat), v < 2 ^ 32 → ((c.fill (.f d) .f32 v).getF d).toNat < 2 ^ 32)
  ∧ (∀ (i : Instr) (s u t v : State) (rm : RmCode) (rel : FRel) (d a b c : Nat) (m : MemArgs),
    i ∈ [Instr.fadd .s rm d a b, .fsub .s rm d a b, .fmul .s rm d a b, .ffma .s rm d a b c, .fdiv .s rm d a b, .fsqrt .s rm d a,
      .fmin .s d a b, .fmax .s d a b, .fcmp .s rel d a b, .fclass .s d a, .fmovx .s d a, .fcvt .d_s rm d a, .fcvt .i_s rm d a,
      .fcvt .n_s rm d a, .fcvt .h_s rm d a, .fcvt .bf_s rm d a] →
    (∀ r, (u.getF r).setWidth 32 = (s.getF r).setWidth 32) → u.special 0x12 = s.special 0x12 → exec i s = .next t → exec i u = .next v →
    (fDest i = some d → v.getF d = t.getF d) ∧ (fDest i = none → d ≠ 0 → v.getX d = t.getX d) ∧ v.special 0x12 = t.special 0x12
      ∧ (m.w = .f32 → u.storeData m = s.storeData m))

/-! Control and predicates. -/

/-- R13, R83, R123, R126: branches go to pc + 8 * sext(woff) when they are taken, to the next word when not; calls write the return address.
Predicates take relations of x registers and combinations of predicates; a write to b0 is discarded, so b0 reads 1. -/
def Obligations.BranchesSetThePcAndPredicatesTheirBit : Prop :=
  (∀ (s : State) (a b l w : Nat),
      (∀ r, exec (.bc (.rel r a b) w) s = .next (if relBits r (s.getX a) (s.getX b) then s.setPc (s.branchTo w) else s.advance))
      ∧ exec (.bc (.p a) w) s = .next (if s.getB a then s.setPc (s.branchTo w) else s.advance)
      ∧ exec (.bc (.np a) w) s = .next (if s.getB a then s.advance else s.setPc (s.branchTo w))
      ∧ exec (.jmp w) s = .next (s.setPc (s.branchTo w))
      ∧ exec (.call l w) s = .next ((s.setX l (s.pc + 8)).setPc (s.branchTo w))
      ∧ exec (.jmpx l a) s = .next ((s.setX l (s.pc + 8)).setPc (s.getX a))
      ∧ exec (.ret a) s = .next (s.setPc (s.getX a))
      ∧ exec (.loop a w) s = .next (if a ≠ 0 ∧ s.getX a ≠ 1 then (s.setX a (s.getX a - 1)).setPc (s.branchTo w)
          else (s.setX a (s.getX a - 1)).advance))
  ∧ (∀ (s : State) (d a b : Nat),
      (∀ r, exec (.pset r d a b) s = .next ((s.setB d (relBits r (s.getX a) (s.getX b))).advance))
      ∧ exec (.pand d a b) s = .next ((s.setB d (s.getB a && s.getB b)).advance)
      ∧ exec (.por d a b) s = .next ((s.setB d (s.getB a || s.getB b)).advance)
      ∧ exec (.pnot d a) s = .next ((s.setB d (!s.getB a)).advance)
      ∧ ∀ v, (s.setB d v).advance.getB 0 = true ∧ (d ≠ 0 → (s.setB d v).advance.getB d = v))

/-- R13, R123, R126: a branch changes only the pc, a call or LOOP also its x register, a predicate instruction only its b register. -/
def Obligations.ControlAndPredicateInstructionsFrame : Prop :=
  ∀ (s t : State) (d a b w : Nat),
    (∀ c, exec (.bc c w) s = .next t → s.Frame t noReg noReg noReg noReg false)
    ∧ (exec (.jmp w) s = .next t → s.Frame t noReg noReg noReg noReg false)
    ∧ (exec (.ret a) s = .next t → s.Frame t noReg noReg noReg noReg false)
    ∧ (exec (.call d w) s = .next t → s.Frame t (· = d) noReg noReg noReg false)
    ∧ (exec (.jmpx d a) s = .next t → s.Frame t (· = d) noReg noReg noReg false)
    ∧ (exec (.loop d w) s = .next t → s.Frame t (· = d) noReg noReg noReg false)
    ∧ (∀ r, exec (.pset r d a b) s = .next t → s.Frame t noReg noReg (· = d) noReg false)
    ∧ (exec (.pand d a b) s = .next t → s.Frame t noReg noReg (· = d) noReg false)
    ∧ (exec (.por d a b) s = .next t → s.Frame t noReg noReg (· = d) noReg false)
    ∧ (exec (.pnot d a) s = .next t → s.Frame t noReg noReg (· = d) noReg false)

/-! Special registers. -/

/-- R17, R127: RDS reads a special register zero-extended from its width. -/
def Obligations.RdsReadsTheRegisterInItsWidth : Prop :=
  ∀ (s : State) (d n : Nat), exec (.rds d n) s = .next ((s.setX d (BitVec.ofNat 64 (s.special n % 2 ^ specialWidth n))).advance)

/-- R17, R20, R23, R122, R127, R128, R186: WRS to a register that the context may write takes the value in the register's width, BUDGET at most the
ceiling, FMODE with the flags of float instructions in flight; no other special register, no general register and no byte of memory changes, but
for the nodes of a block continuation that a new TRAPPC discards. Another context still reads the old TRAPBASE and BUDGET in that cycle. To a
read-only register, or outside trap mode to a trap register, it traps with cause 0x03; reserved bits of FMODE trap with cause 0x02; nothing is
written. That these traps have TRAPADDR 0 and TRAPAUX 0 is the model's choice (log 65). -/
def Obligations.WrsWritesOneSpecialRegisterOrTraps : Prop :=
  (∀ (s : State) (n a : Nat), 0x07 ≤ n → n ≤ 0x13 → specialReadOnly n = false → (specialTrapOnly n = true → s.me.trap = true) →
      (n = 0x12 → bits (s.nx a) 3 2 = 0) → (n = 0x07 ∨ n = 0x0D → s.AloneWriting) →
      ∃ t, exec (.wrs n a) s = .next t
        ∧ t.special n = (if n = 0x0D then min (s.nx a) (s.budgetCeil s.myPart) else if n = 0x12 then s.nx a % 2 ^ 9 ||| s.flightFlags.toNat
            else s.nx a % 2 ^ specialWidth n)
        ∧ (∀ k, k ≠ n → t.special k = s.special k)
        ∧ (∀ k, t.getX k = s.getX k ∧ t.getF k = s.getF k ∧ t.getB k = s.getB k ∧ t.getP k = s.getP k)
        ∧ (∀ c, c ≠ s.cur.2 → t.trapBaseOf s.cur.1 c = s.trapBaseOf s.cur.1 c ∧ t.budgetOf s.cur.1 c = s.budgetOf s.cur.1 c)
        ∧ ((n = 0x08 → ∀ h, s.me.cont = some h → h.2 = s.nx a) → s.SameMemory t) ∧ t.pc = s.pc + 8)
  ∧ (∀ (s : State) (n a : Nat),
      ((n ≤ 0x06 ∨ (0x0E ≤ n ∧ n ≤ 0x11)) → exec (.wrs n a) s = .next (s.trapNow 0x03 0 0))
      ∧ (0x07 ≤ n → n ≤ 0x0B → s.me.trap = false → exec (.wrs n a) s = .next (s.trapNow 0x03 0 0))
      ∧ (bits (s.nx a) 3 2 ≠ 0 → exec (.wrs 0x12 a) s = .next (s.trapNow 0x02 0 0)))


/-! Traps. -/

/-- R272 to R274: TRAP enters at TRAPBASE with cause 0x40 + n, address 0, the value of x[a] as aux and its own address as TRAPPC; entry saves no
other register, and no byte of memory changes. In trap mode it is a double trap: the task ends and its context is free; the first one of the
launch is recorded with the cause of the second trap and the address of the instruction that raised it, a later one changes nothing there. -/
def Obligations.TrapEntersTheHandlerOrEndsTheTask : Prop :=
  (∀ (s : State) (a n : Nat), s.CanTrap → n < 64 →
      exec (.trap a n) s = .next (s.entered (0x40 + n) 0 (s.nx a))
      ∧ (let t := s.entered (0x40 + n) 0 (s.nx a)
         t.pc = s.trapBaseOf s.cur.1 s.cur.2 ∧ t.special 0x08 = s.pc.toNat ∧ t.special 0x09 = 0x40 + n ∧ t.special 0x0A = 0 ∧ t.special 0x0B = s.nx a
          ∧ (∀ k, k < 0x08 ∨ 0x0B < k → t.special k = s.special k)
          ∧ (∀ r, t.getX r = s.getX r ∧ t.getF r = s.getF r ∧ t.getB r = s.getB r ∧ t.getP r = s.getP r) ∧ s.OnlyMe t ∧ s.SameMemory t))
  ∧ (∀ (s : State) (a n : Nat) (k : Task), s.me.trap = true → s.me.task = some k → n < 64 →
      ∃ t, exec (.trap a n) s = .next t ∧ t.me.task = none ∧ t.me.trap = false ∧ t.me.cont = none
        ∧ (t.launch k.lid).dt = true
        ∧ ((s.launch k.lid).dt = false → (t.launch k.lid).dcause = 0x40 + n ∧ (t.launch k.lid).dtpc = s.pc.toNat
            ∧ (t.launch k.lid).dvtile = s.myTile.vtile ∧ (t.launch k.lid).dctx = s.cur.2)
        ∧ ((s.launch k.lid).dt = true → t.launch k.lid = s.launch k.lid))

/-- R186, R267, R269, R273, R274: TRET leaves trap mode for TRAPPC and TRET.n for the address past the instruction there; a block continuation
stays behind a TRET to its header and is discarded behind any other return, with nothing of another tile and no register but the pc changed. A
TRET.n whose word at TRAPPC cannot be fetched is a double trap with the fetch's cause; a kill that is due takes the place of the return and ends the
task. That a TRAPPC both misaligned and outside the store gives cause 0x05 is the model's choice (log 59). TRAP and then TRET come back to the TRAP with every register but the trap registers as it was. TRET and TRET.n outside trap mode are a mode
violation, and so is YIELD in trap mode. -/
def Obligations.TretReturnsFromTheHandler : Prop :=
  (∀ (s : State), s.me.trap = true → s.me.cont = none → s.condemned s.cur.1 s.cur.2 = false →
      exec .tret s = .next (s.modMe fun c => { c with trap := false, regs := { c.regs with pc := c.trapPc } })
      ∧ (s.myTile.wordFault s.me.trapPc.toNat = none →
          exec .tretN s = .next (s.modMe fun c => { c with trap := false, regs := { c.regs with
            pc := c.trapPc + BitVec.ofNat 64 (8 * (1 + extCount (s.myTile.word c.trapPc.toNat))) } })))
  ∧ (∀ (s : State) (q a : Nat), s.me.trap = true → s.me.cont = some (q, a) → s.condemned s.cur.1 s.cur.2 = false →
      let returned := fun (t : State) (pc : Word) => t.me.trap = false ∧ t.pc = pc ∧ t.me.task = s.me.task
        ∧ (∀ r, t.getX r = s.getX r ∧ t.getF r = s.getF r ∧ t.getB r = s.getB r ∧ t.getP r = s.getP r) ∧ ∀ u, u ≠ s.cur.1 → t.tile u = s.tile u
      ∃ t u, exec .tret s = .next t ∧ returned t s.me.trapPc ∧ t.me.cont = (if a = s.me.trapPc.toNat then some (q, a) else none)
        ∧ (a = s.me.trapPc.toNat → s.OnlyMe t)
        ∧ (s.myTile.wordFault s.me.trapPc.toNat = none → exec .tretN s = .next u ∧ u.me.cont = none
          ∧ returned u (s.me.trapPc + BitVec.ofNat 64 (8 * (1 + extCount (s.myTile.word s.me.trapPc.toNat))))))
  ∧ (∀ (s : State) (k : Task), s.me.trap = true → s.me.task = some k →
      (s.condemned s.cur.1 s.cur.2 = true → exec .tret s = .next (s.killTask s.cur.1 s.cur.2) ∧ exec .tretN s = .next (s.killTask s.cur.1 s.cur.2)
        ∧ (s.killTask s.cur.1 s.cur.2).me.task = none)
      ∧ (s.condemned s.cur.1 s.cur.2 = false → (s.me.trapPc.toNat % 8 ≠ 0 → exec .tretN s = .next (s.doubleTrap s.cur.1 s.cur.2 0x05 s.pc.toNat))
        ∧ (s.me.trapPc.toNat % 8 = 0 → 0x300000 ≤ s.me.trapPc.toNat → exec .tretN s = .next (s.doubleTrap s.cur.1 s.cur.2 0x04 s.pc.toNat))
        ∧ (s.me.trapPc.toNat % 8 = 0 → s.me.trapPc.toNat < 0x300000 → s.myTile.store.poisoned s.me.trapPc.toNat 8 = true →
          exec .tretN s = .next (s.doubleTrap s.cur.1 s.cur.2 0x07 s.pc.toNat))))
  ∧ (∀ (s t u : State) (a n : Nat), s.CanTrap → n < 64 → s.me.cont = none → s.condemned s.cur.1 s.cur.2 = false →
      exec (.trap a n) s = .next t → exec .tret t = .next u →
      u.pc = s.pc ∧ u.me.trap = false ∧ u.me.task = s.me.task ∧ s.OnlyMe u ∧ s.SameMemory u
        ∧ (∀ r, u.getX r = s.getX r ∧ u.getF r = s.getF r ∧ u.getB r = s.getB r ∧ u.getP r = s.getP r)
        ∧ (∀ k, k < 0x08 ∨ 0x0B < k → u.special k = s.special k))
  ∧ (∀ s : State, (s.CanTrap → exec .tret s = .next (s.entered 0x10 0 0) ∧ exec .tretN s = .next (s.entered 0x10 0 0))
      ∧ (s.me.trap = true → exec .yield s = .next (s.doubleTrap s.cur.1 s.cur.2 0x10 s.pc.toNat)))

/-! Loads, stores, atomics: issue. -/

/-- R79, R133, R135: the address of a load or store is the 64-bit sum of base, scaled index and offset, that of an atomic the sum of base and
offset. An aligned load in its space's range issues: its access joins the outstanding ones, and the pc moves on; the register is filled later. -/
def Obligations.LoadsIssueAtTheirAddress : Prop :=
  (∀ (s : State) (m : MemArgs) (k : AmoArgs),
      s.memAddr m = (s.getX m.base + s.getX m.index <<< m.scale + immWord m.off).toNat
      ∧ s.amoAddr k = (s.getX k.base + immWord k.off).toNat)
  ∧ (∀ (s : State) (m : MemArgs) (sp : Nat) (i : Instr), (sp, i) ∈ loadsOf m →
      s.memAddr m % wopBytes m.w = 0 → s.rangeOk s.cur.1 sp (s.memAddr m) (wopBytes m.w) = true →
      exec i s = .next ((s.push { s.fresh .load sp (s.memAddr m) (wopBytes m.w) with wop := m.w, ord := m.ord, dst := memDst m }).advance))

/-- R135, R140, R142, R143: a store that passes every check issues with its data and its home; its bytes are written later. An atomic with return
issues when it is aligned and in range; a posted one when every check passes, poison included. A remote one also puts its flits into the remote
queue. -/
def Obligations.StoresAndAtomicsIssue : Prop :=
  (∀ (s : State) (m : MemArgs) (h : Home) (dst off : Nat),
      s.memAddr m % wopBytes m.w = 0 →
      (∀ sp i, (sp, i) ∈ storesOf m → s.resolve s.cur.1 sp (s.memAddr m) (wopBytes m.w) false true = .ok h →
        exec i s = .next ((s.push { s.fresh .store sp (s.memAddr m) (wopBytes m.w) with
          wop := m.w, ord := m.ord, data := s.storeData m, home := some h }).advance))
      ∧ (s.resolve s.cur.1 2 (s.memAddr m) (wopBytes m.w) false true = .ok (.tile dst off) →
        exec (.stx m) s = .next (((s.push { s.fresh .store 2 (s.memAddr m) (wopBytes m.w) with
            wop := m.w, ord := m.ord, data := s.storeData m, home := some (.tile dst off) }).enqueueRemote dst (isRel m.ord)
              (s.storeFlits dst off (wopBytes m.w) (isRel m.ord) (s.storeData m)) s.myTile.nextAcc).advance)))
  ∧ (∀ (s : State) (m : AmoArgs) (h : Home) (dst off : Nat), s.amoAddr m % amoBytes m = 0 →
      (∀ sp i, (sp, i) ∈ atomicsOf m → s.rangeOk s.cur.1 sp (s.amoAddr m) (amoBytes m) = true → m.data ≠ 0 →
        exec i s = .next ((s.push (s.amoAccess sp m)).advance))
      ∧ (∀ sp i, (sp, i) ∈ atomicsOf m → s.rangeOk s.cur.1 sp (s.amoAddr m) (amoBytes m) = true → m.data = 0 →
        s.resolve s.cur.1 sp (s.amoAddr m) (amoBytes m) true true = .ok h → s.poisonHome h (amoBytes m) = false →
        exec i s = .next ((s.push { s.amoAccess sp m with home := some h }).advance))
      ∧ (s.resolve s.cur.1 2 (s.amoAddr m) (amoBytes m) true true = .ok (.tile dst off) →
        (m.data = 0 → s.poisonHome (.tile dst off) (amoBytes m) = false) →
        exec (.amox m) s = .next (((s.push { s.amoAccess 2 m with home := some (.tile dst off) }).enqueueRemote dst (isRel m.ord)
          (s.amoFlits dst off m { s.amoAccess 2 m with home := some (.tile dst off) }) s.myTile.nextAcc).advance)))

/-- R28, R130, R135, R136, R139, R143, R146: a misaligned access of any kind traps with cause 0x05 and its address, before every other check, and
nothing else changes. An aligned access outside its space traps with cause 0x04; a store, a posted atomic and a CADD that their space refuses, with the
cause and aux of R136, an entry that denies them having entered the memory edge's cache (R302), a posted atomic and a CADD on poison with 0x07; a CWAIT
with the fault of its look at the record. -/
def Obligations.BadAccessesTrapAtIssue : Prop :=
  (∀ (s : State) (m : MemArgs) (k : AmoArgs) (loc : Bool) (d a b pd : Nat) (sp : PatSpace), s.CanTrap →
      (s.memAddr m % wopBytes m.w ≠ 0 →
        ∀ i ∈ (loadsOf m).map Prod.snd ++ (storesOf m).map Prod.snd ++ [.stx m], exec i s = .next (s.entered 0x05 (s.memAddr m) 0))
      ∧ (s.amoAddr k % amoBytes k ≠ 0 → ∀ i ∈ (atomicsOf k).map Prod.snd ++ [.amox k], exec i s = .next (s.entered 0x05 (s.amoAddr k) 0))
      ∧ (s.nx a % 16 ≠ 0 →
        ∀ i ∈ [Instr.cadd loc d a b, .cread loc d a, .cwait loc d a b], exec i s = .next (s.entered 0x05 (s.nx a) 0))
      ∧ (s.nx a % 32 ≠ 0 → exec (.patld sp pd a) s = .next (s.entered 0x05 (s.nx a) 0)))
  ∧ (∀ (s : State) (m : MemArgs) (sp : Nat) (i : Instr), s.CanTrap → s.memAddr m % wopBytes m.w = 0 →
      ((sp, i) ∈ loadsOf m → s.rangeOk s.cur.1 sp (s.memAddr m) (wopBytes m.w) = false →
        exec i s = .next (s.entered 0x04 (s.memAddr m) 0))
      ∧ ((sp, i) ∈ storesOf m → ∀ cause aux, s.resolve s.cur.1 sp (s.memAddr m) (wopBytes m.w) false true = .error (cause, aux) →
        exec i s = .next ((s.missed cause (s.memAddr m) false true).entered cause (s.memAddr m) aux)))
  ∧ (∀ (s : State) (m : MemArgs) (cause aux : Nat), s.CanTrap → s.memAddr m % wopBytes m.w = 0 →
      s.resolve s.cur.1 2 (s.memAddr m) (wopBytes m.w) false true = .error (cause, aux) → exec (.stx m) s = .next (s.entered cause (s.memAddr m) aux))
  ∧ (∀ (s : State) (k : AmoArgs), s.CanTrap → s.amoAddr k % amoBytes k = 0 →
      let a := s.amoAddr k
      let n := amoBytes k
      (∀ sp i, (sp, i) ∈ atomicsOf k →
        (s.rangeOk s.cur.1 sp a n = false → exec i s = .next (s.entered 0x04 a 0))
        ∧ (s.rangeOk s.cur.1 sp a n = true → k.data = 0 →
          (∀ cause aux, s.resolve s.cur.1 sp a n true true = .error (cause, aux) → exec i s = .next ((s.missed cause a true true).entered cause a aux))
          ∧ (∀ h, s.resolve s.cur.1 sp a n true true = .ok h → s.poisonHome h n = true → exec i s = .next (s.entered 0x07 a 0))))
      ∧ (∀ cause aux, s.resolve s.cur.1 2 a n true true = .error (cause, aux) → exec (.amox k) s = .next (s.entered cause a aux))
      ∧ (∀ dst off, s.resolve s.cur.1 2 a n true true = .ok (.tile dst off) → k.data = 0 → s.poisonHome (.tile dst off) n = true →
        exec (.amox k) s = .next (s.entered 0x07 a 0)))
  ∧ (∀ (s : State) (loc : Bool) (d a b : Nat), s.CanTrap → s.nx a % 16 = 0 →
      let x := s.nx a
      let sp := ctrSpace loc
      (∀ cause aux, s.resolve s.cur.1 sp x 16 true true = .error (cause, aux) →
        exec (.cadd loc d a b) s = .next ((s.missed cause x true true).entered cause x aux))
      ∧ (∀ h, s.resolve s.cur.1 sp x 16 true true = .ok h → s.poisonHome h 16 = true → exec (.cadd loc d a b) s = .next (s.entered 0x07 x 0))
      ∧ (s.rangeOk s.cur.1 sp x 16 = false → exec (.cread loc d a) s = .next (s.entered 0x04 x 0))
      ∧ (∀ cause aux, s.resolve s.cur.1 sp x 16 true false = .error (cause, aux) →
        ∃ w, s.EdgeOnly w ∧ (loc = true → w = s) ∧ exec (.cwait loc d a b) s = .next (w.entered cause x aux))
      ∧ (∀ h, s.resolve s.cur.1 sp x 16 true false = .ok h → s.me.mayRead sp x 16 = true → s.poisonRead h 16 = true →
        ∃ w, s.EdgeOnly w ∧ (loc = true → w = s) ∧ exec (.cwait loc d a b) s = .next (w.entered 0x07 x 0)))
  ∧ (∀ (s : State) (sp : PatSpace) (pd a : Nat), s.CanTrap → s.nx a % 32 = 0 → s.rangeOk s.cur.1 (patSpace sp) (s.nx a) 32 = false →
      exec (.patld sp pd a) s = .next (s.entered 0x04 (s.nx a) 0))

/-- R133, R135, R143, R146, R150: an instruction that issues an access changes no register but the pc, no byte of memory and nothing of
another context: results and writes come later. A trap is told from issue by trap mode. -/
def Obligations.IssuingAnAccessChangesNoRegisterAndNoByte : Prop :=
  ∀ (i : Instr) (s t : State), issuesAccess i = true → s.CanTrap → exec i s = .next t → t.me.trap = false →
    s.SameRegisters t ∧ s.SameMemory t ∧ s.OnlyMyTile t ∧ t.pc = s.pc + 8

/-! Loads, stores, atomics: at their home. -/

/-- R131, R133, R135, R136, R232, R302: a load is performed at its home with the value of its bytes, or ends with the fault of its translation or of
poison there, a .b128 load and a PATLD in 8-byte parts, one after another, in an order that is free; what the memory edge keeps apart, nothing changes
but the access. The returned value fills its register and no other. The reserve tier, whose reads end by a step of their own, addresses outside the
partition's granules, and pages under migration are not meant here (R305, R310, R380). -/
def Obligations.LoadsReadTheirBytesAndFillTheirRegister : Prop :=
  ∀ (s : State) (t c id v : Nat) (err : Bool) (a : Access), (s.ctx t c).outs.find? (fun b => b.id == id) = some a →
    (a.kind = .load → a.space = 1 → a.wop ≠ .b128 → a.home = none → a.st = .issued → (s.ctx t c).mayPerform a = true →
      a.addr + a.size ≤ 0x300000 → s.poisonHome (.tile t a.addr) a.size = false →
      exec (.memoryAccessAtHome t c id err) s = .next (s.putAccess t c { a with st := .performed (s.readHome (.tile t a.addr) a.size) }))
    ∧ ((a.kind = .load ∧ a.wop = .b128 ∨ a.kind = .patld) → a.space = 1 → a.home = none ∨ a.home = some (.tile t a.addr) → a.dst ≠ .none →
      a.st = .issued → (s.ctx t c).mayPerform a = true → a.addr + 8 * a.parts ≤ 0x300000 → s.poisonHome (.tile t a.addr) (8 * a.parts) = false →
      (∃ k, k < a.parts ∧ mfind k a.got = none) →
      ∃ k u b, k < a.parts ∧ mfind k a.got = none ∧ exec (.memoryAccessAtHome t c id err) s = .next u ∧ s.SameMemory u
        ∧ (u.ctx t c).outs.find? (fun b => b.id == id) = some b ∧ b.got = mput a.got k (s.readHome (.tile t (a.addr + 8 * k)) 8) ∧ b.dst = a.dst)
    ∧ (a.kind = .load → a.wop ≠ .b128 → a.space ≠ 2 → a.space ≠ 4 → a.st = .issued → (s.ctx t c).mayPerform a = true → s.quarterBusy t a = false →
      s.CacheAgrees t a → (∀ e ∈ s.parts, e.2.job = none) →
      let ends := fun (st : ASt) => ∃ u, s.EdgeOnly u ∧ s.SameMemory u ∧ exec (.memoryAccessAtHome t c id err) s = .next (u.putAccess t c { a with st := st })
      (∀ h, s.homeOf t a = some h → h.isReserve = false → h.isLost = false →
        (s.poisonHome h a.size = false → ends (.performed (s.readHome h a.size))) ∧ (s.poisonHome h a.size = true → ends (.faulted 0x07 a.addr 0)))
      ∧ (∀ cause aux, a.home = none → s.resolve t a.space a.addr a.size true false = .error (cause, aux) →
        a.space ≠ 0 ∨ (cause = 0x06 ∧ s.cached (dieOf t) (s.partId t) a.addr = none) → ends (.faulted cause a.addr aux)))
    ∧ (∀ h, (a.kind = .load ∧ a.wop = .b128 ∨ a.kind = .patld) → a.space ≠ 2 → a.space ≠ 4 → a.home = some h → h.isReserve = false → h.isLost = false →
      a.dst ≠ .none → a.st = .issued → (s.ctx t c).mayPerform a = true → s.quarterBusy t a = false → (∀ e ∈ s.parts, e.2.job = none) →
      (∀ k, k < a.parts → s.poisonHome (h.plus (8 * k)) 8 = false) → (∃ k, k < a.parts ∧ mfind k a.got = none) →
      ∃ k u b, k < a.parts ∧ mfind k a.got = none ∧ exec (.memoryAccessAtHome t c id err) s = .next u ∧ s.SameMemory u
        ∧ (u.ctx t c).outs.find? (fun b => b.id == id) = some b ∧ b.got = mput a.got k (s.readHome (h.plus (8 * k)) 8) ∧ b.dst = a.dst)
    ∧ (a.st = .performed v → a.own = (s.ctx t c).serial → (s.ctx t c).task.isSome = true → (s.tile t).tags.find? (fun x => x.2 == (c, id)) = none →
      ∃ u, exec (.loadResultReturn t c id) s = .next u
        ∧ (∀ r, a.dst = .x r → r ≠ 0 → (u.ctx t c).getX r = BitVec.ofNat 64 (wopFill a.wop v))
        ∧ (∀ r, a.dst = .f r → (u.ctx t c).getF r = BitVec.ofNat 64 v)
        ∧ (∀ r, a.dst = .pair r → r ≠ 0 → (u.ctx t c).getX r = BitVec.ofNat 64 v ∧ (u.ctx t c).getX (r + 1) = BitVec.ofNat 64 (v / 2 ^ 64))
        ∧ (∀ r, a.dst = .p r → (u.ctx t c).getP r = BitVec.ofNat 256 v)
        ∧ (∀ r, a.dst ≠ .x r → (∀ k, a.dst = .pair k → r ≠ k ∧ r ≠ k + 1) → (u.ctx t c).getX r = (s.ctx t c).getX r)
        ∧ (∀ r, a.dst ≠ .f r → (u.ctx t c).getF r = (s.ctx t c).getF r) ∧ (∀ r, a.dst ≠ .p r → (u.ctx t c).getP r = (s.ctx t c).getP r)
        ∧ (u.ctx t c).regs.pc = (s.ctx t c).regs.pc ∧ s.SameMemory u)

/-- R5, R131, R135: a store that is performed writes its bytes, least significant first, at its home and nowhere else; a .b128 store one 8-byte
half after the other, in an order that is free. Accumulator memory, device memory under a page migration and addresses outside the partition's
granules are not meant here (R137, R310, R380). -/
def Obligations.StoresWriteTheirBytesAndNoOther : Prop :=
  ∀ (s : State) (t c id : Nat) (err : Bool) (a : Access) (h : Home),
    (s.ctx t c).outs.find? (fun b => b.id == id) = some a → a.kind = .store → a.space ≠ 2 → a.home = some h →
    a.st = .issued → (s.ctx t c).mayPerform a = true → s.quarterBusy t a = false → h.isAcc = false → h.isLost = false →
    (∀ pa, h = .dev pa → ∀ k, s.mirrors k = []) →
    (a.wop ≠ .b128 → ∃ u, exec (.memoryAccessAtHome t c id err) s = .next u ∧ s.Wrote u h a.size a.data)
    ∧ (a.wop = .b128 → (∃ k, k < 2 ∧ mfind k a.got = none) →
      ∃ k u, k < 2 ∧ mfind k a.got = none ∧ exec (.memoryAccessAtHome t c id err) s = .next u
        ∧ s.Wrote u (h.plus (8 * k)) 8 (a.data / 2 ^ (64 * k) % 2 ^ 64))

/-- R142 to R144: an atomic reads the old value and writes the new one in one step at its home, with or without a register for the old value; a posted
one of a cancelled scope is dropped there. The reserve tier, addresses outside the partition's granules, and pages under migration are not meant
here (R305, R310, R380). -/
def Obligations.AtomicsReadAndWriteInOneStep : Prop :=
  ∀ (s : State) (t c id : Nat) (err : Bool) (a : Access) (w : Nat),
    (s.ctx t c).outs.find? (fun b => b.id == id) = some a → a.kind = .amo → a.st = .issued → (s.ctx t c).mayPerform a = true →
    (w = 4 ∨ w = 8) → a.size = w → a.data < 2 ^ (8 * w) → a.expd < 2 ^ (8 * w) →
    let updated := fun (h : Home) => ∃ u, exec (.memoryAccessAtHome t c id err) s = .next u
      ∧ s.Wrote u h w (atomicBits (w := 8 * w) a.op (BitVec.ofNat _ (s.readHome h w)) (BitVec.ofNat _ a.data) (BitVec.ofNat _ a.expd)).toNat
      ∧ (a.dst ≠ .none → (u.ctx t c).outs.find? (fun b => b.id == id) = some { a with st := .performed (s.readHome h w) })
    (a.space = 1 → a.home = none → a.dst ≠ .none → a.addr + w ≤ 0x300000 → s.poisonHome (.tile t a.addr) w = false → updated (.tile t a.addr))
    ∧ (∀ h, a.space ≠ 2 → s.homeOf t a = some h → h.isAcc = false → h.isReserve = false → h.isLost = false → s.quarterBusy t a = false →
      s.CacheAgrees t a → (∀ e ∈ s.parts, e.2.job = none) →
      (a.dst ≠ .none ∨ s.dropsPosted (s.partId t) a = false → s.poisonHome h w = false → updated h)
      ∧ (a.dst = .none → s.dropsPosted (s.partId t) a = true → ∃ u, exec (.memoryAccessAtHome t c id err) s = .next u ∧ s.SameMemory u))

/-! Counters, fences, barriers, patterns. -/

/-- R146: CADD issues after its checks, CREAD after alignment and range; CWAIT ends with the status when VALUE has reached the target, and waits when it
has not; a task that a kill takes at a waiting instruction ends there instead (R267). The look that ends a CWAIT.g is a read at the memory edge; that the
looks before it leave no trace there is the model's choice (log 64). R150, R151: a fence issues at once and takes its place among
the outstanding accesses, a FENCE.s behind a zero-length read of the host; a fence with nothing before it leaves nothing behind. -/
def Obligations.CounterInstructionsAndFencesIssue : Prop :=
  (∀ (s : State) (loc : Bool) (d a b : Nat) (h : Home), s.nx a % 16 = 0 →
      (s.resolve s.cur.1 (ctrSpace loc) (s.nx a) 16 true true = .ok h → s.poisonHome h 16 = false →
        exec (.cadd loc d a b) s = .next ((s.push { s.fresh .cadd (ctrSpace loc) (s.nx a) 16 with
          data := s.nx b, dst := if d = 0 then .none else .x d, home := some h }).advance))
      ∧ (s.rangeOk s.cur.1 (ctrSpace loc) (s.nx a) 16 = true →
        exec (.cread loc d a) s = .next ((s.push { s.fresh .cread (ctrSpace loc) (s.nx a) 16 with dst := .x d }).advance))
      ∧ (s.me.trap = true → s.condemned s.cur.1 s.cur.2 = true → exec (.cwait loc d a b) s = .next (s.killTask s.cur.1 s.cur.2))
      ∧ (s.Spared → s.resolve s.cur.1 (ctrSpace loc) (s.nx a) 16 true false = .ok h → s.me.mayRead (ctrSpace loc) (s.nx a) 16 = true →
        s.poisonRead h 16 = false →
        (s.nx b ≤ s.readHome h 16 % 2 ^ 64 →
          ∃ v, s.EdgeOnly v ∧ (loc = true → v = s)
            ∧ exec (.cwait loc d a b) s = .next ((v.setX d (BitVec.ofNat 64 (s.readHome h 16 / 2 ^ 64 % 2 ^ 64))).advance))
        ∧ (s.readHome h 16 % 2 ^ 64 < s.nx b →
          exec (.cwait loc d a b) s = .next (s.modMe fun c => { c with wait := some (.cwait loc d (s.nx a) (s.nx b)) }))))
  ∧ (∀ (s : State) (sc : Scope) (k : FenceKind),
      (sc ≠ .system → exec (.fence sc k) s = .next (((s.push (s.fresh (.fence sc k) 8 0 0)).modMe Ctx.trim).advance))
      ∧ (let z := s.push (s.fresh .zread 4 0 0)
         exec (.fence .system k) s = .next (((z.push (z.fresh (.fence .system k) 8 0 0)).modMe Ctx.trim).advance))
      ∧ (sc ≠ .system → s.me.outs = [] → ∃ t, exec (.fence sc k) s = .next t ∧ t.me.outs = [] ∧ t.pc = s.pc + 8))

/-- R139, R146: a CADD adds to VALUE modulo 2^64 at its record's home, leaves the status bits, and returns the old VALUE when a register awaits it; a
CREAD is performed with VALUE, or faults on poison. -/
def Obligations.CaddAddsToValueAndKeepsTheStatus : Prop :=
  ∀ (s : State) (t c id : Nat) (err : Bool) (a : Access),
    (s.ctx t c).outs.find? (fun b => b.id == id) = some a → a.st = .issued → (s.ctx t c).mayPerform a = true → a.space ≠ 2 →
    s.quarterBusy t a = false → (∀ e ∈ s.parts, e.2.job = none) →
    (∀ h, a.kind = .cadd → a.home = some h → h.isAcc = false → h.isReserve = false → h.isLost = false → s.poisonHome h 16 = false →
      ∃ u, exec (.memoryAccessAtHome t c id err) s = .next u ∧ s.Wrote u h 8 ((s.readHome h 16 + a.data) % 2 ^ 64)
        ∧ (a.dst ≠ .none → (u.ctx t c).outs.find? (fun b => b.id == id) = some { a with st := .performed (s.readHome h 16 % 2 ^ 64) }))
    ∧ (∀ h, a.kind = .cread → a.size = 16 → s.CacheAgrees t a → s.homeOf t a = some h → h.isReserve = false → h.isLost = false →
      ∃ u, s.EdgeOnly u ∧ s.SameMemory u ∧ exec (.memoryAccessAtHome t c id err) s = .next (u.putAccess t c { a with
        st := if s.poisonHome h 16 then .faulted 0x07 a.addr 0 else .performed (s.readHome h 16 % 2 ^ 64) }))

/-- R33, R154: a member's ARRIVE and ARRWAIT send an arrival tagged with P_t, WAIT ends with its status or puts the context in the waiting state,
GQUERY issues its query; a kill that is due in trap mode ends the task at ARRWAIT and WAIT (R267). On an entry that is not valid they trap with
cause 0x04, on a group the tile is no member of with cause 0x0A. -/
def Obligations.BarrierInstructions : Prop :=
  (∀ (s : State) (d a g k : Nat), s.barrierSlot s.cur.1 g = .ok k →
      (let sent := fun w : Bool => (s.modMe fun c => { c with arriving := some ⟨d, g, (s.myTile.latchOf k).1, w, none⟩ })
       let new := s.arrivals ++ [⟨s.myLid, g, (s.myTile.latchOf k).1, s.cur.1, s.cur.2, s.me.serial⟩]
       exec (.arrive d g) s = .next { sent false with arrivals := new }
       ∧ (s.Spared → exec (.arrwait d g) s = .next { sent true with arrivals := new }))
      ∧ (let spent := s.groupSpent s.cur.1 g
         (∀ st, s.Spared → s.me.mayRead 8 0 0 = true → s.barrierDone s.cur.1 g (s.nx a % 2 ^ 32) spent = some st →
          exec (.wait d a g) s = .next ((s.setX d (BitVec.ofNat 64 st)).advance))
        ∧ (s.Spared → s.barrierDone s.cur.1 g (s.nx a % 2 ^ 32) spent = none →
          exec (.wait d a g) s = .next (s.modMe fun c => { c with wait := some (.barrier d g (s.nx a % 2 ^ 32) spent) })))
      ∧ (s.me.trap = true → s.condemned s.cur.1 s.cur.2 = true →
        exec (.arrwait d g) s = .next (s.killTask s.cur.1 s.cur.2) ∧ exec (.wait d a g) s = .next (s.killTask s.cur.1 s.cur.2))
      ∧ exec (.gquery d g) s = .next ((s.push { s.fresh .gquery 8 g 0 with dst := .x d }).advance))
  ∧ (∀ (s : State) (d a g l : Nat), s.CanTrap → s.myTile.lid = some l →
      (mfind g (s.launch l).groups = none →
        ∀ i ∈ [Instr.arrive d g, .arrwait d g, .wait d a g, .gquery d g], exec i s = .next (s.entered 0x04 g 0))
      ∧ ((mfind g (s.launch l).groups).isSome = true → s.myTile.slotOfGroup g = none →
        ∀ i ∈ [Instr.arrive d g, .arrwait d g, .wait d a g, .gquery d g], exec i s = .next (s.entered 0x0A g 0)))

/-- R232, R233: PATLD issues a load of 32 bytes; PATSET replaces the bits of its field, adds to BASE, or copies a whole register; PATGET reads
a field; other bits and registers stay. -/
def Obligations.PatternInstructionsReadAndWriteFields : Prop :=
  ∀ (s : State) (f : PatField) (pd src : Nat),
    (∀ sp, s.nx src % 32 = 0 → s.rangeOk s.cur.1 (patSpace sp) (s.nx src) 32 = true →
      exec (.patld sp pd src) s = .next ((s.push { s.fresh .patld (patSpace sp) (s.nx src) 32 with dst := .p pd }).advance))
    ∧ (f ≠ .copy → f ≠ .add → ∃ v, exec (.patset f pd src) s = .next ((s.setP pd v).advance)
        ∧ ∀ k, k < 256 → v.getLsbD k = if (patBits f).1 ≤ k ∧ k < (patBits f).1 + (patBits f).2 then (s.getX src).getLsbD (k - (patBits f).1)
          else (s.getP pd).getLsbD k)
    ∧ exec (.patset .copy pd src) s = .next ((s.setP pd (s.getP src)).advance)
    ∧ (∃ v, exec (.patset .add pd src) s = .next ((s.setP pd v).advance)
        ∧ v.setWidth 64 = (s.getP pd).setWidth 64 + s.getX src ∧ ∀ k, 64 ≤ k → k < 256 → v.getLsbD k = (s.getP pd).getLsbD k)
    ∧ (f ≠ .copy → f ≠ .add → exec (.patget f src pd) s = .next ((s.setX pd (((s.getP src) >>> (patBits f).1).setWidth (patBits f).2
        |>.setWidth 64)).advance))

/-! Engine queue commands. -/

/-- R222, R229, R234 to R236, R241 to R244, R248: each of the six stream commands and the three copy commands that fails no check and whose bound
is within QUOTELIM enters its queue behind the others with everything captured, and its quote goes to x[qd]; else the queue stays and x[qd]
reads all ones (R41). One that fails checks of R248 traps on the first of them in the order of that rule; that a conversion into FP4-B8, and a result
stream of that format, fail the first row is the model's choice (logs 26 and 66). -/
def Obligations.TransferCommandsEnterTheirQueueOrAreRefused : Prop :=
  (∀ (s : State) (q : QArgs) (n : Nat),
    let stream := fun k => s.queued q.queue q.qd (s.streamEntry k q) n
    (s.StreamPasses .sIn q n → exec (.streamIn q) s = .next (stream .sIn))
    ∧ (s.StreamPasses .sOut q n → exec (.streamOut q) s = .next (stream .sOut))
    ∧ (s.StreamPasses .sRec q n → exec (.streamRec q) s = .next (stream .sRec))
    ∧ (s.StreamPasses .sConst q n → exec (.streamConst q) s = .next (stream .sConst))
    ∧ (s.StreamPasses .sDrop q n → exec (.streamDrop q) s = .next (stream .sDrop))
    ∧ (s.StreamPasses .sInd q n → exec (.streamInd q) s = .next (stream .sInd)))
  ∧ (∀ (s : State) (q : QArgs) (n : Nat),
    let copy := fun k g => s.queued q.queue q.qd (s.copyEntry k q g) n
    (s.CopyPasses .copy q [] n → exec (.copy q) s = .next (copy .copy []))
    ∧ (∀ g, s.groupOf q.aux = some g → s.CopyPasses .mcopy q g n → exec (.mcopy q) s = .next (copy .mcopy g))
    ∧ (∀ g, q.grp = true → s.groupOf q.aux = some g → s.CopyPasses .rcopy q g n → exec (.rcopy q) s = .next (copy .rcopy g))
    ∧ (q.grp = false → s.CopyPasses .rcopy q [] n → exec (.rcopy q) s = .next (copy .rcopy [])))
  ∧ (∀ (s : State) (q : QArgs) (k : QKind) (i : Instr),
    ((k, i) ∈ streamsOf q →
      (∀ f, s.CanTrap → FirstFails (s.streamChecks k q) f → exec i s = .next (s.trapsOn f))
      ∧ (PassAll (s.streamChecks k q) → s.streamFault (s.streamEntry k q) q.pa q.pb = none))
    ∧ ((k, i) ∈ copiesOf q →
      (∀ f, s.CanTrap → FirstFails (s.copyChecks k q) f → exec i s = .next (s.trapsOn f))
      ∧ (PassAll (s.copyChecks k q) → ∃ g, (if k == .mcopy || (k == .rcopy && q.grp) then s.groupOf q.aux else some []) = some g
        ∧ s.copyFault (s.copyEntry k q g) q.pa q.pb q.aux true = none)))
  ∧ ∀ (s : State) (q : QArgs) (k : QKind) (i : Instr) (e : QEntry) (time : Option Nat),
    ((k, i) ∈ streamsOf q ∧ e = s.streamEntry k q ∧ time = s.streamTime e ∧ s.streamFault e q.pa q.pb = none
      ∨ (k, i) ∈ copiesOf q ∧ (∃ g, (if k == .mcopy || (k == .rcopy && q.grp) then s.groupOf q.aux else some []) = some g
          ∧ e = s.copyEntry k q g ∧ s.copyFault e q.pa q.pb q.aux true = none)
        ∧ time = (if s.hostRefused [e.patA, e.patB] then none else s.copyTime e)) →
    (∀ n, time = some n → s.within (s.quoteOf q.queue e n) →
      ∃ t x, exec i s = .next t ∧ (t.myTile.queue q.queue).entries = (s.myTile.queue q.queue).entries ++ [x]
        ∧ x.kind = k ∧ x.pa = (s.getP q.pa).toNat ∧ x.ctr = s.ctrOf q.ctr q.csp ∧ x.amount = e.amount
        ∧ x.quote = s.quoteOf q.queue e n ∧ x.st = .queued
        ∧ (q.qd ≠ 0 → t.getX q.qd = BitVec.ofNat 64 x.quote) ∧ (∀ r, r ≠ q.qd → t.getX r = s.getX r)
        ∧ (∀ r, r ≠ q.queue → t.myTile.queue r = s.myTile.queue r) ∧ s.SameMemory t ∧ t.pc = s.pc + 8)
    ∧ ((time = none ∨ ∃ n, time = some n ∧ s.me.quoteLim ≠ 0 ∧ s.me.quoteLim.toNat < s.quoteOf q.queue e n) →
      exec i s = .next ((s.setX q.qd (BitVec.ofNat 64 (2 ^ 64 - 1))).advance))

/-- R41, R222, R228, R238 to R240: SBAR, SCOND and STITCH whose quote is within QUOTELIM enter their queue as gates; above it x[qd] reads all ones and
nothing else changes. The service time of an SBAR adds the largest load time of the configurations in progress, the model's reading of R228 (log 33).
An SCOND whose counter record fails a check of R248 traps on it. R246, R247: QWAIT goes on when its queues are empty and waits for the entries they
hold when not, or ends a task that a kill takes there (R267); QSTAT reads its word and with CLR then clears FV. -/
def Obligations.GatesQueueWaitsAndStatus : Prop :=
  (∀ (s : State) (q qd qmask xt ctr csp skip mask : Nat) (inv : Bool),
      let time := 4 + (s.myTile.configs qmask).foldl (fun m c => max m (s.folio s.myLid c.2).loadTime) 0
      let gate := fun (i : Instr) (e : QEntry) (n : Nat) => exec i s = .next
        (if s.me.quoteLim = 0 ∨ s.quoteOf q e n ≤ s.me.quoteLim.toNat then s.queued q qd e n else (s.setX qd (BitVec.ofNat 64 (2 ^ 64 - 1))).advance)
      let bar := fun k => { QEntry.blank k with mask := qmask, waits := (s.myTile.configs qmask).map (·.1) }
      gate (.sbarRd q qd qmask) (bar .sbarRd) time ∧ gate (.sbarWr q qd qmask) (bar .sbarWr) time ∧ gate (.sbarAll q qd qmask) (bar .sbarAll) time
      ∧ (s.ctrFault (some (csp, s.nx ctr)) true = none → gate (.scond q xt qd ctr csp inv skip)
          { QEntry.blank .scond with xt := s.nx xt, ctr := some (csp, s.nx ctr), inv := inv, mask := skip } 4)
      ∧ (PassAll (s.ctrChecks (some (csp, s.nx ctr))) → s.ctrFault (some (csp, s.nx ctr)) true = none)
      ∧ (∀ f, s.CanTrap → FirstFails (s.ctrChecks (some (csp, s.nx ctr))) f → exec (.scond q xt qd ctr csp inv skip) s = .next (s.trapsOn f))
      ∧ gate (.stitch q qd mask) { QEntry.blank .stitch with
          mask := mask, waits := s.myTile.inQueues (if bit mask q then mask - 2 ^ q else mask) } 4)
  ∧ (∀ (s : State) (q qd qmask xt ctr csp skip mask : Nat) (inv : Bool) (k : QKind) (i : Instr), s.me.quoteLim = 0 →
      ((k, i) ∈ [(QKind.sbarRd, Instr.sbarRd q qd qmask), (.sbarWr, .sbarWr q qd qmask), (.sbarAll, .sbarAll q qd qmask), (.stitch, .stitch q qd mask)]
        ∨ (k, i) = (.scond, .scond q xt qd ctr csp inv skip) ∧ s.ctrFault (some (csp, s.nx ctr)) true = none) →
      ∃ t x, exec i s = .next t ∧ (t.myTile.queue q).entries = (s.myTile.queue q).entries ++ [x] ∧ x.kind = k ∧ x.st = .queued
        ∧ (k = .scond → x.xt = s.nx xt ∧ x.ctr = some (csp, s.nx ctr) ∧ x.inv = inv ∧ x.mask = skip)
        ∧ (k = .stitch → ∀ id, id ∈ x.waits ↔ ∃ u ∈ s.myTile.queues, bit (if bit mask q then mask - 2 ^ q else mask) u.1 = true
            ∧ ∃ y ∈ u.2.entries, y.id = id)
        ∧ (qd ≠ 0 → t.getX qd = BitVec.ofNat 64 x.quote) ∧ (∀ r, r ≠ qd → t.getX r = s.getX r)
        ∧ (∀ r, r ≠ q → t.myTile.queue r = s.myTile.queue r) ∧ s.SameMemory t ∧ t.pc = s.pc + 8)
  ∧ (∀ (s : State) (mask q d sel : Nat),
      (s.Spared → s.myTile.inQueues mask = [] → exec (.qwait mask) s = .next s.advance)
      ∧ (s.me.trap = true → s.condemned s.cur.1 s.cur.2 = true → exec (.qwait mask) s = .next (s.killTask s.cur.1 s.cur.2))
      ∧ (s.Spared → s.myTile.inQueues mask ≠ [] → exec (.qwait mask) s = .next (s.modMe fun c => { c with wait := some (.qwait (s.myTile.inQueues mask)) }))
      ∧ exec (.qstat q d sel false) s = .next ((s.setX d (BitVec.ofNat 64 ((s.myTile.queue q).word sel))).advance)
      ∧ ∃ t, exec (.qstat q d sel true) s = .next t ∧ (d ≠ 0 → t.getX d = BitVec.ofNat 64 ((s.myTile.queue q).word sel))
          ∧ t.myTile.queue q = { s.myTile.queue q with fv := false } ∧ (∀ r, r ≠ q → t.myTile.queue r = s.myTile.queue r)
          ∧ (∀ r, r ≠ d → t.getX r = s.getX r) ∧ s.SameMemory t ∧ t.pc = s.pc + 8)

/-! Tasks, launches, cancels, scopes. -/

/-- R255 to R257, R322: with its records read and checked (what the memory edge does for the reads apart), a spawning instruction that no limit
refuses publishes every task that no cancel covers, in record order, and writes quote and then status: a register named twice holds the status, which
is the model's choice (log 27). Refused by QUOTELIM, or by a tile that has 16,448 published tasks, it publishes none, and x[xq] reads all ones. -/
def Obligations.SpawnPublishesItsTasks : Prop :=
  ∀ (s v : State) (xr xst xq n : Nat) (l : List (Task × Home)), s.readRecords (s.nx xr) 0 n = (v, .ok l) →
    let live := (l.map Prod.fst).filter fun k => !v.myTile.covers k.scope
    let m := live.length
    let quote := v.spawnQuote l
    s.EdgeOnly v
    ∧ (v.within quote → ∀ u, v.publishAll live = some u →
      let done := ((u.modMe fun c => { c with spawnQ := quote, spawnAt := v.myTile.res }).setX xq (BitVec.ofNat 64 quote))
      exec (.spawnn xr xst xq n) s = .next ((done.setX xst (BitVec.ofNat 64 ((n - m) * 2 ^ 32 + m))).advance)
      ∧ (n = 1 → exec (.spawn xr xst xq) s = .next ((done.setX xst (BitVec.ofNat 64 (1 - m))).advance))
      ∧ (u = { v with pubs := u.pubs } ∧ ∃ new, u.pubs = v.pubs ++ new
        ∧ new.map (fun p => { p.task with vtile := 0 }) = live.map (fun k => { k with vtile := 0 })))
    ∧ ((¬ v.within quote) ∨ (∃ pre k post w, live = pre ++ k :: post ∧ v.publishAll pre = some w ∧ 16448 ≤ w.published (w.placeTask k)) →
      let refused := (v.setX xq (BitVec.ofNat 64 (2 ^ 64 - 1))).advance
      exec (.spawnn xr xst xq n) s = .next refused ∧ (n = 1 → exec (.spawn xr xst xq) s = .next refused)
      ∧ refused.pubs = s.pubs ∧ (∀ t, (refused.tile t).ready = (s.tile t).ready ∧ (refused.tile t).dep = (s.tile t).dep))

/-- R36, R254, R255: a task record is checked in order: alignment of 64 bytes, then its address and poison, then its fields, its dependence, and its
tile. The first failing check of a SPAWN traps with its cause, TRAPADDR the record's address, or DEPADDR for the dependence, and TRAPAUX 0; a SPAWNN
whose records before number k pass traps on record k in the same way, with TRAPAUX k. That the records are judged one after the other, so that a
later one's fault never comes first, is the model's reading (log 27). What the memory edge does for the reads is set apart. -/
def Obligations.SpawnRecordFaultsTrapWithTheirRecordNumber : Prop :=
  ∀ (s v : State) (xr xst xq n k : Nat) (l : List (Task × Home)), k < n → s.readRecords (s.nx xr) 0 k = (v, .ok l) → v.CanTrap →
    let a := (s.nx xr + 64 * k) % 2 ^ 64
    let traps := fun (w : State) (cause addr : Nat) => s.EdgeOnly w ∧ exec (.spawnn xr xst xq n) s = .next (w.entered cause addr k)
      ∧ (n = 1 → exec (.spawn xr xst xq) s = .next (w.entered cause addr 0))
    (a % 64 ≠ 0 → traps v 0x05 a)
    ∧ (∀ cause aux, a % 64 = 0 → v.resolve v.cur.1 0 a 64 true false = .error (cause, aux) → ∃ w, traps w cause a)
    ∧ (∀ h, a % 64 = 0 → v.resolve v.cur.1 0 a 64 true false = .ok h →
      (v.poisonRead h 64 = true → ∃ w, traps w 0x07 a)
      ∧ (v.poisonRead h 64 = false →
        let r := v.readHome h 64
        let bad := bits r 170 0 ≠ 0 ∨ 24 ≤ bits r 175 171 ∨ bits r 258 256 ≠ 0 ∨ scValid (bits r 255 224) = false
          ∨ contains v.me.scope (bits r 255 224) = false ∨ bits r 387 384 ≠ 0
          ∨ ∃ j, j < 4 ∧ bit r (188 + j) = true ∧ mfind (bits r (192 + 8 * j + 7) (192 + 8 * j)) v.myLaunch.groups = none
        (bad → ∃ w, traps w 0x02 a)
        ∧ (¬ bad →
          (∀ cause aux, bits r 447 384 ≠ 0 → v.resolve v.cur.1 0 (bits r 447 384) 16 true false = .error (cause, aux) →
            ∃ w, traps w cause (bits r 447 384))
          ∧ (bits r 447 384 = 0 ∨ (∃ g, v.resolve v.cur.1 0 (bits r 447 384) 16 true false = .ok g) →
            bits r 187 176 ≠ 0xFFF → v.myLaunch.nvt ≤ bits r 187 176 → ∃ w, traps w 0x04 a))))


/-- R258, R263 to R265, R268, R320: LAUNCH with a good descriptor admits a launch and CANCEL of a scope the task may cancel sends it out; each writes
its quote. A CANCEL that contains its issuer's own scope marks the issuer for its end at the next boundary. A LAUNCH that cannot be admitted, by its
quote or its tiles, and a CANCEL above QUOTELIM or with a 257th interval at some tile are refused: x[xq] reads all ones, and no launch and no cancel
is added. LAUNCH traps with TRAPADDR the descriptor's address when the descriptor is misaligned, unreadable or poison, when ENDADDR or CTR is
misaligned or not writable, and with cause 0x02 for its fields or a root that overlaps a live launch's; CANCEL on its scope, then on its record. That
a LAUNCH's checks go in this order, with the aux of R136, is the model's reading (log 34). -/
def Obligations.LaunchAndCancelAreAccepted : Prop :=
  ∀ (s : State) (xa xb xq : Nat) (h : Home),
    (s.CanTrap → s.nx xa % 64 ≠ 0 → exec (.launch xa xq) s = .next (s.entered 0x05 (s.nx xa) 0))
    ∧ (∀ cause aux, s.CanTrap → s.nx xa % 64 = 0 → s.resolve s.cur.1 0 (s.nx xa) 64 true false = .error (cause, aux) →
      exec (.launch xa xq) s = .next ((s.missed cause (s.nx xa) true false).entered cause (s.nx xa) aux))
    ∧ (s.CanTrap → s.nx xa % 64 = 0 → s.resolve s.cur.1 0 (s.nx xa) 64 true false = .ok h → s.poisonRead h 64 = true →
      ∃ v, s.EdgeOnly v ∧ exec (.launch xa xq) s = .next (v.entered 0x07 (s.nx xa) 0))
    ∧ (s.nx xa % 64 = 0 → s.resolve s.cur.1 0 (s.nx xa) 64 true false = .ok h → s.poisonRead h 64 = false →
      ∃ v, s.EdgeOnly v
        ∧ (let d := descOf (v.readHome h 64)
          let traps := fun (cause aux : Nat) => s.CanTrap → exec (.launch xa xq) s = .next (v.entered cause (s.nx xa) aux)
          let names := fun (a n : Nat) => v.writable v.myPart (ioDie v.myPart) a n
          let good := fun (a n : Nat) => a = 0 ∨ ∃ g, names a n = .ok g
          let bad := d.zeroBad = true ∨ d.nvt = 0 ∨ 3072 < d.nvt ∨ 24 ≤ d.pri ∨ scValid d.root = false ∨ v.rootTaken v.myPart d.root = true
          (d.endAddr % 32 ≠ 0 ∨ d.ctr % 16 ≠ 0 → traps 0x05 0)
          ∧ (d.endAddr % 32 = 0 → d.ctr % 16 = 0 →
            (∀ c x, d.endAddr ≠ 0 → names d.endAddr 32 = .error (c, x) → traps c x)
            ∧ (∀ c x, good d.endAddr 32 → d.ctr ≠ 0 → names d.ctr 16 = .error (c, x) → traps c x)
            ∧ (good d.endAddr 32 → good d.ctr 16 → (bad → traps 0x02 0)
              ∧ (¬ bad → v.descFault v.myPart (ioDie v.myPart) d = none
                ∧ ∀ q, v.launchQuote v.myPart (ioDie v.myPart) d = some q → v.within q → d.nvt ≤ v.unreserved v.myPart →
                  ∃ u, v.enrol v.myPart (ioDie v.myPart) v.me.quoteLim.toNat d (s.nx xa) (some v.myLid) none = some (q, u)))))
        ∧ (v.descFault v.myPart (ioDie v.myPart) (descOf (v.readHome h 64)) = none →
          let d := descOf (v.readHome h 64)
          let admits := v.enrol v.myPart (ioDie v.myPart) v.me.quoteLim.toNat d (s.nx xa) (some v.myLid) none
          (∀ q u, admits = some (q, u) → exec (.launch xa xq) s = .next ((u.setX xq (BitVec.ofNat 64 q)).advance)
            ∧ (u.launch u.nextLid).st = .admitted ∧ u.nextLid = s.nextLid + 1 ∧ (u.launch u.nextLid).root = d.root ∧ v.launchQuote v.myPart (ioDie v.myPart) d = some q)
          ∧ (v.launchQuote v.myPart (ioDie v.myPart) d = none ∨ (∃ q, v.launchQuote v.myPart (ioDie v.myPart) d = some q ∧ ¬ v.within q)
              ∨ v.unreserved v.myPart < d.nvt →
            exec (.launch xa xq) s = .next ((v.setX xq (BitVec.ofNat 64 (2 ^ 64 - 1))).advance))))
    ∧ (scValid (s.nx xa) = true → s.mayCancel (s.nx xa) = true → s.nx xb % 32 = 0 → s.resolve s.cur.1 0 (s.nx xb) 32 false true = .ok h →
      (¬ s.within (s.cancelQuote s.myPart (s.nx xa))) ∨ s.cancelFull s.myPart (s.nx xa) = true →
      exec (.cancel xa xb xq) s = .next ((s.setX xq (BitVec.ofNat 64 (2 ^ 64 - 1))).advance))
    ∧ (scValid (s.nx xa) = true → s.mayCancel (s.nx xa) = true → s.nx xb % 32 = 0 → s.resolve s.cur.1 0 (s.nx xb) 32 false true = .ok h →
      s.within (s.cancelQuote s.myPart (s.nx xa)) → s.cancelFull s.myPart (s.nx xa) = false →
      ∃ t c, exec (.cancel xa xb xq) s = .next t ∧ t.cancels = mput s.cancels (s.nextCancel + 1) c ∧ c.scope = s.nx xa ∧ c.part = s.myPart
        ∧ c.ack = some (s.nx xb) ∧ c.done = false ∧ c.tiles = (s.part s.myPart).tiles
        ∧ t.me.doom = (if contains (s.nx xa) s.me.scope then some (s.nextCancel + 1) else s.me.doom)
        ∧ (xq ≠ 0 → t.getX xq = BitVec.ofNat 64 (s.cancelQuote s.myPart (s.nx xa)))
        ∧ (∀ r, r ≠ xq → t.getX r = s.getX r) ∧ s.SameMemory t ∧ t.pc = s.pc + 8)
    ∧ (s.CanTrap → scValid (s.nx xa) = false ∨ s.mayCancel (s.nx xa) = false →
      exec (.cancel xa xb xq) s = .next (s.entered 0x0F 0 (s.nx xa)))
    ∧ (s.CanTrap → scValid (s.nx xa) = true → s.mayCancel (s.nx xa) = true →
      (s.nx xb % 32 ≠ 0 → exec (.cancel xa xb xq) s = .next (s.entered 0x05 (s.nx xb) 0))
      ∧ ∀ cause aux, s.nx xb % 32 = 0 → s.resolve s.cur.1 0 (s.nx xb) 32 false true = .error (cause, aux) →
        exec (.cancel xa xb xq) s = .next ((s.missed cause (s.nx xb) false true).entered cause (s.nx xb) aux))

/-- R13, R269: EXIT ends its task and frees its context, with a contribution when it names a record; YIELD goes on when no task of its
priority is ready, else it requeues the task with its registers. -/
def Obligations.ExitAndYieldGiveUpTheContext : Prop :=
  ∀ (s : State) (loc : Bool) (a b : Nat) (h : Home) (k : Task),
    (∃ t, exec (.exit loc 0 0) s = .next t ∧ t.me.task = none ∧ t.me.wait = none ∧ t.me.trap = false ∧ t.me.cont = none)
    ∧ (a ≠ 0 → s.nx a % 16 = 0 → s.resolve s.cur.1 (ctrSpace loc) (s.nx a) 16 true true = .ok h → s.poisonRead h 16 = false →
      exec (.exit loc a b) s = .next ((s.push { s.fresh .cadd (ctrSpace loc) (s.nx a) 16 with data := s.nx b, home := some h }).endTask
        s.cur.1 s.cur.2))
    ∧ (s.me.trap = false → s.myTile.readyAt s.me.prio = false → exec .yield s = .next s.advance)
    ∧ (s.me.trap = false → s.myTile.readyAt s.me.prio = true → s.me.task = some k → s.me.cont = none →
      ∃ t, exec .yield s = .next t ∧ t.me.task = none
        ∧ mget [] t.myTile.ready s.me.prio = mget [] s.myTile.ready s.me.prio
            ++ [{ k with pri := s.me.prio, saved := some { s.me.regs with pc := s.me.regs.pc + 8 }, lastPc := some s.me.regs.pc }])

/-- R34, R261, R262: SCOPE.set and SCOPE.split check parent and child and give the child, or all ones when this tile's cancel set covers it;
a violation traps with cause 0x0F; SQUERY reports the relations of two scopes; CHKC kills a task whose kill is due, in trap mode too, and else has
no effect. -/
def Obligations.ScopeInstructionsCheckContainment : Prop :=
  ∀ (s : State) (d p c a : Nat),
    (let pv := if p = 0 then s.me.scope else s.nx p
     let ok := fun v : Nat => scValid v = true ∧ scLo pv < scLo v ∧ scHi v ≤ scHi pv
     let child := fun v : Nat => (s.setX d (if s.myTile.covers v then BitVec.ofNat 64 (2 ^ 64 - 1) else BitVec.ofNat 64 v)).advance
     let split := (scLo pv + 1 + bits (s.nx c) 31 16 * bits (s.nx c) 15 0) * 2 ^ 16 + (scLo pv + 1 + bits (s.nx c) 31 16 * bits (s.nx c) 15 0
        + bits (s.nx c) 15 0 - 1)
     (scValid pv = true → contains s.me.scope pv = true →
      (ok (s.nx c % 2 ^ 32) → exec (.scopeSet d p c) s = .next (child (s.nx c % 2 ^ 32)))
      ∧ (s.CanTrap → ¬ ok (s.nx c % 2 ^ 32) → exec (.scopeSet d p c) s = .next (s.entered 0x0F 0 (s.nx c % 2 ^ 32)))
      ∧ (bits (s.nx c) 15 0 ≠ 0 → scLo pv + 1 + bits (s.nx c) 31 16 * bits (s.nx c) 15 0 + bits (s.nx c) 15 0 - 1 ≤ 0xFFFF →
        (ok split → exec (.scopeSplit d p c) s = .next (child split))
        ∧ (s.CanTrap → ¬ ok split → exec (.scopeSplit d p c) s = .next (s.entered 0x0F 0 split)))
      ∧ (s.CanTrap → bits (s.nx c) 15 0 = 0 ∨ 0xFFFF < scLo pv + 1 + bits (s.nx c) 31 16 * bits (s.nx c) 15 0 + bits (s.nx c) 15 0 - 1 →
        exec (.scopeSplit d p c) s = .next (s.entered 0x0F 0 pv)))
     ∧ (s.CanTrap → scValid pv = false ∨ contains s.me.scope pv = false →
      exec (.scopeSet d p c) s = .next (s.entered 0x0F 0 pv) ∧ exec (.scopeSplit d p c) s = .next (s.entered 0x0F 0 pv)))
    ∧ exec (.squery d a) s = .next ((s.setX d (BitVec.ofNat 64 (if scValid (s.nx a) then
        b2n (contains (s.nx a) s.me.scope) * 8 + b2n (contains s.me.scope (s.nx a)) * 2 + b2n (s.myTile.covers (s.nx a)) else 4))).advance)
    ∧ (s.condemned s.cur.1 s.cur.2 = false → exec .chkc s = .next s.advance)
    ∧ (∀ k, s.condemned s.cur.1 s.cur.2 = true → s.me.task = some k → ∃ t, exec .chkc s = .next t ∧ t.me.task = none)

/-- R270, R274 to R276: NOP has no effect; PRIO takes at most the partition's cap; MTRD issues its read; HALT ends
its task and cancels the launch's root with no record. -/
def Obligations.SystemInstructionEffects : Prop :=
  ∀ (s : State) (reg : Bool) (v d m code : Nat),
    exec .nop s = .next s.advance
    ∧ exec (.prio reg v) s = .next ((s.modMe fun c => { c with
        prio := min (if reg then s.nx v else v) (if s.deadline s.myPart then 23 else 19) }).advance)
    ∧ exec (.mtrd d m) s = .next ((s.push { s.fresh .mtrd 8 m 0 with dst := .x d }).advance)
    ∧ (∃ t c, exec (.halt code) s = .next t ∧ t.me.task = none ∧ t.cancels = mput s.cancels (s.nextCancel + 1) c
        ∧ c.scope = s.myLaunch.root ∧ c.ack = none ∧ (t.launch s.myLid).hlt = true
        ∧ (s.myLaunch.hlt = false → (t.launch s.myLid).hcode = code) ∧ (s.myLaunch.hlt = true → t.launch s.myLid = s.myLaunch))

/-! Blocks and regions. -/

/-- R85, R169 to R171, R179, R186, R237: a block instruction of each class that no check stops and whose bound streams no bound refuses becomes the
thread token of its context, which waits for the instance with its patterns and counters captured; a refused one starts nothing, and that its context
then goes on behind its words is the model's reading (log 17); its folio absent, it traps with cause 0x04; a binding that fails, with cause 0x0B,
TRAPADDR 0: that this comes before the check of a reserved FMT and with TRAPADDR 0 is the model's choice (log 65), and so is the lowest reason where
several fail (log 64). At the header of a continuation, outside trap mode, it resumes its instance. -/
def Obligations.BlockInstructionsWaitAsThreadTokens : Prop :=
  (∀ (s : State) (b : BlockArgs),
    (s.BlockPasses 0 b → exec (.blockMWs b) s = .next (s.token 0 b)) ∧ (s.BlockPasses 1 b → exec (.blockMOs b) s = .next (s.token 1 b))
    ∧ (s.BlockPasses 2 b → exec (.blockE b) s = .next (s.token 2 b)) ∧ (s.BlockPasses 3 b → exec (.blockA b) s = .next (s.token 3 b))
    ∧ (s.BlockPasses 4 b → exec (.blockS b) s = .next (s.token 4 b)) ∧ (s.BlockPasses 5 b → exec (.blockZ b) s = .next (s.token 5 b))
    ∧ (s.BlockPasses 6 b → exec (.blockG b) s = .next (s.token 6 b)))
  ∧ (∀ (s : State) (b : BlockArgs) (cls qmask : Nat) (i : Instr), (cls, i) ∈ blocksOf b → s.me.trap = false → s.me.cont = some (qmask, s.pc.toNat) →
    ∃ t, exec i s = .next t ∧ t.me.cont = none ∧ t.me.wait = some (.block cls b [] [] s.myTile.res []) ∧ t.pc = s.pc ∧ s.SameMemory t)
  ∧ ∀ (s : State) (b : BlockArgs) (cls : Nat) (i : Instr), (cls, i) ∈ blocksOf b → s.StartsNew →
    (s.CanTrap → mfind b.folio s.myLaunch.folios = none → exec i s = .next (s.entered 0x04 s.pc.toNat b.folio))
    ∧ ∀ f, mfind b.folio s.myLaunch.folios = some f →
      let imgs := b.binds.map (fun x => (s.getP x.pat).toNat) ++ (if cls = 6 then (List.range 16).map fun k => (s.getP k).toNat else [])
      let ctrs := b.binds.map fun x => s.nx x.ctr
      (∀ aux, s.CanTrap → s.blockFails cls b imgs f = some aux → exec i s = .next (s.entered 0x0B 0 aux))
      ∧ (s.blockFails cls b imgs f = none → s.raceFails cls imgs (imgs.length - 16) f = none →
        (∀ c ∈ s.bindCmds s.cur.1 b imgs ctrs f, s.streamFault c.entry c.reg 0 = none) →
        (s.bindsRefused (s.bindCmds s.cur.1 b imgs ctrs f) = true → exec i s = .next (s.advanceBy (8 * (2 + b.loops.length + b.binds.length))))
        ∧ (s.bindsRefused (s.bindCmds s.cur.1 b imgs ctrs f) = false →
          (s.Spared → exec i s = .next (s.modMe fun c => { c with wait := some (.block cls b imgs ctrs s.myTile.res c.undone) }))
          ∧ (s.me.trap = true → s.condemned s.cur.1 s.cur.2 = true → exec i s = .next (s.killTask s.cur.1 s.cur.2))))

/-- R59, R162, R181, R190 to R192, R195: CFGLD starts a load and drops the shadows that share a quarter; CFGSW with a valid shadow sends its switch,
with none it traps; BDRAIN goes on when nothing is in progress on its quarters, else it waits; BSTAT reads its word, whose instance fields are those
of the context's last instance on the quarters. That a shadow of exactly this mask is meant is the model's reading (log 65). -/
def Obligations.RegionConfigurationInstructions : Prop :=
  ∀ (s : State) (qmask folio d sel : Nat),
    (∀ f, mfind folio s.myLaunch.folios = some f → ∃ t l, exec (.cfgld qmask folio) s = .next t ∧ t.myTile.loads.getLast? = some l
        ∧ l.qmask = qmask ∧ l.folio = folio ∧ l.by_ = some (s.cur.2, s.me.serial, s.pc.toNat) ∧ l.left = (f.size + 255) / 256
        ∧ (∀ e ∈ t.myTile.shadow, masksMeet e.1 qmask = false) ∧ s.SameMemory t ∧ t.pc = s.pc + 8)
    ∧ (s.CanTrap → mfind folio s.myLaunch.folios = none → exec (.cfgld qmask folio) s = .next (s.entered 0x04 s.pc.toNat folio))
    ∧ (∀ f, s.myTile.shadowOf qmask = some f → (s.myTile.sweeps.any fun w => w.qmask == qmask && w.at_ == (s.die (dieOf s.cur.1)).cycle) = false →
        ∃ t w, exec (.cfgsw qmask) s = .next t ∧ t.myTile.sweeps = s.myTile.sweeps ++ [w] ∧ w.qmask = qmask ∧ w.folio = f
          ∧ w.left = (s.folio s.myLid f).plen ∧ s.SameMemory t ∧ t.pc = s.pc + 8)
    ∧ (s.CanTrap → s.myTile.shadowOf qmask = none → exec (.cfgsw qmask) s = .next (s.entered 0x0E s.pc.toNat 6))
    ∧ (s.Spared → s.myTile.drained qmask = true → exec (.bdrain qmask) s = .next s.advance)
    ∧ (s.me.trap = true → s.condemned s.cur.1 s.cur.2 = true → exec (.bdrain qmask) s = .next (s.killTask s.cur.1 s.cur.2))
    ∧ (s.Spared → s.myTile.drained qmask = false → exec (.bdrain qmask) s = .next (s.modMe fun c => { c with wait := some (.bdrain qmask) }))
    ∧ exec (.bstat d qmask sel) s = .next ((s.setX d (BitVec.ofNat 64 (s.bstatWord qmask sel))).advance)
    ∧ (let b := s.me.statusOf qmask
       let sf := s.myTile.shadowOf qmask
       let lf := s.myTile.liveOf qmask
       let w := s.bstatWord qmask 0
       (sf.getD 0 < 2 ^ 12 → lf.getD 0 < 2 ^ 12 →
         bits w 63 32 = min b.beats (2 ^ 32 - 1) ∧ bits w 31 20 = sf.getD 0 ∧ bits w 19 8 = lf.getD 0 ∧ bit w 7 = false
         ∧ bit w 6 = (s.me.cont.any fun h => masksMeet h.1 qmask) ∧ bit w 5 = b.cinv ∧ bit w 4 = b.stray ∧ bit w 3 = b.ls
         ∧ bit w 2 = sf.isSome ∧ bit w 1 = lf.isSome
         ∧ bit w 0 = (s.myTile.owned qmask || s.myTile.sweeps.any fun e => masksMeet e.qmask qmask) ∧ w < 2 ^ 64)
       ∧ (b.i0 < 2 ^ 20 → b.i1 < 2 ^ 20 → b.i2 < 2 ^ 20 → b.i3 < 2 ^ 20 →
         let v := s.bstatWord qmask 1
         bits v 19 0 = b.i0 ∧ bits v 39 20 = b.i1 ∧ bits v 59 40 = b.i2 ∧ v < 2 ^ 60 ∧ s.bstatWord qmask 2 = b.i3)
       ∧ s.bstatWord qmask 3 = min b.strays (2 ^ 32 - 1)
       ∧ ((s.me.bstat.filter fun e => bit qmask e.1) = [] → b.beats = 0 ∧ b.cinv = false ∧ b.stray = false ∧ b.ls = false ∧ b.i0 = 0 ∧ b.i1 = 0
         ∧ b.i2 = 0 ∧ b.i3 = 0 ∧ b.strays = 0)
       ∧ (∀ q x, (s.me.bstat.filter fun e => bit qmask e.1) = [(q, x)] → b = x)
       ∧ (∀ q r x y, (s.me.bstat.filter fun e => bit qmask e.1) = [(q, x), (r, y)] → x.no < y.no → b = y))

/-- R194: SPINE sets the overrides of the quarters of its mask; ACCCLR makes the nodes of its quarters read zero and leaves the others; ACCRD
gives the nodes of its quarters, node after node, to a bound port of the right count, and traps with cause 0x0B when there is none. R194 says nothing
of results in LAYOUT 3: that they are compressed, and that a group which would hold too many values traps with cause 0x0C, TRAPADDR 0 and TRAPAUX 0,
is the model's choice (log 21). -/
def Obligations.SpineAndAccumulatorInstructions : Prop :=
  ∀ (s : State) (qmask acc ep rm : Nat) (win : Option Nat) (clr sat : Bool),
    (∃ t, exec (.spine qmask win acc) s = .next t ∧ s.OnlyMe t ∧ s.SameMemory t ∧ t.pc = s.pc + 8
        ∧ ∀ q, q < 4 → mfind q t.me.regs.spineWin = (if bit qmask q then win else mfind q s.me.regs.spineWin)
          ∧ mfind q t.me.regs.spineAcc = (if bit qmask q then (if acc = 0 then none else some acc) else mfind q s.me.regs.spineAcc))
    ∧ (∃ t, exec (.accclr qmask) s = .next t ∧ t.pc = s.pc + 8
        ∧ (∀ off, t.readHome (.acc s.cur.1 off) 1 = if bit qmask (off / 8192) then 0 else s.readHome (.acc s.cur.1 off) 1)
        ∧ ∀ g : Home, g.at 0 ≠ .acc s.cur.1 0 → t.readHome g 1 = s.readHome g 1)
    ∧ (∀ r, s.CanTrap → s.accrdFault qmask ep = some r → exec (.accrd qmask ep clr rm sat) s = .next (s.entered 0x0B 0 (r + keyAux (16 + ep))))
    ∧ (s.CanTrap → s.accrdFault qmask ep = none → egressWhole (s.accrdPat ep) (Rm.ofCode rm) sat (s.accrdVals qmask) = none →
        exec (.accrd qmask ep clr rm sat) s = .next (s.entered 0x0C 0 0))
    ∧ (∀ out, s.accrdFault qmask ep = none → egressWhole (s.accrdPat ep) (Rm.ofCode rm) sat (s.accrdVals qmask) = some out →
        ∃ t, exec (.accrd qmask ep clr rm sat) s = .next t ∧ t.pc = s.pc + 8
        ∧ (∀ r, t.getX r = s.getX r ∧ t.getF r = s.getF r ∧ t.getB r = s.getB r ∧ t.getP r = s.getP r)
        ∧ (∃ l, (mget Port.reset t.myTile.eps ep).fifo = (mget Port.reset s.myTile.eps ep).fifo ++ l ∧ l.map (·.bits) = out.map Prod.fst)
        ∧ (clr = false → s.SameMemory t)
        ∧ (clr = true → ∀ off, bit qmask (off / 8192) = true → t.readHome (.acc s.cur.1 off) 1 = 0))

/-! Encoding. -/

/-- R76, R78 and the encodings the spec writes out: words of every family decode to the instruction they stand for. A word whose major has no
assignment is rejected in step 1, the all-zero and all-ones words included, with cause 0x01. -/
def Obligations.SpecWordsDecode : Prop :=
  (decode [0x1002950000000000] = .ok (.add .x 5 5 8) ∧ decode [0x10652D8010000000] = .ok (.divn .w 10 11 12)
      ∧ decode [0x11C3840000000000] = .ok (.mov 7 1) ∧ decode [0x1264A96C10000000] = .ok (.morton true 9 10 11 12)
      ∧ decode [0x1811840000000000 + 0xFFFFFFF0] = .ok (.andi .x 3 1 0xFFFFFFF0) ∧ decode [0x1896B40000000B20] = .ok (.bext 13 13 32 12)
      ∧ decode [0x3000886000000000] = .ok (.fadd .d .fmode 1 2 3)
      ∧ decode [0x4015B00000000002] = .ok (.bc (.rel .ne 11 12) 2) ∧ decode [0x420F80000005FF88] = .ok (.call 31 0x5FF88)
      ∧ decode [0x43107C0000000000] = .ok (.ret 31) ∧ decode [0x44030000FFFFFFFD] = .ok (.loop 6 0xFFFFFFFD)
      ∧ decode [0x4800886020000000] = .ok (.pset .lt 1 2 3) ∧ decode [0x4C02800000000011] = .ok (.rds 5 0x11)
      ∧ decode [0x4C101C0000000012] = .ok (.wrs 0x12 7)
      ∧ decode [0x50341C0100000000] = .ok (.ldg ⟨.b64, .acq, 8, 7, 0, 0, 0⟩) ∧ decode [0x5132840000000080] = .ok (.stg ⟨.b64, .plain, 5, 1, 0, 0, 128⟩)
      ∧ decode [0x528298E800000000] = .ok (.amog ⟨.minn, true, .plain, 5, 6, 7, 0⟩)
      ∧ decode [0x563D6C0000000000] = .ok (.stx ⟨.b64, .plain, 26, 27, 0, 0, 0⟩)
      ∧ decode [0x601031A000000000] = .ok (.cwait false 0 12 13) ∧ decode [0x6120000020000000] = .ok (.fence .partition .rel)
      ∧ decode [0x6222000000000005] = .ok (.arrwait 4 5) ∧ decode [0x7000202800000001] = .ok (.patld .l 2 5)
      ∧ decode [0x7124600000000040] = .ok (.streamRec ⟨4, 6, 0, 0, 0, 0, 0, 0, 0, false, false, 4, 0⟩)
      ∧ decode [0x7201000000000001] = .ok (.sbarRd 1 0 1)
      ∧ decode [0x8001230012C40000] = .ok (.copy ⟨1, 2, 3, 0, 0, 9, 12, 1, 0, false, false, 0, 0⟩) ∧ decode [0x8102000014000002] = .ok (.stitch 2 10 2)
      ∧ decode [0x9010004316000002] = .ok (.spawnn 8 12 11 3) ∧ decode [0x912A828010000000] = .ok (.scopeSplit 21 0 20)
      ∧ decode [0x911031A000000000] = .ok (.exit false 12 13) ∧ decode [0xA000100000000005] = .ok (.trap 4 5)
      ∧ decode [0xA010000000000001] = .ok .tretN ∧ decode [0xA050000000000000] = .ok .nop
      ∧ decode [0xB800000100000003] = .ok (.cfgld 1 3) ∧ decode [0xB834800100000000] = .ok (.bstat 9 1 0)
      ∧ decode [0xB051003000000000, 0x44A0200000000000, 0x4000040000000000, 0x8042000000000000, 0x8262000000000000, 0xA084700000000000]
        = .ok (.blockMWs ⟨1, 3, false, false, false, 0, ⟨4, 4, 2, 2, 0, 2, 0, 0, 0, false, false, false, 0, 0, 0, 0, 0⟩, [4],
            [⟨false, 0, 2, 1, 0⟩, ⟨false, 1, 3, 1, 0⟩, ⟨true, 0, 4, 2, 7⟩]⟩)
      ∧ decode [0x10D0000000000001] = .error ⟨.unassignedFunction, 0⟩ ∧ Reject.unassignedFunction.cause = 0x01)
  ∧ (∀ (w : Nat) (exts : List Nat),
      majorOf w ∉ [0x10, 0x11, 0x12, 0x18, 0x30, 0x40, 0x41, 0x42, 0x43, 0x44, 0x48, 0x4C, 0x50, 0x51, 0x52, 0x53, 0x54, 0x55, 0x56, 0x57,
        0x58, 0x59, 0x5A, 0x5B, 0x5C, 0x5D, 0x5E, 0x60, 0x61, 0x62, 0x70, 0x71, 0x72, 0x80, 0x81, 0x90, 0x91, 0xA0, 0xB0, 0xB1, 0xB2, 0xB3,
        0xB4, 0xB5, 0xB8] → decode (w :: exts) = .error ⟨.unassignedMajor, 0⟩ ∧ Reject.unassignedMajor.cause = 0x01)

/-- R73 to R89: decoding the encoding of a well-formed instruction gives it back, every operand at every value its field admits, whatever
words follow it. -/
def Obligations.DecodeOfEncodeIsTheInstruction : Prop :=
  ∀ (i : Instr) (more : List Nat), i.isSequencer = true → i.wf = true → decode (encode i ++ more) = .ok i

/-- R76, R77: no encoding is ignored: words that decode are the encoding of the well-formed instruction they decode to, bit for bit. -/
def Obligations.DecodedWordsAreTheEncoding : Prop :=
  ∀ (w : Nat) (exts : List Nat) (i : Instr), (∀ v ∈ w :: exts, v < 2 ^ 64) → exts.length = extCount w → decode (w :: exts) = .ok i →
    i.isSequencer = true ∧ i.wf = true ∧ encode i = w :: exts

/-! One step. -/

/-- R16, R71, R72: in the issue slot of a context that may issue, outside a kill and a deferred trap, the words at its pc are fetched and the
instruction they decode to is executed, once no interlock holds it. Around it the step takes the slot from the agenda, notes the address and
charges the budget; no register and no byte changes by that. That the words executed are the ones the store holds at issue, fence or not, is the model's
choice among the old and the new word that R72 allows (log 60). -/
def Obligations.StepRunsTheDecodedInstruction : Prop :=
  ∀ (s : State) (t c : Nat) (rest : List Act) (i : Instr),
    let s0 := { s with agenda := rest, cur := (t, c) }
    let x := s.ctx t c
    let tl := s.tile t
    let pc := x.regs.pc.toNat
    let n := 1 + extCount (tl.store.read pc 8)
    s.powered = true → s.agenda = .issue t c :: rest → x.task.isSome = true → x.halted = false → x.wait = none → x.arriving = none →
    (x.trap = true ∨ s.condemned t c = false) → x.trapDue = false → x.fetchHeld = false →
    pc % 8 = 0 → pc + 8 * n ≤ 0x300000 → tl.store.poisoned pc (8 * n) = false → (∀ k, k < n → s.wordHeld t c (pc + 8 * k) = false) →
    decode ((List.range n).map fun k => tl.store.read (pc + 8 * k) 8) = .ok i → s0.stalled i = false →
    ∃ u, step s = exec i u ∧ u = s0.issued.chargeIssue i ∧ u.pc = s0.pc ∧ u.me.lastPc = some s0.pc
      ∧ (∀ r, u.getX r = s0.getX r ∧ u.getF r = s0.getF r ∧ u.getB r = s0.getB r ∧ u.getP r = s0.getP r) ∧ s0.SameMemory u

/-- R15, R77, R124: the slot of a context whose pc is misaligned, outside the tile store or on a poisoned word enters the trap of the fetch,
TRAPAUX the last instruction's address; words that do not decode enter the encoding trap with the failing word, and nothing else changes. A fetch
that a fence orders, or whose word is being written, waits instead (R72, R150, R160). That a pc both misaligned and outside the store gives 0x05 is the model's choice (log 59),
and so is that waiting is judged before poison (log 60). -/
def Obligations.FetchAndEncodingTraps : Prop :=
  ∀ (s : State) (t c : Nat) (rest : List Act),
    let s0 := { s with agenda := rest, cur := (t, c) }
    let x := s.ctx t c
    let tl := s.tile t
    let pc := x.regs.pc.toNat
    let n := 1 + extCount (tl.store.read pc 8)
    let aux := match x.lastPc with | some p => p.toNat | none => 2 ^ 64 - 1
    s.powered = true → s.agenda = .issue t c :: rest → x.task.isSome = true → x.halted = false → x.wait = none → x.arriving = none →
    s.condemned t c = false → x.deferred = [] → s0.CanTrap →
    (x.fetchHeld = true → step s = .next s0)
    ∧ (x.fetchHeld = false → pc % 8 = 0 → pc < 0x300000 → s.wordHeld t c pc = true → step s = .next s0)
    ∧ (x.fetchHeld = false → pc % 8 ≠ 0 → step s = .next (s0.entered 0x05 pc aux) ∧ exec (.fetchFault t c) s0 = .next (s0.entered 0x05 pc aux))
    ∧ (x.fetchHeld = false → pc % 8 = 0 → 0x300000 ≤ pc → step s = .next (s0.entered 0x04 pc aux))
    ∧ (x.fetchHeld = false → pc % 8 = 0 → pc < 0x300000 → s.wordHeld t c pc = false → tl.store.poisoned pc 8 = true →
      step s = .next (s0.entered 0x07 pc aux))
    ∧ (∀ b, x.fetchHeld = false → pc % 8 = 0 → pc + 8 * n ≤ 0x300000 → tl.store.poisoned pc (8 * n) = false →
      (∀ k, k < n → s.wordHeld t c (pc + 8 * k) = false) →
      decode ((List.range n).map fun k => tl.store.read (pc + 8 * k) 8) = .error b →
      step s = .next (s0.issued.entered b.why.cause (pc + 8 * b.word) (tl.store.read (pc + 8 * b.word) 8)))

/-- R17, R376, R377: after bring-up every die's CYCLE and LCLK are 0, BUDGET is its default of 96, no partition is configured, no task runs, no
memory holds a byte other than 0 or carries poison, and the memories are in canonical form. R376 zeroes the stacks: that tile stores, staging,
accumulator and host memory too read 0 and carry no poison is the model's choice (log 1), and so is that the first step is die 0's clock (log 3). -/
def Obligations.ResetState : Prop :=
  Memory.wf State.reset = true
    ∧ (∀ d, (State.reset.die d).cycle = 0 ∧ (State.reset.die d).lclk = 0)
    ∧ (∀ t, (State.reset.tile t).budget = 96 ∧ ∀ c, (State.reset.ctx t c).task = none ∧ (State.reset.ctx t c).trap = false)
    ∧ (∀ p, (State.reset.part p).valid = false ∧ (State.reset.part p).sched = none)
    ∧ (∀ h n, h.isLost = false → State.reset.readHome h n = 0 ∧ State.reset.poisonHome h n = false)
    ∧ ∃ s, step State.reset = .next s ∧ (s.die 0).cycle = 1

/-! Invariants and rules of the whole machine. -/

/-- Every byte store of the module keeps its canonical form in every step: addresses strictly rising, no listed byte equal to what an unlisted
one reads as. The form is the model's own (log 1). -/
def Obligations.EveryStepKeepsTheMemoriesCanonical : Prop :=
  ∀ s s' : State, Memory.wf s = true → s.Goes s' → Memory.wf s' = true

/-- R13, R28, R133: no instruction of a context changes, when it executes, a byte of any memory but its own tile's accumulator nodes, nor
anything of another tile: memory is written when accesses and queue entries are performed. Of the dies and links only a translation cache changes
(R302). An instruction that reads a record of space 0 in its own step has the memory edge act on the read: a page under migration is copied
(R310), an address outside the granules is logged in the partition's ring (R380); it still writes no tile and no staging byte, with no migration no
byte of device memory, and when no record is logged none of the host. -/
def Obligations.InstructionsWriteNoMemoryAndNoOtherTile : Prop :=
  ∀ (i : Instr) (s t : State), i.isSequencer = true → exec i s = .next t →
    (∀ g : Home, g.at 0 ≠ .acc s.cur.1 0 → (readsRecord i = true → g.isOnTile = true) → t.readHome g 1 = s.readHome g 1)
    ∧ (readsRecord i = true → (∀ e ∈ s.parts, e.2.job = none) → (∀ a, t.readHome (.dev a) 1 = s.readHome (.dev a) 1)
      ∧ (t.clasp.log = s.clasp.log → ∀ p a, t.readHome (.host p a) 1 = s.readHome (.host p a) 1))
    ∧ (∀ u, u ≠ s.cur.1 → t.tile u = s.tile u) ∧ t.cur = s.cur
    ∧ (readsRecord i = false → t.links = s.links ∧ ∀ d, t.die d = { s.die d with cache := (t.die d).cache })

/-! The hardware's own steps: what each does when it is enabled. A step that is not enabled changes nothing (log 3). -/

/-- R5, R32, R43, R61, R139, R159, R223, R241 to R245, R249: a copy at the head of its queue starts when an engine and scoreboard entries are free,
probes its destinations first when it has more than one or combines, holding the translations, and moves its elements in order up to the first fault,
which ends it (an error of the host among them); it waits while a run holds a quarter that it touches. An element is moved unchanged or converted, into
every member's tile in MCOPY, 32 of them into one block of an MX format, or combined with the destination in RCOPY, which poison leaves as it was; in
a tile store it is the bytes at its place. That the elements are moved in pattern order is the model's choice (log 65); beside them a beat leaves
records in the host's rings only. -/
def Obligations.CopiesStartAndMove : Prop :=
  ∀ (s : State) (t q : Nat) (e : QEntry) (l : List QEntry), (s.tile t).gate = .open_ → ((s.tile t).queue q).entries = e :: l → e.kind.isCopy = true →
    let tl := s.tile t
    (e.st = .queued → s.entryReady t e = true →
      (e.skipped = false → tl.busyEngines.length < 2 → tl.score.length + e.ranges.length ≤ 32 → tl.copyHeld e = false →
        ∃ u x, exec (.copyStart t q) s = .next u ∧ ((u.tile t).queue q).entries.head? = some x ∧ x.id = e.id ∧ x.st = .started ∧ x.pos = e.pos
          ∧ (u.tile t).score = tl.score ++ e.scores ∧ s.SameMemory u)
      ∧ (e.skipped = true → ∃ u x, exec (.copyStart t q) s = .next u ∧ ((u.tile t).queue q).entries.head? = some x ∧ x.st = .finished ∧ x.cxl = true
          ∧ s.SameMemory u))
    ∧ (e.st = .started →
      (tl.copyHeld e = true → exec (.copyBeat t q) s = .next s)
      ∧ (tl.copyHeld e = false → e.toProbe = true → ∃ u, exec (.copyBeat t q) s = .next u ∧ s.SameMemory u ∧ ((u.tile t).queue q).entries.head?
          = some (match s.probe t e with | some f => e.faulted f | none => { e with probed := true, held := s.probeLeaves t e }))
      ∧ (tl.copyHeld e = false → e.toProbe = false →
        let r := s.copyRun t e (beatLen (some e.patA) (some e.patB) (if e.kind = .rcopy then 1 else copyDiv e.patA e.patB) e.total e.total e.pos)
        ∃ u, exec (.copyBeat t q) s = .next u ∧ ((u.tile t).queue q).entries.head? = some r.2
          ∧ ((∀ x ∈ s.parts, x.2.job = none) → ∀ g : Home, (∀ p a, g ≠ .host p a) → u.readHome g 1 = r.1.readHome g 1)))
    ∧ (s.copyRun t e 0 = (s, if e.pos = e.patA.count then { e with st := .finished } else e)
      ∧ ∀ n, (∀ r, s.copyElem t e e.pos = .ok r → s.copyRun t e (n + 1) = r.1.copyRun t { e with pos := e.pos + 1, psn := e.psn || r.2 } n)
        ∧ ∀ x, s.copyElem t e e.pos = .error x →
          s.copyRun t e (n + 1) = (s, { e with flt := true, fcode := x.1, faddr := x.2.1, fidx := x.2.2, st := .finished }))
    ∧ (e.patA.space ≠ 4 → e.old = [] →
      let from_ := fun (j : Nat) => s.readElem (e.via t) t e.patA j
      let put := fun (j x : Nat) (psn : Bool) => s.writeElem (e.via t) t e.patB j x psn
      (∀ j c x a, from_ j = .error (c, x, a) → copyDiv e.patA e.patB = 1 ∨ j % 32 ≠ 31 → s.copyElem t e j = .error (c, a, e.patA.index j))
      ∧ (∀ j v, from_ j = .ok v → e.kind ≠ .rcopy → copyDiv e.patA e.patB = 1 →
        let x := if e.patA.fmt = e.patB.fmt then v.1 else (roundNum e.patB.fmt (Rm.ofCode e.rm) e.sat (decodeNum e.patA.fmt v.1)).1
        (∀ u, e.kind = .copy → put j x v.2.1 = .ok u →
          (e.patB.space ≠ 4 → s.copyElem t e j = .ok (u, v.2.1))
          ∧ (e.patB.space = 4 → Config.hostFails s.free = true → ∃ y, s.copyElem t e j = .error y ∧ y.1 = 0x08))
        ∧ (∀ c y a, e.kind = .copy → put j x v.2.1 = .error (c, y, a) → s.copyElem t e j = .error (c, a, e.patB.index j))
        ∧ (∀ u, e.kind = .mcopy → e.patB.space = 2 →
          s.WritesAll (e.via t) t j x v.2.1 (e.members.map fun m => { e.patB with base := e.patB.base + m * 2 ^ 22 }) u →
          s.copyElem t e j = .ok (u, v.2.1)))
      ∧ (copyDiv e.patA e.patB = 32 → e.kind = .copy → e.patB.space ≠ 4 →
        (∀ j v, from_ j = .ok v → j % 32 ≠ 31 → s.copyElem t e j = .ok (s, v.2.1))
        ∧ ∀ (j : Nat) (w : Nat → Nat × Bool × Nat) (u : State), (∀ k, k < 32 → from_ (32 * j + k) = .ok (w k)) →
          put j (encodeMx e.patB.fmt (Rm.ofCode e.rm) e.sat ((List.range 32).map fun k => decodeNum e.patA.fmt (w k).1)).1
            ((List.range 32).any fun k => (w k).2.1) = .ok u →
          s.copyElem t e (32 * j + 31) = .ok (u, (List.range 32).any fun k => (w k).2.1))
      ∧ (∀ j v r, e.kind = .rcopy → e.inv = false → from_ j = .ok v → s.readElem (e.via t) t e.patB j = .ok r →
        (v.2.1 = true ∨ r.2.1 = true → s.copyElem t e j = .ok (s, true))
        ∧ ∀ u, v.2.1 = false → r.2.1 = false → put j (reduceBits e.port e.patB.fmt r.1 v.1) false = .ok u → s.copyElem t e j = .ok (u, false)))
    ∧ (∀ (f o a : Nat), o < 2 ^ fmtWidth f → a < 2 ^ fmtWidth f →
      reduceBits 8 f o a = (roundNum 0x0D .rne false (addNum (decodeNum 0x0D o) (decodeNum 0x0D a) false).1).1
      ∧ ∀ n op, (n, op) ∈ [(0, AmoOp.add), (1, .and), (2, .or), (3, .xor), (4, .mini), (5, .maxi), (6, .minn), (7, .maxn)] →
        f ∈ [0x04, 0x05, 0x0A, 0x0B] → reduceBits n f o a = (atomicBits op (BitVec.ofNat (fmtWidth f) o) (BitVec.ofNat _ a) 0).toNat)
    ∧ (∀ (v : Via) (p : Pat) (j n a : Nat), p.space = 1 → p.place j = .ok (a, n, 0) → p.width = 8 * n → a + n ≤ 0x300000 →
      (∃ x, s.readElem v t p j = .ok (s.readHome (.tile t a) n, (s.tile t).store.poisoned a n, x))
      ∧ ∀ y, (∃ u, s.writeElem v t p j y false = .ok u ∧ s.Wrote u (.tile t a) n y)
        ∧ (0 < n → ∃ u, s.writeElem v t p j y true = .ok u ∧ u.poisonHome (.tile t a) n = true))

/-- R38, R224, R225, R247, R366: a finished transfer leaves its queue with its contribution, to a record of its tile or of space 0, and its fault; one to another tile's record leaves as a
flit while no pre-emption stops the tile (R358), and the entry retires when none of it is on its way any more; a contribution that travelled reaches
its record, and one that fails its check leaves the record poisoned instead (the model's choice, log 57). A transfer whose next elements lie across a
link in trouble at the end of its quote completes with FLT and FCODE 0x07; that a copy's next destinations become poison, that a stream which feeds a
block stops there with cause 0x07, and which links are meant, is the model's reading (log 37). -/
def Obligations.TransfersRetireWithTheirContribution : Prop :=
  ∀ (s : State) (t q : Nat) (e : QEntry),
    let tl := s.tile t
    ((tl.queue q).entries.find? (fun e => !e.kind.isGate) = some e → e.st = .finished → e.owesEnd = false →
      (∀ v off, s.farRecord t e = some (v, off) →
        (e.ctrSent = false → tl.room 1 = true → tl.gate = .open_ → ∃ u x f, exec (.transferRetire t q) s = .next u ∧ s.SameMemory u ∧ (u.tile t).injq = tl.injq ++ [f]
          ∧ f.kind = 3 ∧ f.payload = e.farPayload off ∧ f.dtile = labelOf v ∧ f.ddie = dieOf v
          ∧ ((u.tile t).queue q).entries.find? (fun e => !e.kind.isGate) = some x ∧ x.id = e.id ∧ x.ctrSent = true)
        ∧ (e.ctrSent = true → (s.onWay (dieOf t) fun g => g.stile == t && g.isClass 2 && g.payload == e.farPayload off) = false →
          exec (.transferRetire t q) s = .next (s.modTile t fun tl => tl.retire q e)))
      ∧ (s.farRecord t e = none → ∃ u, exec (.transferRetire t q) s = .next u
        ∧ ((u.tile t).queue q).entries = (tl.queue q).entries.filter (fun x => x.id != e.id)
        ∧ ((u.tile t).queue q).retired = ((tl.queue q).retired + 1) % 2 ^ 32
        ∧ (e.flt = true → ((u.tile t).queue q).fv = true ∧ ((u.tile t).queue q).fcause = e.fcode ∧ ((u.tile t).queue q).faddr = e.faddr)
        ∧ (e.flt = false → ((u.tile t).queue q).fv = (tl.queue q).fv)
        ∧ (u.tile t).score = tl.score.filter (fun r => r.id != e.id)
        ∧ (e.ctr = none → s.SameMemory u)
        ∧ (∀ a, e.ctr = some (1, a) → a + 16 ≤ 0x300000 → tl.store.poisoned a 16 = false →
            bits (u.readHome (.tile t a) 16) 63 0 = (bits (s.readHome (.tile t a) 16) 63 0 + e.amount) % 2 ^ 64
            ∧ bits (u.readHome (.tile t a) 16) 66 64 = bits (s.readHome (.tile t a) 16) 66 64 ||| (b2n e.cxl + 2 * b2n e.flt + 4 * b2n e.psn))
        ∧ (∀ a pa, e.ctr = some (0, a) → s.resolve t 0 a 16 true true = .ok (.dev pa) → s.poisonRead (.dev pa) 16 = false →
            (∀ x ∈ s.parts, x.2.job = none) →
            let o := s.readHome (.dev pa) 16
            let r := u.readHome (.dev pa) 16
            bits r 63 0 = (bits o 63 0 + e.amount) % 2 ^ 64 ∧ bits r 66 64 = bits o 66 64 ||| (b2n e.cxl + 2 * b2n e.flt + 4 * b2n e.psn)
            ∧ bits r 95 67 = bits o 95 67 ∧ bits r 127 96 = (if e.flt then e.fcode % 2 ^ 32 else bits o 127 96)
            ∧ ∀ b, b < pa ∨ pa + 16 ≤ b → u.readHome (.dev b) 1 = s.readHome (.dev b) 1)))
    ∧ (∀ f tl', tl.takeIntake (fun f => f.isClass 2) = some (f, tl') →
      let off := bits f.payload 123 102
      off % 16 = 0 → off + 16 ≤ 0x300000 → tl.store.poisoned off 16 = false →
      ∃ u, exec (.counterContributionFlit t) s = .next u ∧ (u.tile t).intake = tl'.intake
        ∧ (f.bad = false → bits (u.readHome (.tile t off) 16) 63 0 = (bits (s.readHome (.tile t off) 16) 63 0 + bits f.payload 63 0) % 2 ^ 64)
        ∧ (f.bad = true → u.poisonHome (.tile t off) 16 = true ∧ ∀ a, u.readHome (.tile t a) 1 = s.readHome (.tile t a) 1))
    ∧ (∀ id, (tl.queue q).entries.find? (fun e => e.id == id) = some e → e.kind.isGate = false → e.st ≠ .finished → tl.remaining e = 0 →
      let h := s.nextHomes t e
      s.linkTrouble (dieOf t) ((h.1 ++ h.2).map fun x => s.dieAt x.1) = true →
      ∃ u x, exec (.quoteExpiryCompletion t q id) s = .next u
        ∧ ((u.tile t).queue q).entries.find? (fun e => e.id == id) = some x ∧ x.flt = true ∧ x.fcode = 0x07 ∧ x.psn = true ∧ s.SameMemory u
        ∧ (e.kind.ingress = false ∨ tl.feeds e = false → x.st = .finished
          ∧ (e.kind.isCopy = true → ∀ y ∈ h.2, 0 < y.2 → u.poisonHome y.1 y.2 = true))
        ∧ (e.kind.ingress = true → tl.feeds e = true → x.st = e.st ∧ ∃ a, x.stop = some (0x07, a)))

/-- R223, R226, R235, R238 to R240: a stream whose ports are free takes them; STREAM.DROP and STREAM.REC move what their egress port holds;
a barrier leaves its queue when no earlier stream of its direction is left, a stitch when its entries have retired, and SCOND skips by its
counter. -/
def Obligations.StreamsMoveAndGatesPass : Prop :=
  ∀ (s : State) (t q : Nat) (e : QEntry), (s.tile t).gate = .open_ →
    let tl := s.tile t
    let ep := mget Port.reset tl.eps e.port
    let ip := mget Port.reset tl.ips e.inPort
    ((tl.queue q).nextStream = some e → s.entryReady t e = true → e.skipped = false →
      (e.portKeys.any fun k => tl.portBusy k || s.updateComing t k) = false → s.portWanted t q e = false → e.viaTracker = false →
      ∃ u, exec (.streamDispatch t q) s = .next u ∧ s.SameMemory u
        ∧ (∃ x ∈ ((u.tile t).queue q).entries, x.id = e.id ∧ x.st = if e.total = 0 then .finished else .started)
        ∧ (e.total ≠ 0 → (e.kind.ingress = true → (mget Port.reset (u.tile t).ips e.inPort).holder = some (q, e.id))
          ∧ (e.kind.egress = true → (mget Port.reset (u.tile t).eps e.port).holder = some (q, e.id))))
    ∧ ((tl.queue q).entries.find? (fun x => x.id == e.id) = some e → e.st = .started →
      (e.kind = .sDrop → ∃ u x, exec (.streamBeat t q e.id) s = .next u ∧ s.SameMemory u
        ∧ (mget Port.reset (u.tile t).eps e.port).fifo = ep.fifo.drop (min (e.total - e.pos) ep.fifo.length)
        ∧ ((u.tile t).queue q).entries.find? (fun x => x.id == e.id) = some x ∧ x.pos = e.pos + min (e.total - e.pos) ep.fifo.length)
      ∧ (e.kind = .sRec →
        let n := min (min (e.total - e.pos) ep.fifo.length) ((98304 - ip.used) / max 1 e.patA.width)
        ∃ u x, exec (.streamBeat t q e.id) s = .next u ∧ s.SameMemory u
          ∧ (mget Port.reset (u.tile t).eps e.port).fifo = ep.fifo.drop n ∧ (mget Port.reset (u.tile t).ips e.inPort).fifo = ip.fifo ++ ep.fifo.take n
          ∧ ((u.tile t).queue q).entries.find? (fun x => x.id == e.id) = some x ∧ x.pos = e.pos + n))
    ∧ (((tl.queue q).entries.filter fun e => e.kind.isGate).head? = some e → (∀ x ∈ (tl.queue q).entries, x.kind.isGate = true → x.st ≠ .finished) →
      s.entryReady t e = true → e.skipped = false →
      (∀ k p, (k, p) ∈ [(QKind.sbarRd, QKind.ingress), (.sbarWr, QKind.egress), (.sbarAll, QKind.isStream)] → e.kind = k →
        (((tl.queue q).before e).any fun x => p x.kind) = false → tl.configDone e.waits = true →
        ∃ u, exec (.gatePass t q) s = .next u ∧ (u.tile t).queue q = (tl.queue q).drop e.id ∧ s.SameMemory u)
      ∧ (e.kind = .stitch → tl.left e.waits = true → ∃ u, exec (.gatePass t q) s = .next u ∧ (u.tile t).queue q = (tl.queue q).drop e.id)
      ∧ (∀ a h, e.kind = .scond → (tl.queue q).before e = [] → e.ctr = some (1, a) → s.resolve t 1 a 16 true false = .ok h →
        s.poisonHome h 16 = false → ∃ u, exec (.gatePass t q) s = .next u ∧ s.SameMemory u
          ∧ (u.tile t).queue q = (if decide (e.xt ≤ bits (s.readHome h 16) 63 0) != e.inv then (tl.queue q).drop e.id
              else ((tl.queue q).mark e.no e.mask).drop e.id)))

/-- R164, R179 to R181, R190, R191, R326, R327: when something has fallen free or an entry has appeared, the run of the highest entry that may start
begins first, with one instance per waiting context, and else none; a load counts its cycles down and in the last makes the shadow of its quarters, or
gives its context the refusal as a deferred trap; a sweep counts down and in its last cycle makes the shadow live on the quarters of its mask. -/
def Obligations.RunsLoadsAndSweeps : Prop :=
  ∀ (s : State) (t qmask : Nat), (s.tile t).gate = .open_ →
    let tl := s.tile t
    (((s.reload t).tile t).rankDue = false → ∃ u, exec (.blockRunStart t) s = .next u ∧ (u.tile t).runs = tl.runs ∧ s.SameMemory u)
    ∧ (∀ e, ((s.reload t).tile t).rankDue = true → (s.reload t).pickEntry t [] (sortBy (Entry.above tl.res) tl.blockEntries) = some e → tl.scanned = [] → tl.aside = [] →
      ∃ u r more, exec (.blockRunStart t) s = .next u ∧ (u.tile t).runs = tl.runs ++ r :: more ∧ r.qmask = e.qmask ∧ r.folio = e.folio ∧ r.cls = e.cls
        ∧ r.ready = (tl.liveOf e.qmask == some e.folio) ∧ r.insts.map (·.ctx) = e.toks.map (·.ctx) ∧ (∀ i ∈ r.insts, i.started = false ∧ i.beat = 0)
        ∧ s.SameMemory u)
    ∧ (∀ l, tl.loads.find? (fun l => l.qmask == qmask) = some l →
      (1 < l.left → (∀ x ∈ tl.loads, x.id = l.id → x = l) → ∃ u, exec (.folioLoadComplete t qmask) s = .next u ∧ s.SameMemory u ∧ (u.tile t).shadow = tl.shadow ∧ (u.tile t).sweeps = tl.sweeps
        ∧ (u.tile t).loads.find? (fun l => l.qmask == qmask) = some { l with left := l.left - 1 })
      ∧ (l.left ≤ 1 → (s.folio (tl.lid.getD 0) l.folio).refusal qmask = none → ∃ u, exec (.folioLoadComplete t qmask) s = .next u ∧ s.SameMemory u
        ∧ (u.tile t).shadow = tl.shadow.filter (fun e => !masksMeet e.1 qmask) ++ [(qmask, l.folio)]
        ∧ (u.tile t).loads = tl.loads.filter (fun x => x.id != l.id)
        ∧ (l.by_.isSome = true → (u.tile t).sweeps = tl.sweeps)
        ∧ (l.by_ = none → ∃ w, (u.tile t).sweeps = tl.sweeps ++ [w] ∧ w.qmask = qmask ∧ w.folio = l.folio
          ∧ w.left = (s.folio (tl.lid.getD 0) l.folio).plen))
      ∧ (∀ cause aux c addr, l.left ≤ 1 → (s.folio (tl.lid.getD 0) l.folio).refusal qmask = some (cause, aux) → l.by_ = some (c, (s.ctx t c).serial, addr) →
        (s.ctx t c).task.isSome = true → ∃ u, exec (.folioLoadComplete t qmask) s = .next u
          ∧ (u.ctx t c).deferred = (s.ctx t c).deferred ++ [⟨cause, addr, aux, false⟩] ∧ (u.tile t).shadow = tl.shadow))
    ∧ (∀ w, tl.sweeps.find? (fun w => w.qmask == qmask) = some w → (tl.runs.any fun r => r.ready && masksMeet r.qmask qmask) = false → 1 < w.left →
      (∀ x ∈ tl.sweeps, x.id = w.id → x = w) → ∃ u, exec (.switchSweepComplete t qmask) s = .next u ∧ s.SameMemory u ∧ (u.tile t).live = tl.live
        ∧ (u.tile t).sweeps.find? (fun w => w.qmask == qmask) = some { w with left := w.left - 1 })
    ∧ (∀ w, tl.sweeps.find? (fun w => w.qmask == qmask) = some w → (tl.runs.any fun r => r.ready && masksMeet r.qmask qmask) = false → w.left ≤ 1 →
      ∃ u, exec (.switchSweepComplete t qmask) s = .next u ∧ s.SameMemory u
        ∧ (∀ q, mfind q (u.tile t).live = if q < 4 ∧ bit qmask q = true then some w.folio else mfind q tl.live)
        ∧ (u.tile t).sweeps = tl.sweeps.filter (fun x => x.id != w.id))

/-- R172, R181 to R183, R185, R187, R189, R235: a ready run's instance stops when a cancel covers its task, else starts, takes its operands, computes
beat after beat, and completes PLEN cycles behind its last beat: its context goes on behind the block with its status; one that stopped at a
translation fault leaves the region and traps. An instance whose commands a bound refuses when it starts goes on behind its block, with nothing
started (the model's reading of R237, log 17); a beat takes the values of its other roles together behind its panel (log 64). -/
def Obligations.BlockInstancesRun : Prop :=
  ∀ (s : State) (t qmask : Nat) (r : Run) (i : Inst) (l : List Inst), (s.tile t).runs.find? (fun r => r.qmask == qmask) = some r → r.insts = i :: l →
    let tl := s.tile t
    let x := s.ctx t i.ctx
    let f := s.folio (tl.lid.getD 0) r.folio
    let rk := f.resultKey.getD 16
    (r.ready = true → tl.gate = .open_ →
      (i.held = false → i.scan = false → s.condemned t i.ctx = true → x.owesAtomic = false → (r.cls = 6 → tl.array.storing = false) →
        exec (.blockBeat t qmask) s = .next (s.killTask t i.ctx))
      ∧ (s.condemned t i.ctx = false →
        (i.started = false → x.outs = [] → tl.roomFor (s.bindCmds t i.blk i.imgs i.ctrs f) = true →
          (({ s with cur := (t, i.ctx) }).bindsRefused (s.bindCmds t i.blk i.imgs i.ctrs f) = false → ∃ u j l', exec (.blockBeat t qmask) s = .next u
            ∧ ((u.tile t).runs.find? fun r => r.qmask == qmask).map (·.insts) = some (j :: l') ∧ j.started = true ∧ j.ctx = i.ctx ∧ j.beat = i.beat
            ∧ s.SameMemory u)
          ∧ (({ s with cur := (t, i.ctx) }).bindsRefused (s.bindCmds t i.blk i.imgs i.ctrs f) = true → ∃ u, exec (.blockBeat t qmask) s = .next u
            ∧ (u.tile t).queues = tl.queues ∧ (u.ctx t i.ctx).wait = none
            ∧ (u.ctx t i.ctx).regs.pc = x.regs.pc + BitVec.ofNat 64 (8 * (2 + i.blk.loops.length + i.blk.binds.length)) ∧ s.SameMemory u))
        ∧ (∀ i' tl', l = [] → tl.hold.contains qmask = false →
          i.started = true → i.imgFmt = [] → r.cls ≠ 6 → i.cls ≠ 6 → i.cls ≠ 5 → i.held = false → i.scan = false → i.sink = [] →
          i.beat < blkBeats i.blk →
          let j := { tl.follow i f with drain := i.drain - 1 }
          tl.clockStop (tl.follow i f) f = none →
          let tl0 := tl.modInst r.qmask fun _ => j
          (match tl0.portOf j rk with | some (_, _, e) => e.stop | none => none) = none →
          let a := tl0.pullAll j f
          let s1 := s.modTile t fun _ => a.1.modInst r.qmask fun _ => a.2
          a.1.roleFault a.2 (a.2.needs f) = none → ((a.2.needs f).all fun e => decide (e.2.2 ≤ (a.2.buf e.2.1).length)) = true →
          (s1.tile t).compute a.2 f = some (i', tl') →
          ∃ u, exec (.blockBeat t qmask) s = .next u ∧ (u.tile t).runs = (tl'.modInst r.qmask fun _ => { i' with drain := f.plen }).runs
            ∧ (u.tile t).acc = tl'.acc)))
    ∧ (r.cls ≠ 6 → i.started = true → i.held = false → i.scan = false → i.imgFmt = [] → i.drain = 0 →
      blkBeats i.blk ≤ i.beat → i.sink = [] → tl.egressDone i rk = true →
      ∃ u, exec (.instanceComplete t qmask) s = .next u ∧ s.SameMemory u
        ∧ (u.ctx t i.ctx).wait = none ∧ (u.ctx t i.ctx).regs.pc = x.regs.pc + BitVec.ofNat 64 (8 * (2 + i.blk.loops.length + i.blk.binds.length))
        ∧ (u.ctx t i.ctx).regs.x = x.regs.x ∧ (u.ctx t i.ctx).regs.f = x.regs.f ∧ (u.ctx t i.ctx).regs.p = x.regs.p
        ∧ (u.ctx t i.ctx).regs.lssum = orLssum x.regs.lssum i.lsq
        ∧ (∀ q, q < 4 → bit i.blk.qmask q = true → (mfind q (u.ctx t i.ctx).bstat).map (·.beats) = some i.beat))
    ∧ (∀ b, i.scan = true → i.fault = some b → s.CtxCanTrap t i.ctx → ∃ u, exec (.scanOutComplete t qmask) s = .next u
        ∧ (u.ctx t i.ctx).trap = true ∧ (u.ctx t i.ctx).trapCause = BitVec.ofNat 8 b.cause ∧ (u.ctx t i.ctx).trapAux = BitVec.ofNat 64 b.aux
        ∧ (u.ctx t i.ctx).trapPc = x.regs.pc ∧ (u.ctx t i.ctx).cont = some (qmask, x.regs.pc.toNat)
        ∧ ((u.tile t).runs.find? fun r => r.qmask == qmask) = none ∧ (mfind i.ctx (u.tile t).scanned).isSome = true ∧ s.SameMemory u)

/-- R198, R211, R214, R216, R218, R219, R290: the element array runs a cycle of its instance until the instance is complete, without firing while the
budget holds it (the choices in a cycle's order are those of logs 38 and 65); a memory node that loads takes the value at its address, in its turn; an active message waits in its element's queue, its 16 bytes
in the tile store, or is recorded as an overflow. -/
def Obligations.ElementArraySteps : Prop :=
  ∀ (s : State) (t : Nat),
    let tl := s.tile t
    (∀ r i l p, tl.runs.find? (fun r => r.cls == 6) = some r → r.insts = i :: l → (s.folio (tl.lid.getD 0) r.folio).epart = some p →
      (r.ready = true → tl.gate = .open_ → i.started = true → i.held = false → i.scan = false → i.imgFmt = [] →
        s.condemned t i.ctx = false → tl.msgOver = [] →
        let f := s.folio (tl.lid.getD 0) r.folio
        let c : Cyc := ⟨s, t, p, { i with beat := tl.array.cycles }, tl.array, 0, none⟩
        c.complete (tokenPorts f r.qmask false) (tokenPorts f r.qmask true) = false →
        let after := c.run (tokenPorts f r.qmask false) (tokenPorts f r.qmask true) (tl.hold.contains 0)
        after.bad = none → ∃ u, exec (.elementCycle t) s = .next u ∧ (u.tile t).array = after.a
          ∧ after.a.cycles = tl.array.cycles + (if tl.hold.contains 0 then 0 else 1))
      ∧ (∀ id q h, tl.array.pend.find? (fun p => p.id == id && p.mem) = some q → i.scan = false → tl.gate = .open_ → (ruleOf q.word).op ≠ 0x46 →
        tl.array.nodeWaits p q = false → (∀ x ∈ s.parts, x.2.job = none) → s.reservePoison h = false →
        let d := p.node ((ruleOf q.word).imm % 32)
        q.addr % 2 ^ d.width = 0 → s.resolve t d.space q.addr (2 ^ d.width) true false = .ok h → s.poisonHome h (2 ^ d.width) = false →
        q.bad = none → ∃ u, exec (.memoryNodeComplete t id) s = .next u ∧ s.SameMemory u
          ∧ (u.tile t).array.pend = replaceFirst (fun q => q.id == id) (fun _ => { q with
              mem := false,
              val := if d.sgn then wrap (sext (s.readHome h (2 ^ d.width)) (8 * 2 ^ d.width)) 32 else s.readHome h (2 ^ d.width) }) tl.array.pend))
    ∧ (∀ f tl', tl.takeIntake (fun f => decide (f.kind ≤ 1)) = some (f, tl') →
      let e := bits f.payload 127 122
      let m := (mfind e tl.msgs).getD (0, [])
      (tl.coversTag (bits f.payload 95 80) = true → exec (.activeMessageArrival t) s = .next (s.modTile t fun _ => tl'))
      ∧ (tl.coversTag (bits f.payload 95 80) = false → 64 ≤ m.2.length →
        exec (.activeMessageArrival t) s = .next (s.modTile t fun _ => { tl' with msgOver := tl'.msgOver ++ [e] }))
      ∧ (tl.coversTag (bits f.payload 95 80) = false → m.2.length < 64 → ∃ u, exec (.activeMessageArrival t) s = .next u
        ∧ mfind e (u.tile t).msgs = some (m.1, m.2 ++ [f.kind])
        ∧ u.readHome (.tile t (0x2F0000 + 1024 * e + 16 * ((m.1 + m.2.length) % 64))) 16 = f.payload % 2 ^ 128))

/-- R16, R136, R146, R151, R154, R246, R267, R271, R273, R305, R334: steps of a context outside its instructions: a deferred trap is taken, one of a
handler's own, saved in a halt, as a double trap, a host load that times out faults, a read of the reserve tier returns, a host flush completes, and a waiting context goes on when its condition holds, with its
status and past its instruction, or is killed when its scope is cancelled. -/
def Obligations.ContextsTrapFinishAndWake : Prop :=
  ∀ (s : State) (t c : Nat),
    let x := s.ctx t c
    let done := fun (u : State) (d v : Nat) => (u.ctx t c).wait = none ∧ (u.ctx t c).regs.pc = x.regs.pc + 8
      ∧ (d ≠ 0 → (u.ctx t c).getX d = BitVec.ofNat 64 v) ∧ (∀ r, r ≠ d → (u.ctx t c).getX r = x.getX r) ∧ s.SameMemory u
    (∀ d rest, x.deferred = d :: rest → x.task.isSome = true → x.halted = false → x.arriving = none → x.wait = none →
      (s.tile t).scanningOut c = false → s.CtxCanTrap t c →
      exec (.deferredTrap t c) s = .next ((s.enteredAt t c d.cause d.addr d.aux x.regs.pc.toNat).modCtx t c fun y => { y with deferred := rest }))
    ∧ (∀ d, x.deferred.find? (fun d => d.own) = some d → x.trap = true → x.task.isSome = true → x.halted = false → x.arriving = none →
      (s.tile t).scanningOut c = false → exec (.deferredTrap t c) s = .next (s.doubleTrap t c d.cause (bits d.aux 53 32)))
    ∧ (∀ id a, x.outs.find? (fun a => a.id == id) = some a → a.dst ≠ .none → a.st = .issued →
      (a.kind = .load → a.space = 4 → ∃ u, exec (.ldhTimeout t c id) s = .next u ∧ s.SameMemory u
        ∧ (u.ctx t c).outs.find? (fun a => a.id == id) = some { a with st := .faulted 0x08 a.addr 0 })
      ∧ (∀ h, a.kind = .load → a.wop ≠ .b128 → (∀ e ∈ s.parts, e.2.job = none) → s.homeOf t a = some h → h.isReserve = true → x.mayPerform a = true →
        (∃ u, exec (.cxlReadReturn t c id true) s = .next u ∧ s.SameMemory u
          ∧ (u.ctx t c).outs.find? (fun a => a.id == id) = some { a with st := .faulted 0x07 a.addr 0 })
        ∧ (a.home = some h → s.poisonHome h a.size = false → ∃ u, exec (.cxlReadReturn t c id false) s = .next u ∧ s.SameMemory u
          ∧ (u.ctx t c).outs.find? (fun a => a.id == id) = some { a with st := .performed (s.readHome h a.size) })))
    ∧ (∀ a, x.outs.find? (fun a => a.kind == .zread && a.st == .issued) = some a → x.mayPerform a = true →
      exec (.zeroLengthReadCompletion t c) s = .next (s.modCtx t c fun y => (y.setAccess { a with st := .performed 0 }).trim))
    ∧ (∀ r, x.arriving = some r → x.halted = false →
      (∀ p, r.answer = some (some p) → r.thenWait = false → ∃ u, exec (.arrivalAnswer t c) s = .next u ∧ done u r.d p ∧ (u.ctx t c).arriving = none)
      ∧ (∀ p, r.answer = some (some p) → r.thenWait = true →
        exec (.arrivalAnswer t c) s = .next (s.modCtx t c fun y => { y with arriving := none, wait := some (.barrier r.d r.g p (s.groupSpent t r.g)) }))
      ∧ (r.answer = some none → s.CtxCanTrap t c → ∃ u, exec (.arrivalAnswer t c) s = .next u ∧ (u.ctx t c).trapCause = 0x09
        ∧ (u.ctx t c).trapAddr = BitVec.ofNat 64 r.g ∧ (u.ctx t c).trapAux = BitVec.ofNat 64 r.tag ∧ (u.ctx t c).trap = true))
    ∧ (∀ w, x.task.isSome = true → x.halted = false → x.wait = some w →
      (s.condemned t c = true → exec (.contextWake t c) s = .next (if s.mustFinish t c w || x.owesAtomic then s else s.killTask t c))
      ∧ (s.condemned t c = false →
        (∀ loc d addr target st, w = .cwait loc d addr target → s.clook t c loc addr target = .done st → (∀ e ∈ s.parts, e.2.job = none) →
          ∃ u, exec (.contextWake t c) s = .next u ∧ done u d st)
        ∧ (∀ d g p spent st, w = .barrier d g p spent → x.mayRead 8 0 0 = true → s.barrierDone t g p spent = some st → ∃ u, exec (.contextWake t c) s = .next u ∧ done u d st)
        ∧ (∀ ids, w = .qwait ids → (s.tile t).left ids = true → ∃ u, exec (.contextWake t c) s = .next u ∧ done u 0 0)
        ∧ (∀ q, w = .bdrain q → (s.tile t).drained q = true → ∃ u, exec (.contextWake t c) s = .next u ∧ done u 0 0)))

/-- R13, R37, R153, R154, R253, R257, R324: a published task joins its ready queue, waits for its dependence, or is credited as purged when a cancel
covers it, with or without a dependence (the model's reading, log 35); one whose record cannot be read waits and is warned of once; a free context
takes the head of the highest queue with the registers of a task's start; an arrival counts in its phase or is answered as too many, the last one
completes the phase, and a release reaches the tile's latch. Publications carry logical time between dies (log 61). -/
def Obligations.TasksAndBarriersArrive : Prop :=
  ∀ (s : State) (t n : Nat),
    let tl := s.tile t
    (∀ k f, s.pubs[n]? = some ⟨k, t, f⟩ → (s.part (s.launch k.lid).part).out = false → ((s.pubs.take n).any fun q => q.tile == t) = false →
      let q := (s.launch k.lid).part
      let s' := { s with pubs := s.pubs.eraseIdx n }.message q (match f with | some g => dieOf g.1 | none => ioDie q) (dieOf t) (flitsFor 64)
      (tl.covers k.scope = true → exec (.taskPublicationArrival n) s = .next (s'.purge t k))
      ∧ (tl.covers k.scope = false → s'.depLook q t k = some true →
        ∃ w, s'.EdgeOnly w ∧ (k.depAddr = 0 → w = s') ∧ exec (.taskPublicationArrival n) s = .next (w.modTile t fun tl => tl.enqueue k))
      ∧ (tl.covers k.scope = false → s'.depLook q t k = some false →
        ∃ w, s'.EdgeOnly w ∧ exec (.taskPublicationArrival n) s = .next (w.modTile t fun tl => { tl with dep := tl.dep ++ [k] }))
      ∧ (tl.covers k.scope = false → s'.depLook q t k = none → k.depWarned = false →
        ∃ w, s'.EdgeOnly w ∧ exec (.taskPublicationArrival n) s = .next (w.modTile t fun tl => { tl with dep := tl.dep ++ [{ k with depWarned := true }] })))
    ∧ (∀ k b, tl.dep = [k] → (∀ e ∈ s.parts, e.2.out = false ∧ e.2.job = none) → (s.modTile t fun tl => { tl with dep := [] }).depLook (s.partId t) t k = some b →
        ∃ u, exec (.dependenceCheck t) s = .next u ∧ s.SameMemory u
        ∧ (u.tile t).dep = (if b then [] else [k]) ∧ (b = true → mget [] (u.tile t).ready k.pri = mget [] tl.ready k.pri ++ [k])
        ∧ (b = false → (u.tile t).ready = tl.ready))
    ∧ (∀ c k, tl.gate = .open_ → (s.part (s.partId t)).resident = true → tl.freeCtx = some c → tl.nextTask = some k →
      ∃ u, exec (.taskBind t) s = .next u ∧ s.SameMemory u ∧ (u.ctx t c).task = some { k with saved := none, lastPc := none }
        ∧ (u.ctx t c).lastPc = k.lastPc ∧ (u.ctx t c).outs = (s.ctx t c).outs ∧ (u.ctx t c).prio = k.pri ∧ (u.ctx t c).trap = false
          ∧ (u.ctx t c).wait = none ∧ mget [] (u.tile t).ready k.pri = (mget [] tl.ready k.pri).tail
        ∧ (k.saved = none → (u.ctx t c).regs.pc = BitVec.ofNat 64 k.entry ∧ (∀ r, (u.ctx t c).getX r = if r = 1 then BitVec.ofNat 64 k.arg
            else if r = 2 then BitVec.ofNat 64 k.addr else 0) ∧ (∀ r, (u.ctx t c).getF r = 0 ∧ (u.ctx t c).getP r = 0 ∧ (u.ctx t c).getB r = decide (r = 0)))
        ∧ (∀ g, k.saved = some g → (u.ctx t c).regs = g))
    ∧ (∀ a, s.arrivals[n]? = some a →
      let g := s.group a.lid a.g
      (s.ctx a.tile a.ctx).performedAt g.fscope = true → g.exhausted = false →
      (a.tag ≠ g.phase → ∃ u, exec (.barrierArrivalAtHome n) s = .next u ∧ u.group a.lid a.g = g ∧ u.arrivals = s.arrivals.eraseIdx n
        ∧ (u.ctx a.tile a.ctx).arriving = (s.ctx a.tile a.ctx).arriving.map fun r => { r with answer := some none })
      ∧ (a.tag = g.phase → ∃ u, exec (.barrierArrivalAtHome n) s = .next u ∧ u.arrivals = s.arrivals.eraseIdx n
        ∧ (u.ctx a.tile a.ctx).arriving = ((s.ctx a.tile a.ctx).arriving.map fun r => { r with answer := some (some g.phase) })
        ∧ (g.arrived + 1 < g.narr → u.group a.lid a.g = { g with arrived := g.arrived + 1 } ∧ u.releases = s.releases)
        ∧ (g.narr ≤ g.arrived + 1 → u.group a.lid a.g = { g with phase := (g.phase + 1) % 2 ^ 32, arrived := g.wd, cxl := decide (0 < g.wd) }
          ∧ s.releases <+: u.releases)))
    ∧ (∀ r k, s.releases[n]? = some r → (s.tile r.tile).lid = some r.lid → (s.tile r.tile).slotOfGroup r.g = some k →
      let gap := (r.phase + 2 ^ 32 - ((s.tile r.tile).latchOf k).1) % 2 ^ 32
      ∃ u, exec (.barrierReleaseArrival n) s = .next u ∧ u.releases = s.releases.eraseIdx n ∧ s.SameMemory u
        ∧ (u.tile r.tile).latchOf k = if 1 ≤ gap ∧ gap < 2 ^ 31 then (r.phase, r.cxl) else (s.tile r.tile).latchOf k)

/-- R342, R345 to R347, R351, R362, R363, R367, R368: the network of a die: with no more flits than its permitted links have lanes, a router places
every arrived flit, once and in order, and keeps none, with at most 8 in a direction; ages grow at a tick; injection points draw credits, which come
back two ticks later; flits cross to columns and links, a malformed one up to its destination; frames arrive, are replayed, and end when their link
goes down; a die is reset once its partitions are out. The model's choices: the router that counts a malformed flit at an edge (log 57); a die
reset's zero CYCLE and LCLK and its kept staging (log 48), and its busy status (log 41); that the ninth failure is the eighth replay's (log 47); a
retraining's busy status (log 49). -/
def Obligations.NetworkAndLinksMoveFlits : Prop :=
  ∀ (s : State) (die p k : Nat),
    let d := s.die die
    (∀ lo hi lab l n, l.length ≤ 8 * ([Dir.north, .south, .east, .west].filter fun d => d.permitted lo hi lab && !(d == .north && lab % 8 == 0)).length →
      let r := placeAll lo hi lab l [] n
      r.2.1 = [] ∧ r.1.map Prod.snd = l.map (·.flit) ∧ ∀ dir, Placed.used r.1 dir ≤ 8)
    ∧ (die < 24 → ∃ u, exec (.networkCycle die) s = .next u ∧ (u.die die).netCycle = d.netCycle + 1)
    ∧ (d.netCycle % 8 = 0 → ∃ u, exec (.ageTick die) s = .next u ∧ s.SameMemory u
        ∧ (u.die die).mesh = d.mesh.map fun m => { m with flit := { m.flit with age := min 255 (m.flit.age + 1) } })
    ∧ (∀ point, point < 128 → s.occupant (die * 128 + point) ≠ some p → exec (.creditDraw die p point) s = .next s)
    ∧ (∀ point, point < 128 → s.occupant (die * 128 + point) = some p →
        let n := min (4 - (s.tile (die * 128 + point)).allot) (d.credit p).free
        ∃ u, exec (.creditDraw die p point) s = .next u ∧ (u.tile (die * 128 + point)).allot = (s.tile (die * 128 + point)).allot + n
          ∧ ((u.die die).credit p).free = (d.credit p).free - n)
    ∧ (∃ u, exec (.creditReturn die p) s = .next u
        ∧ ((u.die die).credit p).free = (d.credit p).free + ((d.credit p).back.filter fun b => decide (b + 2 ≤ d.netCycle / 8)).length
        ∧ ((u.die die).credit p).back = (d.credit p).back.filter (fun b => !decide (b + 2 ≤ d.netCycle / 8)))
    ∧ (∀ n f, d.xbar[n]? = some ⟨f, none⟩ → f.ddie < 28 → (f.forEdge die || f.forSched die) = false →
      (f.ddie = die → ∃ u, exec (.crossbarCrossing die n) s = .next u
        ∧ (u.die die).xbar[n]? = some ⟨{ f with age := 0, edge := false }, some (f.dtile / 8)⟩ ∧ (u.die die).xbar.length = d.xbar.length)
      ∧ (f.ddie ≠ die → ∃ u, exec (.crossbarCrossing die n) s = .next u ∧ (u.die die).xbar = d.xbar.eraseIdx n
        ∧ (s.nextDie die f.ddie = none → u.links = s.links)
        ∧ (∀ e, s.nextDie die f.ddie = some e → ∃ j fr, (u.link j).frames.getLast? = some fr ∧ fr.flits.getLast? = some f ∧ fr.toHigh = decide (die < e)
          ∧ fr.lclk = d.lclk ∧ fr.flits.length ≤ 10)))
    ∧ (∀ n f, d.xbar[n]? = some ⟨f, none⟩ → 28 ≤ f.ddie ∨ ((f.forEdge die || f.forSched die) = true ∧ f.malformed false = true) →
        ∃ u, exec (.crossbarCrossing die n) s = .next u ∧ s.SameMemory u ∧ (u.die die).xbar = d.xbar.eraseIdx n
          ∧ (u.tile (f.counter die)).router.malf = min ((s.tile (f.counter die)).router.malf + 1) 0xFFFF)
    ∧ (∀ up f rest, (s.link k).down = false → takeFirst (fun f => f.toHigh == up) (s.link k).frames = some (f, rest) →
        ∃ u, exec (.d2dFrameReceipt k up) s = .next u ∧ (u.link k).frames = rest ∧ (u.link k).fails up = 0
          ∧ (u.die (frameTo k up)).stamp = max (s.die (frameTo k up)).stamp f.lclk
          ∧ (s.die (frameTo k up)).xbar <+: (u.die (frameTo k up)).xbar)
    ∧ (∀ up, (s.link k).down = false → ((s.link k).frames.any fun f => f.toHigh == up) = true ∨ s.memoryOn k up = true →
        ∃ u j, exec (.frameReplay k up) s = .next u ∧ u.link k = (s.link k).setFails up ((s.link k).fails up + 1)
          ∧ u.clasp.tests = s.clasp.tests ++ [j] ∧ j.kind = 4 ∧ j.index = k)
    ∧ (∀ up, (s.link k).down = false → 9 ≤ (s.link k).fails up → k < 46 →
        ∃ u, exec (.linkDown k) s = .next u ∧ u.link k = { Link.reset with down := true })
    ∧ ((s.link k).down = true → s.linkUntested k = false → ∃ u, exec (.retrainLink k) s = .next u ∧ (u.link k).down = false ∧ u.clasp.status = 0)
    ∧ ((s.link k).down = true → s.linkUntested k = true → ∃ u, exec (.retrainLink k) s = .next u ∧ u.link k = s.link k ∧ u.clasp.status = 3)
    ∧ ((s.link k).frames = [] → (linkEnds k).1 ≠ (linkEnds k).2 → ∃ u, exec (.flushMarkerReturn k) s = .next u
        ∧ ∀ e ∈ [(linkEnds k).1, (linkEnds k).2], (u.die e).flushWait = (s.die e).flushWait.filter (· != k))
    ∧ ((24 ≤ die → ∃ u, exec (.dieReset die) s = .next u ∧ u.clasp.status = 1)
      ∧ (die < 24 → ((s.partsOn die).any fun p => !(s.part p).out && (s.part p).sched.isSome) = true →
        ∃ u, exec (.dieReset die) s = .next u ∧ u.clasp.status = 3)
      ∧ (die < 24 → ((s.partsOn die).any fun p => !(s.part p).out && (s.part p).sched.isSome) = false →
        ∃ u, exec (.dieReset die) s = .next u ∧ u.clasp.status = 0 ∧ (u.die die).cycle = 0 ∧ (u.die die).lclk = 0 ∧ (u.die die).inReset = true
          ∧ (u.die die).staging = d.staging ∧ ∀ t ∈ s.tilesOf die, u.tile t = Tile.reset))

/-- R139 to R143, R353 to R356, R358, R359: a remote store and a remote atomic act on their bytes of the destination's store and no other; the answer
frees the tag; a stream's flit takes its slot in the window or counts as malformed, a window update moves the sender's BASE, a stream's end is
noted, and a flit that stays missing is filled with poison. The half of a .b128 store applied first is a free choice (log 6); that the fill takes the
first missing SEQ from BASE on is the model's choice (log 39), and so is the poison that an atomic's failed operand gives (log 57). -/
def Obligations.RemoteWorkAndStreamFlitsArrive : Prop :=
  ∀ (s : State) (t : Nat) (f : Flit) (tl' : Tile),
    let tl := s.tile t
    let v := f.payload
    (∀ l, s.takeRequest t (fun f => f.isClass 0) = some (l, tl') → tl.room 1 = true → f.bad = false →
      (l = [f] → ∃ u, exec (.remoteStoreApply t) s = .next u
        ∧ s.Wrote u (.tile t (bits v 120 99)) (2 ^ bits v 123 122) (bits v 63 0 % 2 ^ (8 * 2 ^ bits v 123 122)))
      ∧ (∀ a b, l = [a, b] → f = (if Config.partFirst s.free % 2 = 0 then a else b) → ∃ u, exec (.remoteStoreApply t) s = .next u
        ∧ s.Wrote u (.tile t (bits v 120 99)) (2 ^ bits v 123 122) (bits v 63 0 % 2 ^ (8 * 2 ^ bits v 123 122))
        ∧ (u.tile t).intake = removeFirst (fun x => x == f) tl.intake))
    ∧ (∀ op, s.takeRequest t (fun f => f.isClass 1) = some ([f], tl') → tl.room 1 = true →
      AmoOp.ofCode (bits v 123 120) = some op → op ≠ .cas → bits v 82 81 = 0 →
      let n := if bit v 119 then 8 else 4
      let h := Home.tile t (bits v 115 94)
      ((bit v 83 = true ∨ tl.coversTag (bits v 80 65) = false) →
        (s.poisonHome h n = false → f.bad = false →
          ∃ u, exec (.remoteAtomicApply t) s = .next u ∧ s.Wrote u h n (amoNew op n (s.readHome h n) (bits v 63 0) 0))
        ∧ (s.poisonHome h n = true ∨ f.bad = true → ∃ u, exec (.remoteAtomicApply t) s = .next u ∧ s.SameMemory u))
      ∧ (bit v 83 = false → tl.coversTag (bits v 80 65) = true → ∃ u, exec (.remoteAtomicApply t) s = .next u ∧ s.SameMemory u))
    ∧ (tl.takeIntake (fun f => f.isResponse 4 || (f.isResponse 3 && s.unwanted t f)) = some (f, tl') →
      ∃ u, exec (.acknowledgementReceipt t) s = .next u ∧ s.SameMemory u ∧ mfind f.seq (u.tile t).tags = none
        ∧ (u.tile t).intake = tl'.intake ∧ (u.tile t).remoteQ = tl.remoteQ.filter (fun r => r.sent != some f.seq))
    ∧ (∀ g, tl.takeIntake (fun f => f.kind == 2) = some (f, tl') → mfind f.cls tl.trks = none → mfind f.cls tl.gbufs = some g →
      let slots := mput g.slots f.seq (v, f.bad)
      (offWindow g.slots g.base f.seq = true → ∃ u, exec (.gatherFlitArrival t) s = .next u ∧ (u.tile t).gbufs = tl.gbufs
        ∧ (u.tile t).router.malf = min (tl.router.malf + 1) 0xFFFF)
      ∧ (g.resync = false → offWindow g.slots g.base f.seq = false → beatHere slots g.base = false → g.endSeq ≠ some g.base → (g.base + 4096 - g.told) % 4096 < 16 →
        ∃ u, exec (.gatherFlitArrival t) s = .next u ∧ mfind f.cls (u.tile t).gbufs = some { g with slots := slots }))
    ∧ (∀ h e, tl.takeIntake (fun f => f.isResponse 1) = some (f, tl') → (mget Port.reset tl.eps (bits v 107 104)).holder = some h →
      (tl.queue h.1).entries.find? (fun x => x.id == h.2) = some e →
      ∃ u x, exec (.windowUpdateReceipt t) s = .next u ∧ ((u.tile t).queue h.1).entries.find? (fun x => x.id == h.2) = some x
        ∧ x.base = (if s.fromTracker t e f = true ∧ e.newer (bits v 119 108) = true then bits v 119 108 else e.base) ∧ e.pos ≤ x.pos
        ∧ (s.fromTracker t e f = false → x.pos = e.pos ∧ x.flight = e.flight))
    ∧ (∀ g, tl.takeIntake (fun f => f.isResponse 2) = some (f, tl') → tl'.room 1 = true → bit v 103 = false → mfind (bits v 107 104) tl.gbufs = some g →
      beatHere g.slots g.base = false → g.resync = false →
      (bits v 119 108 = g.base → tl.gate = .open_ → ∃ u, exec (.streamEndReceipt t) s = .next u ∧ mfind (bits v 107 104) (u.tile t).gbufs = none)
      ∧ (bits v 119 108 ≠ g.base → (g.base + 4096 - g.told) % 4096 < 16 → ∃ u, exec (.streamEndReceipt t) s = .next u
        ∧ mfind (bits v 107 104) (u.tile t).gbufs = some { g with endSeq := some (bits v 119 108) }))
    ∧ (∀ port g, port < 16 → mfind port tl.gbufs = some g → 2048 ≤ g.waited →
      let k := (g.base + missing g.slots g.base) % 4096
      ∃ u, exec (.poisonFillTimeout t port) s = .next u ∧ (u.tile t).router.poisonFill = min (tl.router.poisonFill + 1) 0xFFFF
        ∧ (g.resync = false → beatHere (mput g.slots k (0, true)) g.base = false → g.endSeq ≠ some g.base → (g.base + 4096 - g.told) % 4096 < 16 →
          mfind port (u.tile t).gbufs = some { g with slots := mput g.slots k (0, true), waited := 0 }))

/-- R39, R144, R260, R263 to R267, R340: once its flit has reached a die, a cancel is registered there in one step: while the launch that owns the
scope lives, its interval is in every tile's set, and covered tasks that wait are gone; later the sets stay as they are; a covered context is killed at its next boundary, in trap mode after 4,096 cycles, but not while an
atomic owes it an old value; a tile sends its counts once, its die's scheduler adds them, and the record is written when every die has sent its
sums. -/
def Obligations.CancelsRegisterKillReportAndEnd : Prop :=
  ∀ (s : State) (no t x : Nat) (c : Cancel),
    (mfind no s.cancels = some c → c.done = false →
      (c.reached.contains (dieOf t) = true → c.edges.contains (dieOf t) = false → (s.part c.part).out = false → (s.part c.part).restoring = false →
        ((s.part c.part).tiles.filter fun u => dieOf u == dieOf t) ≠ [] →
        (∀ k ∈ (s.part c.part).tiles, dieOf k = dieOf t → (register (s.tile k).cancels c.scope).length ≤ 256) →
        ∃ u, exec (.cancelRegistration no t) s = .next u ∧ (mfind no u.cancels).map (·.edges) = some (c.edges ++ [dieOf t])
          ∧ (s.intervalStays c = false → ∀ k, (u.tile k).cancels = (s.tile k).cancels)
          ∧ (s.intervalStays c = true → ∀ k ∈ (s.part c.part).tiles, dieOf k = dieOf t → (u.tile k).covers c.scope = true
            ∧ ((s.tile k).covers c.scope = false → (∀ q ∈ (u.tile k).ready, ∀ y ∈ q.2, contains c.scope y.scope = false)
              ∧ ∀ y ∈ (u.tile k).dep, contains c.scope y.scope = false)))
      ∧ (∀ g, c.tiles.contains t = true → (s.tile t).regs.find? (fun g => g.no == no) = some g → (s.part c.part).out = false →
        g.sent = false → (s.tile t).room 1 = true → (s.tile t).cancelDone g = true → ∃ u, exec (.cancelTileReport no t) s = .next u
          ∧ (u.tile t).injq.map (fun f => (f.kind, f.payload)) = (s.tile t).injq.map (fun f => (f.kind, f.payload))
              ++ [(3, reportPayload no g.purged g.killed g.cut 0)]
          ∧ (u.tile t).regs = (s.tile t).regs.map (fun r => if r.no = no then { r with sent := true } else r) ∧ s.SameMemory u)
      ∧ (∀ n f, (s.die (dieOf t)).xbar[n]? = some ⟨f, none⟩ → f.malformed false = false → f.failed = false → f.isSched 3 = true →
        f.ddie = dieOf t → f.ddie < 28 → s.cancelOf f = some (no, c) → f.stile = t → t ≠ edgeTile → (c.tiles.any fun k => k != t && dieOf k == dieOf t) = true →
        ∃ u, exec (.crossbarCrossing (dieOf t) n) s = .next u ∧ s.SameMemory u
          ∧ mfind no u.cancels = some ({ c with tiles := c.tiles.filter (· != t) }.addSum (dieOf t) (reportCounts f.payload)))
      ∧ (c.tiles = [] → c.dies = [] → c.owed = [] → s.parentDone c = true →
        (c.ack = none → ∃ u, exec (.cancelAckWrite no) s = .next u ∧ mfind no u.cancels = some { c with done := true } ∧ s.SameMemory u)
        ∧ (∀ a pa, c.ack = some a → s.translate (dieOf c.tile) c.part a false true = .ok pa → s.owns c.part pa = true →
          (∀ e ∈ s.parts, e.2.job = none) →
          ∃ u, exec (.cancelAckWrite no) s = .next u ∧ mfind no u.cancels = some { c with done := true }
            ∧ let r := u.readHome (.dev pa) 32
              bits r 0 0 = 1 ∧ bits r 127 96 = c.scope % 2 ^ 32 ∧ bits r 159 128 = min (c.totals.getD 1 0) 0xFFFFFFFF
                ∧ bits r 191 160 = min (c.totals.getD 0 0) 0xFFFFFFFF
                ∧ bits r 223 192 = min (c.totals.getD 2 0) 0xFFFFFFFF ∧ bits r 255 224 = min (c.totals.getD 3 0) 0xFFFFFFFF)))
    ∧ (∀ k, (s.ctx t x).task = some k → (s.ctx t x).halted = false → (s.ctx t x).arriving = none →
      ((s.ctx t x).owesAtomic = true → exec (.taskKill t x) s = .next s ∧ exec (.trapModeKillTimeout t x) s = .next s)
      ∧ ((s.ctx t x).trap = false → s.condemned t x = true → (s.ctx t x).wait = none → (s.ctx t x).owesAtomic = false →
        exec (.taskKill t x) s = .next (s.killTask t x) ∧ ((s.killTask t x).ctx t x).task = none)
      ∧ (∀ a, (s.ctx t x).trap = true → (s.ctx t x).killAt = some a → a + 4096 ≤ (s.tile t).res → (s.ctx t x).owesAtomic = false →
        exec (.trapModeKillTimeout t x) s = .next (s.killTask t x) ∧ ((s.killTask t x).ctx t x).trap = false))

/-- R332 to R340, R358, R368: a pre-empt request that arrives stops every context at its boundary and gates the tile; a request to switch replaces
a hold; a tile's report reaches its die's scheduler; a quiet partition leaves with its tiles, their budget windows and credits given up, which a
restore brings back as they were; a resumption, once every tile has reported and no die is in reset, sends its flits, and one that arrives opens its
tile; a slice that has ended begins a switch when another tenant has work, and an urgent deadline tenant begins one at once. What a held tile's
remote queue and injection queue still do is the model's reading (log 40), and so is that the slice of a tenant which ends while no other has work
begins again from 0 (log 40). -/
def Obligations.PreemptionHoldsSwitchesAndResumes : Prop :=
  ∀ (s : State) (t p : Nat),
    let q := s.part p
    (∀ f tl', (s.tile t).takeIntake (fun f => f.isSched 0 && !bit f.payload 112) = some (f, tl') →
      ∃ u, exec (.preemptHoldRequest t) s = .next u ∧ (u.tile t).intake = tl'.intake ∧ s.SameMemory u
        ∧ (u.tile t).gate = (if (s.tile t).gate = .open_ then .hold else (s.tile t).gate)
        ∧ ∀ c, (s.tile t).gate = .open_ → (s.ctx t c).task.isSome = true → u.ctx t c = { s.ctx t c with halted := true, busy := [], fflight := [] })
    ∧ (∀ f tl', (s.tile t).takeIntake (fun f => f.isSched 0 && bit f.payload 112) = some (f, tl') →
      ∃ u, exec (.preemptSwitchRequest t) s = .next u ∧ (u.tile t).gate = .switch ∧ (u.tile t).intake = tl'.intake ∧ s.SameMemory u
        ∧ ∀ c, (s.ctx t c).task.isSome = true → u.ctx t c = { s.ctx t c with halted := true, busy := [], fflight := [] })
    ∧ (∀ n f, (s.die (dieOf t)).xbar[n]? = some ⟨f, none⟩ → f.malformed false = false → f.failed = false → f.isSched 1 = true → f.ddie = dieOf t →
      f.ddie < 28 → f.part = p → (mfind f.stile q.asked).isSome = true →
      ∃ u, exec (.crossbarCrossing (dieOf t) n) s = .next u ∧ (u.part p).halted.contains f.stile = true ∧ s.SameMemory u)
    ∧ (∀ f, f.isSched 2 = true → f.malformed true = false → f.failed = false →
      ((s.eject t f).tile t).gate = .open_ ∧ ∀ c, ((s.eject t f).ctx t c).halted = false ∧ ((s.eject t f).ctx t c).regs = (s.ctx t c).regs)
    ∧ (q.saving = true → s.quiet p = true → ∃ u, exec (.stateSaveComplete p) s = .next u ∧ (u.part p).out = true ∧ (u.part p).saving = false
        ∧ ∀ k ∈ q.tiles, u.tile k = Tile.reset ∧ mfind k (u.part p).saved = some { s.tile k with charges := [], allot := 0 })
    ∧ (q.restoring = true → s.inReset p = false → ∃ u, exec (.restoreComplete p) s = .next u ∧ (u.part p).out = false ∧ (u.part p).restoring = false
        ∧ ∀ k ∈ q.tiles, (u.tile k).store = (mget Tile.reset q.saved k).store ∧ (u.tile k).acc = (mget Tile.reset q.saved k).acc
          ∧ ∀ c, (u.ctx k c).regs = ((mget Tile.reset q.saved k).ctx c).regs ∧ (u.ctx k c).task = ((mget Tile.reset q.saved k).ctx c).task)
    ∧ (s.inReset p = true → exec (.resumeRequest p) s = .next s ∧ exec (.restoreComplete p) s = .next s)
    ∧ (q.valid = true → q.sched.isSome = true → q.blocked = false → q.saving = false → q.restoring = false → s.inReset p = false →
      (q.out = true → (∀ c ∈ s.cotenants p, (s.part c).out = true ∧ (s.part c).restoring = false) →
        exec (.resumeRequest p) s = .next (if s.cotenants p = [] ∨ s.eligible p = true then s.modPart p fun q => { q with restoring := true } else s))
      ∧ (q.out = false → q.hold.record = true ∨ q.asked ≠ [] → (∀ k ∈ q.tiles, q.halted.contains k = true) → ∃ u, exec (.resumeRequest p) s = .next u
        ∧ (u.part p).hold.record = false ∧ (u.part p).resuming = q.tiles ∧ (u.part p).asked = [] ∧ s.SameMemory u))
    ∧ (∀ r, q.sched = some r → q.resident = true → r.slice * 1024 ≤ q.sliceUsed → s.urgent p = false →
      ((s.cotenants p).any s.eligible = true → ∃ u, exec (.sliceExpiry p) s = .next u ∧ (u.part p).saving = true)
      ∧ ((s.cotenants p).any s.eligible = false → ∃ u, exec (.sliceExpiry p) s = .next u ∧ (u.part p).sliceUsed = 0 ∧ (u.part p).saving = q.saving))
    ∧ (q.out = true → s.urgent p = true → s.eligible p = true →
      ∃ u, exec (.deadlinePreemption p) s = .next u ∧ ∀ c ∈ s.cotenants p, (s.part c).resident = true → (u.part c).saving = true)

/-- R258 to R260, R319, R320, R370, R371, R375: a launch from the window or in a packet is admitted or refused with its code and quote (0x07 for a
descriptor that came as poison, 0x02 for a root that is taken, 0xFF when its quote or its tiles forbid it), the loader places it and publishes its
entry task, and it ends once nothing of it is left. That bit 512 of the window's operand and bit 614 of the packet's say that it came as poison, is the
model's form (log 56). -/
def Obligations.LaunchesAreAdmittedPlacedAndEnded : Prop :=
  ∀ (s : State) (p l desc packet : Nat),
    let la := s.launch l
    let q := s.part p
    let d := descOf (desc % 2 ^ 512)
    let refused := fun (code : Nat) => ∃ u, exec (.launchWindowWrite p desc) s = .next u
        ∧ (u.part p).stCode = code ∧ (u.part p).quote = 2 ^ 64 - 1 ∧ (u.part p).stSeq = (q.stSeq + 1) % 2 ^ 32 ∧ u.launches = s.launches ∧ u.nextLid = s.nextLid
    (s.windowsOpen p = true →
      (bit desc 512 = true → refused 0x07)
      ∧ (∀ code aux, bit desc 512 = false → s.descFault p (ioDie p) d = some (code, aux) → refused code)
      ∧ (bit desc 512 = false → d.endAddr = 0 → d.ctr = 0 → s.rootTaken p d.root = true → refused 0x02)
      ∧ (∀ r, bit desc 512 = false → s.descFault p (ioDie p) d = none → q.sched = some r →
        (s.launchQuote p (ioDie p) d = none ∨ (∃ k, s.launchQuote p (ioDie p) d = some k ∧ r.hqlim ≠ 0 ∧ r.hqlim < k) ∨ s.unreserved p < d.nvt →
          refused 0xFF)
        ∧ ∀ k, s.launchQuote p (ioDie p) d = some k → r.hqlim = 0 ∨ k ≤ r.hqlim → d.nvt ≤ s.unreserved p →
          ∃ u, exec (.launchWindowWrite p desc) s = .next u
          ∧ (u.part p).stCode = 0 ∧ (u.part p).quote = k ∧ (u.part p).stSeq = (q.stSeq + 1) % 2 ^ 32 ∧ u.nextLid = s.nextLid + 1
          ∧ (u.launch u.nextLid).st = .admitted ∧ (u.launch u.nextLid).root = d.root ∧ (u.launch u.nextLid).part = p)
      ∧ ∃ u, exec (.partialWindowWrite p) s = .next u ∧ (u.part p).stBad = min (q.stBad + 1) (2 ^ 24 - 1))
    ∧ (let k := bits packet 613 608
      let x := descOf (packet % 2 ^ 512)
      let limit := bits packet 575 512
      let reports := fun (u : State) (code quote : Nat) => exec (.launchPacket packet) s = .next u ∧ ∃ m w, u.clasp.sent = s.clasp.sent ++ [m]
        ∧ m.to_ = "rack" ∧ m.what = "residency report" ∧ m.vals = [w] ∧ w < 2 ^ 256 ∧ bits w 255 224 = bits packet 607 576
        ∧ bits w 223 160 = quote ∧ bits w 159 152 = code ∧ bits w 139 128 = (u.liveLaunches k).length % 2 ^ 12 ∧ bits w 54 0 = 0
      let refuses := fun (code : Nat) => ∃ u, reports u code (2 ^ 64 - 1) ∧ u.launches = s.launches ∧ u.nextLid = s.nextLid
      (s.windowsOpen k = false → refuses 0xFF)
      ∧ (s.windowsOpen k = true →
        (bit packet 614 = true → refuses 0x07)
        ∧ (∀ code aux, bit packet 614 = false → s.descFault k (ioDie k) x = some (code, aux) → refuses code)
        ∧ (bit packet 614 = false → s.descFault k (ioDie k) x = none →
          (s.launchQuote k (ioDie k) x = none ∨ (∃ n, s.launchQuote k (ioDie k) x = some n ∧ limit ≠ 0 ∧ limit < n) ∨ s.unreserved k < x.nvt → refuses 0xFF)
          ∧ ∀ n, s.launchQuote k (ioDie k) x = some n → limit = 0 ∨ n ≤ limit → x.nvt ≤ s.unreserved k →
            ∃ u, reports u 0 n ∧ u.nextLid = s.nextLid + 1 ∧ (u.launch u.nextLid).st = .admitted ∧ (u.launch u.nextLid).root = x.root
              ∧ (u.launch u.nextLid).part = k ∧ (u.launch u.nextLid).rack = some (bits packet 607 576))))
    ∧ (la.st = .admitted → la.refusal = none → (s.part la.part).out = false → (s.part la.part).restoring = false → (s.part la.part).saving = false →
      (∀ e, s.readVirt la.part (la.csize / 2 ^ 16 + 2) la.cont la.csize = .error e →
        ∃ u, exec (.loaderPlacement l) s = .next u ∧ u.launch l = { la with refusal := some e })
      ∧ (∀ raw c, s.readVirt la.part (la.csize / 2 ^ 16 + 2) la.cont la.csize = .ok raw → parseContainer raw la.nvt la.root = some c →
        ∃ v, s.EdgeOnly v ∧ ∀ k ks, v.place la.part c.reloc = some (k :: ks) → ∃ u, exec (.loaderPlacement l) s = .next u ∧ (u.launch l).st = .placed ∧ (u.launch l).tiles = k :: ks
          ∧ (u.launch l).folios = c.folios ∧ (u.launch l).groups = c.groups
          ∧ ∃ e, u.pubs = s.pubs ++ [⟨e, k, none⟩] ∧ e.entry = c.entry ∧ e.scope = la.root ∧ e.arg = la.arg ∧ e.lid = l))
    ∧ (la.st = .placed → la.refusal = none → la.started = true → (∀ k ∈ s.pubs, k.task.lid ≠ l) → (∀ t ∈ la.tiles, (s.tileOf la.part t).idle l = true) →
      ∃ u, exec (.launchEnd l) s = .next u ∧ (u.launch l).st = .ended ∧ ((s.part la.part).out = false → ∀ t ∈ la.tiles, (u.tile t).lid = none))

/-- R289, R316, R332, R337, R360, R370, R372, R374, R380: the host's control writes, registers and their reads, router status and TLPs; transfers
over a scale link. The peer's consent and its data are open (log 4); the operands' form is the model's (log 56). -/
def Obligations.HostAccessesAndLinkTransfers : Prop :=
  ∀ (s : State) (p k off v pa n req : Nat) (bytes : List Nat) (ep : Bool),
    let q := s.part p
    (q.valid = true → exec (.ctrlSuspend p) s = .next (s.modPart p fun q => { q with hold := { q.hold with suspend := true } })
      ∧ exec (.ctrlResume p) s = .next (s.modPart p fun q => { q with hold := { q.hold with suspend := false } })
      ∧ s.barRead p 0x040 = q.quote ∧ bits (s.barRead p 0x048) 63 32 = q.stSeq % 2 ^ 32 ∧ bits (s.barRead p 0x048) 7 0 = q.stCode % 256
      ∧ (∀ a ∈ [0x000, 0x080, 0x100, 0x300], s.barRead p a = 0)
      ∧ ∃ u, exec (.registerWrite p off v) s = .next u ∧ s.SameMemory u
        ∧ (u.part p).hold.suspend = (if off = 0x80 ∧ v = 1 then true else if off = 0x80 ∧ v = 2 then false else q.hold.suspend)
        ∧ (u.part p).rbase = (if off = 0x200 then v % 2 ^ 64 else q.rbase) ∧ (u.part p).rsize = (if off = 0x208 then v % 2 ^ 64 else q.rsize)
        ∧ (u.part p).rtail = (if off = 0x218 then v % 2 ^ 64 else q.rtail) ∧ (u.part p).grant = (if off = 0x340 then v % 2 ^ 256 else q.grant))
    ∧ (∀ t, q.tiles[k]? = some t → q.out = false → ∃ u, exec (.routerStatusWrite p k) s = .next u ∧ (u.tile t).router = Router.reset ∧ s.SameMemory u)
    ∧ (∀ b, s.ownsAll p pa bytes.length = true → (∀ a, s.mirrors a = []) → (∀ x ∈ beatsOf pa bytes.length, s.forward x.1 = b + (x.1 - pa)) →
        ∃ u, exec (.hostWriteTlp p pa bytes ep) s = .next u
        ∧ (∀ a, u.readHome (.dev a) 1 = if b ≤ a ∧ a < b + bytes.length then (bytes.getD (a - b) 0) % 256 else s.readHome (.dev a) 1)
        ∧ (ep = true → 0 < bytes.length → u.poisonHome (.dev b) bytes.length = true))
    ∧ (s.ownsAll p pa n = true → pa + n ≤ 0x800000000000 → (∀ e ∈ s.parts, e.2.job = none) → ∃ u, exec (.hostReadTlp p pa n) s = .next u
        ∧ s.SameMemory u ∧ u.clasp.sent = s.clasp.sent ++ [⟨"host", "read completion", [p, pa, b2n (s.poisonHome (.dev pa) n)]
          ++ (List.range n).map fun j => s.readHome (.dev (pa + j)) 1⟩])
    ∧ (∀ l, s.windowsOpen p = true → s.linkCtrBad p (linkReqOf req) = false → (linkReqOf req).bad = false →
      ((linkReqOf req).dirRead = false → s.unitsAt p (linkReqOf req).lva true false ((linkReqOf req).len / 64) = .ok l →
        ∃ u, exec (.linkTransferWrite p req) s = .next u ∧ (s.peerGrants.1 = true → u.clasp.sent.length = s.clasp.sent.length + l.length))
      ∧ ((linkReqOf req).dirRead = true → s.unitsAt p (linkReqOf req).lva false true ((linkReqOf req).len / 64) = .ok l →
        ∃ u, exec (.linkTransferRead p req) s = .next u ∧ s.free < u.free ∧ u.clasp.sent = s.clasp.sent ++ (if s.peerGrants.1 then
          [⟨"peer", "read", [(linkReqOf req).peer, (linkReqOf req).ppart, b2n (linkReqOf req).net, (linkReqOf req).rva, (linkReqOf req).len]⟩] else [])))
    ∧ (∀ peer ppart l, q.valid = true → bits q.grant 127 119 = peer → bits q.grant 118 113 = ppart → bits q.grant 112 0 = 0 → bits q.grant 255 192 ≤ v →
      v + n ≤ bits q.grant 255 192 + bits q.grant 191 128 → n ≠ 0 → n % 64 = 0 → v % 64 = 0 → v + n ≤ 2 ^ 52 →
      (s.unitsAt p v true false (n / 64) = .ok l → (∀ e ∈ s.parts, e.2.job = none) → ∃ u, exec (.peerLinkTransfer peer ppart true p v n []) s = .next u ∧ s.SameMemory u
        ∧ u.clasp.sent.length = s.clasp.sent.length + n / 64)
      ∧ (∀ data, data.length = n → s.unitsAt p v false true (n / 64) = .ok l →
        ∃ u, exec (.peerLinkTransfer peer ppart false p v n data) s = .next u ∧ u.clasp.sent.length = s.clasp.sent.length + 1))

/-- R306 to R311, R376: map requests, taken once the windows are open or from Clasp, change the partition's leaves once every check has passed; an
unmap waits for its tokens and old accesses; a migration copies its page beat by beat, then every edge names the new frame, page after page. That
every die's tables change in one step is the model's (log 42), and so are Clasp's requests before the windows open (log 42), which agents hold a
translation (log 43), and bit 512 of the operand for a request of Clasp's (log 56). -/
def Obligations.MapRequestsAndMigration : Prop :=
  ∀ (s : State) (p req : Nat),
    let q := s.part p
    let r := mapReqOf (req % 2 ^ 512)
    (q.valid = true → s.windowsOpen p = true ∨ bit req 512 = true → q.waiting = [] → q.job = none → (s.mapCounter p r).isSome = true → r.malformed = false → q.mapClash r = false →
      s.framesForeign p r = false →
      (r.op = 0 → ∃ u, exec (.mapRequestMap p req) s = .next u ∧ (u.part p).leaves = r.mapped q.leaves ∧ (u.part p).job = none)
      ∧ (r.op = 1 → ∃ u j, exec (.mapRequestUnmap p req) s = .next u ∧ (u.part p).leaves = q.leaves.filter (fun e => !r.names e)
        ∧ (u.part p).job = some j ∧ j.phase = 0 ∧ j.tokens = s.drains p r.va r.size)
      ∧ (r.op = 2 → q.removes r = false → ∃ u, exec (.mapRequestProtect p req) s = .next u ∧ (u.part p).job = none
        ∧ (u.part p).leaves = q.leaves.map fun e => if r.names e then { e with rd := r.rd, wr := r.wr } else e)
      ∧ (r.op = 3 → ∃ u, exec (.mapRequestMigrate p req) s = .next u ∧ (u.part p).leaves = q.leaves
        ∧ (u.part p).job = some ⟨req % 2 ^ 512, 1, 0, [], 0, []⟩)
      ∧ (r.op = 4 → ∃ u, exec (.mapRequestOrder p req) s = .next u ∧ (u.part p).leaves = q.leaves ∧ (u.part p).job = none))
    ∧ (∀ j, q.job = some j →
      let r := mapReqOf j.req
      (∀ n k, j.tokens[n]? = some k → exec (.drainTokenArrival p n) s =
        .next (if k.back then s.modPart p fun q => { q with job := some { j with tokens := j.tokens.eraseIdx n } } else s))
      ∧ (j.phase = 0 → j.tokens = [] → s.oldAccessesDone p r = true → q.waiting = [] →
        ∃ u, exec (.invalidationComplete p) s = .next u ∧ (u.part p).job = none ∧ (u.part p).leaves = q.leaves)
      ∧ (∀ old, s.oldFrame p r j.page = some old → j.phase = 1 →
        (j.nextBeat < pageSize r.psz / 64 → ∃ u, exec (.migrationSpliceBeat p) s = .next u
          ∧ (u.part p).job = some { j with copied := j.copied ++ [j.nextBeat] }
          ∧ (∀ a, u.readHome (.dev a) 1 = (let d := r.frame j.page + 64 * j.nextBeat
              if d ≤ a ∧ a < d + 64 then s.readHome (.dev (old + 64 * j.nextBeat + (a - d))) 1 else s.readHome (.dev a) 1))
          ∧ ∀ k, k < 4 → s.poisonHome (.dev (old + 64 * j.nextBeat + 16 * k)) 16 = true → r.frame j.page % 16 = 0 → old % 16 = 0 →
            u.poisonHome (.dev (r.frame j.page + 64 * j.nextBeat + 16 * k)) 16 = true)
        ∧ (pageSize r.psz / 64 ≤ j.copied.length → ∃ u k, exec (.migrationRedirect p) s = .next u ∧ (u.part p).job = some k ∧ k.phase = 2
          ∧ k.page = j.page ∧ k.old = old ∧ k.tokens = s.drains p (r.page j.page) (pageSize r.psz) ∧ s.SameMemory u
          ∧ (u.part p).leaves = q.leaves.map fun e => if e.psz == r.psz && e.va == r.page j.page then { e with frame := r.frame j.page } else e))
      ∧ (j.phase = 2 → j.tokens = [] → (j.page + 1 < r.count → q.waiting = [] → ∃ u, exec (.migrationDone p) s = .next u
          ∧ (u.part p).job = some ⟨j.req, 1, j.page + 1, [], 0, []⟩ ∧ (u.part p).leaves = q.leaves ∧ s.SameMemory u)
        ∧ (r.count ≤ j.page + 1 → q.waiting = [] → ∃ u, exec (.migrationDone p) s = .next u ∧ (u.part p).job = none ∧ (u.part p).leaves = q.leaves)))

/-- R317, R318, R332, R360, R377, R379, R388 to R391: the calls of the management firmware: configuration, sparing and scheduling records,
partition control, status and log, checkpoint; and self-test and scrub. A signature's validity and a sector's error are open (logs 4, 5). The model's
choices: the order of the calls' checks, and that resume (call 0x04) ends a driver's suspend as well as the management hold (log 41); which sparing
updates are taken and what a test's 24 hours are (log 49); the form of the mailbox and of the signed records (log 56); that a checkpoint's image is gone
once a new record's allotments leave it no room (log 66). -/
def Obligations.ClaspAnswersItsCalls : Prop :=
  ∀ (s : State) (p n : Nat),
    let q := s.part p
    let c := s.clasp
    (∀ sig key newKey, Config.sha384 key = c.ownerHash → s.configBad n = false →
      ((mkeys s.parts).filter fun k => s.entryChanges n k && !(s.part k).out && (s.part k).sched.isSome) = [] →
      ∃ u, exec (.submitConfiguration n sig key newKey) s = .next u
        ∧ (Config.verify key (signedRecord n newKey) sig = false → u = (s.call [1, n, sig, key, newKey]).modClasp fun c => { c with status := 2 })
        ∧ (Config.verify key (signedRecord n newKey) sig = true → u.clasp.status = 0 ∧ u.clasp.record = n ∧ u.clasp.recSign = some (key, newKey, sig)
          ∧ u.clasp.image = (if u.clasp.checkpointFits then c.image else none)
          ∧ u.clasp.ownerHash = (if newKey % 2 ^ 768 = 0 then c.ownerHash else Config.sha384 (newKey % 2 ^ 768))
          ∧ ∀ k, k < 64 → (u.part k).valid = bit n (1024 * k + 198) ∧ (u.part k).auth = bits n (1024 * k + 639) (1024 * k + 256)
            ∧ (u.part k).bmax = bits n (1024 * k + 242) (1024 * k + 234)
            ∧ (u.part k).slots = ((List.range 384).filter fun i => bit n (1024 * k + 640 + i))))
    ∧ (∀ kind die unit index,
      let x := (kind, die, if kind = 6 then unit else unit * 1024 + index)
      ∀ fence, ∃ u, exec (.submitSparing kind die unit index fence) s = .next u
        ∧ ((if fence then c.fenced.contains unit else c.spared.contains x) = true →
          u.clasp.status = 0 ∧ u.clasp.sparRec = ⟨c.spared, c.fenced, c.retired⟩ ∧ u.clasp.sparingOk = true)
        ∧ ((if fence then c.fenced.contains unit else c.spared.contains x) = false →
          u.clasp.status = 1 ∧ u.clasp.sparRec = c.sparRec ∧ u.clasp.sparSig = c.sparSig))
    ∧ (q.valid = true → s.schedBad p n = false →
      (q.sched = none → ∃ u, exec (.submitSchedulingRecord p n) s = .next u ∧ u.clasp.status = 0 ∧ (u.part p).sched = some (schedOf n)
        ∧ (u.part p).out = (s.inReset p || (s.cotenants p).any fun k => !(s.part k).out))
      ∧ (q.sched.isSome = true → exec (.submitSchedulingRecord p n) s = .next (((s.call [3, p, n]).modPart p fun q =>
        { q with nextSched := some (schedOf n), hold := { q.hold with record := true } }).modClasp fun c => { c with status := 0 })))
    ∧ (s.schedBad p n = true → exec (.submitSchedulingRecord p n) s = .next ((s.call [3, p, n]).modClasp fun c => { c with status := 1 }))
    ∧ (q.valid = true → (∃ u, exec (.partitionControl p 0) s = .next u ∧ u.clasp.status = 0 ∧ u.part p = { q with hold := { q.hold with mgmt := true } })
      ∧ (q.out = false → ∃ u, exec (.partitionControl p 1) s = .next u ∧ u.clasp.status = 0
        ∧ u.part p = { q with saving := true, hold := { q.hold with mgmt := true } })
      ∧ (∃ u, exec (.partitionControl p 2) s = .next u ∧ u.clasp.status = 0 ∧ u.part p = { q with hold := { q.hold with mgmt := false, suspend := false } }))
    ∧ (∃ u, exec (.readRouterStatus n) s = .next u ∧ u.clasp = { c with
        mailbox := callBytes [7, n], status := 0, sent := c.sent ++ [⟨"management", "router status", s.routerBlocks n⟩] } ∧ u.tiles = s.tiles
      ∧ (s.routerBlocks n).take 2 = [n, (s.tile n).router.word]
      ∧ (q.out = true → (mfind n q.saved).isSome = true → (mfind p s.parts).isSome = true →
        p ∈ s.routerBlocks n ∧ (s.tileOf p n).router.word ∈ s.routerBlocks n))
    ∧ (∃ u, exec .readErrorLog s = .next u ∧ u.clasp = { c with
        mailbox := callBytes [9], status := 0, sent := c.sent ++ [⟨"management", "error log", c.log.map fun l => l.getD 0 0⟩] } ∧ u.tiles = s.tiles)
    ∧ (c.checkpointFits = true → s.onTiles = [] → ∃ u k, exec .checkpoint s = .next u ∧ u.clasp.status = 0 ∧ u.clasp.ckNo = c.ckNo + 1
      ∧ u.clasp.ckValid = true ∧ u.clasp.image = some k ∧ k.launches = s.launches ∧ k.record = c.record ∧ k.recSign = c.recSign ∧ k.runs = c.runs
      ∧ k.sparing = ⟨c.spared, c.fenced, c.retired⟩ ∧ u.dev = s.dev
      ∧ ∀ a, a < 0x800000000000 → readByte k.dev.bytes a = readByte s.dev.bytes a)
    ∧ (∀ j pass, c.tests[n]? = some j → s.testReady j = true → ∃ u, exec (.selfTest n pass) s = .next u
      ∧ (pass = true → (j.recent (mget [] c.counts j.key)).length + 1 < 16 →
        u.clasp.tests = c.tests.eraseIdx n ∧ u.clasp.spared = c.spared ∧ u.tiles = s.tiles)
      ∧ (pass = false ∨ 16 ≤ (j.recent (mget [] c.counts j.key)).length + 1 → j.kind = 1 ∨ j.kind = 4 →
        u.clasp.spared = c.spared ++ [(j.kind, j.die, unitKey j.kind j.label j.quarter j.index)]
        ∧ u.clasp.sparRec = ⟨u.clasp.spared, c.fenced, c.retired⟩ ∧ u.clasp.sparingOk = true
        ∧ u.clasp.tests = c.tests.eraseIdx n ++ (if j.kind = 4 then [j] else [])))
    ∧ (∀ stack sector g, granuleOf (stack * 0x1000000000 + sector * 64) = some g → g < 1152 → ∃ u, exec (.hbmScrub stack sector) s = .next u
      ∧ u.free = s.free + 1 ∧ u.dev.bytes = s.dev.bytes
      ∧ ((u.clasp.tests = c.tests ∧ u.clasp.log = c.log)
        ∨ u.clasp.tests = c.tests ++ [⟨5, stack, 0, 0, stack * 0x1000000000 + sector * 64, (s.die 24).cycle⟩]))

/-- R17, R376, R381, R386, R391, R392: a fold adds the partial counts to the meters, saturating, and sets ATCAP and the hold of a cap that is
reached; power comes with the records that verify, or with a checkpoint's memory, launches and records, every partition keeping Clasp's newer colophon chain,
and goes; a warning is logged; a cycle of a die adds one to its CYCLE and moves its LCLK past every stamp received. The
fold as a step of its own and the clock's acts are the model's (log 3); what no record of R376 names is empty at power-on (log 1); that a shutdown which
finds partitions on their tiles begins their switches and stays pending, power on, until they are out, is the model's reading of R392 (log 41). -/
def Obligations.MetersPowerAndTheClock : Prop :=
  ∀ (s : State) (die : Nat),
    (s.foldCycle + 2048 ≤ (s.die 24).cycle → (mkeys s.parts).Nodup → ∃ u, exec .meterFold s = .next u ∧ u.foldCycle = (s.die 24).cycle
      ∧ ∀ p, p ∈ mkeys s.parts → ∀ m, m < 16 →
        mget 0 (u.part p).meters m = min (2 ^ 64 - 1) (mget 0 (s.part p).meters m + mget 0 (s.part p).partial_ m)
        ∧ mget 0 (u.part p).partial_ m = 0
        ∧ (mget 0 (s.part p).caps m ≠ 0 → mget 0 (s.part p).caps m ≤ mget 0 (u.part p).meters m → bit (u.part p).atcap m = true ∧ (u.part p).hold.cap = true))
    ∧ (s.powered = false → s.clasp.image = none → ∃ u, exec .powerOn s = .next u ∧ u.powered = true ∧ u.agenda = [] ∧ u.tiles = [] ∧ u.launches = []
      ∧ u.dev.bytes = [] ∧ u.dies = [] ∧ u.clasp.spared = (if s.clasp.sparingOk then s.clasp.sparRec.spared else []) ∧ u.clasp.record = s.clasp.record
      ∧ (s.clasp.recordVerified = false → ∀ p, (u.part p).valid = false))
    ∧ (∀ k, s.powered = false → s.clasp.image = some k → s.clasp.ckValid = true →
      s.clasp.manifest = some (Config.sign (Config.sha384 s.clasp.ckNo)) → ∃ u, exec .powerOn s = .next u ∧ u.powered = true ∧ u.agenda = []
        ∧ u.tiles = [] ∧ u.dev = k.dev ∧ u.launches = k.launches ∧ u.clasp.record = k.record ∧ u.clasp.recSign = k.recSign ∧ u.clasp.sparRec = k.sparing
        ∧ u.clasp.sparSig = k.sparSig
        ∧ (∀ p, (mfind p k.parts).isSome = true → u.part p =
          { mget Partition.reset k.parts p with coloSeq := (s.part p).coloSeq, coloPrev := (s.part p).coloPrev })
        ∧ ∀ p, (mfind p k.parts).isSome = false → (mfind p s.parts).isSome = true →
          (u.part p).coloSeq = (s.part p).coloSeq ∧ (u.part p).coloPrev = (s.part p).coloPrev)
    ∧ (∃ u, exec (.temperatureWarning die) s = .next u ∧ (u.die die).warned = true ∧ u.clasp.log.length = s.clasp.log.length + 1 ∧ s.SameMemory u)
    ∧ (s.clasp.checkpointFits = false → exec (.temperatureShutdown die) s = .next { s with powered := false })
    ∧ (s.clasp.checkpointFits = true → s.onTiles = [] → ∃ u, exec (.temperatureShutdown die) s = .next u ∧ u.powered = false ∧ u.clasp.ckValid = true
      ∧ u.clasp.ckNo = s.clasp.ckNo + 1)
    ∧ (s.clasp.checkpointFits = true → s.onTiles ≠ [] → ∃ u, exec (.temperatureShutdown die) s = .next u ∧ u.powered = s.powered
      ∧ u.clasp.shutdown = some die ∧ ∀ p ∈ s.onTiles, (u.part p).saving = true)
    ∧ (s.powered = false → ∀ i, i ≠ .powerOn → act (.event i) s = .fault .noPower)
    ∧ (die < 28 → ∃ u acts, exec (.clockCycle die) s = .next u ∧ u.agenda = s.agenda ++ acts ∧ (u.die die).cycle = (s.die die).cycle + 1
      ∧ (u.die die).lclk = max ((s.die die).lclk + 1) ((s.die die).stamp + 1) ∧ (∀ d, d ≠ die → u.die d = s.die d) ∧ s.SameMemory u)

/-- R382 to R387: the SPDM exchange of a requester goes from version to capabilities to algorithms (the order is the model's, log 14); slot 0,
measurements, sessions; colophons form one chain, an authority alone sets caps, and a request that is not permitted changes nothing. -/
def Obligations.SpdmAndVendorRequests : Prop :=
  ∀ (s : State) (r : Requester),
    let x := s.session r
    (∃ u, exec (.getVersion r) s = .next u ∧ s.Answered u "VERSION" [0x13] ∧ (u.session r).version = true ∧ (u.session r).caps = false)
    ∧ (x.version = true → ∃ u, exec (.getCapabilities r) s = .next u ∧ s.Answered u "CAPABILITIES" [] ∧ u.session r = { x with caps := true })
    ∧ (∀ offer : List String, x.caps = true → ∃ u, exec (.negotiateAlgorithms r offer) s = .next u
      ∧ s.Answered u "ALGORITHMS" (spdmAlgorithms.map fun a => b2n (offer.contains a)) ∧ ((∀ a ∈ spdmAlgorithms, a ∈ offer) → u.session r = { x with algs := true }))
    ∧ (∀ n h share, x.algs = true →
      exec (.getDigests r) s = .next (s.send "spdm" "DIGESTS" [0, Config.sha384 Config.certificate])
      ∧ exec (.getCertificate r) s = .next (s.send "spdm" "CERTIFICATE" [0, Config.certificate])
      ∧ exec (.challenge r n) s = .next (s.send "spdm" "CHALLENGE_AUTH" [Config.sha384 Config.certificate, n, Config.sign (Config.sha384 n)])
      ∧ exec (.getMeasurements r 3) s = .next (s.send "spdm" "MEASUREMENTS" [3, Config.sha384 s.clasp.record])
      ∧ exec (.getMeasurements r 5) s = .next (s.send "spdm" "MEASUREMENTS" [5, Config.sha384 s.clasp.sparRec.word])
      ∧ (∀ p, r = .vf p → exec (.getMeasurements r 4) s = .next (s.send "spdm" "MEASUREMENTS" [4, Config.sha384 (recordEntry s.clasp.record p)]))
      ∧ (n = 0 ∨ 5 < n → exec (.getMeasurements r n) s = .next (s.send "spdm" "UnsupportedRequest" []))
      ∧ ∃ u, exec (.keyExchange r h share) s = .next u ∧ u.session r = { x with key := some h, secure := false }
        ∧ s.Answered u "KEY_EXCHANGE_RSP" [Config.keyShare share, Config.sign (Config.sha384 (Config.keyShare share))])
    ∧ (∀ k, x.key = some k → ∃ u, exec (.finish r (Config.finishProof k)) s = .next u ∧ u.session r = { x with secure := true } ∧ s.Answered u "FINISH_RSP" [])
    ∧ (x.secure = true → ∃ u, exec (.endSession r) s = .next u ∧ u.session r = { x with key := none, secure := false } ∧ s.Answered u "END_SESSION_ACK" [])
    ∧ (∀ i n, x.algs = false → i ∈ [Instr.getDigests r, .getCertificate r, .challenge r n, .getMeasurements r n] →
      exec i s = .next (s.send "spdm" "UnexpectedRequest" []))
    ∧ (∀ p nonce, p < 64 →
      let q := s.part p
      (r = .pf ∨ r = .mgmt ∨ r = .vf p →
        (∃ u c, exec (.getcolo r p nonce) s = .next u ∧ u.clasp.sent = s.clasp.sent ++ [⟨"spdm", "colophon", [c]⟩] ∧ (u.part p).coloSeq = q.coloSeq + 1
          ∧ (u.part p).coloPrev = Config.sha384 c ∧ bits c 31 0 = 0x4E4F4C43 ∧ bits c 37 32 = p ∧ bits c 47 38 = 0 ∧ bits c 63 48 = 1
          ∧ bits c 79 64 = q.atcap % 2 ^ 16 ∧ bits c 127 80 = 0 ∧ bits c 511 128 = Config.sha384 s.clasp.record % 2 ^ 384
          ∧ bits c 639 576 = (q.coloSeq + 1) % 2 ^ 64 ∧ (∀ m, m < 16 → bits c (640 + 64 * m + 63) (640 + 64 * m) = mget 0 q.meters m % 2 ^ 64)
          ∧ bits c 1919 1664 = nonce % 2 ^ 256 ∧ bits c 2303 1920 = q.coloPrev % 2 ^ 384
          ∧ bits c 3071 2304 = Config.sign (Config.sha384 (bits c 2303 0)) % 2 ^ 768)
        ∧ exec (.getcaps r p) s = .next (s.send "spdm" "caps" ((List.range 16).map fun m => mget 0 q.caps m)))
      ∧ (∀ k, r = .vf k → k ≠ p → exec (.getcolo r p nonce) s = .next (s.send "spdm" "UnsupportedRequest" [])
        ∧ exec (.getcaps r p) s = .next (s.send "spdm" "UnsupportedRequest" []))
      ∧ (∀ caps : List Nat, caps.length = 16 →
        (s.isAuthority r p = true → ∃ u, exec (.setcaps r p caps) s = .next u ∧ u.clasp.sent = s.clasp.sent ++ [⟨"spdm", "status", [0]⟩]
          ∧ (∀ m, m < 16 → mget 0 (u.part p).caps m = caps.getD m 0 % 2 ^ 64
            ∧ (bit (u.part p).atcap m = true ↔ mget 0 (u.part p).caps m ≠ 0 ∧ mget 0 (u.part p).caps m ≤ mget 0 q.meters m))
          ∧ ((u.part p).hold.cap = true ↔ (u.part p).atcap ≠ 0))
        ∧ (s.isAuthority r p = false → exec (.setcaps r p caps) s = .next (s.send "spdm" "UnsupportedRequest" []))))
end

