-- ==== Sys2Proof/Laws/Store.lean ====
section
/-! SUPPORT. Laws of keyed lists and byte stores: what a read after a write gives, and that writes keep the canonical form. -/

namespace Sys2Proof.Machine

/-! Keyed lists. -/

theorem mfind_mdel_same {α : Type} (k : Nat) (m : Map α) : mfind k (mdel k m) = none := by
  induction m with
  | nil => rfl
  | cons e t ih =>
    obtain ⟨j, v⟩ := e
    by_cases h : j = k <;> simp [mdel, mfind, h, ih]

theorem mfind_mdel_ne {α : Type} {k j : Nat} (h : j ≠ k) (m : Map α) : mfind j (mdel k m) = mfind j m := by
  induction m with
  | nil => rfl
  | cons e t ih =>
    obtain ⟨i, v⟩ := e
    by_cases hk : i = k
    · subst hk
      simp [mdel, mfind, ih, Ne.symm h]
    · simp only [mdel, hk, if_false, mfind, ih]

theorem mfind_mins_same {α : Type} (k : Nat) (v : α) (m : Map α) (h : mfind k m = none) : mfind k (mins k v m) = some v := by
  induction m with
  | nil => simp [mins, mfind]
  | cons e t ih =>
    obtain ⟨j, w⟩ := e
    by_cases hj : j = k
    · simp [mfind, hj] at h
    · have ht : mfind k t = none := by simpa [mfind, hj] using h
      by_cases hlt : k < j <;> simp [mins, mfind, hlt, hj, ih ht]

theorem mfind_mins_ne {α : Type} {k j : Nat} (h : j ≠ k) (v : α) (m : Map α) : mfind j (mins k v m) = mfind j m := by
  induction m with
  | nil => simp [mins, mfind, Ne.symm h]
  | cons e t ih =>
    obtain ⟨i, w⟩ := e
    by_cases hlt : k < i
    · simp [mins, mfind, hlt, Ne.symm h]
    · simp only [mins, hlt, if_false, mfind, ih]

@[simp] theorem mfind_mput_same {α : Type} (m : Map α) (k : Nat) (v : α) : mfind k (mput m k v) = some v :=
  mfind_mins_same k v _ (mfind_mdel_same k m)

theorem mfind_mput_ne {α : Type} {k j : Nat} (h : j ≠ k) (m : Map α) (v : α) : mfind j (mput m k v) = mfind j m := by
  rw [mput, mfind_mins_ne h, mfind_mdel_ne h]

@[simp] theorem mget_mput_same {α : Type} (d : α) (m : Map α) (k : Nat) (v : α) : mget d (mput m k v) k = v := by
  simp [mget]

theorem mget_mput_ne {α : Type} {k j : Nat} (h : j ≠ k) (d : α) (m : Map α) (v : α) : mget d (mput m k v) j = mget d m j := by
  simp [mget, mfind_mput_ne h]

theorem mget_mdel_same {α : Type} (d : α) (k : Nat) (m : Map α) : mget d (mdel k m) k = d := by
  simp [mget, mfind_mdel_same]

theorem mget_mdel_ne {α : Type} {k j : Nat} (h : j ≠ k) (d : α) (m : Map α) : mget d (mdel k m) j = mget d m j := by
  simp [mget, mfind_mdel_ne h]

theorem mem_mdel {α : Type} {k : Nat} {m : Map α} {e : Nat × α} (h : e ∈ mdel k m) : e ∈ m ∧ e.1 ≠ k := by
  induction m with
  | nil => simp [mdel] at h
  | cons a t ih =>
    obtain ⟨j, v⟩ := a
    by_cases hj : j = k
    · simp [mdel, hj] at h
      exact ⟨List.mem_cons_of_mem _ (ih h).1, (ih h).2⟩
    · simp [mdel, hj] at h
      rcases h with h | h
      · subst h
        exact ⟨List.mem_cons_self, hj⟩
      · exact ⟨List.mem_cons_of_mem _ (ih h).1, (ih h).2⟩

theorem mem_mins {α : Type} {k : Nat} {v : α} {m : Map α} {e : Nat × α} (h : e ∈ mins k v m) : e = (k, v) ∨ e ∈ m := by
  induction m with
  | nil => simpa [mins] using h
  | cons a t ih =>
    obtain ⟨j, w⟩ := a
    by_cases hlt : k < j
    · simpa [mins, hlt] using h
    · simp [mins, hlt] at h
      rcases h with h | h
      · exact .inr (h ▸ List.mem_cons_self)
      · rcases ih h with h | h
        · exact .inl h
        · exact .inr (List.mem_cons_of_mem _ h)

/-- What an update of a keyed list holds: the new entry, or an old one under another key. -/
theorem mem_mput {α : Type} {m : Map α} {k : Nat} {v : α} {e : Nat × α} (h : e ∈ mput m k v) : e = (k, v) ∨ (e ∈ m ∧ e.1 ≠ k) :=
  (mem_mins h).imp_right mem_mdel

theorem mem_of_mfind {α : Type} {k : Nat} {m : Map α} {v : α} (h : mfind k m = some v) : (k, v) ∈ m := by
  induction m with
  | nil => simp [mfind] at h
  | cons a t ih =>
    obtain ⟨j, w⟩ := a
    by_cases hj : j = k
    · simp [mfind, hj] at h
      subst hj
      simp [h]
    · simp [mfind, hj] at h
      exact List.mem_cons_of_mem _ (ih h)

/-- A property of every entry, and of the default, holds of what a look-up gives. -/
theorem mget_of_all {α : Type} {P : α → Prop} {d : α} {m : Map α} (hd : P d) (hm : ∀ e ∈ m, P e.2) (k : Nat) : P (mget d m k) := by
  unfold mget
  cases h : mfind k m with
  | none => exact hd
  | some v => exact hm _ (mem_of_mfind h)

/-- A property of every entry is kept by an update whose new entry has it. -/
theorem all_mput {α : Type} {P : α → Prop} {m : Map α} {k : Nat} {v : α} (hm : ∀ e ∈ m, P e.2) (hv : P v) : ∀ e ∈ mput m k v, P e.2 := by
  intro e he
  rcases mem_mput he with h | h
  · exact h ▸ hv
  · exact hm e h.1

theorem mdel_of_absent {α : Type} {k : Nat} {m : Map α} (h : mfind k m = none) : mdel k m = m := by
  induction m with
  | nil => rfl
  | cons e t ih =>
    obtain ⟨j, v⟩ := e
    by_cases hj : j = k
    · simp [mfind, hj] at h
    · have ht : mfind k t = none := by simpa [mfind, hj] using h
      simp [mdel, hj, ih ht]

theorem mdel_mins {α : Type} {k : Nat} {v : α} {m : Map α} (h : mfind k m = none) : mdel k (mins k v m) = m := by
  induction m with
  | nil => simp [mins, mdel]
  | cons e t ih =>
    obtain ⟨j, w⟩ := e
    by_cases hj : j = k
    · simp [mfind, hj] at h
    · have ht : mfind k t = none := by simpa [mfind, hj] using h
      by_cases hlt : k < j
      · simp [mins, hlt, mdel, hj, mdel_of_absent ht]
      · simp [mins, hlt, mdel, hj, ih ht]

/-- The second update of one key wins. -/
@[simp] theorem mput_mput {α : Type} (m : Map α) (k : Nat) (a b : α) : mput (mput m k a) k b = mput m k b := by
  simp only [mput, mdel_mins (mfind_mdel_same k m)]

/-! Bytes of a store. -/

theorem readByte_writeByte_same (m : List Host.Cell) (a : Nat) (b : Byte) : readByte (writeByte m a b) a = b := by
  unfold readByte writeByte
  by_cases h : b = 0
  · rw [if_pos h, mget_mdel_same, h]
  · rw [if_neg h, mget_mput_same]

theorem readByte_writeByte_ne {a c : Nat} (h : c ≠ a) (m : List Host.Cell) (b : Byte) : readByte (writeByte m a b) c = readByte m c := by
  unfold readByte writeByte
  by_cases hb : b = 0
  · rw [if_pos hb, mget_mdel_ne h]
  · rw [if_neg hb, mget_mput_ne h]

/-- A write of bytes from a upward leaves every byte outside them as it was. -/
theorem readByte_writeBytes_outside (l : List Byte) : ∀ (m : List Host.Cell) (a c : Nat), (c < a ∨ a + l.length ≤ c) →
    readByte (writeBytes m a l) c = readByte m c := by
  induction l with
  | nil => intros; rfl
  | cons b t ih =>
    intro m a c h
    rw [List.length_cons] at h
    rw [writeBytes, ih _ _ _ (by omega), readByte_writeByte_ne (by omega)]

/-- A write of bytes from a upward puts byte k at a + k. -/
theorem readByte_writeBytes_inside (l : List Byte) : ∀ (m : List Host.Cell) (a k : Nat) (h : k < l.length),
    readByte (writeBytes m a l) (a + k) = l[k] := by
  induction l with
  | nil => intro m a k h; simp at h
  | cons b t ih =>
    intro m a k h
    cases k with
    | zero =>
      rw [writeBytes, readByte_writeBytes_outside _ _ _ _ (by omega)]
      exact readByte_writeByte_same m a b
    | succ n =>
      have e : a + (n + 1) = (a + 1) + n := by omega
      have hn : n < t.length := by simpa using h
      rw [writeBytes, e, ih (writeByte m a b) (a + 1) n hn]
      rfl

/-! The canonical form. -/

/-- The canonical form as a statement. -/
theorem cellsWf_cons {a : Nat} {b : Byte} {t : List Host.Cell} :
    cellsWf ((a, b) :: t) = true ↔ b ≠ 0 ∧ (∀ c ∈ t, a < c.1) ∧ cellsWf t = true := by
  simp [cellsWf, and_assoc]

theorem cellsWf_mdel (a : Nat) (m : List Host.Cell) (h : cellsWf m = true) : cellsWf (mdel a m) = true := by
  induction m with
  | nil => exact h
  | cons e t ih =>
    obtain ⟨j, v⟩ := e
    obtain ⟨h1, h2, h3⟩ := cellsWf_cons.1 h
    by_cases hj : j = a
    · simpa [mdel, hj] using ih h3
    · simp only [mdel, hj, if_false]
      exact cellsWf_cons.2 ⟨h1, fun c hc => h2 c (mem_mdel hc).1, ih h3⟩

theorem cellsWf_mins (a : Nat) (b : Byte) (hb : b ≠ 0) (m : List Host.Cell) (hn : ∀ c ∈ m, c.1 ≠ a) (h : cellsWf m = true) :
    cellsWf (mins a b m) = true := by
  induction m with
  | nil => simpa [mins, cellsWf] using hb
  | cons e t ih =>
    obtain ⟨j, v⟩ := e
    obtain ⟨h1, h2, h3⟩ := cellsWf_cons.1 h
    by_cases hlt : a < j
    · simp only [mins, hlt, if_true]
      refine cellsWf_cons.2 ⟨hb, fun c hc => ?_, h⟩
      rcases List.mem_cons.1 hc with hc | hc
      · exact hc ▸ hlt
      · exact Nat.lt_trans hlt (h2 c hc)
    · simp only [mins, hlt, if_false]
      have hj : j ≠ a := hn (j, v) List.mem_cons_self
      refine cellsWf_cons.2 ⟨h1, fun c hc => ?_, ih (fun c hc => hn c (List.mem_cons_of_mem _ hc)) h3⟩
      rcases mem_mins hc with hc | hc
      · subst hc
        show j < a
        omega
      · exact h2 c hc

theorem cellsWf_writeByte (m : List Host.Cell) (a : Nat) (b : Byte) (h : cellsWf m = true) : cellsWf (writeByte m a b) = true := by
  unfold writeByte
  by_cases hb : b = 0
  · rw [if_pos hb]
    exact cellsWf_mdel a m h
  · rw [if_neg hb]
    exact cellsWf_mins a b hb _ (fun c hc => (mem_mdel hc).2) (cellsWf_mdel a m h)

theorem cellsWf_writeBytes (l : List Byte) : ∀ (m : List Host.Cell) (a : Nat), cellsWf m = true → cellsWf (writeBytes m a l) = true := by
  induction l with
  | nil => intro m a h; exact h
  | cons b t ih => intro m a h; exact ih _ _ (cellsWf_writeByte m a b h)

theorem cellsWf_filter (p : Host.Cell → Bool) (m : List Host.Cell) (h : cellsWf m = true) : cellsWf (m.filter p) = true := by
  induction m with
  | nil => exact h
  | cons e t ih =>
    obtain ⟨j, v⟩ := e
    obtain ⟨h1, h2, h3⟩ := cellsWf_cons.1 h
    by_cases hp : p (j, v) = true
    · rw [List.filter_cons_of_pos hp]
      exact cellsWf_cons.2 ⟨h1, fun c hc => h2 c (List.mem_filter.1 hc).1, ih h3⟩
    · rw [List.filter_cons_of_neg hp]
      exact ih h3

@[simp] theorem Store.wf_empty : Store.empty.wf = true := rfl

theorem Store.wf_writeList (s : Store) (a : Nat) (l : List Byte) (h : s.wf = true) : (s.writeList a l).wf = true :=
  cellsWf_writeBytes l _ _ h

theorem Store.wf_write (s : Store) (a n v : Nat) (h : s.wf = true) : (s.write a n v).wf = true := s.wf_writeList a _ h

@[simp] theorem Store.wf_addPoison (s : Store) (a n : Nat) : (s.addPoison a n).wf = s.wf := rfl

@[simp] theorem Store.bytes_addPoison (s : Store) (a n : Nat) : (s.addPoison a n).bytes = s.bytes := rfl

/-! Values in little-endian order (R5). -/

@[simp] theorem length_toBytes (v n : Nat) : (toBytes v n).length = n := by
  induction n generalizing v with
  | zero => rfl
  | succ n ih => simp [toBytes, ih]

theorem ofBytes_toBytes (n : Nat) : ∀ v : Nat, ofBytes (toBytes v n) = v % 256 ^ n := by
  induction n with
  | zero => intro v; simp [toBytes, ofBytes, Nat.mod_one]
  | succ n ih =>
    intro v
    have h := Nat.mod_mul (x := v) (a := 256) (b := 256 ^ n)
    rw [Nat.pow_succ, Nat.mul_comm (256 ^ n) 256, h, toBytes, ofBytes, ih]
    rfl

theorem readBytes_writeBytes (m : List Host.Cell) (a : Nat) (l : List Byte) : readBytes (writeBytes m a l) a l.length = l := by
  refine List.ext_getElem (by simp [readBytes]) ?_
  intro k h1 h2
  simp only [readBytes, List.getElem_map, List.getElem_range]
  exact readByte_writeBytes_inside l m a k h2

/-- Reading what was written gives its low bytes. -/
theorem Store.read_write (s : Store) (a n v : Nat) : (s.write a n v).read a n = v % 256 ^ n := by
  have h := readBytes_writeBytes s.bytes a (toBytes v n)
  rw [length_toBytes] at h
  simp only [Store.read, Store.write, Store.writeList, h, ofBytes_toBytes]

/-- A byte outside a write reads as before. -/
theorem Store.read_write_outside (s : Store) (a n v c : Nat) (h : c < a ∨ a + n ≤ c) : (s.write a n v).read c 1 = s.read c 1 := by
  have h' := readByte_writeBytes_outside (toBytes v n) s.bytes a c (by rw [length_toBytes]; exact h)
  simp only [Store.read, Store.write, Store.writeList, readBytes, List.range_one, List.map_cons, List.map_nil, Nat.add_zero, h']

end Sys2Proof.Machine
end

