-- ==== Sys2Proof/Laws/State.lean ====
section
/-! SUPPORT. What each update of the state changes and what it leaves: one lemma per field and update, and the reads after the writes of R13. -/

namespace Sys2Proof.Machine

/-! What each update leaves of the state's own fields. -/

@[simp] theorem State.dies_modTile (s : State) (t : Nat) (f : Tile → Tile) : (s.modTile t f).dies = s.dies := rfl
@[simp] theorem State.links_modTile (s : State) (t : Nat) (f : Tile → Tile) : (s.modTile t f).links = s.links := rfl
@[simp] theorem State.parts_modTile (s : State) (t : Nat) (f : Tile → Tile) : (s.modTile t f).parts = s.parts := rfl
@[simp] theorem State.launches_modTile (s : State) (t : Nat) (f : Tile → Tile) : (s.modTile t f).launches = s.launches := rfl
@[simp] theorem State.nextLid_modTile (s : State) (t : Nat) (f : Tile → Tile) : (s.modTile t f).nextLid = s.nextLid := rfl
@[simp] theorem State.dev_modTile (s : State) (t : Nat) (f : Tile → Tile) : (s.modTile t f).dev = s.dev := rfl
@[simp] theorem State.host_modTile (s : State) (t : Nat) (f : Tile → Tile) : (s.modTile t f).host = s.host := rfl
@[simp] theorem State.pubs_modTile (s : State) (t : Nat) (f : Tile → Tile) : (s.modTile t f).pubs = s.pubs := rfl
@[simp] theorem State.arrivals_modTile (s : State) (t : Nat) (f : Tile → Tile) : (s.modTile t f).arrivals = s.arrivals := rfl
@[simp] theorem State.releases_modTile (s : State) (t : Nat) (f : Tile → Tile) : (s.modTile t f).releases = s.releases := rfl
@[simp] theorem State.cancels_modTile (s : State) (t : Nat) (f : Tile → Tile) : (s.modTile t f).cancels = s.cancels := rfl
@[simp] theorem State.nextCancel_modTile (s : State) (t : Nat) (f : Tile → Tile) : (s.modTile t f).nextCancel = s.nextCancel := rfl
@[simp] theorem State.clasp_modTile (s : State) (t : Nat) (f : Tile → Tile) : (s.modTile t f).clasp = s.clasp := rfl
@[simp] theorem State.foldCycle_modTile (s : State) (t : Nat) (f : Tile → Tile) : (s.modTile t f).foldCycle = s.foldCycle := rfl
@[simp] theorem State.foldLclk_modTile (s : State) (t : Nat) (f : Tile → Tile) : (s.modTile t f).foldLclk = s.foldLclk := rfl
@[simp] theorem State.powered_modTile (s : State) (t : Nat) (f : Tile → Tile) : (s.modTile t f).powered = s.powered := rfl
@[simp] theorem State.agenda_modTile (s : State) (t : Nat) (f : Tile → Tile) : (s.modTile t f).agenda = s.agenda := rfl
@[simp] theorem State.cur_modTile (s : State) (t : Nat) (f : Tile → Tile) : (s.modTile t f).cur = s.cur := rfl
@[simp] theorem State.free_modTile (s : State) (t : Nat) (f : Tile → Tile) : (s.modTile t f).free = s.free := rfl
@[simp] theorem State.dies_modCtx (s : State) (t c : Nat) (f : Ctx → Ctx) : (s.modCtx t c f).dies = s.dies := rfl
@[simp] theorem State.links_modCtx (s : State) (t c : Nat) (f : Ctx → Ctx) : (s.modCtx t c f).links = s.links := rfl
@[simp] theorem State.parts_modCtx (s : State) (t c : Nat) (f : Ctx → Ctx) : (s.modCtx t c f).parts = s.parts := rfl
@[simp] theorem State.launches_modCtx (s : State) (t c : Nat) (f : Ctx → Ctx) : (s.modCtx t c f).launches = s.launches := rfl
@[simp] theorem State.nextLid_modCtx (s : State) (t c : Nat) (f : Ctx → Ctx) : (s.modCtx t c f).nextLid = s.nextLid := rfl
@[simp] theorem State.dev_modCtx (s : State) (t c : Nat) (f : Ctx → Ctx) : (s.modCtx t c f).dev = s.dev := rfl
@[simp] theorem State.host_modCtx (s : State) (t c : Nat) (f : Ctx → Ctx) : (s.modCtx t c f).host = s.host := rfl
@[simp] theorem State.pubs_modCtx (s : State) (t c : Nat) (f : Ctx → Ctx) : (s.modCtx t c f).pubs = s.pubs := rfl
@[simp] theorem State.arrivals_modCtx (s : State) (t c : Nat) (f : Ctx → Ctx) : (s.modCtx t c f).arrivals = s.arrivals := rfl
@[simp] theorem State.releases_modCtx (s : State) (t c : Nat) (f : Ctx → Ctx) : (s.modCtx t c f).releases = s.releases := rfl
@[simp] theorem State.cancels_modCtx (s : State) (t c : Nat) (f : Ctx → Ctx) : (s.modCtx t c f).cancels = s.cancels := rfl
@[simp] theorem State.nextCancel_modCtx (s : State) (t c : Nat) (f : Ctx → Ctx) : (s.modCtx t c f).nextCancel = s.nextCancel := rfl
@[simp] theorem State.clasp_modCtx (s : State) (t c : Nat) (f : Ctx → Ctx) : (s.modCtx t c f).clasp = s.clasp := rfl
@[simp] theorem State.foldCycle_modCtx (s : State) (t c : Nat) (f : Ctx → Ctx) : (s.modCtx t c f).foldCycle = s.foldCycle := rfl
@[simp] theorem State.foldLclk_modCtx (s : State) (t c : Nat) (f : Ctx → Ctx) : (s.modCtx t c f).foldLclk = s.foldLclk := rfl
@[simp] theorem State.powered_modCtx (s : State) (t c : Nat) (f : Ctx → Ctx) : (s.modCtx t c f).powered = s.powered := rfl
@[simp] theorem State.agenda_modCtx (s : State) (t c : Nat) (f : Ctx → Ctx) : (s.modCtx t c f).agenda = s.agenda := rfl
@[simp] theorem State.cur_modCtx (s : State) (t c : Nat) (f : Ctx → Ctx) : (s.modCtx t c f).cur = s.cur := rfl
@[simp] theorem State.free_modCtx (s : State) (t c : Nat) (f : Ctx → Ctx) : (s.modCtx t c f).free = s.free := rfl
@[simp] theorem State.dies_modMe (s : State) (f : Ctx → Ctx) : (s.modMe f).dies = s.dies := rfl
@[simp] theorem State.links_modMe (s : State) (f : Ctx → Ctx) : (s.modMe f).links = s.links := rfl
@[simp] theorem State.parts_modMe (s : State) (f : Ctx → Ctx) : (s.modMe f).parts = s.parts := rfl
@[simp] theorem State.launches_modMe (s : State) (f : Ctx → Ctx) : (s.modMe f).launches = s.launches := rfl
@[simp] theorem State.nextLid_modMe (s : State) (f : Ctx → Ctx) : (s.modMe f).nextLid = s.nextLid := rfl
@[simp] theorem State.dev_modMe (s : State) (f : Ctx → Ctx) : (s.modMe f).dev = s.dev := rfl
@[simp] theorem State.host_modMe (s : State) (f : Ctx → Ctx) : (s.modMe f).host = s.host := rfl
@[simp] theorem State.pubs_modMe (s : State) (f : Ctx → Ctx) : (s.modMe f).pubs = s.pubs := rfl
@[simp] theorem State.arrivals_modMe (s : State) (f : Ctx → Ctx) : (s.modMe f).arrivals = s.arrivals := rfl
@[simp] theorem State.releases_modMe (s : State) (f : Ctx → Ctx) : (s.modMe f).releases = s.releases := rfl
@[simp] theorem State.cancels_modMe (s : State) (f : Ctx → Ctx) : (s.modMe f).cancels = s.cancels := rfl
@[simp] theorem State.nextCancel_modMe (s : State) (f : Ctx → Ctx) : (s.modMe f).nextCancel = s.nextCancel := rfl
@[simp] theorem State.clasp_modMe (s : State) (f : Ctx → Ctx) : (s.modMe f).clasp = s.clasp := rfl
@[simp] theorem State.foldCycle_modMe (s : State) (f : Ctx → Ctx) : (s.modMe f).foldCycle = s.foldCycle := rfl
@[simp] theorem State.foldLclk_modMe (s : State) (f : Ctx → Ctx) : (s.modMe f).foldLclk = s.foldLclk := rfl
@[simp] theorem State.powered_modMe (s : State) (f : Ctx → Ctx) : (s.modMe f).powered = s.powered := rfl
@[simp] theorem State.agenda_modMe (s : State) (f : Ctx → Ctx) : (s.modMe f).agenda = s.agenda := rfl
@[simp] theorem State.cur_modMe (s : State) (f : Ctx → Ctx) : (s.modMe f).cur = s.cur := rfl
@[simp] theorem State.free_modMe (s : State) (f : Ctx → Ctx) : (s.modMe f).free = s.free := rfl
@[simp] theorem State.dies_modMyTile (s : State) (f : Tile → Tile) : (s.modMyTile f).dies = s.dies := rfl
@[simp] theorem State.links_modMyTile (s : State) (f : Tile → Tile) : (s.modMyTile f).links = s.links := rfl
@[simp] theorem State.parts_modMyTile (s : State) (f : Tile → Tile) : (s.modMyTile f).parts = s.parts := rfl
@[simp] theorem State.launches_modMyTile (s : State) (f : Tile → Tile) : (s.modMyTile f).launches = s.launches := rfl
@[simp] theorem State.nextLid_modMyTile (s : State) (f : Tile → Tile) : (s.modMyTile f).nextLid = s.nextLid := rfl
@[simp] theorem State.dev_modMyTile (s : State) (f : Tile → Tile) : (s.modMyTile f).dev = s.dev := rfl
@[simp] theorem State.host_modMyTile (s : State) (f : Tile → Tile) : (s.modMyTile f).host = s.host := rfl
@[simp] theorem State.pubs_modMyTile (s : State) (f : Tile → Tile) : (s.modMyTile f).pubs = s.pubs := rfl
@[simp] theorem State.arrivals_modMyTile (s : State) (f : Tile → Tile) : (s.modMyTile f).arrivals = s.arrivals := rfl
@[simp] theorem State.releases_modMyTile (s : State) (f : Tile → Tile) : (s.modMyTile f).releases = s.releases := rfl
@[simp] theorem State.cancels_modMyTile (s : State) (f : Tile → Tile) : (s.modMyTile f).cancels = s.cancels := rfl
@[simp] theorem State.nextCancel_modMyTile (s : State) (f : Tile → Tile) : (s.modMyTile f).nextCancel = s.nextCancel := rfl
@[simp] theorem State.clasp_modMyTile (s : State) (f : Tile → Tile) : (s.modMyTile f).clasp = s.clasp := rfl
@[simp] theorem State.foldCycle_modMyTile (s : State) (f : Tile → Tile) : (s.modMyTile f).foldCycle = s.foldCycle := rfl
@[simp] theorem State.foldLclk_modMyTile (s : State) (f : Tile → Tile) : (s.modMyTile f).foldLclk = s.foldLclk := rfl
@[simp] theorem State.powered_modMyTile (s : State) (f : Tile → Tile) : (s.modMyTile f).powered = s.powered := rfl
@[simp] theorem State.agenda_modMyTile (s : State) (f : Tile → Tile) : (s.modMyTile f).agenda = s.agenda := rfl
@[simp] theorem State.cur_modMyTile (s : State) (f : Tile → Tile) : (s.modMyTile f).cur = s.cur := rfl
@[simp] theorem State.free_modMyTile (s : State) (f : Tile → Tile) : (s.modMyTile f).free = s.free := rfl
@[simp] theorem State.dies_setX (s : State) (r : Nat) (v : Word) : (s.setX r v).dies = s.dies := rfl
@[simp] theorem State.links_setX (s : State) (r : Nat) (v : Word) : (s.setX r v).links = s.links := rfl
@[simp] theorem State.parts_setX (s : State) (r : Nat) (v : Word) : (s.setX r v).parts = s.parts := rfl
@[simp] theorem State.launches_setX (s : State) (r : Nat) (v : Word) : (s.setX r v).launches = s.launches := rfl
@[simp] theorem State.nextLid_setX (s : State) (r : Nat) (v : Word) : (s.setX r v).nextLid = s.nextLid := rfl
@[simp] theorem State.dev_setX (s : State) (r : Nat) (v : Word) : (s.setX r v).dev = s.dev := rfl
@[simp] theorem State.host_setX (s : State) (r : Nat) (v : Word) : (s.setX r v).host = s.host := rfl
@[simp] theorem State.pubs_setX (s : State) (r : Nat) (v : Word) : (s.setX r v).pubs = s.pubs := rfl
@[simp] theorem State.arrivals_setX (s : State) (r : Nat) (v : Word) : (s.setX r v).arrivals = s.arrivals := rfl
@[simp] theorem State.releases_setX (s : State) (r : Nat) (v : Word) : (s.setX r v).releases = s.releases := rfl
@[simp] theorem State.cancels_setX (s : State) (r : Nat) (v : Word) : (s.setX r v).cancels = s.cancels := rfl
@[simp] theorem State.nextCancel_setX (s : State) (r : Nat) (v : Word) : (s.setX r v).nextCancel = s.nextCancel := rfl
@[simp] theorem State.clasp_setX (s : State) (r : Nat) (v : Word) : (s.setX r v).clasp = s.clasp := rfl
@[simp] theorem State.foldCycle_setX (s : State) (r : Nat) (v : Word) : (s.setX r v).foldCycle = s.foldCycle := rfl
@[simp] theorem State.foldLclk_setX (s : State) (r : Nat) (v : Word) : (s.setX r v).foldLclk = s.foldLclk := rfl
@[simp] theorem State.powered_setX (s : State) (r : Nat) (v : Word) : (s.setX r v).powered = s.powered := rfl
@[simp] theorem State.agenda_setX (s : State) (r : Nat) (v : Word) : (s.setX r v).agenda = s.agenda := rfl
@[simp] theorem State.cur_setX (s : State) (r : Nat) (v : Word) : (s.setX r v).cur = s.cur := rfl
@[simp] theorem State.free_setX (s : State) (r : Nat) (v : Word) : (s.setX r v).free = s.free := rfl
@[simp] theorem State.dies_setF (s : State) (r : Nat) (v : Word) : (s.setF r v).dies = s.dies := rfl
@[simp] theorem State.links_setF (s : State) (r : Nat) (v : Word) : (s.setF r v).links = s.links := rfl
@[simp] theorem State.parts_setF (s : State) (r : Nat) (v : Word) : (s.setF r v).parts = s.parts := rfl
@[simp] theorem State.launches_setF (s : State) (r : Nat) (v : Word) : (s.setF r v).launches = s.launches := rfl
@[simp] theorem State.nextLid_setF (s : State) (r : Nat) (v : Word) : (s.setF r v).nextLid = s.nextLid := rfl
@[simp] theorem State.dev_setF (s : State) (r : Nat) (v : Word) : (s.setF r v).dev = s.dev := rfl
@[simp] theorem State.host_setF (s : State) (r : Nat) (v : Word) : (s.setF r v).host = s.host := rfl
@[simp] theorem State.pubs_setF (s : State) (r : Nat) (v : Word) : (s.setF r v).pubs = s.pubs := rfl
@[simp] theorem State.arrivals_setF (s : State) (r : Nat) (v : Word) : (s.setF r v).arrivals = s.arrivals := rfl
@[simp] theorem State.releases_setF (s : State) (r : Nat) (v : Word) : (s.setF r v).releases = s.releases := rfl
@[simp] theorem State.cancels_setF (s : State) (r : Nat) (v : Word) : (s.setF r v).cancels = s.cancels := rfl
@[simp] theorem State.nextCancel_setF (s : State) (r : Nat) (v : Word) : (s.setF r v).nextCancel = s.nextCancel := rfl
@[simp] theorem State.clasp_setF (s : State) (r : Nat) (v : Word) : (s.setF r v).clasp = s.clasp := rfl
@[simp] theorem State.foldCycle_setF (s : State) (r : Nat) (v : Word) : (s.setF r v).foldCycle = s.foldCycle := rfl
@[simp] theorem State.foldLclk_setF (s : State) (r : Nat) (v : Word) : (s.setF r v).foldLclk = s.foldLclk := rfl
@[simp] theorem State.powered_setF (s : State) (r : Nat) (v : Word) : (s.setF r v).powered = s.powered := rfl
@[simp] theorem State.agenda_setF (s : State) (r : Nat) (v : Word) : (s.setF r v).agenda = s.agenda := rfl
@[simp] theorem State.cur_setF (s : State) (r : Nat) (v : Word) : (s.setF r v).cur = s.cur := rfl
@[simp] theorem State.free_setF (s : State) (r : Nat) (v : Word) : (s.setF r v).free = s.free := rfl
@[simp] theorem State.dies_setB (s : State) (r : Nat) (v : Bool) : (s.setB r v).dies = s.dies := rfl
@[simp] theorem State.links_setB (s : State) (r : Nat) (v : Bool) : (s.setB r v).links = s.links := rfl
@[simp] theorem State.parts_setB (s : State) (r : Nat) (v : Bool) : (s.setB r v).parts = s.parts := rfl
@[simp] theorem State.launches_setB (s : State) (r : Nat) (v : Bool) : (s.setB r v).launches = s.launches := rfl
@[simp] theorem State.nextLid_setB (s : State) (r : Nat) (v : Bool) : (s.setB r v).nextLid = s.nextLid := rfl
@[simp] theorem State.dev_setB (s : State) (r : Nat) (v : Bool) : (s.setB r v).dev = s.dev := rfl
@[simp] theorem State.host_setB (s : State) (r : Nat) (v : Bool) : (s.setB r v).host = s.host := rfl
@[simp] theorem State.pubs_setB (s : State) (r : Nat) (v : Bool) : (s.setB r v).pubs = s.pubs := rfl
@[simp] theorem State.arrivals_setB (s : State) (r : Nat) (v : Bool) : (s.setB r v).arrivals = s.arrivals := rfl
@[simp] theorem State.releases_setB (s : State) (r : Nat) (v : Bool) : (s.setB r v).releases = s.releases := rfl
@[simp] theorem State.cancels_setB (s : State) (r : Nat) (v : Bool) : (s.setB r v).cancels = s.cancels := rfl
@[simp] theorem State.nextCancel_setB (s : State) (r : Nat) (v : Bool) : (s.setB r v).nextCancel = s.nextCancel := rfl
@[simp] theorem State.clasp_setB (s : State) (r : Nat) (v : Bool) : (s.setB r v).clasp = s.clasp := rfl
@[simp] theorem State.foldCycle_setB (s : State) (r : Nat) (v : Bool) : (s.setB r v).foldCycle = s.foldCycle := rfl
@[simp] theorem State.foldLclk_setB (s : State) (r : Nat) (v : Bool) : (s.setB r v).foldLclk = s.foldLclk := rfl
@[simp] theorem State.powered_setB (s : State) (r : Nat) (v : Bool) : (s.setB r v).powered = s.powered := rfl
@[simp] theorem State.agenda_setB (s : State) (r : Nat) (v : Bool) : (s.setB r v).agenda = s.agenda := rfl
@[simp] theorem State.cur_setB (s : State) (r : Nat) (v : Bool) : (s.setB r v).cur = s.cur := rfl
@[simp] theorem State.free_setB (s : State) (r : Nat) (v : Bool) : (s.setB r v).free = s.free := rfl
@[simp] theorem State.dies_setP (s : State) (r : Nat) (v : BitVec 256) : (s.setP r v).dies = s.dies := rfl
@[simp] theorem State.links_setP (s : State) (r : Nat) (v : BitVec 256) : (s.setP r v).links = s.links := rfl
@[simp] theorem State.parts_setP (s : State) (r : Nat) (v : BitVec 256) : (s.setP r v).parts = s.parts := rfl
@[simp] theorem State.launches_setP (s : State) (r : Nat) (v : BitVec 256) : (s.setP r v).launches = s.launches := rfl
@[simp] theorem State.nextLid_setP (s : State) (r : Nat) (v : BitVec 256) : (s.setP r v).nextLid = s.nextLid := rfl
@[simp] theorem State.dev_setP (s : State) (r : Nat) (v : BitVec 256) : (s.setP r v).dev = s.dev := rfl
@[simp] theorem State.host_setP (s : State) (r : Nat) (v : BitVec 256) : (s.setP r v).host = s.host := rfl
@[simp] theorem State.pubs_setP (s : State) (r : Nat) (v : BitVec 256) : (s.setP r v).pubs = s.pubs := rfl
@[simp] theorem State.arrivals_setP (s : State) (r : Nat) (v : BitVec 256) : (s.setP r v).arrivals = s.arrivals := rfl
@[simp] theorem State.releases_setP (s : State) (r : Nat) (v : BitVec 256) : (s.setP r v).releases = s.releases := rfl
@[simp] theorem State.cancels_setP (s : State) (r : Nat) (v : BitVec 256) : (s.setP r v).cancels = s.cancels := rfl
@[simp] theorem State.nextCancel_setP (s : State) (r : Nat) (v : BitVec 256) : (s.setP r v).nextCancel = s.nextCancel := rfl
@[simp] theorem State.clasp_setP (s : State) (r : Nat) (v : BitVec 256) : (s.setP r v).clasp = s.clasp := rfl
@[simp] theorem State.foldCycle_setP (s : State) (r : Nat) (v : BitVec 256) : (s.setP r v).foldCycle = s.foldCycle := rfl
@[simp] theorem State.foldLclk_setP (s : State) (r : Nat) (v : BitVec 256) : (s.setP r v).foldLclk = s.foldLclk := rfl
@[simp] theorem State.powered_setP (s : State) (r : Nat) (v : BitVec 256) : (s.setP r v).powered = s.powered := rfl
@[simp] theorem State.agenda_setP (s : State) (r : Nat) (v : BitVec 256) : (s.setP r v).agenda = s.agenda := rfl
@[simp] theorem State.cur_setP (s : State) (r : Nat) (v : BitVec 256) : (s.setP r v).cur = s.cur := rfl
@[simp] theorem State.free_setP (s : State) (r : Nat) (v : BitVec 256) : (s.setP r v).free = s.free := rfl
@[simp] theorem State.dies_setPc (s : State) (v : Word) : (s.setPc v).dies = s.dies := rfl
@[simp] theorem State.links_setPc (s : State) (v : Word) : (s.setPc v).links = s.links := rfl
@[simp] theorem State.parts_setPc (s : State) (v : Word) : (s.setPc v).parts = s.parts := rfl
@[simp] theorem State.launches_setPc (s : State) (v : Word) : (s.setPc v).launches = s.launches := rfl
@[simp] theorem State.nextLid_setPc (s : State) (v : Word) : (s.setPc v).nextLid = s.nextLid := rfl
@[simp] theorem State.dev_setPc (s : State) (v : Word) : (s.setPc v).dev = s.dev := rfl
@[simp] theorem State.host_setPc (s : State) (v : Word) : (s.setPc v).host = s.host := rfl
@[simp] theorem State.pubs_setPc (s : State) (v : Word) : (s.setPc v).pubs = s.pubs := rfl
@[simp] theorem State.arrivals_setPc (s : State) (v : Word) : (s.setPc v).arrivals = s.arrivals := rfl
@[simp] theorem State.releases_setPc (s : State) (v : Word) : (s.setPc v).releases = s.releases := rfl
@[simp] theorem State.cancels_setPc (s : State) (v : Word) : (s.setPc v).cancels = s.cancels := rfl
@[simp] theorem State.nextCancel_setPc (s : State) (v : Word) : (s.setPc v).nextCancel = s.nextCancel := rfl
@[simp] theorem State.clasp_setPc (s : State) (v : Word) : (s.setPc v).clasp = s.clasp := rfl
@[simp] theorem State.foldCycle_setPc (s : State) (v : Word) : (s.setPc v).foldCycle = s.foldCycle := rfl
@[simp] theorem State.foldLclk_setPc (s : State) (v : Word) : (s.setPc v).foldLclk = s.foldLclk := rfl
@[simp] theorem State.powered_setPc (s : State) (v : Word) : (s.setPc v).powered = s.powered := rfl
@[simp] theorem State.agenda_setPc (s : State) (v : Word) : (s.setPc v).agenda = s.agenda := rfl
@[simp] theorem State.cur_setPc (s : State) (v : Word) : (s.setPc v).cur = s.cur := rfl
@[simp] theorem State.free_setPc (s : State) (v : Word) : (s.setPc v).free = s.free := rfl
@[simp] theorem State.dies_advance (s : State) : (s.advance).dies = s.dies := rfl
@[simp] theorem State.links_advance (s : State) : (s.advance).links = s.links := rfl
@[simp] theorem State.parts_advance (s : State) : (s.advance).parts = s.parts := rfl
@[simp] theorem State.launches_advance (s : State) : (s.advance).launches = s.launches := rfl
@[simp] theorem State.nextLid_advance (s : State) : (s.advance).nextLid = s.nextLid := rfl
@[simp] theorem State.dev_advance (s : State) : (s.advance).dev = s.dev := rfl
@[simp] theorem State.host_advance (s : State) : (s.advance).host = s.host := rfl
@[simp] theorem State.pubs_advance (s : State) : (s.advance).pubs = s.pubs := rfl
@[simp] theorem State.arrivals_advance (s : State) : (s.advance).arrivals = s.arrivals := rfl
@[simp] theorem State.releases_advance (s : State) : (s.advance).releases = s.releases := rfl
@[simp] theorem State.cancels_advance (s : State) : (s.advance).cancels = s.cancels := rfl
@[simp] theorem State.nextCancel_advance (s : State) : (s.advance).nextCancel = s.nextCancel := rfl
@[simp] theorem State.clasp_advance (s : State) : (s.advance).clasp = s.clasp := rfl
@[simp] theorem State.foldCycle_advance (s : State) : (s.advance).foldCycle = s.foldCycle := rfl
@[simp] theorem State.foldLclk_advance (s : State) : (s.advance).foldLclk = s.foldLclk := rfl
@[simp] theorem State.powered_advance (s : State) : (s.advance).powered = s.powered := rfl
@[simp] theorem State.agenda_advance (s : State) : (s.advance).agenda = s.agenda := rfl
@[simp] theorem State.cur_advance (s : State) : (s.advance).cur = s.cur := rfl
@[simp] theorem State.free_advance (s : State) : (s.advance).free = s.free := rfl
@[simp] theorem State.dies_advanceBy (s : State) (n : Nat) : (s.advanceBy n).dies = s.dies := rfl
@[simp] theorem State.links_advanceBy (s : State) (n : Nat) : (s.advanceBy n).links = s.links := rfl
@[simp] theorem State.parts_advanceBy (s : State) (n : Nat) : (s.advanceBy n).parts = s.parts := rfl
@[simp] theorem State.launches_advanceBy (s : State) (n : Nat) : (s.advanceBy n).launches = s.launches := rfl
@[simp] theorem State.nextLid_advanceBy (s : State) (n : Nat) : (s.advanceBy n).nextLid = s.nextLid := rfl
@[simp] theorem State.dev_advanceBy (s : State) (n : Nat) : (s.advanceBy n).dev = s.dev := rfl
@[simp] theorem State.host_advanceBy (s : State) (n : Nat) : (s.advanceBy n).host = s.host := rfl
@[simp] theorem State.pubs_advanceBy (s : State) (n : Nat) : (s.advanceBy n).pubs = s.pubs := rfl
@[simp] theorem State.arrivals_advanceBy (s : State) (n : Nat) : (s.advanceBy n).arrivals = s.arrivals := rfl
@[simp] theorem State.releases_advanceBy (s : State) (n : Nat) : (s.advanceBy n).releases = s.releases := rfl
@[simp] theorem State.cancels_advanceBy (s : State) (n : Nat) : (s.advanceBy n).cancels = s.cancels := rfl
@[simp] theorem State.nextCancel_advanceBy (s : State) (n : Nat) : (s.advanceBy n).nextCancel = s.nextCancel := rfl
@[simp] theorem State.clasp_advanceBy (s : State) (n : Nat) : (s.advanceBy n).clasp = s.clasp := rfl
@[simp] theorem State.foldCycle_advanceBy (s : State) (n : Nat) : (s.advanceBy n).foldCycle = s.foldCycle := rfl
@[simp] theorem State.foldLclk_advanceBy (s : State) (n : Nat) : (s.advanceBy n).foldLclk = s.foldLclk := rfl
@[simp] theorem State.powered_advanceBy (s : State) (n : Nat) : (s.advanceBy n).powered = s.powered := rfl
@[simp] theorem State.agenda_advanceBy (s : State) (n : Nat) : (s.advanceBy n).agenda = s.agenda := rfl
@[simp] theorem State.cur_advanceBy (s : State) (n : Nat) : (s.advanceBy n).cur = s.cur := rfl
@[simp] theorem State.free_advanceBy (s : State) (n : Nat) : (s.advanceBy n).free = s.free := rfl
@[simp] theorem State.dies_push (s : State) (a : Access) : (s.push a).dies = s.dies := rfl
@[simp] theorem State.links_push (s : State) (a : Access) : (s.push a).links = s.links := rfl
@[simp] theorem State.parts_push (s : State) (a : Access) : (s.push a).parts = s.parts := rfl
@[simp] theorem State.launches_push (s : State) (a : Access) : (s.push a).launches = s.launches := rfl
@[simp] theorem State.nextLid_push (s : State) (a : Access) : (s.push a).nextLid = s.nextLid := rfl
@[simp] theorem State.dev_push (s : State) (a : Access) : (s.push a).dev = s.dev := rfl
@[simp] theorem State.host_push (s : State) (a : Access) : (s.push a).host = s.host := rfl
@[simp] theorem State.pubs_push (s : State) (a : Access) : (s.push a).pubs = s.pubs := rfl
@[simp] theorem State.arrivals_push (s : State) (a : Access) : (s.push a).arrivals = s.arrivals := rfl
@[simp] theorem State.releases_push (s : State) (a : Access) : (s.push a).releases = s.releases := rfl
@[simp] theorem State.cancels_push (s : State) (a : Access) : (s.push a).cancels = s.cancels := rfl
@[simp] theorem State.nextCancel_push (s : State) (a : Access) : (s.push a).nextCancel = s.nextCancel := rfl
@[simp] theorem State.clasp_push (s : State) (a : Access) : (s.push a).clasp = s.clasp := rfl
@[simp] theorem State.foldCycle_push (s : State) (a : Access) : (s.push a).foldCycle = s.foldCycle := rfl
@[simp] theorem State.foldLclk_push (s : State) (a : Access) : (s.push a).foldLclk = s.foldLclk := rfl
@[simp] theorem State.powered_push (s : State) (a : Access) : (s.push a).powered = s.powered := rfl
@[simp] theorem State.agenda_push (s : State) (a : Access) : (s.push a).agenda = s.agenda := rfl
@[simp] theorem State.cur_push (s : State) (a : Access) : (s.push a).cur = s.cur := rfl
@[simp] theorem State.free_push (s : State) (a : Access) : (s.push a).free = s.free := rfl
@[simp] theorem State.tiles_modDie (s : State) (d : Nat) (f : Die → Die) : (s.modDie d f).tiles = s.tiles := rfl
@[simp] theorem State.links_modDie (s : State) (d : Nat) (f : Die → Die) : (s.modDie d f).links = s.links := rfl
@[simp] theorem State.parts_modDie (s : State) (d : Nat) (f : Die → Die) : (s.modDie d f).parts = s.parts := rfl
@[simp] theorem State.launches_modDie (s : State) (d : Nat) (f : Die → Die) : (s.modDie d f).launches = s.launches := rfl
@[simp] theorem State.nextLid_modDie (s : State) (d : Nat) (f : Die → Die) : (s.modDie d f).nextLid = s.nextLid := rfl
@[simp] theorem State.dev_modDie (s : State) (d : Nat) (f : Die → Die) : (s.modDie d f).dev = s.dev := rfl
@[simp] theorem State.host_modDie (s : State) (d : Nat) (f : Die → Die) : (s.modDie d f).host = s.host := rfl
@[simp] theorem State.pubs_modDie (s : State) (d : Nat) (f : Die → Die) : (s.modDie d f).pubs = s.pubs := rfl
@[simp] theorem State.arrivals_modDie (s : State) (d : Nat) (f : Die → Die) : (s.modDie d f).arrivals = s.arrivals := rfl
@[simp] theorem State.releases_modDie (s : State) (d : Nat) (f : Die → Die) : (s.modDie d f).releases = s.releases := rfl
@[simp] theorem State.cancels_modDie (s : State) (d : Nat) (f : Die → Die) : (s.modDie d f).cancels = s.cancels := rfl
@[simp] theorem State.nextCancel_modDie (s : State) (d : Nat) (f : Die → Die) : (s.modDie d f).nextCancel = s.nextCancel := rfl
@[simp] theorem State.clasp_modDie (s : State) (d : Nat) (f : Die → Die) : (s.modDie d f).clasp = s.clasp := rfl
@[simp] theorem State.foldCycle_modDie (s : State) (d : Nat) (f : Die → Die) : (s.modDie d f).foldCycle = s.foldCycle := rfl
@[simp] theorem State.foldLclk_modDie (s : State) (d : Nat) (f : Die → Die) : (s.modDie d f).foldLclk = s.foldLclk := rfl
@[simp] theorem State.powered_modDie (s : State) (d : Nat) (f : Die → Die) : (s.modDie d f).powered = s.powered := rfl
@[simp] theorem State.agenda_modDie (s : State) (d : Nat) (f : Die → Die) : (s.modDie d f).agenda = s.agenda := rfl
@[simp] theorem State.cur_modDie (s : State) (d : Nat) (f : Die → Die) : (s.modDie d f).cur = s.cur := rfl
@[simp] theorem State.free_modDie (s : State) (d : Nat) (f : Die → Die) : (s.modDie d f).free = s.free := rfl
@[simp] theorem State.tiles_modLink (s : State) (k : Nat) (f : Link → Link) : (s.modLink k f).tiles = s.tiles := rfl
@[simp] theorem State.dies_modLink (s : State) (k : Nat) (f : Link → Link) : (s.modLink k f).dies = s.dies := rfl
@[simp] theorem State.parts_modLink (s : State) (k : Nat) (f : Link → Link) : (s.modLink k f).parts = s.parts := rfl
@[simp] theorem State.launches_modLink (s : State) (k : Nat) (f : Link → Link) : (s.modLink k f).launches = s.launches := rfl
@[simp] theorem State.nextLid_modLink (s : State) (k : Nat) (f : Link → Link) : (s.modLink k f).nextLid = s.nextLid := rfl
@[simp] theorem State.dev_modLink (s : State) (k : Nat) (f : Link → Link) : (s.modLink k f).dev = s.dev := rfl
@[simp] theorem State.host_modLink (s : State) (k : Nat) (f : Link → Link) : (s.modLink k f).host = s.host := rfl
@[simp] theorem State.pubs_modLink (s : State) (k : Nat) (f : Link → Link) : (s.modLink k f).pubs = s.pubs := rfl
@[simp] theorem State.arrivals_modLink (s : State) (k : Nat) (f : Link → Link) : (s.modLink k f).arrivals = s.arrivals := rfl
@[simp] theorem State.releases_modLink (s : State) (k : Nat) (f : Link → Link) : (s.modLink k f).releases = s.releases := rfl
@[simp] theorem State.cancels_modLink (s : State) (k : Nat) (f : Link → Link) : (s.modLink k f).cancels = s.cancels := rfl
@[simp] theorem State.nextCancel_modLink (s : State) (k : Nat) (f : Link → Link) : (s.modLink k f).nextCancel = s.nextCancel := rfl
@[simp] theorem State.clasp_modLink (s : State) (k : Nat) (f : Link → Link) : (s.modLink k f).clasp = s.clasp := rfl
@[simp] theorem State.foldCycle_modLink (s : State) (k : Nat) (f : Link → Link) : (s.modLink k f).foldCycle = s.foldCycle := rfl
@[simp] theorem State.foldLclk_modLink (s : State) (k : Nat) (f : Link → Link) : (s.modLink k f).foldLclk = s.foldLclk := rfl
@[simp] theorem State.powered_modLink (s : State) (k : Nat) (f : Link → Link) : (s.modLink k f).powered = s.powered := rfl
@[simp] theorem State.agenda_modLink (s : State) (k : Nat) (f : Link → Link) : (s.modLink k f).agenda = s.agenda := rfl
@[simp] theorem State.cur_modLink (s : State) (k : Nat) (f : Link → Link) : (s.modLink k f).cur = s.cur := rfl
@[simp] theorem State.free_modLink (s : State) (k : Nat) (f : Link → Link) : (s.modLink k f).free = s.free := rfl
@[simp] theorem State.tiles_modPart (s : State) (p : Nat) (f : Partition → Partition) : (s.modPart p f).tiles = s.tiles := rfl
@[simp] theorem State.dies_modPart (s : State) (p : Nat) (f : Partition → Partition) : (s.modPart p f).dies = s.dies := rfl
@[simp] theorem State.links_modPart (s : State) (p : Nat) (f : Partition → Partition) : (s.modPart p f).links = s.links := rfl
@[simp] theorem State.launches_modPart (s : State) (p : Nat) (f : Partition → Partition) : (s.modPart p f).launches = s.launches := rfl
@[simp] theorem State.nextLid_modPart (s : State) (p : Nat) (f : Partition → Partition) : (s.modPart p f).nextLid = s.nextLid := rfl
@[simp] theorem State.dev_modPart (s : State) (p : Nat) (f : Partition → Partition) : (s.modPart p f).dev = s.dev := rfl
@[simp] theorem State.host_modPart (s : State) (p : Nat) (f : Partition → Partition) : (s.modPart p f).host = s.host := rfl
@[simp] theorem State.pubs_modPart (s : State) (p : Nat) (f : Partition → Partition) : (s.modPart p f).pubs = s.pubs := rfl
@[simp] theorem State.arrivals_modPart (s : State) (p : Nat) (f : Partition → Partition) : (s.modPart p f).arrivals = s.arrivals := rfl
@[simp] theorem State.releases_modPart (s : State) (p : Nat) (f : Partition → Partition) : (s.modPart p f).releases = s.releases := rfl
@[simp] theorem State.cancels_modPart (s : State) (p : Nat) (f : Partition → Partition) : (s.modPart p f).cancels = s.cancels := rfl
@[simp] theorem State.nextCancel_modPart (s : State) (p : Nat) (f : Partition → Partition) : (s.modPart p f).nextCancel = s.nextCancel := rfl
@[simp] theorem State.clasp_modPart (s : State) (p : Nat) (f : Partition → Partition) : (s.modPart p f).clasp = s.clasp := rfl
@[simp] theorem State.foldCycle_modPart (s : State) (p : Nat) (f : Partition → Partition) : (s.modPart p f).foldCycle = s.foldCycle := rfl
@[simp] theorem State.foldLclk_modPart (s : State) (p : Nat) (f : Partition → Partition) : (s.modPart p f).foldLclk = s.foldLclk := rfl
@[simp] theorem State.powered_modPart (s : State) (p : Nat) (f : Partition → Partition) : (s.modPart p f).powered = s.powered := rfl
@[simp] theorem State.agenda_modPart (s : State) (p : Nat) (f : Partition → Partition) : (s.modPart p f).agenda = s.agenda := rfl
@[simp] theorem State.cur_modPart (s : State) (p : Nat) (f : Partition → Partition) : (s.modPart p f).cur = s.cur := rfl
@[simp] theorem State.free_modPart (s : State) (p : Nat) (f : Partition → Partition) : (s.modPart p f).free = s.free := rfl
@[simp] theorem State.tiles_modLaunch (s : State) (l : Nat) (f : Launch → Launch) : (s.modLaunch l f).tiles = s.tiles := rfl
@[simp] theorem State.dies_modLaunch (s : State) (l : Nat) (f : Launch → Launch) : (s.modLaunch l f).dies = s.dies := rfl
@[simp] theorem State.links_modLaunch (s : State) (l : Nat) (f : Launch → Launch) : (s.modLaunch l f).links = s.links := rfl
@[simp] theorem State.parts_modLaunch (s : State) (l : Nat) (f : Launch → Launch) : (s.modLaunch l f).parts = s.parts := rfl
@[simp] theorem State.nextLid_modLaunch (s : State) (l : Nat) (f : Launch → Launch) : (s.modLaunch l f).nextLid = s.nextLid := rfl
@[simp] theorem State.dev_modLaunch (s : State) (l : Nat) (f : Launch → Launch) : (s.modLaunch l f).dev = s.dev := rfl
@[simp] theorem State.host_modLaunch (s : State) (l : Nat) (f : Launch → Launch) : (s.modLaunch l f).host = s.host := rfl
@[simp] theorem State.pubs_modLaunch (s : State) (l : Nat) (f : Launch → Launch) : (s.modLaunch l f).pubs = s.pubs := rfl
@[simp] theorem State.arrivals_modLaunch (s : State) (l : Nat) (f : Launch → Launch) : (s.modLaunch l f).arrivals = s.arrivals := rfl
@[simp] theorem State.releases_modLaunch (s : State) (l : Nat) (f : Launch → Launch) : (s.modLaunch l f).releases = s.releases := rfl
@[simp] theorem State.cancels_modLaunch (s : State) (l : Nat) (f : Launch → Launch) : (s.modLaunch l f).cancels = s.cancels := rfl
@[simp] theorem State.nextCancel_modLaunch (s : State) (l : Nat) (f : Launch → Launch) : (s.modLaunch l f).nextCancel = s.nextCancel := rfl
@[simp] theorem State.clasp_modLaunch (s : State) (l : Nat) (f : Launch → Launch) : (s.modLaunch l f).clasp = s.clasp := rfl
@[simp] theorem State.foldCycle_modLaunch (s : State) (l : Nat) (f : Launch → Launch) : (s.modLaunch l f).foldCycle = s.foldCycle := rfl
@[simp] theorem State.foldLclk_modLaunch (s : State) (l : Nat) (f : Launch → Launch) : (s.modLaunch l f).foldLclk = s.foldLclk := rfl
@[simp] theorem State.powered_modLaunch (s : State) (l : Nat) (f : Launch → Launch) : (s.modLaunch l f).powered = s.powered := rfl
@[simp] theorem State.agenda_modLaunch (s : State) (l : Nat) (f : Launch → Launch) : (s.modLaunch l f).agenda = s.agenda := rfl
@[simp] theorem State.cur_modLaunch (s : State) (l : Nat) (f : Launch → Launch) : (s.modLaunch l f).cur = s.cur := rfl
@[simp] theorem State.free_modLaunch (s : State) (l : Nat) (f : Launch → Launch) : (s.modLaunch l f).free = s.free := rfl
@[simp] theorem State.tiles_modClasp (s : State) (f : Clasp → Clasp) : (s.modClasp f).tiles = s.tiles := rfl
@[simp] theorem State.dies_modClasp (s : State) (f : Clasp → Clasp) : (s.modClasp f).dies = s.dies := rfl
@[simp] theorem State.links_modClasp (s : State) (f : Clasp → Clasp) : (s.modClasp f).links = s.links := rfl
@[simp] theorem State.parts_modClasp (s : State) (f : Clasp → Clasp) : (s.modClasp f).parts = s.parts := rfl
@[simp] theorem State.launches_modClasp (s : State) (f : Clasp → Clasp) : (s.modClasp f).launches = s.launches := rfl
@[simp] theorem State.nextLid_modClasp (s : State) (f : Clasp → Clasp) : (s.modClasp f).nextLid = s.nextLid := rfl
@[simp] theorem State.dev_modClasp (s : State) (f : Clasp → Clasp) : (s.modClasp f).dev = s.dev := rfl
@[simp] theorem State.host_modClasp (s : State) (f : Clasp → Clasp) : (s.modClasp f).host = s.host := rfl
@[simp] theorem State.pubs_modClasp (s : State) (f : Clasp → Clasp) : (s.modClasp f).pubs = s.pubs := rfl
@[simp] theorem State.arrivals_modClasp (s : State) (f : Clasp → Clasp) : (s.modClasp f).arrivals = s.arrivals := rfl
@[simp] theorem State.releases_modClasp (s : State) (f : Clasp → Clasp) : (s.modClasp f).releases = s.releases := rfl
@[simp] theorem State.cancels_modClasp (s : State) (f : Clasp → Clasp) : (s.modClasp f).cancels = s.cancels := rfl
@[simp] theorem State.nextCancel_modClasp (s : State) (f : Clasp → Clasp) : (s.modClasp f).nextCancel = s.nextCancel := rfl
@[simp] theorem State.foldCycle_modClasp (s : State) (f : Clasp → Clasp) : (s.modClasp f).foldCycle = s.foldCycle := rfl
@[simp] theorem State.foldLclk_modClasp (s : State) (f : Clasp → Clasp) : (s.modClasp f).foldLclk = s.foldLclk := rfl
@[simp] theorem State.powered_modClasp (s : State) (f : Clasp → Clasp) : (s.modClasp f).powered = s.powered := rfl
@[simp] theorem State.agenda_modClasp (s : State) (f : Clasp → Clasp) : (s.modClasp f).agenda = s.agenda := rfl
@[simp] theorem State.cur_modClasp (s : State) (f : Clasp → Clasp) : (s.modClasp f).cur = s.cur := rfl
@[simp] theorem State.free_modClasp (s : State) (f : Clasp → Clasp) : (s.modClasp f).free = s.free := rfl

/-! Reads after writes of the parts. -/

@[simp] theorem State.tile_modTile (s : State) (k : Nat) (f : Tile → Tile) : (s.modTile k f).tile k = f (s.tile k) := by simp [State.tile, State.modTile]
theorem State.tile_modTile_ne (s : State) {k j : Nat} (h : j ≠ k) (f : Tile → Tile) : (s.modTile k f).tile j = s.tile j := by
  simp [State.tile, State.modTile, mget_mput_ne h]
@[simp] theorem State.die_modDie (s : State) (k : Nat) (f : Die → Die) : (s.modDie k f).die k = f (s.die k) := by simp [State.die, State.modDie]
theorem State.die_modDie_ne (s : State) {k j : Nat} (h : j ≠ k) (f : Die → Die) : (s.modDie k f).die j = s.die j := by
  simp [State.die, State.modDie, mget_mput_ne h]
@[simp] theorem State.link_modLink (s : State) (k : Nat) (f : Link → Link) : (s.modLink k f).link k = f (s.link k) := by simp [State.link, State.modLink]
theorem State.link_modLink_ne (s : State) {k j : Nat} (h : j ≠ k) (f : Link → Link) : (s.modLink k f).link j = s.link j := by
  simp [State.link, State.modLink, mget_mput_ne h]
@[simp] theorem State.part_modPart (s : State) (k : Nat) (f : Partition → Partition) : (s.modPart k f).part k = f (s.part k) := by simp [State.part, State.modPart]
theorem State.part_modPart_ne (s : State) {k j : Nat} (h : j ≠ k) (f : Partition → Partition) : (s.modPart k f).part j = s.part j := by
  simp [State.part, State.modPart, mget_mput_ne h]
@[simp] theorem State.launch_modLaunch (s : State) (k : Nat) (f : Launch → Launch) : (s.modLaunch k f).launch k = f (s.launch k) := by simp [State.launch, State.modLaunch]
theorem State.launch_modLaunch_ne (s : State) {k j : Nat} (h : j ≠ k) (f : Launch → Launch) : (s.modLaunch k f).launch j = s.launch j := by
  simp [State.launch, State.modLaunch, mget_mput_ne h]

@[simp] theorem Tile.ctx_modCtx (tl : Tile) (c : Nat) (f : Ctx → Ctx) : (tl.modCtx c f).ctx c = f (tl.ctx c) := by simp [Tile.ctx, Tile.modCtx]
theorem Tile.ctx_modCtx_ne (tl : Tile) {c d : Nat} (h : d ≠ c) (f : Ctx → Ctx) : (tl.modCtx c f).ctx d = tl.ctx d := by
  simp [Tile.ctx, Tile.modCtx, mget_mput_ne h]
@[simp] theorem Tile.queue_modQueue (tl : Tile) (q : Nat) (f : Queue → Queue) : (tl.modQueue q f).queue q = f (tl.queue q) := by
  simp [Tile.queue, Tile.modQueue]
theorem Tile.queue_modQueue_ne (tl : Tile) {q r : Nat} (h : r ≠ q) (f : Queue → Queue) : (tl.modQueue q f).queue r = tl.queue r := by
  simp [Tile.queue, Tile.modQueue, mget_mput_ne h]

@[simp] theorem Tile.lid_modCtx (tl : Tile) (c : Nat) (f : Ctx → Ctx) : (tl.modCtx c f).lid = tl.lid := rfl
@[simp] theorem Tile.vtile_modCtx (tl : Tile) (c : Nat) (f : Ctx → Ctx) : (tl.modCtx c f).vtile = tl.vtile := rfl
@[simp] theorem Tile.vdie_modCtx (tl : Tile) (c : Nat) (f : Ctx → Ctx) : (tl.modCtx c f).vdie = tl.vdie := rfl
@[simp] theorem Tile.store_modCtx (tl : Tile) (c : Nat) (f : Ctx → Ctx) : (tl.modCtx c f).store = tl.store := rfl
@[simp] theorem Tile.acc_modCtx (tl : Tile) (c : Nat) (f : Ctx → Ctx) : (tl.modCtx c f).acc = tl.acc := rfl
@[simp] theorem Tile.accPoison_modCtx (tl : Tile) (c : Nat) (f : Ctx → Ctx) : (tl.modCtx c f).accPoison = tl.accPoison := rfl
@[simp] theorem Tile.accFmt_modCtx (tl : Tile) (c : Nat) (f : Ctx → Ctx) : (tl.modCtx c f).accFmt = tl.accFmt := rfl
@[simp] theorem Tile.trapBase_modCtx (tl : Tile) (c : Nat) (f : Ctx → Ctx) : (tl.modCtx c f).trapBase = tl.trapBase := rfl
@[simp] theorem Tile.budget_modCtx (tl : Tile) (c : Nat) (f : Ctx → Ctx) : (tl.modCtx c f).budget = tl.budget := rfl
@[simp] theorem Tile.wrOld_modCtx (tl : Tile) (c : Nat) (f : Ctx → Ctx) : (tl.modCtx c f).wrOld = tl.wrOld := rfl
@[simp] theorem Tile.charges_modCtx (tl : Tile) (c : Nat) (f : Ctx → Ctx) : (tl.modCtx c f).charges = tl.charges := rfl
@[simp] theorem Tile.pledged_modCtx (tl : Tile) (c : Nat) (f : Ctx → Ctx) : (tl.modCtx c f).pledged = tl.pledged := rfl
@[simp] theorem Tile.hold_modCtx (tl : Tile) (c : Nat) (f : Ctx → Ctx) : (tl.modCtx c f).hold = tl.hold := rfl
@[simp] theorem Tile.grp_modCtx (tl : Tile) (c : Nat) (f : Ctx → Ctx) : (tl.modCtx c f).grp = tl.grp := rfl
@[simp] theorem Tile.latch_modCtx (tl : Tile) (c : Nat) (f : Ctx → Ctx) : (tl.modCtx c f).latch = tl.latch := rfl
@[simp] theorem Tile.cancels_modCtx (tl : Tile) (c : Nat) (f : Ctx → Ctx) : (tl.modCtx c f).cancels = tl.cancels := rfl
@[simp] theorem Tile.regs_modCtx (tl : Tile) (c : Nat) (f : Ctx → Ctx) : (tl.modCtx c f).regs = tl.regs := rfl
@[simp] theorem Tile.ready_modCtx (tl : Tile) (c : Nat) (f : Ctx → Ctx) : (tl.modCtx c f).ready = tl.ready := rfl
@[simp] theorem Tile.dep_modCtx (tl : Tile) (c : Nat) (f : Ctx → Ctx) : (tl.modCtx c f).dep = tl.dep := rfl
@[simp] theorem Tile.res_modCtx (tl : Tile) (c : Nat) (f : Ctx → Ctx) : (tl.modCtx c f).res = tl.res := rfl
@[simp] theorem Tile.nextAcc_modCtx (tl : Tile) (c : Nat) (f : Ctx → Ctx) : (tl.modCtx c f).nextAcc = tl.nextAcc := rfl
@[simp] theorem Tile.queues_modCtx (tl : Tile) (c : Nat) (f : Ctx → Ctx) : (tl.modCtx c f).queues = tl.queues := rfl
@[simp] theorem Tile.nextId_modCtx (tl : Tile) (c : Nat) (f : Ctx → Ctx) : (tl.modCtx c f).nextId = tl.nextId := rfl
@[simp] theorem Tile.score_modCtx (tl : Tile) (c : Nat) (f : Ctx → Ctx) : (tl.modCtx c f).score = tl.score := rfl
@[simp] theorem Tile.engines_modCtx (tl : Tile) (c : Nat) (f : Ctx → Ctx) : (tl.modCtx c f).engines = tl.engines := rfl
@[simp] theorem Tile.ips_modCtx (tl : Tile) (c : Nat) (f : Ctx → Ctx) : (tl.modCtx c f).ips = tl.ips := rfl
@[simp] theorem Tile.eps_modCtx (tl : Tile) (c : Nat) (f : Ctx → Ctx) : (tl.modCtx c f).eps = tl.eps := rfl
@[simp] theorem Tile.gbufs_modCtx (tl : Tile) (c : Nat) (f : Ctx → Ctx) : (tl.modCtx c f).gbufs = tl.gbufs := rfl
@[simp] theorem Tile.trks_modCtx (tl : Tile) (c : Nat) (f : Ctx → Ctx) : (tl.modCtx c f).trks = tl.trks := rfl
@[simp] theorem Tile.etrks_modCtx (tl : Tile) (c : Nat) (f : Ctx → Ctx) : (tl.modCtx c f).etrks = tl.etrks := rfl
@[simp] theorem Tile.claims_modCtx (tl : Tile) (c : Nat) (f : Ctx → Ctx) : (tl.modCtx c f).claims = tl.claims := rfl
@[simp] theorem Tile.drainToks_modCtx (tl : Tile) (c : Nat) (f : Ctx → Ctx) : (tl.modCtx c f).drainToks = tl.drainToks := rfl
@[simp] theorem Tile.live_modCtx (tl : Tile) (c : Nat) (f : Ctx → Ctx) : (tl.modCtx c f).live = tl.live := rfl
@[simp] theorem Tile.shadow_modCtx (tl : Tile) (c : Nat) (f : Ctx → Ctx) : (tl.modCtx c f).shadow = tl.shadow := rfl
@[simp] theorem Tile.loads_modCtx (tl : Tile) (c : Nat) (f : Ctx → Ctx) : (tl.modCtx c f).loads = tl.loads := rfl
@[simp] theorem Tile.sweeps_modCtx (tl : Tile) (c : Nat) (f : Ctx → Ctx) : (tl.modCtx c f).sweeps = tl.sweeps := rfl
@[simp] theorem Tile.strays_modCtx (tl : Tile) (c : Nat) (f : Ctx → Ctx) : (tl.modCtx c f).strays = tl.strays := rfl
@[simp] theorem Tile.runs_modCtx (tl : Tile) (c : Nat) (f : Ctx → Ctx) : (tl.modCtx c f).runs = tl.runs := rfl
@[simp] theorem Tile.scanned_modCtx (tl : Tile) (c : Nat) (f : Ctx → Ctx) : (tl.modCtx c f).scanned = tl.scanned := rfl
@[simp] theorem Tile.aside_modCtx (tl : Tile) (c : Nat) (f : Ctx → Ctx) : (tl.modCtx c f).aside = tl.aside := rfl
@[simp] theorem Tile.ranked_modCtx (tl : Tile) (c : Nat) (f : Ctx → Ctx) : (tl.modCtx c f).ranked = tl.ranked := rfl
@[simp] theorem Tile.array_modCtx (tl : Tile) (c : Nat) (f : Ctx → Ctx) : (tl.modCtx c f).array = tl.array := rfl
@[simp] theorem Tile.msgs_modCtx (tl : Tile) (c : Nat) (f : Ctx → Ctx) : (tl.modCtx c f).msgs = tl.msgs := rfl
@[simp] theorem Tile.msgOver_modCtx (tl : Tile) (c : Nat) (f : Ctx → Ctx) : (tl.modCtx c f).msgOver = tl.msgOver := rfl
@[simp] theorem Tile.sentMsgs_modCtx (tl : Tile) (c : Nat) (f : Ctx → Ctx) : (tl.modCtx c f).sentMsgs = tl.sentMsgs := rfl
@[simp] theorem Tile.remoteQ_modCtx (tl : Tile) (c : Nat) (f : Ctx → Ctx) : (tl.modCtx c f).remoteQ = tl.remoteQ := rfl
@[simp] theorem Tile.tags_modCtx (tl : Tile) (c : Nat) (f : Ctx → Ctx) : (tl.modCtx c f).tags = tl.tags := rfl
@[simp] theorem Tile.injq_modCtx (tl : Tile) (c : Nat) (f : Ctx → Ctx) : (tl.modCtx c f).injq = tl.injq := rfl
@[simp] theorem Tile.intake_modCtx (tl : Tile) (c : Nat) (f : Ctx → Ctx) : (tl.modCtx c f).intake = tl.intake := rfl
@[simp] theorem Tile.allot_modCtx (tl : Tile) (c : Nat) (f : Ctx → Ctx) : (tl.modCtx c f).allot = tl.allot := rfl
@[simp] theorem Tile.router_modCtx (tl : Tile) (c : Nat) (f : Ctx → Ctx) : (tl.modCtx c f).router = tl.router := rfl
@[simp] theorem Tile.gate_modCtx (tl : Tile) (c : Nat) (f : Ctx → Ctx) : (tl.modCtx c f).gate = tl.gate := rfl
@[simp] theorem Tile.reported_modCtx (tl : Tile) (c : Nat) (f : Ctx → Ctx) : (tl.modCtx c f).reported = tl.reported := rfl
@[simp] theorem Tile.lid_modQueue (tl : Tile) (q : Nat) (f : Queue → Queue) : (tl.modQueue q f).lid = tl.lid := rfl
@[simp] theorem Tile.vtile_modQueue (tl : Tile) (q : Nat) (f : Queue → Queue) : (tl.modQueue q f).vtile = tl.vtile := rfl
@[simp] theorem Tile.vdie_modQueue (tl : Tile) (q : Nat) (f : Queue → Queue) : (tl.modQueue q f).vdie = tl.vdie := rfl
@[simp] theorem Tile.store_modQueue (tl : Tile) (q : Nat) (f : Queue → Queue) : (tl.modQueue q f).store = tl.store := rfl
@[simp] theorem Tile.acc_modQueue (tl : Tile) (q : Nat) (f : Queue → Queue) : (tl.modQueue q f).acc = tl.acc := rfl
@[simp] theorem Tile.accPoison_modQueue (tl : Tile) (q : Nat) (f : Queue → Queue) : (tl.modQueue q f).accPoison = tl.accPoison := rfl
@[simp] theorem Tile.accFmt_modQueue (tl : Tile) (q : Nat) (f : Queue → Queue) : (tl.modQueue q f).accFmt = tl.accFmt := rfl
@[simp] theorem Tile.trapBase_modQueue (tl : Tile) (q : Nat) (f : Queue → Queue) : (tl.modQueue q f).trapBase = tl.trapBase := rfl
@[simp] theorem Tile.budget_modQueue (tl : Tile) (q : Nat) (f : Queue → Queue) : (tl.modQueue q f).budget = tl.budget := rfl
@[simp] theorem Tile.wrOld_modQueue (tl : Tile) (q : Nat) (f : Queue → Queue) : (tl.modQueue q f).wrOld = tl.wrOld := rfl
@[simp] theorem Tile.charges_modQueue (tl : Tile) (q : Nat) (f : Queue → Queue) : (tl.modQueue q f).charges = tl.charges := rfl
@[simp] theorem Tile.pledged_modQueue (tl : Tile) (q : Nat) (f : Queue → Queue) : (tl.modQueue q f).pledged = tl.pledged := rfl
@[simp] theorem Tile.hold_modQueue (tl : Tile) (q : Nat) (f : Queue → Queue) : (tl.modQueue q f).hold = tl.hold := rfl
@[simp] theorem Tile.grp_modQueue (tl : Tile) (q : Nat) (f : Queue → Queue) : (tl.modQueue q f).grp = tl.grp := rfl
@[simp] theorem Tile.latch_modQueue (tl : Tile) (q : Nat) (f : Queue → Queue) : (tl.modQueue q f).latch = tl.latch := rfl
@[simp] theorem Tile.cancels_modQueue (tl : Tile) (q : Nat) (f : Queue → Queue) : (tl.modQueue q f).cancels = tl.cancels := rfl
@[simp] theorem Tile.regs_modQueue (tl : Tile) (q : Nat) (f : Queue → Queue) : (tl.modQueue q f).regs = tl.regs := rfl
@[simp] theorem Tile.ready_modQueue (tl : Tile) (q : Nat) (f : Queue → Queue) : (tl.modQueue q f).ready = tl.ready := rfl
@[simp] theorem Tile.dep_modQueue (tl : Tile) (q : Nat) (f : Queue → Queue) : (tl.modQueue q f).dep = tl.dep := rfl
@[simp] theorem Tile.res_modQueue (tl : Tile) (q : Nat) (f : Queue → Queue) : (tl.modQueue q f).res = tl.res := rfl
@[simp] theorem Tile.ctxs_modQueue (tl : Tile) (q : Nat) (f : Queue → Queue) : (tl.modQueue q f).ctxs = tl.ctxs := rfl
@[simp] theorem Tile.nextAcc_modQueue (tl : Tile) (q : Nat) (f : Queue → Queue) : (tl.modQueue q f).nextAcc = tl.nextAcc := rfl
@[simp] theorem Tile.nextId_modQueue (tl : Tile) (q : Nat) (f : Queue → Queue) : (tl.modQueue q f).nextId = tl.nextId := rfl
@[simp] theorem Tile.score_modQueue (tl : Tile) (q : Nat) (f : Queue → Queue) : (tl.modQueue q f).score = tl.score := rfl
@[simp] theorem Tile.engines_modQueue (tl : Tile) (q : Nat) (f : Queue → Queue) : (tl.modQueue q f).engines = tl.engines := rfl
@[simp] theorem Tile.ips_modQueue (tl : Tile) (q : Nat) (f : Queue → Queue) : (tl.modQueue q f).ips = tl.ips := rfl
@[simp] theorem Tile.eps_modQueue (tl : Tile) (q : Nat) (f : Queue → Queue) : (tl.modQueue q f).eps = tl.eps := rfl
@[simp] theorem Tile.gbufs_modQueue (tl : Tile) (q : Nat) (f : Queue → Queue) : (tl.modQueue q f).gbufs = tl.gbufs := rfl
@[simp] theorem Tile.trks_modQueue (tl : Tile) (q : Nat) (f : Queue → Queue) : (tl.modQueue q f).trks = tl.trks := rfl
@[simp] theorem Tile.etrks_modQueue (tl : Tile) (q : Nat) (f : Queue → Queue) : (tl.modQueue q f).etrks = tl.etrks := rfl
@[simp] theorem Tile.claims_modQueue (tl : Tile) (q : Nat) (f : Queue → Queue) : (tl.modQueue q f).claims = tl.claims := rfl
@[simp] theorem Tile.drainToks_modQueue (tl : Tile) (q : Nat) (f : Queue → Queue) : (tl.modQueue q f).drainToks = tl.drainToks := rfl
@[simp] theorem Tile.live_modQueue (tl : Tile) (q : Nat) (f : Queue → Queue) : (tl.modQueue q f).live = tl.live := rfl
@[simp] theorem Tile.shadow_modQueue (tl : Tile) (q : Nat) (f : Queue → Queue) : (tl.modQueue q f).shadow = tl.shadow := rfl
@[simp] theorem Tile.loads_modQueue (tl : Tile) (q : Nat) (f : Queue → Queue) : (tl.modQueue q f).loads = tl.loads := rfl
@[simp] theorem Tile.sweeps_modQueue (tl : Tile) (q : Nat) (f : Queue → Queue) : (tl.modQueue q f).sweeps = tl.sweeps := rfl
@[simp] theorem Tile.strays_modQueue (tl : Tile) (q : Nat) (f : Queue → Queue) : (tl.modQueue q f).strays = tl.strays := rfl
@[simp] theorem Tile.runs_modQueue (tl : Tile) (q : Nat) (f : Queue → Queue) : (tl.modQueue q f).runs = tl.runs := rfl
@[simp] theorem Tile.scanned_modQueue (tl : Tile) (q : Nat) (f : Queue → Queue) : (tl.modQueue q f).scanned = tl.scanned := rfl
@[simp] theorem Tile.aside_modQueue (tl : Tile) (q : Nat) (f : Queue → Queue) : (tl.modQueue q f).aside = tl.aside := rfl
@[simp] theorem Tile.ranked_modQueue (tl : Tile) (q : Nat) (f : Queue → Queue) : (tl.modQueue q f).ranked = tl.ranked := rfl
@[simp] theorem Tile.array_modQueue (tl : Tile) (q : Nat) (f : Queue → Queue) : (tl.modQueue q f).array = tl.array := rfl
@[simp] theorem Tile.msgs_modQueue (tl : Tile) (q : Nat) (f : Queue → Queue) : (tl.modQueue q f).msgs = tl.msgs := rfl
@[simp] theorem Tile.msgOver_modQueue (tl : Tile) (q : Nat) (f : Queue → Queue) : (tl.modQueue q f).msgOver = tl.msgOver := rfl
@[simp] theorem Tile.sentMsgs_modQueue (tl : Tile) (q : Nat) (f : Queue → Queue) : (tl.modQueue q f).sentMsgs = tl.sentMsgs := rfl
@[simp] theorem Tile.remoteQ_modQueue (tl : Tile) (q : Nat) (f : Queue → Queue) : (tl.modQueue q f).remoteQ = tl.remoteQ := rfl
@[simp] theorem Tile.tags_modQueue (tl : Tile) (q : Nat) (f : Queue → Queue) : (tl.modQueue q f).tags = tl.tags := rfl
@[simp] theorem Tile.injq_modQueue (tl : Tile) (q : Nat) (f : Queue → Queue) : (tl.modQueue q f).injq = tl.injq := rfl
@[simp] theorem Tile.intake_modQueue (tl : Tile) (q : Nat) (f : Queue → Queue) : (tl.modQueue q f).intake = tl.intake := rfl
@[simp] theorem Tile.allot_modQueue (tl : Tile) (q : Nat) (f : Queue → Queue) : (tl.modQueue q f).allot = tl.allot := rfl
@[simp] theorem Tile.router_modQueue (tl : Tile) (q : Nat) (f : Queue → Queue) : (tl.modQueue q f).router = tl.router := rfl
@[simp] theorem Tile.gate_modQueue (tl : Tile) (q : Nat) (f : Queue → Queue) : (tl.modQueue q f).gate = tl.gate := rfl
@[simp] theorem Tile.reported_modQueue (tl : Tile) (q : Nat) (f : Queue → Queue) : (tl.modQueue q f).reported = tl.reported := rfl

/-- A tile under an update of one context: only its contexts change. -/
theorem State.tile_modCtx (s : State) (t c u : Nat) (f : Ctx → Ctx) :
    (s.modCtx t c f).tile u = if u = t then (s.tile t).modCtx c f else s.tile u := by
  by_cases h : u = t
  · subst h
    simp [State.modCtx]
  · simp [State.modCtx, h, State.tile_modTile_ne]

@[simp] theorem State.ctx_modCtx (s : State) (t c : Nat) (f : Ctx → Ctx) : (s.modCtx t c f).ctx t c = f (s.ctx t c) := by
  simp [State.ctx, State.tile_modCtx]

theorem State.ctx_modCtx_ne (s : State) {t c u d : Nat} (h : u ≠ t ∨ d ≠ c) (f : Ctx → Ctx) : (s.modCtx t c f).ctx u d = s.ctx u d := by
  unfold State.ctx
  rw [State.tile_modCtx]
  by_cases hu : u = t
  · subst hu
    rw [if_pos rfl, Tile.ctx_modCtx_ne _ (by simpa using h)]
  · rw [if_neg hu]

@[simp] theorem State.lid_tile_modCtx (s : State) (t c u : Nat) (f : Ctx → Ctx) : ((s.modCtx t c f).tile u).lid = (s.tile u).lid := by
  rw [State.tile_modCtx]; split <;> simp_all
@[simp] theorem State.vtile_tile_modCtx (s : State) (t c u : Nat) (f : Ctx → Ctx) : ((s.modCtx t c f).tile u).vtile = (s.tile u).vtile := by
  rw [State.tile_modCtx]; split <;> simp_all
@[simp] theorem State.vdie_tile_modCtx (s : State) (t c u : Nat) (f : Ctx → Ctx) : ((s.modCtx t c f).tile u).vdie = (s.tile u).vdie := by
  rw [State.tile_modCtx]; split <;> simp_all
@[simp] theorem State.store_tile_modCtx (s : State) (t c u : Nat) (f : Ctx → Ctx) : ((s.modCtx t c f).tile u).store = (s.tile u).store := by
  rw [State.tile_modCtx]; split <;> simp_all
@[simp] theorem State.acc_tile_modCtx (s : State) (t c u : Nat) (f : Ctx → Ctx) : ((s.modCtx t c f).tile u).acc = (s.tile u).acc := by
  rw [State.tile_modCtx]; split <;> simp_all
@[simp] theorem State.accPoison_tile_modCtx (s : State) (t c u : Nat) (f : Ctx → Ctx) : ((s.modCtx t c f).tile u).accPoison = (s.tile u).accPoison := by
  rw [State.tile_modCtx]; split <;> simp_all
@[simp] theorem State.accFmt_tile_modCtx (s : State) (t c u : Nat) (f : Ctx → Ctx) : ((s.modCtx t c f).tile u).accFmt = (s.tile u).accFmt := by
  rw [State.tile_modCtx]; split <;> simp_all
@[simp] theorem State.trapBase_tile_modCtx (s : State) (t c u : Nat) (f : Ctx → Ctx) : ((s.modCtx t c f).tile u).trapBase = (s.tile u).trapBase := by
  rw [State.tile_modCtx]; split <;> simp_all
@[simp] theorem State.budget_tile_modCtx (s : State) (t c u : Nat) (f : Ctx → Ctx) : ((s.modCtx t c f).tile u).budget = (s.tile u).budget := by
  rw [State.tile_modCtx]; split <;> simp_all
@[simp] theorem State.wrOld_tile_modCtx (s : State) (t c u : Nat) (f : Ctx → Ctx) : ((s.modCtx t c f).tile u).wrOld = (s.tile u).wrOld := by
  rw [State.tile_modCtx]; split <;> simp_all
@[simp] theorem State.charges_tile_modCtx (s : State) (t c u : Nat) (f : Ctx → Ctx) : ((s.modCtx t c f).tile u).charges = (s.tile u).charges := by
  rw [State.tile_modCtx]; split <;> simp_all
@[simp] theorem State.pledged_tile_modCtx (s : State) (t c u : Nat) (f : Ctx → Ctx) : ((s.modCtx t c f).tile u).pledged = (s.tile u).pledged := by
  rw [State.tile_modCtx]; split <;> simp_all
@[simp] theorem State.hold_tile_modCtx (s : State) (t c u : Nat) (f : Ctx → Ctx) : ((s.modCtx t c f).tile u).hold = (s.tile u).hold := by
  rw [State.tile_modCtx]; split <;> simp_all
@[simp] theorem State.grp_tile_modCtx (s : State) (t c u : Nat) (f : Ctx → Ctx) : ((s.modCtx t c f).tile u).grp = (s.tile u).grp := by
  rw [State.tile_modCtx]; split <;> simp_all
@[simp] theorem State.latch_tile_modCtx (s : State) (t c u : Nat) (f : Ctx → Ctx) : ((s.modCtx t c f).tile u).latch = (s.tile u).latch := by
  rw [State.tile_modCtx]; split <;> simp_all
@[simp] theorem State.cancels_tile_modCtx (s : State) (t c u : Nat) (f : Ctx → Ctx) : ((s.modCtx t c f).tile u).cancels = (s.tile u).cancels := by
  rw [State.tile_modCtx]; split <;> simp_all
@[simp] theorem State.regs_tile_modCtx (s : State) (t c u : Nat) (f : Ctx → Ctx) : ((s.modCtx t c f).tile u).regs = (s.tile u).regs := by
  rw [State.tile_modCtx]; split <;> simp_all
@[simp] theorem State.ready_tile_modCtx (s : State) (t c u : Nat) (f : Ctx → Ctx) : ((s.modCtx t c f).tile u).ready = (s.tile u).ready := by
  rw [State.tile_modCtx]; split <;> simp_all
@[simp] theorem State.dep_tile_modCtx (s : State) (t c u : Nat) (f : Ctx → Ctx) : ((s.modCtx t c f).tile u).dep = (s.tile u).dep := by
  rw [State.tile_modCtx]; split <;> simp_all
@[simp] theorem State.res_tile_modCtx (s : State) (t c u : Nat) (f : Ctx → Ctx) : ((s.modCtx t c f).tile u).res = (s.tile u).res := by
  rw [State.tile_modCtx]; split <;> simp_all
@[simp] theorem State.nextAcc_tile_modCtx (s : State) (t c u : Nat) (f : Ctx → Ctx) : ((s.modCtx t c f).tile u).nextAcc = (s.tile u).nextAcc := by
  rw [State.tile_modCtx]; split <;> simp_all
@[simp] theorem State.queues_tile_modCtx (s : State) (t c u : Nat) (f : Ctx → Ctx) : ((s.modCtx t c f).tile u).queues = (s.tile u).queues := by
  rw [State.tile_modCtx]; split <;> simp_all
@[simp] theorem State.nextId_tile_modCtx (s : State) (t c u : Nat) (f : Ctx → Ctx) : ((s.modCtx t c f).tile u).nextId = (s.tile u).nextId := by
  rw [State.tile_modCtx]; split <;> simp_all
@[simp] theorem State.score_tile_modCtx (s : State) (t c u : Nat) (f : Ctx → Ctx) : ((s.modCtx t c f).tile u).score = (s.tile u).score := by
  rw [State.tile_modCtx]; split <;> simp_all
@[simp] theorem State.engines_tile_modCtx (s : State) (t c u : Nat) (f : Ctx → Ctx) : ((s.modCtx t c f).tile u).engines = (s.tile u).engines := by
  rw [State.tile_modCtx]; split <;> simp_all
@[simp] theorem State.ips_tile_modCtx (s : State) (t c u : Nat) (f : Ctx → Ctx) : ((s.modCtx t c f).tile u).ips = (s.tile u).ips := by
  rw [State.tile_modCtx]; split <;> simp_all
@[simp] theorem State.eps_tile_modCtx (s : State) (t c u : Nat) (f : Ctx → Ctx) : ((s.modCtx t c f).tile u).eps = (s.tile u).eps := by
  rw [State.tile_modCtx]; split <;> simp_all
@[simp] theorem State.gbufs_tile_modCtx (s : State) (t c u : Nat) (f : Ctx → Ctx) : ((s.modCtx t c f).tile u).gbufs = (s.tile u).gbufs := by
  rw [State.tile_modCtx]; split <;> simp_all
@[simp] theorem State.trks_tile_modCtx (s : State) (t c u : Nat) (f : Ctx → Ctx) : ((s.modCtx t c f).tile u).trks = (s.tile u).trks := by
  rw [State.tile_modCtx]; split <;> simp_all
@[simp] theorem State.etrks_tile_modCtx (s : State) (t c u : Nat) (f : Ctx → Ctx) : ((s.modCtx t c f).tile u).etrks = (s.tile u).etrks := by
  rw [State.tile_modCtx]; split <;> simp_all
@[simp] theorem State.claims_tile_modCtx (s : State) (t c u : Nat) (f : Ctx → Ctx) : ((s.modCtx t c f).tile u).claims = (s.tile u).claims := by
  rw [State.tile_modCtx]; split <;> simp_all
@[simp] theorem State.drainToks_tile_modCtx (s : State) (t c u : Nat) (f : Ctx → Ctx) : ((s.modCtx t c f).tile u).drainToks = (s.tile u).drainToks := by
  rw [State.tile_modCtx]; split <;> simp_all
@[simp] theorem State.live_tile_modCtx (s : State) (t c u : Nat) (f : Ctx → Ctx) : ((s.modCtx t c f).tile u).live = (s.tile u).live := by
  rw [State.tile_modCtx]; split <;> simp_all
@[simp] theorem State.shadow_tile_modCtx (s : State) (t c u : Nat) (f : Ctx → Ctx) : ((s.modCtx t c f).tile u).shadow = (s.tile u).shadow := by
  rw [State.tile_modCtx]; split <;> simp_all
@[simp] theorem State.loads_tile_modCtx (s : State) (t c u : Nat) (f : Ctx → Ctx) : ((s.modCtx t c f).tile u).loads = (s.tile u).loads := by
  rw [State.tile_modCtx]; split <;> simp_all
@[simp] theorem State.sweeps_tile_modCtx (s : State) (t c u : Nat) (f : Ctx → Ctx) : ((s.modCtx t c f).tile u).sweeps = (s.tile u).sweeps := by
  rw [State.tile_modCtx]; split <;> simp_all
@[simp] theorem State.strays_tile_modCtx (s : State) (t c u : Nat) (f : Ctx → Ctx) : ((s.modCtx t c f).tile u).strays = (s.tile u).strays := by
  rw [State.tile_modCtx]; split <;> simp_all
@[simp] theorem State.runs_tile_modCtx (s : State) (t c u : Nat) (f : Ctx → Ctx) : ((s.modCtx t c f).tile u).runs = (s.tile u).runs := by
  rw [State.tile_modCtx]; split <;> simp_all
@[simp] theorem State.scanned_tile_modCtx (s : State) (t c u : Nat) (f : Ctx → Ctx) : ((s.modCtx t c f).tile u).scanned = (s.tile u).scanned := by
  rw [State.tile_modCtx]; split <;> simp_all
@[simp] theorem State.aside_tile_modCtx (s : State) (t c u : Nat) (f : Ctx → Ctx) : ((s.modCtx t c f).tile u).aside = (s.tile u).aside := by
  rw [State.tile_modCtx]; split <;> simp_all
@[simp] theorem State.ranked_tile_modCtx (s : State) (t c u : Nat) (f : Ctx → Ctx) : ((s.modCtx t c f).tile u).ranked = (s.tile u).ranked := by
  rw [State.tile_modCtx]; split <;> simp_all
@[simp] theorem State.array_tile_modCtx (s : State) (t c u : Nat) (f : Ctx → Ctx) : ((s.modCtx t c f).tile u).array = (s.tile u).array := by
  rw [State.tile_modCtx]; split <;> simp_all
@[simp] theorem State.msgs_tile_modCtx (s : State) (t c u : Nat) (f : Ctx → Ctx) : ((s.modCtx t c f).tile u).msgs = (s.tile u).msgs := by
  rw [State.tile_modCtx]; split <;> simp_all
@[simp] theorem State.msgOver_tile_modCtx (s : State) (t c u : Nat) (f : Ctx → Ctx) : ((s.modCtx t c f).tile u).msgOver = (s.tile u).msgOver := by
  rw [State.tile_modCtx]; split <;> simp_all
@[simp] theorem State.sentMsgs_tile_modCtx (s : State) (t c u : Nat) (f : Ctx → Ctx) : ((s.modCtx t c f).tile u).sentMsgs = (s.tile u).sentMsgs := by
  rw [State.tile_modCtx]; split <;> simp_all
@[simp] theorem State.remoteQ_tile_modCtx (s : State) (t c u : Nat) (f : Ctx → Ctx) : ((s.modCtx t c f).tile u).remoteQ = (s.tile u).remoteQ := by
  rw [State.tile_modCtx]; split <;> simp_all
@[simp] theorem State.tags_tile_modCtx (s : State) (t c u : Nat) (f : Ctx → Ctx) : ((s.modCtx t c f).tile u).tags = (s.tile u).tags := by
  rw [State.tile_modCtx]; split <;> simp_all
@[simp] theorem State.injq_tile_modCtx (s : State) (t c u : Nat) (f : Ctx → Ctx) : ((s.modCtx t c f).tile u).injq = (s.tile u).injq := by
  rw [State.tile_modCtx]; split <;> simp_all
@[simp] theorem State.intake_tile_modCtx (s : State) (t c u : Nat) (f : Ctx → Ctx) : ((s.modCtx t c f).tile u).intake = (s.tile u).intake := by
  rw [State.tile_modCtx]; split <;> simp_all
@[simp] theorem State.allot_tile_modCtx (s : State) (t c u : Nat) (f : Ctx → Ctx) : ((s.modCtx t c f).tile u).allot = (s.tile u).allot := by
  rw [State.tile_modCtx]; split <;> simp_all
@[simp] theorem State.router_tile_modCtx (s : State) (t c u : Nat) (f : Ctx → Ctx) : ((s.modCtx t c f).tile u).router = (s.tile u).router := by
  rw [State.tile_modCtx]; split <;> simp_all
@[simp] theorem State.gate_tile_modCtx (s : State) (t c u : Nat) (f : Ctx → Ctx) : ((s.modCtx t c f).tile u).gate = (s.tile u).gate := by
  rw [State.tile_modCtx]; split <;> simp_all
@[simp] theorem State.reported_tile_modCtx (s : State) (t c u : Nat) (f : Ctx → Ctx) : ((s.modCtx t c f).tile u).reported = (s.tile u).reported := by
  rw [State.tile_modCtx]; split <;> simp_all

/-! The issuing context. -/

@[simp] theorem State.me_modMe (s : State) (f : Ctx → Ctx) : (s.modMe f).me = f s.me := by simp [State.me, State.modMe]
@[simp] theorem State.myTile_modMyTile (s : State) (f : Tile → Tile) : (s.modMyTile f).myTile = f s.myTile := by simp [State.myTile, State.modMyTile]
theorem State.ctx_modMe_ne (s : State) {u d : Nat} (h : (u, d) ≠ s.cur) (f : Ctx → Ctx) : (s.modMe f).ctx u d = s.ctx u d :=
  s.ctx_modCtx_ne (by
    by_cases hu : u = s.cur.1
    · exact .inr fun hd => h (Prod.ext hu hd)
    · exact .inl hu) f
@[simp] theorem State.me_modMyTile (s : State) (f : Tile → Tile) : (s.modMyTile f).me = (f s.myTile).ctx s.cur.2 := by
  simp [State.me, State.ctx, State.modMyTile, State.myTile]

@[simp] theorem State.lid_tile_modMe (s : State) (u : Nat) (f : Ctx → Ctx) : ((s.modMe f).tile u).lid = (s.tile u).lid := State.lid_tile_modCtx ..
@[simp] theorem State.lid_myTile_modMe (s : State) (f : Ctx → Ctx) : (s.modMe f).myTile.lid = s.myTile.lid := State.lid_tile_modCtx ..
@[simp] theorem State.vtile_tile_modMe (s : State) (u : Nat) (f : Ctx → Ctx) : ((s.modMe f).tile u).vtile = (s.tile u).vtile := State.vtile_tile_modCtx ..
@[simp] theorem State.vtile_myTile_modMe (s : State) (f : Ctx → Ctx) : (s.modMe f).myTile.vtile = s.myTile.vtile := State.vtile_tile_modCtx ..
@[simp] theorem State.vdie_tile_modMe (s : State) (u : Nat) (f : Ctx → Ctx) : ((s.modMe f).tile u).vdie = (s.tile u).vdie := State.vdie_tile_modCtx ..
@[simp] theorem State.vdie_myTile_modMe (s : State) (f : Ctx → Ctx) : (s.modMe f).myTile.vdie = s.myTile.vdie := State.vdie_tile_modCtx ..
@[simp] theorem State.store_tile_modMe (s : State) (u : Nat) (f : Ctx → Ctx) : ((s.modMe f).tile u).store = (s.tile u).store := State.store_tile_modCtx ..
@[simp] theorem State.store_myTile_modMe (s : State) (f : Ctx → Ctx) : (s.modMe f).myTile.store = s.myTile.store := State.store_tile_modCtx ..
@[simp] theorem State.acc_tile_modMe (s : State) (u : Nat) (f : Ctx → Ctx) : ((s.modMe f).tile u).acc = (s.tile u).acc := State.acc_tile_modCtx ..
@[simp] theorem State.acc_myTile_modMe (s : State) (f : Ctx → Ctx) : (s.modMe f).myTile.acc = s.myTile.acc := State.acc_tile_modCtx ..
@[simp] theorem State.accPoison_tile_modMe (s : State) (u : Nat) (f : Ctx → Ctx) : ((s.modMe f).tile u).accPoison = (s.tile u).accPoison := State.accPoison_tile_modCtx ..
@[simp] theorem State.accPoison_myTile_modMe (s : State) (f : Ctx → Ctx) : (s.modMe f).myTile.accPoison = s.myTile.accPoison := State.accPoison_tile_modCtx ..
@[simp] theorem State.accFmt_tile_modMe (s : State) (u : Nat) (f : Ctx → Ctx) : ((s.modMe f).tile u).accFmt = (s.tile u).accFmt := State.accFmt_tile_modCtx ..
@[simp] theorem State.accFmt_myTile_modMe (s : State) (f : Ctx → Ctx) : (s.modMe f).myTile.accFmt = s.myTile.accFmt := State.accFmt_tile_modCtx ..
@[simp] theorem State.trapBase_tile_modMe (s : State) (u : Nat) (f : Ctx → Ctx) : ((s.modMe f).tile u).trapBase = (s.tile u).trapBase := State.trapBase_tile_modCtx ..
@[simp] theorem State.trapBase_myTile_modMe (s : State) (f : Ctx → Ctx) : (s.modMe f).myTile.trapBase = s.myTile.trapBase := State.trapBase_tile_modCtx ..
@[simp] theorem State.budget_tile_modMe (s : State) (u : Nat) (f : Ctx → Ctx) : ((s.modMe f).tile u).budget = (s.tile u).budget := State.budget_tile_modCtx ..
@[simp] theorem State.budget_myTile_modMe (s : State) (f : Ctx → Ctx) : (s.modMe f).myTile.budget = s.myTile.budget := State.budget_tile_modCtx ..
@[simp] theorem State.wrOld_tile_modMe (s : State) (u : Nat) (f : Ctx → Ctx) : ((s.modMe f).tile u).wrOld = (s.tile u).wrOld := State.wrOld_tile_modCtx ..
@[simp] theorem State.wrOld_myTile_modMe (s : State) (f : Ctx → Ctx) : (s.modMe f).myTile.wrOld = s.myTile.wrOld := State.wrOld_tile_modCtx ..
@[simp] theorem State.charges_tile_modMe (s : State) (u : Nat) (f : Ctx → Ctx) : ((s.modMe f).tile u).charges = (s.tile u).charges := State.charges_tile_modCtx ..
@[simp] theorem State.charges_myTile_modMe (s : State) (f : Ctx → Ctx) : (s.modMe f).myTile.charges = s.myTile.charges := State.charges_tile_modCtx ..
@[simp] theorem State.pledged_tile_modMe (s : State) (u : Nat) (f : Ctx → Ctx) : ((s.modMe f).tile u).pledged = (s.tile u).pledged := State.pledged_tile_modCtx ..
@[simp] theorem State.pledged_myTile_modMe (s : State) (f : Ctx → Ctx) : (s.modMe f).myTile.pledged = s.myTile.pledged := State.pledged_tile_modCtx ..
@[simp] theorem State.hold_tile_modMe (s : State) (u : Nat) (f : Ctx → Ctx) : ((s.modMe f).tile u).hold = (s.tile u).hold := State.hold_tile_modCtx ..
@[simp] theorem State.hold_myTile_modMe (s : State) (f : Ctx → Ctx) : (s.modMe f).myTile.hold = s.myTile.hold := State.hold_tile_modCtx ..
@[simp] theorem State.grp_tile_modMe (s : State) (u : Nat) (f : Ctx → Ctx) : ((s.modMe f).tile u).grp = (s.tile u).grp := State.grp_tile_modCtx ..
@[simp] theorem State.grp_myTile_modMe (s : State) (f : Ctx → Ctx) : (s.modMe f).myTile.grp = s.myTile.grp := State.grp_tile_modCtx ..
@[simp] theorem State.latch_tile_modMe (s : State) (u : Nat) (f : Ctx → Ctx) : ((s.modMe f).tile u).latch = (s.tile u).latch := State.latch_tile_modCtx ..
@[simp] theorem State.latch_myTile_modMe (s : State) (f : Ctx → Ctx) : (s.modMe f).myTile.latch = s.myTile.latch := State.latch_tile_modCtx ..
@[simp] theorem State.cancels_tile_modMe (s : State) (u : Nat) (f : Ctx → Ctx) : ((s.modMe f).tile u).cancels = (s.tile u).cancels := State.cancels_tile_modCtx ..
@[simp] theorem State.cancels_myTile_modMe (s : State) (f : Ctx → Ctx) : (s.modMe f).myTile.cancels = s.myTile.cancels := State.cancels_tile_modCtx ..
@[simp] theorem State.regs_tile_modMe (s : State) (u : Nat) (f : Ctx → Ctx) : ((s.modMe f).tile u).regs = (s.tile u).regs := State.regs_tile_modCtx ..
@[simp] theorem State.regs_myTile_modMe (s : State) (f : Ctx → Ctx) : (s.modMe f).myTile.regs = s.myTile.regs := State.regs_tile_modCtx ..
@[simp] theorem State.ready_tile_modMe (s : State) (u : Nat) (f : Ctx → Ctx) : ((s.modMe f).tile u).ready = (s.tile u).ready := State.ready_tile_modCtx ..
@[simp] theorem State.ready_myTile_modMe (s : State) (f : Ctx → Ctx) : (s.modMe f).myTile.ready = s.myTile.ready := State.ready_tile_modCtx ..
@[simp] theorem State.dep_tile_modMe (s : State) (u : Nat) (f : Ctx → Ctx) : ((s.modMe f).tile u).dep = (s.tile u).dep := State.dep_tile_modCtx ..
@[simp] theorem State.dep_myTile_modMe (s : State) (f : Ctx → Ctx) : (s.modMe f).myTile.dep = s.myTile.dep := State.dep_tile_modCtx ..
@[simp] theorem State.res_tile_modMe (s : State) (u : Nat) (f : Ctx → Ctx) : ((s.modMe f).tile u).res = (s.tile u).res := State.res_tile_modCtx ..
@[simp] theorem State.res_myTile_modMe (s : State) (f : Ctx → Ctx) : (s.modMe f).myTile.res = s.myTile.res := State.res_tile_modCtx ..
@[simp] theorem State.nextAcc_tile_modMe (s : State) (u : Nat) (f : Ctx → Ctx) : ((s.modMe f).tile u).nextAcc = (s.tile u).nextAcc := State.nextAcc_tile_modCtx ..
@[simp] theorem State.nextAcc_myTile_modMe (s : State) (f : Ctx → Ctx) : (s.modMe f).myTile.nextAcc = s.myTile.nextAcc := State.nextAcc_tile_modCtx ..
@[simp] theorem State.queues_tile_modMe (s : State) (u : Nat) (f : Ctx → Ctx) : ((s.modMe f).tile u).queues = (s.tile u).queues := State.queues_tile_modCtx ..
@[simp] theorem State.queues_myTile_modMe (s : State) (f : Ctx → Ctx) : (s.modMe f).myTile.queues = s.myTile.queues := State.queues_tile_modCtx ..
@[simp] theorem State.nextId_tile_modMe (s : State) (u : Nat) (f : Ctx → Ctx) : ((s.modMe f).tile u).nextId = (s.tile u).nextId := State.nextId_tile_modCtx ..
@[simp] theorem State.nextId_myTile_modMe (s : State) (f : Ctx → Ctx) : (s.modMe f).myTile.nextId = s.myTile.nextId := State.nextId_tile_modCtx ..
@[simp] theorem State.score_tile_modMe (s : State) (u : Nat) (f : Ctx → Ctx) : ((s.modMe f).tile u).score = (s.tile u).score := State.score_tile_modCtx ..
@[simp] theorem State.score_myTile_modMe (s : State) (f : Ctx → Ctx) : (s.modMe f).myTile.score = s.myTile.score := State.score_tile_modCtx ..
@[simp] theorem State.engines_tile_modMe (s : State) (u : Nat) (f : Ctx → Ctx) : ((s.modMe f).tile u).engines = (s.tile u).engines := State.engines_tile_modCtx ..
@[simp] theorem State.engines_myTile_modMe (s : State) (f : Ctx → Ctx) : (s.modMe f).myTile.engines = s.myTile.engines := State.engines_tile_modCtx ..
@[simp] theorem State.ips_tile_modMe (s : State) (u : Nat) (f : Ctx → Ctx) : ((s.modMe f).tile u).ips = (s.tile u).ips := State.ips_tile_modCtx ..
@[simp] theorem State.ips_myTile_modMe (s : State) (f : Ctx → Ctx) : (s.modMe f).myTile.ips = s.myTile.ips := State.ips_tile_modCtx ..
@[simp] theorem State.eps_tile_modMe (s : State) (u : Nat) (f : Ctx → Ctx) : ((s.modMe f).tile u).eps = (s.tile u).eps := State.eps_tile_modCtx ..
@[simp] theorem State.eps_myTile_modMe (s : State) (f : Ctx → Ctx) : (s.modMe f).myTile.eps = s.myTile.eps := State.eps_tile_modCtx ..
@[simp] theorem State.gbufs_tile_modMe (s : State) (u : Nat) (f : Ctx → Ctx) : ((s.modMe f).tile u).gbufs = (s.tile u).gbufs := State.gbufs_tile_modCtx ..
@[simp] theorem State.gbufs_myTile_modMe (s : State) (f : Ctx → Ctx) : (s.modMe f).myTile.gbufs = s.myTile.gbufs := State.gbufs_tile_modCtx ..
@[simp] theorem State.trks_tile_modMe (s : State) (u : Nat) (f : Ctx → Ctx) : ((s.modMe f).tile u).trks = (s.tile u).trks := State.trks_tile_modCtx ..
@[simp] theorem State.trks_myTile_modMe (s : State) (f : Ctx → Ctx) : (s.modMe f).myTile.trks = s.myTile.trks := State.trks_tile_modCtx ..
@[simp] theorem State.etrks_tile_modMe (s : State) (u : Nat) (f : Ctx → Ctx) : ((s.modMe f).tile u).etrks = (s.tile u).etrks := State.etrks_tile_modCtx ..
@[simp] theorem State.etrks_myTile_modMe (s : State) (f : Ctx → Ctx) : (s.modMe f).myTile.etrks = s.myTile.etrks := State.etrks_tile_modCtx ..
@[simp] theorem State.claims_tile_modMe (s : State) (u : Nat) (f : Ctx → Ctx) : ((s.modMe f).tile u).claims = (s.tile u).claims := State.claims_tile_modCtx ..
@[simp] theorem State.claims_myTile_modMe (s : State) (f : Ctx → Ctx) : (s.modMe f).myTile.claims = s.myTile.claims := State.claims_tile_modCtx ..
@[simp] theorem State.drainToks_tile_modMe (s : State) (u : Nat) (f : Ctx → Ctx) : ((s.modMe f).tile u).drainToks = (s.tile u).drainToks := State.drainToks_tile_modCtx ..
@[simp] theorem State.drainToks_myTile_modMe (s : State) (f : Ctx → Ctx) : (s.modMe f).myTile.drainToks = s.myTile.drainToks := State.drainToks_tile_modCtx ..
@[simp] theorem State.live_tile_modMe (s : State) (u : Nat) (f : Ctx → Ctx) : ((s.modMe f).tile u).live = (s.tile u).live := State.live_tile_modCtx ..
@[simp] theorem State.live_myTile_modMe (s : State) (f : Ctx → Ctx) : (s.modMe f).myTile.live = s.myTile.live := State.live_tile_modCtx ..
@[simp] theorem State.shadow_tile_modMe (s : State) (u : Nat) (f : Ctx → Ctx) : ((s.modMe f).tile u).shadow = (s.tile u).shadow := State.shadow_tile_modCtx ..
@[simp] theorem State.shadow_myTile_modMe (s : State) (f : Ctx → Ctx) : (s.modMe f).myTile.shadow = s.myTile.shadow := State.shadow_tile_modCtx ..
@[simp] theorem State.loads_tile_modMe (s : State) (u : Nat) (f : Ctx → Ctx) : ((s.modMe f).tile u).loads = (s.tile u).loads := State.loads_tile_modCtx ..
@[simp] theorem State.loads_myTile_modMe (s : State) (f : Ctx → Ctx) : (s.modMe f).myTile.loads = s.myTile.loads := State.loads_tile_modCtx ..
@[simp] theorem State.sweeps_tile_modMe (s : State) (u : Nat) (f : Ctx → Ctx) : ((s.modMe f).tile u).sweeps = (s.tile u).sweeps := State.sweeps_tile_modCtx ..
@[simp] theorem State.sweeps_myTile_modMe (s : State) (f : Ctx → Ctx) : (s.modMe f).myTile.sweeps = s.myTile.sweeps := State.sweeps_tile_modCtx ..
@[simp] theorem State.strays_tile_modMe (s : State) (u : Nat) (f : Ctx → Ctx) : ((s.modMe f).tile u).strays = (s.tile u).strays := State.strays_tile_modCtx ..
@[simp] theorem State.strays_myTile_modMe (s : State) (f : Ctx → Ctx) : (s.modMe f).myTile.strays = s.myTile.strays := State.strays_tile_modCtx ..
@[simp] theorem State.runs_tile_modMe (s : State) (u : Nat) (f : Ctx → Ctx) : ((s.modMe f).tile u).runs = (s.tile u).runs := State.runs_tile_modCtx ..
@[simp] theorem State.runs_myTile_modMe (s : State) (f : Ctx → Ctx) : (s.modMe f).myTile.runs = s.myTile.runs := State.runs_tile_modCtx ..
@[simp] theorem State.scanned_tile_modMe (s : State) (u : Nat) (f : Ctx → Ctx) : ((s.modMe f).tile u).scanned = (s.tile u).scanned := State.scanned_tile_modCtx ..
@[simp] theorem State.scanned_myTile_modMe (s : State) (f : Ctx → Ctx) : (s.modMe f).myTile.scanned = s.myTile.scanned := State.scanned_tile_modCtx ..
@[simp] theorem State.aside_tile_modMe (s : State) (u : Nat) (f : Ctx → Ctx) : ((s.modMe f).tile u).aside = (s.tile u).aside := State.aside_tile_modCtx ..
@[simp] theorem State.aside_myTile_modMe (s : State) (f : Ctx → Ctx) : (s.modMe f).myTile.aside = s.myTile.aside := State.aside_tile_modCtx ..
@[simp] theorem State.ranked_tile_modMe (s : State) (u : Nat) (f : Ctx → Ctx) : ((s.modMe f).tile u).ranked = (s.tile u).ranked := State.ranked_tile_modCtx ..
@[simp] theorem State.ranked_myTile_modMe (s : State) (f : Ctx → Ctx) : (s.modMe f).myTile.ranked = s.myTile.ranked := State.ranked_tile_modCtx ..
@[simp] theorem State.array_tile_modMe (s : State) (u : Nat) (f : Ctx → Ctx) : ((s.modMe f).tile u).array = (s.tile u).array := State.array_tile_modCtx ..
@[simp] theorem State.array_myTile_modMe (s : State) (f : Ctx → Ctx) : (s.modMe f).myTile.array = s.myTile.array := State.array_tile_modCtx ..
@[simp] theorem State.msgs_tile_modMe (s : State) (u : Nat) (f : Ctx → Ctx) : ((s.modMe f).tile u).msgs = (s.tile u).msgs := State.msgs_tile_modCtx ..
@[simp] theorem State.msgs_myTile_modMe (s : State) (f : Ctx → Ctx) : (s.modMe f).myTile.msgs = s.myTile.msgs := State.msgs_tile_modCtx ..
@[simp] theorem State.msgOver_tile_modMe (s : State) (u : Nat) (f : Ctx → Ctx) : ((s.modMe f).tile u).msgOver = (s.tile u).msgOver := State.msgOver_tile_modCtx ..
@[simp] theorem State.msgOver_myTile_modMe (s : State) (f : Ctx → Ctx) : (s.modMe f).myTile.msgOver = s.myTile.msgOver := State.msgOver_tile_modCtx ..
@[simp] theorem State.sentMsgs_tile_modMe (s : State) (u : Nat) (f : Ctx → Ctx) : ((s.modMe f).tile u).sentMsgs = (s.tile u).sentMsgs := State.sentMsgs_tile_modCtx ..
@[simp] theorem State.sentMsgs_myTile_modMe (s : State) (f : Ctx → Ctx) : (s.modMe f).myTile.sentMsgs = s.myTile.sentMsgs := State.sentMsgs_tile_modCtx ..
@[simp] theorem State.remoteQ_tile_modMe (s : State) (u : Nat) (f : Ctx → Ctx) : ((s.modMe f).tile u).remoteQ = (s.tile u).remoteQ := State.remoteQ_tile_modCtx ..
@[simp] theorem State.remoteQ_myTile_modMe (s : State) (f : Ctx → Ctx) : (s.modMe f).myTile.remoteQ = s.myTile.remoteQ := State.remoteQ_tile_modCtx ..
@[simp] theorem State.tags_tile_modMe (s : State) (u : Nat) (f : Ctx → Ctx) : ((s.modMe f).tile u).tags = (s.tile u).tags := State.tags_tile_modCtx ..
@[simp] theorem State.tags_myTile_modMe (s : State) (f : Ctx → Ctx) : (s.modMe f).myTile.tags = s.myTile.tags := State.tags_tile_modCtx ..
@[simp] theorem State.injq_tile_modMe (s : State) (u : Nat) (f : Ctx → Ctx) : ((s.modMe f).tile u).injq = (s.tile u).injq := State.injq_tile_modCtx ..
@[simp] theorem State.injq_myTile_modMe (s : State) (f : Ctx → Ctx) : (s.modMe f).myTile.injq = s.myTile.injq := State.injq_tile_modCtx ..
@[simp] theorem State.intake_tile_modMe (s : State) (u : Nat) (f : Ctx → Ctx) : ((s.modMe f).tile u).intake = (s.tile u).intake := State.intake_tile_modCtx ..
@[simp] theorem State.intake_myTile_modMe (s : State) (f : Ctx → Ctx) : (s.modMe f).myTile.intake = s.myTile.intake := State.intake_tile_modCtx ..
@[simp] theorem State.allot_tile_modMe (s : State) (u : Nat) (f : Ctx → Ctx) : ((s.modMe f).tile u).allot = (s.tile u).allot := State.allot_tile_modCtx ..
@[simp] theorem State.allot_myTile_modMe (s : State) (f : Ctx → Ctx) : (s.modMe f).myTile.allot = s.myTile.allot := State.allot_tile_modCtx ..
@[simp] theorem State.router_tile_modMe (s : State) (u : Nat) (f : Ctx → Ctx) : ((s.modMe f).tile u).router = (s.tile u).router := State.router_tile_modCtx ..
@[simp] theorem State.router_myTile_modMe (s : State) (f : Ctx → Ctx) : (s.modMe f).myTile.router = s.myTile.router := State.router_tile_modCtx ..
@[simp] theorem State.gate_tile_modMe (s : State) (u : Nat) (f : Ctx → Ctx) : ((s.modMe f).tile u).gate = (s.tile u).gate := State.gate_tile_modCtx ..
@[simp] theorem State.gate_myTile_modMe (s : State) (f : Ctx → Ctx) : (s.modMe f).myTile.gate = s.myTile.gate := State.gate_tile_modCtx ..
@[simp] theorem State.reported_tile_modMe (s : State) (u : Nat) (f : Ctx → Ctx) : ((s.modMe f).tile u).reported = (s.tile u).reported := State.reported_tile_modCtx ..
@[simp] theorem State.reported_myTile_modMe (s : State) (f : Ctx → Ctx) : (s.modMe f).myTile.reported = s.myTile.reported := State.reported_tile_modCtx ..

/-! Registers of a context (R13). -/

@[simp] theorem Ctx.getX_zero (c : Ctx) : c.getX 0 = 0 := rfl
@[simp] theorem Ctx.getB_zero (c : Ctx) : c.getB 0 = true := rfl
@[simp] theorem Ctx.setX_zero (c : Ctx) (v : Word) : c.setX 0 v = c := rfl
@[simp] theorem Ctx.setB_zero (c : Ctx) (v : Bool) : c.setB 0 v = c := rfl
theorem Ctx.getX_setX (c : Ctx) {r : Nat} (h : r ≠ 0) (v : Word) : (c.setX r v).getX r = v := by simp [Ctx.getX, Ctx.setX, h]
theorem Ctx.getX_setX_ne (c : Ctx) {r k : Nat} (h : k ≠ r) (v : Word) : (c.setX r v).getX k = c.getX k := by
  by_cases hr : r = 0
  · simp [Ctx.setX, hr]
  · simp [Ctx.getX, Ctx.setX, hr, mget_mput_ne h]
theorem Ctx.getB_setB (c : Ctx) {r : Nat} (h : r ≠ 0) (v : Bool) : (c.setB r v).getB r = v := by simp [Ctx.getB, Ctx.setB, h]
theorem Ctx.getB_setB_ne (c : Ctx) {r k : Nat} (h : k ≠ r) (v : Bool) : (c.setB r v).getB k = c.getB k := by
  by_cases hr : r = 0
  · simp [Ctx.setB, hr]
  · simp [Ctx.getB, Ctx.setB, hr, mget_mput_ne h]
@[simp] theorem Ctx.getF_setF (c : Ctx) (r : Nat) (v : Word) : (c.setF r v).getF r = v := by simp [Ctx.getF, Ctx.setF]
theorem Ctx.getF_setF_ne (c : Ctx) {r k : Nat} (h : k ≠ r) (v : Word) : (c.setF r v).getF k = c.getF k := by simp [Ctx.getF, Ctx.setF, mget_mput_ne h]
@[simp] theorem Ctx.getP_setP (c : Ctx) (r : Nat) (v : BitVec 256) : (c.setP r v).getP r = v := by simp [Ctx.getP, Ctx.setP]
theorem Ctx.getP_setP_ne (c : Ctx) {r k : Nat} (h : k ≠ r) (v : BitVec 256) : (c.setP r v).getP k = c.getP k := by
  simp [Ctx.getP, Ctx.setP, mget_mput_ne h]

@[simp] theorem Ctx.task_setX (c : Ctx) (r : Nat) (v : Word) : (c.setX r v).task = c.task := by unfold Ctx.setX; split <;> rfl
@[simp] theorem Ctx.serial_setX (c : Ctx) (r : Nat) (v : Word) : (c.setX r v).serial = c.serial := by unfold Ctx.setX; split <;> rfl
@[simp] theorem Ctx.wait_setX (c : Ctx) (r : Nat) (v : Word) : (c.setX r v).wait = c.wait := by unfold Ctx.setX; split <;> rfl
@[simp] theorem Ctx.trap_setX (c : Ctx) (r : Nat) (v : Word) : (c.setX r v).trap = c.trap := by unfold Ctx.setX; split <;> rfl
@[simp] theorem Ctx.halted_setX (c : Ctx) (r : Nat) (v : Word) : (c.setX r v).halted = c.halted := by unfold Ctx.setX; split <;> rfl
@[simp] theorem Ctx.trapPc_setX (c : Ctx) (r : Nat) (v : Word) : (c.setX r v).trapPc = c.trapPc := by unfold Ctx.setX; split <;> rfl
@[simp] theorem Ctx.trapCause_setX (c : Ctx) (r : Nat) (v : Word) : (c.setX r v).trapCause = c.trapCause := by unfold Ctx.setX; split <;> rfl
@[simp] theorem Ctx.trapAddr_setX (c : Ctx) (r : Nat) (v : Word) : (c.setX r v).trapAddr = c.trapAddr := by unfold Ctx.setX; split <;> rfl
@[simp] theorem Ctx.trapAux_setX (c : Ctx) (r : Nat) (v : Word) : (c.setX r v).trapAux = c.trapAux := by unfold Ctx.setX; split <;> rfl
@[simp] theorem Ctx.quoteLim_setX (c : Ctx) (r : Nat) (v : Word) : (c.setX r v).quoteLim = c.quoteLim := by unfold Ctx.setX; split <;> rfl
@[simp] theorem Ctx.prio_setX (c : Ctx) (r : Nat) (v : Word) : (c.setX r v).prio = c.prio := by unfold Ctx.setX; split <;> rfl
@[simp] theorem Ctx.outs_setX (c : Ctx) (r : Nat) (v : Word) : (c.setX r v).outs = c.outs := by unfold Ctx.setX; split <;> rfl
@[simp] theorem Ctx.deferred_setX (c : Ctx) (r : Nat) (v : Word) : (c.setX r v).deferred = c.deferred := by unfold Ctx.setX; split <;> rfl
@[simp] theorem Ctx.cont_setX (c : Ctx) (r : Nat) (v : Word) : (c.setX r v).cont = c.cont := by unfold Ctx.setX; split <;> rfl
@[simp] theorem Ctx.bstat_setX (c : Ctx) (r : Nat) (v : Word) : (c.setX r v).bstat = c.bstat := by unfold Ctx.setX; split <;> rfl
@[simp] theorem Ctx.arriving_setX (c : Ctx) (r : Nat) (v : Word) : (c.setX r v).arriving = c.arriving := by unfold Ctx.setX; split <;> rfl
@[simp] theorem Ctx.lastPc_setX (c : Ctx) (r : Nat) (v : Word) : (c.setX r v).lastPc = c.lastPc := by unfold Ctx.setX; split <;> rfl
@[simp] theorem Ctx.spawnQ_setX (c : Ctx) (r : Nat) (v : Word) : (c.setX r v).spawnQ = c.spawnQ := by unfold Ctx.setX; split <;> rfl
@[simp] theorem Ctx.spawnAt_setX (c : Ctx) (r : Nat) (v : Word) : (c.setX r v).spawnAt = c.spawnAt := by unfold Ctx.setX; split <;> rfl
@[simp] theorem Ctx.killAt_setX (c : Ctx) (r : Nat) (v : Word) : (c.setX r v).killAt = c.killAt := by unfold Ctx.setX; split <;> rfl
@[simp] theorem Ctx.doom_setX (c : Ctx) (r : Nat) (v : Word) : (c.setX r v).doom = c.doom := by unfold Ctx.setX; split <;> rfl
@[simp] theorem Ctx.busy_setX (c : Ctx) (r : Nat) (v : Word) : (c.setX r v).busy = c.busy := by unfold Ctx.setX; split <;> rfl
@[simp] theorem Ctx.fflight_setX (c : Ctx) (r : Nat) (v : Word) : (c.setX r v).fflight = c.fflight := by unfold Ctx.setX; split <;> rfl
@[simp] theorem Ctx.age_setX (c : Ctx) (r : Nat) (v : Word) : (c.setX r v).age = c.age := by unfold Ctx.setX; split <;> rfl
@[simp] theorem Ctx.regs_f_setX (c : Ctx) (r : Nat) (v : Word) : (c.setX r v).regs.f = c.regs.f := by unfold Ctx.setX; split <;> rfl
@[simp] theorem Ctx.regs_b_setX (c : Ctx) (r : Nat) (v : Word) : (c.setX r v).regs.b = c.regs.b := by unfold Ctx.setX; split <;> rfl
@[simp] theorem Ctx.regs_p_setX (c : Ctx) (r : Nat) (v : Word) : (c.setX r v).regs.p = c.regs.p := by unfold Ctx.setX; split <;> rfl
@[simp] theorem Ctx.regs_pc_setX (c : Ctx) (r : Nat) (v : Word) : (c.setX r v).regs.pc = c.regs.pc := by unfold Ctx.setX; split <;> rfl
@[simp] theorem Ctx.regs_fmode_setX (c : Ctx) (r : Nat) (v : Word) : (c.setX r v).regs.fmode = c.regs.fmode := by unfold Ctx.setX; split <;> rfl
@[simp] theorem Ctx.regs_lssum_setX (c : Ctx) (r : Nat) (v : Word) : (c.setX r v).regs.lssum = c.regs.lssum := by unfold Ctx.setX; split <;> rfl
@[simp] theorem Ctx.regs_spineWin_setX (c : Ctx) (r : Nat) (v : Word) : (c.setX r v).regs.spineWin = c.regs.spineWin := by unfold Ctx.setX; split <;> rfl
@[simp] theorem Ctx.regs_spineAcc_setX (c : Ctx) (r : Nat) (v : Word) : (c.setX r v).regs.spineAcc = c.regs.spineAcc := by unfold Ctx.setX; split <;> rfl
@[simp] theorem Ctx.getF_setX (c : Ctx) (r : Nat) (v : Word) (k : Nat) : (c.setX r v).getF k = c.getF k := by simp [Ctx.getF]
@[simp] theorem Ctx.getB_setX (c : Ctx) (r : Nat) (v : Word) (k : Nat) : (c.setX r v).getB k = c.getB k := by simp [Ctx.getB]
@[simp] theorem Ctx.getP_setX (c : Ctx) (r : Nat) (v : Word) (k : Nat) : (c.setX r v).getP k = c.getP k := by simp [Ctx.getP]
@[simp] theorem Ctx.task_setB (c : Ctx) (r : Nat) (v : Bool) : (c.setB r v).task = c.task := by unfold Ctx.setB; split <;> rfl
@[simp] theorem Ctx.serial_setB (c : Ctx) (r : Nat) (v : Bool) : (c.setB r v).serial = c.serial := by unfold Ctx.setB; split <;> rfl
@[simp] theorem Ctx.wait_setB (c : Ctx) (r : Nat) (v : Bool) : (c.setB r v).wait = c.wait := by unfold Ctx.setB; split <;> rfl
@[simp] theorem Ctx.trap_setB (c : Ctx) (r : Nat) (v : Bool) : (c.setB r v).trap = c.trap := by unfold Ctx.setB; split <;> rfl
@[simp] theorem Ctx.halted_setB (c : Ctx) (r : Nat) (v : Bool) : (c.setB r v).halted = c.halted := by unfold Ctx.setB; split <;> rfl
@[simp] theorem Ctx.trapPc_setB (c : Ctx) (r : Nat) (v : Bool) : (c.setB r v).trapPc = c.trapPc := by unfold Ctx.setB; split <;> rfl
@[simp] theorem Ctx.trapCause_setB (c : Ctx) (r : Nat) (v : Bool) : (c.setB r v).trapCause = c.trapCause := by unfold Ctx.setB; split <;> rfl
@[simp] theorem Ctx.trapAddr_setB (c : Ctx) (r : Nat) (v : Bool) : (c.setB r v).trapAddr = c.trapAddr := by unfold Ctx.setB; split <;> rfl
@[simp] theorem Ctx.trapAux_setB (c : Ctx) (r : Nat) (v : Bool) : (c.setB r v).trapAux = c.trapAux := by unfold Ctx.setB; split <;> rfl
@[simp] theorem Ctx.quoteLim_setB (c : Ctx) (r : Nat) (v : Bool) : (c.setB r v).quoteLim = c.quoteLim := by unfold Ctx.setB; split <;> rfl
@[simp] theorem Ctx.prio_setB (c : Ctx) (r : Nat) (v : Bool) : (c.setB r v).prio = c.prio := by unfold Ctx.setB; split <;> rfl
@[simp] theorem Ctx.outs_setB (c : Ctx) (r : Nat) (v : Bool) : (c.setB r v).outs = c.outs := by unfold Ctx.setB; split <;> rfl
@[simp] theorem Ctx.deferred_setB (c : Ctx) (r : Nat) (v : Bool) : (c.setB r v).deferred = c.deferred := by unfold Ctx.setB; split <;> rfl
@[simp] theorem Ctx.cont_setB (c : Ctx) (r : Nat) (v : Bool) : (c.setB r v).cont = c.cont := by unfold Ctx.setB; split <;> rfl
@[simp] theorem Ctx.bstat_setB (c : Ctx) (r : Nat) (v : Bool) : (c.setB r v).bstat = c.bstat := by unfold Ctx.setB; split <;> rfl
@[simp] theorem Ctx.arriving_setB (c : Ctx) (r : Nat) (v : Bool) : (c.setB r v).arriving = c.arriving := by unfold Ctx.setB; split <;> rfl
@[simp] theorem Ctx.lastPc_setB (c : Ctx) (r : Nat) (v : Bool) : (c.setB r v).lastPc = c.lastPc := by unfold Ctx.setB; split <;> rfl
@[simp] theorem Ctx.spawnQ_setB (c : Ctx) (r : Nat) (v : Bool) : (c.setB r v).spawnQ = c.spawnQ := by unfold Ctx.setB; split <;> rfl
@[simp] theorem Ctx.spawnAt_setB (c : Ctx) (r : Nat) (v : Bool) : (c.setB r v).spawnAt = c.spawnAt := by unfold Ctx.setB; split <;> rfl
@[simp] theorem Ctx.killAt_setB (c : Ctx) (r : Nat) (v : Bool) : (c.setB r v).killAt = c.killAt := by unfold Ctx.setB; split <;> rfl
@[simp] theorem Ctx.doom_setB (c : Ctx) (r : Nat) (v : Bool) : (c.setB r v).doom = c.doom := by unfold Ctx.setB; split <;> rfl
@[simp] theorem Ctx.busy_setB (c : Ctx) (r : Nat) (v : Bool) : (c.setB r v).busy = c.busy := by unfold Ctx.setB; split <;> rfl
@[simp] theorem Ctx.fflight_setB (c : Ctx) (r : Nat) (v : Bool) : (c.setB r v).fflight = c.fflight := by unfold Ctx.setB; split <;> rfl
@[simp] theorem Ctx.age_setB (c : Ctx) (r : Nat) (v : Bool) : (c.setB r v).age = c.age := by unfold Ctx.setB; split <;> rfl
@[simp] theorem Ctx.regs_x_setB (c : Ctx) (r : Nat) (v : Bool) : (c.setB r v).regs.x = c.regs.x := by unfold Ctx.setB; split <;> rfl
@[simp] theorem Ctx.regs_f_setB (c : Ctx) (r : Nat) (v : Bool) : (c.setB r v).regs.f = c.regs.f := by unfold Ctx.setB; split <;> rfl
@[simp] theorem Ctx.regs_p_setB (c : Ctx) (r : Nat) (v : Bool) : (c.setB r v).regs.p = c.regs.p := by unfold Ctx.setB; split <;> rfl
@[simp] theorem Ctx.regs_pc_setB (c : Ctx) (r : Nat) (v : Bool) : (c.setB r v).regs.pc = c.regs.pc := by unfold Ctx.setB; split <;> rfl
@[simp] theorem Ctx.regs_fmode_setB (c : Ctx) (r : Nat) (v : Bool) : (c.setB r v).regs.fmode = c.regs.fmode := by unfold Ctx.setB; split <;> rfl
@[simp] theorem Ctx.regs_lssum_setB (c : Ctx) (r : Nat) (v : Bool) : (c.setB r v).regs.lssum = c.regs.lssum := by unfold Ctx.setB; split <;> rfl
@[simp] theorem Ctx.regs_spineWin_setB (c : Ctx) (r : Nat) (v : Bool) : (c.setB r v).regs.spineWin = c.regs.spineWin := by unfold Ctx.setB; split <;> rfl
@[simp] theorem Ctx.regs_spineAcc_setB (c : Ctx) (r : Nat) (v : Bool) : (c.setB r v).regs.spineAcc = c.regs.spineAcc := by unfold Ctx.setB; split <;> rfl
@[simp] theorem Ctx.getX_setB (c : Ctx) (r : Nat) (v : Bool) (k : Nat) : (c.setB r v).getX k = c.getX k := by simp [Ctx.getX]
@[simp] theorem Ctx.getF_setB (c : Ctx) (r : Nat) (v : Bool) (k : Nat) : (c.setB r v).getF k = c.getF k := by simp [Ctx.getF]
@[simp] theorem Ctx.getP_setB (c : Ctx) (r : Nat) (v : Bool) (k : Nat) : (c.setB r v).getP k = c.getP k := by simp [Ctx.getP]
@[simp] theorem Ctx.task_setF (c : Ctx) (r : Nat) (v : Word) : (c.setF r v).task = c.task := rfl
@[simp] theorem Ctx.serial_setF (c : Ctx) (r : Nat) (v : Word) : (c.setF r v).serial = c.serial := rfl
@[simp] theorem Ctx.wait_setF (c : Ctx) (r : Nat) (v : Word) : (c.setF r v).wait = c.wait := rfl
@[simp] theorem Ctx.trap_setF (c : Ctx) (r : Nat) (v : Word) : (c.setF r v).trap = c.trap := rfl
@[simp] theorem Ctx.halted_setF (c : Ctx) (r : Nat) (v : Word) : (c.setF r v).halted = c.halted := rfl
@[simp] theorem Ctx.trapPc_setF (c : Ctx) (r : Nat) (v : Word) : (c.setF r v).trapPc = c.trapPc := rfl
@[simp] theorem Ctx.trapCause_setF (c : Ctx) (r : Nat) (v : Word) : (c.setF r v).trapCause = c.trapCause := rfl
@[simp] theorem Ctx.trapAddr_setF (c : Ctx) (r : Nat) (v : Word) : (c.setF r v).trapAddr = c.trapAddr := rfl
@[simp] theorem Ctx.trapAux_setF (c : Ctx) (r : Nat) (v : Word) : (c.setF r v).trapAux = c.trapAux := rfl
@[simp] theorem Ctx.quoteLim_setF (c : Ctx) (r : Nat) (v : Word) : (c.setF r v).quoteLim = c.quoteLim := rfl
@[simp] theorem Ctx.prio_setF (c : Ctx) (r : Nat) (v : Word) : (c.setF r v).prio = c.prio := rfl
@[simp] theorem Ctx.outs_setF (c : Ctx) (r : Nat) (v : Word) : (c.setF r v).outs = c.outs := rfl
@[simp] theorem Ctx.deferred_setF (c : Ctx) (r : Nat) (v : Word) : (c.setF r v).deferred = c.deferred := rfl
@[simp] theorem Ctx.cont_setF (c : Ctx) (r : Nat) (v : Word) : (c.setF r v).cont = c.cont := rfl
@[simp] theorem Ctx.bstat_setF (c : Ctx) (r : Nat) (v : Word) : (c.setF r v).bstat = c.bstat := rfl
@[simp] theorem Ctx.arriving_setF (c : Ctx) (r : Nat) (v : Word) : (c.setF r v).arriving = c.arriving := rfl
@[simp] theorem Ctx.lastPc_setF (c : Ctx) (r : Nat) (v : Word) : (c.setF r v).lastPc = c.lastPc := rfl
@[simp] theorem Ctx.spawnQ_setF (c : Ctx) (r : Nat) (v : Word) : (c.setF r v).spawnQ = c.spawnQ := rfl
@[simp] theorem Ctx.spawnAt_setF (c : Ctx) (r : Nat) (v : Word) : (c.setF r v).spawnAt = c.spawnAt := rfl
@[simp] theorem Ctx.killAt_setF (c : Ctx) (r : Nat) (v : Word) : (c.setF r v).killAt = c.killAt := rfl
@[simp] theorem Ctx.doom_setF (c : Ctx) (r : Nat) (v : Word) : (c.setF r v).doom = c.doom := rfl
@[simp] theorem Ctx.busy_setF (c : Ctx) (r : Nat) (v : Word) : (c.setF r v).busy = c.busy := rfl
@[simp] theorem Ctx.fflight_setF (c : Ctx) (r : Nat) (v : Word) : (c.setF r v).fflight = c.fflight := rfl
@[simp] theorem Ctx.age_setF (c : Ctx) (r : Nat) (v : Word) : (c.setF r v).age = c.age := rfl
@[simp] theorem Ctx.regs_x_setF (c : Ctx) (r : Nat) (v : Word) : (c.setF r v).regs.x = c.regs.x := rfl
@[simp] theorem Ctx.regs_b_setF (c : Ctx) (r : Nat) (v : Word) : (c.setF r v).regs.b = c.regs.b := rfl
@[simp] theorem Ctx.regs_p_setF (c : Ctx) (r : Nat) (v : Word) : (c.setF r v).regs.p = c.regs.p := rfl
@[simp] theorem Ctx.regs_pc_setF (c : Ctx) (r : Nat) (v : Word) : (c.setF r v).regs.pc = c.regs.pc := rfl
@[simp] theorem Ctx.regs_fmode_setF (c : Ctx) (r : Nat) (v : Word) : (c.setF r v).regs.fmode = c.regs.fmode := rfl
@[simp] theorem Ctx.regs_lssum_setF (c : Ctx) (r : Nat) (v : Word) : (c.setF r v).regs.lssum = c.regs.lssum := rfl
@[simp] theorem Ctx.regs_spineWin_setF (c : Ctx) (r : Nat) (v : Word) : (c.setF r v).regs.spineWin = c.regs.spineWin := rfl
@[simp] theorem Ctx.regs_spineAcc_setF (c : Ctx) (r : Nat) (v : Word) : (c.setF r v).regs.spineAcc = c.regs.spineAcc := rfl
@[simp] theorem Ctx.getX_setF (c : Ctx) (r : Nat) (v : Word) (k : Nat) : (c.setF r v).getX k = c.getX k := by simp [Ctx.getX]
@[simp] theorem Ctx.getB_setF (c : Ctx) (r : Nat) (v : Word) (k : Nat) : (c.setF r v).getB k = c.getB k := by simp [Ctx.getB]
@[simp] theorem Ctx.getP_setF (c : Ctx) (r : Nat) (v : Word) (k : Nat) : (c.setF r v).getP k = c.getP k := by simp [Ctx.getP]
@[simp] theorem Ctx.task_setP (c : Ctx) (r : Nat) (v : BitVec 256) : (c.setP r v).task = c.task := rfl
@[simp] theorem Ctx.serial_setP (c : Ctx) (r : Nat) (v : BitVec 256) : (c.setP r v).serial = c.serial := rfl
@[simp] theorem Ctx.wait_setP (c : Ctx) (r : Nat) (v : BitVec 256) : (c.setP r v).wait = c.wait := rfl
@[simp] theorem Ctx.trap_setP (c : Ctx) (r : Nat) (v : BitVec 256) : (c.setP r v).trap = c.trap := rfl
@[simp] theorem Ctx.halted_setP (c : Ctx) (r : Nat) (v : BitVec 256) : (c.setP r v).halted = c.halted := rfl
@[simp] theorem Ctx.trapPc_setP (c : Ctx) (r : Nat) (v : BitVec 256) : (c.setP r v).trapPc = c.trapPc := rfl
@[simp] theorem Ctx.trapCause_setP (c : Ctx) (r : Nat) (v : BitVec 256) : (c.setP r v).trapCause = c.trapCause := rfl
@[simp] theorem Ctx.trapAddr_setP (c : Ctx) (r : Nat) (v : BitVec 256) : (c.setP r v).trapAddr = c.trapAddr := rfl
@[simp] theorem Ctx.trapAux_setP (c : Ctx) (r : Nat) (v : BitVec 256) : (c.setP r v).trapAux = c.trapAux := rfl
@[simp] theorem Ctx.quoteLim_setP (c : Ctx) (r : Nat) (v : BitVec 256) : (c.setP r v).quoteLim = c.quoteLim := rfl
@[simp] theorem Ctx.prio_setP (c : Ctx) (r : Nat) (v : BitVec 256) : (c.setP r v).prio = c.prio := rfl
@[simp] theorem Ctx.outs_setP (c : Ctx) (r : Nat) (v : BitVec 256) : (c.setP r v).outs = c.outs := rfl
@[simp] theorem Ctx.deferred_setP (c : Ctx) (r : Nat) (v : BitVec 256) : (c.setP r v).deferred = c.deferred := rfl
@[simp] theorem Ctx.cont_setP (c : Ctx) (r : Nat) (v : BitVec 256) : (c.setP r v).cont = c.cont := rfl
@[simp] theorem Ctx.bstat_setP (c : Ctx) (r : Nat) (v : BitVec 256) : (c.setP r v).bstat = c.bstat := rfl
@[simp] theorem Ctx.arriving_setP (c : Ctx) (r : Nat) (v : BitVec 256) : (c.setP r v).arriving = c.arriving := rfl
@[simp] theorem Ctx.lastPc_setP (c : Ctx) (r : Nat) (v : BitVec 256) : (c.setP r v).lastPc = c.lastPc := rfl
@[simp] theorem Ctx.spawnQ_setP (c : Ctx) (r : Nat) (v : BitVec 256) : (c.setP r v).spawnQ = c.spawnQ := rfl
@[simp] theorem Ctx.spawnAt_setP (c : Ctx) (r : Nat) (v : BitVec 256) : (c.setP r v).spawnAt = c.spawnAt := rfl
@[simp] theorem Ctx.killAt_setP (c : Ctx) (r : Nat) (v : BitVec 256) : (c.setP r v).killAt = c.killAt := rfl
@[simp] theorem Ctx.doom_setP (c : Ctx) (r : Nat) (v : BitVec 256) : (c.setP r v).doom = c.doom := rfl
@[simp] theorem Ctx.busy_setP (c : Ctx) (r : Nat) (v : BitVec 256) : (c.setP r v).busy = c.busy := rfl
@[simp] theorem Ctx.fflight_setP (c : Ctx) (r : Nat) (v : BitVec 256) : (c.setP r v).fflight = c.fflight := rfl
@[simp] theorem Ctx.age_setP (c : Ctx) (r : Nat) (v : BitVec 256) : (c.setP r v).age = c.age := rfl
@[simp] theorem Ctx.regs_x_setP (c : Ctx) (r : Nat) (v : BitVec 256) : (c.setP r v).regs.x = c.regs.x := rfl
@[simp] theorem Ctx.regs_f_setP (c : Ctx) (r : Nat) (v : BitVec 256) : (c.setP r v).regs.f = c.regs.f := rfl
@[simp] theorem Ctx.regs_b_setP (c : Ctx) (r : Nat) (v : BitVec 256) : (c.setP r v).regs.b = c.regs.b := rfl
@[simp] theorem Ctx.regs_pc_setP (c : Ctx) (r : Nat) (v : BitVec 256) : (c.setP r v).regs.pc = c.regs.pc := rfl
@[simp] theorem Ctx.regs_fmode_setP (c : Ctx) (r : Nat) (v : BitVec 256) : (c.setP r v).regs.fmode = c.regs.fmode := rfl
@[simp] theorem Ctx.regs_lssum_setP (c : Ctx) (r : Nat) (v : BitVec 256) : (c.setP r v).regs.lssum = c.regs.lssum := rfl
@[simp] theorem Ctx.regs_spineWin_setP (c : Ctx) (r : Nat) (v : BitVec 256) : (c.setP r v).regs.spineWin = c.regs.spineWin := rfl
@[simp] theorem Ctx.regs_spineAcc_setP (c : Ctx) (r : Nat) (v : BitVec 256) : (c.setP r v).regs.spineAcc = c.regs.spineAcc := rfl
@[simp] theorem Ctx.getX_setP (c : Ctx) (r : Nat) (v : BitVec 256) (k : Nat) : (c.setP r v).getX k = c.getX k := by simp [Ctx.getX]
@[simp] theorem Ctx.getF_setP (c : Ctx) (r : Nat) (v : BitVec 256) (k : Nat) : (c.setP r v).getF k = c.getF k := by simp [Ctx.getF]
@[simp] theorem Ctx.getB_setP (c : Ctx) (r : Nat) (v : BitVec 256) (k : Nat) : (c.setP r v).getB k = c.getB k := by simp [Ctx.getB]
@[simp] theorem Ctx.task_setPc (c : Ctx) (v : Word) : (c.setPc v).task = c.task := rfl
@[simp] theorem Ctx.serial_setPc (c : Ctx) (v : Word) : (c.setPc v).serial = c.serial := rfl
@[simp] theorem Ctx.wait_setPc (c : Ctx) (v : Word) : (c.setPc v).wait = c.wait := rfl
@[simp] theorem Ctx.trap_setPc (c : Ctx) (v : Word) : (c.setPc v).trap = c.trap := rfl
@[simp] theorem Ctx.halted_setPc (c : Ctx) (v : Word) : (c.setPc v).halted = c.halted := rfl
@[simp] theorem Ctx.trapPc_setPc (c : Ctx) (v : Word) : (c.setPc v).trapPc = c.trapPc := rfl
@[simp] theorem Ctx.trapCause_setPc (c : Ctx) (v : Word) : (c.setPc v).trapCause = c.trapCause := rfl
@[simp] theorem Ctx.trapAddr_setPc (c : Ctx) (v : Word) : (c.setPc v).trapAddr = c.trapAddr := rfl
@[simp] theorem Ctx.trapAux_setPc (c : Ctx) (v : Word) : (c.setPc v).trapAux = c.trapAux := rfl
@[simp] theorem Ctx.quoteLim_setPc (c : Ctx) (v : Word) : (c.setPc v).quoteLim = c.quoteLim := rfl
@[simp] theorem Ctx.prio_setPc (c : Ctx) (v : Word) : (c.setPc v).prio = c.prio := rfl
@[simp] theorem Ctx.outs_setPc (c : Ctx) (v : Word) : (c.setPc v).outs = c.outs := rfl
@[simp] theorem Ctx.deferred_setPc (c : Ctx) (v : Word) : (c.setPc v).deferred = c.deferred := rfl
@[simp] theorem Ctx.cont_setPc (c : Ctx) (v : Word) : (c.setPc v).cont = c.cont := rfl
@[simp] theorem Ctx.bstat_setPc (c : Ctx) (v : Word) : (c.setPc v).bstat = c.bstat := rfl
@[simp] theorem Ctx.arriving_setPc (c : Ctx) (v : Word) : (c.setPc v).arriving = c.arriving := rfl
@[simp] theorem Ctx.lastPc_setPc (c : Ctx) (v : Word) : (c.setPc v).lastPc = c.lastPc := rfl
@[simp] theorem Ctx.spawnQ_setPc (c : Ctx) (v : Word) : (c.setPc v).spawnQ = c.spawnQ := rfl
@[simp] theorem Ctx.spawnAt_setPc (c : Ctx) (v : Word) : (c.setPc v).spawnAt = c.spawnAt := rfl
@[simp] theorem Ctx.killAt_setPc (c : Ctx) (v : Word) : (c.setPc v).killAt = c.killAt := rfl
@[simp] theorem Ctx.doom_setPc (c : Ctx) (v : Word) : (c.setPc v).doom = c.doom := rfl
@[simp] theorem Ctx.busy_setPc (c : Ctx) (v : Word) : (c.setPc v).busy = c.busy := rfl
@[simp] theorem Ctx.fflight_setPc (c : Ctx) (v : Word) : (c.setPc v).fflight = c.fflight := rfl
@[simp] theorem Ctx.age_setPc (c : Ctx) (v : Word) : (c.setPc v).age = c.age := rfl
@[simp] theorem Ctx.regs_x_setPc (c : Ctx) (v : Word) : (c.setPc v).regs.x = c.regs.x := rfl
@[simp] theorem Ctx.regs_f_setPc (c : Ctx) (v : Word) : (c.setPc v).regs.f = c.regs.f := rfl
@[simp] theorem Ctx.regs_b_setPc (c : Ctx) (v : Word) : (c.setPc v).regs.b = c.regs.b := rfl
@[simp] theorem Ctx.regs_p_setPc (c : Ctx) (v : Word) : (c.setPc v).regs.p = c.regs.p := rfl
@[simp] theorem Ctx.regs_fmode_setPc (c : Ctx) (v : Word) : (c.setPc v).regs.fmode = c.regs.fmode := rfl
@[simp] theorem Ctx.regs_lssum_setPc (c : Ctx) (v : Word) : (c.setPc v).regs.lssum = c.regs.lssum := rfl
@[simp] theorem Ctx.regs_spineWin_setPc (c : Ctx) (v : Word) : (c.setPc v).regs.spineWin = c.regs.spineWin := rfl
@[simp] theorem Ctx.regs_spineAcc_setPc (c : Ctx) (v : Word) : (c.setPc v).regs.spineAcc = c.regs.spineAcc := rfl
@[simp] theorem Ctx.getX_setPc (c : Ctx) (v : Word) (k : Nat) : (c.setPc v).getX k = c.getX k := by simp [Ctx.getX]
@[simp] theorem Ctx.getF_setPc (c : Ctx) (v : Word) (k : Nat) : (c.setPc v).getF k = c.getF k := by simp [Ctx.getF]
@[simp] theorem Ctx.getB_setPc (c : Ctx) (v : Word) (k : Nat) : (c.setPc v).getB k = c.getB k := by simp [Ctx.getB]
@[simp] theorem Ctx.getP_setPc (c : Ctx) (v : Word) (k : Nat) : (c.setPc v).getP k = c.getP k := by simp [Ctx.getP]
@[simp] theorem Ctx.regs_pc_setPc_self (c : Ctx) (v : Word) : (c.setPc v).regs.pc = v := rfl

/-! Registers of the issuing context. -/

@[simp] theorem State.getX_zero (s : State) : s.getX 0 = 0 := rfl
@[simp] theorem State.nx_zero (s : State) : s.nx 0 = 0 := rfl
@[simp] theorem State.getB_zero (s : State) : s.getB 0 = true := rfl
theorem State.getX_setX (s : State) {r : Nat} (h : r ≠ 0) (v : Word) : (s.setX r v).getX r = v := by simp [State.getX, State.setX, Ctx.getX_setX _ h]
theorem State.getX_setX_ne (s : State) {r k : Nat} (h : k ≠ r) (v : Word) : (s.setX r v).getX k = s.getX k := by
  simp [State.getX, State.setX, Ctx.getX_setX_ne _ h]
theorem State.getB_setB (s : State) {r : Nat} (h : r ≠ 0) (v : Bool) : (s.setB r v).getB r = v := by simp [State.getB, State.setB, Ctx.getB_setB _ h]
theorem State.getB_setB_ne (s : State) {r k : Nat} (h : k ≠ r) (v : Bool) : (s.setB r v).getB k = s.getB k := by
  simp [State.getB, State.setB, Ctx.getB_setB_ne _ h]
@[simp] theorem State.getF_setF (s : State) (r : Nat) (v : Word) : (s.setF r v).getF r = v := by simp [State.getF, State.setF]
theorem State.getF_setF_ne (s : State) {r k : Nat} (h : k ≠ r) (v : Word) : (s.setF r v).getF k = s.getF k := by
  simp [State.getF, State.setF, Ctx.getF_setF_ne _ h]
@[simp] theorem State.getP_setP (s : State) (r : Nat) (v : BitVec 256) : (s.setP r v).getP r = v := by simp [State.getP, State.setP]
theorem State.getP_setP_ne (s : State) {r k : Nat} (h : k ≠ r) (v : BitVec 256) : (s.setP r v).getP k = s.getP k := by
  simp [State.getP, State.setP, Ctx.getP_setP_ne _ h]

@[simp] theorem State.getF_setX (s : State) (r : Nat) (v : Word) (k : Nat) : (s.setX r v).getF k = s.getF k := by simp [State.getF, State.setX]
@[simp] theorem State.getB_setX (s : State) (r : Nat) (v : Word) (k : Nat) : (s.setX r v).getB k = s.getB k := by simp [State.getB, State.setX]
@[simp] theorem State.getP_setX (s : State) (r : Nat) (v : Word) (k : Nat) : (s.setX r v).getP k = s.getP k := by simp [State.getP, State.setX]
@[simp] theorem State.pc_setX (s : State) (r : Nat) (v : Word) : (s.setX r v).pc = s.pc := by simp [State.pc, State.setX]
@[simp] theorem State.getX_setB (s : State) (r : Nat) (v : Bool) (k : Nat) : (s.setB r v).getX k = s.getX k := by simp [State.getX, State.setB]
@[simp] theorem State.getF_setB (s : State) (r : Nat) (v : Bool) (k : Nat) : (s.setB r v).getF k = s.getF k := by simp [State.getF, State.setB]
@[simp] theorem State.getP_setB (s : State) (r : Nat) (v : Bool) (k : Nat) : (s.setB r v).getP k = s.getP k := by simp [State.getP, State.setB]
@[simp] theorem State.pc_setB (s : State) (r : Nat) (v : Bool) : (s.setB r v).pc = s.pc := by simp [State.pc, State.setB]
@[simp] theorem State.getX_setF (s : State) (r : Nat) (v : Word) (k : Nat) : (s.setF r v).getX k = s.getX k := by simp [State.getX, State.setF]
@[simp] theorem State.getB_setF (s : State) (r : Nat) (v : Word) (k : Nat) : (s.setF r v).getB k = s.getB k := by simp [State.getB, State.setF]
@[simp] theorem State.getP_setF (s : State) (r : Nat) (v : Word) (k : Nat) : (s.setF r v).getP k = s.getP k := by simp [State.getP, State.setF]
@[simp] theorem State.pc_setF (s : State) (r : Nat) (v : Word) : (s.setF r v).pc = s.pc := by simp [State.pc, State.setF]
@[simp] theorem State.getX_setP (s : State) (r : Nat) (v : BitVec 256) (k : Nat) : (s.setP r v).getX k = s.getX k := by simp [State.getX, State.setP]
@[simp] theorem State.getF_setP (s : State) (r : Nat) (v : BitVec 256) (k : Nat) : (s.setP r v).getF k = s.getF k := by simp [State.getF, State.setP]
@[simp] theorem State.getB_setP (s : State) (r : Nat) (v : BitVec 256) (k : Nat) : (s.setP r v).getB k = s.getB k := by simp [State.getB, State.setP]
@[simp] theorem State.pc_setP (s : State) (r : Nat) (v : BitVec 256) : (s.setP r v).pc = s.pc := by simp [State.pc, State.setP]
@[simp] theorem State.getX_setPc (s : State) (v : Word) (k : Nat) : (s.setPc v).getX k = s.getX k := by simp [State.getX, State.setPc]
@[simp] theorem State.getF_setPc (s : State) (v : Word) (k : Nat) : (s.setPc v).getF k = s.getF k := by simp [State.getF, State.setPc]
@[simp] theorem State.getB_setPc (s : State) (v : Word) (k : Nat) : (s.setPc v).getB k = s.getB k := by simp [State.getB, State.setPc]
@[simp] theorem State.getP_setPc (s : State) (v : Word) (k : Nat) : (s.setPc v).getP k = s.getP k := by simp [State.getP, State.setPc]
@[simp] theorem State.pc_setPc (s : State) (v : Word) : (s.setPc v).pc = v := by simp [State.pc, State.setPc]
@[simp] theorem State.pc_advance (s : State) : s.advance.pc = s.pc + 8 := by simp [State.advance]
@[simp] theorem State.getX_advance (s : State) (k : Nat) : s.advance.getX k = s.getX k := by simp [State.advance]
@[simp] theorem State.getF_advance (s : State) (k : Nat) : s.advance.getF k = s.getF k := by simp [State.advance]
@[simp] theorem State.getB_advance (s : State) (k : Nat) : s.advance.getB k = s.getB k := by simp [State.advance]
@[simp] theorem State.getP_advance (s : State) (k : Nat) : s.advance.getP k = s.getP k := by simp [State.advance]

/-! Memory under an update of contexts: no byte changes. -/

theorem State.homeStore_modCtx (s : State) (t c : Nat) (f : Ctx → Ctx) (h : Home) : (s.modCtx t c f).homeStore h = s.homeStore h := by
  cases h <;> simp [State.homeStore, State.die]

@[simp] theorem State.readHome_modCtx (s : State) (t c : Nat) (f : Ctx → Ctx) (h : Home) (n : Nat) : (s.modCtx t c f).readHome h n = s.readHome h n := by
  simp [State.readHome, State.homeStore_modCtx]

@[simp] theorem State.readHome_setX (s : State) (r : Nat) (v : Word) (h : Home) (n : Nat) : (s.setX r v).readHome h n = s.readHome h n := s.readHome_modCtx ..
@[simp] theorem State.readHome_setB (s : State) (r : Nat) (v : Bool) (h : Home) (n : Nat) : (s.setB r v).readHome h n = s.readHome h n := s.readHome_modCtx ..
@[simp] theorem State.readHome_setF (s : State) (r : Nat) (v : Word) (h : Home) (n : Nat) : (s.setF r v).readHome h n = s.readHome h n := s.readHome_modCtx ..
@[simp] theorem State.readHome_setP (s : State) (r : Nat) (v : BitVec 256) (h : Home) (n : Nat) : (s.setP r v).readHome h n = s.readHome h n := s.readHome_modCtx ..
@[simp] theorem State.readHome_setPc (s : State) (v : Word) (h : Home) (n : Nat) : (s.setPc v).readHome h n = s.readHome h n := s.readHome_modCtx ..
@[simp] theorem State.readHome_modMe (s : State) (f : Ctx → Ctx) (h : Home) (n : Nat) : (s.modMe f).readHome h n = s.readHome h n := s.readHome_modCtx ..
@[simp] theorem State.readHome_advance (s : State) (h : Home) (n : Nat) : s.advance.readHome h n = s.readHome h n := s.readHome_modCtx ..

/-- An update of a tile that keeps its memories changes no byte. -/
theorem State.readHome_modTile (s : State) (t : Nat) (f : Tile → Tile) (hs : (f (s.tile t)).store = (s.tile t).store)
    (ha : (f (s.tile t)).acc = (s.tile t).acc) (h : Home) (n : Nat) : (s.modTile t f).readHome h n = s.readHome h n := by
  have e : ∀ u, ((s.modTile t f).tile u).store = (s.tile u).store ∧ ((s.modTile t f).tile u).acc = (s.tile u).acc := by
    intro u
    by_cases hu : u = t
    · subst hu
      simp [hs, ha]
    · simp [State.tile_modTile_ne _ hu]
  cases h <;> simp [State.readHome, State.homeStore, State.die, Store.read, e]

theorem State.readHome_push (s : State) (a : Access) (h : Home) (n : Nat) : (s.push a).readHome h n = s.readHome h n := by
  unfold State.push
  rw [State.readHome_modMe]
  exact s.readHome_modTile _ _ rfl rfl h n

end Sys2Proof.Machine
end

