-- ==== Sys2Proof/Laws/Memory.lean ====
section
/-! SUPPORT. The memory operations keep every byte store in its canonical form, and the state after reset has it. -/

namespace Sys2Proof.Machine

/-- The canonical form, part by part. -/
theorem Memory.wf_iff (s : State) : Memory.wf s = true ↔
    s.dev.wf = true ∧ (∀ e ∈ s.tiles, e.2.bytesWf = true) ∧ (∀ e ∈ s.dies, e.2.staging.wf = true) ∧ (∀ e ∈ s.host, e.2.wf = true)
      ∧ (∀ e ∈ s.parts, e.2.bytesWf = true) ∧ (∀ k, s.clasp.image = some k → k.bytesWf = true) := by
  unfold Memory.wf
  simp only [Bool.and_eq_true, List.all_eq_true]
  constructor
  · rintro ⟨⟨⟨⟨⟨h1, h2⟩, h3⟩, h4⟩, h5⟩, h6⟩
    exact ⟨h1, h2, h3, h4, h5, fun k hk => by rw [hk] at h6; exact h6⟩
  · rintro ⟨h1, h2, h3, h4, h5, h6⟩
    refine ⟨⟨⟨⟨⟨h1, h2⟩, h3⟩, h4⟩, h5⟩, ?_⟩
    split
    · exact h6 _ ‹_›
    · rfl

/-- A state with the same byte stores. -/
theorem Memory.wf_same {s t : State} (h : Memory.wf s = true) (h1 : t.dev = s.dev) (h2 : t.tiles = s.tiles) (h3 : t.dies = s.dies)
    (h4 : t.host = s.host) (h5 : t.parts = s.parts) (h6 : t.clasp.image = s.clasp.image) : Memory.wf t = true := by
  rw [Memory.wf_iff] at h ⊢
  rw [h1, h2, h3, h4, h5, h6]
  exact h

/-! Reads of a part. -/

theorem Memory.wf_tile {s : State} (h : Memory.wf s = true) (t : Nat) : (s.tile t).bytesWf = true :=
  mget_of_all (P := fun tl : Tile => tl.bytesWf = true) rfl ((Memory.wf_iff s).1 h).2.1 t
theorem Memory.wf_die {s : State} (h : Memory.wf s = true) (d : Nat) : (s.die d).staging.wf = true :=
  mget_of_all (P := fun x : Die => x.staging.wf = true) rfl ((Memory.wf_iff s).1 h).2.2.1 d
theorem Memory.wf_host {s : State} (h : Memory.wf s = true) (p : Nat) : (mget Store.empty s.host p).wf = true :=
  mget_of_all (P := fun x : Store => x.wf = true) rfl ((Memory.wf_iff s).1 h).2.2.2.1 p
theorem Memory.wf_part {s : State} (h : Memory.wf s = true) (p : Nat) : (s.part p).bytesWf = true :=
  mget_of_all (P := fun x : Partition => x.bytesWf = true) rfl ((Memory.wf_iff s).1 h).2.2.2.2.1 p
theorem Memory.wf_dev {s : State} (h : Memory.wf s = true) : s.dev.wf = true := ((Memory.wf_iff s).1 h).1

/-! Updates of a part. -/

theorem Memory.wf_modTile {s : State} {t : Nat} {f : Tile → Tile} (h : Memory.wf s = true)
    (hf : (s.tile t).bytesWf = true → (f (s.tile t)).bytesWf = true) : Memory.wf (s.modTile t f) = true := by
  have hs := (Memory.wf_iff s).1 h
  exact (Memory.wf_iff _).2 ⟨hs.1, all_mput (P := fun tl : Tile => tl.bytesWf = true) hs.2.1 (hf (Memory.wf_tile h t)), hs.2.2⟩

theorem Memory.wf_modDie {s : State} {d : Nat} {f : Die → Die} (h : Memory.wf s = true)
    (hf : (s.die d).staging.wf = true → (f (s.die d)).staging.wf = true) : Memory.wf (s.modDie d f) = true := by
  have hs := (Memory.wf_iff s).1 h
  exact (Memory.wf_iff _).2 ⟨hs.1, hs.2.1, all_mput (P := fun x : Die => x.staging.wf = true) hs.2.2.1 (hf (Memory.wf_die h d)), hs.2.2.2⟩

theorem Memory.wf_modPart {s : State} {p : Nat} {f : Partition → Partition} (h : Memory.wf s = true)
    (hf : (s.part p).bytesWf = true → (f (s.part p)).bytesWf = true) : Memory.wf (s.modPart p f) = true := by
  have hs := (Memory.wf_iff s).1 h
  exact (Memory.wf_iff _).2 ⟨hs.1, hs.2.1, hs.2.2.1, hs.2.2.2.1,
    all_mput (P := fun x : Partition => x.bytesWf = true) hs.2.2.2.2.1 (hf (Memory.wf_part h p)), hs.2.2.2.2.2⟩

/-- An update of a partition that leaves its save area. -/
theorem Memory.wf_modPart_saved {s : State} {p : Nat} {f : Partition → Partition} (h : Memory.wf s = true) (hf : ∀ q, (f q).saved = q.saved) :
    Memory.wf (s.modPart p f) = true :=
  Memory.wf_modPart h fun hp => by unfold Partition.bytesWf at hp ⊢; rw [hf]; exact hp

/-- An update of a tile that leaves its bytes. -/
theorem Memory.wf_modTile_bytes {s : State} {t : Nat} {f : Tile → Tile} (h : Memory.wf s = true) (h1 : ∀ tl, (f tl).store = tl.store)
    (h2 : ∀ tl, (f tl).acc = tl.acc) : Memory.wf (s.modTile t f) = true :=
  Memory.wf_modTile h fun ht => by unfold Tile.bytesWf at ht ⊢; rw [h1, h2]; exact ht

/-- An update of a context. -/
theorem Memory.wf_modCtx {s : State} {t c : Nat} {f : Ctx → Ctx} (h : Memory.wf s = true) : Memory.wf (s.modCtx t c f) = true :=
  Memory.wf_modTile_bytes h (fun _ => rfl) (fun _ => rfl)

theorem Memory.wf_modMe {s : State} {f : Ctx → Ctx} (h : Memory.wf s = true) : Memory.wf (s.modMe f) = true := Memory.wf_modCtx h

theorem Memory.wf_modClasp {s : State} {f : Clasp → Clasp} (h : Memory.wf s = true) (hf : (f s.clasp).image = s.clasp.image) :
    Memory.wf (s.modClasp f) = true := Memory.wf_same h rfl rfl rfl rfl rfl hf

theorem Memory.wf_modLaunch {s : State} {l : Nat} {f : Launch → Launch} (h : Memory.wf s = true) : Memory.wf (s.modLaunch l f) = true :=
  Memory.wf_same h rfl rfl rfl rfl rfl rfl

/-! The memory operations. -/

/-- A fold of writes keeps the form of a store. -/
theorem Store.wf_foldl {α : Type} {f : Store → α → Store} (hf : ∀ m a, m.wf = true → (f m a).wf = true) :
    ∀ (l : List α) (m : Store), m.wf = true → (l.foldl f m).wf = true := by
  intro l
  induction l with
  | nil => exact fun m hm => hm
  | cons a t ih => exact fun m hm => ih _ (hf m a hm)

/-- A write at any home, the mirrors of a splicing page included. -/
theorem Memory.wf_writeHomeList {s : State} (g : Home) (l : List Byte) (h : Memory.wf s = true) : Memory.wf (s.writeHomeList g l) = true := by
  cases g with
  | dev pa =>
    have hs := (Memory.wf_iff s).1 h
    exact (Memory.wf_iff _).2 ⟨Store.wf_foldl (fun _ _ hm => Store.wf_foldl (fun m a h => m.wf_writeList a _ h) _ _ hm) _ _
      (s.dev.wf_writeList pa l hs.1), hs.2⟩
  | tile t off =>
    refine Memory.wf_modTile h fun ht => ?_
    simp only [Tile.bytesWf, Bool.and_eq_true] at ht ⊢
    exact ⟨Store.wf_writeList _ _ _ ht.1, ht.2⟩
  | acc t off =>
    refine Memory.wf_modTile h fun ht => ?_
    simp only [Tile.bytesWf, Bool.and_eq_true] at ht ⊢
    exact ⟨ht.1, cellsWf_writeBytes _ _ _ ht.2⟩
  | staging d off => exact Memory.wf_modDie h fun hd => Store.wf_writeList _ _ _ hd
  | host p iova =>
    have hs := (Memory.wf_iff s).1 h
    exact (Memory.wf_iff _).2 ⟨hs.1, hs.2.1, hs.2.2.1,
      all_mput (P := fun x : Store => x.wf = true) hs.2.2.2.1 (Store.wf_writeList _ _ _ (Memory.wf_host h p)), hs.2.2.2.2⟩
  | lost pa => exact h

theorem Memory.wf_writeHome {s : State} (g : Home) (n v : Nat) (h : Memory.wf s = true) : Memory.wf (s.writeHome g n v) = true :=
  Memory.wf_writeHomeList g _ h

/-- Poison at any home. -/
theorem Memory.wf_poisonAt {s : State} (g : Home) (n : Nat) (h : Memory.wf s = true) : Memory.wf (s.poisonAt g n) = true := by
  cases g with
  | dev pa =>
    have hs := (Memory.wf_iff s).1 h
    exact (Memory.wf_iff _).2 ⟨Store.wf_foldl
      (f := fun (m : Store) (x : Nat × Nat) => (s.mirrors x.1).foldl (fun m a => m.addPoison a x.2) m)
      (fun _ x hm => Store.wf_foldl (f := fun (m : Store) (a : Nat) => m.addPoison a x.2) (fun _ _ h => h) _ _ hm) _
      (s.dev.addPoison pa n) hs.1, hs.2⟩
  | tile t off => exact Memory.wf_modTile h fun ht => ht
  | acc t off => exact Memory.wf_modTile h fun ht => ht
  | staging d off => exact Memory.wf_modDie h fun hd => hd
  | host p iova =>
    have hs := (Memory.wf_iff s).1 h
    exact (Memory.wf_iff _).2 ⟨hs.1, hs.2.1, hs.2.2.1,
      all_mput (P := fun x : Store => x.wf = true) hs.2.2.2.1 (Memory.wf_host h p), hs.2.2.2.2⟩
  | lost pa => exact h

/-- A beat of a migration. -/
theorem Memory.wf_spliceBeat {s : State} (p : Nat) (j : MapJob) (old b : Nat) (h : Memory.wf s = true) : Memory.wf (s.spliceBeat p j old b) = true := by
  have hs := (Memory.wf_iff s).1 h
  exact Memory.wf_modPart_saved ((Memory.wf_iff { s with dev := s.dev.copyBeat (old + 64 * b) (j.new + 64 * b) }).2
    ⟨Store.wf_foldl (fun m k hm => by split <;> exact hm) _ _ (s.dev.wf_writeList _ _ hs.1), hs.2⟩) fun _ => rfl

/-- A fold of updates keeps the form of the state. -/
theorem Memory.wf_foldl {α : Type} {f : State → α → State} (hf : ∀ s a, Memory.wf s = true → Memory.wf (f s a) = true) :
    ∀ (l : List α) (s : State), Memory.wf s = true → Memory.wf (l.foldl f s) = true := by
  intro l
  induction l with
  | nil => exact fun s hs => hs
  | cons a t ih => exact fun s hs => ih _ (hf s a hs)

/-- A read that forks beats of a splicing page. -/
theorem Memory.wf_fork {s : State} (pa n : Nat) (h : Memory.wf s = true) : Memory.wf (s.fork pa n) = true := by
  unfold State.fork
  refine Memory.wf_foldl (fun s e hs => ?_) _ _ h
  split
  · exact hs
  · split
    · exact hs
    · refine Memory.wf_foldl (fun s x hs => ?_) _ _ hs
      split
      · split
        · exact hs
        · exact Memory.wf_spliceBeat _ _ _ _ hs
      · exact hs

theorem Memory.wf_meter {s : State} (p m n : Nat) (h : Memory.wf s = true) : Memory.wf (s.meter p m n) = true :=
  Memory.wf_modPart_saved h fun _ => rfl

theorem Memory.wf_meterDev {s : State} (p : Nat) (g : Home) (n : Nat) (wr : Bool) (h : Memory.wf s = true) :
    Memory.wf (s.meterDev p g n wr) = true := by
  unfold State.meterDev
  split
  · split
    · exact Memory.wf_meter _ _ _ h
    · exact h
  · exact h

theorem Memory.wf_ringRecord {s : State} (p rec : Nat) (h : Memory.wf s = true) : Memory.wf (s.ringRecord p rec) = true := by
  unfold State.ringRecord
  dsimp only
  split
  · exact Memory.wf_modPart_saved h fun _ => rfl
  · exact Memory.wf_modPart_saved (Memory.wf_writeHome _ _ _ h) fun _ => rfl

theorem Memory.wf_send {s : State} (to_ what : String) (vals : List Nat) (h : Memory.wf s = true) : Memory.wf (s.send to_ what vals) = true :=
  Memory.wf_modClasp h rfl

theorem Memory.wf_badRecord {s : State} (p die a : Nat) (h : Memory.wf s = true) : Memory.wf (s.badRecord p die a) = true :=
  Memory.wf_ringRecord _ _ h

/-- A record in Clasp's log and a partition's ring. -/
theorem Memory.wf_logRecord {s : State} (p : Option Nat) (rec : Nat) (h : Memory.wf s = true) : Memory.wf (s.logRecord p rec) = true := by
  unfold State.logRecord
  dsimp only
  split
  · exact Memory.wf_ringRecord _ _ (Memory.wf_modClasp h rfl)
  · exact Memory.wf_modClasp h rfl

theorem Memory.wf_detect {s : State} (p : Option Nat) (a b c d e f g : Nat) (h : Memory.wf s = true) : Memory.wf (s.detect p a b c d e f g) = true :=
  Memory.wf_modClasp (Memory.wf_logRecord _ _ h) rfl

/-- A message between dies. -/
theorem Memory.wf_delivered {s : State} (a b : Nat) (h : Memory.wf s = true) : Memory.wf (s.delivered a b) = true := by
  unfold State.delivered
  split
  · exact h
  · split
    · exact h
    · exact Memory.wf_same h rfl rfl rfl rfl rfl rfl

theorem Memory.wf_message {s : State} (p a b k : Nat) (h : Memory.wf s = true) : Memory.wf (s.message p a b k) = true := by
  unfold State.message
  dsimp only
  split
  · exact h
  · refine Memory.wf_meter _ _ _ (Memory.wf_meter _ _ _ ?_)
    suffices H : ∀ (l : List (Nat × Nat)) (x : State × Nat), Memory.wf x.1 = true →
        Memory.wf (l.foldl (fun (x : State × Nat) e =>
          ((x.1.delivered e.1 e.2).modDie e.2 fun d => { d with stamp := max d.stamp x.2 }, max (x.1.die e.2).lclk (x.2 + 1))) x).1 = true from H _ (s, _) h
    intro l
    induction l with
    | nil => exact fun x hx => hx
    | cons e l ih => exact fun x hx => ih _ (Memory.wf_modDie (Memory.wf_delivered _ _ hx) fun hd => hd)

theorem Memory.wf_roundTrip {s : State} (p d : Nat) (g : Home) (n : Nat) (rd wr : Bool) (h : Memory.wf s = true) :
    Memory.wf (s.roundTrip p d g n rd wr) = true := by
  unfold State.roundTrip
  dsimp only
  split
  · exact Memory.wf_message _ _ _ _ (Memory.wf_message _ _ _ _ h)
  · exact Memory.wf_message _ _ _ _ h

theorem Memory.wf_fillCache {s : State} (d p va : Nat) (rd wr : Bool) (h : Memory.wf s = true) : Memory.wf (s.fillCache d p va rd wr) = true := by
  unfold State.fillCache
  repeat' split
  all_goals first
    | exact h
    | (refine Memory.wf_modDie h ?_; exact fun hd => hd)

theorem Memory.wf_free {s : State} (n : Nat) (h : Memory.wf s = true) : Memory.wf { s with free := n } = true :=
  Memory.wf_same h rfl rfl rfl rfl rfl rfl

/-- What an edge does beside an access. -/
theorem Memory.wf_edgeTouch {s : State} (v : Via) (p space va n : Nat) (g : Home) (rd wr : Bool) (h : Memory.wf s = true) :
    Memory.wf (s.edgeTouch v p space va n g rd wr) = true := by
  unfold State.edgeTouch
  have h' : Memory.wf (if space = 0 then s.fillCache v.die p va rd wr else s) = true := by
    split
    · exact Memory.wf_fillCache _ _ _ _ _ h
    · exact h
  generalize (if space = 0 then s.fillCache v.die p va rd wr else s) = u at h' ⊢
  cases g with
  | lost pa => exact Memory.wf_detect _ _ _ _ _ _ _ _ (Memory.wf_roundTrip _ _ _ _ _ _ h')
  | dev pa =>
    have hf : Memory.wf ((if rd then u.fork pa n else u).roundTrip p v.die (.dev pa) n rd wr) = true := by
      refine Memory.wf_roundTrip _ _ _ _ _ _ ?_
      split
      · exact Memory.wf_fork _ _ h'
      · exact h'
    dsimp only
    split
    · exact Memory.wf_free _ hf
    · exact hf
  | host p' a => exact Memory.wf_roundTrip _ _ _ _ _ _ h'
  | tile t off => exact h'
  | acc t off => exact h'
  | staging d off => exact h'

theorem Memory.wf_contribute {s : State} (p die : Nat) (g : Home) (a n : Nat) (cxl flt psn : Bool) (fc : Nat) (h : Memory.wf s = true) :
    Memory.wf (s.contribute p die g a n cxl flt psn fc) = true := by
  unfold State.contribute
  have he := Memory.wf_edgeTouch ⟨die, []⟩ p (match g with | .dev _ | .lost _ => 0 | _ => 8) a 16 g true true h
  dsimp only
  generalize s.edgeTouch ⟨die, []⟩ p (match g with | .dev _ | .lost _ => 0 | _ => 8) a 16 g true true = u at he ⊢
  split
  · exact Memory.wf_badRecord _ _ _ he
  · exact Memory.wf_meterDev _ _ _ _ (Memory.wf_writeHome _ _ _ (Memory.wf_meterDev _ _ _ _ he))

theorem Memory.wf_doStore {s : State} (p : Nat) (g : Home) (n v : Nat) (h : Memory.wf s = true) : Memory.wf (s.doStore p g n v) = true := by
  unfold State.doStore
  dsimp only
  split
  · exact Memory.wf_meter _ _ _ (Memory.wf_meterDev _ _ _ _ (Memory.wf_writeHome _ _ _ h))
  · exact Memory.wf_meterDev _ _ _ _ (Memory.wf_writeHome _ _ _ h)

theorem Memory.wf_doAmo {s : State} (t p : Nat) (a : Access) (h : Memory.wf s = true) : Memory.wf (s.doAmo t p a).1 = true := by
  unfold State.doAmo
  split
  · exact h
  · dsimp only
    split
    · exact Memory.wf_doStore _ _ _ _ (Memory.wf_meterDev _ _ _ _ h)
    · exact Memory.wf_meterDev _ _ _ _ h

theorem Memory.wf_doCadd {s : State} (t p : Nat) (a : Access) (h : Memory.wf s = true) : Memory.wf (s.doCadd t p a).1 = true := by
  unfold State.doCadd
  split
  · exact h
  · exact Memory.wf_meterDev _ _ _ _ (Memory.wf_writeHome _ _ _ (Memory.wf_meterDev _ _ _ _ h))

theorem Memory.wf_doLoad {s : State} (t p : Nat) (a : Access) (h : Memory.wf s = true) : Memory.wf (s.doLoad t p a).1 = true := by
  unfold State.doLoad
  split
  · exact h
  · exact Memory.wf_meterDev _ _ _ _ h

theorem Memory.wf_countDrop {s : State} (d p tag : Nat) (h : Memory.wf s = true) : Memory.wf (s.countDrop d p tag) = true := by
  unfold State.countDrop
  split
  · exact Memory.wf_same h rfl rfl rfl rfl rfl rfl
  · exact h

theorem Memory.wf_loadPart {s : State} (t p : Nat) (a : Access) (h : Memory.wf s = true) : Memory.wf (s.loadPart t p a).1 = true := by
  unfold State.loadPart
  dsimp only
  split
  · exact h
  · exact Memory.wf_free _ (Memory.wf_meterDev _ _ _ _ h)

theorem Memory.wf_storePart {s : State} (p : Nat) (g : Home) (a : Access) (h : Memory.wf s = true) : Memory.wf (s.storePart p g a).1 = true := by
  unfold State.storePart
  have hd : Memory.wf (s.doStore p (g.plus (8 * a.partNow s.free)) 8 (bits a.data (64 * a.partNow s.free + 63) (64 * a.partNow s.free))) = true :=
    Memory.wf_doStore _ _ _ _ h
  dsimp only
  generalize s.doStore p (g.plus (8 * a.partNow s.free)) 8 (bits a.data (64 * a.partNow s.free + 63) (64 * a.partNow s.free)) = half at hd ⊢
  split
  · exact Memory.wf_writeHome _ _ _ hd
  · exact Memory.wf_free _ hd

/-- Performing any access keeps the canonical form. -/
theorem Memory.wf_performAt {s : State} (t : Nat) (a : Access) (h : Memory.wf s = true) : Memory.wf (s.performAt t a).1 = true := by
  unfold State.performAt
  dsimp only
  split
  · split
    · exact Memory.wf_loadPart _ _ _ h
    · exact Memory.wf_doLoad _ _ _ h
  · exact Memory.wf_loadPart _ _ _ h
  · split
    · exact h
    · split
      · exact Memory.wf_storePart _ _ _ h
      · exact Memory.wf_doStore _ _ _ _ h
  · split
    · exact Memory.wf_countDrop _ _ _ h
    · exact Memory.wf_doAmo _ _ _ h
  · exact Memory.wf_doCadd _ _ _ h
  · split
    · exact h
    · exact Memory.wf_meterDev _ _ _ _ h
  all_goals exact h

/-- The state after reset has the form. -/
theorem Memory.wf_empty : Memory.wf State.reset = true := rfl

end Sys2Proof.Machine
end

