-- ==== Sys2Proof/Laws/Access.lean ====
section
/-! SUPPORT. Reading one byte after a write, at every home (R5, R137, R298, R310). -/

namespace Sys2Proof.Machine

/-- One byte as a number. -/
theorem Store.read_one (s : Store) (a : Nat) : s.read a 1 = (readByte s.bytes a).toNat := by
  simp [Store.read, readBytes, ofBytes]

theorem getElem_toBytes (v n k : Nat) (h : k < (toBytes v n).length) : ((toBytes v n)[k]).toNat = byteOf v k := by
  induction n generalizing v k with
  | zero => simp [toBytes] at h
  | succ n ih =>
    cases k with
    | zero => simp [toBytes, byteOf]
    | succ k =>
      simp only [toBytes, List.getElem_cons_succ]
      rw [ih, byteOf, byteOf, Nat.pow_succ, Nat.mul_comm, Nat.div_div_eq_div_mul]

/-- One byte after a write to a store. -/
theorem Store.read_one_write (s : Store) (a n v k : Nat) :
    (s.write a n v).read k 1 = if a ≤ k ∧ k < a + n then byteOf v (k - a) else s.read k 1 := by
  rw [Store.read_one, Store.read_one]
  simp only [Store.write, Store.writeList]
  split
  · rename_i h
    have hk : k - a < (toBytes v n).length := by rw [length_toBytes]; omega
    have e := readByte_writeBytes_inside (toBytes v n) s.bytes a (k - a) hk
    rw [show a + (k - a) = k by omega] at e
    rw [e, getElem_toBytes]
  · rename_i h
    rw [readByte_writeBytes_outside]
    rw [length_toBytes]; omega

/-- Where no piece of a write to the DEVICE space has a mirror, only the bytes written change. -/
theorem State.writeHome_dev {s : State} {pa n v : Nat} (hm : ∀ x ∈ beatsOf pa n, s.mirrors x.1 = []) :
    s.writeHome (.dev pa) n v = { s with dev := s.dev.write pa n v } := by
  simp only [State.writeHome, State.writeHomeList, length_toBytes, Store.write]
  congr 1
  revert hm
  generalize beatsOf pa n = l
  intro hm
  have go : ∀ (l : List (Nat × Nat)) (m : Store), (∀ x ∈ l, s.mirrors x.1 = []) →
      l.foldl (fun m x => (s.mirrors x.1).foldl (fun m a => m.writeList a (((toBytes v n).drop (x.1 - pa)).take x.2)) m) m = m := by
    intro l
    induction l with
    | nil => exact fun _ _ => rfl
    | cons x t ih =>
      intro m h
      rw [List.foldl_cons, h x List.mem_cons_self, List.foldl_nil]
      exact ih m fun y hy => h y (List.mem_cons_of_mem _ hy)
  exact go l _ hm

/-- A write at a home of memory that takes every byte: the bytes written hold the value, every other byte is as before. -/
theorem State.wrote_writeHome {s : State} {h : Home} (n v : Nat) (hacc : h.isAcc = false) (hlost : h.isLost = false)
    (hm : ∀ pa, h = .dev pa → ∀ x ∈ beatsOf pa n, s.mirrors x.1 = []) :
    s.Wrote (s.writeHome h n v) h n v := by
  cases h with
  | lost pa => cases hlost
  | dev pa =>
    rw [State.writeHome_dev (hm pa rfl)]
    refine ⟨fun k => Store.read_one_write _ _ _ _ _, fun g hg => ?_⟩
    cases g with
    | dev a => exact absurd rfl hg
    | _ => rfl
  | tile t off =>
    refine ⟨fun k => ?_, fun g hg => ?_⟩
    · simp only [State.writeHome, State.writeHomeList, State.readHome, State.homeStore, Home.at, Home.off, State.tile, State.modTile, mget_mput_same]
      exact Store.read_one_write _ _ _ _ _
    · cases g with
      | tile u a =>
        have hu : u ≠ t := fun e => hg (e ▸ rfl)
        simp only [State.writeHome, State.writeHomeList, State.readHome, State.homeStore, State.tile, State.modTile, mget_mput_ne hu]
      | acc u a =>
        simp only [State.writeHome, State.writeHomeList, State.readHome, State.homeStore, State.tile, State.modTile]
        by_cases hu : u = t
        · subst hu; rw [mget_mput_same]
        · rw [mget_mput_ne hu]
      | _ => rfl
  | acc t off => cases hacc
  | staging d off =>
    refine ⟨fun k => ?_, fun g hg => ?_⟩
    · simp only [State.writeHome, State.writeHomeList, State.readHome, State.homeStore, Home.at, Home.off, State.die, State.modDie, mget_mput_same]
      exact Store.read_one_write _ _ _ _ _
    · cases g with
      | staging u a =>
        have hu : u ≠ d := fun e => hg (e ▸ rfl)
        simp only [State.writeHome, State.writeHomeList, State.readHome, State.homeStore, State.die, State.modDie, mget_mput_ne hu]
      | _ => rfl
  | host p iova =>
    refine ⟨fun k => ?_, fun g hg => ?_⟩
    · simp only [State.writeHome, State.writeHomeList, State.readHome, State.homeStore, Home.at, Home.off, mget_mput_same]
      exact Store.read_one_write _ _ _ _ _
    · cases g with
      | host u a =>
        have hu : u ≠ p := fun e => hg (e ▸ rfl)
        simp only [State.writeHome, State.writeHomeList, State.readHome, State.homeStore, mget_mput_ne hu]
      | _ => rfl

/-! Two updates of one part are one. -/

theorem State.modTile_modTile (s : State) (t : Nat) (f g : Tile → Tile) : (s.modTile t f).modTile t g = s.modTile t fun x => g (f x) := by
  simp only [State.modTile, State.tile, mget_mput_same, mput_mput]
theorem State.modPart_modPart (s : State) (p : Nat) (f g : Partition → Partition) : (s.modPart p f).modPart p g = s.modPart p fun x => g (f x) := by
  simp only [State.modPart, State.part, mget_mput_same, mput_mput]
theorem State.modCtx_modCtx (s : State) (t c : Nat) (f g : Ctx → Ctx) : (s.modCtx t c f).modCtx t c g = s.modCtx t c fun x => g (f x) := by
  simp only [State.modCtx, State.modTile_modTile, Tile.modCtx, Tile.ctx, mget_mput_same, mput_mput]
theorem State.modMe_modMe (s : State) (f g : Ctx → Ctx) : (s.modMe f).modMe g = s.modMe fun x => g (f x) := State.modCtx_modCtx s _ _ f g

/-! States with the same memory. -/

theorem State.SameMemory.refl (s : State) : s.SameMemory s := fun _ => rfl
theorem State.SameMemory.trans {s t u : State} (h1 : s.SameMemory t) (h2 : t.SameMemory u) : s.SameMemory u := fun h => (h2 h).trans (h1 h)

/-- An update of a tile that leaves its bytes leaves every byte. -/
theorem State.SameMemory.modTile (s : State) (t : Nat) (f : Tile → Tile) (h1 : ∀ tl, (f tl).store = tl.store) (h2 : ∀ tl, (f tl).acc = tl.acc) :
    s.SameMemory (s.modTile t f) := by
  intro g
  cases g with
  | tile u a =>
    simp only [State.readHome, State.homeStore, State.tile, State.modTile]
    by_cases hu : u = t
    · subst hu; rw [mget_mput_same, h1]
    · rw [mget_mput_ne hu]
  | acc u a =>
    simp only [State.readHome, State.homeStore, State.tile, State.modTile]
    by_cases hu : u = t
    · subst hu; simp only [mget_mput_same, h2, Store.read]
    · rw [mget_mput_ne hu]
  | _ => rfl

theorem State.SameMemory.modCtx (s : State) (t c : Nat) (f : Ctx → Ctx) : s.SameMemory (s.modCtx t c f) :=
  State.SameMemory.modTile s t _ (fun _ => rfl) (fun _ => rfl)

theorem State.SameMemory.modMe (s : State) (f : Ctx → Ctx) : s.SameMemory (s.modMe f) := State.SameMemory.modCtx s _ _ f

theorem State.SameMemory.modPart (s : State) (p : Nat) (f : Partition → Partition) : s.SameMemory (s.modPart p f) := fun g => by cases g <;> rfl
theorem State.SameMemory.modClasp (s : State) (f : Clasp → Clasp) : s.SameMemory (s.modClasp f) := fun g => by cases g <;> rfl
theorem State.SameMemory.modLaunch (s : State) (l : Nat) (f : Launch → Launch) : s.SameMemory (s.modLaunch l f) := fun g => by cases g <;> rfl

/-- An update of a die that leaves its staging memory. -/
theorem State.SameMemory.modDie (s : State) (d : Nat) (f : Die → Die) (h : ∀ x, (f x).staging = x.staging) : s.SameMemory (s.modDie d f) := by
  intro g
  cases g with
  | staging u a =>
    simp only [State.readHome, State.homeStore, State.die, State.modDie]
    by_cases hu : u = d
    · subst hu; rw [mget_mput_same, h]
    · rw [mget_mput_ne hu]
  | _ => rfl

end Sys2Proof.Machine
end

