-- ==== Sys2Proof/Laws/Encoding.lean ====
section
/-! SUPPORT. Words and their fields: splitting a joined word gives its fields back and joining a split word gives the word back (R73), what
the code tables read back (R75, R80, R81, R83), and that joined words fit in 64 bits. -/

namespace Sys2Proof

/-! The major and the fields of a joined word. -/

theorem majorOf_joinT {m : Nat} {f : FmtT} (hm : m < 256) (h1 : f.fn < 16) (h2 : f.d < 32) (h3 : f.a < 32) (h4 : f.b < 32) (h5 : f.c < 32)
    (h6 : f.ty < 16) (h7 : f.low < 2 ^ 28) : majorOf (joinT m f) = m := by
  simp only [majorOf, bits, joinT]; omega

theorem majorOf_joinI {m : Nat} {f : FmtI} (hm : m < 256) (h1 : f.fn < 16) (h2 : f.d < 32) (h3 : f.a < 32) (h4 : f.mod < 1024)
    (h5 : f.imm < 2 ^ 32) : majorOf (joinI m f) = m := by
  simp only [majorOf, bits, joinI]; omega

theorem majorOf_joinM {m : Nat} {f : FmtM} (hm : m < 256) (h1 : f.wop < 16) (h2 : f.data < 32) (h3 : f.base < 32) (h4 : f.index < 32)
    (h5 : f.scale < 4) (h6 : f.ord < 8) (h7 : f.off < 2 ^ 32) : majorOf (joinM m f) = m := by
  simp only [majorOf, bits, joinM]; omega

theorem majorOf_joinB {m : Nat} {f : FmtB} (hm : m < 256) (h1 : f.cond < 16) (h2 : f.a < 32) (h3 : f.b < 32) (h4 : f.pred < 8)
    (h5 : f.zero < 128) (h6 : f.woff < 2 ^ 32) : majorOf (joinB m f) = m := by
  simp only [majorOf, bits, joinB]; omega

theorem majorOf_joinQ {m : Nat} {f : FmtQ} (hm : m < 256) (h1 : f.fn < 16) (h2 : f.queue < 16) (h3 : f.pa < 16) (h4 : f.pb < 16)
    (h5 : f.xs < 32) (h6 : f.xt < 32) (h7 : f.qd < 32) (h8 : f.flags < 2 ^ 25) : majorOf (joinQ m f) = m := by
  simp only [majorOf, bits, joinQ]; omega

theorem majorOf_joinK {m : Nat} {f : FmtK} (hm : m < 256) (h1 : f.n < 16) (h2 : f.qmask < 16) (h3 : f.folio < 4096) (h4 : f.cls < 16)
    (h5 : f.zero < 2 ^ 24) (h6 : f.flags < 256) : majorOf (joinK m f) = m := by
  simp only [majorOf, bits, joinK]; omega

theorem splitT_joinT {m : Nat} {f : FmtT} (h1 : f.fn < 16) (h2 : f.d < 32) (h3 : f.a < 32) (h4 : f.b < 32) (h5 : f.c < 32)
    (h6 : f.ty < 16) (h7 : f.low < 2 ^ 28) : splitT (joinT m f) = f := by
  cases f
  simp only [splitT, bits, joinT, FmtT.mk.injEq] at *
  refine ⟨?_, ?_, ?_, ?_, ?_, ?_, ?_⟩ <;> omega

theorem splitI_joinI {m : Nat} {f : FmtI} (h1 : f.fn < 16) (h2 : f.d < 32) (h3 : f.a < 32) (h4 : f.mod < 1024)
    (h5 : f.imm < 2 ^ 32) : splitI (joinI m f) = f := by
  cases f
  simp only [splitI, bits, joinI, FmtI.mk.injEq] at *
  refine ⟨?_, ?_, ?_, ?_, ?_⟩ <;> omega

theorem splitM_joinM {m : Nat} {f : FmtM} (h1 : f.wop < 16) (h2 : f.data < 32) (h3 : f.base < 32) (h4 : f.index < 32)
    (h5 : f.scale < 4) (h6 : f.ord < 8) (h7 : f.off < 2 ^ 32) : splitM (joinM m f) = f := by
  cases f
  simp only [splitM, bits, joinM, FmtM.mk.injEq] at *
  refine ⟨?_, ?_, ?_, ?_, ?_, ?_, ?_⟩ <;> omega

theorem splitB_joinB {m : Nat} {f : FmtB} (h1 : f.cond < 16) (h2 : f.a < 32) (h3 : f.b < 32) (h4 : f.pred < 8)
    (h5 : f.zero < 128) (h6 : f.woff < 2 ^ 32) : splitB (joinB m f) = f := by
  cases f
  simp only [splitB, bits, joinB, FmtB.mk.injEq] at *
  refine ⟨?_, ?_, ?_, ?_, ?_, ?_⟩ <;> omega

theorem splitQ_joinQ {m : Nat} {f : FmtQ} (h1 : f.fn < 16) (h2 : f.queue < 16) (h3 : f.pa < 16) (h4 : f.pb < 16)
    (h5 : f.xs < 32) (h6 : f.xt < 32) (h7 : f.qd < 32) (h8 : f.flags < 2 ^ 25) : splitQ (joinQ m f) = f := by
  cases f
  simp only [splitQ, bits, joinQ, FmtQ.mk.injEq] at *
  refine ⟨?_, ?_, ?_, ?_, ?_, ?_, ?_, ?_⟩ <;> omega

theorem splitK_joinK {m : Nat} {f : FmtK} (h1 : f.n < 16) (h2 : f.qmask < 16) (h3 : f.folio < 4096) (h4 : f.cls < 16)
    (h5 : f.zero < 2 ^ 24) (h6 : f.flags < 256) : splitK (joinK m f) = f := by
  cases f
  simp only [splitK, bits, joinK, FmtK.mk.injEq] at *
  refine ⟨?_, ?_, ?_, ?_, ?_, ?_⟩ <;> omega

/-! A split word joins to the word. -/

theorem joinT_splitT {w : Nat} (h : w < 2 ^ 64) : joinT (majorOf w) (splitT w) = w := by simp only [joinT, splitT, majorOf, bits]; omega
theorem joinI_splitI {w : Nat} (h : w < 2 ^ 64) : joinI (majorOf w) (splitI w) = w := by simp only [joinI, splitI, majorOf, bits]; omega
theorem joinM_splitM {w : Nat} (h : w < 2 ^ 64) : joinM (majorOf w) (splitM w) = w := by simp only [joinM, splitM, majorOf, bits]; omega
theorem joinB_splitB {w : Nat} (h : w < 2 ^ 64) : joinB (majorOf w) (splitB w) = w := by simp only [joinB, splitB, majorOf, bits]; omega
theorem joinQ_splitQ {w : Nat} (h : w < 2 ^ 64) : joinQ (majorOf w) (splitQ w) = w := by simp only [joinQ, splitQ, majorOf, bits]; omega
theorem joinK_splitK {w : Nat} (h : w < 2 ^ 64) : joinK (majorOf w) (splitK w) = w := by simp only [joinK, splitK, majorOf, bits]; omega

/-! Joined words fit. -/

theorem joinT_lt {m : Nat} {f : FmtT} (hm : m < 256) (h1 : f.fn < 16) (h2 : f.d < 32) (h3 : f.a < 32) (h4 : f.b < 32) (h5 : f.c < 32)
    (h6 : f.ty < 16) (h7 : f.low < 2 ^ 28) : joinT m f < 2 ^ 64 := by
  simp only [joinT]; omega
theorem joinI_lt {m : Nat} {f : FmtI} (hm : m < 256) (h1 : f.fn < 16) (h2 : f.d < 32) (h3 : f.a < 32) (h4 : f.mod < 1024)
    (h5 : f.imm < 2 ^ 32) : joinI m f < 2 ^ 64 := by
  simp only [joinI]; omega
theorem joinM_lt {m : Nat} {f : FmtM} (hm : m < 256) (h1 : f.wop < 16) (h2 : f.data < 32) (h3 : f.base < 32) (h4 : f.index < 32)
    (h5 : f.scale < 4) (h6 : f.ord < 8) (h7 : f.off < 2 ^ 32) : joinM m f < 2 ^ 64 := by
  simp only [joinM]; omega
theorem joinB_lt {m : Nat} {f : FmtB} (hm : m < 256) (h1 : f.cond < 16) (h2 : f.a < 32) (h3 : f.b < 32) (h4 : f.pred < 8)
    (h5 : f.zero < 128) (h6 : f.woff < 2 ^ 32) : joinB m f < 2 ^ 64 := by
  simp only [joinB]; omega
theorem joinQ_lt {m : Nat} {f : FmtQ} (hm : m < 256) (h1 : f.fn < 16) (h2 : f.queue < 16) (h3 : f.pa < 16) (h4 : f.pb < 16)
    (h5 : f.xs < 32) (h6 : f.xt < 32) (h7 : f.qd < 32) (h8 : f.flags < 2 ^ 25) : joinQ m f < 2 ^ 64 := by
  simp only [joinQ]; omega
theorem joinK_lt {m : Nat} {f : FmtK} (hm : m < 256) (h1 : f.n < 16) (h2 : f.qmask < 16) (h3 : f.folio < 4096) (h4 : f.cls < 16)
    (h5 : f.zero < 2 ^ 24) (h6 : f.flags < 256) : joinK m f < 2 ^ 64 := by
  simp only [joinK]; omega

theorem b2n_le (b : Bool) : b2n b ≤ 1 := by cases b <;> decide

/-- A flag among the bits of a word is read back. -/
theorem bit_of_b2n {w k : Nat} {b : Bool} (h : w / 2 ^ k % 2 = b2n b) : bit w k = b := by
  rw [bit, h]; cases b <;> rfl

/-- A weave word's fields come back. -/
theorem splitWeave_joinWeave {v : Weave} (h : weaveFits v = true) : splitWeave (joinWeave v) = v := by
  obtain ⟨aw, bw, ak, bk, flow, win, acc, scl, spr, ga, gb, stk, red, lanes, eop, rx, ry⟩ := v
  simp only [weaveFits, Bool.and_eq_true, decide_eq_true_eq] at h
  have h1 := b2n_le ga
  have h2 := b2n_le gb
  have h3 := b2n_le stk
  simp only [splitWeave, Weave.mk.injEq]
  refine ⟨?_, ?_, ?_, ?_, ?_, ?_, ?_, ?_, ?_, bit_of_b2n ?_, bit_of_b2n ?_, bit_of_b2n ?_, ?_, ?_, ?_, ?_, ?_⟩ <;>
    (simp only [bits, joinWeave]; omega)

theorem joinWeave_lt {v : Weave} (h : weaveFits v = true) : joinWeave v < 2 ^ 64 := by
  simp only [weaveFits, Bool.and_eq_true, decide_eq_true_eq] at h
  have h1 := b2n_le v.ga
  have h2 := b2n_le v.gb
  have h3 := b2n_le v.stk
  simp only [joinWeave]; omega

theorem splitBind_joinBind {b : Bind} (h : bindOk b = true) : splitBind (joinBind b) = b := by
  obtain ⟨e, port, pat, queue, ctr⟩ := b
  simp only [bindOk, pOk, xOk, Bool.and_eq_true, decide_eq_true_eq] at h
  have h1 := b2n_le e
  simp only [splitBind, Bind.mk.injEq]
  refine ⟨bit_of_b2n ?_, ?_, ?_, ?_, ?_⟩ <;> (simp only [bits, joinBind]; omega)

theorem joinBind_lt {b : Bind} (h : bindOk b = true) : joinBind b < 2 ^ 64 := by
  simp only [bindOk, pOk, xOk, Bool.and_eq_true, decide_eq_true_eq] at h
  have h1 := b2n_le b.egress
  simp only [joinBind]; omega

/-! Codes read back. -/

@[simp] theorem IntTy.ofCode_code (t : IntTy) : IntTy.ofCode t.code = some t := by cases t <;> rfl
@[simp] theorem ExtW.ofCode_code (t : ExtW) : ExtW.ofCode t.code = some t := by cases t <;> rfl
@[simp] theorem FFmt.ofCode_code (t : FFmt) : FFmt.ofCode t.code = t := by cases t <;> rfl
@[simp] theorem RmCode.ofCode_code (t : RmCode) : RmCode.ofCode t.code = some t := by cases t <;> rfl
@[simp] theorem FRel.ofCode_code (t : FRel) : FRel.ofCode t.code = some t := by cases t <;> rfl
@[simp] theorem Conv.ofCode_code (t : Conv) : Conv.ofCode t.code = some t := by cases t <;> rfl
@[simp] theorem Rel.ofCode_code (t : Rel) : Rel.ofCode t.code = some t := by cases t <;> rfl
@[simp] theorem Wop.ofCode_code (t : Wop) : Wop.ofCode t.code = some t := by cases t <;> rfl
@[simp] theorem Ord.ofCode_code (t : Ord) : Ord.ofCode t.code = some t := by cases t <;> rfl
@[simp] theorem AmoOp.ofCode_code (t : AmoOp) : AmoOp.ofCode t.code = some t := by cases t <;> rfl
@[simp] theorem Scope.ofCode_code (t : Scope) : Scope.ofCode t.code = some t := by cases t <;> rfl
@[simp] theorem FenceKind.ofCode_code (t : FenceKind) : FenceKind.ofCode t.code = some t := by cases t <;> rfl
@[simp] theorem PatSpace.ofCode_code (t : PatSpace) : PatSpace.ofCode t.code = some t := by cases t <;> rfl
@[simp] theorem PatField.ofCode_code (t : PatField) : PatField.ofCode t.code = some t := by cases t <;> rfl

/-! A hardware step has no words; a sequencer instruction has at least one. -/

theorem encode_hardware (i : Instr) (h : i.isSequencer = false) : encode i = [] := by
  cases i <;> first | rfl | cases h

end Sys2Proof
end

