-- ==== Sys2Proof/Laws/Exec.lean ====
section
/-! SUPPORT. What `exec` does with each instruction: the one meaning it calls. -/

namespace Sys2Proof.Machine

theorem exec_add (ty : IntTy) (d a b : Nat) (s : State) : exec (.add ty d a b) s = execAdd ty d a b s := rfl
theorem exec_sub (ty : IntTy) (d a b : Nat) (s : State) : exec (.sub ty d a b) s = execSub ty d a b s := rfl
theorem exec_mul (ty : IntTy) (d a b : Nat) (s : State) : exec (.mul ty d a b) s = execMul ty d a b s := rfl
theorem exec_mulh (ty : IntTy) (d a b : Nat) (s : State) : exec (.mulh ty d a b) s = execMulh ty d a b s := rfl
theorem exec_mulhn (ty : IntTy) (d a b : Nat) (s : State) : exec (.mulhn ty d a b) s = execMulhn ty d a b s := rfl
theorem exec_div (ty : IntTy) (d a b : Nat) (s : State) : exec (.div ty d a b) s = execDiv ty d a b s := rfl
theorem exec_divn (ty : IntTy) (d a b : Nat) (s : State) : exec (.divn ty d a b) s = execDivn ty d a b s := rfl
theorem exec_rem (ty : IntTy) (d a b : Nat) (s : State) : exec (.rem ty d a b) s = execRem ty d a b s := rfl
theorem exec_remn (ty : IntTy) (d a b : Nat) (s : State) : exec (.remn ty d a b) s = execRemn ty d a b s := rfl
theorem exec_min (ty : IntTy) (d a b : Nat) (s : State) : exec (.min ty d a b) s = execMin ty d a b s := rfl
theorem exec_max (ty : IntTy) (d a b : Nat) (s : State) : exec (.max ty d a b) s = execMax ty d a b s := rfl
theorem exec_minn (ty : IntTy) (d a b : Nat) (s : State) : exec (.minn ty d a b) s = execMinn ty d a b s := rfl
theorem exec_maxn (ty : IntTy) (d a b : Nat) (s : State) : exec (.maxn ty d a b) s = execMaxn ty d a b s := rfl
theorem exec_and (ty : IntTy) (d a b : Nat) (s : State) : exec (.and ty d a b) s = execAnd ty d a b s := rfl
theorem exec_or (ty : IntTy) (d a b : Nat) (s : State) : exec (.or ty d a b) s = execOr ty d a b s := rfl
theorem exec_xor (ty : IntTy) (d a b : Nat) (s : State) : exec (.xor ty d a b) s = execXor ty d a b s := rfl
theorem exec_andn (ty : IntTy) (d a b : Nat) (s : State) : exec (.andn ty d a b) s = execAndn ty d a b s := rfl
theorem exec_orn (ty : IntTy) (d a b : Nat) (s : State) : exec (.orn ty d a b) s = execOrn ty d a b s := rfl
theorem exec_shl (ty : IntTy) (d a b : Nat) (s : State) : exec (.shl ty d a b) s = execShl ty d a b s := rfl
theorem exec_shr (ty : IntTy) (d a b : Nat) (s : State) : exec (.shr ty d a b) s = execShr ty d a b s := rfl
theorem exec_sha (ty : IntTy) (d a b : Nat) (s : State) : exec (.sha ty d a b) s = execSha ty d a b s := rfl
theorem exec_cmpeq (ty : IntTy) (d a b : Nat) (s : State) : exec (.cmpeq ty d a b) s = execCmpeq ty d a b s := rfl
theorem exec_cmplt (ty : IntTy) (d a b : Nat) (s : State) : exec (.cmplt ty d a b) s = execCmplt ty d a b s := rfl
theorem exec_cmpltn (ty : IntTy) (d a b : Nat) (s : State) : exec (.cmpltn ty d a b) s = execCmpltn ty d a b s := rfl
theorem exec_csel (d a b c : Nat) (s : State) : exec (.csel d a b c) s = execCsel d a b c s := rfl
theorem exec_mov (d a : Nat) (s : State) : exec (.mov d a) s = execMov d a s := rfl
theorem exec_clz (ty : IntTy) (d a : Nat) (s : State) : exec (.clz ty d a) s = execClz ty d a s := rfl
theorem exec_ctz (ty : IntTy) (d a : Nat) (s : State) : exec (.ctz ty d a) s = execCtz ty d a s := rfl
theorem exec_popc (ty : IntTy) (d a : Nat) (s : State) : exec (.popc ty d a) s = execPopc ty d a s := rfl
theorem exec_sext (w : ExtW) (d a : Nat) (s : State) : exec (.sext w d a) s = execSext w d a s := rfl
theorem exec_zext (w : ExtW) (d a : Nat) (s : State) : exec (.zext w d a) s = execZext w d a s := rfl
theorem exec_addx (shift d a b : Nat) (s : State) : exec (.addx shift d a b) s = execAddx shift d a b s := rfl
theorem exec_morton (three : Bool) (d a b c : Nat) (s : State) : exec (.morton three d a b c) s = execMorton three d a b c s := rfl
theorem exec_addi (ty : IntTy) (d a imm : Nat) (s : State) : exec (.addi ty d a imm) s = execAddi ty d a imm s := rfl
theorem exec_andi (ty : IntTy) (d a imm : Nat) (s : State) : exec (.andi ty d a imm) s = execAndi ty d a imm s := rfl
theorem exec_ori (ty : IntTy) (d a imm : Nat) (s : State) : exec (.ori ty d a imm) s = execOri ty d a imm s := rfl
theorem exec_xori (ty : IntTy) (d a imm : Nat) (s : State) : exec (.xori ty d a imm) s = execXori ty d a imm s := rfl
theorem exec_shli (ty : IntTy) (d a n : Nat) (s : State) : exec (.shli ty d a n) s = execShli ty d a n s := rfl
theorem exec_shri (ty : IntTy) (d a n : Nat) (s : State) : exec (.shri ty d a n) s = execShri ty d a n s := rfl
theorem exec_shai (ty : IntTy) (d a n : Nat) (s : State) : exec (.shai ty d a n) s = execShai ty d a n s := rfl
theorem exec_li (d imm : Nat) (s : State) : exec (.li d imm) s = execLi d imm s := rfl
theorem exec_lui (d a imm : Nat) (s : State) : exec (.lui d a imm) s = execLui d a imm s := rfl
theorem exec_bext (d a pos len : Nat) (s : State) : exec (.bext d a pos len) s = execBext d a pos len s := rfl
theorem exec_bins (d a pos len : Nat) (s : State) : exec (.bins d a pos len) s = execBins d a pos len s := rfl
theorem exec_demorton (three : Bool) (d a k : Nat) (s : State) : exec (.demorton three d a k) s = execDemorton three d a k s := rfl
theorem exec_fadd (f : FFmt) (rm : RmCode) (d a b : Nat) (s : State) : exec (.fadd f rm d a b) s = execFadd f rm d a b s := rfl
theorem exec_fsub (f : FFmt) (rm : RmCode) (d a b : Nat) (s : State) : exec (.fsub f rm d a b) s = execFsub f rm d a b s := rfl
theorem exec_fmul (f : FFmt) (rm : RmCode) (d a b : Nat) (s : State) : exec (.fmul f rm d a b) s = execFmul f rm d a b s := rfl
theorem exec_ffma (f : FFmt) (rm : RmCode) (d a b c : Nat) (s : State) : exec (.ffma f rm d a b c) s = execFfma f rm d a b c s := rfl
theorem exec_fdiv (f : FFmt) (rm : RmCode) (d a b : Nat) (s : State) : exec (.fdiv f rm d a b) s = execFdiv f rm d a b s := rfl
theorem exec_fsqrt (f : FFmt) (rm : RmCode) (d a : Nat) (s : State) : exec (.fsqrt f rm d a) s = execFsqrt f rm d a s := rfl
theorem exec_fmin (f : FFmt) (d a b : Nat) (s : State) : exec (.fmin f d a b) s = execFmin f d a b s := rfl
theorem exec_fmax (f : FFmt) (d a b : Nat) (s : State) : exec (.fmax f d a b) s = execFmax f d a b s := rfl
theorem exec_fcmp (f : FFmt) (r : FRel) (d a b : Nat) (s : State) : exec (.fcmp f r d a b) s = execFcmp f r d a b s := rfl
theorem exec_fcvt (c : Conv) (rm : RmCode) (d a : Nat) (s : State) : exec (.fcvt c rm d a) s = execFcvt c rm d a s := rfl
theorem exec_fclass (f : FFmt) (d a : Nat) (s : State) : exec (.fclass f d a) s = execFclass f d a s := rfl
theorem exec_fmovx (f : FFmt) (d a : Nat) (s : State) : exec (.fmovx f d a) s = execFmovx f d a s := rfl
theorem exec_fmovf (f : FFmt) (d a : Nat) (s : State) : exec (.fmovf f d a) s = execFmovf f d a s := rfl
theorem exec_bc (c : BCond) (woff : Nat) (s : State) : exec (.bc c woff) s = execBc c woff s := rfl
theorem exec_jmp (woff : Nat) (s : State) : exec (.jmp woff) s = execJmp woff s := rfl
theorem exec_call (link woff : Nat) (s : State) : exec (.call link woff) s = execCall link woff s := rfl
theorem exec_jmpx (link a : Nat) (s : State) : exec (.jmpx link a) s = execJmpx link a s := rfl
theorem exec_ret (a : Nat) (s : State) : exec (.ret a) s = execRet a s := rfl
theorem exec_loop (a woff : Nat) (s : State) : exec (.loop a woff) s = execLoop a woff s := rfl
theorem exec_pset (r : Rel) (d a b : Nat) (s : State) : exec (.pset r d a b) s = execPset r d a b s := rfl
theorem exec_pand (d a b : Nat) (s : State) : exec (.pand d a b) s = execPand d a b s := rfl
theorem exec_por (d a b : Nat) (s : State) : exec (.por d a b) s = execPor d a b s := rfl
theorem exec_pnot (d a : Nat) (s : State) : exec (.pnot d a) s = execPnot d a s := rfl
theorem exec_rds (d n : Nat) (s : State) : exec (.rds d n) s = execRds d n s := rfl
theorem exec_wrs (n a : Nat) (s : State) : exec (.wrs n a) s = execWrs n a s := rfl
theorem exec_ldg (m : MemArgs) (s : State) : exec (.ldg m) s = execLdg m s := rfl
theorem exec_stg (m : MemArgs) (s : State) : exec (.stg m) s = execStg m s := rfl
theorem exec_amog (m : AmoArgs) (s : State) : exec (.amog m) s = execAmog m s := rfl
theorem exec_ldl (m : MemArgs) (s : State) : exec (.ldl m) s = execLdl m s := rfl
theorem exec_stl (m : MemArgs) (s : State) : exec (.stl m) s = execStl m s := rfl
theorem exec_amol (m : AmoArgs) (s : State) : exec (.amol m) s = execAmol m s := rfl
theorem exec_stx (m : MemArgs) (s : State) : exec (.stx m) s = execStx m s := rfl
theorem exec_amox (m : AmoArgs) (s : State) : exec (.amox m) s = execAmox m s := rfl
theorem exec_lda (m : MemArgs) (s : State) : exec (.lda m) s = execLda m s := rfl
theorem exec_sta (m : MemArgs) (s : State) : exec (.sta m) s = execSta m s := rfl
theorem exec_lds (m : MemArgs) (s : State) : exec (.lds m) s = execLds m s := rfl
theorem exec_sts (m : MemArgs) (s : State) : exec (.sts m) s = execSts m s := rfl
theorem exec_amos (m : AmoArgs) (s : State) : exec (.amos m) s = execAmos m s := rfl
theorem exec_ldh (m : MemArgs) (s : State) : exec (.ldh m) s = execLdh m s := rfl
theorem exec_sth (m : MemArgs) (s : State) : exec (.sth m) s = execSth m s := rfl
theorem exec_cadd (loc : Bool) (d a b : Nat) (s : State) : exec (.cadd loc d a b) s = execCadd loc d a b s := rfl
theorem exec_cwait (loc : Bool) (d a b : Nat) (s : State) : exec (.cwait loc d a b) s = execCwait loc d a b s := rfl
theorem exec_cread (loc : Bool) (d a : Nat) (s : State) : exec (.cread loc d a) s = execCread loc d a s := rfl
theorem exec_fence (sc : Scope) (k : FenceKind) (s : State) : exec (.fence sc k) s = execFence sc k s := rfl
theorem exec_arrive (d g : Nat) (s : State) : exec (.arrive d g) s = execArrive d g s := rfl
theorem exec_wait (d a g : Nat) (s : State) : exec (.wait d a g) s = execWait d a g s := rfl
theorem exec_arrwait (d g : Nat) (s : State) : exec (.arrwait d g) s = execArrwait d g s := rfl
theorem exec_gquery (d g : Nat) (s : State) : exec (.gquery d g) s = execGquery d g s := rfl
theorem exec_patld (sp : PatSpace) (pd xs : Nat) (s : State) : exec (.patld sp pd xs) s = execPatld sp pd xs s := rfl
theorem exec_patset (f : PatField) (pd src : Nat) (s : State) : exec (.patset f pd src) s = execPatset f pd src s := rfl
theorem exec_patget (f : PatField) (pa xd : Nat) (s : State) : exec (.patget f pa xd) s = execPatget f pa xd s := rfl
theorem exec_streamIn (q : QArgs) (s : State) : exec (.streamIn q) s = execStreamIn q s := rfl
theorem exec_streamOut (q : QArgs) (s : State) : exec (.streamOut q) s = execStreamOut q s := rfl
theorem exec_streamRec (q : QArgs) (s : State) : exec (.streamRec q) s = execStreamRec q s := rfl
theorem exec_streamConst (q : QArgs) (s : State) : exec (.streamConst q) s = execStreamConst q s := rfl
theorem exec_streamDrop (q : QArgs) (s : State) : exec (.streamDrop q) s = execStreamDrop q s := rfl
theorem exec_streamInd (q : QArgs) (s : State) : exec (.streamInd q) s = execStreamInd q s := rfl
theorem exec_sbarRd (q qd qmask : Nat) (s : State) : exec (.sbarRd q qd qmask) s = execSbarRd q qd qmask s := rfl
theorem exec_sbarWr (q qd qmask : Nat) (s : State) : exec (.sbarWr q qd qmask) s = execSbarWr q qd qmask s := rfl
theorem exec_sbarAll (q qd qmask : Nat) (s : State) : exec (.sbarAll q qd qmask) s = execSbarAll q qd qmask s := rfl
theorem exec_scond (q xt qd ctr csp : Nat) (inv : Bool) (skip : Nat) (s : State) : exec (.scond q xt qd ctr csp inv skip) s = execScond q xt qd ctr csp inv skip s := rfl
theorem exec_copy (q : QArgs) (s : State) : exec (.copy q) s = execCopy q s := rfl
theorem exec_mcopy (q : QArgs) (s : State) : exec (.mcopy q) s = execMcopy q s := rfl
theorem exec_rcopy (q : QArgs) (s : State) : exec (.rcopy q) s = execRcopy q s := rfl
theorem exec_stitch (q qd mask : Nat) (s : State) : exec (.stitch q qd mask) s = execStitch q qd mask s := rfl
theorem exec_qwait (mask : Nat) (s : State) : exec (.qwait mask) s = execQwait mask s := rfl
theorem exec_qstat (q xd sel : Nat) (clr : Bool) (s : State) : exec (.qstat q xd sel clr) s = execQstat q xd sel clr s := rfl
theorem exec_spawn (xr xst xq : Nat) (s : State) : exec (.spawn xr xst xq) s = execSpawn xr xst xq s := rfl
theorem exec_spawnn (xr xst xq count : Nat) (s : State) : exec (.spawnn xr xst xq count) s = execSpawnn xr xst xq count s := rfl
theorem exec_launch (xd xq : Nat) (s : State) : exec (.launch xd xq) s = execLaunch xd xq s := rfl
theorem exec_cancel (xs xa xq : Nat) (s : State) : exec (.cancel xs xa xq) s = execCancel xs xa xq s := rfl
theorem exec_yield (s : State) : exec .yield s = execYield s := rfl
theorem exec_exit (loc : Bool) (a b : Nat) (s : State) : exec (.exit loc a b) s = execExit loc a b s := rfl
theorem exec_scopeSet (d p c : Nat) (s : State) : exec (.scopeSet d p c) s = execScopeSet d p c s := rfl
theorem exec_scopeSplit (d p c : Nat) (s : State) : exec (.scopeSplit d p c) s = execScopeSplit d p c s := rfl
theorem exec_chkc (s : State) : exec .chkc s = execChkc s := rfl
theorem exec_squery (d a : Nat) (s : State) : exec (.squery d a) s = execSquery d a s := rfl
theorem exec_trap (a n : Nat) (s : State) : exec (.trap a n) s = execTrap a n s := rfl
theorem exec_tret (s : State) : exec .tret s = execTret s := rfl
theorem exec_tretN (s : State) : exec .tretN s = execTretN s := rfl
theorem exec_prio (reg : Bool) (v : Nat) (s : State) : exec (.prio reg v) s = execPrio reg v s := rfl
theorem exec_mtrd (d m : Nat) (s : State) : exec (.mtrd d m) s = execMtrd d m s := rfl
theorem exec_halt (code : Nat) (s : State) : exec (.halt code) s = execHalt code s := rfl
theorem exec_nop (s : State) : exec .nop s = execNop s := rfl
theorem exec_blockMWs (b : BlockArgs) (s : State) : exec (.blockMWs b) s = execBlockMWs b s := rfl
theorem exec_blockMOs (b : BlockArgs) (s : State) : exec (.blockMOs b) s = execBlockMOs b s := rfl
theorem exec_blockE (b : BlockArgs) (s : State) : exec (.blockE b) s = execBlockE b s := rfl
theorem exec_blockA (b : BlockArgs) (s : State) : exec (.blockA b) s = execBlockA b s := rfl
theorem exec_blockS (b : BlockArgs) (s : State) : exec (.blockS b) s = execBlockS b s := rfl
theorem exec_blockZ (b : BlockArgs) (s : State) : exec (.blockZ b) s = execBlockZ b s := rfl
theorem exec_blockG (b : BlockArgs) (s : State) : exec (.blockG b) s = execBlockG b s := rfl
theorem exec_cfgld (qmask folio : Nat) (s : State) : exec (.cfgld qmask folio) s = execCfgld qmask folio s := rfl
theorem exec_cfgsw (qmask : Nat) (s : State) : exec (.cfgsw qmask) s = execCfgsw qmask s := rfl
theorem exec_bdrain (qmask : Nat) (s : State) : exec (.bdrain qmask) s = execBdrain qmask s := rfl
theorem exec_bstat (d qmask sel : Nat) (s : State) : exec (.bstat d qmask sel) s = execBstat d qmask sel s := rfl
theorem exec_spine (qmask : Nat) (win : Option Nat) (acc : Nat) (s : State) : exec (.spine qmask win acc) s = execSpine qmask win acc s := rfl
theorem exec_accrd (qmask ep : Nat) (clr : Bool) (rm : Nat) (sat : Bool) (s : State) : exec (.accrd qmask ep clr rm sat) s = execAccrd qmask ep clr rm sat s := rfl
theorem exec_accclr (qmask : Nat) (s : State) : exec (.accclr qmask) s = execAccclr qmask s := rfl
theorem exec_fetchFault (t c : Nat) (s : State) : exec (.fetchFault t c) s = execFetchFault t c s := rfl
theorem exec_deferredTrap (t c : Nat) (s : State) : exec (.deferredTrap t c) s = execDeferredTrap t c s := rfl
theorem exec_loadResultReturn (t c id : Nat) (s : State) : exec (.loadResultReturn t c id) s = execLoadResultReturn t c id s := rfl
theorem exec_ldhTimeout (t c id : Nat) (s : State) : exec (.ldhTimeout t c id) s = execLdhTimeout t c id s := rfl
theorem exec_contextWake (t c : Nat) (s : State) : exec (.contextWake t c) s = execContextWake t c s := rfl
theorem exec_taskBind (t : Nat) (s : State) : exec (.taskBind t) s = execTaskBind t s := rfl
theorem exec_taskPublicationArrival (n : Nat) (s : State) : exec (.taskPublicationArrival n) s = execTaskPublicationArrival n s := rfl
theorem exec_dependenceCheck (t : Nat) (s : State) : exec (.dependenceCheck t) s = execDependenceCheck t s := rfl
theorem exec_copyStart (t q : Nat) (s : State) : exec (.copyStart t q) s = execCopyStart t q s := rfl
theorem exec_copyBeat (t q : Nat) (s : State) : exec (.copyBeat t q) s = execCopyBeat t q s := rfl
theorem exec_transferRetire (t q : Nat) (s : State) : exec (.transferRetire t q) s = execTransferRetire t q s := rfl
theorem exec_streamDispatch (t q : Nat) (s : State) : exec (.streamDispatch t q) s = execStreamDispatch t q s := rfl
theorem exec_streamBeat (t q id : Nat) (s : State) : exec (.streamBeat t q id) s = execStreamBeat t q id s := rfl
theorem exec_gatePass (t q : Nat) (s : State) : exec (.gatePass t q) s = execGatePass t q s := rfl
theorem exec_counterContributionFlit (t : Nat) (s : State) : exec (.counterContributionFlit t) s = execCounterContributionFlit t s := rfl
theorem exec_blockRunStart (t : Nat) (s : State) : exec (.blockRunStart t) s = execBlockRunStart t s := rfl
theorem exec_folioLoadComplete (t qmask : Nat) (s : State) : exec (.folioLoadComplete t qmask) s = execFolioLoadComplete t qmask s := rfl
theorem exec_switchSweepComplete (t qmask : Nat) (s : State) : exec (.switchSweepComplete t qmask) s = execSwitchSweepComplete t qmask s := rfl
theorem exec_blockBeat (t qmask : Nat) (s : State) : exec (.blockBeat t qmask) s = execBlockBeat t qmask s := rfl
theorem exec_instanceComplete (t qmask : Nat) (s : State) : exec (.instanceComplete t qmask) s = execInstanceComplete t qmask s := rfl
theorem exec_scanOutComplete (t qmask : Nat) (s : State) : exec (.scanOutComplete t qmask) s = execScanOutComplete t qmask s := rfl
theorem exec_elementCycle (t : Nat) (s : State) : exec (.elementCycle t) s = execElementCycle t s := rfl
theorem exec_memoryNodeComplete (t id : Nat) (s : State) : exec (.memoryNodeComplete t id) s = execMemoryNodeComplete t id s := rfl
theorem exec_activeMessageArrival (t : Nat) (s : State) : exec (.activeMessageArrival t) s = execActiveMessageArrival t s := rfl
theorem exec_networkCycle (die : Nat) (s : State) : exec (.networkCycle die) s = execNetworkCycle die s := rfl
theorem exec_ageTick (die : Nat) (s : State) : exec (.ageTick die) s = execAgeTick die s := rfl
theorem exec_creditDraw (die part point : Nat) (s : State) : exec (.creditDraw die part point) s = execCreditDraw die part point s := rfl
theorem exec_creditReturn (die part : Nat) (s : State) : exec (.creditReturn die part) s = execCreditReturn die part s := rfl
theorem exec_crossbarCrossing (die n : Nat) (s : State) : exec (.crossbarCrossing die n) s = execCrossbarCrossing die n s := rfl
theorem exec_remoteStoreApply (t : Nat) (s : State) : exec (.remoteStoreApply t) s = execRemoteStoreApply t s := rfl
theorem exec_remoteAtomicApply (t : Nat) (s : State) : exec (.remoteAtomicApply t) s = execRemoteAtomicApply t s := rfl
theorem exec_acknowledgementReceipt (t : Nat) (s : State) : exec (.acknowledgementReceipt t) s = execAcknowledgementReceipt t s := rfl
theorem exec_gatherFlitArrival (t : Nat) (s : State) : exec (.gatherFlitArrival t) s = execGatherFlitArrival t s := rfl
theorem exec_windowUpdateReceipt (t : Nat) (s : State) : exec (.windowUpdateReceipt t) s = execWindowUpdateReceipt t s := rfl
theorem exec_streamEndReceipt (t : Nat) (s : State) : exec (.streamEndReceipt t) s = execStreamEndReceipt t s := rfl
theorem exec_poisonFillTimeout (t port : Nat) (s : State) : exec (.poisonFillTimeout t port) s = execPoisonFillTimeout t port s := rfl
theorem exec_drainTokenArrival (part n : Nat) (s : State) : exec (.drainTokenArrival part n) s = execDrainTokenArrival part n s := rfl
theorem exec_memoryAccessAtHome (t c id : Nat) (hostError : Bool) (s : State) : exec (.memoryAccessAtHome t c id hostError) s = execMemoryAccessAtHome t c id hostError s := rfl
theorem exec_barrierArrivalAtHome (n : Nat) (s : State) : exec (.barrierArrivalAtHome n) s = execBarrierArrivalAtHome n s := rfl
theorem exec_barrierReleaseArrival (n : Nat) (s : State) : exec (.barrierReleaseArrival n) s = execBarrierReleaseArrival n s := rfl
theorem exec_cancelRegistration (no t : Nat) (s : State) : exec (.cancelRegistration no t) s = execCancelRegistration no t s := rfl
theorem exec_taskKill (t c : Nat) (s : State) : exec (.taskKill t c) s = execTaskKill t c s := rfl
theorem exec_trapModeKillTimeout (t c : Nat) (s : State) : exec (.trapModeKillTimeout t c) s = execTrapModeKillTimeout t c s := rfl
theorem exec_cancelTileReport (no t : Nat) (s : State) : exec (.cancelTileReport no t) s = execCancelTileReport no t s := rfl
theorem exec_cancelAckWrite (no : Nat) (s : State) : exec (.cancelAckWrite no) s = execCancelAckWrite no s := rfl
theorem exec_preemptHoldRequest (t : Nat) (s : State) : exec (.preemptHoldRequest t) s = execPreemptHoldRequest t s := rfl
theorem exec_preemptSwitchRequest (t : Nat) (s : State) : exec (.preemptSwitchRequest t) s = execPreemptSwitchRequest t s := rfl
theorem exec_resumeRequest (part : Nat) (s : State) : exec (.resumeRequest part) s = execResumeRequest part s := rfl
theorem exec_stateSaveComplete (part : Nat) (s : State) : exec (.stateSaveComplete part) s = execStateSaveComplete part s := rfl
theorem exec_restoreComplete (part : Nat) (s : State) : exec (.restoreComplete part) s = execRestoreComplete part s := rfl
theorem exec_sliceExpiry (part : Nat) (s : State) : exec (.sliceExpiry part) s = execSliceExpiry part s := rfl
theorem exec_deadlinePreemption (part : Nat) (s : State) : exec (.deadlinePreemption part) s = execDeadlinePreemption part s := rfl
theorem exec_launchWindowWrite (part desc : Nat) (s : State) : exec (.launchWindowWrite part desc) s = execLaunchWindowWrite part desc s := rfl
theorem exec_partialWindowWrite (part : Nat) (s : State) : exec (.partialWindowWrite part) s = execPartialWindowWrite part s := rfl
theorem exec_launchPacket (packet : Nat) (s : State) : exec (.launchPacket packet) s = execLaunchPacket packet s := rfl
theorem exec_loaderPlacement (lid : Nat) (s : State) : exec (.loaderPlacement lid) s = execLoaderPlacement lid s := rfl
theorem exec_launchEnd (lid : Nat) (s : State) : exec (.launchEnd lid) s = execLaunchEnd lid s := rfl
theorem exec_mapRequestMap (part req : Nat) (s : State) : exec (.mapRequestMap part req) s = execMapRequestMap part req s := rfl
theorem exec_mapRequestUnmap (part req : Nat) (s : State) : exec (.mapRequestUnmap part req) s = execMapRequestUnmap part req s := rfl
theorem exec_mapRequestProtect (part req : Nat) (s : State) : exec (.mapRequestProtect part req) s = execMapRequestProtect part req s := rfl
theorem exec_mapRequestMigrate (part req : Nat) (s : State) : exec (.mapRequestMigrate part req) s = execMapRequestMigrate part req s := rfl
theorem exec_mapRequestOrder (part req : Nat) (s : State) : exec (.mapRequestOrder part req) s = execMapRequestOrder part req s := rfl
theorem exec_invalidationComplete (part : Nat) (s : State) : exec (.invalidationComplete part) s = execInvalidationComplete part s := rfl
theorem exec_migrationSpliceBeat (part : Nat) (s : State) : exec (.migrationSpliceBeat part) s = execMigrationSpliceBeat part s := rfl
theorem exec_migrationRedirect (part : Nat) (s : State) : exec (.migrationRedirect part) s = execMigrationRedirect part s := rfl
theorem exec_migrationDone (part : Nat) (s : State) : exec (.migrationDone part) s = execMigrationDone part s := rfl
theorem exec_ctrlSuspend (part : Nat) (s : State) : exec (.ctrlSuspend part) s = execCtrlSuspend part s := rfl
theorem exec_ctrlResume (part : Nat) (s : State) : exec (.ctrlResume part) s = execCtrlResume part s := rfl
theorem exec_routerStatusWrite (part k : Nat) (s : State) : exec (.routerStatusWrite part k) s = execRouterStatusWrite part k s := rfl
theorem exec_registerWrite (part off val : Nat) (s : State) : exec (.registerWrite part off val) s = execRegisterWrite part off val s := rfl
theorem exec_linkTransferWrite (part req : Nat) (s : State) : exec (.linkTransferWrite part req) s = execLinkTransferWrite part req s := rfl
theorem exec_linkTransferRead (part req : Nat) (s : State) : exec (.linkTransferRead part req) s = execLinkTransferRead part req s := rfl
theorem exec_hostWriteTlp (part pa : Nat) (bytes : List Nat) (ep : Bool) (s : State) : exec (.hostWriteTlp part pa bytes ep) s = execHostWriteTlp part pa bytes ep s := rfl
theorem exec_hostReadTlp (part pa n : Nat) (s : State) : exec (.hostReadTlp part pa n) s = execHostReadTlp part pa n s := rfl
theorem exec_cxlReadReturn (t c id : Nat) (poisoned : Bool) (s : State) : exec (.cxlReadReturn t c id poisoned) s = execCxlReadReturn t c id poisoned s := rfl
theorem exec_d2dFrameReceipt (link : Nat) (toHigh : Bool) (s : State) : exec (.d2dFrameReceipt link toHigh) s = execD2dFrameReceipt link toHigh s := rfl
theorem exec_frameReplay (link : Nat) (toHigh : Bool) (s : State) : exec (.frameReplay link toHigh) s = execFrameReplay link toHigh s := rfl
theorem exec_linkDown (link : Nat) (s : State) : exec (.linkDown link) s = execLinkDown link s := rfl
theorem exec_quoteExpiryCompletion (t q id : Nat) (s : State) : exec (.quoteExpiryCompletion t q id) s = execQuoteExpiryCompletion t q id s := rfl
theorem exec_flushMarkerReturn (link : Nat) (s : State) : exec (.flushMarkerReturn link) s = execFlushMarkerReturn link s := rfl
theorem exec_meterFold (s : State) : exec .meterFold s = execMeterFold s := rfl
theorem exec_submitConfiguration (record sig key newKey : Nat) (s : State) : exec (.submitConfiguration record sig key newKey) s = execSubmitConfiguration record sig key newKey s := rfl
theorem exec_submitSparing (kind die unit index : Nat) (fence : Bool) (s : State) : exec (.submitSparing kind die unit index fence) s = execSubmitSparing kind die unit index fence s := rfl
theorem exec_submitSchedulingRecord (part rec : Nat) (s : State) : exec (.submitSchedulingRecord part rec) s = execSubmitSchedulingRecord part rec s := rfl
theorem exec_partitionControl (part op : Nat) (s : State) : exec (.partitionControl part op) s = execPartitionControl part op s := rfl
theorem exec_dieReset (die : Nat) (s : State) : exec (.dieReset die) s = execDieReset die s := rfl
theorem exec_retrainLink (link : Nat) (s : State) : exec (.retrainLink link) s = execRetrainLink link s := rfl
theorem exec_readRouterStatus (t : Nat) (s : State) : exec (.readRouterStatus t) s = execReadRouterStatus t s := rfl
theorem exec_checkpoint (s : State) : exec .checkpoint s = execCheckpoint s := rfl
theorem exec_readErrorLog (s : State) : exec .readErrorLog s = execReadErrorLog s := rfl
theorem exec_selfTest (n : Nat) (pass : Bool) (s : State) : exec (.selfTest n pass) s = execSelfTest n pass s := rfl
theorem exec_hbmScrub (stack sector : Nat) (s : State) : exec (.hbmScrub stack sector) s = execHbmScrub stack sector s := rfl
theorem exec_powerOn (s : State) : exec .powerOn s = execPowerOn s := rfl
theorem exec_temperatureWarning (die : Nat) (s : State) : exec (.temperatureWarning die) s = execTemperatureWarning die s := rfl
theorem exec_temperatureShutdown (die : Nat) (s : State) : exec (.temperatureShutdown die) s = execTemperatureShutdown die s := rfl
theorem exec_clockCycle (die : Nat) (s : State) : exec (.clockCycle die) s = execClockCycle die s := rfl
theorem exec_arrivalAnswer (t c : Nat) (s : State) : exec (.arrivalAnswer t c) s = execArrivalAnswer t c s := rfl
theorem exec_peerLinkTransfer (peer ppart : Nat) (dirRead : Bool) (part rva len : Nat) (data : List Nat) (s : State) : exec (.peerLinkTransfer peer ppart dirRead part rva len data) s = execPeerLinkTransfer peer ppart dirRead part rva len data s := rfl
theorem exec_zeroLengthReadCompletion (t c : Nat) (s : State) : exec (.zeroLengthReadCompletion t c) s = execZeroLengthReadCompletion t c s := rfl
theorem exec_getVersion (r : Requester) (s : State) : exec (.getVersion r) s = execGetVersion r s := rfl
theorem exec_getCapabilities (r : Requester) (s : State) : exec (.getCapabilities r) s = execGetCapabilities r s := rfl
theorem exec_negotiateAlgorithms (r : Requester) (offer : List String) (s : State) : exec (.negotiateAlgorithms r offer) s = execNegotiateAlgorithms r offer s := rfl
theorem exec_getDigests (r : Requester) (s : State) : exec (.getDigests r) s = execGetDigests r s := rfl
theorem exec_getCertificate (r : Requester) (s : State) : exec (.getCertificate r) s = execGetCertificate r s := rfl
theorem exec_challenge (r : Requester) (nonce : Nat) (s : State) : exec (.challenge r nonce) s = execChallenge r nonce s := rfl
theorem exec_getMeasurements (r : Requester) (index : Nat) (s : State) : exec (.getMeasurements r index) s = execGetMeasurements r index s := rfl
theorem exec_keyExchange (r : Requester) (keyHash share : Nat) (s : State) : exec (.keyExchange r keyHash share) s = execKeyExchange r keyHash share s := rfl
theorem exec_finish (r : Requester) (proof : Nat) (s : State) : exec (.finish r proof) s = execFinish r proof s := rfl
theorem exec_endSession (r : Requester) (s : State) : exec (.endSession r) s = execEndSession r s := rfl
theorem exec_getcolo (r : Requester) (part nonce : Nat) (s : State) : exec (.getcolo r part nonce) s = execGetcolo r part nonce s := rfl
theorem exec_setcaps (r : Requester) (part : Nat) (caps : List Nat) (s : State) : exec (.setcaps r part caps) s = execSetcaps r part caps s := rfl
theorem exec_getcaps (r : Requester) (part : Nat) (s : State) : exec (.getcaps r part) s = execGetcaps r part s := rfl

end Sys2Proof.Machine
end

