-- ==== Sys2Proof/Laws/PerInstr.lean ====
section
/-! SUPPORT. One statement for every instruction, lemma by lemma: the words that encode a well-formed instruction fit in 64 bits (R71, R73). -/

namespace Sys2Proof.Laws.WordsFit

/-- Every word of the instruction is below 2^64. -/
def Statement (i : Instr) : Prop := i.wf = true → ∀ w ∈ encode i, w < 2 ^ 64

/-! The limits of the operands that the words carry. -/

theorem ty_lt (t : IntTy) : t.code < 3 := by cases t <;> decide
theorem ext_lt (t : ExtW) : t.code < 3 := by cases t <;> decide
theorem ff_lt (t : FFmt) : t.code < 2 := by cases t <;> decide
theorem rm_lt (t : RmCode) : t.code < 5 := by cases t <;> decide
theorem frel_lt (t : FRel) : t.code < 4 := by cases t <;> decide
theorem conv_lt (t : Conv) : t.code < 14 := by cases t <;> decide
theorem rel_lt (t : Rel) : t.code < 6 := by cases t <;> decide
theorem wop_lt (t : Wop) : t.code < 11 := by cases t <;> decide
theorem ord_lt (t : Ord) : t.code < 5 := by cases t <;> decide
theorem amo_lt (t : AmoOp) : t.code < 10 := by cases t <;> decide
theorem scope_lt (t : Scope) : t.code < 5 := by cases t <;> decide
theorem fence_lt (t : FenceKind) : t.code < 4 := by cases t <;> decide
theorem space_lt (t : PatSpace) : t.code < 6 := by cases t <;> decide
theorem field_lt (t : PatField) : t.code < 8 := by cases t <;> decide

theorem qmask_lt {m : Nat} (h : qmaskOk m = true) : m < 16 := by
  simp only [qmaskOk, List.contains_eq_mem, List.mem_cons, List.not_mem_nil, or_false, decide_eq_true_eq] at h
  omega

/-- The word of an integer operation. -/
theorem int_fits (major fn : Nat) (ty : IntTy) (d a b : Nat) (hm : major < 256) (hf : fn < 16)
    (h : (xOk d && xOk a && xOk b) = true) : ∀ w ∈ encInt major fn ty d a b, w < 2 ^ 64 := by
  simp only [xOk, Bool.and_eq_true, decide_eq_true_eq] at h
  have ht := ty_lt ty
  simp only [encInt, List.mem_singleton, forall_eq, joinT]
  omega

/-- The word of a memory operation. -/
theorem mem_fits (major : Nat) (m : MemArgs) (hm : major < 256) (hd : memDataOk m.w m.data = true) (ha : memAddrOk m = true) :
    ∀ w ∈ encMem major m, w < 2 ^ 64 := by
  have hw := wop_lt m.w
  have ho := ord_lt m.ord
  have hd : m.data < 32 := by
    cases hm : m.w <;> simp only [hm, memDataOk, xOk, fOk, Bool.and_eq_true, decide_eq_true_eq] at hd <;> omega
  simp only [memAddrOk, xOk, immOk, Bool.and_eq_true, decide_eq_true_eq] at ha
  simp only [encMem, List.mem_singleton, forall_eq, joinM]
  omega

/-- The word of a load. -/
theorem load_fits (major : Nat) (host : Bool) (m : MemArgs) (hm : major < 256) (h : loadOk host m = true) : ∀ w ∈ encMem major m, w < 2 ^ 64 := by
  simp only [loadOk, Bool.and_eq_true] at h
  exact mem_fits major m hm h.1.2 h.2

/-- The word of a store. -/
theorem store_fits (major : Nat) (host : Bool) (m : MemArgs) (hm : major < 256) (h : storeOk host m = true) : ∀ w ∈ encMem major m, w < 2 ^ 64 := by
  simp only [storeOk, Bool.and_eq_true] at h
  exact mem_fits major m hm h.1.2 h.2

/-- The word of an atomic. -/
theorem amo_fits (major : Nat) (m : AmoArgs) (hm : major < 256) (h : amoOk m = true) : ∀ w ∈ encAmo major m, w < 2 ^ 64 := by
  have hw := amo_lt m.op
  have ho := ord_lt m.ord
  have hb := b2n_le m.wide
  simp only [amoOk, xOk, immOk, Bool.and_eq_true, decide_eq_true_eq] at h
  simp only [encAmo, List.mem_singleton, forall_eq, joinM]
  omega

/-- The word of a stream or a copy. -/
theorem q_fits (major fn : Nat) (q : QArgs) (hm : major < 256) (hf : fn < 16) (h : qOk q = true) : ∀ w ∈ encQ major fn q, w < 2 ^ 64 := by
  have h1 := b2n_le q.sat
  have h2 := b2n_le q.grp
  simp only [qOk, ctrOk, pOk, xOk, Bool.and_eq_true, decide_eq_true_eq] at h
  simp only [encQ, List.mem_singleton, forall_eq, joinQ, qFlags]
  omega

/-- The words of a block. -/
theorem block_fits (major cls : Nat) (b : BlockArgs) (hm : major < 256) (hc : cls < 16) (h : blockOk cls b = true) :
    ∀ w ∈ encBlock major cls b, w < 2 ^ 64 := by
  simp only [blockOk, Bool.and_eq_true, decide_eq_true_eq, List.all_eq_true] at h
  have h1 := b2n_le b.hold
  have h2 := b2n_le b.keep
  have h3 := b2n_le b.sat
  have hq := qmask_lt h.1.1.1.1.1.1.1.1.1.1
  simp only [encBlock, List.mem_cons, List.mem_append, List.mem_map]
  rintro w (rfl | rfl | ⟨p, hp, rfl⟩ | ⟨x, hx, rfl⟩)
  · simp only [joinK]; omega
  · exact joinWeave_lt (by simp_all)
  · have hl := List.mem_zipIdx hp
    have ht := h.1.1.1.2 p.1 (by rw [hl.2.2]; exact List.getElem_mem _)
    simp only [joinLoop]; omega
  · exact joinBind_lt (h.1.1.2 x hx)

/-! The lemmas, in the order of the table. -/

theorem add (ty : IntTy) (d a b : Nat) : Statement (.add ty d a b) := fun h => int_fits _ _ _ _ _ _ (by decide) (by decide) h
theorem sub (ty : IntTy) (d a b : Nat) : Statement (.sub ty d a b) := fun h => int_fits _ _ _ _ _ _ (by decide) (by decide) h
theorem mul (ty : IntTy) (d a b : Nat) : Statement (.mul ty d a b) := fun h => int_fits _ _ _ _ _ _ (by decide) (by decide) h
theorem mulh (ty : IntTy) (d a b : Nat) : Statement (.mulh ty d a b) := fun h => int_fits _ _ _ _ _ _ (by decide) (by decide) h
theorem mulhn (ty : IntTy) (d a b : Nat) : Statement (.mulhn ty d a b) := fun h => int_fits _ _ _ _ _ _ (by decide) (by decide) h
theorem div (ty : IntTy) (d a b : Nat) : Statement (.div ty d a b) := fun h => int_fits _ _ _ _ _ _ (by decide) (by decide) h
theorem divn (ty : IntTy) (d a b : Nat) : Statement (.divn ty d a b) := fun h => int_fits _ _ _ _ _ _ (by decide) (by decide) h
theorem rem (ty : IntTy) (d a b : Nat) : Statement (.rem ty d a b) := fun h => int_fits _ _ _ _ _ _ (by decide) (by decide) h
theorem remn (ty : IntTy) (d a b : Nat) : Statement (.remn ty d a b) := fun h => int_fits _ _ _ _ _ _ (by decide) (by decide) h
theorem min (ty : IntTy) (d a b : Nat) : Statement (.min ty d a b) := fun h => int_fits _ _ _ _ _ _ (by decide) (by decide) h
theorem max (ty : IntTy) (d a b : Nat) : Statement (.max ty d a b) := fun h => int_fits _ _ _ _ _ _ (by decide) (by decide) h
theorem minn (ty : IntTy) (d a b : Nat) : Statement (.minn ty d a b) := fun h => int_fits _ _ _ _ _ _ (by decide) (by decide) h
theorem maxn (ty : IntTy) (d a b : Nat) : Statement (.maxn ty d a b) := fun h => int_fits _ _ _ _ _ _ (by decide) (by decide) h
theorem and (ty : IntTy) (d a b : Nat) : Statement (.and ty d a b) := fun h => int_fits _ _ _ _ _ _ (by decide) (by decide) h
theorem or (ty : IntTy) (d a b : Nat) : Statement (.or ty d a b) := fun h => int_fits _ _ _ _ _ _ (by decide) (by decide) h
theorem xor (ty : IntTy) (d a b : Nat) : Statement (.xor ty d a b) := fun h => int_fits _ _ _ _ _ _ (by decide) (by decide) h
theorem andn (ty : IntTy) (d a b : Nat) : Statement (.andn ty d a b) := fun h => int_fits _ _ _ _ _ _ (by decide) (by decide) h
theorem orn (ty : IntTy) (d a b : Nat) : Statement (.orn ty d a b) := fun h => int_fits _ _ _ _ _ _ (by decide) (by decide) h
theorem shl (ty : IntTy) (d a b : Nat) : Statement (.shl ty d a b) := fun h => int_fits _ _ _ _ _ _ (by decide) (by decide) h
theorem shr (ty : IntTy) (d a b : Nat) : Statement (.shr ty d a b) := fun h => int_fits _ _ _ _ _ _ (by decide) (by decide) h
theorem sha (ty : IntTy) (d a b : Nat) : Statement (.sha ty d a b) := fun h => int_fits _ _ _ _ _ _ (by decide) (by decide) h
theorem cmpeq (ty : IntTy) (d a b : Nat) : Statement (.cmpeq ty d a b) := fun h => int_fits _ _ _ _ _ _ (by decide) (by decide) h
theorem cmplt (ty : IntTy) (d a b : Nat) : Statement (.cmplt ty d a b) := fun h => int_fits _ _ _ _ _ _ (by decide) (by decide) h
theorem cmpltn (ty : IntTy) (d a b : Nat) : Statement (.cmpltn ty d a b) := fun h => int_fits _ _ _ _ _ _ (by decide) (by decide) h
theorem csel (d a b c : Nat) : Statement (.csel d a b c) := by
  intro h
  change (xOk d && xOk a && xOk b && xOk c) = true at h
  change ∀ u ∈ [joinT 0x11 ⟨11, d, a, b, c, 0, 0⟩], u < 2 ^ 64
  simp only [xOk, Bool.and_eq_true, decide_eq_true_eq] at h
  simp only [List.mem_singleton, forall_eq, joinT]; omega
theorem mov (d a : Nat) : Statement (.mov d a) := by
  intro h
  change (xOk d && xOk a) = true at h
  change ∀ u ∈ [joinT 0x11 ⟨12, d, a, 0, 0, 0, 0⟩], u < 2 ^ 64
  simp only [xOk, Bool.and_eq_true, decide_eq_true_eq] at h
  simp only [List.mem_singleton, forall_eq, joinT]; omega
theorem clz (ty : IntTy) (d a : Nat) : Statement (.clz ty d a) := by
  intro h
  change (xOk d && xOk a) = true at h
  change ∀ u ∈ [joinT 0x12 ⟨0, d, a, 0, 0, ty.code, 0⟩], u < 2 ^ 64
  have h0 := ty_lt ty
  simp only [xOk, Bool.and_eq_true, decide_eq_true_eq] at h
  simp only [List.mem_singleton, forall_eq, joinT]; omega
theorem ctz (ty : IntTy) (d a : Nat) : Statement (.ctz ty d a) := by
  intro h
  change (xOk d && xOk a) = true at h
  change ∀ u ∈ [joinT 0x12 ⟨1, d, a, 0, 0, ty.code, 0⟩], u < 2 ^ 64
  have h0 := ty_lt ty
  simp only [xOk, Bool.and_eq_true, decide_eq_true_eq] at h
  simp only [List.mem_singleton, forall_eq, joinT]; omega
theorem popc (ty : IntTy) (d a : Nat) : Statement (.popc ty d a) := by
  intro h
  change (xOk d && xOk a) = true at h
  change ∀ u ∈ [joinT 0x12 ⟨2, d, a, 0, 0, ty.code, 0⟩], u < 2 ^ 64
  have h0 := ty_lt ty
  simp only [xOk, Bool.and_eq_true, decide_eq_true_eq] at h
  simp only [List.mem_singleton, forall_eq, joinT]; omega
theorem sext (w : ExtW) (d a : Nat) : Statement (.sext w d a) := by
  intro h
  change (xOk d && xOk a) = true at h
  change ∀ u ∈ [joinT 0x12 ⟨3, d, a, 0, 0, w.code, 0⟩], u < 2 ^ 64
  have h0 := ext_lt w
  simp only [xOk, Bool.and_eq_true, decide_eq_true_eq] at h
  simp only [List.mem_singleton, forall_eq, joinT]; omega
theorem zext (w : ExtW) (d a : Nat) : Statement (.zext w d a) := by
  intro h
  change (xOk d && xOk a) = true at h
  change ∀ u ∈ [joinT 0x12 ⟨4, d, a, 0, 0, w.code, 0⟩], u < 2 ^ 64
  have h0 := ext_lt w
  simp only [xOk, Bool.and_eq_true, decide_eq_true_eq] at h
  simp only [List.mem_singleton, forall_eq, joinT]; omega
theorem addx (shift d a b : Nat) : Statement (.addx shift d a b) := by
  intro h
  change (decide (shift < 7) && xOk d && xOk a && xOk b) = true at h
  change ∀ u ∈ [joinT 0x12 ⟨5, d, a, b, 0, shift, 0⟩], u < 2 ^ 64
  simp only [xOk, Bool.and_eq_true, decide_eq_true_eq] at h
  simp only [List.mem_singleton, forall_eq, joinT]; omega
theorem morton (three : Bool) (d a b c : Nat) : Statement (.morton three d a b c) := by
  intro h
  change (xOk d && xOk a && xOk b && xOk c && (three || c == 0)) = true at h
  change ∀ u ∈ [joinT 0x12 ⟨6, d, a, b, c, b2n three, 0⟩], u < 2 ^ 64
  have h0 := b2n_le three
  simp only [xOk, Bool.and_eq_true, decide_eq_true_eq] at h
  simp only [List.mem_singleton, forall_eq, joinT]; omega
theorem addi (ty : IntTy) (d a imm : Nat) : Statement (.addi ty d a imm) := by
  intro h
  change (xOk d && xOk a && immOk imm) = true at h
  change ∀ u ∈ encImm 0 d a ty.code imm, u < 2 ^ 64
  have h0 := ty_lt ty
  simp only [xOk, immOk, Bool.and_eq_true, decide_eq_true_eq] at h
  simp only [encImm, List.mem_singleton, forall_eq, joinI]; omega
theorem andi (ty : IntTy) (d a imm : Nat) : Statement (.andi ty d a imm) := by
  intro h
  change (xOk d && xOk a && immOk imm) = true at h
  change ∀ u ∈ encImm 1 d a ty.code imm, u < 2 ^ 64
  have h0 := ty_lt ty
  simp only [xOk, immOk, Bool.and_eq_true, decide_eq_true_eq] at h
  simp only [encImm, List.mem_singleton, forall_eq, joinI]; omega
theorem ori (ty : IntTy) (d a imm : Nat) : Statement (.ori ty d a imm) := by
  intro h
  change (xOk d && xOk a && immOk imm) = true at h
  change ∀ u ∈ encImm 2 d a ty.code imm, u < 2 ^ 64
  have h0 := ty_lt ty
  simp only [xOk, immOk, Bool.and_eq_true, decide_eq_true_eq] at h
  simp only [encImm, List.mem_singleton, forall_eq, joinI]; omega
theorem xori (ty : IntTy) (d a imm : Nat) : Statement (.xori ty d a imm) := by
  intro h
  change (xOk d && xOk a && immOk imm) = true at h
  change ∀ u ∈ encImm 3 d a ty.code imm, u < 2 ^ 64
  have h0 := ty_lt ty
  simp only [xOk, immOk, Bool.and_eq_true, decide_eq_true_eq] at h
  simp only [encImm, List.mem_singleton, forall_eq, joinI]; omega
theorem shli (ty : IntTy) (d a n : Nat) : Statement (.shli ty d a n) := by
  intro h
  change (xOk d && xOk a && shImmOk ty n) = true at h
  change ∀ u ∈ encImm 4 d a ty.code n, u < 2 ^ 64
  have h0 := ty_lt ty
  simp only [xOk, shImmOk, Bool.and_eq_true, decide_eq_true_eq] at h
  have hn : n < 64 := by have h := h.2; split at h <;> omega
  simp only [encImm, List.mem_singleton, forall_eq, joinI]; omega
theorem shri (ty : IntTy) (d a n : Nat) : Statement (.shri ty d a n) := by
  intro h
  change (xOk d && xOk a && shImmOk ty n) = true at h
  change ∀ u ∈ encImm 5 d a ty.code n, u < 2 ^ 64
  have h0 := ty_lt ty
  simp only [xOk, shImmOk, Bool.and_eq_true, decide_eq_true_eq] at h
  have hn : n < 64 := by have h := h.2; split at h <;> omega
  simp only [encImm, List.mem_singleton, forall_eq, joinI]; omega
theorem shai (ty : IntTy) (d a n : Nat) : Statement (.shai ty d a n) := by
  intro h
  change (xOk d && xOk a && shImmOk ty n) = true at h
  change ∀ u ∈ encImm 6 d a ty.code n, u < 2 ^ 64
  have h0 := ty_lt ty
  simp only [xOk, shImmOk, Bool.and_eq_true, decide_eq_true_eq] at h
  have hn : n < 64 := by have h := h.2; split at h <;> omega
  simp only [encImm, List.mem_singleton, forall_eq, joinI]; omega
theorem li (d imm : Nat) : Statement (.li d imm) := by
  intro h
  change (xOk d && immOk imm) = true at h
  change ∀ u ∈ encImm 7 d 0 0 imm, u < 2 ^ 64
  simp only [xOk, immOk, Bool.and_eq_true, decide_eq_true_eq] at h
  simp only [encImm, List.mem_singleton, forall_eq, joinI]; omega
theorem lui (d a imm : Nat) : Statement (.lui d a imm) := by
  intro h
  change (xOk d && xOk a && immOk imm) = true at h
  change ∀ u ∈ encImm 8 d a 0 imm, u < 2 ^ 64
  simp only [xOk, immOk, Bool.and_eq_true, decide_eq_true_eq] at h
  simp only [encImm, List.mem_singleton, forall_eq, joinI]; omega
theorem bext (d a pos len : Nat) : Statement (.bext d a pos len) := by
  intro h
  change (xOk d && xOk a && decide (1 ≤ len) && decide (pos + len ≤ 64)) = true at h
  change ∀ u ∈ encImm 9 d a 0 (pos + (len - 1) * 2 ^ 8), u < 2 ^ 64
  simp only [xOk, Bool.and_eq_true, decide_eq_true_eq] at h
  simp only [encImm, List.mem_singleton, forall_eq, joinI]; omega
theorem bins (d a pos len : Nat) : Statement (.bins d a pos len) := by
  intro h
  change (xOk d && xOk a && decide (1 ≤ len) && decide (pos + len ≤ 64)) = true at h
  change ∀ u ∈ encImm 10 d a 0 (pos + (len - 1) * 2 ^ 8), u < 2 ^ 64
  simp only [xOk, Bool.and_eq_true, decide_eq_true_eq] at h
  simp only [encImm, List.mem_singleton, forall_eq, joinI]; omega
theorem demorton (three : Bool) (d a k : Nat) : Statement (.demorton three d a k) := by
  intro h
  change (xOk d && xOk a && decide (k < if three then 3 else 2)) = true at h
  change ∀ u ∈ encImm 11 d a (b2n three + 2 * k) 0, u < 2 ^ 64
  have h0 := b2n_le three
  simp only [xOk, Bool.and_eq_true, decide_eq_true_eq] at h
  have hk : k < 3 := by have h := h.2; split at h <;> omega
  simp only [encImm, List.mem_singleton, forall_eq, joinI]; omega
theorem fadd (f : FFmt) (rm : RmCode) (d a b : Nat) : Statement (.fadd f rm d a b) := by
  intro h
  change (fOk d && fOk a && fOk b) = true at h
  change ∀ u ∈ encF 0 d a b 0 f rm.code, u < 2 ^ 64
  have h0 := ff_lt f
  have h1 := rm_lt rm
  simp only [fOk, Bool.and_eq_true, decide_eq_true_eq] at h
  simp only [encF, List.mem_singleton, forall_eq, joinT]; omega
theorem fsub (f : FFmt) (rm : RmCode) (d a b : Nat) : Statement (.fsub f rm d a b) := by
  intro h
  change (fOk d && fOk a && fOk b) = true at h
  change ∀ u ∈ encF 1 d a b 0 f rm.code, u < 2 ^ 64
  have h0 := ff_lt f
  have h1 := rm_lt rm
  simp only [fOk, Bool.and_eq_true, decide_eq_true_eq] at h
  simp only [encF, List.mem_singleton, forall_eq, joinT]; omega
theorem fmul (f : FFmt) (rm : RmCode) (d a b : Nat) : Statement (.fmul f rm d a b) := by
  intro h
  change (fOk d && fOk a && fOk b) = true at h
  change ∀ u ∈ encF 2 d a b 0 f rm.code, u < 2 ^ 64
  have h0 := ff_lt f
  have h1 := rm_lt rm
  simp only [fOk, Bool.and_eq_true, decide_eq_true_eq] at h
  simp only [encF, List.mem_singleton, forall_eq, joinT]; omega
theorem ffma (f : FFmt) (rm : RmCode) (d a b c : Nat) : Statement (.ffma f rm d a b c) := by
  intro h
  change (fOk d && fOk a && fOk b && fOk c) = true at h
  change ∀ u ∈ encF 3 d a b c f rm.code, u < 2 ^ 64
  have h0 := ff_lt f
  have h1 := rm_lt rm
  simp only [fOk, Bool.and_eq_true, decide_eq_true_eq] at h
  simp only [encF, List.mem_singleton, forall_eq, joinT]; omega
theorem fdiv (f : FFmt) (rm : RmCode) (d a b : Nat) : Statement (.fdiv f rm d a b) := by
  intro h
  change (fOk d && fOk a && fOk b) = true at h
  change ∀ u ∈ encF 4 d a b 0 f rm.code, u < 2 ^ 64
  have h0 := ff_lt f
  have h1 := rm_lt rm
  simp only [fOk, Bool.and_eq_true, decide_eq_true_eq] at h
  simp only [encF, List.mem_singleton, forall_eq, joinT]; omega
theorem fsqrt (f : FFmt) (rm : RmCode) (d a : Nat) : Statement (.fsqrt f rm d a) := by
  intro h
  change (fOk d && fOk a) = true at h
  change ∀ u ∈ encF 5 d a 0 0 f rm.code, u < 2 ^ 64
  have h0 := ff_lt f
  have h1 := rm_lt rm
  simp only [fOk, Bool.and_eq_true, decide_eq_true_eq] at h
  simp only [encF, List.mem_singleton, forall_eq, joinT]; omega
theorem fmin (f : FFmt) (d a b : Nat) : Statement (.fmin f d a b) := by
  intro h
  change (fOk d && fOk a && fOk b) = true at h
  change ∀ u ∈ encF 6 d a b 0 f 0, u < 2 ^ 64
  have h0 := ff_lt f
  simp only [fOk, Bool.and_eq_true, decide_eq_true_eq] at h
  simp only [encF, List.mem_singleton, forall_eq, joinT]; omega
theorem fmax (f : FFmt) (d a b : Nat) : Statement (.fmax f d a b) := by
  intro h
  change (fOk d && fOk a && fOk b) = true at h
  change ∀ u ∈ encF 7 d a b 0 f 0, u < 2 ^ 64
  have h0 := ff_lt f
  simp only [fOk, Bool.and_eq_true, decide_eq_true_eq] at h
  simp only [encF, List.mem_singleton, forall_eq, joinT]; omega
theorem fcmp (f : FFmt) (r : FRel) (d a b : Nat) : Statement (.fcmp f r d a b) := by
  intro h
  change (xOk d && fOk a && fOk b) = true at h
  change ∀ u ∈ encF 8 d a b 0 f r.code, u < 2 ^ 64
  have h0 := ff_lt f
  have h1 := frel_lt r
  simp only [xOk, fOk, Bool.and_eq_true, decide_eq_true_eq] at h
  simp only [encF, List.mem_singleton, forall_eq, joinT]; omega
theorem fcvt (c : Conv) (rm : RmCode) (d a : Nat) : Statement (.fcvt c rm d a) := by
  intro h
  change ((if c.dstX then xOk d else fOk d) && (if c.srcX then xOk a else fOk a)) = true at h
  change ∀ u ∈ [joinT 0x30 ⟨9, d, a, 0, rm.code, c.code, 0⟩], u < 2 ^ 64
  have h0 := conv_lt c
  have h1 := rm_lt rm
  simp only [Bool.and_eq_true] at h
  have hd : d < 32 := by have h := h.1; split at h <;> simp only [xOk, fOk, decide_eq_true_eq] at h <;> omega
  have ha : a < 32 := by have h := h.2; split at h <;> simp only [xOk, fOk, decide_eq_true_eq] at h <;> omega
  simp only [List.mem_singleton, forall_eq, joinT]; omega
theorem fclass (f : FFmt) (d a : Nat) : Statement (.fclass f d a) := by
  intro h
  change (xOk d && fOk a) = true at h
  change ∀ u ∈ encF 10 d a 0 0 f 0, u < 2 ^ 64
  have h0 := ff_lt f
  simp only [xOk, fOk, Bool.and_eq_true, decide_eq_true_eq] at h
  simp only [encF, List.mem_singleton, forall_eq, joinT]; omega
theorem fmovx (f : FFmt) (d a : Nat) : Statement (.fmovx f d a) := by
  intro h
  change (xOk d && fOk a) = true at h
  change ∀ u ∈ encF 11 d a 0 0 f 0, u < 2 ^ 64
  have h0 := ff_lt f
  simp only [xOk, fOk, Bool.and_eq_true, decide_eq_true_eq] at h
  simp only [encF, List.mem_singleton, forall_eq, joinT]; omega
theorem fmovf (f : FFmt) (d a : Nat) : Statement (.fmovf f d a) := by
  intro h
  change (fOk d && xOk a) = true at h
  change ∀ u ∈ encF 12 d a 0 0 f 0, u < 2 ^ 64
  have h0 := ff_lt f
  simp only [xOk, fOk, Bool.and_eq_true, decide_eq_true_eq] at h
  simp only [encF, List.mem_singleton, forall_eq, joinT]; omega
theorem bc (c : BCond) (woff : Nat) : Statement (.bc c woff) := by
  intro h
  cases c with
  | rel r a b =>
    change (xOk a && xOk b && immOk woff) = true at h
    change ∀ u ∈ [joinB 0x40 ⟨r.code, a, b, 0, 0, woff⟩], u < 2 ^ 64
    have h0 := rel_lt r
    simp only [xOk, immOk, Bool.and_eq_true, decide_eq_true_eq] at h
    simp only [List.mem_singleton, forall_eq, joinB]; omega
  | p k =>
    change (bOk k && immOk woff) = true at h
    change ∀ u ∈ [joinB 0x40 ⟨6, 0, 0, k, 0, woff⟩], u < 2 ^ 64
    simp only [bOk, immOk, Bool.and_eq_true, decide_eq_true_eq] at h
    simp only [List.mem_singleton, forall_eq, joinB]; omega
  | np k =>
    change (bOk k && immOk woff) = true at h
    change ∀ u ∈ [joinB 0x40 ⟨7, 0, 0, k, 0, woff⟩], u < 2 ^ 64
    simp only [bOk, immOk, Bool.and_eq_true, decide_eq_true_eq] at h
    simp only [List.mem_singleton, forall_eq, joinB]; omega
theorem jmp (woff : Nat) : Statement (.jmp woff) := by
  intro h
  change (immOk woff) = true at h
  change ∀ u ∈ [joinB 0x41 ⟨0, 0, 0, 0, 0, woff⟩], u < 2 ^ 64
  simp only [immOk, decide_eq_true_eq] at h
  simp only [List.mem_singleton, forall_eq, joinB]; omega
theorem call (link woff : Nat) : Statement (.call link woff) := by
  intro h
  change (xOk link && immOk woff) = true at h
  change ∀ u ∈ [joinB 0x42 ⟨0, link, 0, 0, 0, woff⟩], u < 2 ^ 64
  simp only [xOk, immOk, Bool.and_eq_true, decide_eq_true_eq] at h
  simp only [List.mem_singleton, forall_eq, joinB]; omega
theorem jmpx (link a : Nat) : Statement (.jmpx link a) := by
  intro h
  change (xOk link && xOk a) = true at h
  change ∀ u ∈ [joinT 0x43 ⟨0, link, a, 0, 0, 0, 0⟩], u < 2 ^ 64
  simp only [xOk, Bool.and_eq_true, decide_eq_true_eq] at h
  simp only [List.mem_singleton, forall_eq, joinT]; omega
theorem ret (a : Nat) : Statement (.ret a) := by
  intro h
  change (xOk a) = true at h
  change ∀ u ∈ [joinT 0x43 ⟨1, 0, a, 0, 0, 0, 0⟩], u < 2 ^ 64
  simp only [xOk, decide_eq_true_eq] at h
  simp only [List.mem_singleton, forall_eq, joinT]; omega
theorem loop (a woff : Nat) : Statement (.loop a woff) := by
  intro h
  change (xOk a && immOk woff) = true at h
  change ∀ u ∈ [joinB 0x44 ⟨0, a, 0, 0, 0, woff⟩], u < 2 ^ 64
  simp only [xOk, immOk, Bool.and_eq_true, decide_eq_true_eq] at h
  simp only [List.mem_singleton, forall_eq, joinB]; omega
theorem pset (r : Rel) (d a b : Nat) : Statement (.pset r d a b) := by
  intro h
  change (bOk d && xOk a && xOk b) = true at h
  change ∀ u ∈ [joinT 0x48 ⟨0, d, a, b, 0, r.code, 0⟩], u < 2 ^ 64
  have h0 := rel_lt r
  simp only [xOk, bOk, Bool.and_eq_true, decide_eq_true_eq] at h
  simp only [List.mem_singleton, forall_eq, joinT]; omega
theorem pand (d a b : Nat) : Statement (.pand d a b) := by
  intro h
  change (bOk d && bOk a && bOk b) = true at h
  change ∀ u ∈ [joinT 0x48 ⟨1, d, a, b, 0, 0, 0⟩], u < 2 ^ 64
  simp only [bOk, Bool.and_eq_true, decide_eq_true_eq] at h
  simp only [List.mem_singleton, forall_eq, joinT]; omega
theorem por (d a b : Nat) : Statement (.por d a b) := by
  intro h
  change (bOk d && bOk a && bOk b) = true at h
  change ∀ u ∈ [joinT 0x48 ⟨2, d, a, b, 0, 0, 0⟩], u < 2 ^ 64
  simp only [bOk, Bool.and_eq_true, decide_eq_true_eq] at h
  simp only [List.mem_singleton, forall_eq, joinT]; omega
theorem pnot (d a : Nat) : Statement (.pnot d a) := by
  intro h
  change (bOk d && bOk a) = true at h
  change ∀ u ∈ [joinT 0x48 ⟨3, d, a, 0, 0, 0, 0⟩], u < 2 ^ 64
  simp only [bOk, Bool.and_eq_true, decide_eq_true_eq] at h
  simp only [List.mem_singleton, forall_eq, joinT]; omega
theorem rds (d n : Nat) : Statement (.rds d n) := by
  intro h
  change (xOk d && decide (n < 20)) = true at h
  change ∀ u ∈ [joinI 0x4C ⟨0, d, 0, 0, n⟩], u < 2 ^ 64
  simp only [xOk, Bool.and_eq_true, decide_eq_true_eq] at h
  simp only [List.mem_singleton, forall_eq, joinI]; omega
theorem wrs (n a : Nat) : Statement (.wrs n a) := by
  intro h
  change (xOk a && decide (n < 20)) = true at h
  change ∀ u ∈ [joinI 0x4C ⟨1, 0, a, 0, n⟩], u < 2 ^ 64
  simp only [xOk, Bool.and_eq_true, decide_eq_true_eq] at h
  simp only [List.mem_singleton, forall_eq, joinI]; omega
theorem ldg (m : MemArgs) : Statement (.ldg m) := fun h => load_fits _ _ _ (by decide) h
theorem stg (m : MemArgs) : Statement (.stg m) := fun h => store_fits _ _ _ (by decide) h
theorem amog (m : AmoArgs) : Statement (.amog m) := fun h => amo_fits _ _ (by decide) h
theorem ldl (m : MemArgs) : Statement (.ldl m) := fun h => load_fits _ _ _ (by decide) h
theorem stl (m : MemArgs) : Statement (.stl m) := fun h => store_fits _ _ _ (by decide) h
theorem amol (m : AmoArgs) : Statement (.amol m) := fun h => amo_fits _ _ (by decide) h
theorem stx (m : MemArgs) : Statement (.stx m) := fun h => store_fits _ _ _ (by decide) h
theorem amox (m : AmoArgs) : Statement (.amox m) := fun h => amo_fits _ _ (by decide) h
theorem lda (m : MemArgs) : Statement (.lda m) := fun h => load_fits _ _ _ (by decide) h
theorem sta (m : MemArgs) : Statement (.sta m) := fun h => store_fits _ _ _ (by decide) h
theorem lds (m : MemArgs) : Statement (.lds m) := fun h => load_fits _ _ _ (by decide) h
theorem sts (m : MemArgs) : Statement (.sts m) := fun h => store_fits _ _ _ (by decide) h
theorem amos (m : AmoArgs) : Statement (.amos m) := fun h => amo_fits _ _ (by decide) h
theorem ldh (m : MemArgs) : Statement (.ldh m) := fun h => load_fits _ _ _ (by decide) h
theorem sth (m : MemArgs) : Statement (.sth m) := fun h => store_fits _ _ _ (by decide) h
theorem cadd (loc : Bool) (d a b : Nat) : Statement (.cadd loc d a b) := by
  intro h
  change (xOk d && xOk a && xOk b) = true at h
  change ∀ u ∈ [joinT 0x60 ⟨0, d, a, b, 0, b2n loc, 0⟩], u < 2 ^ 64
  have h0 := b2n_le loc
  simp only [xOk, Bool.and_eq_true, decide_eq_true_eq] at h
  simp only [List.mem_singleton, forall_eq, joinT]; omega
theorem cwait (loc : Bool) (d a b : Nat) : Statement (.cwait loc d a b) := by
  intro h
  change (xOk d && xOk a && xOk b) = true at h
  change ∀ u ∈ [joinT 0x60 ⟨1, d, a, b, 0, b2n loc, 0⟩], u < 2 ^ 64
  have h0 := b2n_le loc
  simp only [xOk, Bool.and_eq_true, decide_eq_true_eq] at h
  simp only [List.mem_singleton, forall_eq, joinT]; omega
theorem cread (loc : Bool) (d a : Nat) : Statement (.cread loc d a) := by
  intro h
  change (xOk d && xOk a) = true at h
  change ∀ u ∈ [joinT 0x60 ⟨2, d, a, 0, 0, b2n loc, 0⟩], u < 2 ^ 64
  have h0 := b2n_le loc
  simp only [xOk, Bool.and_eq_true, decide_eq_true_eq] at h
  simp only [List.mem_singleton, forall_eq, joinT]; omega
theorem fence (sc : Scope) (k : FenceKind) : Statement (.fence sc k) := by
  intro _
  have h0 := scope_lt sc
  have h1 := fence_lt k
  change ∀ u ∈ [joinT 0x61 ⟨sc.code, 0, 0, 0, 0, k.code, 0⟩], u < 2 ^ 64
  simp only [List.mem_singleton, forall_eq, joinT]; omega
theorem arrive (d g : Nat) : Statement (.arrive d g) := by
  intro h
  change (xOk d && decide (g < 256)) = true at h
  change ∀ u ∈ [joinI 0x62 ⟨0, d, 0, 0, g⟩], u < 2 ^ 64
  simp only [xOk, Bool.and_eq_true, decide_eq_true_eq] at h
  simp only [List.mem_singleton, forall_eq, joinI]; omega
theorem wait (d a g : Nat) : Statement (.wait d a g) := by
  intro h
  change (xOk d && xOk a && decide (g < 256)) = true at h
  change ∀ u ∈ [joinI 0x62 ⟨1, d, a, 0, g⟩], u < 2 ^ 64
  simp only [xOk, Bool.and_eq_true, decide_eq_true_eq] at h
  simp only [List.mem_singleton, forall_eq, joinI]; omega
theorem arrwait (d g : Nat) : Statement (.arrwait d g) := by
  intro h
  change (xOk d && decide (g < 256)) = true at h
  change ∀ u ∈ [joinI 0x62 ⟨2, d, 0, 0, g⟩], u < 2 ^ 64
  simp only [xOk, Bool.and_eq_true, decide_eq_true_eq] at h
  simp only [List.mem_singleton, forall_eq, joinI]; omega
theorem gquery (d g : Nat) : Statement (.gquery d g) := by
  intro h
  change (xOk d && decide (g < 256)) = true at h
  change ∀ u ∈ [joinI 0x62 ⟨3, d, 0, 0, g⟩], u < 2 ^ 64
  simp only [xOk, Bool.and_eq_true, decide_eq_true_eq] at h
  simp only [List.mem_singleton, forall_eq, joinI]; omega
theorem patld (sp : PatSpace) (pd xs : Nat) : Statement (.patld sp pd xs) := by
  intro h
  change (pOk pd && xOk xs) = true at h
  change ∀ u ∈ [joinQ 0x70 ⟨0, 0, pd, 0, xs, 0, 0, sp.code⟩], u < 2 ^ 64
  have h0 := space_lt sp
  simp only [xOk, pOk, Bool.and_eq_true, decide_eq_true_eq] at h
  simp only [List.mem_singleton, forall_eq, joinQ]; omega
theorem patset (f : PatField) (pd src : Nat) : Statement (.patset f pd src) := by
  intro h
  change (pOk pd && (if f = .copy then pOk src else xOk src)) = true at h
  change ∀ u ∈ [joinQ 0x70 ⟨1, 0, pd, if f = .copy then src else 0, if f = .copy then 0 else src, 0, 0, f.code⟩], u < 2 ^ 64
  have h0 := field_lt f
  simp only [Bool.and_eq_true, pOk, xOk, decide_eq_true_eq] at h
  have hs := h.2
  have hk := field_lt .copy
  simp only [List.mem_singleton, forall_eq, joinQ]
  split at hs <;> rename_i hc <;> simp only [hc, if_true, if_false, decide_eq_true_eq] at hs ⊢ <;> omega
theorem patget (f : PatField) (pa xd : Nat) : Statement (.patget f pa xd) := by
  intro h
  change (pOk pa && xOk xd && f != .copy && f != .add) = true at h
  change ∀ u ∈ [joinQ 0x70 ⟨2, 0, pa, 0, xd, 0, 0, f.code⟩], u < 2 ^ 64
  have h0 := field_lt f
  simp only [xOk, pOk, Bool.and_eq_true, decide_eq_true_eq] at h
  simp only [List.mem_singleton, forall_eq, joinQ]; omega
theorem streamIn (q : QArgs) : Statement (.streamIn q) := by
  intro h
  change (qOk q && plainFlags q && q.aux == 0 && q.pb == 0 && q.xs == 0) = true at h
  simp only [Bool.and_eq_true] at h
  exact q_fits _ _ _ (by decide) (by decide) h.1.1.1.1
theorem streamOut (q : QArgs) : Statement (.streamOut q) := by
  intro h
  change (qOk q && plainFlags q && q.aux == 0 && q.pb == 0 && q.xs == 0) = true at h
  simp only [Bool.and_eq_true] at h
  exact q_fits _ _ _ (by decide) (by decide) h.1.1.1.1
theorem streamRec (q : QArgs) : Statement (.streamRec q) := by
  intro h
  change (qOk q && plainFlags q && decide (q.aux < 16) && q.pb == 0 && q.xs == 0) = true at h
  simp only [Bool.and_eq_true] at h
  exact q_fits _ _ _ (by decide) (by decide) h.1.1.1.1
theorem streamConst (q : QArgs) : Statement (.streamConst q) := by
  intro h
  change (qOk q && plainFlags q && q.aux == 0 && q.pb == 0) = true at h
  simp only [Bool.and_eq_true] at h
  exact q_fits _ _ _ (by decide) (by decide) h.1.1.1
theorem streamDrop (q : QArgs) : Statement (.streamDrop q) := by
  intro h
  change (qOk q && plainFlags q && q.aux == 0 && q.pb == 0 && q.xs == 0) = true at h
  simp only [Bool.and_eq_true] at h
  exact q_fits _ _ _ (by decide) (by decide) h.1.1.1.1
theorem streamInd (q : QArgs) : Statement (.streamInd q) := by
  intro h
  change (qOk q && plainFlags q && q.aux == 0 && q.xs == 0) = true at h
  simp only [Bool.and_eq_true] at h
  exact q_fits _ _ _ (by decide) (by decide) h.1.1.1
theorem sbarRd (q qd qmask : Nat) : Statement (.sbarRd q qd qmask) := by
  intro h
  change (pOk q && xOk qd && (qmask == 0 || qmaskOk qmask)) = true at h
  change ∀ u ∈ [joinQ 0x72 ⟨0, q, 0, 0, 0, 0, qd, qmask⟩], u < 2 ^ 64
  simp only [pOk, xOk, Bool.and_eq_true, Bool.or_eq_true, beq_iff_eq, decide_eq_true_eq] at h
  have hq : qmask < 16 := h.2.elim (fun h => by omega) qmask_lt
  simp only [List.mem_singleton, forall_eq, joinQ]; omega
theorem sbarWr (q qd qmask : Nat) : Statement (.sbarWr q qd qmask) := by
  intro h
  change (pOk q && xOk qd && (qmask == 0 || qmaskOk qmask)) = true at h
  change ∀ u ∈ [joinQ 0x72 ⟨1, q, 0, 0, 0, 0, qd, qmask⟩], u < 2 ^ 64
  simp only [pOk, xOk, Bool.and_eq_true, Bool.or_eq_true, beq_iff_eq, decide_eq_true_eq] at h
  have hq : qmask < 16 := h.2.elim (fun h => by omega) qmask_lt
  simp only [List.mem_singleton, forall_eq, joinQ]; omega
theorem sbarAll (q qd qmask : Nat) : Statement (.sbarAll q qd qmask) := by
  intro h
  change (pOk q && xOk qd && (qmask == 0 || qmaskOk qmask)) = true at h
  change ∀ u ∈ [joinQ 0x72 ⟨2, q, 0, 0, 0, 0, qd, qmask⟩], u < 2 ^ 64
  simp only [pOk, xOk, Bool.and_eq_true, Bool.or_eq_true, beq_iff_eq, decide_eq_true_eq] at h
  have hq : qmask < 16 := h.2.elim (fun h => by omega) qmask_lt
  simp only [List.mem_singleton, forall_eq, joinQ]; omega
theorem scond (q xt qd ctr csp : Nat) (inv : Bool) (skip : Nat) : Statement (.scond q xt qd ctr csp inv skip) := by
  intro h
  change (pOk q && xOk xt && xOk qd && ctrOk ctr csp && ctr != 0 && decide (1 ≤ skip) && decide (skip < 16)) = true at h
  change ∀ u ∈ [joinQ 0x72 ⟨3, q, 0, 0, 0, xt, qd, ctr * 2 ^ 20 + csp * 2 ^ 18 + b2n inv * 2 ^ 4 + skip⟩], u < 2 ^ 64
  have h5 := b2n_le inv
  simp only [xOk, pOk, ctrOk, Bool.and_eq_true, decide_eq_true_eq] at h
  simp only [List.mem_singleton, forall_eq, joinQ]; omega
theorem copy (q : QArgs) : Statement (.copy q) := by
  intro h
  change (qOk q && !q.grp && q.aux == 0 && q.port == 0 && q.xs == 0) = true at h
  simp only [Bool.and_eq_true] at h
  exact q_fits _ _ _ (by decide) (by decide) h.1.1.1.1
theorem mcopy (q : QArgs) : Statement (.mcopy q) := by
  intro h
  change (qOk q && !q.grp && q.port == 0 && q.xs == 0) = true at h
  simp only [Bool.and_eq_true] at h
  exact q_fits _ _ _ (by decide) (by decide) h.1.1.1
theorem rcopy (q : QArgs) : Statement (.rcopy q) := by
  intro h
  change (qOk q && q.rm == 0 && !q.sat && q.xs == 0 && decide (q.port < 9)) = true at h
  simp only [Bool.and_eq_true] at h
  exact q_fits _ _ _ (by decide) (by decide) h.1.1.1.1
theorem stitch (q qd mask : Nat) : Statement (.stitch q qd mask) := by
  intro h
  change (pOk q && xOk qd && decide (mask < 2 ^ 16)) = true at h
  change ∀ u ∈ [joinQ 0x81 ⟨0, q, 0, 0, 0, 0, qd, mask⟩], u < 2 ^ 64
  simp only [xOk, pOk, Bool.and_eq_true, decide_eq_true_eq] at h
  simp only [List.mem_singleton, forall_eq, joinQ]; omega
theorem qwait (mask : Nat) : Statement (.qwait mask) := by
  intro h
  change (decide (mask < 2 ^ 16)) = true at h
  change ∀ u ∈ [joinQ 0x81 ⟨1, 0, 0, 0, 0, 0, 0, mask⟩], u < 2 ^ 64
  simp only [decide_eq_true_eq] at h
  simp only [List.mem_singleton, forall_eq, joinQ]; omega
theorem qstat (q xd sel : Nat) (clr : Bool) : Statement (.qstat q xd sel clr) := by
  intro h
  change (pOk q && xOk xd && decide (sel < 4)) = true at h
  change ∀ u ∈ [joinQ 0x81 ⟨2, q, 0, 0, xd, 0, 0, b2n clr * 4 + sel⟩], u < 2 ^ 64
  have h3 := b2n_le clr
  simp only [xOk, pOk, Bool.and_eq_true, decide_eq_true_eq] at h
  simp only [List.mem_singleton, forall_eq, joinQ]; omega
theorem spawn (xr xst xq : Nat) : Statement (.spawn xr xst xq) := by
  intro h
  change (xOk xr && xOk xst && xOk xq) = true at h
  change ∀ u ∈ [joinQ 0x90 ⟨0, 0, 0, 0, xr, xst, xq, 0⟩], u < 2 ^ 64
  simp only [xOk, Bool.and_eq_true, decide_eq_true_eq] at h
  simp only [List.mem_singleton, forall_eq, joinQ]; omega
theorem spawnn (xr xst xq count : Nat) : Statement (.spawnn xr xst xq count) := by
  intro h
  change (xOk xr && xOk xst && xOk xq && decide (1 ≤ count) && decide (count ≤ 256)) = true at h
  change ∀ u ∈ [joinQ 0x90 ⟨1, 0, 0, 0, xr, xst, xq, count - 1⟩], u < 2 ^ 64
  simp only [xOk, Bool.and_eq_true, decide_eq_true_eq] at h
  simp only [List.mem_singleton, forall_eq, joinQ]; omega
theorem launch (xd xq : Nat) : Statement (.launch xd xq) := by
  intro h
  change (xOk xd && xOk xq) = true at h
  change ∀ u ∈ [joinQ 0x90 ⟨2, 0, 0, 0, xd, 0, xq, 0⟩], u < 2 ^ 64
  simp only [xOk, Bool.and_eq_true, decide_eq_true_eq] at h
  simp only [List.mem_singleton, forall_eq, joinQ]; omega
theorem cancel (xs xa xq : Nat) : Statement (.cancel xs xa xq) := by
  intro h
  change (xOk xs && xOk xa && xOk xq) = true at h
  change ∀ u ∈ [joinQ 0x90 ⟨3, 0, 0, 0, xs, xa, xq, 0⟩], u < 2 ^ 64
  simp only [xOk, Bool.and_eq_true, decide_eq_true_eq] at h
  simp only [List.mem_singleton, forall_eq, joinQ]; omega
theorem yield : Statement .yield := by
  intro _
  change ∀ u ∈ [joinT 0x91 ⟨0, 0, 0, 0, 0, 0, 0⟩], u < 2 ^ 64
  simp only [List.mem_singleton, forall_eq, joinT]; omega
theorem exit (loc : Bool) (a b : Nat) : Statement (.exit loc a b) := by
  intro h
  change (xOk a && xOk b && (a != 0 || (b == 0 && !loc))) = true at h
  change ∀ u ∈ [joinT 0x91 ⟨1, 0, a, b, 0, b2n loc, 0⟩], u < 2 ^ 64
  have h0 := b2n_le loc
  simp only [xOk, Bool.and_eq_true, decide_eq_true_eq] at h
  simp only [List.mem_singleton, forall_eq, joinT]; omega
theorem scopeSet (d p c : Nat) : Statement (.scopeSet d p c) := by
  intro h
  change (xOk d && xOk p && xOk c) = true at h
  change ∀ u ∈ [joinT 0x91 ⟨2, d, p, c, 0, 0, 0⟩], u < 2 ^ 64
  simp only [xOk, Bool.and_eq_true, decide_eq_true_eq] at h
  simp only [List.mem_singleton, forall_eq, joinT]; omega
theorem scopeSplit (d p c : Nat) : Statement (.scopeSplit d p c) := by
  intro h
  change (xOk d && xOk p && xOk c) = true at h
  change ∀ u ∈ [joinT 0x91 ⟨2, d, p, c, 0, 1, 0⟩], u < 2 ^ 64
  simp only [xOk, Bool.and_eq_true, decide_eq_true_eq] at h
  simp only [List.mem_singleton, forall_eq, joinT]; omega
theorem chkc : Statement .chkc := by
  intro _
  change ∀ u ∈ [joinT 0x91 ⟨3, 0, 0, 0, 0, 0, 0⟩], u < 2 ^ 64
  simp only [List.mem_singleton, forall_eq, joinT]; omega
theorem squery (d a : Nat) : Statement (.squery d a) := by
  intro h
  change (xOk d && xOk a) = true at h
  change ∀ u ∈ [joinT 0x91 ⟨4, d, a, 0, 0, 0, 0⟩], u < 2 ^ 64
  simp only [xOk, Bool.and_eq_true, decide_eq_true_eq] at h
  simp only [List.mem_singleton, forall_eq, joinT]; omega
theorem trap (a n : Nat) : Statement (.trap a n) := by
  intro h
  change (xOk a && decide (n < 64)) = true at h
  change ∀ u ∈ [joinI 0xA0 ⟨0, 0, a, 0, n⟩], u < 2 ^ 64
  simp only [xOk, Bool.and_eq_true, decide_eq_true_eq] at h
  simp only [List.mem_singleton, forall_eq, joinI]; omega
theorem tret : Statement .tret := by
  intro _
  change ∀ u ∈ [joinI 0xA0 ⟨1, 0, 0, 0, 0⟩], u < 2 ^ 64
  simp only [List.mem_singleton, forall_eq, joinI]; omega
theorem tretN : Statement .tretN := by
  intro _
  change ∀ u ∈ [joinI 0xA0 ⟨1, 0, 0, 0, 1⟩], u < 2 ^ 64
  simp only [List.mem_singleton, forall_eq, joinI]; omega
theorem prio (reg : Bool) (v : Nat) : Statement (.prio reg v) := by
  intro h
  cases reg
  · change decide (v < 24) = true at h
    change ∀ u ∈ [joinI 0xA0 ⟨2, 0, 0, 0, v⟩], u < 2 ^ 64
    simp only [decide_eq_true_eq] at h
    simp only [List.mem_singleton, forall_eq, joinI]; omega
  · change decide (v < 32) = true at h
    change ∀ u ∈ [joinI 0xA0 ⟨2, 0, v, 1, 0⟩], u < 2 ^ 64
    simp only [decide_eq_true_eq] at h
    simp only [List.mem_singleton, forall_eq, joinI]; omega
theorem mtrd (d m : Nat) : Statement (.mtrd d m) := by
  intro h
  change (xOk d && decide (m < 16)) = true at h
  change ∀ u ∈ [joinI 0xA0 ⟨3, d, 0, 0, m⟩], u < 2 ^ 64
  simp only [xOk, Bool.and_eq_true, decide_eq_true_eq] at h
  simp only [List.mem_singleton, forall_eq, joinI]; omega
theorem halt (code : Nat) : Statement (.halt code) := by
  intro h
  change (immOk code) = true at h
  change ∀ u ∈ [joinI 0xA0 ⟨4, 0, 0, 0, code⟩], u < 2 ^ 64
  simp only [immOk, decide_eq_true_eq] at h
  simp only [List.mem_singleton, forall_eq, joinI]; omega
theorem nop : Statement .nop := by
  intro _
  change ∀ u ∈ [joinI 0xA0 ⟨5, 0, 0, 0, 0⟩], u < 2 ^ 64
  simp only [List.mem_singleton, forall_eq, joinI]; omega
theorem blockMWs (b : BlockArgs) : Statement (.blockMWs b) := fun h => block_fits _ _ _ (by decide) (by decide) h
theorem blockMOs (b : BlockArgs) : Statement (.blockMOs b) := fun h => block_fits _ _ _ (by decide) (by decide) h
theorem blockE (b : BlockArgs) : Statement (.blockE b) := fun h => block_fits _ _ _ (by decide) (by decide) h
theorem blockA (b : BlockArgs) : Statement (.blockA b) := fun h => block_fits _ _ _ (by decide) (by decide) h
theorem blockS (b : BlockArgs) : Statement (.blockS b) := fun h => block_fits _ _ _ (by decide) (by decide) h
theorem blockZ (b : BlockArgs) : Statement (.blockZ b) := fun h => block_fits _ _ _ (by decide) (by decide) h
theorem blockG (b : BlockArgs) : Statement (.blockG b) := fun h => block_fits _ _ _ (by decide) (by decide) h
theorem cfgld (qmask folio : Nat) : Statement (.cfgld qmask folio) := by
  intro h
  change (qmaskOk qmask && decide (folio < 4096)) = true at h
  change ∀ u ∈ [joinI 0xB8 ⟨0, 0, 0, qmask, folio⟩], u < 2 ^ 64
  simp only [Bool.and_eq_true, decide_eq_true_eq] at h
  have hq : qmask < 16 := qmask_lt (by first | exact h.1 | exact h.1.1 | exact h.1.2)
  simp only [List.mem_singleton, forall_eq, joinI]; omega
theorem cfgsw (qmask : Nat) : Statement (.cfgsw qmask) := by
  intro h
  change (qmaskOk qmask) = true at h
  change ∀ u ∈ [joinI 0xB8 ⟨1, 0, 0, qmask, 0⟩], u < 2 ^ 64
  have hq := qmask_lt h
  simp only [List.mem_singleton, forall_eq, joinI]; omega
theorem bdrain (qmask : Nat) : Statement (.bdrain qmask) := by
  intro h
  change (qmaskOk qmask) = true at h
  change ∀ u ∈ [joinI 0xB8 ⟨2, 0, 0, qmask, 0⟩], u < 2 ^ 64
  have hq := qmask_lt h
  simp only [List.mem_singleton, forall_eq, joinI]; omega
theorem bstat (d qmask sel : Nat) : Statement (.bstat d qmask sel) := by
  intro h
  change (xOk d && qmaskOk qmask && decide (sel < 4)) = true at h
  change ∀ u ∈ [joinI 0xB8 ⟨3, d, 0, qmask, sel⟩], u < 2 ^ 64
  simp only [xOk, Bool.and_eq_true, decide_eq_true_eq] at h
  have hq : qmask < 16 := qmask_lt (by first | exact h.1 | exact h.1.1 | exact h.1.2)
  simp only [List.mem_singleton, forall_eq, joinI]; omega
theorem spine (qmask : Nat) (win : Option Nat) (acc : Nat) : Statement (.spine qmask win acc) := by
  intro h
  cases win with
  | none =>
    change (qmaskOk qmask && true && decide (acc < 3)) = true at h
    simp only [Bool.and_eq_true, decide_eq_true_eq] at h
    have hq := qmask_lt h.1.1
    change ∀ u ∈ [joinI 0xB8 ⟨4, 0, 0, qmask, 15 + acc * 2 ^ 4⟩], u < 2 ^ 64
    simp only [List.mem_singleton, forall_eq, joinI]; omega
  | some v =>
    change (qmaskOk qmask && decide (v < 9) && decide (acc < 3)) = true at h
    simp only [Bool.and_eq_true, decide_eq_true_eq] at h
    have hq := qmask_lt h.1.1
    change ∀ u ∈ [joinI 0xB8 ⟨4, 0, 0, qmask, v + acc * 2 ^ 4⟩], u < 2 ^ 64
    simp only [List.mem_singleton, forall_eq, joinI]; omega
theorem accrd (qmask ep : Nat) (clr : Bool) (rm : Nat) (sat : Bool) : Statement (.accrd qmask ep clr rm sat) := by
  intro h
  change (qmaskOk qmask && pOk ep && decide (rm < 4)) = true at h
  change ∀ u ∈ [joinI 0xB8 ⟨5, 0, 0, qmask, ep + b2n clr * 2 ^ 4 + rm * 2 ^ 5 + b2n sat * 2 ^ 7⟩], u < 2 ^ 64
  have h2 := b2n_le clr
  have h4 := b2n_le sat
  simp only [pOk, Bool.and_eq_true, decide_eq_true_eq] at h
  have hq : qmask < 16 := qmask_lt (by first | exact h.1 | exact h.1.1 | exact h.1.2)
  simp only [List.mem_singleton, forall_eq, joinI]; omega
theorem accclr (qmask : Nat) : Statement (.accclr qmask) := by
  intro h
  change (qmaskOk qmask) = true at h
  change ∀ u ∈ [joinI 0xB8 ⟨6, 0, 0, qmask, 0⟩], u < 2 ^ 64
  have hq := qmask_lt h
  simp only [List.mem_singleton, forall_eq, joinI]; omega
theorem fetchFault (t c : Nat) : Statement (.fetchFault t c) := fun _ _ h => nomatch h
theorem deferredTrap (t c : Nat) : Statement (.deferredTrap t c) := fun _ _ h => nomatch h
theorem loadResultReturn (t c id : Nat) : Statement (.loadResultReturn t c id) := fun _ _ h => nomatch h
theorem ldhTimeout (t c id : Nat) : Statement (.ldhTimeout t c id) := fun _ _ h => nomatch h
theorem contextWake (t c : Nat) : Statement (.contextWake t c) := fun _ _ h => nomatch h
theorem taskBind (t : Nat) : Statement (.taskBind t) := fun _ _ h => nomatch h
theorem taskPublicationArrival (n : Nat) : Statement (.taskPublicationArrival n) := fun _ _ h => nomatch h
theorem dependenceCheck (t : Nat) : Statement (.dependenceCheck t) := fun _ _ h => nomatch h
theorem copyStart (t q : Nat) : Statement (.copyStart t q) := fun _ _ h => nomatch h
theorem copyBeat (t q : Nat) : Statement (.copyBeat t q) := fun _ _ h => nomatch h
theorem transferRetire (t q : Nat) : Statement (.transferRetire t q) := fun _ _ h => nomatch h
theorem streamDispatch (t q : Nat) : Statement (.streamDispatch t q) := fun _ _ h => nomatch h
theorem streamBeat (t q id : Nat) : Statement (.streamBeat t q id) := fun _ _ h => nomatch h
theorem gatePass (t q : Nat) : Statement (.gatePass t q) := fun _ _ h => nomatch h
theorem counterContributionFlit (t : Nat) : Statement (.counterContributionFlit t) := fun _ _ h => nomatch h
theorem blockRunStart (t : Nat) : Statement (.blockRunStart t) := fun _ _ h => nomatch h
theorem folioLoadComplete (t qmask : Nat) : Statement (.folioLoadComplete t qmask) := fun _ _ h => nomatch h
theorem switchSweepComplete (t qmask : Nat) : Statement (.switchSweepComplete t qmask) := fun _ _ h => nomatch h
theorem blockBeat (t qmask : Nat) : Statement (.blockBeat t qmask) := fun _ _ h => nomatch h
theorem instanceComplete (t qmask : Nat) : Statement (.instanceComplete t qmask) := fun _ _ h => nomatch h
theorem scanOutComplete (t qmask : Nat) : Statement (.scanOutComplete t qmask) := fun _ _ h => nomatch h
theorem elementCycle (t : Nat) : Statement (.elementCycle t) := fun _ _ h => nomatch h
theorem memoryNodeComplete (t id : Nat) : Statement (.memoryNodeComplete t id) := fun _ _ h => nomatch h
theorem activeMessageArrival (t : Nat) : Statement (.activeMessageArrival t) := fun _ _ h => nomatch h
theorem networkCycle (die : Nat) : Statement (.networkCycle die) := fun _ _ h => nomatch h
theorem ageTick (die : Nat) : Statement (.ageTick die) := fun _ _ h => nomatch h
theorem creditDraw (die part point : Nat) : Statement (.creditDraw die part point) := fun _ _ h => nomatch h
theorem creditReturn (die part : Nat) : Statement (.creditReturn die part) := fun _ _ h => nomatch h
theorem crossbarCrossing (die n : Nat) : Statement (.crossbarCrossing die n) := fun _ _ h => nomatch h
theorem remoteStoreApply (t : Nat) : Statement (.remoteStoreApply t) := fun _ _ h => nomatch h
theorem remoteAtomicApply (t : Nat) : Statement (.remoteAtomicApply t) := fun _ _ h => nomatch h
theorem acknowledgementReceipt (t : Nat) : Statement (.acknowledgementReceipt t) := fun _ _ h => nomatch h
theorem gatherFlitArrival (t : Nat) : Statement (.gatherFlitArrival t) := fun _ _ h => nomatch h
theorem windowUpdateReceipt (t : Nat) : Statement (.windowUpdateReceipt t) := fun _ _ h => nomatch h
theorem streamEndReceipt (t : Nat) : Statement (.streamEndReceipt t) := fun _ _ h => nomatch h
theorem poisonFillTimeout (t port : Nat) : Statement (.poisonFillTimeout t port) := fun _ _ h => nomatch h
theorem drainTokenArrival (part n : Nat) : Statement (.drainTokenArrival part n) := fun _ _ h => nomatch h
theorem memoryAccessAtHome (t c id : Nat) (hostError : Bool) : Statement (.memoryAccessAtHome t c id hostError) := fun _ _ h => nomatch h
theorem barrierArrivalAtHome (n : Nat) : Statement (.barrierArrivalAtHome n) := fun _ _ h => nomatch h
theorem barrierReleaseArrival (n : Nat) : Statement (.barrierReleaseArrival n) := fun _ _ h => nomatch h
theorem cancelRegistration (no t : Nat) : Statement (.cancelRegistration no t) := fun _ _ h => nomatch h
theorem taskKill (t c : Nat) : Statement (.taskKill t c) := fun _ _ h => nomatch h
theorem trapModeKillTimeout (t c : Nat) : Statement (.trapModeKillTimeout t c) := fun _ _ h => nomatch h
theorem cancelTileReport (no t : Nat) : Statement (.cancelTileReport no t) := fun _ _ h => nomatch h
theorem cancelAckWrite (no : Nat) : Statement (.cancelAckWrite no) := fun _ _ h => nomatch h
theorem preemptHoldRequest (t : Nat) : Statement (.preemptHoldRequest t) := fun _ _ h => nomatch h
theorem preemptSwitchRequest (t : Nat) : Statement (.preemptSwitchRequest t) := fun _ _ h => nomatch h
theorem resumeRequest (part : Nat) : Statement (.resumeRequest part) := fun _ _ h => nomatch h
theorem stateSaveComplete (part : Nat) : Statement (.stateSaveComplete part) := fun _ _ h => nomatch h
theorem restoreComplete (part : Nat) : Statement (.restoreComplete part) := fun _ _ h => nomatch h
theorem sliceExpiry (part : Nat) : Statement (.sliceExpiry part) := fun _ _ h => nomatch h
theorem deadlinePreemption (part : Nat) : Statement (.deadlinePreemption part) := fun _ _ h => nomatch h
theorem launchWindowWrite (part desc : Nat) : Statement (.launchWindowWrite part desc) := fun _ _ h => nomatch h
theorem partialWindowWrite (part : Nat) : Statement (.partialWindowWrite part) := fun _ _ h => nomatch h
theorem launchPacket (packet : Nat) : Statement (.launchPacket packet) := fun _ _ h => nomatch h
theorem loaderPlacement (lid : Nat) : Statement (.loaderPlacement lid) := fun _ _ h => nomatch h
theorem launchEnd (lid : Nat) : Statement (.launchEnd lid) := fun _ _ h => nomatch h
theorem mapRequestMap (part req : Nat) : Statement (.mapRequestMap part req) := fun _ _ h => nomatch h
theorem mapRequestUnmap (part req : Nat) : Statement (.mapRequestUnmap part req) := fun _ _ h => nomatch h
theorem mapRequestProtect (part req : Nat) : Statement (.mapRequestProtect part req) := fun _ _ h => nomatch h
theorem mapRequestMigrate (part req : Nat) : Statement (.mapRequestMigrate part req) := fun _ _ h => nomatch h
theorem mapRequestOrder (part req : Nat) : Statement (.mapRequestOrder part req) := fun _ _ h => nomatch h
theorem invalidationComplete (part : Nat) : Statement (.invalidationComplete part) := fun _ _ h => nomatch h
theorem migrationSpliceBeat (part : Nat) : Statement (.migrationSpliceBeat part) := fun _ _ h => nomatch h
theorem migrationRedirect (part : Nat) : Statement (.migrationRedirect part) := fun _ _ h => nomatch h
theorem migrationDone (part : Nat) : Statement (.migrationDone part) := fun _ _ h => nomatch h
theorem ctrlSuspend (part : Nat) : Statement (.ctrlSuspend part) := fun _ _ h => nomatch h
theorem ctrlResume (part : Nat) : Statement (.ctrlResume part) := fun _ _ h => nomatch h
theorem routerStatusWrite (part k : Nat) : Statement (.routerStatusWrite part k) := fun _ _ h => nomatch h
theorem registerWrite (part off val : Nat) : Statement (.registerWrite part off val) := fun _ _ h => nomatch h
theorem linkTransferWrite (part req : Nat) : Statement (.linkTransferWrite part req) := fun _ _ h => nomatch h
theorem linkTransferRead (part req : Nat) : Statement (.linkTransferRead part req) := fun _ _ h => nomatch h
theorem hostWriteTlp (part pa : Nat) (bytes : List Nat) (ep : Bool) : Statement (.hostWriteTlp part pa bytes ep) := fun _ _ h => nomatch h
theorem hostReadTlp (part pa n : Nat) : Statement (.hostReadTlp part pa n) := fun _ _ h => nomatch h
theorem cxlReadReturn (t c id : Nat) (poisoned : Bool) : Statement (.cxlReadReturn t c id poisoned) := fun _ _ h => nomatch h
theorem d2dFrameReceipt (link : Nat) (toHigh : Bool) : Statement (.d2dFrameReceipt link toHigh) := fun _ _ h => nomatch h
theorem frameReplay (link : Nat) (toHigh : Bool) : Statement (.frameReplay link toHigh) := fun _ _ h => nomatch h
theorem linkDown (link : Nat) : Statement (.linkDown link) := fun _ _ h => nomatch h
theorem quoteExpiryCompletion (t q id : Nat) : Statement (.quoteExpiryCompletion t q id) := fun _ _ h => nomatch h
theorem flushMarkerReturn (link : Nat) : Statement (.flushMarkerReturn link) := fun _ _ h => nomatch h
theorem meterFold : Statement .meterFold := fun _ _ h => nomatch h
theorem submitConfiguration (record sig key newKey : Nat) : Statement (.submitConfiguration record sig key newKey) := fun _ _ h => nomatch h
theorem submitSparing (kind die unit index : Nat) (fence : Bool) : Statement (.submitSparing kind die unit index fence) := fun _ _ h => nomatch h
theorem submitSchedulingRecord (part rec : Nat) : Statement (.submitSchedulingRecord part rec) := fun _ _ h => nomatch h
theorem partitionControl (part op : Nat) : Statement (.partitionControl part op) := fun _ _ h => nomatch h
theorem dieReset (die : Nat) : Statement (.dieReset die) := fun _ _ h => nomatch h
theorem retrainLink (link : Nat) : Statement (.retrainLink link) := fun _ _ h => nomatch h
theorem readRouterStatus (t : Nat) : Statement (.readRouterStatus t) := fun _ _ h => nomatch h
theorem checkpoint : Statement .checkpoint := fun _ _ h => nomatch h
theorem readErrorLog : Statement .readErrorLog := fun _ _ h => nomatch h
theorem selfTest (n : Nat) (pass : Bool) : Statement (.selfTest n pass) := fun _ _ h => nomatch h
theorem hbmScrub (stack sector : Nat) : Statement (.hbmScrub stack sector) := fun _ _ h => nomatch h
theorem powerOn : Statement .powerOn := fun _ _ h => nomatch h
theorem temperatureWarning (die : Nat) : Statement (.temperatureWarning die) := fun _ _ h => nomatch h
theorem temperatureShutdown (die : Nat) : Statement (.temperatureShutdown die) := fun _ _ h => nomatch h
theorem clockCycle (die : Nat) : Statement (.clockCycle die) := fun _ _ h => nomatch h
theorem arrivalAnswer (t c : Nat) : Statement (.arrivalAnswer t c) := fun _ _ h => nomatch h
theorem peerLinkTransfer (peer ppart : Nat) (dirRead : Bool) (part rva len : Nat) (data : List Nat) : Statement (.peerLinkTransfer peer ppart dirRead part rva len data) := fun _ _ h => nomatch h
theorem zeroLengthReadCompletion (t c : Nat) : Statement (.zeroLengthReadCompletion t c) := fun _ _ h => nomatch h
theorem getVersion (r : Requester) : Statement (.getVersion r) := fun _ _ h => nomatch h
theorem getCapabilities (r : Requester) : Statement (.getCapabilities r) := fun _ _ h => nomatch h
theorem negotiateAlgorithms (r : Requester) (offer : List String) : Statement (.negotiateAlgorithms r offer) := fun _ _ h => nomatch h
theorem getDigests (r : Requester) : Statement (.getDigests r) := fun _ _ h => nomatch h
theorem getCertificate (r : Requester) : Statement (.getCertificate r) := fun _ _ h => nomatch h
theorem challenge (r : Requester) (nonce : Nat) : Statement (.challenge r nonce) := fun _ _ h => nomatch h
theorem getMeasurements (r : Requester) (index : Nat) : Statement (.getMeasurements r index) := fun _ _ h => nomatch h
theorem keyExchange (r : Requester) (keyHash share : Nat) : Statement (.keyExchange r keyHash share) := fun _ _ h => nomatch h
theorem finish (r : Requester) (proof : Nat) : Statement (.finish r proof) := fun _ _ h => nomatch h
theorem endSession (r : Requester) : Statement (.endSession r) := fun _ _ h => nomatch h
theorem getcolo (r : Requester) (part nonce : Nat) : Statement (.getcolo r part nonce) := fun _ _ h => nomatch h
theorem setcaps (r : Requester) (part : Nat) (caps : List Nat) : Statement (.setcaps r part caps) := fun _ _ h => nomatch h
theorem getcaps (r : Requester) (part : Nat) : Statement (.getcaps r part) := fun _ _ h => nomatch h

end Sys2Proof.Laws.WordsFit
end

