-- ==== Sys2Proof/Laws/Trap.lean ====
section
/-! SUPPORT. What taking a trap does (R271 to R273), said once: entry, double trap, and what both leave alone; and what one step is. -/

namespace Sys2Proof.Machine

/-- The entry of a context that can trap. -/
theorem State.enter_of_canTrap {s : State} {t c : Nat} (cause addr aux pc : Nat) (h : s.CtxCanTrap t c) :
    s.enter t c cause addr aux pc = s.enteredAt t c cause addr aux pc := by
  obtain ⟨h1, h2, h3⟩ := h
  have h3 : ¬ tileStoreSize ≤ (s.trapBaseOf t c).toNat := by simp only [tileStoreSize]; omega
  simp only [State.enter, State.enteredAt, h1, h2, h3]
  rfl

/-- A context that cannot trap ends its task (R273). -/
theorem State.enter_of_not_canTrap {s : State} {t c : Nat} (cause addr aux pc : Nat) (h : ¬ s.CtxCanTrap t c) :
    s.enter t c cause addr aux pc = s.doubleTrap t c cause pc := by
  unfold State.enter
  dsimp only
  rw [if_pos]
  simp only [Bool.or_eq_true, bne_iff_ne, decide_eq_true_eq]
  unfold State.CtxCanTrap at h
  cases ht : (s.ctx t c).trap
  · by_cases h2 : (s.trapBaseOf t c).toNat % 8 = 0
    · right
      exact Nat.le_of_not_lt fun h3 => h ⟨ht, h2, h3⟩
    · exact .inl (.inr h2)
  · exact .inl (.inl rfl)

/-- Taking a trap is an entry or a double trap, nothing else. -/
theorem State.enter_cases (s : State) (t c cause addr aux pc : Nat) :
    (s.CtxCanTrap t c ∧ s.enter t c cause addr aux pc = s.enteredAt t c cause addr aux pc)
      ∨ (¬ s.CtxCanTrap t c ∧ s.enter t c cause addr aux pc = s.doubleTrap t c cause pc) := by
  by_cases h : s.CtxCanTrap t c
  · exact .inl ⟨h, s.enter_of_canTrap cause addr aux pc h⟩
  · exact .inr ⟨h, s.enter_of_not_canTrap cause addr aux pc h⟩

/-- The same for the issuing context at its instruction. -/
theorem State.trapNow_of_canTrap {s : State} (cause addr aux : Nat) (h : s.CanTrap) : s.trapNow cause addr aux = s.entered cause addr aux := by
  have e := s.enter_of_canTrap (t := s.cur.1) (c := s.cur.2) cause addr aux s.pc.toNat h
  unfold State.trapNow
  rw [e]
  simp only [State.enteredAt, State.entered, BitVec.ofNat_toNat, BitVec.setWidth_eq]
  rfl

/-! What entry leaves alone. -/

@[simp] theorem State.dev_enteredAt (s : State) (t c a b d e : Nat) : (s.enteredAt t c a b d e).dev = s.dev := rfl
@[simp] theorem State.parts_enteredAt (s : State) (t c a b d e : Nat) : (s.enteredAt t c a b d e).parts = s.parts := rfl
@[simp] theorem State.launches_enteredAt (s : State) (t c a b d e : Nat) : (s.enteredAt t c a b d e).launches = s.launches := rfl
@[simp] theorem State.cur_enteredAt (s : State) (t c a b d e : Nat) : (s.enteredAt t c a b d e).cur = s.cur := rfl
@[simp] theorem State.cur_entered (s : State) (a b d : Nat) : (s.entered a b d).cur = s.cur := rfl

/-! Bytes of a tile through the operations that end a task. -/

theorem Tile.store_endStream (tl : Tile) (e : QEntry) : (tl.endStream e).store = tl.store := rfl
theorem Tile.acc_endStream (tl : Tile) (e : QEntry) : (tl.endStream e).acc = tl.acc := rfl

theorem Tile.bytes_endStreams (l : List QEntry) : ∀ tl : Tile, (l.foldl Tile.endStream tl).store = tl.store ∧ (l.foldl Tile.endStream tl).acc = tl.acc := by
  induction l with
  | nil => intro tl; exact ⟨rfl, rfl⟩
  | cons e l ih => intro tl; exact ih (tl.endStream e)

theorem Tile.bytes_cancelEntries (tl : Tile) (w : QEntry → Bool) :
    (tl.cancelEntries w).1.store = tl.store ∧ (tl.cancelEntries w).1.acc = tl.acc := by
  simp only [Tile.cancelEntries]
  exact Tile.bytes_endStreams _ _

theorem Tile.bytesWf_clearUsed (tl : Tile) (i : Inst) (h : tl.bytesWf = true) : (tl.clearUsed i).bytesWf = true := by
  simp only [Tile.bytesWf, Bool.and_eq_true] at h ⊢
  exact ⟨h.1, cellsWf_filter _ _ h.2⟩

/-- Two tiles with the same bytes. -/
theorem Tile.bytesWf_same {a b : Tile} (h1 : b.store = a.store) (h2 : b.acc = a.acc) (h : a.bytesWf = true) : b.bytesWf = true := by
  unfold Tile.bytesWf at h ⊢
  rw [h1, h2]
  exact h

theorem Tile.bytes_count (tl : Tile) (hit : Nat → Bool) (f : Reg → Reg) :
    (tl.count hit f).store = tl.store ∧ (tl.count hit f).acc = tl.acc := by
  unfold Tile.count
  split <;> exact ⟨rfl, rfl⟩

theorem Tile.bytesWf_cancelOwn (tl : Tile) (i : Inst) (h : tl.bytesWf = true) : (tl.cancelOwn i).bytesWf = true := by
  unfold Tile.cancelOwn
  exact Tile.bytesWf_same (Tile.bytes_count _ _ _).1 (Tile.bytes_count _ _ _).2
    (Tile.bytesWf_same (Tile.bytes_cancelEntries _ _).1 (Tile.bytes_cancelEntries _ _).2 h)

theorem Tile.bytesWf_foldl {α : Type} {f : Tile → α → Tile} (hf : ∀ tl a, tl.bytesWf = true → (f tl a).bytesWf = true) :
    ∀ (l : List α) (tl : Tile), tl.bytesWf = true → (l.foldl f tl).bytesWf = true := by
  intro l
  induction l with
  | nil => exact fun tl h => h
  | cons a t ih => exact fun tl h => ih _ (hf tl a h)

theorem Tile.bytesWf_setAside (tl : Tile) (l : List Inst) (h : tl.bytesWf = true) : (tl.setAside l).bytesWf = true := h

theorem Tile.bytesWf_dropInst (tl : Tile) (q : Nat) (whole : Bool) (h : tl.bytesWf = true) : (tl.dropInst q whole).bytesWf = true := by
  unfold Tile.dropInst
  refine Tile.bytesWf_same (a := if whole then (tl.runs.filter fun r => r.qmask == q).foldl (fun tl r => tl.setAside r.insts.tail) tl else tl) rfl rfl ?_
  split
  · exact Tile.bytesWf_foldl (fun tl r h => Tile.bytesWf_setAside _ _ h) _ _ h
  · exact h

theorem Tile.bytesWf_leaveSink (tl : Tile) (i : Inst) (h : tl.bytesWf = true) : (tl.leaveSink i).bytesWf = true := by
  unfold Tile.leaveSink
  refine Tile.bytesWf_foldl (fun tl x h => ?_) _ _ h
  split
  · exact h
  · exact h

theorem Tile.bytesWf_dropScanned (tl : Tile) (c : Nat) (h : tl.bytesWf = true) : (tl.dropScanned c).bytesWf = true := by
  unfold Tile.dropScanned
  split
  · exact h
  · exact Tile.bytesWf_cancelOwn _ _ (Tile.bytesWf_leaveSink _ _ h)

theorem Tile.bytesWf_dropAside (tl : Tile) (c : Nat) (h : tl.bytesWf = true) : (tl.dropAside c).bytesWf = true := by
  unfold Tile.dropAside
  split
  · exact h
  · exact Tile.bytesWf_cancelOwn _ _ (Tile.bytesWf_leaveSink _ _ h)

theorem Tile.bytesWf_dropCtx (tl : Tile) (c : Nat) (h : tl.bytesWf = true) : (tl.dropCtx c).bytesWf = true := by
  unfold Tile.dropCtx
  exact Tile.bytesWf_same (a := (tl.runs.flatMap fun r => r.insts.tail.filter fun i => i.ctx == c).foldl Tile.cancelOwn tl) rfl rfl
    (Tile.bytesWf_foldl Tile.bytesWf_cancelOwn _ _ h)

theorem Memory.wf_giveUp {s : State} (t : Nat) (r : Run) (i : Inst) (whole : Bool) (h : Memory.wf s = true) :
    Memory.wf (s.giveUp t r i whole) = true := by
  unfold State.giveUp
  refine Memory.wf_modTile h fun ht => ?_
  refine Tile.bytesWf_dropInst _ _ _ (Tile.bytesWf_cancelOwn _ _ (Tile.bytesWf_leaveSink _ _ ?_))
  split
  · exact ht
  · exact Tile.bytesWf_clearUsed _ _ ht

theorem Memory.wf_discardCont {s : State} (t c : Nat) (h : Memory.wf s = true) : Memory.wf (s.discardCont t c) = true := by
  unfold State.discardCont
  split
  · exact h
  · refine Memory.wf_modCtx ?_
    split
    · exact Memory.wf_giveUp _ _ _ _ h
    · exact Memory.wf_modTile h fun ht => Tile.bytesWf_dropScanned _ _ ht

theorem Memory.wf_leaveBlocks {s : State} (t c : Nat) (h : Memory.wf s = true) : Memory.wf (s.leaveBlocks t c) = true := by
  unfold State.leaveBlocks
  refine Memory.wf_modTile (Memory.wf_foldl (fun u r hu => ?_) _ _ (Memory.wf_discardCont t c h)) fun ht =>
    Tile.bytesWf_dropAside _ _ (Tile.bytesWf_dropScanned _ _ (Tile.bytesWf_dropCtx _ _ ht))
  split
  · split
    · exact Memory.wf_giveUp _ _ _ _ hu
    · exact hu
  · exact hu

theorem Memory.wf_endTask {s : State} (t c : Nat) (h : Memory.wf s = true) : Memory.wf (s.endTask t c) = true :=
  Memory.wf_modCtx (Memory.wf_leaveBlocks t c h)

theorem Memory.wf_doubleTrap {s : State} (t c cause pc : Nat) (h : Memory.wf s = true) : Memory.wf (s.doubleTrap t c cause pc) = true := by
  unfold State.doubleTrap
  split
  · exact Memory.wf_endTask t c h
  · exact Memory.wf_endTask t c (Memory.wf_modLaunch h)

/-- Taking a trap keeps the canonical form. -/
theorem Memory.wf_enter {s : State} (t c cause addr aux pc : Nat) (h : Memory.wf s = true) : Memory.wf (s.enter t c cause addr aux pc) = true := by
  rcases s.enter_cases t c cause addr aux pc with ⟨-, e⟩ | ⟨-, e⟩
  · exact e ▸ Memory.wf_modCtx h
  · exact e ▸ Memory.wf_doubleTrap t c cause pc h

theorem Memory.wf_trapNow {s : State} (cause addr aux : Nat) (h : Memory.wf s = true) : Memory.wf (s.trapNow cause addr aux) = true :=
  Memory.wf_enter _ _ _ _ _ _ h

/-! What one step is. -/

/-- A step with an empty agenda is a clock cycle of the die that is behind. -/
theorem step_nil {s : State} (h : s.agenda = []) : step s = act (.event (.clockCycle s.nextClock)) s := by
  unfold step; rw [h]

/-- A step with an agenda is its first act. -/
theorem step_cons {s : State} {a : Act} {rest : List Act} (h : s.agenda = a :: rest) : step s = act a { s with agenda := rest } := by
  unfold step; rw [h]

/-- An act that answers a next state: an event is its instruction's, an issue slot is the context's. -/
theorem act_cases {a : Act} {s u : State} (h : act a s = .next u) :
    (∃ i, a = .event i ∧ (s.powered = true ∨ i = .powerOn) ∧ exec i s = .next u)
      ∨ (∃ t c, a = .issue t c ∧ s.powered = true ∧ issueSlot { s with cur := (t, c) } = .next u) := by
  cases a with
  | event i =>
    left
    simp only [act] at h
    split at h
    · rename_i hp
      simp only [Bool.or_eq_true, beq_iff_eq] at hp
      exact ⟨i, rfl, hp, h⟩
    · cases h
  | issue t c =>
    right
    simp only [act] at h
    split at h
    · exact ⟨t, c, rfl, ‹_›, h⟩
    · cases h

end Sys2Proof.Machine
end

