-- ==== Sys2Proof/Tests/Slice0.lean ====
section
/-! SUPPORT. Tests: ill-formed terms, words written field by field from R73 to R89, single steps with results from the spec, and for each
statement with hypotheses a state and operands that meet them. -/

namespace Sys2Proof.Tests

set_option Elab.async false

open Sys2Proof.Machine

/-! Ill-formed terms: one for each check. -/

theorem test_ill_formed_registers :
    Instr.wf (.add .x 32 0 0) = false ∧ Instr.wf (.csel 1 1 1 32) = false ∧ Instr.wf (.fadd .d .rne 16 0 0) = false ∧ Instr.wf (.pand 8 0 0) = false
      ∧ Instr.wf (.fcvt .i_d .rne 0 16) = false ∧ Instr.wf (.fcvt .d_i .rne 16 0) = false ∧ Instr.wf (.patget .base 16 0) = false := by decide

theorem test_ill_formed_immediates :
    Instr.wf (.addi .x 0 0 (2 ^ 32)) = false ∧ Instr.wf (.shli .w 0 0 32) = false ∧ Instr.wf (.shli .x 0 0 64) = false ∧ Instr.wf (.bext 0 0 0 0) = false
      ∧ Instr.wf (.bins 0 0 60 5) = false ∧ Instr.wf (.addx 7 0 0 0) = false ∧ Instr.wf (.morton false 0 0 0 1) = false
      ∧ Instr.wf (.demorton false 0 0 2) = false ∧ Instr.wf (.jmp (2 ^ 32)) = false ∧ Instr.wf (.bc (.p 8) 0) = false ∧ Instr.wf (.rds 0 20) = false
      ∧ Instr.wf (.wrs 20 0) = false ∧ Instr.wf (.trap 0 64) = false ∧ Instr.wf (.prio false 24) = false ∧ Instr.wf (.prio true 32) = false
      ∧ Instr.wf (.mtrd 0 16) = false ∧ Instr.wf (.halt (2 ^ 32)) = false ∧ Instr.wf (.exit true 0 0) = false ∧ Instr.wf (.exit false 0 1) = false := by decide

theorem test_ill_formed_memory :
    Instr.wf (.ldg ⟨.b64, .rel, 1, 0, 0, 0, 0⟩) = false ∧ Instr.wf (.stg ⟨.b64, .acq, 1, 0, 0, 0, 0⟩) = false ∧ Instr.wf (.stg ⟨.i8, .plain, 1, 0, 0, 0, 0⟩) = false
      ∧ Instr.wf (.ldg ⟨.b128, .plain, 1, 0, 0, 0, 0⟩) = false ∧ Instr.wf (.ldh ⟨.b128, .plain, 2, 0, 0, 0, 0⟩) = false
      ∧ Instr.wf (.sth ⟨.b128, .plain, 2, 0, 0, 0, 0⟩) = false ∧ Instr.wf (.ldl ⟨.f64, .plain, 16, 0, 0, 0, 0⟩) = false
      ∧ Instr.wf (.ldl ⟨.b8, .plain, 0, 0, 0, 1, 0⟩) = false ∧ Instr.wf (.ldl ⟨.b8, .plain, 0, 0, 1, 4, 0⟩) = false
      ∧ Instr.wf (.amog ⟨.add, true, .plain, 32, 0, 0, 0⟩) = false ∧ Instr.wf (.arrive 0 256) = false := by decide

theorem test_ill_formed_queues :
    Instr.wf (.streamIn ⟨16, 0, 0, 0, 0, 0, 0, 0, 0, false, false, 0, 0⟩) = false ∧ Instr.wf (.streamIn ⟨0, 0, 0, 0, 0, 0, 0, 1, 0, false, false, 0, 0⟩) = false
      ∧ Instr.wf (.streamIn ⟨0, 0, 0, 0, 0, 0, 1, 3, 0, false, false, 0, 0⟩) = false ∧ Instr.wf (.streamIn ⟨0, 0, 0, 0, 0, 0, 0, 0, 1, false, false, 0, 0⟩) = false
      ∧ Instr.wf (.streamOut ⟨0, 0, 1, 0, 0, 0, 0, 0, 0, false, false, 0, 0⟩) = false ∧ Instr.wf (.streamRec ⟨0, 0, 0, 0, 0, 0, 0, 0, 0, false, false, 16, 0⟩) = false
      ∧ Instr.wf (.streamConst ⟨0, 0, 1, 0, 0, 0, 0, 0, 0, false, false, 0, 0⟩) = false ∧ Instr.wf (.streamInd ⟨0, 0, 0, 1, 0, 0, 0, 0, 0, false, false, 0, 0⟩) = false
      ∧ Instr.wf (.copy ⟨0, 0, 0, 0, 0, 0, 0, 0, 0, false, true, 0, 0⟩) = false ∧ Instr.wf (.mcopy ⟨0, 0, 0, 0, 0, 0, 0, 0, 0, false, false, 256, 0⟩) = false
      ∧ Instr.wf (.rcopy ⟨0, 0, 0, 0, 0, 0, 0, 0, 0, false, false, 0, 9⟩) = false ∧ Instr.wf (.rcopy ⟨0, 0, 0, 0, 0, 0, 0, 0, 0, true, false, 0, 0⟩) = false
      ∧ Instr.wf (.scond 0 0 0 0 0 false 1) = false ∧ Instr.wf (.scond 0 0 0 1 0 false 0) = false ∧ Instr.wf (.sbarRd 0 0 5) = false
      ∧ Instr.wf (.stitch 0 0 (2 ^ 16)) = false ∧ Instr.wf (.qwait (2 ^ 16)) = false ∧ Instr.wf (.qstat 0 0 4 false) = false
      ∧ Instr.wf (.spawnn 0 0 0 0) = false ∧ Instr.wf (.spawnn 0 0 0 257) = false ∧ Instr.wf (.patget .copy 0 0) = false
      ∧ Instr.wf (.patset .copy 0 16) = false := by decide

/-- A weave word that BLOCK.M.ws may carry. -/
def plainWeave : Weave := ⟨4, 4, 2, 2, 0, 0, 0, 0, 0, false, false, false, 0, 0, 0, 0, 0⟩

/-- R166, R77: bits 14..0 of the weave word are a reserved field (step 4), but with FLOW 6 any bit of 37..0 is an undefined value (step 3). -/
theorem test_low_bits_of_the_weave_word : decode [0xB511003600000000, 0x1106080000000001] = .error ⟨.undefinedValue, 1⟩
    ∧ decode [0xB011003000000000, 0x44A0100100000001] = .error ⟨.reservedNonzero, 1⟩ := ⟨rfl, rfl⟩

theorem test_ill_formed_blocks :
    Instr.wf (.blockMWs ⟨1, 0, false, false, false, 0, plainWeave, [], []⟩) = true
      ∧ Instr.wf (.blockMWs ⟨5, 0, false, false, false, 0, plainWeave, [], []⟩) = false
      ∧ Instr.wf (.blockMWs ⟨1, 4096, false, false, false, 0, plainWeave, [], []⟩) = false
      ∧ Instr.wf (.blockMOs ⟨1, 0, false, false, false, 0, plainWeave, [], []⟩) = false
      ∧ Instr.wf (.blockMWs ⟨1, 0, false, false, false, 0, { plainWeave with aw := 9 }, [], []⟩) = false
      ∧ Instr.wf (.blockMWs ⟨1, 0, false, false, false, 0, { plainWeave with acc := 2 }, [], []⟩) = false
      ∧ Instr.wf (.blockMWs ⟨1, 0, false, false, false, 0, { plainWeave with red := 5 }, [], []⟩) = false
      ∧ Instr.wf (.blockMWs ⟨1, 0, false, false, false, 0, { plainWeave with stk := true }, [], []⟩) = false
      ∧ Instr.wf (.blockMWs ⟨1, 0, false, false, false, 0, plainWeave, [0], []⟩) = false
      ∧ Instr.wf (.blockMWs ⟨1, 0, false, false, false, 0, plainWeave, [1, 1, 1, 1, 1], []⟩) = false
      ∧ Instr.wf (.blockMWs ⟨1, 0, false, false, false, 0, plainWeave, [], [⟨false, 1, 0, 0, 0⟩, ⟨false, 1, 2, 0, 0⟩]⟩) = false
      ∧ Instr.wf (.blockMWs ⟨1, 0, false, false, false, 0, plainWeave, [], [⟨false, 16, 0, 0, 0⟩]⟩) = false
      ∧ Instr.wf (.cfgld 5 0) = false ∧ Instr.wf (.cfgld 1 4096) = false ∧ Instr.wf (.bstat 0 1 4) = false ∧ Instr.wf (.spine 1 (some 9) 0) = false
      ∧ Instr.wf (.spine 1 none 3) = false ∧ Instr.wf (.accrd 1 16 false 0 false) = false ∧ Instr.wf (.accrd 1 0 false 4 false) = false := by decide

/-! Reserved words, step by step (R76, R77): the index is the failing word. -/

theorem test_reject_undefined_then_reserved :
    decode [0b00010000_0000_00001_00001_00001_00000_0011_0000000000000000000000000001] = .error ⟨.undefinedValue, 0⟩
      ∧ decode [0b00010000_0000_00001_00001_00001_00000_0010_0000000000000000000000000001] = .error ⟨.reservedNonzero, 0⟩
      ∧ decode [0b00010000_1101_00000_00000_00000_00000_0000_0000000000000000000000000000] = .error ⟨.unassignedFunction, 0⟩
      ∧ decode [0] = .error ⟨.unassignedMajor, 0⟩ ∧ decode [2 ^ 64 - 1] = .error ⟨.unassignedMajor, 0⟩
      ∧ Reject.reservedNonzero.cause = 0x02 ∧ Reject.undefinedValue.cause = 0x01 := ⟨rfl, rfl, rfl, rfl, rfl, rfl, rfl⟩

/-! Words of every sequencer instruction, field by field from R73, R75 and R78 to R88, R229, R230. -/

theorem test_decode_integer_arithmetic :
    decode [0b00010000_0000_00101_00110_00111_00000_0000_0000000000000000000000000000] = .ok (.add .x 5 6 7)
    ∧ decode [0b00010000_0001_00101_00110_00111_00000_0001_0000000000000000000000000000] = .ok (.sub .w 5 6 7)
    ∧ decode [0b00010000_0010_00101_00110_00111_00000_0010_0000000000000000000000000000] = .ok (.mul .wn 5 6 7)
    ∧ decode [0b00010000_0011_00101_00110_00111_00000_0000_0000000000000000000000000000] = .ok (.mulh .x 5 6 7)
    ∧ decode [0b00010000_0100_00101_00110_00111_00000_0001_0000000000000000000000000000] = .ok (.mulhn .w 5 6 7)
    ∧ decode [0b00010000_0101_00101_00110_00111_00000_0010_0000000000000000000000000000] = .ok (.div .wn 5 6 7)
    ∧ decode [0b00010000_0110_00101_00110_00111_00000_0000_0000000000000000000000000000] = .ok (.divn .x 5 6 7)
    ∧ decode [0b00010000_0111_00101_00110_00111_00000_0001_0000000000000000000000000000] = .ok (.rem .w 5 6 7)
    ∧ decode [0b00010000_1000_00101_00110_00111_00000_0010_0000000000000000000000000000] = .ok (.remn .wn 5 6 7)
    ∧ decode [0b00010000_1001_00101_00110_00111_00000_0000_0000000000000000000000000000] = .ok (.min .x 5 6 7)
    ∧ decode [0b00010000_1010_00101_00110_00111_00000_0001_0000000000000000000000000000] = .ok (.max .w 5 6 7)
    ∧ decode [0b00010000_1011_00101_00110_00111_00000_0010_0000000000000000000000000000] = .ok (.minn .wn 5 6 7)
    ∧ decode [0b00010000_1100_00101_00110_00111_00000_0000_0000000000000000000000000000] = .ok (.maxn .x 5 6 7) :=
  ⟨rfl, rfl, rfl, rfl, rfl, rfl, rfl, rfl, rfl, rfl, rfl, rfl, rfl⟩

theorem test_decode_logic_and_shift :
    decode [0b00010001_0000_11111_00001_00010_00000_0000_0000000000000000000000000000] = .ok (.and .x 31 1 2)
    ∧ decode [0b00010001_0001_11111_00001_00010_00000_0001_0000000000000000000000000000] = .ok (.or .w 31 1 2)
    ∧ decode [0b00010001_0010_11111_00001_00010_00000_0010_0000000000000000000000000000] = .ok (.xor .wn 31 1 2)
    ∧ decode [0b00010001_0011_11111_00001_00010_00000_0000_0000000000000000000000000000] = .ok (.andn .x 31 1 2)
    ∧ decode [0b00010001_0100_11111_00001_00010_00000_0001_0000000000000000000000000000] = .ok (.orn .w 31 1 2)
    ∧ decode [0b00010001_0101_11111_00001_00010_00000_0010_0000000000000000000000000000] = .ok (.shl .wn 31 1 2)
    ∧ decode [0b00010001_0110_11111_00001_00010_00000_0000_0000000000000000000000000000] = .ok (.shr .x 31 1 2)
    ∧ decode [0b00010001_0111_11111_00001_00010_00000_0001_0000000000000000000000000000] = .ok (.sha .w 31 1 2)
    ∧ decode [0b00010001_1000_11111_00001_00010_00000_0010_0000000000000000000000000000] = .ok (.cmpeq .wn 31 1 2)
    ∧ decode [0b00010001_1001_11111_00001_00010_00000_0000_0000000000000000000000000000] = .ok (.cmplt .x 31 1 2)
    ∧ decode [0b00010001_1010_11111_00001_00010_00000_0001_0000000000000000000000000000] = .ok (.cmpltn .w 31 1 2)
    ∧ decode [0b00010001_1011_00001_00010_00011_00100_0000_0000000000000000000000000000] = .ok (.csel 1 2 3 4)
    ∧ decode [0b00010001_1100_00001_00010_00000_00000_0000_0000000000000000000000000000] = .ok (.mov 1 2) :=
  ⟨rfl, rfl, rfl, rfl, rfl, rfl, rfl, rfl, rfl, rfl, rfl, rfl, rfl⟩

theorem test_decode_bits_and_addresses :
    decode [0b00010010_0000_01001_01010_00000_00000_0000_0000000000000000000000000000] = .ok (.clz .x 9 10)
    ∧ decode [0b00010010_0001_01001_01010_00000_00000_0001_0000000000000000000000000000] = .ok (.ctz .w 9 10)
    ∧ decode [0b00010010_0010_01001_01010_00000_00000_0010_0000000000000000000000000000] = .ok (.popc .wn 9 10)
    ∧ decode [0b00010010_0011_01001_01010_00000_00000_0001_0000000000000000000000000000] = .ok (.sext .b16 9 10)
    ∧ decode [0b00010010_0100_01001_01010_00000_00000_0010_0000000000000000000000000000] = .ok (.zext .b32 9 10)
    ∧ decode [0b00010010_0101_01001_01010_01011_00000_0110_0000000000000000000000000000] = .ok (.addx 6 9 10 11)
    ∧ decode [0b00010010_0110_01001_01010_01011_01100_0001_0000000000000000000000000000] = .ok (.morton true 9 10 11 12) :=
  ⟨rfl, rfl, rfl, rfl, rfl, rfl, rfl⟩

theorem test_decode_immediates :
    decode [0b00011000_0000_00011_00100_0000000000_10000000000000000000000000000101] = .ok (.addi .x 3 4 0x80000005)
    ∧ decode [0b00011000_0001_00011_00100_0000000001_10000000000000000000000000000101] = .ok (.andi .w 3 4 0x80000005)
    ∧ decode [0b00011000_0010_00011_00100_0000000010_10000000000000000000000000000101] = .ok (.ori .wn 3 4 0x80000005)
    ∧ decode [0b00011000_0011_00011_00100_0000000000_10000000000000000000000000000101] = .ok (.xori .x 3 4 0x80000005)
    ∧ decode [0b00011000_0100_00011_00100_0000000000_00000000000000000000000000111111] = .ok (.shli .x 3 4 63)
    ∧ decode [0b00011000_0101_00011_00100_0000000001_00000000000000000000000000011111] = .ok (.shri .w 3 4 31)
    ∧ decode [0b00011000_0110_00011_00100_0000000010_00000000000000000000000000000111] = .ok (.shai .wn 3 4 7)
    ∧ decode [0b00011000_0111_00011_00000_0000000000_11111111111111111111111111111111] = .ok (.li 3 0xFFFFFFFF)
    ∧ decode [0b00011000_1000_00011_00100_0000000000_00000000000000000000000000001001] = .ok (.lui 3 4 9)
    ∧ decode [0b00011000_1001_00011_00100_0000000000_00000000000000000000101100000101] = .ok (.bext 3 4 5 12)
    ∧ decode [0b00011000_1010_00011_00100_0000000000_00000000000000000011111100000000] = .ok (.bins 3 4 0 64)
    ∧ decode [0b00011000_1011_00011_00100_0000000101_00000000000000000000000000000000] = .ok (.demorton true 3 4 2) :=
  ⟨rfl, rfl, rfl, rfl, rfl, rfl, rfl, rfl, rfl, rfl, rfl, rfl⟩

theorem test_decode_floats :
    decode [0b00110000_0000_00001_00010_00011_00000_0000_0000000000000000000000000000] = .ok (.fadd .d .fmode 1 2 3)
    ∧ decode [0b00110000_0001_00001_00010_00011_00000_1001_0000000000000000000000000000] = .ok (.fsub .s .rne 1 2 3)
    ∧ decode [0b00110000_0010_00001_00010_00011_00000_0010_0000000000000000000000000000] = .ok (.fmul .d .rtz 1 2 3)
    ∧ decode [0b00110000_0100_00001_00010_00011_00000_1011_0000000000000000000000000000] = .ok (.fdiv .s .rup 1 2 3)
    ∧ decode [0b00110000_0011_00001_00010_00011_01111_1100_0000000000000000000000000000] = .ok (.ffma .s .rdn 1 2 3 15)
    ∧ decode [0b00110000_0101_00001_00010_00000_00000_0001_0000000000000000000000000000] = .ok (.fsqrt .d .rne 1 2)
    ∧ decode [0b00110000_0110_00001_00010_00011_00000_1000_0000000000000000000000000000] = .ok (.fmin .s 1 2 3)
    ∧ decode [0b00110000_0111_00001_00010_00011_00000_0000_0000000000000000000000000000] = .ok (.fmax .d 1 2 3)
    ∧ decode [0b00110000_1000_11111_00010_00011_00000_0011_0000000000000000000000000000] = .ok (.fcmp .d .un 31 2 3)
    ∧ decode [0b00110000_1001_11111_00010_00000_00100_1000_0000000000000000000000000000] = .ok (.fcvt .n_d .rdn 31 2)
    ∧ decode [0b00110000_1010_11111_00010_00000_00000_1000_0000000000000000000000000000] = .ok (.fclass .s 31 2)
    ∧ decode [0b00110000_1011_11111_00010_00000_00000_0000_0000000000000000000000000000] = .ok (.fmovx .d 31 2)
    ∧ decode [0b00110000_1100_00010_11111_00000_00000_1000_0000000000000000000000000000] = .ok (.fmovf .s 2 31) :=
  ⟨rfl, rfl, rfl, rfl, rfl, rfl, rfl, rfl, rfl, rfl, rfl, rfl, rfl⟩

theorem test_decode_branches :
    decode [0b01000000_0100_00001_00010_000_0000000_11111111111111111111111111111110] = .ok (.bc (.rel .ltn 1 2) 0xFFFFFFFE)
    ∧ decode [0b01000000_0110_00000_00000_111_0000000_00000000000000000000000000000011] = .ok (.bc (.p 7) 3)
    ∧ decode [0b01000000_0111_00000_00000_001_0000000_00000000000000000000000000000011] = .ok (.bc (.np 1) 3)
    ∧ decode [0b01000001_0000_00000_00000_000_0000000_00000000000000000000000000000101] = .ok (.jmp 5)
    ∧ decode [0b01000010_0000_11111_00000_000_0000000_00000000000000000000000000000101] = .ok (.call 31 5)
    ∧ decode [0b01000011_0000_00001_00010_00000_00000_0000_0000000000000000000000000000] = .ok (.jmpx 1 2)
    ∧ decode [0b01000011_0001_00000_00010_00000_00000_0000_0000000000000000000000000000] = .ok (.ret 2)
    ∧ decode [0b01000100_0000_00110_00000_000_0000000_11111111111111111111111111111101] = .ok (.loop 6 0xFFFFFFFD) :=
  ⟨rfl, rfl, rfl, rfl, rfl, rfl, rfl, rfl⟩

theorem test_decode_predicates_and_specials :
    decode [0b01001000_0000_00111_00001_00010_00000_0101_0000000000000000000000000000] = .ok (.pset .gen 7 1 2)
    ∧ decode [0b01001000_0001_00111_00001_00010_00000_0000_0000000000000000000000000000] = .ok (.pand 7 1 2)
    ∧ decode [0b01001000_0010_00111_00001_00010_00000_0000_0000000000000000000000000000] = .ok (.por 7 1 2)
    ∧ decode [0b01001000_0011_00111_00001_00000_00000_0000_0000000000000000000000000000] = .ok (.pnot 7 1)
    ∧ decode [0b01001100_0000_01001_00000_0000000000_00000000000000000000000000010011] = .ok (.rds 9 0x13)
    ∧ decode [0b01001100_0001_00000_01001_0000000000_00000000000000000000000000001101] = .ok (.wrs 0x0D 9) :=
  ⟨rfl, rfl, rfl, rfl, rfl, rfl⟩

theorem test_decode_loads_and_stores :
    decode [0b01010000_0011_00100_00011_00010_11_001_11111111111111111111111111111000] = .ok (.ldg ⟨.b64, .acq, 4, 3, 2, 3, 0xFFFFFFF8⟩)
    ∧ decode [0b01010011_1000_00100_00011_00010_11_000_11111111111111111111111111111000] = .ok (.ldl ⟨.i8, .plain, 4, 3, 2, 3, 0xFFFFFFF8⟩)
    ∧ decode [0b01011000_0101_00100_00011_00010_11_000_11111111111111111111111111111000] = .ok (.lda ⟨.f32, .plain, 4, 3, 2, 3, 0xFFFFFFF8⟩)
    ∧ decode [0b01011010_1001_00100_00011_00010_11_100_11111111111111111111111111111000] = .ok (.lds ⟨.i16, .sc, 4, 3, 2, 3, 0xFFFFFFF8⟩)
    ∧ decode [0b01011101_1010_00100_00011_00010_11_000_11111111111111111111111111111000] = .ok (.ldh ⟨.i32, .plain, 4, 3, 2, 3, 0xFFFFFFF8⟩)
    ∧ decode [0b01010001_0000_00100_00011_00010_11_010_11111111111111111111111111111000] = .ok (.stg ⟨.b8, .rel, 4, 3, 2, 3, 0xFFFFFFF8⟩)
    ∧ decode [0b01010100_0001_00100_00011_00010_11_000_11111111111111111111111111111000] = .ok (.stl ⟨.b16, .plain, 4, 3, 2, 3, 0xFFFFFFF8⟩)
    ∧ decode [0b01010110_0010_00100_00011_00010_11_000_11111111111111111111111111111000] = .ok (.stx ⟨.b32, .plain, 4, 3, 2, 3, 0xFFFFFFF8⟩)
    ∧ decode [0b01011001_0110_00100_00011_00010_11_000_11111111111111111111111111111000] = .ok (.sta ⟨.f64, .plain, 4, 3, 2, 3, 0xFFFFFFF8⟩)
    ∧ decode [0b01011011_0100_00100_00011_00010_11_100_11111111111111111111111111111000] = .ok (.sts ⟨.b128, .sc, 4, 3, 2, 3, 0xFFFFFFF8⟩)
    ∧ decode [0b01011110_0011_00100_00011_00010_11_000_11111111111111111111111111111000] = .ok (.sth ⟨.b64, .plain, 4, 3, 2, 3, 0xFFFFFFF8⟩) :=
  ⟨rfl, rfl, rfl, rfl, rfl, rfl, rfl, rfl, rfl, rfl, rfl⟩

theorem test_decode_atomics :
    decode [0b01010010_0101_00100_00011_00010_01_011_00000000000000000000000000010000] = .ok (.amog ⟨.cas, true, .ar, 4, 3, 2, 16⟩)
    ∧ decode [0b01010101_0111_00100_00011_00010_00_000_00000000000000000000000000010000] = .ok (.amol ⟨.maxi, false, .plain, 4, 3, 2, 16⟩)
    ∧ decode [0b01010111_1000_00100_00011_00010_01_010_00000000000000000000000000010000] = .ok (.amox ⟨.minn, true, .rel, 4, 3, 2, 16⟩)
    ∧ decode [0b01011100_1001_00100_00011_00010_00_100_00000000000000000000000000010000] = .ok (.amos ⟨.maxn, false, .sc, 4, 3, 2, 16⟩) :=
  ⟨rfl, rfl, rfl, rfl⟩

theorem test_decode_counters_fences_barriers :
    decode [0b01100000_0000_00001_00010_00011_00000_0001_0000000000000000000000000000] = .ok (.cadd true 1 2 3)
    ∧ decode [0b01100000_0001_00001_00010_00011_00000_0000_0000000000000000000000000000] = .ok (.cwait false 1 2 3)
    ∧ decode [0b01100000_0010_00001_00010_00000_00000_0001_0000000000000000000000000000] = .ok (.cread true 1 2)
    ∧ decode [0b01100001_0011_00000_00000_00000_00000_0010_0000000000000000000000000000] = .ok (.fence .device .rel)
    ∧ decode [0b01100001_0100_00000_00000_00000_00000_0001_0000000000000000000000000000] = .ok (.fence .system .acq)
    ∧ decode [0b01100010_0000_00100_00000_0000000000_00000000000000000000000011111111] = .ok (.arrive 4 255)
    ∧ decode [0b01100010_0001_00100_00101_0000000000_00000000000000000000000000000110] = .ok (.wait 4 5 6)
    ∧ decode [0b01100010_0010_00100_00000_0000000000_00000000000000000000000000000110] = .ok (.arrwait 4 6)
    ∧ decode [0b01100010_0011_00100_00000_0000000000_00000000000000000000000000000110] = .ok (.gquery 4 6) :=
  ⟨rfl, rfl, rfl, rfl, rfl, rfl, rfl, rfl, rfl⟩

theorem test_decode_patterns :
    decode [0b01110000_0000_0000_0010_0000_00101_00000_00000_0000000000000000000000001] = .ok (.patld .l 2 5)
    ∧ decode [0b01110000_0000_0000_0010_0000_00101_00000_00000_0000000000000000000000101] = .ok (.patld .s 2 5)
    ∧ decode [0b01110000_0001_0000_0010_0000_00101_00000_00000_0000000000000000000000100] = .ok (.patset .d2 2 5)
    ∧ decode [0b01110000_0001_0000_0010_0011_00000_00000_00000_0000000000000000000000110] = .ok (.patset .copy 2 3)
    ∧ decode [0b01110000_0010_0000_0010_0000_00101_00000_00000_0000000000000000000000001] = .ok (.patget .ctrl 2 5) :=
  ⟨rfl, rfl, rfl, rfl, rfl⟩

theorem test_decode_streams :
    decode [0b01110001_0000_0010_0011_0000_00000_00100_00101_00110_01_00_0_00_0_00000000_0111] = .ok (.streamIn ⟨2, 3, 0, 0, 4, 5, 6, 1, 0, false, false, 0, 7⟩)
    ∧ decode [0b01110001_0001_0010_0011_0000_00000_00100_00101_00110_10_00_0_00_0_00000000_1111] = .ok (.streamOut ⟨2, 3, 0, 0, 4, 5, 6, 2, 0, false, false, 0, 15⟩)
    ∧ decode [0b01110001_0010_0010_0011_0000_00000_00100_00101_00000_00_00_0_00_0_00001001_0111] = .ok (.streamRec ⟨2, 3, 0, 0, 4, 5, 0, 0, 0, false, false, 9, 7⟩)
    ∧ decode [0b01110001_0011_0010_0011_0000_01000_00100_00101_00110_00_00_0_00_0_00000000_0111] = .ok (.streamConst ⟨2, 3, 0, 8, 4, 5, 6, 0, 0, false, false, 0, 7⟩)
    ∧ decode [0b01110001_0100_0010_0011_0000_00000_00100_00101_00110_01_00_0_00_0_00000000_0111] = .ok (.streamDrop ⟨2, 3, 0, 0, 4, 5, 6, 1, 0, false, false, 0, 7⟩)
    ∧ decode [0b01110001_0101_0010_0011_1001_00000_00100_00101_00110_01_00_0_00_0_00000000_0111] = .ok (.streamInd ⟨2, 3, 9, 0, 4, 5, 6, 1, 0, false, false, 0, 7⟩) :=
  ⟨rfl, rfl, rfl, rfl, rfl, rfl⟩

theorem test_decode_gates_and_copies :
    decode [0b01110010_0000_0001_0000_0000_00000_00000_00101_0000000000000000000000011] = .ok (.sbarRd 1 5 3)
    ∧ decode [0b01110010_0001_0001_0000_0000_00000_00000_00101_0000000000000000000001100] = .ok (.sbarWr 1 5 12)
    ∧ decode [0b01110010_0010_0001_0000_0000_00000_00000_00101_0000000000000000000000000] = .ok (.sbarAll 1 5 0)
    ∧ decode [0b01110010_0011_0001_0000_0000_00000_00010_00101_00110_01_00_0_00_0_00000001_1001] = .ok (.scond 1 2 5 6 1 true 9)
    ∧ decode [0b10000000_0000_0010_0011_0100_00000_00101_00110_00111_01_10_1_00_0_00000000_0000] = .ok (.copy ⟨2, 3, 4, 0, 5, 6, 7, 1, 2, true, false, 0, 0⟩)
    ∧ decode [0b10000000_0001_0010_0011_0100_00000_00101_00110_00111_10_01_0_00_0_11001000_0000] = .ok (.mcopy ⟨2, 3, 4, 0, 5, 6, 7, 2, 1, false, false, 200, 0⟩)
    ∧ decode [0b10000000_0010_0010_0011_0100_00000_00101_00110_00111_00_00_0_00_1_01100100_1000] = .ok (.rcopy ⟨2, 3, 4, 0, 5, 6, 7, 0, 0, false, true, 100, 8⟩)
    ∧ decode [0b10000001_0000_0011_0000_0000_00000_00000_00100_0000000001000000000000001] = .ok (.stitch 3 4 0x8001)
    ∧ decode [0b10000001_0001_0000_0000_0000_00000_00000_00000_0000000001111111111111111] = .ok (.qwait 0xFFFF)
    ∧ decode [0b10000001_0010_0011_0000_0000_00100_00000_00000_0000000000000000000000110] = .ok (.qstat 3 4 2 true) :=
  ⟨rfl, rfl, rfl, rfl, rfl, rfl, rfl, rfl, rfl, rfl⟩

theorem test_decode_tasks_and_system :
    decode [0b10010000_0000_0000_0000_0000_00001_00010_00011_0000000000000000000000000] = .ok (.spawn 1 2 3)
    ∧ decode [0b10010000_0001_0000_0000_0000_00001_00010_00011_0000000000000000011111111] = .ok (.spawnn 1 2 3 256)
    ∧ decode [0b10010000_0010_0000_0000_0000_00001_00000_00011_0000000000000000000000000] = .ok (.launch 1 3)
    ∧ decode [0b10010000_0011_0000_0000_0000_00001_00010_00011_0000000000000000000000000] = .ok (.cancel 1 2 3)
    ∧ decode [0b10010001_0000_00000_00000_00000_00000_0000_0000000000000000000000000000] = .ok (.yield)
    ∧ decode [0b10010001_0001_00000_00001_00010_00000_0001_0000000000000000000000000000] = .ok (.exit true 1 2)
    ∧ decode [0b10010001_0010_00001_00010_00011_00000_0000_0000000000000000000000000000] = .ok (.scopeSet 1 2 3)
    ∧ decode [0b10010001_0010_00001_00010_00011_00000_0001_0000000000000000000000000000] = .ok (.scopeSplit 1 2 3)
    ∧ decode [0b10010001_0011_00000_00000_00000_00000_0000_0000000000000000000000000000] = .ok (.chkc)
    ∧ decode [0b10010001_0100_00001_00010_00000_00000_0000_0000000000000000000000000000] = .ok (.squery 1 2)
    ∧ decode [0b10100000_0000_00000_00100_0000000000_00000000000000000000000000111111] = .ok (.trap 4 63)
    ∧ decode [0b10100000_0001_00000_00000_0000000000_00000000000000000000000000000000] = .ok (.tret)
    ∧ decode [0b10100000_0001_00000_00000_0000000000_00000000000000000000000000000001] = .ok (.tretN)
    ∧ decode [0b10100000_0010_00000_00000_0000000000_00000000000000000000000000010111] = .ok (.prio false 23)
    ∧ decode [0b10100000_0010_00000_01001_0000000001_00000000000000000000000000000000] = .ok (.prio true 9)
    ∧ decode [0b10100000_0011_01001_00000_0000000000_00000000000000000000000000001111] = .ok (.mtrd 9 15)
    ∧ decode [0b10100000_0100_00000_00000_0000000000_11011110101011011011111011101111] = .ok (.halt 0xDEADBEEF)
    ∧ decode [0b10100000_0101_00000_00000_0000000000_00000000000000000000000000000000] = .ok (.nop) :=
  ⟨rfl, rfl, rfl, rfl, rfl, rfl, rfl, rfl, rfl, rfl, rfl, rfl, rfl, rfl, rfl, rfl, rfl, rfl⟩

theorem test_decode_blocks :
    decode [0b10110000_0011_0011_000000001001_0000_000000000000000000000000_000_0_1_0_10,
        0b0100_0100_10_10_0000_0000_00_00_00_0_0_0_000_000000000_0000_00_00_000000000000000,
        0b01_00_00000000000000000101_0000000000000000000000000000000000000000,
        0b10_1_0011_0100_0101_00110_00000000000000000000000000000000000000000000] = .ok (.blockMWs ⟨3, 9, false, true, false, 2, ⟨4, 4, 2, 2, 0, 0, 0, 0, 0, false, false, false, 0, 0, 0, 0, 0⟩, [5], [⟨true, 3, 4, 5, 6⟩]⟩)
    ∧ decode [0b10110000_0011_0011_000000001001_0001_000000000000000000000000_000_0_1_1_10,
        0b0100_0010_01_00_0001_0000_10_00_00_0_0_0_000_000000000_0000_00_00_000000000000000,
        0b01_00_00000000000000000101_0000000000000000000000000000000000000000,
        0b10_1_0011_0100_0101_00110_00000000000000000000000000000000000000000000] = .ok (.blockMOs ⟨3, 9, false, true, true, 2, ⟨4, 2, 1, 0, 1, 0, 2, 0, 0, false, false, false, 0, 0, 0, 0, 0⟩, [5], [⟨true, 3, 4, 5, 6⟩]⟩)
    ∧ decode [0b10110001_0011_0011_000000001001_0010_000000000000000000000000_000_0_1_0_10,
        0b0100_0100_10_10_0010_0000_00_00_00_0_0_0_000_000000000_0011_00_00_000000000000000,
        0b01_00_00000000000000000101_0000000000000000000000000000000000000000,
        0b10_1_0011_0100_0101_00110_00000000000000000000000000000000000000000000] = .ok (.blockE ⟨3, 9, false, true, false, 2, ⟨4, 4, 2, 2, 2, 0, 0, 0, 0, false, false, false, 0, 0, 3, 0, 0⟩, [5], [⟨true, 3, 4, 5, 6⟩]⟩)
    ∧ decode [0b10110010_0011_0011_000000001001_0011_000000000000000000000000_000_1_1_0_10,
        0b0100_0100_10_10_0011_0000_01_00_00_0_0_0_000_000000000_0000_00_00_000000000000000,
        0b01_00_00000000000000000101_0000000000000000000000000000000000000000,
        0b10_1_0011_0100_0101_00110_00000000000000000000000000000000000000000000] = .ok (.blockA ⟨3, 9, true, true, false, 2, ⟨4, 4, 2, 2, 3, 0, 1, 0, 0, false, false, false, 0, 0, 0, 0, 0⟩, [5], [⟨true, 3, 4, 5, 6⟩]⟩)
    ∧ decode [0b10110011_0011_0011_000000001001_0100_000000000000000000000000_000_0_1_0_10,
        0b0100_0100_10_10_0100_0000_00_00_00_0_0_0_000_000000000_0000_10_01_000000000000000,
        0b01_00_00000000000000000101_0000000000000000000000000000000000000000,
        0b10_1_0011_0100_0101_00110_00000000000000000000000000000000000000000000] = .ok (.blockS ⟨3, 9, false, true, false, 2, ⟨4, 4, 2, 2, 4, 0, 0, 0, 0, false, false, false, 0, 0, 0, 2, 1⟩, [5], [⟨true, 3, 4, 5, 6⟩]⟩)
    ∧ decode [0b10110100_0011_0011_000000001001_0101_000000000000000000000000_000_0_1_0_10,
        0b0100_0100_10_10_0101_0000_00_00_11_0_0_0_000_000000000_0000_00_00_000000000000000,
        0b01_00_00000000000000000101_0000000000000000000000000000000000000000,
        0b10_1_0011_0100_0101_00110_00000000000000000000000000000000000000000000] = .ok (.blockZ ⟨3, 9, false, true, false, 2, ⟨4, 4, 2, 2, 5, 0, 0, 0, 3, false, false, false, 0, 0, 0, 0, 0⟩, [5], [⟨true, 3, 4, 5, 6⟩]⟩)
    ∧ decode [0b10110101_0011_0011_000000001001_0110_000000000000000000000000_000_0_1_0_10,
        0b0001_0001_00_00_0110_0000_10_00_00_0_0_0_000_000000000_0000_00_00_000000000000000,
        0b01_00_00000000000000000101_0000000000000000000000000000000000000000,
        0b10_1_0011_0100_0101_00110_00000000000000000000000000000000000000000000] = .ok (.blockG ⟨3, 9, false, true, false, 2, ⟨1, 1, 0, 0, 6, 0, 2, 0, 0, false, false, false, 0, 0, 0, 0, 0⟩, [5], [⟨true, 3, 4, 5, 6⟩]⟩) :=
  ⟨rfl, rfl, rfl, rfl, rfl, rfl, rfl⟩

theorem test_decode_regions :
    decode [0b10111000_0000_00000_00000_0000001111_00000000000000000000111111111111] = .ok (.cfgld 15 4095)
    ∧ decode [0b10111000_0001_00000_00000_0000000011_00000000000000000000000000000000] = .ok (.cfgsw 3)
    ∧ decode [0b10111000_0010_00000_00000_0000001100_00000000000000000000000000000000] = .ok (.bdrain 12)
    ∧ decode [0b10111000_0011_01001_00000_0000000001_00000000000000000000000000000011] = .ok (.bstat 9 1 3)
    ∧ decode [0b10111000_0100_00000_00000_0000000010_00000000000000000000000000101111] = .ok (.spine 2 none 2)
    ∧ decode [0b10111000_0100_00000_00000_0000000010_00000000000000000000000000011000] = .ok (.spine 2 (some 8) 1)
    ∧ decode [0b10111000_0101_00000_00000_0000000100_00000000000000000000000011110111] = .ok (.accrd 4 7 true 3 true)
    ∧ decode [0b10111000_0110_00000_00000_0000001000_00000000000000000000000000000000] = .ok (.accclr 8) :=
  ⟨rfl, rfl, rfl, rfl, rfl, rfl, rfl, rfl⟩

/-! A small module: partition 0 owns the first column of die 0, launch 0 runs on its tiles 0 and 1, context 0 of tile 0 runs a task. -/

/-- Partition 0: one slot, one readable and writable 64 KB page at 0 and one read-only page behind it. -/
def part0 : Partition :=
  { Partition.reset with
    valid := true, slots := [0], bmax := 96, tsets := 4, tables := 16, hostok := true, sched := some ⟨0, [], 96, 96, 1, false, true, 0⟩
    leaves := [⟨0, 0, 0, true, true⟩, ⟨0x10000, 0, 0x10000, true, false⟩] }

/-- x1 to x9 hold addresses and small numbers. -/
def regs0 : Regs :=
  { Regs.reset with
    pc := 0x100
    x := [(1, 0x1000), (2, 0x2000), (3, 3), (4, 0xC), (5, 7), (6, 0x1001), (7, 0x300000), (8, 0xFFFFFFFFFFFFFFFF), (9, 0x10000)] }

def ctx0 : Ctx := { Ctx.reset with task := some (Task.placed 0), regs := regs0 }

def tile0 : Tile := { Tile.reset with lid := some 0, trapBase := 0x800, ctxs := [(0, ctx0)] }

/-- A folio of one quarter without bindings. -/
def folio0 : Folio := ⟨0, 0, 0, 64, 0, 1, 0, 0, none⟩

/-- Launch 0: group 5 of tiles 0 and 1, folio 3. -/
def launch0 : Launch :=
  { Launch.reset with st := .placed, started := true, tiles := [0, 1], root := 0xFFFF, folios := [(3, folio0)], groups := [(5, ⟨[0, 1], 2, 0, 0, 0, false, 0, false⟩)] }

def s0 : State :=
  { State.reset with
    tiles := [(0, tile0)], parts := [(0, part0)], launches := [(0, launch0)], nextLid := 1
    clasp := { Clasp.reset with runs := [⟨0, 2, 0⟩, ⟨1152, 1, 0⟩], capacity := 1 } }

/-- The module with its running context changed. -/
def on (f : Ctx → Ctx) : State := s0.modMe f
/-- The module with tile 0 changed. -/
def onTile (f : Tile → Tile) : State := s0.modTile 0 f
/-- The module with partition 0 changed. -/
def onPart (f : Partition → Partition) : State := s0.modPart 0 f
/-- The same state in trap mode. -/
def trapped : State := on fun c => { c with trap := true, trapPc := 0x200 }

/-- What a step answered, or the state before it. -/
def got (o : Out) : State := after o s0

/-! Single steps with results worked out from the spec. -/

theorem test_add_wraps_in_words : (got (exec (.add .w 10 8 3) s0)).getX 10 = 2 ∧ (got (exec (.add .wn 10 8 3) s0)).getX 10 = 2
    ∧ (got (exec (.sub .w 10 0 3) s0)).getX 10 = 0xFFFFFFFFFFFFFFFD ∧ (got (exec (.sub .wn 10 0 3) s0)).getX 10 = 0xFFFFFFFD := by decide
theorem test_x0_is_discarded : (got (exec (.add .x 0 8 3) s0)).getX 0 = 0 ∧ (got (exec (.add .x 0 8 3) s0)).pc = 0x108 := by decide
theorem test_mulh : (got (exec (.mulh .x 10 8 8) s0)).getX 10 = 0 ∧ (got (exec (.mulhn .x 10 8 8) s0)).getX 10 = 0xFFFFFFFFFFFFFFFE := by decide
theorem test_division_by_zero : (got (exec (.div .x 10 3 0) s0)).getX 10 = 0xFFFFFFFFFFFFFFFF ∧ (got (exec (.rem .x 10 3 0) s0)).getX 10 = 3 := by decide
theorem test_remainder_takes_the_dividends_sign : (got (exec (.rem .x 10 8 5) s0)).getX 10 = 0xFFFFFFFFFFFFFFFF
    ∧ (got (exec (.div .x 10 8 5) s0)).getX 10 = 0 := by decide
theorem test_min_signed_and_unsigned : (got (exec (.min .x 10 8 3) s0)).getX 10 = 0xFFFFFFFFFFFFFFFF ∧ (got (exec (.minn .x 10 8 3) s0)).getX 10 = 3 := by decide
theorem test_andn_and_orn : (got (exec (.andn .x 10 8 4) s0)).getX 10 = 0xFFFFFFFFFFFFFFF3 ∧ (got (exec (.orn .x 10 3 8) s0)).getX 10 = 3 := by decide
theorem test_shift_amount_is_modulo_the_width : (got (exec (.shl .w 10 3 5) s0)).getX 10 = 0x180 ∧ (got (exec (.sha .x 10 8 8) s0)).getX 10 = 0xFFFFFFFFFFFFFFFF
    ∧ (got (exec (.shr .x 10 8 8) s0)).getX 10 = 1 := by decide
theorem test_csel_tests_c : (got (exec (.csel 10 3 5 0) s0)).getX 10 = 7 ∧ (got (exec (.csel 10 3 5 1) s0)).getX 10 = 3 := by decide
theorem test_counts : (got (exec (.clz .x 10 3) s0)).getX 10 = 62 ∧ (got (exec (.clz .w 10 3) s0)).getX 10 = 30 ∧ (got (exec (.ctz .x 10 4) s0)).getX 10 = 2
    ∧ (got (exec (.popc .w 10 8) s0)).getX 10 = 32 := by decide
theorem test_extensions : (got (exec (.sext .b8 10 8) s0)).getX 10 = 0xFFFFFFFFFFFFFFFF ∧ (got (exec (.zext .b16 10 8) s0)).getX 10 = 0xFFFF := by decide
theorem test_morton : (got (exec (.morton false 10 3 0 0) s0)).getX 10 = 0b101 ∧ (got (exec (.morton true 10 0 3 0) s0)).getX 10 = 0b10010
    ∧ (got (exec (.demorton true 10 5 1) s0)).getX 10 = 1 := by decide
theorem test_immediates : (got (exec (.addi .x 10 3 0xFFFFFFFF) s0)).getX 10 = 2 ∧ (got (exec (.li 10 0x80000000) s0)).getX 10 = 0xFFFFFFFF80000000
    ∧ (got (exec (.lui 10 3 0x12345678) s0)).getX 10 = 0x1234567800000003 := by decide
theorem test_bit_fields : (got (exec (.bext 10 4 2 2) s0)).getX 10 = 3 ∧ (got (exec (.bins 8 0 4 8) s0)).getX 8 = 0xFFFFFFFFFFFFF00F := by decide

/-- 1.5 and 0.25 in binary64. -/
def withFloats : State := on fun c => { c with regs := { c.regs with f := [(1, 0x3FF8000000000000), (2, 0x3FD0000000000000), (3, 0x3F800000)] } }

theorem test_float_sum_and_product : (got (exec (.fadd .d .rne 4 1 2) withFloats)).getF 4 = 0x3FFC000000000000
    ∧ (got (exec (.fmul .d .rne 4 1 2) withFloats)).getF 4 = 0x3FD8000000000000 ∧ (got (exec (.fdiv .d .rne 4 1 2) withFloats)).getF 4 = 0x4018000000000000 := by
  decide +kernel
theorem test_float_root_and_fused : (got (exec (.fsqrt .d .rne 4 2) withFloats)).getF 4 = 0x3FE0000000000000
    ∧ (got (exec (.ffma .d .rne 4 1 1 2) withFloats)).getF 4 = 0x4004000000000000 := by decide +kernel
theorem test_float_division_by_zero_sets_dz : ((got (exec (.fdiv .d .rne 4 1 5) withFloats)).getF 4 = 0x7FF0000000000000)
    ∧ (got (exec (.fdiv .d .rne 4 1 5) withFloats)).special 0x12 = 0x20 := by decide +kernel
theorem test_float_conversions : (got (exec (.fcvt .i_d .rtz 10 1) withFloats)).getX 10 = 1 ∧ (got (exec (.fcvt .d_i .rne 4 5) withFloats)).getF 4 = 0x401C000000000000
    ∧ (got (exec (.fcvt .s_d .rne 4 1) withFloats)).getF 4 = 0x3FC00000 ∧ (got (exec (.fcmp .d .lt 10 2 1) withFloats)).getX 10 = 1 := by decide +kernel

theorem test_branches : (got (exec (.bc (.rel .lt 8 3) 0xFFFFFFFE) s0)).pc = 0xF0 ∧ (got (exec (.bc (.rel .ltn 8 3) 0xFFFFFFFE) s0)).pc = 0x108
    ∧ (got (exec (.bc (.p 0) 4) s0)).pc = 0x120 := by decide
theorem test_call_and_return : (got (exec (.call 31 2) s0)).getX 31 = 0x108 ∧ (got (exec (.call 31 2) s0)).pc = 0x110 ∧ (got (exec (.jmpx 1 1) s0)).pc = 0x1000
    ∧ (got (exec (.jmpx 1 1) s0)).getX 1 = 0x108 := by decide
theorem test_loop : (got (exec (.loop 3 0xFFFFFFFF) s0)).pc = 0xF8 ∧ (got (exec (.loop 3 0xFFFFFFFF) s0)).getX 3 = 2 ∧ (got (exec (.loop 0 4) s0)).pc = 0x108 := by decide
theorem test_b0_reads_one : (got (exec (.pset .ne 0 3 3) s0)).getB 0 = true ∧ (got (exec (.pnot 1 0) s0)).getB 1 = false := by decide
theorem test_special_registers : (got (exec (.rds 10 0x0D) s0)).getX 10 = 96 ∧ (got (exec (.wrs 0x0D 8) s0)).special 0x0D = 96
    ∧ (got (exec (.wrs 0x0C 5) s0)).special 0x0C = 7 := by decide
theorem test_wrs_read_only_traps : (got (exec (.wrs 0x10 5) s0)).special 0x09 = 0x03 ∧ (got (exec (.wrs 0x12 4) s0)).special 0x09 = 0x02 := by decide
theorem test_trap_and_return : (got (exec (.trap 5 63) s0)).pc = 0x800 ∧ (got (exec (.trap 5 63) s0)).special 0x09 = 0x7F
    ∧ (got (exec (.trap 5 63) s0)).special 0x0B = 7 ∧ (got (exec .tret trapped)).pc = 0x200 := by decide
theorem test_misaligned_load_traps : (got (exec (.ldl ⟨.b32, .plain, 10, 6, 0, 0, 0⟩) s0)).special 0x09 = 0x05
    ∧ (got (exec (.ldl ⟨.b8, .plain, 10, 7, 0, 0, 0⟩) s0)).special 0x09 = 0x04 ∧ (got (exec (.stg ⟨.b8, .plain, 10, 9, 0, 0, 0⟩) s0)).special 0x0B = 2 := by decide

/-- A store to tile memory, issued and performed; then a load of its bytes, issued, performed and returned. -/
def stored : State := got (exec (.memoryAccessAtHome 0 0 0 false) (got (exec (.stl ⟨.b32, .plain, 8, 1, 0, 0, 4⟩) s0)))
def loaded : State :=
  got (exec (.loadResultReturn 0 0 1) (got (exec (.memoryAccessAtHome 0 0 1 false) (got (exec (.ldl ⟨.b64, .plain, 10, 1, 0, 0, 0⟩) stored)))))

theorem test_store_writes_four_bytes : stored.readHome (.tile 0 0x1004) 4 = 0xFFFFFFFF ∧ stored.readHome (.tile 0 0x1008) 1 = 0
    ∧ stored.readHome (.tile 0 0x1003) 1 = 0 := by decide
theorem test_load_is_little_endian : loaded.getX 10 = 0xFFFFFFFF00000000 := by decide
theorem test_atomic_max_signed : (got (exec (.memoryAccessAtHome 0 0 1 false) (got (exec (.amol ⟨.maxi, false, .plain, 10, 1, 3, 4⟩) stored)))).readHome
    (.tile 0 0x1004) 4 = 3 := by decide
theorem test_counter_add_keeps_the_status : (got (exec (.memoryAccessAtHome 0 0 1 false) (got (exec (.cadd true 10 1 3) stored)))).readHome (.tile 0 0x1000) 16
    = 0xFFFFFFFF00000003 := by decide
theorem test_fence_with_nothing_before : (got (exec (.fence .device .ar) s0)).me.outs = [] ∧ (got (exec (.fence .device .ar) s0)).pc = 0x108 := by decide
theorem test_pattern_fields : (got (exec (.patget .d1 1 10) (got (exec (.patset .d1 1 8) s0)))).getX 10 = 0xFFFFFFFFFFF
    ∧ (got (exec (.patget .base 1 10) (got (exec (.patset .d1 1 8) s0)))).getX 10 = 0 := by decide
theorem test_scope_split : (got (exec (.scopeSplit 10 0 11) (on fun c => { c with regs := { c.regs with x := [(11, 0x10004)] } }))).getX 10 = 0x50008 := by decide
theorem test_exit_frees_the_context : (got (exec (.exit false 0 0) s0)).me.task = none ∧ (got (exec .yield s0)).pc = 0x108 := by decide
theorem test_priority_is_capped : (got (exec (.prio false 23) s0)).special 0x05 = 19 ∧ (got (exec (.prio false 7) s0)).special 0x05 = 7 := by decide

/-- A word placed where the next step fetches runs. -/
theorem test_step_runs_the_word : (got (step (State.reset.withFetchWord 64 0b10100000_0101_00000_00000_0000000000_00000000000000000000000000000000))).pc = 8 := by decide +kernel

/-! Witnesses: for each statement with hypotheses, states and operands that meet them, clause by clause. -/

theorem witness_BitAddressAndImmediateInstructionResults : (1 ≤ 1 ∧ 63 + 1 ≤ 64) ∧ (1 ≤ 64 ∧ 0 + 64 ≤ 64) ∧ 2 < (if true then 3 else 2) ∧ 1 < (if false then 3 else 2) := by decide

theorem witness_XRegisterInstructionsChangeOnlyTheirDestination : (xDest (.add .w 31 1 0) = some 31 ∧ ∃ t, exec (.add .w 31 1 0) s0 = .next t)
    ∧ (xDest (.rds 0 0x13) = some 0 ∧ ∃ t, exec (.rds 0 0x13) s0 = .next t) ∧ (xDest (.squery 1 0) = some 1 ∧ ∃ t, exec (.squery 1 0) s0 = .next t) :=
  ⟨⟨rfl, _, rfl⟩, ⟨rfl, _, rfl⟩, rfl, _, rfl⟩

theorem witness_FloatInstructionsWriteRoundedResults : Conv.dstX .i_d = true ∧ Conv.dstX .s_d = false := by decide

theorem witness_FloatFlagsAreStickyAndNothingElseChanges : (fDest (.fadd .d .fmode 4 1 2) = some 4 ∧ ∃ t, exec (.fadd .d .fmode 4 1 2) s0 = .next t)
    ∧ (fxDest (.fcmp .s .eq 4 1 2) = some 4 ∧ ∃ t, exec (.fcmp .s .eq 4 1 2) s0 = .next t)
    ∧ (fxDest (.fcvt .i_s .rne 4 1) = some 4 ∧ ∃ t, exec (.fcvt .i_s .rne 4 1) s0 = .next t)
    ∧ (fDest (.fcvt .s_i .rne 4 1) = some 4 ∧ ∃ t, exec (.fcvt .s_i .rne 4 1) s0 = .next t) :=
  ⟨⟨rfl, _, rfl⟩, ⟨rfl, _, rfl⟩, ⟨rfl, _, rfl⟩, rfl, _, rfl⟩

theorem witness_SingleResultsClearTheUpperHalf :
    (let u := on fun c => { c with regs := { c.regs with f := [(1, 0x100000000)] } }
     (∀ r, (u.getF r).setWidth 32 = (s0.getF r).setWidth 32) ∧ u.special 0x12 = s0.special 0x12 ∧ (∃ t, exec (.fmin .s 4 1 2) s0 = .next t)
      ∧ (∃ v, exec (.fmin .s 4 1 2) u = .next v) ∧ fDest (.fmin .s 4 1 2) = some 4 ∧ fDest (.fcmp .s .eq 4 1 2) = none) := by
  refine ⟨fun r => ?_, by decide, ⟨_, rfl⟩, ⟨_, rfl⟩, rfl, rfl⟩
  by_cases h : r = 1
  · subst h; decide
  · have e : (on fun c => { c with regs := { c.regs with f := [(1, 0x100000000)] } }).getF r = mget 0 [(1, 0x100000000)] r := rfl
    have e0 : s0.getF r = 0 := rfl
    rw [e, e0]
    simp [mget, mfind, Ne.symm h]

theorem witness_ControlAndPredicateInstructionsFrame : (∃ t, exec (.bc (.p 0) 1) s0 = .next t) ∧ (∃ t, exec (.jmp 1) s0 = .next t) ∧ (∃ t, exec (.ret 1) s0 = .next t)
    ∧ (∃ t, exec (.call 31 1) s0 = .next t) ∧ (∃ t, exec (.jmpx 31 1) s0 = .next t) ∧ (∃ t, exec (.loop 3 1) s0 = .next t)
    ∧ (∃ t, exec (.pset .eq 7 1 1) s0 = .next t) ∧ (∃ t, exec (.pand 7 0 1) s0 = .next t) ∧ (∃ t, exec (.por 7 0 1) s0 = .next t)
    ∧ ∃ t, exec (.pnot 7 1) s0 = .next t :=
  ⟨⟨_, rfl⟩, ⟨_, rfl⟩, ⟨_, rfl⟩, ⟨_, rfl⟩, ⟨_, rfl⟩, ⟨_, rfl⟩, ⟨_, rfl⟩, ⟨_, rfl⟩, ⟨_, rfl⟩, _, rfl⟩

theorem witness_WrsWritesOneSpecialRegisterOrTraps : (specialReadOnly 0x0C = false ∧ specialTrapOnly 0x0C = false) ∧ (specialReadOnly 0x0D = false ∧ specialTrapOnly 0x0D = false)
    ∧ (specialReadOnly 0x12 = false ∧ specialTrapOnly 0x12 = false ∧ bits (s0.nx 1) 3 2 = 0) ∧ (specialReadOnly 0x13 = false ∧ specialTrapOnly 0x13 = false)
    ∧ (specialReadOnly 0x07 = false ∧ specialTrapOnly 0x07 = true ∧ trapped.me.trap = true) ∧ specialReadOnly 0x0B = false
    ∧ s0.me.trap = false ∧ bits (s0.nx 4) 3 2 ≠ 0
    ∧ (s0.AloneWriting ∧ trapped.AloneWriting ∧ (onTile fun tl => { tl with wrOld := some ⟨0, 0, 8, 7⟩ }).AloneWriting)
    ∧ (∃ h, (trapped.modMe fun c => { c with cont := some h }).me.cont = some h ∧ h.2 = trapped.nx 2) :=
  ⟨by decide, by decide, by decide, by decide, by decide, by decide, by decide, by decide,
    ⟨fun _ h => (by cases h), fun _ h => (by cases h), fun _ h _ => (by cases h; rfl)⟩, (0, 0x2000), rfl, by decide⟩

theorem canTrap_s0 : s0.CanTrap := ⟨by decide, by decide, by decide⟩

theorem witness_TrapEntersTheHandlerOrEndsTheTask : (s0.CanTrap ∧ 63 < 64) ∧ (trapped.me.trap = true ∧ trapped.me.task = some (Task.placed 0) ∧ (trapped.launch 0).dt = false)
    ∧ ((trapped.modLaunch 0 fun l => { l with dt := true }).me.trap = true ∧ ((trapped.modLaunch 0 fun l => { l with dt := true }).launch 0).dt = true) :=
  ⟨⟨canTrap_s0, by decide⟩, by decide, by decide⟩

/-- A NOP stands at the address that TRAPPC names. -/
def trappedAtWord : State := trapped.modTile 0 fun tl => { tl with store := tl.store.write 0x200 8 (0xA05 * 2 ^ 52) }

/-- A trapped context that holds a continuation at the given address, and one whose TRAPPC is the given address. -/
def held (a : Nat) : State := trappedAtWord.modMe fun c => { c with cont := some (1, a) }
def returnsTo (a : Word) : State := trappedAtWord.modMe fun c => { c with trapPc := a }

theorem witness_TretReturnsFromTheHandler : (∀ a ∈ [0x200, 0x208], (held a).me.trap = true ∧ (held a).me.cont = some (1, a) ∧ (held a).condemned 0 0 = false
        ∧ (held a).myTile.wordFault (held a).me.trapPc.toNat = none)
    ∧ (trapped.me.task = some (Task.placed 0) ∧ (trapped.modTile 0 fun tl => { tl with cancels := [0xFFFF] }).condemned 0 0 = true
      ∧ (returnsTo 0x201).me.trapPc.toNat % 8 ≠ 0 ∧ (returnsTo 0x300000).me.trapPc.toNat % 8 = 0 ∧ (returnsTo 0x300000).condemned 0 0 = false
      ∧ (trapped.modTile 0 fun tl => { tl with store := tl.store.addPoison 0x200 8 }).myTile.store.poisoned 0x200 8 = true)
    ∧ (trappedAtWord.me.trap = true ∧ trappedAtWord.me.cont = none
      ∧ trappedAtWord.condemned trappedAtWord.cur.1 trappedAtWord.cur.2 = false ∧ trappedAtWord.myTile.wordFault trappedAtWord.me.trapPc.toNat = none)
    ∧ (s0.CanTrap ∧ s0.me.cont = none ∧ s0.condemned s0.cur.1 s0.cur.2 = false ∧ ∃ t u, exec (.trap 5 0) s0 = .next t ∧ exec .tret t = .next u) :=
  ⟨by decide, by decide, by decide, canTrap_s0, by decide, by decide, _, _, rfl, rfl⟩

/-- A load, a store or an atomic of a space: base x1 for spaces 0 to 4, x3 aligned for the others. -/
def anyMem : MemArgs := ⟨.b64, .plain, 10, 1, 0, 0, 0⟩
def anyAmo : AmoArgs := ⟨.add, true, .plain, 10, 1, 3, 0⟩

theorem witness_LoadsIssueAtTheirAddress : ∀ e ∈ loadsOf anyMem, s0.memAddr anyMem % wopBytes anyMem.w = 0 ∧ s0.rangeOk s0.cur.1 e.1 (s0.memAddr anyMem) (wopBytes anyMem.w) = true := by
  decide

theorem witness_StoresAndAtomicsIssue_stores : (∀ e ∈ storesOf anyMem, ∃ h, s0.resolve s0.cur.1 e.1 (s0.memAddr anyMem) (wopBytes anyMem.w) false true = .ok h)
    ∧ (let s := on fun c => { c with regs := { c.regs with x := [(1, 0x400000)] } }
       s.memAddr anyMem % 8 = 0 ∧ s.resolve s.cur.1 2 (s.memAddr anyMem) 8 false true = .ok (.tile 1 0)
        ∧ s.resolve s.cur.1 2 (s.amoAddr anyAmo) 8 true true = .ok (.tile 1 0) ∧ s.poisonHome (.tile 1 0) 8 = false) := by
  refine ⟨?_, ?_⟩
  · simp only [storesOf, List.forall_mem_cons]
    exact ⟨⟨_, rfl⟩, ⟨_, rfl⟩, ⟨_, rfl⟩, ⟨_, rfl⟩, ⟨_, rfl⟩, by simp⟩
  · exact ⟨by decide, rfl, rfl, by decide⟩

theorem witness_StoresAndAtomicsIssue_atomics : s0.amoAddr anyAmo % amoBytes anyAmo = 0
    ∧ (∀ e ∈ atomicsOf anyAmo, s0.rangeOk s0.cur.1 e.1 (s0.amoAddr anyAmo) (amoBytes anyAmo) = true) ∧ anyAmo.data ≠ 0
    ∧ (s0.resolve s0.cur.1 0 0x1000 8 true true = .ok (.dev 0x1000) ∧ s0.poisonHome (.dev 0x1000) 8 = false)
    ∧ (s0.resolve s0.cur.1 1 0x1000 8 true true = .ok (.tile 0 0x1000) ∧ s0.poisonHome (.tile 0 0x1000) 8 = false)
    ∧ (s0.resolve s0.cur.1 5 0x1000 8 true true = .ok (.staging 0 0x1000) ∧ s0.poisonHome (.staging 0 0x1000) 8 = false) :=
  ⟨by decide, by decide, by decide, ⟨rfl, by decide⟩, ⟨rfl, by decide⟩, rfl, by decide⟩

theorem witness_BadAccessesTrapAtIssue : s0.CanTrap ∧ s0.memAddr ⟨.b64, .plain, 10, 6, 0, 0, 0⟩ % 8 ≠ 0 ∧ s0.amoAddr ⟨.add, true, .plain, 10, 6, 3, 0⟩ % 8 ≠ 0
    ∧ s0.nx 6 % 16 ≠ 0 ∧ s0.nx 6 % 32 ≠ 0
    ∧ (let m : MemArgs := ⟨.b64, .plain, 10, 7, 0, 0, 0⟩
       s0.memAddr m % 8 = 0 ∧ s0.rangeOk 0 1 (s0.memAddr m) 8 = false ∧ s0.rangeOk 0 3 (s0.memAddr m) 8 = false)
    ∧ (let m : MemArgs := ⟨.b64, .plain, 10, 9, 0, 0, 0⟩
       s0.memAddr m % 8 = 0 ∧ s0.resolve 0 0 (s0.memAddr m) 8 false true = .error (0x06, 2) ∧ s0.resolve 0 3 (s0.memAddr m) 8 false true = .error (0x04, 0)) :=
  ⟨canTrap_s0, by decide, by decide, by decide, by decide, by decide, by decide, rfl, rfl⟩

theorem witness_IssuingAnAccessChangesNoRegisterAndNoByte : s0.CanTrap ∧ issuesAccess (.ldl anyMem) = true ∧ (∃ t, exec (.ldl anyMem) s0 = .next t ∧ t.me.trap = false)
    ∧ issuesAccess (.fence .system .ar) = true ∧ (∃ t, exec (.fence .system .ar) s0 = .next t ∧ t.me.trap = false) :=
  ⟨canTrap_s0, by decide, ⟨_, rfl, by decide⟩, by decide, _, rfl, by decide⟩

/-- The running context with one outstanding access. -/
def withAccess (a : Access) : State := on fun c => { c with outs := [a] }
/-- An access of tile memory at 0x1000. -/
def someAccess : Access :=
  { id := 4, own := 0, kind := .load, space := 1, addr := 0x1000, size := 8, wop := .b64, op := .add, data := 5, expd := 0, ord := .plain,
    dst := .x 10, pc := 0x100, tag := 0, inTrap := false, home := none, got := [], st := .issued }
/-- The running task is in trap mode, and its scope is cancelled. -/
def doomed : State := onTile fun tl => { tl with cancels := [0xFFFF], ctxs := [(0, { ctx0 with trap := true })] }
theorem spared_s0 : s0.Spared := .inl rfl
theorem doomed_doomed : doomed.me.trap = true ∧ doomed.condemned doomed.cur.1 doomed.cur.2 = true := by decide

theorem witness_LoadsReadTheirBytesAndFillTheirRegister :
    (let s := withAccess someAccess
     (s.ctx 0 0).outs.find? (fun b => b.id == 4) = some someAccess ∧ (s.ctx 0 0).mayPerform someAccess = true ∧ someAccess.addr + someAccess.size ≤ 0x300000
      ∧ s.poisonHome (.tile 0 someAccess.addr) someAccess.size = false)
    ∧ (let a := { someAccess with st := .performed 9 }
       let s := withAccess a
       (s.ctx 0 0).outs.find? (fun b => b.id == 4) = some a ∧ a.own = (s.ctx 0 0).serial ∧ (s.ctx 0 0).task.isSome = true
        ∧ (s.tile 0).tags.find? (fun x => x.2 == (0, 4)) = none)
    ∧ (∀ d, let a := { someAccess with st := .performed 9, dst := d }
       (withAccess a).ctx 0 0 |>.outs.find? (fun b => b.id == 4) |>.map (·.dst) = some d)
    ∧ (∀ g ∈ [[], [(1, 5)]], ∀ a ∈ [{ someAccess with wop := .b128, size := 16, got := g }, { someAccess with kind := .patld, size := 32, dst := .p 1, got := g }],
        let s := withAccess a
        (s.ctx 0 0).outs.find? (fun b => b.id == 4) = some a ∧ (a.kind = .load ∧ a.wop = .b128 ∨ a.kind = .patld) ∧ (s.ctx 0 0).mayPerform a = true
          ∧ a.addr + 8 * a.parts ≤ 0x300000 ∧ s.poisonHome (.tile 0 a.addr) (8 * a.parts) = false ∧ 0 < a.parts ∧ mfind 0 a.got = none) :=
  ⟨by decide, by decide, fun _ => rfl, by decide⟩

theorem witness_StoresWriteTheirBytesAndNoOther : (∀ h ∈ [Home.dev 0x1000, .tile 0 0x1000, .staging 0 0x1000, .host 0 0x1000], ∀ w ∈ [Wop.b64, .b128],
    let a := { someAccess with kind := .store, dst := .none, home := some h, wop := w }
    let s := withAccess a
    (s.ctx 0 0).outs.find? (fun b => b.id == 4) = some a ∧ (s.ctx 0 0).mayPerform a = true ∧ h.isAcc = false ∧ h.isLost = false
      ∧ s.quarterBusy 0 a = false ∧ mfind 0 a.got = none) ∧ ∀ a k, (withAccess a).mirrors k = [] := ⟨by decide, fun _ _ => rfl⟩

theorem witness_AtomicsReadAndWriteInOneStep : ∀ w ∈ [4, 8], let a := { someAccess with kind := .amo, size := w }
    let s := withAccess a
    (s.ctx 0 0).outs.find? (fun b => b.id == 4) = some a ∧ (s.ctx 0 0).mayPerform a = true ∧ a.addr + w ≤ 0x300000
      ∧ s.poisonHome (.tile 0 a.addr) w = false ∧ a.data < 2 ^ (8 * w) ∧ a.expd < 2 ^ (8 * w) := by decide

theorem witness_CounterInstructionsAndFencesIssue : s0.nx 1 % 16 = 0
    ∧ (∀ loc h, (loc, h) ∈ [(true, Home.tile 0 0x1000), (false, .dev 0x1000)] → s0.poisonRead h 16 = false ∧ s0.rangeOk 0 (ctrSpace loc) (s0.nx 1) 16 = true
        ∧ s0.me.mayRead (ctrSpace loc) (s0.nx 1) 16 = true ∧ s0.nx 0 ≤ s0.readHome h 16 % 2 ^ 64 ∧ s0.readHome h 16 % 2 ^ 64 < s0.nx 3)
    ∧ s0.resolve 0 (ctrSpace true) (s0.nx 1) 16 true true = .ok (.tile 0 0x1000) ∧ s0.resolve 0 (ctrSpace false) (s0.nx 1) 16 true true = .ok (.dev 0x1000)
    ∧ Scope.device ≠ .system ∧ s0.me.outs = []
    ∧ s0.Spared ∧ (doomed.nx 0 % 16 = 0 ∧ doomed.me.trap = true ∧ doomed.condemned doomed.cur.1 doomed.cur.2 = true) := by
  refine ⟨by decide, ?_, rfl, rfl, by decide, rfl, spared_s0, by decide⟩
  intro loc h hm
  simp only [List.mem_cons, Prod.mk.injEq, List.not_mem_nil, or_false] at hm
  rcases hm with ⟨rfl, rfl⟩ | ⟨rfl, rfl⟩ <;> decide

theorem witness_CaddAddsToValueAndKeepsTheStatus : let a := { someAccess with kind := .cadd, size := 16, home := some (.tile 0 0x1000) }
    let s := withAccess a
    (s.ctx 0 0).outs.find? (fun b => b.id == 4) = some a ∧ (s.ctx 0 0).mayPerform a = true ∧ s.poisonHome (.tile 0 a.addr) 16 = false ∧ a.dst ≠ .none := by decide

/-- Tile 0 is a member of group 5, in slot 0; phase 3 is latched. -/
def member : State := onTile fun tl => { tl with grp := 2 ^ 32 + 5, latch := [(0, 3, false)] }


theorem witness_BarrierInstructions : ((match member.barrierSlot member.cur.1 5 with | .ok k => k | .error _ => 9) = 0 ∧ member.me.mayRead 8 0 0 = true
      ∧ member.groupSpent member.cur.1 5 = false
      ∧ member.barrierDone member.cur.1 5 (member.nx 0 % 2 ^ 32) false = some (3 * 2 ^ 32 + 2) ∧ member.barrierDone member.cur.1 5 (member.nx 3 % 2 ^ 32) false = none)
    ∧ (s0.CanTrap ∧ s0.myTile.lid = some 0 ∧ mfind 4 (s0.launch 0).groups = none ∧ (mfind 5 (s0.launch 0).groups).isSome = true
      ∧ s0.myTile.slotOfGroup 5 = none)
    ∧ member.Spared
    ∧ (let s := doomed.modTile 0 fun tl => { tl with grp := 2 ^ 32 + 5, latch := [(0, 3, false)] }
       (match s.barrierSlot s.cur.1 5 with | .ok k => k | .error _ => 9) = 0 ∧ s.me.trap = true ∧ s.condemned s.cur.1 s.cur.2 = true) :=
  ⟨by decide, ⟨canTrap_s0, by decide⟩, .inl rfl, by decide⟩

theorem witness_PatternInstructionsReadAndWriteFields : s0.nx 1 % 32 = 0 ∧ (∀ sp ∈ [PatSpace.g, .l, .s], s0.rangeOk s0.cur.1 (patSpace sp) (s0.nx 1) 32 = true) ∧ PatField.d3 ≠ .copy
    ∧ PatField.d3 ≠ .add := by decide

/-- A pattern of one dimension with stride 1: base, space, format and extent. -/
def pat (base space fmt n : Nat) : BitVec 256 := BitVec.ofNat 256 (base + space * 2 ^ 64 + fmt * 2 ^ 67 + n * 2 ^ 104 + 2 ^ 80)

/-- Patterns: p0 and p1 of tile memory, p2 over the tiles of a group, p3 and p4 of device memory, in i32. -/
def withPats : State :=
  (on fun c => { c with regs := { c.regs with
      p := [(0, pat 0x1000 1 4 4), (1, pat 0x2000 1 4 4), (2, pat 0x3000 2 4 4), (3, pat 0x100 0 4 4), (4, pat 0x200 0 4 1)] } }).modPart 0 fun p => { p with gr0 := 8, gr6 := 8 }

/-- A queue command: queue 3, patterns pa and pb, quote to x10, port 2. -/
def qargs (pa pb aux : Nat) (grp : Bool) : QArgs := { queue := 3, qd := 10, pa := pa, pb := pb, xs := 0, xt := 0, ctr := 0, csp := 0, rm := 0, sat := false, grp := grp, port := 0, aux := aux }

/-- What the statement asks of a stream, and of a copy with the members of its group: no failing check, and a bound. -/
def streamOk (s : State) (k : QKind) (q : QArgs) : Bool :=
  (s.streamFault (s.streamEntry k q) q.pa q.pb).isNone && (s.streamTime (s.streamEntry k q)).isSome
def copyOk (s : State) (k : QKind) (q : QArgs) : Bool :=
  match (if k == .mcopy || (k == .rcopy && q.grp) then s.groupOf q.aux else some []) with
  | none => false
  | some g => (s.copyFault (s.copyEntry k q g) q.pa q.pb q.aux true).isNone && !s.hostRefused [(s.copyEntry k q g).patA, (s.copyEntry k q g).patB]
      && (s.copyTime (s.copyEntry k q g)).isSome

theorem passes_of_streamOk {s : State} {k : QKind} {q : QArgs} (h : streamOk s k q = true) (hq : s.me.quoteLim = 0) : ∃ n, s.StreamPasses k q n := by
  simp only [streamOk, Bool.and_eq_true, Option.isNone_iff_eq_none, Option.isSome_iff_exists] at h
  obtain ⟨h1, n, h2⟩ := h
  exact ⟨n, h1, h2, .inl hq⟩
theorem passes_of_copyOk {s : State} {k : QKind} {q : QArgs} (h : copyOk s k q = true) (hq : s.me.quoteLim = 0) :
    ∃ g n, (if k == .mcopy || (k == .rcopy && q.grp) then s.groupOf q.aux else some []) = some g ∧ s.CopyPasses k q g n := by
  unfold copyOk at h
  split at h
  · cases h
  · rename_i g hg
    simp only [Bool.and_eq_true, Option.isNone_iff_eq_none, Option.isSome_iff_exists, Bool.not_eq_true'] at h
    obtain ⟨⟨h1, h2⟩, n, h3⟩ := h
    exact ⟨g, n, hg, h1, h2, h3, .inl hq⟩

theorem witness_TransferCommandsEnterTheirQueueOrAreRefused_accepted : withPats.me.quoteLim = 0 ∧ streamOk withPats .sIn (qargs 0 0 0 false) = true ∧ streamOk withPats .sOut (qargs 1 0 0 false) = true
    ∧ streamOk withPats .sRec (qargs 0 0 1 false) = true ∧ streamOk withPats .sConst (qargs 0 0 0 false) = true ∧ streamOk withPats .sDrop (qargs 0 0 0 false) = true
    ∧ streamOk withPats .sInd (qargs 3 4 0 false) = true ∧ copyOk withPats .copy (qargs 0 1 0 false) = true ∧ copyOk withPats .mcopy (qargs 0 2 5 false) = true
    ∧ copyOk withPats .rcopy (qargs 0 1 0 false) = true ∧ copyOk withPats .rcopy (qargs 0 2 5 true) = true := by decide +kernel

theorem witness_TransferCommandsEnterTheirQueueOrAreRefused_refused :
    (let s := withPats.modMe fun c => { c with quoteLim := 1 }
     let e := s.streamEntry .sIn (qargs 0 0 0 false)
     s.streamFault e 0 0 = none ∧ (s.streamTime e).map (fun n => decide (s.me.quoteLim ≠ 0 ∧ s.me.quoteLim.toNat < s.quoteOf 3 e n)) = some true)
    ∧ (let s := withPats.modMe fun c => { c with quoteLim := 2 ^ 40 }
       let e := s.streamEntry .sIn (qargs 0 0 0 false)
       (s.streamTime e).map (fun n => decide (s.quoteOf 3 e n ≤ s.me.quoteLim.toNat)) = some true)
    ∧ (let s := withPats.modPart 0 fun p => { p with gr0 := 0 }
       let e := s.copyEntry .copy (qargs 3 1 0 false) []
       s.copyFault e 3 1 0 true = none ∧ s.copyTime e = none) := by decide +kernel

/-- Two copies wait in queue 3. -/
def queued : State := got (exec (.copy (qargs 0 1 0 false)) (got (exec (.copy (qargs 1 0 0 false)) withPats)))

theorem witness_GatesQueueWaitsAndStatus : (let s := on fun c => { c with quoteLim := 1 }
      ∀ k ∈ [QKind.sbarRd, .sbarWr, .sbarAll, .stitch, .scond], ¬ (s.me.quoteLim = 0 ∨ s.quoteOf 3 (QEntry.blank k) 4 ≤ s.me.quoteLim.toNat))
    ∧ s0.me.quoteLim = 0 ∧ s0.ctrFault (some (1, s0.nx 1)) true = none ∧ s0.ctrFault (some (0, s0.nx 2)) true = none
    ∧ s0.myTile.inQueues 0xFFFF = [] ∧ queued.myTile.inQueues 8 ≠ [] ∧ queued.me.trap = false
    ∧ (doomed.me.trap = true ∧ doomed.condemned doomed.cur.1 doomed.cur.2 = true) := by decide +kernel

/-- A task record at 0x1000 of device memory: priority 5, entry 0x40, the first tile of the launch, the scope of the running task. -/
def record : Nat := 0x9000000000000004000000000000000000fff28000000000000000000000000000000000000000000
def withRecord (r : Nat) : State := { s0 with dev := s0.dev.write 0x1000 64 r }

/-- The same record for the tile with virtual number v. -/
def recordAt (v : Nat) : Nat := record - 0xFFF * 2 ^ 176 + v * 2 ^ 176
/-- What the reading of the first record gives holds of the state behind it and of the published task. -/
def readsOne (s : State) (f : State → Task → Bool) : Bool :=
  match s.readRecords (s.nx 1) 0 1 with | (v, .ok [x]) => f v x.1 | _ => false
/-- Tile 0 holds the given tasks at priority 0. -/
def withTasks (l : List Task) : State := ((withRecord (recordAt 0)).modLaunch 0 fun l => { l with nvt := 2 }).modTile 0 fun tl => { tl with ready := [(0, l)] }

theorem witness_SpawnPublishesItsTasks :
    readsOne (withRecord record) (fun v k => decide (v.me.quoteLim = 0) && !v.myTile.covers k.scope && (v.publishAll [k]).isSome) = true
    ∧ (let s := (withRecord record).modMe fun c => { c with quoteLim := 1 }
       (match s.readRecords (s.nx 1) 0 1 with | (v, .ok l) => decide (v.me.quoteLim ≠ 0 ∧ v.me.quoteLim.toNat < v.spawnQuote l) | _ => false) = true)
    ∧ (readsOne (withTasks []) (fun v k => !v.myTile.covers k.scope && v.placeTask k == 0 && v.myTile.dep.isEmpty && v.pubs.isEmpty) = true
      ∧ 16448 ≤ (withTasks (List.replicate 16448 (Task.placed 0))).published 0) :=
  ⟨by decide +kernel, by decide +kernel, by decide +kernel, by
    have h : ∀ l, (withTasks l).published 0 = (l.length + 0) + 0 + 0 := fun _ => rfl
    have e := h (List.replicate 16448 (Task.placed 0))
    rw [List.length_replicate] at e
    omega⟩

/-- A resolution succeeds at a home, or fails with a cause. -/
def resolves (r : Except (Nat × Nat) Home) (h : Home) : Bool := match r with | .ok g => g == h | .error _ => false
def fails (r : Except (Nat × Nat) Home) (e : Nat × Nat) : Bool := match r with | .ok _ => false | .error f => f == e

/-- A state that can trap and that reads its record number k of device memory well up to the poison. -/
def recordReads (s : State) (k : Nat) : Bool :=
  !s.me.trap && s.trapBaseOf 0 0 == 0x800 && resolves (s.resolve 0 0 (0x1000 + 64 * k) 64 true false) (.dev (0x1000 + 64 * k))
    && !s.poisonRead (.dev (0x1000 + 64 * k)) 64

theorem witness_SpawnRecordFaultsTrapWithTheirRecordNumber : s0.CanTrap ∧ s0.readRecords (s0.nx 6) 0 0 = (s0, .ok []) ∧ s0.nx 6 % 64 ≠ 0 ∧ s0.nx 7 % 64 = 0 ∧ s0.nx 1 % 64 = 0
    ∧ (recordReads (withRecord 1) 0 = true ∧ bits 1 170 0 ≠ 0)
    ∧ (let s := { withRecord record with dev := (withRecord record).dev.write 0x1040 64 (record + 0x300000 * 2 ^ 384) }
       readsOne s (fun v _ => recordReads v 1 && v.readHome (.dev 0x1040) 64 == record + 0x300000 * 2 ^ 384
        && fails (v.resolve 0 0 0x300000 16 true false) (0x06, 0)) = true)
    ∧ (let s := { withRecord record with dev := (withRecord record).dev.write 0x1040 64 (recordAt 2 + 0x2000 * 2 ^ 384) }
       readsOne s (fun v _ => recordReads v 1 && v.readHome (.dev 0x1040) 64 == recordAt 2 + 0x2000 * 2 ^ 384
        && resolves (v.resolve 0 0 0x2000 16 true false) (.dev 0x2000) && decide (v.myLaunch.nvt ≤ 2)) = true)
    ∧ (∀ r ∈ [record + 0x300000 * 2 ^ 384, recordAt 2 + 0x2000 * 2 ^ 384],
        ¬ (bits r 170 0 ≠ 0 ∨ 24 ≤ bits r 175 171 ∨ bits r 258 256 ≠ 0 ∨ scValid (bits r 255 224) = false
          ∨ contains s0.me.scope (bits r 255 224) = false ∨ bits r 387 384 ≠ 0) ∧ bits r 191 188 = 0)
    ∧ fails (s0.resolve s0.cur.1 0 (s0.nx 7) 64 true false) (0x06, 0) = true
    ∧ (let s := { s0 with dev := s0.dev.addPoison 0x1000 64 }
       resolves (s.resolve s.cur.1 0 (s.nx 1) 64 true false) (.dev 0x1000) = true ∧ s.poisonRead (.dev 0x1000) 64 = true) :=
  ⟨canTrap_s0, rfl, by decide +kernel⟩

/-- A launch descriptor at 0x1000 for one tile with root [16, 16], in a partition whose live launch has root [0, 15]. -/
def withDesc : State :=
  { (onPart fun p => { p with gr0 := 8, gr6 := 8 }).modLaunch 0 fun l => { l with root := 0xF } with dev := s0.dev.write 0x1000 64 (0x100010 * 2 ^ 224 + 2 ^ 212) }

/-- The running task has the given scope. -/
def inScope (sc : Nat) : State := on fun c => { c with task := some { Task.placed 0 with scope := sc } }

theorem witness_LaunchAndCancelAreAccepted :
    (withDesc.nx 1 % 64 = 0 ∧ resolves (withDesc.resolve withDesc.cur.1 0 (withDesc.nx 1) 64 true false) (.dev 0x1000) = true
      ∧ withDesc.poisonRead (.dev 0x1000) 64 = false ∧ withDesc.descFault withDesc.myPart (ioDie withDesc.myPart) (descOf (withDesc.readHome (.dev 0x1000) 64)) = none
      ∧ (withDesc.enrol withDesc.myPart (ioDie withDesc.myPart) withDesc.me.quoteLim.toNat (descOf (withDesc.readHome (.dev 0x1000) 64)) (withDesc.nx 1)
          (some withDesc.myLid) none).isSome = true)
    ∧ (scValid (s0.nx 3) = true ∧ s0.mayCancel (s0.nx 3) = true ∧ s0.nx 1 % 32 = 0
      ∧ resolves (s0.resolve s0.cur.1 0 (s0.nx 1) 32 false true) (.dev 0x1000) = true ∧ s0.me.quoteLim = 0 ∧ s0.cancelFull s0.myPart (s0.nx 3) = false)
    ∧ (withDesc.poisonRead (.dev 0x1000) 64 = false ∧ (withDesc.modPart 0 fun q => { q with gr0 := 0 }).launchQuote 0 (ioDie 0) (descOf 0) = none
      ∧ (let s := on fun c => { c with quoteLim := 1 }
         s.me.quoteLim ≠ 0 ∧ s.me.quoteLim.toNat < s.cancelQuote s.myPart (s.nx 3) ∧ s.mayCancel (s.nx 3) = true))
    ∧ (s0.CanTrap ∧ scValid (s0.nx 7) = false) ∧ ((inScope 0xF).CanTrap ∧ scValid ((inScope 0xF).nx 2) = true ∧ (inScope 0xF).mayCancel ((inScope 0xF).nx 2) = false) :=
  ⟨by decide +kernel, by decide, by decide +kernel, ⟨canTrap_s0, by decide⟩, ⟨by decide, by decide, by decide⟩, by decide⟩

theorem witness_ExitAndYieldGiveUpTheContext :
    (s0.nx 1 % 16 = 0 ∧ resolves (s0.resolve s0.cur.1 1 (s0.nx 1) 16 true true) (.tile 0 0x1000) = true ∧ s0.poisonRead (.tile 0 0x1000) 16 = false
      ∧ resolves (s0.resolve s0.cur.1 0 (s0.nx 1) 16 true true) (.dev 0x1000) = true ∧ s0.poisonRead (.dev 0x1000) 16 = false)
    ∧ (s0.me.trap = false ∧ s0.myTile.readyAt s0.me.prio = false)
    ∧ (let s := onTile fun tl => { tl with ready := [(0, [Task.placed 0])] }
       s.me.trap = false ∧ s.myTile.readyAt s.me.prio = true ∧ s.me.task = some (Task.placed 0) ∧ s.me.cont = none) := by decide

/-- x11 to x14: the scopes [1, 0xFFFF] and [0, 3], and the split operands (1, 2) and (0, 1). -/
def withScopes : State := on fun c => { c with regs := { c.regs with x := [(11, 0x1FFFF), (12, 0x3), (13, 0x10002), (14, 1)] } }

theorem witness_ScopeInstructionsCheckContainment : (scValid withScopes.me.scope = true ∧ contains withScopes.me.scope withScopes.me.scope = true
      ∧ (scValid (withScopes.nx 11) = true ∧ scLo withScopes.me.scope < scLo (withScopes.nx 11) ∧ scHi (withScopes.nx 11) ≤ scHi withScopes.me.scope)
      ∧ ¬ scLo withScopes.me.scope < scLo (withScopes.nx 12)
      ∧ bits (withScopes.nx 13) 15 0 ≠ 0 ∧ bits (withScopes.nx 14) 15 0 ≠ 0
      ∧ (scValid (3 * 2 ^ 16 + 4) = true ∧ scLo withScopes.me.scope + 1 + bits (withScopes.nx 13) 31 16 * bits (withScopes.nx 13) 15 0 = 3))
    ∧ (s0.CanTrap ∧ scValid (s0.nx 9) = false) ∧ ((inScope 0xF).CanTrap ∧ scValid ((inScope 0xF).nx 2) = true ∧ contains (inScope 0xF).me.scope ((inScope 0xF).nx 2) = false) :=
  ⟨by decide, ⟨canTrap_s0, by decide⟩, ⟨by decide, by decide, by decide⟩, by decide⟩

/-- A cancel of the whole range is registered at tile 0. -/
def covered : State := onTile fun tl => { tl with cancels := [0xFFFF] }

theorem witness_ScopeInstructionsCheckContainment_kill : s0.condemned s0.cur.1 s0.cur.2 = false ∧ covered.condemned covered.cur.1 covered.cur.2 = true
    ∧ covered.me.task = some (Task.placed 0) := by decide

theorem witness_SystemInstructionEffects : s0.myLaunch.hlt = false ∧ ((s0.modLaunch 0 fun l => { l with hlt := true }).myLaunch).hlt = true := by decide

/-- A weave of class 0: 4 by 4 digits, floats, one loop level per reduction. -/
def weave0 : Weave := ⟨4, 4, 2, 2, 0, 1, 0, 0, 0, false, false, false, 1, 0, 0, 0, 0⟩
/-- A block on quarter 0 under folio 3 with loops of 4 beats: A from p0 on port 0, the stationary operand from p1 on port 1, the result through p2. -/
def block0 : BlockArgs := ⟨1, 3, false, false, false, 0, weave0, [4], [⟨false, 0, 0, 2, 0⟩, ⟨false, 1, 1, 3, 0⟩, ⟨true, 0, 2, 4, 0⟩]⟩
/-- Its folio: roles 1 and 2 on ingress ports 0 and 1, role 1 on egress port 0. -/
def withBlock : State :=
  (on fun c => { c with regs := { c.regs with p := [(0, pat 0x1000 1 0x11 96), (1, pat 0x2000 1 0x11 3072), (2, pat 0x3000 1 0x0D 128)] } }).modLaunch 0 fun l =>
    { l with folios := [(3, { folio0 with weave := joinWeave weave0, irole := 0x21, erole := 1 })] }
def imgs0 : List Nat := block0.binds.map fun x => (withBlock.getP x.pat).toNat
def ctrs0 : List Nat := block0.binds.map fun x => withBlock.nx x.ctr
def folioOfBlock : Folio := mget folio0 withBlock.myLaunch.folios 3

/-- One block of each class that passes: class, weave, roles of ingress ports 0 and 1, loops, and its streams (egress, port, format, elements). -/
def blockCases : List (Nat × Weave × Nat × List Nat × List (Bool × Nat × Nat × Nat)) :=
  [(0, weave0, 0x21, [4], [(false, 0, 0x11, 96), (false, 1, 0x11, 3072), (true, 0, 0x0D, 128)]),
   (1, { weave0 with flow := 1, red := 2 }, 0x21, [2, 2], [(false, 0, 0x11, 96), (false, 1, 0x11, 6144), (true, 0, 0x0D, 256)]),
   (2, ⟨4, 4, 2, 2, 2, 1, 0, 0, 0, true, true, false, 0, 1, 0, 0, 0⟩, 0x31, [2], [(false, 0, 0x0D, 16), (false, 1, 0x0D, 16), (true, 0, 0x0D, 16)]),
   (3, { weave0 with flow := 3, lanes := 1 }, 0x31, [4], [(false, 0, 0x11, 96), (false, 1, 0x11, 96), (true, 0, 0x0D, 1)]),
   (4, { weave0 with flow := 4, lanes := 1, red := 0 }, 0x21, [4], [(false, 0, 0x11, 4), (false, 1, 0x11, 1), (true, 0, 0x0D, 4)]),
   (5, { weave0 with flow := 5, lanes := 1, spr := 3 }, 0x21, [4], [(false, 0, 0x11, 384), (false, 1, 0x11, 96), (true, 0, 0x0D, 1)]),
   (6, ⟨1, 1, 0, 0, 6, 0, 2, 0, 0, false, false, false, 0, 0, 0, 0, 0⟩, 0x7, [4], [(false, 0, 4, 4), (true, 0, 0x0D, 1)])]
def caseArgs (x : Nat × Weave × Nat × List Nat × List (Bool × Nat × Nat × Nat)) : BlockArgs :=
  ⟨1, 3, false, false, false, 0, x.2.1, x.2.2.2.1, x.2.2.2.2.zipIdx.map fun e => ⟨e.1.1, e.1.2.1, e.2, 2 + e.2, 0⟩⟩
def caseState (x : Nat × Weave × Nat × List Nat × List (Bool × Nat × Nat × Nat)) : State :=
  (on fun c => { c with regs := { c.regs with p := x.2.2.2.2.zipIdx.map fun e => (e.2, pat (0x10000 * (e.2 + 1)) 1 e.1.2.2.1 e.1.2.2.2) } }).modLaunch 0 fun l =>
    { l with folios := [(3, { folio0 with
        weave := joinWeave x.2.1, irole := x.2.2.1, erole := 1, epart := if x.1 = 6 then some ⟨[], [], [], [], 0, [], [], false⟩ else none })] }
/-- What the statement asks of a block, but for a continuation and a kill. -/
def blockOk (s : State) (cls : Nat) (b : BlockArgs) : Bool :=
  match mfind b.folio s.myLaunch.folios with
  | none => false
  | some f => (s.blockFails cls b (s.blockImgs cls b) f).isNone && (s.raceFails cls (s.blockImgs cls b) ((s.blockImgs cls b).length - 16) f).isNone
    && (s.bindCmds s.cur.1 b (s.blockImgs cls b) (s.blockCtrs b) f).all (fun c => (s.streamFault c.entry c.reg 0).isNone)
    && !s.bindsRefused (s.bindCmds s.cur.1 b (s.blockImgs cls b) (s.blockCtrs b) f)
theorem passes_of_blockOk {s : State} {cls : Nat} {b : BlockArgs} (h : blockOk s cls b = true) (hc : s.me.cont = none) (ht : s.me.trap = false) :
    s.BlockPasses cls b := by
  unfold blockOk at h
  split at h
  · cases h
  · rename_i f hf
    simp only [Bool.and_eq_true, Option.isNone_iff_eq_none, Bool.not_eq_true', List.all_eq_true] at h
    exact ⟨.inr fun _ e => (by rw [hc] at e; cases e), .inl ht, f, hf, h.1.1.1, h.1.1.2, h.1.2, h.2⟩

theorem witness_BlockInstructionsWaitAsThreadTokens :
    (∀ x ∈ blockCases, blockOk (caseState x) x.1 (caseArgs x) = true ∧ (caseState x).me.cont = none ∧ (caseState x).me.trap = false
      ∧ ((blocksOf (caseArgs x)).find? fun e => e.1 == x.1).any (fun e => e.2.wf) = true)
    ∧ (mfind 4 s0.myLaunch.folios = none ∧ s0.me.cont = none)
    ∧ (mfind 3 s0.myLaunch.folios = some folio0 ∧ s0.blockFails 0 block0 [] folio0 = some 1)
    ∧ (let s := withBlock.modMe fun c => { c with cont := some (1, 0x100) }
       s.me.trap = false ∧ s.me.cont = some (1, s.pc.toNat))
    ∧ (let s := withBlock.modMe fun c => { c with quoteLim := 1 }
       s.bindsRefused (s.bindCmds s.cur.1 block0 imgs0 ctrs0 folioOfBlock) = true)
    ∧ (let s := (withBlock.modMe fun c => { c with trap := true }).modTile 0 fun tl => { tl with cancels := [0xFFFF] }
       s.me.trap = true ∧ s.condemned s.cur.1 s.cur.2 = true ∧ blockOk s 0 block0 = true) := by decide +kernel
theorem witness_BlockInstructionsWaitAsThreadTokens_starts : s0.CanTrap ∧ s0.StartsNew ∧ (on fun c => { c with cont := some (1, 0x200) }).StartsNew :=
  ⟨canTrap_s0, .inr fun _ h => (by cases h), .inr fun _ h => (by cases h; decide)⟩

theorem witness_RegionConfigurationInstructions : mfind 3 s0.myLaunch.folios = some folio0 ∧ s0.CanTrap ∧ mfind 4 s0.myLaunch.folios = none ∧ s0.myTile.shadowOf 15 = none
    ∧ (let s := onTile fun tl => { tl with shadow := [(15, 3)] }
       s.myTile.shadowOf 15 = some 3 ∧ (s.myTile.sweeps.any fun w => w.qmask == 15 && w.at_ == (s.die (dieOf s.cur.1)).cycle) = false)
    ∧ s0.myTile.drained 15 = true ∧ (onTile fun tl => { tl with loads := [⟨1, 8, 3, none, 0, 1⟩] }).myTile.drained 15 = false
    ∧ s0.Spared ∧ (doomed.me.trap = true ∧ doomed.condemned doomed.cur.1 doomed.cur.2 = true) :=
  ⟨by decide, canTrap_s0, by decide, by decide, by decide, by decide, by decide, spared_s0, doomed_doomed⟩

/-- An egress stream of 512 i32 elements to tile memory holds port 2. -/
def withPort : State := onTile fun tl => { tl with
  queues := [(3, { Queue.reset with entries := [{ QEntry.blank .sOut with id := 7, port := 2, st := .started, pa := (pat 0x1000 1 4 512).toNat }] })]
  eps := [(2, ⟨some (3, 7), [], 0⟩)] }

/-- Its pattern has LAYOUT 3, 32 groups of two values, and three nodes of quarter 3 do not hold zero. -/
def withGroups : State := (onTile fun tl => { tl with
  acc := [(24576, 1), (24592, 1), (24608, 1)]
  queues := [(3, { Queue.reset with entries := [{ QEntry.blank .sOut with
    id := 7, port := 2, st := .started, pa := (pat 0x1000 1 4 32).toNat + 3 * 2 ^ 74 + 2 ^ 80 }] })]
  eps := [(2, ⟨some (3, 7), [], 0⟩)] })

theorem witness_SpineAndAccumulatorInstructions : withPort.accrdFault 8 2 = none ∧ withPort.accrdFault 15 2 = some 3 ∧ s0.accrdFault 8 2 = some 2 ∧ s0.CanTrap
    ∧ (egressWhole (withPort.accrdPat 2) (Rm.ofCode 0) false (withPort.accrdVals 8)).isSome = true
    ∧ (withGroups.CanTrap ∧ withGroups.accrdFault 8 2 = none ∧ egressWhole (withGroups.accrdPat 2) (Rm.ofCode 0) false (withGroups.accrdVals 8) = none) :=
  ⟨by decide +kernel, by decide +kernel, by decide, canTrap_s0, by decide +kernel, ⟨by decide, by decide, by decide⟩, by decide +kernel, by decide +kernel⟩

theorem witness_SpecWordsDecode : majorOf 0 = 0 ∧ majorOf (2 ^ 64 - 1) = 0xFF ∧ majorOf (0x13 * 2 ^ 56) = 0x13 := by decide

theorem witness_DecodeOfEncodeIsTheInstruction : Instr.isSequencer (.add .x 31 31 31) = true ∧ Instr.wf (.add .x 31 31 31) = true
    ∧ Instr.isSequencer (.addi .x 31 31 (2 ^ 32 - 1)) = true ∧ Instr.wf (.addi .x 31 31 (2 ^ 32 - 1)) = true
    ∧ Instr.isSequencer (.blockMWs block0) = true ∧ Instr.wf (.blockMWs block0) = true := by decide

theorem witness_DecodedWordsAreTheEncoding : (∀ v ∈ [0xA050000000000000], v < 2 ^ 64) ∧ ([] : List Nat).length = extCount 0xA050000000000000
    ∧ decode [0xA050000000000000] = .ok .nop := ⟨by decide, by decide, rfl⟩

/-- A NOP at the pc of tile 0's context, which is next to issue. -/
def nopNext : State := s0.withFetchWord 64 0xA050000000000000
/-- The same with another word, pc, or store. -/
def wordNext (w : Nat) : State := s0.withFetchWord 64 w
def pcNext (pc : Nat) : State := nopNext.modCtx 0 0 fun c => { c with regs := { c.regs with pc := BitVec.ofNat 64 pc } }

/-- The hypotheses of a fetch, as one test on the agenda's first slot. -/
def fetchable (s : State) : Bool :=
  let x := s.ctx 0 0
  let tl := s.tile 0
  let pc := x.regs.pc.toNat
  s.powered && s.agenda == [.issue 0 0] && x.task.isSome && !x.halted && x.wait.isNone && x.arriving.isNone && !s.condemned 0 0 && x.deferred.isEmpty && !x.fetchHeld
    && pc % 8 == 0 && decide (pc + 8 ≤ 0x300000) && !tl.store.poisoned pc 8 && !s.wordHeld 0 0 pc
    && extCount (tl.store.read pc 8) == 0

theorem witness_StepRunsTheDecodedInstruction : fetchable nopNext = true ∧ decode [(nopNext.tile 0).store.read 0x100 8] = .ok .nop ∧ { nopNext with agenda := [] }.stalled .nop = false :=
  ⟨by decide +kernel, rfl, by decide +kernel⟩

theorem witness_FetchAndEncodingTraps : { nopNext with agenda := [] }.CanTrap
    ∧ ((pcNext 0x101).pc.toNat % 8 ≠ 0 ∧ (pcNext 0x101).powered = true ∧ (pcNext 0x101).agenda = [.issue 0 0])
    ∧ ((pcNext 0x300000).pc.toNat % 8 = 0 ∧ 0x300000 ≤ (pcNext 0x300000).pc.toNat)
    ∧ ((nopNext.modTile 0 fun tl => { tl with store := tl.store.addPoison 0x100 8 }).tile 0).store.poisoned 0x100 8 = true
    ∧ fetchable (wordNext 0) = true
    ∧ ((nopNext.modCtx 0 0 fun c => { c with outs := [someAccess, { someAccess with kind := .fence .tile .acq }] }).ctx 0 0).fetchHeld = true
    ∧ (nopNext.modCtx 0 0 fun c => { c with outs := [{ someAccess with kind := .store, addr := 0x100 }] }).wordHeld 0 0 0x100 = true
    ∧ (∀ pc ∈ [0x101, 0x300000], ((pcNext pc).ctx 0 0).fetchHeld = false ∧ (pcNext pc).condemned 0 0 = false ∧ ((pcNext pc).ctx 0 0).deferred = [])
    ∧ decode [0] = .error ⟨.unassignedMajor, 0⟩ :=
  ⟨⟨by decide +kernel, by decide +kernel, by decide +kernel⟩, by decide +kernel, by decide +kernel, by decide +kernel, by decide +kernel,
    by decide +kernel, by decide +kernel, by decide +kernel, rfl⟩

theorem witness_EveryStepKeepsTheMemoriesCanonical : Memory.wf s0 = true ∧ ∃ t, s0.Goes t := ⟨by decide, _, rfl⟩

theorem witness_InstructionsWriteNoMemoryAndNoOtherTile : ∃ t, exec (.stl anyMem) s0 = .next t := ⟨_, rfl⟩

/-! Witnesses for the hardware's steps. -/

/-- A copy of four i32 elements inside tile memory, from 0x1000 to 0x2000. -/
def entry0 : QEntry := { QEntry.blank .copy with id := 7, pa := (pat 0x1000 1 4 4).toNat, pb := (pat 0x2000 1 4 4).toNat, amount := 16 }
/-- Tile 0 with the given entries in queue 3. -/
def inQueue (l : List QEntry) : State := onTile fun tl => { tl with queues := [(3, { Queue.reset with entries := l })], nextId := 9 }
def head (s : State) : Option QEntry := ((s.tile 0).queue 3).entries.head?
/-- A flit of partition 0 from tile 1 to tile 0, with the check value of its payload. -/
def flit0 (kind payload : Nat) : Flit := ⟨0, 0, 0, kind, 0, 0, 0, false, payload, crc16 payload, false, 0, 1, 0⟩

/-- R95, computed by hand from its polynomial: the check value of zeros, and of the bytes 31 to 39. -/
theorem test_check_value : crc16 0 = 0x6A0A ∧ crc16 0x313233343536373839 = 0x5BC9 := by decide +kernel
/-- R93, field by field: DTILE, DDIE, CLASS, KIND, AGE, SEQ, PART and the zero bit. -/
theorem test_flit_header : { flit0 2 0 with dtile := 127, ddie := 1, cls := 5, age := 3, seq := 9, part := 2 }.header
    = 0b1111111_00001_000101_010_00000011_000000001001_000010_0 := by decide
/-- R53: a compressed group of two values, 1 at coordinate 3 and 2 at coordinate 5, leaves into a plain pattern as sixteen elements. -/
theorem test_group_expands_on_egress : ((patOf (pat 0x1000 1 0x0D 16).toNat).egress .rne false
      ⟨0x3F800000 + 0x40000000 * 2 ^ 32 + 3 * 2 ^ 64 + 5 * 2 ^ 68, 0x0D, 2, false, 0⟩).map (·.bits)
    = [0, 0, 0, 0x3F800000, 0, 0x40000000, 0, 0, 0, 0, 0, 0, 0, 0, 0, 0] := by decide +kernel

/-- A run of quarter 0 whose instance has started. -/
def busy : Run := ⟨1, 3, 2, true, [⟨0, 0, 2, block0, [], [], [], 0, true, none, none, [], [], [], [], [], 1, 0, [], [], 0, false, 0, 0, none, false, false, [], [], [], none⟩]⟩

theorem witness_CopiesStartAndMove :
    (let s := inQueue [entry0]
     let tl := s.tile 0
     tl.gate = .open_ ∧ head s = some entry0 ∧ entry0.kind.isCopy = true ∧ entry0.st = .queued ∧ s.entryReady 0 entry0 = true ∧ entry0.skipped = false
      ∧ tl.busyEngines.length < 2 ∧ tl.score.length + entry0.ranges.length ≤ 32 ∧ tl.copyHeld entry0 = false)
    ∧ head (inQueue [{ entry0 with skipped := true }]) = some { entry0 with skipped := true }
    ∧ { entry0 with kind := .rcopy, st := .started }.toProbe = true ∧ { entry0 with st := .started }.toProbe = false
    ∧ (s0.tile 0).copyHeld { entry0 with st := .started } = false ∧ (s0.tile 0).copyHeld { entry0 with kind := .rcopy, st := .started } = false
    ∧ (let e := { entry0 with st := QSt.started, pa := (pat 0 3 4 4).toNat }
       ({ s0.tile 0 with runs := [busy] } : Tile).copyHeld e = true) ∧ (∀ x ∈ s0.parts, x.2.job = none)
    ∧ (entry0.patA.fmt = entry0.patB.fmt ∧ copyDiv entry0.patA entry0.patB = 1 ∧ entry0.patA.space ≠ 4 ∧ entry0.old = [] ∧ entry0.grouped = false)
    ∧ (match s0.readElem (entry0.via 0) 0 entry0.patA 3 with
       | .ok v => (match s0.writeElem (entry0.via 0) 0 entry0.patB 3 v.1 v.2.1 with | .ok _ => true | .error _ => false)
       | .error _ => false) = true
    ∧ (match s0.writeElem (entry0.via 0) 0 (patOf (pat 0x1000 4 4 4).toNat) 3 5 false with | .ok _ => true | .error _ => false) = true := by decide +kernel

/-- Tile 0 with the given entries, a page of die 1 at 0x20000, and the link between the dies down. -/
def farAway (l : List QEntry) : State :=
  { (inQueue l).modPart 0 fun p => { p with gr0 := 8, leaves := p.leaves ++ [⟨0x20000, 0, 0x1000000000, true, true⟩] } with links := [(0, ⟨true, 0, 0, []⟩)] }
/-- A run whose started instance takes the elements of entry 7 of queue 3. -/
def feeding : Run := { busy with insts := busy.insts.map fun i => { i with streams := [(0, (3, 7))] } }

theorem witness_TransfersRetireWithTheirContribution :
    (∀ x ∈ [entry0, { entry0 with flt := true, fcode := 4 }, { entry0 with ctr := some (1, 0x3000) }], let e := { x with st := QSt.finished }
     let s := inQueue [e]
     ((s.tile 0).queue 3).entries.find? (fun e => !e.kind.isGate) = some e ∧ e.st = .finished ∧ e.owesEnd = false ∧ s.farRecord 0 e = none)
    ∧ (∀ sent ∈ [false, true], let e := { entry0 with st := QSt.finished, ctr := some (2, 0x403000), ctrSent := sent }
       let s := inQueue [e]
       ((s.tile 0).queue 3).entries.find? (fun e => !e.kind.isGate) = some e ∧ e.owesEnd = false ∧ s.farRecord 0 e = some (1, 0x3000)
        ∧ (s.tile 0).room 1 = true ∧ (s.onWay (dieOf 0) fun g => g.stile == 0 && g.isClass 2 && g.payload == e.farPayload 0x3000) = false)
    ∧ (0x3000 + 16 ≤ 0x300000 ∧ s0.myTile.store.poisoned 0x3000 16 = false)
    ∧ (let f := flit0 3 (2 * 2 ^ 124 + 0x3000 * 2 ^ 102 + 5)
       (((onTile fun tl => { tl with intake := [f] }).tile 0).takeIntake (fun f => f.isClass 2)).map (·.1) = some f)
    ∧ (∀ x ∈ [{ entry0 with pa := (pat 0x20000 0 4 4).toNat }, { entry0 with pb := (pat 0x20000 0 4 4).toNat },
          { QEntry.blank .sIn with id := 7, pa := (pat 0x20000 0 4 4).toNat }],
       let e := { x with st := .started }
       let s := farAway [e]
       ((s.tile 0).queue 3).entries.find? (fun e => e.id == 7) = some e ∧ (s.tile 0).remaining e = 0 ∧ e.kind.isGate = false
        ∧ (let h := s.nextHomes 0 e; s.linkTrouble (dieOf 0) ((h.1 ++ h.2).map fun x => s.dieAt x.1) = true)
        ∧ (s.tile 0).feeds e = false ∧ { s.tile 0 with runs := [feeding] }.feeds e = true) := by decide +kernel

/-- A stream of four i32 elements on port 2, and gates. -/
def stream0 (k : QKind) : QEntry := { QEntry.blank k with id := 7, pa := (pat 0x1000 1 4 4).toNat, port := 2 }

theorem witness_StreamsMoveAndGatesPass :
    (∀ k ∈ [QKind.sIn, .sOut, .sDrop, .sConst, .sRec], let e := stream0 k
     let s := inQueue [e]
     ((s.tile 0).queue 3).nextStream = some e ∧ s.entryReady 0 e = true ∧ e.skipped = false
      ∧ (e.portKeys.any fun k => (s.tile 0).portBusy k || s.updateComing 0 k) = false
      ∧ s.portWanted 0 3 e = false ∧ e.viaTracker = false ∧ e.total ≠ 0)
    ∧ (∀ k ∈ [QKind.sDrop, .sRec], let e := { stream0 k with st := QSt.started }
       ((inQueue [e]).tile 0).queue 3 |>.entries.find? (fun x => x.id == e.id) |>.map (fun x => (x.kind, x.st)) = some (k, .started))
    ∧ (∀ k ∈ [QKind.sbarRd, .sbarWr, .sbarAll, .stitch, .scond], let e := { QEntry.blank k with id := 7, ctr := some (1, 0x3000) }
       let s := inQueue [e]
       (((s.tile 0).queue 3).entries.filter fun e => e.kind.isGate).head? = some e ∧ (∀ x ∈ ((s.tile 0).queue 3).entries, x.kind.isGate = true → x.st ≠ .finished)
        ∧ s.entryReady 0 e = true ∧ e.skipped = false
        ∧ ((s.tile 0).queue 3).before e = [] ∧ (s.tile 0).configDone e.waits = true ∧ (s.tile 0).left e.waits = true)
    ∧ resolves (s0.resolve 0 1 0x3000 16 true false) (.tile 0 0x3000) = true ∧ s0.poisonHome (.tile 0 0x3000) 16 = false := by decide +kernel

/-- BLOCK.E on quarter 0 under folio 3, two beats of 8 sums; its folio; an instance of it with its operands waiting. -/
def block1 : BlockArgs := ⟨1, 3, false, false, false, 0, ⟨4, 4, 2, 2, 2, 1, 0, 0, 0, true, true, false, 0, 1, 0, 0, 0⟩, [2], []⟩
def elemFolio : Folio := { folio0 with plen := 1, weave := joinWeave block1.weave, irole := 0x31, erole := 1 }
def one : PElem := ⟨0x3F800000, 0x0D, 0, false, 0⟩
def inst0 : Inst :=
  { ctx := 0, own := 0, cls := 2, blk := block1, imgs := [], ctrs := [], after := [], tag := 0, started := true, win := none, acc := none, streams := [],
    pats := [(0, (pat 0 1 0x0D 16).toNat), (1, (pat 0 1 0x0D 16).toNat), (16, (pat 0 1 0x0D 16).toNat)], ownIds := []
    bufs := [(1, List.replicate 8 one), (3, List.replicate 8 one)], panel := [], beat := 0, drain := 0, sink := [], given := [], lastMsg := 0, cinv := false,
    lsq := 0, strays := 0, fault := none, held := false, scan := false, image := [], imgPoison := [], imgFmt := [], arr := none }
def run0 (i : Inst) : Run := ⟨1, 3, 2, true, [i]⟩
/-- Tile 0 with a run of folio 3 in place, its context waiting at the block. -/
def running (f : Folio) (cls : Nat) (i : Inst) : State :=
  ((on fun c => { c with wait := some (.block cls block1 [] [] 0 []) }).modLaunch 0 fun l => { l with folios := [(3, f)] }).modTile 0 fun tl =>
    { tl with runs := [{ run0 i with cls := cls }], live := [(0, 3)] }

theorem witness_RunsLoadsAndSweeps :
    (let s := (on fun c => { c with wait := some (.block 2 block1 [] [] 0 []) }).modLaunch 0 fun l => { l with folios := [(3, elemFolio)] }
     ((s.reload 0).pickEntry 0 [] (sortBy (Entry.above (s.tile 0).res) (s.tile 0).blockEntries)).isSome = true ∧ (s.tile 0).scanned = []
      ∧ (s.tile 0).aside = [] ∧ ((s.reload 0).tile 0).rankDue = true)
    ∧ ((s0.reload 0).tile 0).rankDue = false
    ∧ (∀ l ∈ [(⟨1, 1, 3, none, 0, 1⟩ : Load), ⟨1, 1, 3, some (0, 0, 0x100), 0, 1⟩, ⟨1, 1, 3, none, 0, 32⟩],
        let tl := (onTile fun tl => { tl with loads := [l] }).tile 0
        tl.loads.find? (fun l => l.qmask == 1) = some l ∧ (∀ x ∈ tl.loads, x.id = l.id → x = l))
    ∧ elemFolio.refusal 1 = none ∧ elemFolio.refusal 3 = some (0x0E, 1) ∧ s0.me.task.isSome = true ∧ s0.me.serial = 0
    ∧ (∀ n ∈ [1, 2], let s := onTile fun tl => { tl with sweeps := [⟨1, 1, 3, 0, n⟩] }
       (s.tile 0).sweeps.find? (fun w => w.qmask == 1) = some ⟨1, 1, 3, 0, n⟩ ∧ ((s.tile 0).runs.any fun r => r.ready && masksMeet r.qmask 1) = false
        ∧ (∀ x ∈ (s.tile 0).sweeps, x.id = 1 → x = ⟨1, 1, 3, 0, n⟩)) := by
  decide +kernel

/-- Its instance with the stage of the drain, and what it holds once the roles of its beat are pulled together. -/
def run1 : State := running elemFolio 2 inst0
def folio1 : Folio := run1.folio 0 3
def inst1 : Inst := { (run1.tile 0).follow inst0 folio1 with drain := inst0.drain - 1 }
def pulled1 : Tile × Inst := ((run1.tile 0).modInst 1 fun _ => inst1).pullAll inst1 folio1

theorem witness_BlockInstancesRun :
    ((run1.tile 0).runs.find? (fun r => r.qmask == 1) = some (run0 inst0) ∧ (run1.tile 0).gate = .open_ ∧ run1.condemned 0 0 = false
      ∧ (run1.tile 0).clockStop ((run1.tile 0).follow inst0 folio1) folio1 = none ∧ (run1.tile 0).hold.contains 1 = false
      ∧ (match ((run1.tile 0).modInst 1 fun _ => inst1).portOf inst1 16 with | some (_, _, e) => e.stop | none => none) = none
      ∧ inst0.beat < blkBeats inst0.blk ∧ pulled1.1.roleFault pulled1.2 (pulled1.2.needs folio1) = none ∧ (inst0.needs folio1).length = 2
      ∧ ((pulled1.2.needs folio1).all fun e => decide (e.2.2 ≤ (pulled1.2.buf e.2.1).length)) = true
      ∧ (((run1.modTile 0 fun _ => pulled1.1.modInst 1 fun _ => pulled1.2).tile 0).compute pulled1.2 folio1).isSome = true)
    ∧ (let s := run1.modTile 0 fun tl => { tl with cancels := [0xFFFF] }
       s.condemned 0 0 = true ∧ (s.ctx 0 0).owesAtomic = false ∧ (s.tile 0).array.storing = false)
    ∧ (let i := { inst0 with started := false }
       let s := running elemFolio 2 i
       (s.ctx 0 0).outs = [] ∧ (s.tile 0).roomFor (s.bindCmds 0 i.blk i.imgs i.ctrs (s.folio 0 3)) = true
        ∧ s.bindsRefused (s.bindCmds 0 i.blk i.imgs i.ctrs (s.folio 0 3)) = false)
    ∧ (let i := { inst0 with beat := 2 }
       blkBeats i.blk ≤ i.beat ∧ i.drain = 0 ∧ i.sink = [] ∧ i.imgFmt = [] ∧ ((running elemFolio 2 i).tile 0).egressDone i 16 = true)
    ∧ (let i := { inst0 with scan := true, fault := some ⟨0x06, 0x1000, 0⟩ }
       ((running elemFolio 2 i).tile 0).runs.find? (fun r => r.qmask == 1) = some (run0 i) ∧ ((running elemFolio 2 i).ctx 0 0).trap = false
        ∧ ((running elemFolio 2 i).trapBaseOf 0 0).toNat % 8 = 0 ∧ ((running elemFolio 2 i).trapBaseOf 0 0).toNat < 0x300000) := by decide +kernel

/-- An instance of the block with loops of 4 beats that has not started, its context with a QUOTELIM of 1. -/
def starting : State :=
  (withBlock.modMe fun c => { c with quoteLim := 1 }).modTile 0 fun tl => { tl with
    runs := [⟨1, 3, 0, true, [{ inst0 with cls := 0, blk := block0, imgs := imgs0, ctrs := ctrs0, started := false }]⟩], live := [(0, 3)] }
theorem witness_BlockInstancesRun_refused :
    (starting.tile 0).roomFor (starting.bindCmds 0 block0 imgs0 ctrs0 (starting.folio 0 3)) = true ∧ (starting.ctx 0 0).outs = []
      ∧ starting.bindsRefused (starting.bindCmds 0 block0 imgs0 ctrs0 (starting.folio 0 3)) = true := by decide +kernel

/-- A class-6 folio without rules, and a memory node of byte loads that waits at 0x1000. -/
def tokenFolio : Folio := { folio0 with weave := 6 * 2 ^ 48, epart := some ⟨[], [], [], [], 0, [], [], false⟩ }
def pend0 : EPend := ⟨4, 0, 0, 0x45 * 2 ^ 33, ⟨0, false, 0, 0, 0, none, 0⟩, [], 5, 0, false, none, none, true, 0x1000, 0⟩
def tokens : State := (running tokenFolio 6 { inst0 with cls := 6 }).modTile 0 fun tl => { tl with array := { EArray.reset with pend := [pend0] } }
def part6 : EPart := ⟨[], [], [], [], 0, [], [], false⟩

theorem witness_ElementArraySteps :
    (let i := { inst0 with cls := 6 }
     let c : Cyc := ⟨tokens, 0, part6, { i with beat := 0 }, (tokens.tile 0).array, 0, none⟩
     (tokens.tile 0).runs.find? (fun r => r.cls == 6) = some ⟨1, 3, 6, true, [i]⟩ ∧ (tokens.folio 0 3).epart = some part6 ∧ (tokens.tile 0).gate = .open_
      ∧ tokens.condemned 0 0 = false ∧ (tokens.tile 0).msgOver = []
      ∧ c.complete (tokenPorts tokenFolio 1 false) (tokenPorts tokenFolio 1 true) = false
      ∧ ∀ held, (c.run (tokenPorts tokenFolio 1 false) (tokenPorts tokenFolio 1 true) held).bad = none)
    ∧ ((tokens.tile 0).array.pend.find? (fun p => p.id == 4 && p.mem) = some pend0 ∧ (ruleOf pend0.word).op = 0x45
      ∧ resolves (tokens.resolve 0 (part6.node ((ruleOf pend0.word).imm % 32)).space 0x1000 1 true false) (.dev 0x1000) = true
      ∧ tokens.poisonHome (.dev 0x1000) 1 = false ∧ (part6.node 0).width = 0 ∧ (tokens.tile 0).array.nodeWaits part6 pend0 = false
      ∧ (∀ x ∈ tokens.parts, x.2.job = none) ∧ tokens.reservePoison (.dev 0x1000) = false ∧ pend0.bad = none)
    ∧ (let f := flit0 0 (63 * 2 ^ 122 + 7)
       let s := onTile fun tl => { tl with intake := [f] }
       ((s.tile 0).takeIntake (fun f => decide (f.kind ≤ 1))).map (·.1) = some f ∧ (s.tile 0).coversTag (bits f.payload 95 80) = false
        ∧ ((mfind 63 (s.tile 0).msgs).getD (0, [])).2.length < 64
        ∧ 64 ≤ ((mfind 63 ({ s.tile 0 with msgs := [(63, (0, List.replicate 64 0))] } : Tile).msgs).getD (0, [])).2.length
        ∧ ((s.tile 0).cancels = [] ∧ { s.tile 0 with cancels := [0xFFFF] }.coversTag (bits f.payload 95 80) = true)) := by decide +kernel

theorem witness_ContextsTrapFinishAndWake :
    (let s := on fun c => { c with deferred := [⟨7, 0, 0, false⟩] }
     (s.ctx 0 0).task.isSome = true ∧ (s.ctx 0 0).halted = false ∧ (s.ctx 0 0).arriving = none ∧ (s.ctx 0 0).wait = none
      ∧ (s.tile 0).scanningOut 0 = false
      ∧ (s.ctx 0 0).trap = false ∧ (s.trapBaseOf 0 0).toNat % 8 = 0 ∧ (s.trapBaseOf 0 0).toNat < 0x300000)
    ∧ (let s := trapped.modMe fun c => { c with deferred := [⟨7, 0x1000, 0, false⟩, ⟨6, 0x1000, 0, true⟩] }
       (s.ctx 0 0).deferred.find? (fun d => d.own) = some ⟨6, 0x1000, 0, true⟩ ∧ (s.ctx 0 0).trap = true ∧ (s.ctx 0 0).task.isSome = true
        ∧ (s.ctx 0 0).halted = false ∧ (s.ctx 0 0).arriving = none ∧ (s.tile 0).scanningOut 0 = false)
    ∧ (let a := { someAccess with space := 4 }
       ((withAccess a).ctx 0 0).outs.find? (fun a => a.id == 4) = some a ∧ a.dst ≠ .none)
    ∧ (let a := { someAccess with space := 6, addr := 0x10, home := some (.dev 0x800000000010) }
       let s := withAccess a
       a.wop ≠ .b128 ∧ s.homeOf 0 a = some (.dev 0x800000000010) ∧ (Home.dev 0x800000000010).isReserve = true ∧ (s.ctx 0 0).mayPerform a = true
        ∧ s.poisonHome (.dev 0x800000000010) a.size = false ∧ (∀ e ∈ s.parts, e.2.job = none))
    ∧ (let a := { someAccess with kind := .zread }
       let s := withAccess a
       (s.ctx 0 0).outs.find? (fun a => a.kind == .zread && a.st == .issued) = some a ∧ (s.ctx 0 0).mayPerform a = true)
    ∧ (∀ r ∈ [(⟨10, 5, 3, false, some (some 3)⟩ : Arriving), ⟨10, 5, 3, true, some (some 3)⟩, ⟨10, 5, 3, false, some none⟩],
        ((on fun c => { c with arriving := some r }).ctx 0 0).arriving = some r)
    ∧ (let s := covered.modMe fun c => { c with wait := some (.qwait []) }
       s.condemned 0 0 = true ∧ s.mustFinish 0 0 (.qwait []) = false ∧ (s.ctx 0 0).owesAtomic = false)
    ∧ (on fun c => { c with wait := some (.qwait []) }).condemned 0 0 = false
    ∧ (match s0.clook 0 0 true 0x3000 0 with | .done st => st == 0 | _ => false) = true ∧ member.barrierDone 0 5 0 false = some (3 * 2 ^ 32 + 2)
    ∧ member.barrierDone 0 5 3 true = some (3 * 2 ^ 32 + 1) ∧ (∀ e ∈ s0.parts, e.2.job = none)
    ∧ (s0.ctx 0 0).mayRead 8 0 0 = true ∧ (s0.tile 0).left [] = true ∧ (s0.tile 0).drained 15 = true := by decide +kernel

/-- A task with a dependence, met or not. -/
def depTask (tgt : Nat) : Task := { Task.placed 0 with depAddr := 0x2000, depTgt := tgt }

theorem witness_TasksAndBarriersArrive :
    (∀ k ∈ [Task.placed 0, depTask 0, depTask 1], ∀ f ∈ [none, some (1, 0)], let s := { s0 with pubs := [⟨k, 0, f⟩] }
     s.pubs[0]? = some ⟨k, 0, f⟩ ∧ (s.part (s.launch k.lid).part).out = false ∧ ((s.pubs.take 0).any fun q => q.tile == 0) = false)
    ∧ (s0.depLook 0 0 (depTask 0) = some true ∧ s0.depLook 0 0 (depTask 1) = some false ∧ (∀ e ∈ s0.parts, e.2.out = false) ∧ (s0.tile 0).covers 0xFFFF = false ∧ (covered.tile 0).covers 0xFFFF = true)
    ∧ (∀ k ∈ [Task.placed 0, { Task.placed 0 with saved := some Regs.reset }], let s := onTile fun tl => { tl with ready := [(0, [k])] }
       (s.tile 0).gate = .open_ ∧ (s.part (s.partId 0)).resident = true ∧ (s.tile 0).freeCtx = some 1 ∧ (s.tile 0).nextTask = some k)
    ∧ (∀ tag ∈ [0, 1], let s := { s0 with arrivals := [⟨0, 5, tag, 0, 0, 0⟩] }
       s.arrivals[0]? = some ⟨0, 5, tag, 0, 0, 0⟩ ∧ (s.ctx 0 0).performedAt (s.group 0 5).fscope = true ∧ (s.group 0 5).exhausted = false
        ∧ (s.group 0 5).phase = 0 ∧ (s.group 0 5).arrived + 1 < (s.group 0 5).narr)
    ∧ (let s := s0.modGroup 0 5 fun g => { g with arrived := 1 }
       (s.group 0 5).narr ≤ (s.group 0 5).arrived + 1)
    ∧ (let s := { member with releases := [⟨0, 5, 0, 4, false⟩] }
       s.releases[0]? = some ⟨0, 5, 0, 4, false⟩ ∧ (s.tile 0).lid = some 0 ∧ (s.tile 0).slotOfGroup 5 = some 0) := by decide +kernel


theorem witness_NetworkAndLinksMoveFlits :
    ((s0.die 0).netCycle % 8 = 0 ∧ s0.occupant 0 = some 0 ∧ s0.occupant 0 ≠ some 1 ∧ s0.occupant 127 ≠ some 0)
    ∧ (∀ d ∈ [0, 1], let s := s0.modDie 0 fun x => { x with xbar := [⟨{ flit0 3 0 with ddie := d }, none⟩] }
       let f := { flit0 3 0 with ddie := d }
       (s.die 0).xbar[0]? = some ⟨f, none⟩ ∧ f.ddie < 28 ∧ (f.forEdge 0 || f.forSched 0) = false)
    ∧ (∀ f ∈ [{ flit0 3 0 with ddie := 28 }, { flit0 3 (schedPayload 1 false) with zero := true, edge := true, dtile := 1 }],
       ((s0.modDie 0 fun x => { x with xbar := [⟨f, none⟩] }).die 0).xbar[0]? = some ⟨f, none⟩
        ∧ (28 ≤ f.ddie ∨ ((f.forEdge 0 || f.forSched 0) = true ∧ f.malformed false = true)))
    ∧ [(⟨9, 0, flit0 3 0⟩ : MeshFlit)].length ≤ 8 * ([Dir.north, .south, .east, .west].filter fun d => d.permitted 0 1 9 && !(d == .north && 9 % 8 == 0)).length
    ∧ ((s0.link 45).down = false ∧ (withAccess { someAccess with home := some (.dev 0x1000000000) }).memoryOn 0 true = true)
    ∧ (s0.nextDie 0 1 = some 1 ∧ s0.nextDie 0 99 = none)
    ∧ (let s := s0.modLink 45 fun l => { l with frames := [⟨[flit0 3 0], 5, true⟩] }
       (s.link 45).down = false ∧ takeFirst (fun f : Frame => f.toHigh == true) (s.link 45).frames = some (⟨[flit0 3 0], 5, true⟩, [])
        ∧ ((s.link 45).frames.any fun f => f.toHigh == true) = true)
    ∧ (∀ up ∈ [true, false], ((s0.modLink 45 fun l => l.setFails up 9).link 45).fails up = 9)
    ∧ (let s := s0.modLink 45 fun l => { l with down := true }
       (s.link 45).down = true ∧ s.linkUntested 45 = false
        ∧ (s.modClasp fun c => { c with tests := [⟨4, 0, 0, 0, 45, 0⟩] }).linkUntested 45 = true)
    ∧ ((s0.link 45).frames = [] ∧ (linkEnds 45).1 ≠ (linkEnds 45).2)
    ∧ ((s0.partsOn 0).any fun p => !(s0.part p).out && (s0.part p).sched.isSome) = true
    ∧ ((s0.partsOn 23).any fun p => !(s0.part p).out && (s0.part p).sched.isSome) = false := by decide +kernel

/-- Tile 0 with one flit in its intake. -/
def arrived (f : Flit) : State := onTile fun tl => { tl with intake := [f] }
def storeFlit : Flit := flit0 3 (3 * 2 ^ 122 + 0x1000 * 2 ^ 99 + 77)
def amoFlit (res : Nat) : Flit := flit0 3 (2 ^ 124 + 0x1000 * 2 ^ 94 + res * 2 ^ 83 + 2 ^ 119 + 5)
def atOne (l : List Flit) (o : Option (List Flit × Tile)) : Bool := match o with | some r => r.1 == l | none => false
def takes (f : Flit) (o : Option (Flit × Tile)) : Bool := match o with | some r => r.1 == f | none => false

/-- The two halves of a .b128 store of tile 1 have arrived. -/
def otherHalf : Flit := flit0 3 (3 * 2 ^ 122 + 0x1008 * 2 ^ 99 + 78)
def halves : State := (onTile fun tl => { tl with intake := [storeFlit, otherHalf] }).modTile 1 fun tl =>
  { tl with tags := [(0, (0, 4))], ctxs := [(0, { Ctx.reset with outs := [{ someAccess with kind := .store, space := 2, wop := .b128, size := 16 }] })] }

theorem witness_RemoteWorkAndStreamFlitsArrive :
    ({ amoFlit 0 with chk := 0 }.bad = true ∧ atOne [{ amoFlit 0 with chk := 0 }] ((arrived { amoFlit 0 with chk := 0 }).takeRequest 0 fun f => f.isClass 1) = true
      ∧ GBuf.reset.resync = false)
    ∧ (atOne [storeFlit] ((arrived storeFlit).takeRequest 0 fun f => f.isClass 0) = true ∧ storeFlit.bad = false ∧ ((arrived storeFlit).tile 0).room 1 = true)
    ∧ (let s := halves
       atOne [storeFlit, otherHalf] (s.takeRequest 0 fun f => f.isClass 0) = true ∧ otherHalf.bad = false ∧ (s.tile 0).room 1 = true)
    ∧ (∀ r ∈ [0, 1], atOne [amoFlit r] ((arrived (amoFlit r)).takeRequest 0 fun f => f.isClass 1) = true ∧ AmoOp.ofCode (bits (amoFlit r).payload 123 120) = some .add
        ∧ bits (amoFlit r).payload 82 81 = 0 ∧ bit (amoFlit r).payload 83 = decide (r = 1) ∧ (s0.tile 0).coversTag (bits (amoFlit r).payload 80 65) = false
        ∧ (covered.tile 0).coversTag (bits (amoFlit r).payload 80 65) = true ∧ s0.poisonHome (.tile 0 0x1000) 8 = false ∧ ((arrived (amoFlit r)).tile 0).room 1 = true)
    ∧ (let f := flit0 3 (4 * 2 ^ 124 + 4 * 2 ^ 120)
       takes f ((arrived f).tile 0 |>.takeIntake fun f => f.isResponse 4 || (f.isResponse 3 && s0.unwanted 0 f)) = true)
    ∧ (let f := flit0 2 77
       let s := (arrived f).modTile 0 fun tl => { tl with gbufs := [(0, GBuf.reset)] }
       takes f ((s.tile 0).takeIntake fun f => f.kind == 2) = true ∧ mfind f.cls (s.tile 0).trks = none ∧ mfind f.cls (s.tile 0).gbufs = some GBuf.reset
        ∧ offWindow [] 0 63 = false ∧ offWindow [] 0 64 = true ∧ beatHere (mput [] f.seq (f.payload, f.bad)) 0 = false)
    ∧ (let f := flit0 3 (4 * 2 ^ 124 + 2 ^ 120 + 4 * 2 ^ 108)
       let e := { stream0 .sOut with st := QSt.started, port := 0, trk := some 0 }
       let s := (inQueue [e]).modTile 0 fun tl => { tl with intake := [f], eps := [(0, ⟨some (3, 7), [], 0⟩)] }
       takes f ((s.tile 0).takeIntake fun f => f.isResponse 1) = true ∧ (mget Port.reset (s.tile 0).eps (bits f.payload 107 104)).holder = some (3, 7)
        ∧ ((s.tile 0).queue 3).entries.find? (fun x => x.id == 7) = some e ∧ e.trk = some (bits f.payload 102 99))
    ∧ (∀ n ∈ [0, 8], let f := flit0 3 (4 * 2 ^ 124 + 2 * 2 ^ 120 + n * 2 ^ 108)
       let s := (arrived f).modTile 0 fun tl => { tl with gbufs := [(0, GBuf.reset)] }
       takes f ((s.tile 0).takeIntake fun f => f.isResponse 2) = true ∧ (s0.tile 0).room 1 = true ∧ bit f.payload 103 = false ∧ mfind (bits f.payload 107 104) (s.tile 0).gbufs = some GBuf.reset
        ∧ beatHere GBuf.reset.slots GBuf.reset.base = false ∧ bits f.payload 119 108 = n)
    ∧ (let g := { GBuf.reset with waited := 2048 }
       mfind 15 ((onTile fun tl => { tl with gbufs := [(15, g)] }).tile 0).gbufs = some g ∧ beatHere (mput g.slots 0 (0, true)) g.base = false) := by decide +kernel

/-- An open cancel of [0, 0xFFFF] of partition 0. -/
def cancel0 : Cancel :=
  { part := 0, lid := some 0, scope := 0xFFFF, ack := none, quote := 0, tile := 0, at_ := 0, parents := [], tiles := [0], dies := [], reached := [0], sums := [],
    owed := [0], totals := [0, 0, 0, 0], edges := [], done := false }
def cancelling (c : Cancel) : State := { s0 with cancels := [(1, c)] }

theorem witness_CancelsRegisterKillReportAndEnd :
    (mfind 1 (cancelling cancel0).cancels = some cancel0 ∧ cancel0.done = false ∧ cancel0.edges.contains (dieOf 0) = false
      ∧ ((cancelling cancel0).part 0).out = false ∧ ((cancelling cancel0).part 0).restoring = false
      ∧ (((cancelling cancel0).part 0).tiles.filter fun u => dieOf u == dieOf 0) ≠ []
      ∧ ((cancelling cancel0).intervalStays cancel0 = true ∧ (cancelling cancel0).intervalStays { cancel0 with lid := none } = false) ∧ cancel0.reached.contains (dieOf 0) = true
      ∧ (∀ k ∈ ((cancelling cancel0).part 0).tiles, (register ((cancelling cancel0).tile k).cancels cancel0.scope).length ≤ 256))
    ∧ (let s := ((cancelling cancel0).modMe fun c => { c with task := none }).modTile 0 fun tl => { tl with res := 512, regs := [⟨1, 0xFFFF, 0, 3, 2, 1, false⟩] }
       cancel0.tiles.contains 0 = true ∧ (s.tile 0).regs.find? (fun g => g.no == 1) = some ⟨1, 0xFFFF, 0, 3, 2, 1, false⟩
        ∧ (s.tile 0).cancelDone ⟨1, 0xFFFF, 0, 3, 2, 1, false⟩ = true ∧ (s.tile 0).room 1 = true)
    ∧ (let c := { cancel0 with tiles := [1, 2] }
       let f := { flit0 3 (reportPayload 1 3 2 1 0) with edge := true, dtile := 1 }
       let s := (cancelling c).modDie 0 fun d => { d with xbar := [⟨f, none⟩] }
       (s.die (dieOf 1)).xbar[0]? = some ⟨f, none⟩ ∧ f.malformed false = false ∧ f.failed = false ∧ f.isSched 3 = true ∧ f.ddie = dieOf 1 ∧ f.ddie < 28
        ∧ s.cancelOf f = some (1, c) ∧ f.stile = 1 ∧ 1 ≠ edgeTile ∧ (c.tiles.any fun k => k != 1 && dieOf k == dieOf 1) = true)
    ∧ (∀ ack ∈ [none, some 0x1000], let c := { cancel0 with tiles := [], owed := [], ack := ack }
       mfind 1 (cancelling c).cancels = some c ∧ c.tiles = [] ∧ c.dies = [] ∧ c.owed = [] ∧ (cancelling c).parentDone c = true
        ∧ (∀ e ∈ (cancelling c).parts, e.2.job = none) ∧ (cancelling c).owns 0 0x1000 = true
        ∧ (match (cancelling c).translate (dieOf c.tile) c.part 0x1000 false true with | .ok pa => pa == 0x1000 | .error _ => false) = true)
    ∧ ((covered.ctx 0 0).task = some (Task.placed 0) ∧ (covered.ctx 0 0).halted = false ∧ (covered.ctx 0 0).arriving = none ∧ (covered.ctx 0 0).trap = false
      ∧ covered.condemned 0 0 = true ∧ (covered.ctx 0 0).wait = none ∧ (covered.ctx 0 0).owesAtomic = false)
    ∧ (let s := covered.modMe fun c => { c with outs := [{ someAccess with kind := .amo }] }
       (s.ctx 0 0).owesAtomic = true ∧ (s.ctx 0 0).halted = false ∧ (s.ctx 0 0).arriving = none)
    ∧ (let s := (on fun c => { c with trap := true, killAt := some 0 }).modTile 0 fun tl => { tl with res := 4096 }
       (s.ctx 0 0).trap = true ∧ (s.ctx 0 0).killAt = some 0 ∧ 0 + 4096 ≤ (s.tile 0).res ∧ (s.ctx 0 0).owesAtomic = false) := by decide +kernel

/-- A second partition of the same slot, out with a live launch. -/
def twoTenants (f g : Partition → Partition) : State :=
  let s := s0.modPart 0 f
  { s with parts := s.parts ++ [(1, g { part0 with out := true })], launches := s.launches ++ [(7, { launch0 with part := 1 })] }

theorem witness_PreemptionHoldsSwitchesAndResumes :
    (∀ sw ∈ [false, true], let f := flit0 3 (schedPayload 0 sw)
     takes f (((arrived f).tile 0).takeIntake fun f => f.isSched 0 && bit f.payload 112 == sw) = true ∧ ((arrived f).tile 0).gate = .open_
      ∧ ((arrived f).ctx 0 0).task.isSome = true)
    ∧ (let f := { flit0 3 (schedPayload 1 false) with dtile := 1, edge := true }
       let s := (onPart fun q => { q with asked := [(1, false)] }).modDie 0 fun d => { d with xbar := [⟨f, none⟩] }
       (s.die (dieOf 1)).xbar[0]? = some ⟨f, none⟩ ∧ f.malformed false = false ∧ f.failed = false ∧ f.isSched 1 = true ∧ f.ddie = dieOf 1 ∧ f.ddie < 28
        ∧ f.part = 0 ∧ (mfind f.stile (s.part 0).asked).isSome = true)
    ∧ (let f := flit0 3 (schedPayload 2 false)
       f.isSched 2 = true ∧ f.malformed true = false ∧ f.failed = false)
    ∧ (let s := { (onPart fun q => { q with saving := true, halted := List.range 8 }) with tiles := (List.range 8).map fun t => (t, { Tile.reset with gate := .switch, reported := true }) }
       (s.part 0).saving = true ∧ s.quiet 0 = true)
    ∧ (let s := onPart fun q => { q with out := true, restoring := true }
       (s.part 0).restoring = true ∧ s.inReset 0 = false ∧ (s.modDie 0 fun d => { d with inReset := true }).inReset 0 = true)
    ∧ (let s := onPart fun q => { q with out := true }
       (s.part 0).valid = true ∧ (s.part 0).sched.isSome = true ∧ (s.part 0).blocked = false ∧ (s.part 0).saving = false ∧ (s.part 0).restoring = false
        ∧ s.inReset 0 = false ∧ (s.part 0).out = true ∧ s.cotenants 0 = [])
    ∧ (let s := twoTenants (fun q => { q with out := true }) id
       s.cotenants 1 = [0] ∧ (s.part 0).out = true ∧ (s.part 0).restoring = false ∧ s.eligible 1 = true
        ∧ { s with launches := [] }.eligible 1 = false)
    ∧ (let s := onPart fun q => { q with asked := (List.range 8).map fun t => (t, false), halted := List.range 8 }
       (s.part 0).out = false ∧ (s.part 0).asked ≠ [] ∧ (∀ k ∈ (s.part 0).tiles, (s.part 0).halted.contains k = true))
    ∧ (let s := twoTenants (fun q => { q with sliceUsed := 1024 }) id
       (s.part 0).resident = true ∧ 1 * 1024 ≤ (s.part 0).sliceUsed ∧ s.urgent 0 = false ∧ (s.cotenants 0).any s.eligible = true)
    ∧ (let s := onPart fun q => { q with sliceUsed := 1024 }
       (s.part 0).resident = true ∧ (s.cotenants 0).any s.eligible = false)
    ∧ (let s := { twoTenants id (fun q => { q with sched := some ⟨0, [], 96, 96, 1, true, true, 0⟩ }) with pubs := [⟨{ Task.placed 7 with pri := 23 }, 0, none⟩] }
       (s.part 1).out = true ∧ s.urgent 1 = true ∧ s.eligible 1 = true ∧ s.cotenants 1 = [0] ∧ (s.part 0).resident = true) := by decide +kernel

/-- A container of one NOP and one virtual tile at 0x1000, and a launch that waits for the loader. -/
def container : Nat := 0xe4000a05000000000000000000000000000000000000000000004000000000000006800000000000000060000000000000000000000000000000800000000000000600000000000000001000000000000000000000000000000000000000000000000000200015348524c
def loading (size : Nat) : State :=
  { s0 with tiles := [], dev := s0.dev.write 0x1000 108 container, launches := s0.launches ++ [(7, { Launch.reset with st := .admitted, cont := 0x1000, csize := size, root := 0xF, nvt := 1 })] }

theorem witness_LaunchesAreAdmittedPlacedAndEnded :
    (withDesc.windowsOpen 0 = true ∧ bit (2 ^ 512) 512 = true ∧ (withDesc.part 0).sched.isSome = true ∧ bit 1 512 = false
      ∧ (∀ root ∈ [0x100010, 0x3], let d := descOf (root * 2 ^ 224 + 2 ^ 212 + (if root = 3 then 2 ^ 213 else 0))
         let s := withDesc.modPart 0 fun q => { q with gr0 := 0 }
         s.descFault 0 (ioDie 0) { d with root := 0x100010 } = none ∧ s.launchQuote 0 (ioDie 0) d = none)
      ∧ withDesc.descFault 0 (ioDie 0) (descOf (1 % 2 ^ 512)) = some (2, 0)
      ∧ withDesc.descFault 0 (ioDie 0) (descOf (withDesc.readHome (.dev 0x1000) 64)) = none
      ∧ (withDesc.enrol 0 (ioDie 0) 0 (descOf (withDesc.readHome (.dev 0x1000) 64)) 0 none none).isSome = true)
    ∧ (((loading 108).launch 7).st = .admitted ∧ ((loading 108).launch 7).refusal = none ∧ ((loading 108).part 0).out = false
      ∧ ((loading 108).part 0).restoring = false ∧ ((loading 108).part 0).saving = false)
    ∧ (match (loading 0x30000).readVirt 0 (0x30000 / 2 ^ 16 + 2) 0x1000 0x30000 with | .error e => e == 6 | .ok _ => false) = true
    ∧ (match (loading 108).readVirt 0 (108 / 2 ^ 16 + 2) 0x1000 108 with
       | .ok raw => (match parseContainer raw 1 0xF with | some c => (loading 108).place 0 c.reloc == some [0] | none => false)
       | .error _ => false) = true
    ∧ (let s := on fun c => { c with task := none }
       (s.launch 0).st = .placed ∧ (s.launch 0).refusal = none ∧ (s.launch 0).started = true ∧ s.pubs = []
        ∧ (∀ t ∈ (s.launch 0).tiles, (s.tileOf (s.launch 0).part t).idle 0 = true)) := by decide +kernel

/-- Map requests by operation: map 0x20000 to frame 0x20000; unmap, protect and migrate 0x10000; order. Their counter is at 0x1000. -/
def mapReq (op : Nat) : Nat :=
  [0x200000000000200000000106000000000000000000000000010000000000000000000000000000000000000000000000000000000000000000000,
   0x100000000000000000000108000000000000000000000000010000000000000000000000000000000000000000000000000000000000000000000,
   0x100000000000000000000116000000000000000000000000010000000000000000000000000000000000000000000000000000000000000000000,
   0x100000000000200000000118000000000000000000000000010000000000000000000000000000000000000000000000000000000000000000000,
   0x120000000000000000000000000010000000000000000000000000000000000000000000000000000000000000000000].getD op 0
/-- A partition whose save area lies elsewhere, with room for tables. -/
def mapping : State := onPart fun q => { q with tables := 64, sched := some ⟨0x40000000, [], 96, 96, 1, false, true, 0⟩ }
/-- The migration of 0x10000 in progress. -/
def migrating (j : MapJob) : State := mapping.modPart 0 fun q => { q with job := some j }

/-- A list of units was found. -/
def found (r : Except Nat (List (Nat × Nat))) : Bool := match r with | .ok _ => true | .error _ => false

theorem witness_HostAccessesAndLinkTransfers :
    ((s0.part 0).valid = true ∧ (s0.part 0).tiles[7]? = some 7 ∧ (s0.part 0).out = false ∧ s0.ownsAll 0 0x7FFFFFFE 2 = true
      ∧ (∀ x ∈ beatsOf (s0.forward 0x7FFFFFFE) 2, s0.mirrors x.1 = []) ∧ (∀ e ∈ s0.parts, e.2.job = none))
    ∧ (let s := migrating ⟨mapReq 3, 2, 0, [], 0x10000, []⟩
       s.ownsAll 0 0x10040 4 = true ∧ s.forward 0x10040 = 0x20040 ∧ (∀ x ∈ beatsOf (s.forward 0x10040) 4, s.mirrors x.1 = []))
    ∧ (∀ r ∈ [64 * 2 ^ 344 + 0x1000 * 2 ^ 256, 64 * 2 ^ 344 + 0x1000 * 2 ^ 256 + 2 ^ 328],
        s0.windowsOpen 0 = true ∧ s0.linkCtrBad 0 (linkReqOf r) = false ∧ (linkReqOf r).bad = false
        ∧ found (s0.unitsAt 0 (linkReqOf r).lva (decide (r < 64 * 2 ^ 344 + 2 ^ 328)) (decide (64 * 2 ^ 344 + 2 ^ 328 ≤ r)) ((linkReqOf r).len / 64)) = true
        ∧ (linkReqOf r).dirRead = decide (64 * 2 ^ 344 + 2 ^ 328 ≤ r))
    ∧ (let s := onPart fun q => { q with grant := 64 * 2 ^ 128 }
       (s.part 0).valid = true ∧ bits (s.part 0).grant 127 119 = 0 ∧ bits (s.part 0).grant 118 113 = 0 ∧ bits (s.part 0).grant 112 0 = 0
        ∧ bits (s.part 0).grant 255 192 ≤ 0
        ∧ 0 + 64 ≤ bits (s.part 0).grant 255 192 + bits (s.part 0).grant 191 128 ∧ found (s.unitsAt 0 0 true false 1) = true
        ∧ (List.replicate 64 7).length = 64 ∧ found (s.unitsAt 0 0 false true 1) = true) := by decide +kernel

theorem witness_MapRequestsAndMigration :
    (∀ op, op < 5 → let r := mapReqOf (mapReq op % 2 ^ 512)
     (mapping.part 0).valid = true ∧ mapping.windowsOpen 0 = true ∧ bit (mapReq op + 2 ^ 512) 512 = true ∧ (mapping.part 0).waiting = [] ∧ (mapping.part 0).job = none ∧ (mapping.mapCounter 0 r).isSome = true ∧ r.malformed = false
      ∧ (mapping.part 0).mapClash r = false ∧ mapping.framesForeign 0 r = false ∧ r.op = op ∧ (op = 2 → (mapping.part 0).removes r = false))
    ∧ (∀ back ∈ [false, true], let j : MapJob := ⟨mapReq 1, 0, 0, [], 0, [⟨0, 0, 7, back⟩]⟩
       ((migrating j).part 0).job = some j ∧ j.tokens[0]? = some ⟨0, 0, 7, back⟩)
    ∧ (let s := migrating ⟨mapReq 1, 0, 0, [], 0, []⟩
       s.oldAccessesDone 0 (mapReqOf (mapReq 1)) = true ∧ (s.part 0).waiting = [])
    ∧ (let j : MapJob := ⟨mapReq 3, 1, 0, [0], 0, []⟩
       let s := { migrating j with dev := (migrating j).dev.addPoison 0x10040 16 }
       s.oldFrame 0 (mapReqOf (mapReq 3)) 0 = some 0x10000 ∧ j.nextBeat = 1 ∧ j.nextBeat < pageSize (mapReqOf (mapReq 3)).psz / 64
        ∧ s.poisonHome (.dev 0x10040) 16 = true ∧ (mapReqOf (mapReq 3)).frame 0 % 16 = 0)
    ∧ pageSize (mapReqOf (mapReq 3)).psz / 64 ≤ (List.range 1024).length ∧ (mapReqOf (mapReq 3)).count ≤ 0 + 1
    ∧ 0 + 1 < (mapReqOf (mapReq 3 + 2 ^ 380)).count := by decide +kernel

/-- A partition without slots, and a module whose owner key is 5. -/
def slotless : State := onPart fun q => { q with slots := [], sched := none }
def owned : State := State.reset.modClasp fun c => { c with owner := some (Config.sha384 5), capacity := 2000 }

theorem witness_ClaspAnswersItsCalls_owner : Config.sha384 5 = owned.clasp.ownerHash := rfl

theorem witness_ClaspAnswersItsCalls : owned.configBad 0 = false
    ∧ ((mkeys owned.parts).filter fun k => owned.entryChanges 0 k && !(owned.part k).out && (owned.part k).sched.isSome) = []
    ∧ (owned.clasp.spared.contains (6, 27, 15 * 1024) = false
      ∧ (let c := { owned.clasp with spared := [(4, 0, 5)], fenced := [3] }
         c.spared.contains (4, 0, 0 * 1024 + 5) = true ∧ c.sparRec.spared.contains (4, 0, 5) = false ∧ c.fenced.contains 3 = true
          ∧ c.sparRec.fenced.contains 3 = false))
    ∧ ((slotless.part 0).valid = true ∧ slotless.schedBad 0 0x301800004000000000000000000000000000000000000000000000000000000000000000000000000000000000000000 = false
      ∧ (slotless.part 0).sched = none ∧ slotless.schedBad 0 0 = true)
    ∧ ((s0.part 0).valid = true ∧ (s0.part 0).out = false ∧ (s0.part 0).sched.isSome = true)
    ∧ (owned.clasp.checkpointFits = true ∧ owned.onTiles = [] ∧ s0.clasp.checkpointFits = false)
    ∧ (let s := { s0 with parts := [(0, { (s0.part 0) with out := true, saved := [(3, tile0)] })] }
       (s.part 0).out = true ∧ (mfind 3 (s.part 0).saved).isSome = true ∧ (mfind 0 s.parts).isSome = true)
    ∧ (∀ k ∈ [1, 4, 5], let s := (s0.modLink 0 fun l => { l with down := true }).modClasp fun c => { c with tests := [⟨k, 0, 0, 0, 0, 0⟩] }
       s.clasp.tests[0]? = some ⟨k, 0, 0, 0, 0, 0⟩ ∧ s.testReady ⟨k, 0, 0, 0, 0, 0⟩ = true ∧ (TestJob.recent ⟨k, 0, 0, 0, 0, 0⟩ (mget [] s.clasp.counts (TestJob.key ⟨k, 0, 0, 0, 0, 0⟩))).length + 1 < 16
        ∧ 16 ≤ (TestJob.recent ⟨k, 0, 0, 0, 0, 0⟩ (List.replicate 15 0)).length + 1)
    ∧ granuleOf (23 * 0x1000000000 + 0 * 64) = some 1104 := by decide +kernel

theorem witness_MetersPowerAndTheClock :
    (let s := (onPart fun q => { q with caps := [(1, 2)], partial_ := [(1, 3)] }).modDie 24 fun d => { d with cycle := 2048 }
     s.foldCycle + 2048 ≤ (s.die 24).cycle ∧ (mkeys s.parts).Nodup ∧ mget 0 (s.part 0).caps 1 ≠ 0)
    ∧ ({ s0 with powered := false }.powered = false ∧ { s0 with powered := false }.clasp.image = none)
    ∧ (s0.clasp.checkpointFits = false ∧ owned.clasp.checkpointFits = true ∧ owned.onTiles = []
      ∧ (let s := s0.modClasp fun c => { c with capacity := 2000 }
         s.clasp.checkpointFits = true ∧ s.onTiles = [0])) := by decide +kernel

/-- A valid checkpoint: its manifest is the signature over its number; it holds partition 0, and not partition 1, which has a colophon since. -/
def snapshot0 : Snapshot := ⟨Store.empty, [(0, part0)], [], 0, none, [], ⟨[], [], []⟩, none⟩
def checkpointed : State :=
  { owned.modClasp fun c => { c with ckNo := 1, ckValid := true, manifest := some (Config.sign (Config.sha384 1)), image := some snapshot0 } with
    powered := false, parts := [(1, { Partition.reset with coloSeq := 1 })] }

theorem witness_MetersPowerAndTheClock_restore : checkpointed.powered = false ∧ checkpointed.clasp.image = some snapshot0
    ∧ (mfind 0 snapshot0.parts).isSome = true ∧ (mfind 1 snapshot0.parts).isSome = false ∧ (mfind 1 checkpointed.parts).isSome = true ∧ checkpointed.clasp.ckValid = true ∧ checkpointed.clasp.manifest = some (Config.sign (Config.sha384 checkpointed.clasp.ckNo)) := ⟨rfl, rfl, rfl, rfl, rfl, rfl, rfl⟩

/-- The physical function's exchange, by its progress. -/
def withSession (f : Session → Session) : State := s0.modClasp fun c => { c with sessions := [f ⟨.pf, false, false, false, none, false⟩] }

theorem witness_SpdmAndVendorRequests :
    ((withSession fun x => { x with version := true }).session .pf).version = true ∧ ((withSession fun x => { x with caps := true }).session .pf).caps = true
    ∧ ((withSession fun x => { x with algs := true }).session .pf).algs = true ∧ (s0.session .pf).algs = false
    ∧ ((withSession fun x => { x with key := some 0 }).session .pf).key = some 0 ∧ ((withSession fun x => { x with secure := true }).session .pf).secure = true
    ∧ (withSession fun x => { x with key := some 0, secure := true }).isAuthority .pf 0 = true ∧ s0.isAuthority .pf 63 = false
    ∧ (List.replicate 16 0).length = 16 := by decide +kernel

/-! Witnesses of the further clauses, by statement. -/

/-- Poison on the 32 bytes at 0x1000 of tile 0 and of device memory. -/
def poisoned : State := { (onTile fun tl => { tl with store := tl.store.addPoison 0x1000 32 }) with dev := s0.dev.addPoison 0x1000 32 }
/-- x1 names the store of tile 1, where poison stands. -/
def atTile1 : State := (on fun c => { c with regs := { c.regs with x := [(1, 0x400000)] } }).modTile 1 fun tl => { tl with store := tl.store.addPoison 0 8 }

theorem witness_BadAccessesTrapAtIssue_checks :
    (let m : MemArgs := ⟨.b64, .plain, 10, 7, 0, 0, 0⟩
     s0.memAddr m % 8 = 0 ∧ fails (s0.resolve 0 2 (s0.memAddr m) 8 false true) (0x04, 0) = true)
    ∧ (let k : AmoArgs := ⟨.add, true, .plain, 10, 7, 3, 0⟩
       s0.amoAddr k % 8 = 0 ∧ s0.rangeOk 0 1 (s0.amoAddr k) 8 = false ∧ fails (s0.resolve 0 2 (s0.amoAddr k) 8 true true) (0x04, 0) = true)
    ∧ (let k : AmoArgs := ⟨.add, true, .plain, 0, 9, 3, 0⟩
       s0.amoAddr k % 8 = 0 ∧ s0.rangeOk 0 0 (s0.amoAddr k) 8 = true ∧ fails (s0.resolve 0 0 (s0.amoAddr k) 8 true true) (0x06, 2) = true)
    ∧ (∀ x ∈ [(0, Home.dev 0x1000), (1, .tile 0 0x1000)], let a := poisoned.amoAddr { anyAmo with data := 0 }
       a % 8 = 0 ∧ poisoned.rangeOk 0 x.1 a 8 = true ∧ resolves (poisoned.resolve 0 x.1 a 8 true true) x.2 = true ∧ poisoned.poisonHome x.2 8 = true)
    ∧ (let a := atTile1.amoAddr { anyAmo with data := 0 }
       a % 8 = 0 ∧ resolves (atTile1.resolve 0 2 a 8 true true) (.tile 1 0) = true ∧ atTile1.poisonHome (.tile 1 0) 8 = true)
    ∧ (s0.nx 9 % 16 = 0 ∧ s0.nx 7 % 16 = 0 ∧ fails (s0.resolve 0 0 (s0.nx 9) 16 true true) (0x06, 2) = true
      ∧ fails (s0.resolve 0 1 (s0.nx 7) 16 true true) (0x04, 0) = true ∧ s0.rangeOk 0 1 (s0.nx 7) 16 = false
      ∧ fails (s0.resolve 0 0 (s0.nx 7) 16 true false) (0x06, 0) = true ∧ fails (s0.resolve 0 1 (s0.nx 7) 16 true false) (0x04, 0) = true)
    ∧ (∀ x ∈ [(0, Home.dev 0x1000), (1, .tile 0 0x1000)], poisoned.nx 1 % 16 = 0 ∧ resolves (poisoned.resolve 0 x.1 0x1000 16 true true) x.2 = true
       ∧ poisoned.poisonHome x.2 16 = true ∧ poisoned.me.mayRead x.1 0x1000 16 = true ∧ resolves (poisoned.resolve 0 x.1 0x1000 16 true false) x.2 = true
       ∧ poisoned.poisonRead x.2 16 = true)
    ∧ (s0.nx 7 % 32 = 0 ∧ s0.rangeOk 0 1 (s0.nx 7) 32 = false) := by decide +kernel

/-- Homes of an access with their spaces: device, staging, own tile. -/
def someHomes : List (Nat × Home) := [(0, .dev 0x1000), (5, .staging 0 0x1000), (1, .tile 0 0x1000)]

theorem witness_LoadsReadTheirBytesAndFillTheirRegister_homes :
    (∀ x ∈ someHomes, ∀ home ∈ [none, some x.2], let a := { someAccess with space := x.1, home := home }
     let s := withAccess a
     (s.ctx 0 0).outs.find? (fun b => b.id == 4) = some a ∧ (s.ctx 0 0).mayPerform a = true ∧ s.quarterBusy 0 a = false ∧ s.homeOf 0 a = some x.2
      ∧ s.cached (dieOf 0) (s.partId 0) a.addr = none ∧ x.2.isReserve = false ∧ x.2.isLost = false ∧ s.poisonHome x.2 8 = false ∧ poisoned.poisonHome x.2 8 = decide (x.1 ≠ 5))
    ∧ (let a := { someAccess with space := 0, addr := 0x300000 }
       let s := withAccess a
       a.home = none ∧ fails (s.resolve 0 0 a.addr 8 true false) (0x06, 0) = true ∧ s.cached (dieOf 0) (s.partId 0) a.addr = none)
    ∧ (∀ x ∈ someHomes, ∀ a ∈ [{ someAccess with wop := .b128, size := 16 }, { someAccess with kind := .patld, size := 32, dst := .p 1 }],
        let b := { a with space := x.1, home := some x.2 }
        let s := withAccess b
        (s.ctx 0 0).mayPerform b = true ∧ s.quarterBusy 0 b = false ∧ (∀ k, k < b.parts → s.poisonHome (x.2.plus (8 * k)) 8 = false) ∧ mfind 0 b.got = none)
    ∧ (∀ e ∈ s0.parts, e.2.job = none) := by decide +kernel
theorem witness_LoadsReadTheirBytesAndFillTheirRegister_cache : ∀ sp home, (withAccess { someAccess with space := sp, home := home }).CacheAgrees 0 { someAccess with space := sp, home := home } :=
  fun _ _ _ _ _ h => (by cases h)

theorem witness_AtomicsReadAndWriteInOneStep_homes :
    (∀ x ∈ someHomes, ∀ dst ∈ [Dst.x 10, .none], let a := { someAccess with kind := .amo, space := x.1, home := some x.2, dst := dst }
     let s := withAccess a
     (s.ctx 0 0).outs.find? (fun b => b.id == 4) = some a ∧ (s.ctx 0 0).mayPerform a = true ∧ s.quarterBusy 0 a = false ∧ s.homeOf 0 a = some x.2
      ∧ x.2.isAcc = false ∧ x.2.isReserve = false ∧ x.2.isLost = false ∧ s.dropsPosted (s.partId 0) a = false ∧ s.poisonHome x.2 8 = false)
    ∧ (let a := { someAccess with kind := .amo, space := 0, home := some (.dev 0x1000), dst := .none }
       let s := (withAccess a).modTile 0 fun tl => { tl with cancels := [0xFFFF] }
       a.dst = .none ∧ s.dropsPosted (s.partId 0) a = true ∧ (s.ctx 0 0).mayPerform a = true) := by decide +kernel

theorem witness_CaddAddsToValueAndKeepsTheStatus_homes : ∀ x ∈ someHomes, ∀ k ∈ [AKind.cadd, .cread], let a := { someAccess with kind := k, size := 16, space := x.1, home := some x.2 }
    let s := withAccess a
    (s.ctx 0 0).outs.find? (fun b => b.id == 4) = some a ∧ (s.ctx 0 0).mayPerform a = true ∧ s.quarterBusy 0 a = false ∧ s.homeOf 0 a = some x.2
      ∧ x.2.isAcc = false ∧ x.2.isReserve = false ∧ x.2.isLost = false ∧ s.poisonHome x.2 16 = false := by decide +kernel

/-- A pattern register with a reserved format, one with a reserved space. -/
def badPats : State := withPats.modMe fun c => { c with regs := { c.regs with p := [(0, pat 0x1000 1 0x1E 4), (1, pat 0x1000 7 4 4)] } }

theorem noneFails_nil : ∀ x ∈ ([] : List IssueCheck), ¬ x.1 := by simp
theorem noneFails_cons {c : Prop} {f : Nat × Nat × Nat} {l : List IssueCheck} (h : ¬ c) (t : ∀ x ∈ l, ¬ x.1) : ∀ x ∈ (c, f) :: l, ¬ x.1 := by
  simpa using ⟨h, fun a b d e => t (a, b, d, e)⟩

theorem witness_TransferCommandsEnterTheirQueueOrAreRefused_checks :
    (badPats.CanTrap ∧ withPats.CanTrap)
    ∧ FirstFails (badPats.streamChecks .sIn (qargs 0 0 0 false)) (0x02, 0, 0) ∧ FirstFails (badPats.streamChecks .sOut (qargs 1 0 0 false)) (0x04, 0, 1)
    ∧ FirstFails (badPats.copyChecks .copy (qargs 0 1 0 false)) (0x02, 0, 0)
    ∧ FirstFails (s0.ctrChecks (some (1, s0.nx 6))) (0x05, 0x1001, 0) ∧ FirstFails (s0.ctrChecks (some (1, s0.nx 7))) (0x04, 0x300000, 0)
    ∧ FirstFails (s0.ctrChecks (some (0, s0.nx 9))) (0x06, 0x10000, 0) :=
  ⟨⟨⟨by decide, by decide, by decide⟩, by decide, by decide, by decide⟩,
   ⟨[], _, _, rfl, .inl (.inr (.inl (by decide))), by simp⟩,
   ⟨[_, _], _, _, rfl, by decide +kernel,
     noneFails_cons (by unfold Pat.Refused; decide +kernel) (noneFails_cons (fun h => by cases h.1) noneFails_nil)⟩,
   ⟨[], _, _, rfl, .inr (.inl (by decide)), by simp⟩,
   ⟨[], _, _, rfl, by decide, by simp⟩, ⟨[_], _, _, rfl, by decide, noneFails_cons (by decide) noneFails_nil⟩, ⟨[_, _], _, _, rfl, ⟨2, rfl⟩,
     noneFails_cons (by decide) (noneFails_cons (by decide) noneFails_nil)⟩⟩
theorem witness_TransferCommandsEnterTheirQueueOrAreRefused_pass :
    PassAll (withPats.streamChecks .sIn (qargs 0 0 0 false)) ∧ PassAll (withPats.copyChecks .copy (qargs 0 1 0 false))
      ∧ PassAll (s0.ctrChecks (some (1, s0.nx 1))) :=
  ⟨noneFails_cons (by unfold Pat.Refused; decide +kernel) (noneFails_cons (fun h => by cases h.1) (noneFails_cons (by decide +kernel) (noneFails_cons (by decide)
      (noneFails_cons (by decide +kernel) (noneFails_cons (by decide) noneFails_nil))))),
   noneFails_cons (by unfold Pat.Refused; decide +kernel) (noneFails_cons (by unfold Pat.Refused; decide +kernel) (noneFails_cons (by decide +kernel)
      (noneFails_cons (by decide +kernel) (noneFails_cons (by decide +kernel) (noneFails_cons (by decide +kernel)
        (noneFails_cons (by unfold PairAllowed ReduceAllowed; decide +kernel) (noneFails_cons (by decide) noneFails_nil))))))),
   noneFails_cons (by decide) (noneFails_cons (by decide) (noneFails_cons (fun h => h.elim fun _ e => (by cases e)) noneFails_nil))⟩

/-- The module with 64 bytes at 0x1000 of device memory: a launch descriptor of the partition that withDesc has. -/
def descAt (v : Nat) : State := { withDesc with dev := s0.dev.write 0x1000 64 v }
/-- Root [16, 16] and one tile. -/
def desc0 : Nat := 0x100010 * 2 ^ 224 + 2 ^ 212

theorem witness_LaunchAndCancelAreAccepted_traps :
    (s0.nx 6 % 64 ≠ 0 ∧ s0.nx 7 % 64 = 0 ∧ fails (s0.resolve 0 0 (s0.nx 7) 64 true false) (0x06, 0) = true)
    ∧ (poisoned.nx 1 % 64 = 0 ∧ resolves (poisoned.resolve 0 0 (poisoned.nx 1) 64 true false) (.dev 0x1000) = true ∧ poisoned.poisonRead (.dev 0x1000) 64 = true)
    ∧ (∀ v ∈ [desc0 + 2 ^ 256, desc0 + 2 ^ 128, desc0 + 0x10000 * 2 ^ 256, desc0 + 0x10000 * 2 ^ 128, desc0 + 1, 0x3 * 2 ^ 224 + 2 ^ 212, desc0],
       let s := descAt v
       s.me.trap = false ∧ (s.trapBaseOf 0 0).toNat % 8 = 0 ∧ (s.trapBaseOf 0 0).toNat < 0x300000 ∧ resolves (s.resolve 0 0 (s.nx 1) 64 true false) (.dev 0x1000) = true ∧ s.poisonRead (.dev 0x1000) 64 = false ∧ s.readHome (.dev 0x1000) 64 = v)
    ∧ (∀ v ∈ [desc0 + 2 ^ 256, desc0 + 2 ^ 128], (descOf v).endAddr % 32 ≠ 0 ∨ (descOf v).ctr % 16 ≠ 0)
    ∧ (let d := descOf (desc0 + 0x10000 * 2 ^ 256)
       d.endAddr = 0x10000 ∧ d.ctr % 16 = 0 ∧ fails (withDesc.writable 0 (ioDie 0) d.endAddr 32) (0x06, 2) = true)
    ∧ (let d := descOf (desc0 + 0x10000 * 2 ^ 128)
       d.endAddr = 0 ∧ d.ctr = 0x10000 ∧ fails (withDesc.writable 0 (ioDie 0) d.ctr 16) (0x06, 2) = true)
    ∧ ((descOf (desc0 + 1)).zeroBad = true ∧ (descAt 0).rootTaken 0 (descOf (0x3 * 2 ^ 224 + 2 ^ 212)).root = true)
    ∧ (let d := descOf desc0
       ¬ (d.zeroBad = true ∨ d.nvt = 0 ∨ 3072 < d.nvt ∨ 24 ≤ d.pri ∨ scValid d.root = false ∨ (descAt desc0).rootTaken 0 d.root = true)
        ∧ ((descAt desc0).launchQuote 0 (ioDie 0) d).isSome = true ∧ (descAt desc0).me.quoteLim = 0 ∧ d.nvt ≤ (descAt desc0).unreserved 0
        ∧ ((descAt desc0).modLaunch 0 fun l => { l with st := .admitted, nvt := 4000 }).unreserved 0 < d.nvt)
    ∧ (s0.nx 6 % 32 ≠ 0 ∧ s0.nx 9 % 32 = 0 ∧ fails (s0.resolve 0 0 (s0.nx 9) 32 false true) (0x06, 2) = true) := by
  decide +kernel
/-- The status of an instance that has computed 9 beats, numbered n. -/
def status (n : Nat) : BStat := ⟨9, false, false, true, 1, 2, 3, 4, 0, n⟩
theorem witness_RegionConfigurationInstructions_status :
    (let s := on fun c => { c with bstat := [(0, status 1), (1, status 2)] }
     (s.me.bstat.filter fun e => bit 3 e.1) = [(0, status 1), (1, status 2)] ∧ (status 1).no < (status 2).no
      ∧ (s.me.bstat.filter fun e => bit 1 e.1) = [(0, status 1)] ∧ (s.me.bstat.filter fun e => bit 8 e.1) = [])
    ∧ (let s := onTile fun tl => { tl with shadow := [(3, 0xFFF)], live := [(0, 0xFFF), (1, 0xFFF)] }
       (s.myTile.shadowOf 3).getD 0 < 2 ^ 12 ∧ s.myTile.liveOf 3 = some 0xFFF)
    ∧ (s0.me.statusOf 1).i0 < 2 ^ 20 := by decide

theorem witness_InstructionsWriteNoMemoryAndNoOtherTile_records : readsRecord (.cwait false 10 1 3) = true ∧ readsRecord (.launch 1 10) = true
    ∧ (∀ e ∈ withDesc.parts, e.2.job = none) ∧ (∃ t, exec (.cwait false 10 1 3) withDesc = .next t ∧ t.clasp.log = withDesc.clasp.log) :=
  ⟨rfl, rfl, by decide, _, rfl, rfl⟩

/-- A read or write of an element succeeds; all of a list do, one after the other. -/
def reads (s : State) (e : QEntry) (p : Pat) (j : Nat) : Bool := match s.readElem (e.via 0) 0 p j with | .ok _ => true | .error _ => false
def writes (s : State) (e : QEntry) (p : Pat) (j : Nat) : Bool := match s.writeElem (e.via 0) 0 p j 5 false with | .ok _ => true | .error _ => false
theorem writesAll_of (s : State) (v : Via) (t k x : Nat) (psn : Bool) (a b : Pat) (u w : State) (h : s.writeElem v t a k x psn = .ok u)
    (g : u.writeElem v t b k x psn = .ok w) : s.WritesAll v t k x psn [a, b] w := ⟨u, h, w, g, rfl⟩

theorem witness_CopiesStartAndMove_elements :
    (∀ e ∈ [entry0, { entry0 with pb := (pat 0x2000 1 0x0D 4).toNat }, { entry0 with kind := .rcopy }], e.patA.space ≠ 4 ∧ e.old = []
      ∧ copyDiv e.patA e.patB = 1 ∧ e.inv = false ∧ reads s0 e e.patA 3 = true ∧ reads s0 e e.patB 3 = true ∧ writes s0 e e.patB 3 = true)
    ∧ entry0.patA.fmt ≠ { entry0 with pb := (pat 0x2000 1 0x0D 4).toNat }.patB.fmt
    ∧ (let e := { entry0 with pa := (pat 0x1000 1 0x0D 64).toNat, pb := (pat 0x2000 1 0x18 2).toNat }
       copyDiv e.patA e.patB = 32 ∧ e.patB.space ≠ 4 ∧ e.old = [] ∧ (∀ k, k < 32 → reads s0 e e.patA (32 * 1 + k) = true) ∧ writes s0 e e.patB 1 = true)
    ∧ (let e := { entry0 with pa := (pat 0x300000 1 4 4).toNat, pb := (pat 0x300000 1 4 4).toNat }
       copyDiv e.patA e.patB = 1 ∧ reads s0 e e.patA 3 = false ∧ writes s0 e e.patB 3 = false)
    ∧ (let e := { entry0 with kind := .mcopy, members := [0, 1], pb := (pat 0x2000 2 4 4).toNat }
       e.patB.space = 2 ∧ (e.members.map fun m => { e.patB with base := e.patB.base + m * 2 ^ 22 }).all (fun p => writes s0 e p 3) = true)
    ∧ (let p := entry0.patA
       p.space = 1 ∧ (match p.place 3 with | .ok x => x == (0x100C, 4, 0) | .error _ => false) = true ∧ p.width = 8 * 4 ∧ 0x100C + 4 ≤ 0x300000)
    ∧ (reads (s0.modTile 0 fun tl => { tl with store := tl.store.addPoison 0x1000 32 }) entry0 entry0.patA 3 = true)
    ∧ (5 < 2 ^ fmtWidth 0x0D ∧ 5 < 2 ^ fmtWidth 4) := by decide +kernel

theorem witness_TransfersRetireWithTheirContribution_record : let e := { entry0 with st := QSt.finished, ctr := some (0, 0x2000) }
    let s := inQueue [e]
    ((s.tile 0).queue 3).entries.find? (fun e => !e.kind.isGate) = some e ∧ e.owesEnd = false ∧ s.farRecord 0 e = none
      ∧ resolves (s.resolve 0 0 0x2000 16 true true) (.dev 0x2000) = true ∧ s.poisonRead (.dev 0x2000) 16 = false ∧ (∀ x ∈ s.parts, x.2.job = none) := by
  decide +kernel

theorem witness_LaunchesAreAdmittedPlacedAndEnded_submitted :
    (withDesc.windowsOpen (bits (desc0 + 2 ^ 608) 613 608) = false ∧ withDesc.windowsOpen (bits desc0 613 608) = true)
    ∧ (bit (desc0 + 2 ^ 614) 614 = true ∧ bit desc0 614 = false ∧ bit desc0 512 = false)
    ∧ (let d := descOf (0x3 * 2 ^ 224 + 2 ^ 212)
       d.endAddr = 0 ∧ d.ctr = 0 ∧ withDesc.rootTaken 0 d.root = true ∧ withDesc.descFault 0 (ioDie 0) d = some (2, 0))
    ∧ (let d := descOf desc0
       withDesc.descFault 0 (ioDie 0) d = none ∧ (withDesc.launchQuote 0 (ioDie 0) d).any (fun n => decide (1 < n)) = true ∧ d.nvt ≤ withDesc.unreserved 0
        ∧ (withDesc.part 0).sched.map (·.hqlim) = some 0 ∧ bits desc0 575 512 = 0 ∧ bits (desc0 + 2 ^ 512) 575 512 = 1
        ∧ (let s := withDesc.modPart 0 fun q => { q with sched := some ⟨0, [], 96, 96, 1, false, true, 1⟩ }
           (s.part 0).sched.map (·.hqlim) = some 1 ∧ (s.launchQuote 0 (ioDie 0) d).any (fun n => decide (1 < n)) = true)
        ∧ (withDesc.modLaunch 0 fun l => { l with st := .admitted, nvt := 4000 }).unreserved 0 < d.nvt) := by decide +kernel

end Sys2Proof.Tests
end

section
/-! Every step keeps the byte stores in canonical form: one lemma per function of the model that answers a state, a tile or a race cycle
(`Memory.wf_…`, `Tile.bytesWf_…`, `Cyc.wf_…`), one per instruction and hardware step (`canonical_exec…`), in the order of the model. -/

namespace Sys2Proof.Machine

/-- An outcome whose next state, if it answers one, has its memories in canonical form. -/
def Out.Canonical (o : Out) : Prop := ∀ u, o = .next u → Memory.wf u = true

theorem Out.canonical_next {s : State} (h : Memory.wf s = true) : Out.Canonical (.next s) := fun _ e => by cases e; exact h

/-- A state with the same tiles, dies, partitions, device and host memory, and Clasp. -/
theorem Memory.wf_update {s : State} {links launches nextLid pubs arrivals releases cancels nextCancel foldCycle foldLclk powered agenda cur free}
    (h : Memory.wf s = true) : Memory.wf ⟨s.tiles, s.dies, links, s.parts, launches, nextLid, s.dev, s.host, pubs, arrivals, releases, cancels,
      nextCancel, s.clasp, foldCycle, foldLclk, powered, agenda, cur, free⟩ = true := h

theorem Memory.wf_modMyTile {s : State} {f : Tile → Tile} (h : Memory.wf s = true)
    (hf : (s.tile s.cur.1).bytesWf = true → (f (s.tile s.cur.1)).bytesWf = true) :
    Memory.wf (s.modMyTile f) = true := Memory.wf_modTile h hf

theorem Tile.bytesWf_reset : Tile.reset.bytesWf = true := rfl

theorem Tile.bytesWf_of {a b : Tile} (h : a.bytesWf = true) (h1 : b.store = a.store) (h2 : b.acc = a.acc) : b.bytesWf = true :=
  Tile.bytesWf_same h1 h2 h

/-- A tile whose store alone is another. -/
theorem Tile.bytesWf_setStore {a b : Tile} (h : a.bytesWf = true) (h1 : b.acc = a.acc) (hs : b.store.wf = true) : b.bytesWf = true := by
  simp only [Tile.bytesWf, Bool.and_eq_true] at h ⊢
  exact ⟨hs, h1 ▸ h.2⟩

theorem Tile.wf_store {tl : Tile} (h : tl.bytesWf = true) : tl.store.wf = true := by
  simp only [Tile.bytesWf, Bool.and_eq_true] at h
  exact h.1

theorem Partition.bytesWf_of {a b : Partition} (h : a.bytesWf = true) (h1 : b.saved = a.saved) : b.bytesWf = true := by
  unfold Partition.bytesWf at h ⊢
  rw [h1]
  exact h

/-- Every die is updated, and keeps its staging memory. -/
theorem Memory.wf_mapDies {s : State} {f : Nat × Die → Nat × Die} (h : Memory.wf s = true) (hf : ∀ x, (f x).2.staging = x.2.staging) :
    Memory.wf { s with dies := s.dies.map f } = true := by
  obtain ⟨hdev, htiles, hdies, hrest⟩ := (Memory.wf_iff s).1 h
  refine (Memory.wf_iff _).2 ⟨hdev, htiles, fun e he => ?_, hrest⟩
  obtain ⟨x, hx, rfl⟩ := List.mem_map.1 he
  exact (hf x).symm ▸ hdies x hx

theorem Memory.wf_setDev {s : State} {m : Store} (h : Memory.wf s = true) (hm : m.wf = true) : Memory.wf { s with dev := m } = true :=
  (Memory.wf_iff _).2 ⟨hm, ((Memory.wf_iff s).1 h).2⟩

theorem Store.wf_filter {m : Store} {p : Host.Cell → Bool} {l : List Nat} (h : m.wf = true) : Store.wf ⟨m.bytes.filter p, l⟩ = true :=
  cellsWf_filter _ _ h

theorem Memory.wf_modTileOf {s : State} {p t : Nat} {f : Tile → Tile} (h : Memory.wf s = true)
    (hf : ∀ tl : Tile, tl.bytesWf = true → (f tl).bytesWf = true) :
    Memory.wf (s.modTileOf p t f) = true := by
  unfold State.modTileOf
  split
  · refine Memory.wf_modPart h fun hp => ?_
    have hs := List.all_eq_true.1 hp
    have ht := mget_of_all (P := fun tl : Tile => tl.bytesWf = true) Tile.bytesWf_reset hs t
    exact List.all_eq_true.2 (all_mput (P := fun tl : Tile => tl.bytesWf = true) hs (hf _ ht))
  · exact Memory.wf_modTile h (hf _)

/-- A fold over states with a count beside them. -/
theorem Memory.wf_foldl_fst {α β : Type} {f : State × β → α → State × β}
    (hf : ∀ x a, Memory.wf x.1 = true → Memory.wf (f x a).1 = true) (l : List α) (x : State × β) (h : Memory.wf x.1 = true) :
    Memory.wf (l.foldl f x).1 = true :=
  List.foldlRecOn (motive := fun x : State × β => Memory.wf x.1 = true) l f h fun x hx a _ => hf x a hx

theorem Tile.bytesWf_foldl_fst {α β : Type} {f : Tile × β → α → Tile × β}
    (hf : ∀ x a, x.1.bytesWf = true → (f x a).1.bytesWf = true) (l : List α) (x : Tile × β) (h : x.1.bytesWf = true) :
    (l.foldl f x).1.bytesWf = true :=
  List.foldlRecOn (motive := fun x : Tile × β => x.1.bytesWf = true) l f h fun x hx a _ => hf x a hx

theorem Cyc.wf_foldl {α : Type} {f : Cyc → α → Cyc} (hf : ∀ c a, Memory.wf c.s = true → Memory.wf (f c a).s = true) (l : List α) (c : Cyc)
    (h : Memory.wf c.s = true) :
    Memory.wf (l.foldl f c).s = true :=
  List.foldlRecOn (motive := fun c : Cyc => Memory.wf c.s = true) l f h fun c hc a _ => hf c a hc

/-! Either branch of a choice. -/

theorem Memory.wf_ite {c : Prop} {_ : Decidable c} {s u : State} (hs : Memory.wf s = true) (hu : Memory.wf u = true) :
    Memory.wf (if c then s else u) = true := by
  split
  · exact hs
  · exact hu

theorem Tile.bytesWf_ite {c : Prop} {_ : Decidable c} {a b : Tile} (ha : a.bytesWf = true) (hb : b.bytesWf = true) :
    (if c then a else b).bytesWf = true := by
  split
  · exact ha
  · exact hb

theorem Cyc.wf_ite {c : Prop} {_ : Decidable c} {a b : Cyc} (ha : Memory.wf a.s = true) (hb : Memory.wf b.s = true) :
    Memory.wf (if c then a else b).s = true := by
  split
  · exact ha
  · exact hb

theorem Out.canonical_ite {c : Prop} {_ : Decidable c} {a b : Out} (ha : Out.Canonical a) (hb : Out.Canonical b) :
    Out.Canonical (if c then a else b) := by
  split
  · exact ha
  · exact hb

/-! The state's operations (Machine/Ops). -/

theorem Memory.wf_modLink {s : State} {k : Nat} {f : Link → Link} (h : Memory.wf s = true) : Memory.wf (s.modLink k f) = true := Memory.wf_update h

theorem Memory.wf_modGroup {s : State} {l g : Nat} {f : Group → Group} (h : Memory.wf s = true) : Memory.wf (s.modGroup l g f) = true :=
  Memory.wf_modLaunch h

theorem Memory.wf_setX {s : State} {r : Nat} {v : Word} (h : Memory.wf s = true) : Memory.wf (s.setX r v) = true := Memory.wf_modMe h

theorem Memory.wf_setF {s : State} {r : Nat} {v : Word} (h : Memory.wf s = true) : Memory.wf (s.setF r v) = true := Memory.wf_modMe h

theorem Memory.wf_setB {s : State} {r : Nat} {v : Bool} (h : Memory.wf s = true) : Memory.wf (s.setB r v) = true := Memory.wf_modMe h

theorem Memory.wf_setP {s : State} {r : Nat} {v : BitVec 256} (h : Memory.wf s = true) : Memory.wf (s.setP r v) = true := Memory.wf_modMe h

theorem Memory.wf_setPc {s : State} {v : Word} (h : Memory.wf s = true) : Memory.wf (s.setPc v) = true := Memory.wf_modMe h

theorem Memory.wf_advance {s : State} (h : Memory.wf s = true) : Memory.wf (s.advance) = true := Memory.wf_setPc h

theorem Memory.wf_advanceBy {s : State} {n : Nat} (h : Memory.wf s = true) : Memory.wf (s.advanceBy n) = true := Memory.wf_setPc h

theorem Memory.wf_completePhase {s : State} {l g : Nat} (h : Memory.wf s = true) : Memory.wf (s.completePhase l g) = true :=
  Memory.wf_update (Memory.wf_modGroup h)

theorem Memory.wf_checkPhase {s : State} {l g : Nat} (h : Memory.wf s = true) : Memory.wf (s.checkPhase l g) = true :=
  Memory.wf_ite (Memory.wf_completePhase h) h

theorem Memory.wf_withdraw {s : State} {k : Task} (h : Memory.wf s = true) : Memory.wf (s.withdraw k) = true := by
  unfold State.withdraw
  refine Memory.wf_foldl (fun _ _ hu => ?_) _ _ h
  dsimp only
  split
  · exact hu
  · split
    · exact Memory.wf_modGroup (Memory.wf_completePhase (Memory.wf_modGroup hu))
    · exact Memory.wf_checkPhase (Memory.wf_modGroup hu)

theorem Tile.bytesWf_count {tl : Tile} {hit : Nat → Bool} {f : Reg → Reg} (h : tl.bytesWf = true) : (tl.count hit f).bytesWf = true := by
  unfold Tile.count
  split <;> exact h

theorem Tile.bytesWf_cancelEntries {tl : Tile} {which : QEntry → Bool} (h : tl.bytesWf = true) : (tl.cancelEntries which).1.bytesWf = true :=
  Tile.bytesWf_of h (Tile.bytes_cancelEntries _ _).1 (Tile.bytes_cancelEntries _ _).2

theorem Tile.bytesWf_clearNodes {tl : Tile} {qmask : Nat} (h : tl.bytesWf = true) : (tl.clearNodes qmask).bytesWf = true := by
  simp only [Tile.bytesWf, Bool.and_eq_true] at h ⊢
  exact ⟨h.1, cellsWf_filter _ _ h.2⟩

theorem Tile.bytesWf_modInst {tl : Tile} {qmask : Nat} {f : Inst → Inst} (h : tl.bytesWf = true) : (tl.modInst qmask f).bytesWf = true := h

theorem Tile.bytesWf_modCtxInst {tl : Tile} {qmask c : Nat} {f : Inst → Inst} (h : tl.bytesWf = true) : (tl.modCtxInst qmask c f).bytesWf = true :=
  h

theorem Tile.bytesWf_keepOnly {tl : Tile} {qmask : Nat} {i : Inst} (h : tl.bytesWf = true) : (tl.keepOnly qmask i).bytesWf = true := by
  unfold Tile.keepOnly
  refine Tile.bytesWf_of (Tile.bytesWf_foldl (f := fun tl (r : Run) => tl.setAside r.insts.tail) (fun tl r ht => ?_) _ _ h) rfl rfl
  exact Tile.bytesWf_setAside _ _ ht

theorem Memory.wf_countKill {s : State} {t c scope : Nat} (h : Memory.wf s = true) : Memory.wf (s.countKill t c scope) = true := by
  unfold State.countKill
  split
  · exact Memory.wf_modTile h fun ht => Tile.bytesWf_count ht
  · split
    · exact Memory.wf_update h
    · exact h

theorem Memory.wf_killTask {s : State} {t c : Nat} (h : Memory.wf s = true) : Memory.wf (s.killTask t c) = true := by
  unfold State.killTask
  split
  · exact h
  · exact Memory.wf_modCtx (Memory.wf_countKill (Memory.wf_withdraw (Memory.wf_leaveBlocks _ _ h)))

theorem Memory.wf_leaveTrap {s : State} {target : Word} {drop : Bool} (h : Memory.wf s = true) : Memory.wf (s.leaveTrap target drop) = true :=
  Memory.wf_modMe (Memory.wf_ite (Memory.wf_discardCont _ _ h) h)

theorem Memory.wf_takeFree {s : State} (h : Memory.wf s = true) : Memory.wf (s.takeFree).2 = true := Memory.wf_update h

/-! Flags (Machine/Flags). -/

theorem Memory.wf_setFlags {s : State} {e : Exc} {lat : Nat} (h : Memory.wf s = true) : Memory.wf (s.setFlags e lat) = true :=
  Memory.wf_modMe h

/-! Operands (Machine/Operands). -/

theorem Memory.wf_putFloat {s : State} {f : FFmt} {rm : Rm} {d : Nat} {x : Num} {e : Exc} {lat : Nat} (h : Memory.wf s = true) :
    Memory.wf (s.putFloat f rm d x e lat) = true :=
  Memory.wf_setFlags (Memory.wf_setF h)

/-! Branches (Machine/Branch). -/

theorem canonical_execBc {c : BCond} {woff : Nat} {s : State} (h : Memory.wf s = true) : Out.Canonical (execBc c woff s) :=
  Out.canonical_next (Memory.wf_ite (Memory.wf_setPc h) (Memory.wf_advance h))

theorem canonical_execJmp {woff : Nat} {s : State} (h : Memory.wf s = true) : Out.Canonical (execJmp woff s) :=
  Out.canonical_next (Memory.wf_setPc h)

theorem canonical_execCall {link woff : Nat} {s : State} (h : Memory.wf s = true) : Out.Canonical (execCall link woff s) :=
  Out.canonical_next (Memory.wf_setPc (Memory.wf_setX h))

theorem canonical_execJmpx {link a : Nat} {s : State} (h : Memory.wf s = true) : Out.Canonical (execJmpx link a s) :=
  Out.canonical_next (Memory.wf_setPc (Memory.wf_setX h))

theorem canonical_execRet {a : Nat} {s : State} (h : Memory.wf s = true) : Out.Canonical (execRet a s) := Out.canonical_next (Memory.wf_setPc h)

theorem canonical_execLoop {a woff : Nat} {s : State} (h : Memory.wf s = true) : Out.Canonical (execLoop a woff s) :=
  Out.canonical_next (Memory.wf_ite (Memory.wf_setPc (Memory.wf_setX h)) (Memory.wf_advance (Memory.wf_setX h)))

/-! Patterns (Machine/Patterns). -/

theorem Memory.wf_writeSegs {s : State} {l : List (Home × Nat)} {b : List Byte} (h : Memory.wf s = true) : Memory.wf (s.writeSegs l b) = true := by
  induction l generalizing s b with
  | nil => exact h
  | cons x t ih => exact ih (Memory.wf_writeHomeList _ _ h)

theorem Memory.wf_poisonSegs {s : State} {l : List (Home × Nat)} (h : Memory.wf s = true) : Memory.wf (s.poisonSegs l) = true :=
  Memory.wf_foldl (fun _ _ hu => Memory.wf_poisonAt _ _ hu) _ _ h

theorem Memory.wf_putElem {s : State} {l : List (Home × Nat)} {sh w v : Nat} {psn : Bool} (h : Memory.wf s = true) :
    Memory.wf (s.putElem l sh w v psn) = true :=
  Memory.wf_ite (Memory.wf_poisonSegs (Memory.wf_writeSegs h)) (Memory.wf_writeSegs h)

/-- What a mapped answer that is no error comes from. -/
theorem Except.map_eq_ok {ε α β : Type} {f : α → β} {x : Except ε α} {y : β} (h : x.map f = .ok y) : ∃ a, x = .ok a ∧ f a = y := by
  cases x with
  | error e => cases h
  | ok a => cases h; exact ⟨a, rfl, rfl⟩

theorem Memory.wf_writeElem {s u : State} {v : Via} {t : Nat} {p : Pat} {j x : Nat} {psn : Bool} (h : Memory.wf s = true)
    (e : s.writeElem v t p j x psn = .ok u) : Memory.wf u = true := by
  obtain ⟨y, _, rfl⟩ := Except.map_eq_ok e
  exact Memory.wf_putElem h

/-! The issue of commands and accesses (Machine/Issue). -/

theorem Memory.wf_inFlight {s : State} {i : Instr} (h : Memory.wf s = true) : Memory.wf (s.inFlight i) = true := Memory.wf_modMe h

theorem Memory.wf_waitPoint {s k : State} (h : Memory.wf s = true) (h2 : Memory.wf k = true) : Memory.wf (s.waitPoint k) = true :=
  Memory.wf_ite (Memory.wf_killTask h) h2

theorem Memory.wf_issued {s : State} (h : Memory.wf s = true) : Memory.wf (s.issued) = true := Memory.wf_modMe h

/-! Budgets (Machine/Budget). -/

theorem Memory.wf_work {s : State} {t cls n : Nat} {exempt : Bool} (h : Memory.wf s = true) : Memory.wf (s.work t cls n exempt) = true := by
  unfold State.work
  dsimp only
  split
  · exact Memory.wf_ite h (Memory.wf_modTile h fun ht => ht)
  · exact Memory.wf_meter _ _ _ (Memory.wf_ite h (Memory.wf_modTile h fun ht => ht))

theorem Memory.wf_chargeIssue {s : State} {i : Instr} (h : Memory.wf s = true) : Memory.wf (s.chargeIssue i) = true :=
  Memory.wf_work (Memory.wf_modMyTile (Memory.wf_inFlight h) fun ht => ht)

/-! Accesses to memory (Machine/Memory). -/

theorem Memory.wf_push {s : State} {a : Access} (h : Memory.wf s = true) : Memory.wf (s.push a) = true :=
  Memory.wf_modMe (Memory.wf_modMyTile h fun ht => ht)

theorem Memory.wf_denied {s : State} {die p cause va : Nat} (h : Memory.wf s = true) : Memory.wf (s.denied die p cause va) = true :=
  Memory.wf_ite (Memory.wf_fillCache _ _ _ _ _ h) h

theorem Memory.wf_missed {s : State} {cause va : Nat} {rd wr : Bool} (h : Memory.wf s = true) : Memory.wf (s.missed cause va rd wr) = true :=
  Memory.wf_ite (Memory.wf_fillCache _ _ _ _ _ h) h

theorem Memory.wf_trapOn {s : State} {f : Nat × Nat × Nat} (h : Memory.wf s = true) : Memory.wf (s.trapOn f) = true :=
  Memory.wf_trapNow _ _ _ (Memory.wf_missed h)

/-! Loads and stores (Machine/LoadStore). -/

theorem Memory.wf_load {s : State} {space : Nat} {m : MemArgs} (h : Memory.wf s = true) : Memory.wf (s.load space m) = true := by
  unfold State.load
  dsimp only
  split
  · exact Memory.wf_trapNow _ _ _ h
  · exact Memory.wf_ite (Memory.wf_trapNow _ _ _ h) (Memory.wf_advance (Memory.wf_push h))

theorem Memory.wf_store {s : State} {space : Nat} {m : MemArgs} (h : Memory.wf s = true) : Memory.wf (s.store space m) = true := by
  unfold State.store
  dsimp only
  split
  · exact Memory.wf_trapNow _ _ _ h
  · split
    · exact Memory.wf_trapNow _ _ _ (Memory.wf_missed h)
    · exact Memory.wf_advance (Memory.wf_push h)

theorem Memory.wf_enqueueRemote {s : State} {dst : Nat} {rel : Bool} {flits : List Flit} {acc : Nat} (h : Memory.wf s = true) :
    Memory.wf (s.enqueueRemote dst rel flits acc) = true :=
  Memory.wf_modMyTile h fun ht => ht

theorem Memory.wf_storeRemote {s : State} {m : MemArgs} (h : Memory.wf s = true) : Memory.wf (s.storeRemote m) = true := by
  unfold State.storeRemote
  dsimp only
  split
  · exact Memory.wf_trapNow _ _ _ h
  · split
    · exact Memory.wf_trapNow _ _ _ h
    · exact Memory.wf_advance (Memory.wf_enqueueRemote (Memory.wf_push h))
    · exact Memory.wf_trapNow _ _ _ h

theorem canonical_execLdg {m : MemArgs} {s : State} (h : Memory.wf s = true) : Out.Canonical (execLdg m s) := Out.canonical_next (Memory.wf_load h)

theorem canonical_execStg {m : MemArgs} {s : State} (h : Memory.wf s = true) : Out.Canonical (execStg m s) := Out.canonical_next (Memory.wf_store h)

theorem canonical_execLdl {m : MemArgs} {s : State} (h : Memory.wf s = true) : Out.Canonical (execLdl m s) := Out.canonical_next (Memory.wf_load h)

theorem canonical_execStl {m : MemArgs} {s : State} (h : Memory.wf s = true) : Out.Canonical (execStl m s) := Out.canonical_next (Memory.wf_store h)

theorem canonical_execStx {m : MemArgs} {s : State} (h : Memory.wf s = true) : Out.Canonical (execStx m s) :=
  Out.canonical_next (Memory.wf_storeRemote h)

theorem canonical_execLda {m : MemArgs} {s : State} (h : Memory.wf s = true) : Out.Canonical (execLda m s) := Out.canonical_next (Memory.wf_load h)

theorem canonical_execSta {m : MemArgs} {s : State} (h : Memory.wf s = true) : Out.Canonical (execSta m s) := Out.canonical_next (Memory.wf_store h)

theorem canonical_execLds {m : MemArgs} {s : State} (h : Memory.wf s = true) : Out.Canonical (execLds m s) := Out.canonical_next (Memory.wf_load h)

theorem canonical_execSts {m : MemArgs} {s : State} (h : Memory.wf s = true) : Out.Canonical (execSts m s) := Out.canonical_next (Memory.wf_store h)

theorem canonical_execLdh {m : MemArgs} {s : State} (h : Memory.wf s = true) : Out.Canonical (execLdh m s) := Out.canonical_next (Memory.wf_load h)

theorem canonical_execSth {m : MemArgs} {s : State} (h : Memory.wf s = true) : Out.Canonical (execSth m s) := Out.canonical_next (Memory.wf_store h)

/-! Atomics and counters (Machine/Atomic). -/

theorem Memory.wf_atomic {s : State} {space : Nat} {m : AmoArgs} (h : Memory.wf s = true) : Memory.wf (s.atomic space m) = true := by
  unfold State.atomic
  dsimp only
  split
  · exact Memory.wf_trapNow _ _ _ h
  · split
    · exact Memory.wf_trapNow _ _ _ h
    · split
      · exact Memory.wf_advance (Memory.wf_push h)
      · split
        · exact Memory.wf_trapNow _ _ _ (Memory.wf_missed h)
        · exact Memory.wf_ite (Memory.wf_trapNow _ _ _ h) (Memory.wf_advance (Memory.wf_push h))

theorem Memory.wf_atomicRemote {s : State} {m : AmoArgs} (h : Memory.wf s = true) : Memory.wf (s.atomicRemote m) = true := by
  unfold State.atomicRemote
  dsimp only
  split
  · exact Memory.wf_trapNow _ _ _ h
  · split
    · exact Memory.wf_trapNow _ _ _ h
    · split
      · exact Memory.wf_trapNow _ _ _ h
      · exact Memory.wf_advance (Memory.wf_enqueueRemote (Memory.wf_push h))
    · exact Memory.wf_trapNow _ _ _ h

theorem canonical_execAmog {m : AmoArgs} {s : State} (h : Memory.wf s = true) : Out.Canonical (execAmog m s) :=
  Out.canonical_next (Memory.wf_atomic h)

theorem canonical_execAmol {m : AmoArgs} {s : State} (h : Memory.wf s = true) : Out.Canonical (execAmol m s) :=
  Out.canonical_next (Memory.wf_atomic h)

theorem canonical_execAmox {m : AmoArgs} {s : State} (h : Memory.wf s = true) : Out.Canonical (execAmox m s) :=
  Out.canonical_next (Memory.wf_atomicRemote h)

theorem canonical_execAmos {m : AmoArgs} {s : State} (h : Memory.wf s = true) : Out.Canonical (execAmos m s) :=
  Out.canonical_next (Memory.wf_atomic h)

/-! Barriers (Machine/Barrier). -/

theorem Memory.wf_arrive {s : State} {d g : Nat} {thenWait : Bool} (h : Memory.wf s = true) : Memory.wf (s.arrive d g thenWait) = true := by
  unfold State.arrive
  split
  · exact Memory.wf_trapNow _ _ _ h
  · exact Memory.wf_update (Memory.wf_modMe h)

theorem canonical_execArrive {d g : Nat} {s : State} (h : Memory.wf s = true) : Out.Canonical (execArrive d g s) :=
  Out.canonical_next (Memory.wf_arrive h)

theorem canonical_execArrwait {d g : Nat} {s : State} (h : Memory.wf s = true) : Out.Canonical (execArrwait d g s) :=
  Out.canonical_next (Memory.wf_waitPoint h (Memory.wf_arrive h))

theorem canonical_execWait {d a g : Nat} {s : State} (h : Memory.wf s = true) : Out.Canonical (execWait d a g s) := by
  unfold execWait
  refine Out.canonical_next ?_
  refine Memory.wf_waitPoint h ?_
  split
  · exact Memory.wf_trapNow _ _ _ h
  · dsimp only
    split
    · exact Memory.wf_advance (Memory.wf_setX h)
    · exact Memory.wf_modMe h

theorem canonical_execGquery {d g : Nat} {s : State} (h : Memory.wf s = true) : Out.Canonical (execGquery d g s) := by
  unfold execGquery
  split
  · exact Out.canonical_next (Memory.wf_trapNow _ _ _ h)
  · exact Out.canonical_next (Memory.wf_advance (Memory.wf_push h))

/-! Integer instructions (Machine/Integer). -/

theorem Memory.wf_putInt {s : State} {ty : IntTy} {d : Nat} {v : ℤ} (h : Memory.wf s = true) : Memory.wf (s.putInt ty d v) = true :=
  Memory.wf_advance (Memory.wf_setX h)

theorem canonical_execAdd {ty : IntTy} {d a b : Nat} {s : State} (h : Memory.wf s = true) : Out.Canonical (execAdd ty d a b s) :=
  Out.canonical_next (Memory.wf_putInt h)

theorem canonical_execSub {ty : IntTy} {d a b : Nat} {s : State} (h : Memory.wf s = true) : Out.Canonical (execSub ty d a b s) :=
  Out.canonical_next (Memory.wf_putInt h)

theorem canonical_execMul {ty : IntTy} {d a b : Nat} {s : State} (h : Memory.wf s = true) : Out.Canonical (execMul ty d a b s) :=
  Out.canonical_next (Memory.wf_putInt h)

theorem canonical_execMulh {ty : IntTy} {d a b : Nat} {s : State} (h : Memory.wf s = true) : Out.Canonical (execMulh ty d a b s) :=
  Out.canonical_next (Memory.wf_putInt h)

theorem canonical_execMulhn {ty : IntTy} {d a b : Nat} {s : State} (h : Memory.wf s = true) : Out.Canonical (execMulhn ty d a b s) :=
  Out.canonical_next (Memory.wf_putInt h)

theorem canonical_execDiv {ty : IntTy} {d a b : Nat} {s : State} (h : Memory.wf s = true) : Out.Canonical (execDiv ty d a b s) :=
  Out.canonical_next (Memory.wf_putInt h)

theorem canonical_execDivn {ty : IntTy} {d a b : Nat} {s : State} (h : Memory.wf s = true) : Out.Canonical (execDivn ty d a b s) :=
  Out.canonical_next (Memory.wf_putInt h)

theorem canonical_execRem {ty : IntTy} {d a b : Nat} {s : State} (h : Memory.wf s = true) : Out.Canonical (execRem ty d a b s) :=
  Out.canonical_next (Memory.wf_putInt h)

theorem canonical_execRemn {ty : IntTy} {d a b : Nat} {s : State} (h : Memory.wf s = true) : Out.Canonical (execRemn ty d a b s) :=
  Out.canonical_next (Memory.wf_putInt h)

theorem canonical_execMin {ty : IntTy} {d a b : Nat} {s : State} (h : Memory.wf s = true) : Out.Canonical (execMin ty d a b s) :=
  Out.canonical_next (Memory.wf_putInt h)

theorem canonical_execMax {ty : IntTy} {d a b : Nat} {s : State} (h : Memory.wf s = true) : Out.Canonical (execMax ty d a b s) :=
  Out.canonical_next (Memory.wf_putInt h)

theorem canonical_execMinn {ty : IntTy} {d a b : Nat} {s : State} (h : Memory.wf s = true) : Out.Canonical (execMinn ty d a b s) :=
  Out.canonical_next (Memory.wf_putInt h)

theorem canonical_execMaxn {ty : IntTy} {d a b : Nat} {s : State} (h : Memory.wf s = true) : Out.Canonical (execMaxn ty d a b s) :=
  Out.canonical_next (Memory.wf_putInt h)

theorem canonical_execAnd {ty : IntTy} {d a b : Nat} {s : State} (h : Memory.wf s = true) : Out.Canonical (execAnd ty d a b s) :=
  Out.canonical_next (Memory.wf_putInt h)

theorem canonical_execOr {ty : IntTy} {d a b : Nat} {s : State} (h : Memory.wf s = true) : Out.Canonical (execOr ty d a b s) :=
  Out.canonical_next (Memory.wf_putInt h)

theorem canonical_execXor {ty : IntTy} {d a b : Nat} {s : State} (h : Memory.wf s = true) : Out.Canonical (execXor ty d a b s) :=
  Out.canonical_next (Memory.wf_putInt h)

theorem canonical_execAndn {ty : IntTy} {d a b : Nat} {s : State} (h : Memory.wf s = true) : Out.Canonical (execAndn ty d a b s) :=
  Out.canonical_next (Memory.wf_putInt h)

theorem canonical_execOrn {ty : IntTy} {d a b : Nat} {s : State} (h : Memory.wf s = true) : Out.Canonical (execOrn ty d a b s) :=
  Out.canonical_next (Memory.wf_putInt h)

theorem canonical_execShl {ty : IntTy} {d a b : Nat} {s : State} (h : Memory.wf s = true) : Out.Canonical (execShl ty d a b s) :=
  Out.canonical_next (Memory.wf_putInt h)

theorem canonical_execShr {ty : IntTy} {d a b : Nat} {s : State} (h : Memory.wf s = true) : Out.Canonical (execShr ty d a b s) :=
  Out.canonical_next (Memory.wf_putInt h)

theorem canonical_execSha {ty : IntTy} {d a b : Nat} {s : State} (h : Memory.wf s = true) : Out.Canonical (execSha ty d a b s) :=
  Out.canonical_next (Memory.wf_putInt h)

theorem canonical_execCmpeq {ty : IntTy} {d a b : Nat} {s : State} (h : Memory.wf s = true) : Out.Canonical (execCmpeq ty d a b s) :=
  Out.canonical_next (Memory.wf_putInt h)

theorem canonical_execCmplt {ty : IntTy} {d a b : Nat} {s : State} (h : Memory.wf s = true) : Out.Canonical (execCmplt ty d a b s) :=
  Out.canonical_next (Memory.wf_putInt h)

theorem canonical_execCmpltn {ty : IntTy} {d a b : Nat} {s : State} (h : Memory.wf s = true) : Out.Canonical (execCmpltn ty d a b s) :=
  Out.canonical_next (Memory.wf_putInt h)

theorem canonical_execCsel {d a b c : Nat} {s : State} (h : Memory.wf s = true) : Out.Canonical (execCsel d a b c s) :=
  Out.canonical_next (Memory.wf_advance (Memory.wf_setX h))

theorem canonical_execMov {d a : Nat} {s : State} (h : Memory.wf s = true) : Out.Canonical (execMov d a s) :=
  Out.canonical_next (Memory.wf_advance (Memory.wf_setX h))

/-! Bit instructions (Machine/BitOps). -/

theorem canonical_execClz {ty : IntTy} {d a : Nat} {s : State} (h : Memory.wf s = true) : Out.Canonical (execClz ty d a s) :=
  Out.canonical_next (Memory.wf_putInt h)

theorem canonical_execCtz {ty : IntTy} {d a : Nat} {s : State} (h : Memory.wf s = true) : Out.Canonical (execCtz ty d a s) :=
  Out.canonical_next (Memory.wf_putInt h)

theorem canonical_execPopc {ty : IntTy} {d a : Nat} {s : State} (h : Memory.wf s = true) : Out.Canonical (execPopc ty d a s) :=
  Out.canonical_next (Memory.wf_putInt h)

theorem canonical_execSext {w : ExtW} {d a : Nat} {s : State} (h : Memory.wf s = true) : Out.Canonical (execSext w d a s) :=
  Out.canonical_next (Memory.wf_putInt h)

theorem canonical_execZext {w : ExtW} {d a : Nat} {s : State} (h : Memory.wf s = true) : Out.Canonical (execZext w d a s) :=
  Out.canonical_next (Memory.wf_putInt h)

theorem canonical_execAddx {shift d a b : Nat} {s : State} (h : Memory.wf s = true) : Out.Canonical (execAddx shift d a b s) :=
  Out.canonical_next (Memory.wf_putInt h)

theorem canonical_execMorton {three : Bool} {d a b c : Nat} {s : State} (h : Memory.wf s = true) : Out.Canonical (execMorton three d a b c s) :=
  Out.canonical_next (Memory.wf_putInt h)

/-! The spine (Machine/Spine). -/

theorem Tile.wf_acc {tl : Tile} (h : tl.bytesWf = true) : cellsWf tl.acc = true := by
  simp only [Tile.bytesWf, Bool.and_eq_true] at h
  exact h.2
/-- A tile whose accumulator nodes alone are others. -/
theorem Tile.bytesWf_setAcc {a b : Tile} (h : a.bytesWf = true) (h1 : b.store = a.store) (hc : cellsWf b.acc = true) : b.bytesWf = true := by
  simp only [Tile.bytesWf, Bool.and_eq_true] at h ⊢
  exact ⟨h1 ▸ h.1, hc⟩

theorem Tile.bytesWf_setNode {tl : Tile} {q n v : Nat} {lost : Bool} (h : tl.bytesWf = true) : (tl.setNode q n v lost).bytesWf = true := by
  unfold Tile.setNode
  generalize toBytes _ 16 = l
  exact Tile.bytesWf_setAcc h rfl (cellsWf_writeBytes l _ _ (Tile.wf_acc h))

theorem Tile.bytesWf_setNodeFmt {tl : Tile} {q mode : Nat} (h : tl.bytesWf = true) : (tl.setNodeFmt q mode).bytesWf = true := by
  unfold Tile.setNodeFmt
  dsimp only
  split
  · exact h
  · exact Tile.bytesWf_of (Tile.bytesWf_ite h (Tile.bytesWf_foldl (fun _ _ ht => Tile.bytesWf_setNode ht) _ _ h)) rfl rfl

/-! Queues (Machine/Queues). -/

theorem Tile.bytesWf_modEntry {tl : Tile} {q id : Nat} {f : QEntry → QEntry} (h : tl.bytesWf = true) : (tl.modEntry q id f).bytesWf = true := h

theorem Memory.wf_enter_ {s : State} {q : Nat} {e : QEntry} {quote : Nat} (h : Memory.wf s = true) : Memory.wf (s.enter_ q e quote) = true :=
  Memory.wf_modMyTile h fun ht => ht

theorem Memory.wf_accept {s : State} {q : Nat} {e : QEntry} {t : Option Nat} {limit : Bool} {r : Nat × State} (h : Memory.wf s = true)
    (he : s.accept q e t limit = some r) : Memory.wf r.2 = true := by
  unfold State.accept at he
  split at he
  · cases he
  · dsimp only at he
    split at he
    · cases he
    · cases he
      exact Memory.wf_enter_ h

theorem Memory.wf_finish {s : State} {q qd : Nat} {e : QEntry} {t : Option Nat} (h : Memory.wf s = true) :
    Memory.wf (s.finish q qd e t) = true := by
  unfold State.finish
  split
  · rename_i e2
    exact Memory.wf_advance (Memory.wf_setX (Memory.wf_accept h e2))
  · exact Memory.wf_advance (Memory.wf_setX h)

/-! Stream commands (Machine/Streams). -/

theorem Memory.wf_stream {s : State} {k : QKind} {q : QArgs} (h : Memory.wf s = true) : Memory.wf (s.stream k q) = true := by
  unfold State.stream
  dsimp only
  split
  · exact Memory.wf_trapOn h
  · exact Memory.wf_finish h

theorem canonical_execStreamIn {q : QArgs} {s : State} (h : Memory.wf s = true) : Out.Canonical (execStreamIn q s) :=
  Out.canonical_next (Memory.wf_stream h)

theorem canonical_execStreamOut {q : QArgs} {s : State} (h : Memory.wf s = true) : Out.Canonical (execStreamOut q s) :=
  Out.canonical_next (Memory.wf_stream h)

theorem canonical_execStreamRec {q : QArgs} {s : State} (h : Memory.wf s = true) : Out.Canonical (execStreamRec q s) :=
  Out.canonical_next (Memory.wf_stream h)

theorem canonical_execStreamConst {q : QArgs} {s : State} (h : Memory.wf s = true) : Out.Canonical (execStreamConst q s) :=
  Out.canonical_next (Memory.wf_stream h)

theorem canonical_execStreamDrop {q : QArgs} {s : State} (h : Memory.wf s = true) : Out.Canonical (execStreamDrop q s) :=
  Out.canonical_next (Memory.wf_stream h)

theorem canonical_execStreamInd {q : QArgs} {s : State} (h : Memory.wf s = true) : Out.Canonical (execStreamInd q s) :=
  Out.canonical_next (Memory.wf_stream h)

/-! The elements of a stream (Machine/StreamElem). -/

theorem Memory.wf_refreshPort {s : State} {t k : Nat} (h : Memory.wf s = true) : Memory.wf (s.refreshPort t k) = true := by
  unfold State.refreshPort
  dsimp only
  split
  · exact h
  · split
    · exact h
    · exact Memory.wf_modTile h fun ht => ht

theorem Memory.wf_refreshOut {s : State} {t k : Nat} (h : Memory.wf s = true) : Memory.wf (s.refreshOut t k) = true := by
  unfold State.refreshOut
  split
  · exact h
  · exact Memory.wf_modTile h fun ht => ht

theorem Memory.wf_refresh {s : State} {t : Nat} {ins outs : List Nat} (h : Memory.wf s = true) : Memory.wf (s.refresh t ins outs) = true :=
  Memory.wf_foldl (fun _ _ hu => Memory.wf_refreshOut hu) _ _ (Memory.wf_foldl (fun _ _ hu => Memory.wf_refreshPort hu) _ _ h)

/-! The issue of block commands (Machine/BlockIssue). -/

theorem Memory.wf_resumeBlock {s : State} {cls : Nat} {b : BlockArgs} (h : Memory.wf s = true) : Memory.wf (s.resumeBlock cls b) = true := by
  unfold State.resumeBlock
  dsimp only
  split
  · exact Memory.wf_modMyTile (Memory.wf_refresh (Memory.wf_modMe h)) fun ht => Tile.bytesWf_modInst ht
  · exact Memory.wf_refresh (Memory.wf_modMe h)

theorem Memory.wf_issueBlock {s : State} {cls : Nat} {b : BlockArgs} (h : Memory.wf s = true) : Memory.wf (s.issueBlock cls b) = true := by
  unfold State.issueBlock
  split
  · exact Memory.wf_trapNow _ _ _ h
  · dsimp only
    split
    · exact Memory.wf_trapNow _ _ _ h
    · split
      · exact Memory.wf_trapOn h
      · exact Memory.wf_ite (Memory.wf_advanceBy h) (Memory.wf_waitPoint h (Memory.wf_modMe h))

theorem Memory.wf_block {s : State} {cls : Nat} {b : BlockArgs} (h : Memory.wf s = true) : Memory.wf (s.block cls b) = true :=
  Memory.wf_ite (Memory.wf_resumeBlock h) (Memory.wf_issueBlock h)

theorem canonical_execBlockMWs {b : BlockArgs} {s : State} (h : Memory.wf s = true) : Out.Canonical (execBlockMWs b s) :=
  Out.canonical_next (Memory.wf_block h)

theorem canonical_execBlockMOs {b : BlockArgs} {s : State} (h : Memory.wf s = true) : Out.Canonical (execBlockMOs b s) :=
  Out.canonical_next (Memory.wf_block h)

theorem canonical_execBlockE {b : BlockArgs} {s : State} (h : Memory.wf s = true) : Out.Canonical (execBlockE b s) :=
  Out.canonical_next (Memory.wf_block h)

theorem canonical_execBlockA {b : BlockArgs} {s : State} (h : Memory.wf s = true) : Out.Canonical (execBlockA b s) :=
  Out.canonical_next (Memory.wf_block h)

theorem canonical_execBlockS {b : BlockArgs} {s : State} (h : Memory.wf s = true) : Out.Canonical (execBlockS b s) :=
  Out.canonical_next (Memory.wf_block h)

theorem canonical_execBlockZ {b : BlockArgs} {s : State} (h : Memory.wf s = true) : Out.Canonical (execBlockZ b s) :=
  Out.canonical_next (Memory.wf_block h)

theorem canonical_execBlockG {b : BlockArgs} {s : State} (h : Memory.wf s = true) : Out.Canonical (execBlockG b s) :=
  Out.canonical_next (Memory.wf_block h)

/-! Copy commands (Machine/Copies). -/

theorem Memory.wf_copyCmd {s : State} {k : QKind} {q : QArgs} (h : Memory.wf s = true) : Memory.wf (s.copyCmd k q) = true := by
  unfold State.copyCmd
  dsimp only
  split
  · exact Memory.wf_trapOn h
  · exact Memory.wf_finish h

theorem canonical_execCopy {q : QArgs} {s : State} (h : Memory.wf s = true) : Out.Canonical (execCopy q s) :=
  Out.canonical_next (Memory.wf_copyCmd h)

theorem canonical_execMcopy {q : QArgs} {s : State} (h : Memory.wf s = true) : Out.Canonical (execMcopy q s) :=
  Out.canonical_next (Memory.wf_copyCmd h)

theorem canonical_execRcopy {q : QArgs} {s : State} (h : Memory.wf s = true) : Out.Canonical (execRcopy q s) :=
  Out.canonical_next (Memory.wf_copyCmd h)

/-! The error log (Machine/ErrLog). -/

theorem Memory.wf_detectLink {s : State} {k code : Nat} (h : Memory.wf s = true) : Memory.wf (s.detectLink k code) = true :=
  Memory.wf_modClasp (Memory.wf_logRecord _ _ (Memory.wf_takeFree h)) rfl

theorem Memory.wf_edgeAt {s : State} {v : Via} {p va n : Nat} {rd wr : Bool} (h : Memory.wf s = true) :
    Memory.wf (s.edgeAt v p va n rd wr) = true := by
  unfold State.edgeAt
  split
  · exact Memory.wf_fillCache _ _ _ _ _ h
  · exact Memory.wf_edgeTouch _ _ _ _ _ _ _ _ h

theorem Memory.wf_readRecordAt {s : State} {die p va n : Nat} (h : Memory.wf s = true) : Memory.wf (s.readRecordAt die p va n) = true := by
  unfold State.readRecordAt
  split
  · exact Memory.wf_fillCache _ _ _ _ _ h
  · exact Memory.wf_meterDev _ _ _ _ (Memory.wf_edgeTouch _ _ _ _ _ _ _ _ h)

/-! Counters (Machine/Counter). -/

theorem Memory.wf_cadd {s : State} {loc : Bool} {d a amount : Nat} (h : Memory.wf s = true) : Memory.wf (s.cadd loc d a amount) = true := by
  unfold State.cadd
  split
  · exact Memory.wf_trapNow _ _ _ h
  · split
    · exact Memory.wf_trapNow _ _ _ (Memory.wf_missed h)
    · exact Memory.wf_ite (Memory.wf_trapNow _ _ _ h) (Memory.wf_advance (Memory.wf_push h))

theorem canonical_execCadd {loc : Bool} {d a b : Nat} {s : State} (h : Memory.wf s = true) : Out.Canonical (execCadd loc d a b s) :=
  Out.canonical_next (Memory.wf_cadd h)

theorem canonical_execCread {loc : Bool} {d a : Nat} {s : State} (h : Memory.wf s = true) : Out.Canonical (execCread loc d a s) := by
  unfold execCread
  dsimp only
  split
  · exact Out.canonical_next (Memory.wf_trapNow _ _ _ h)
  · split
    · exact Out.canonical_next (Memory.wf_trapNow _ _ _ h)
    · exact Out.canonical_next (Memory.wf_advance (Memory.wf_push h))

theorem Memory.wf_lookEnds {s : State} {t : Nat} {loc : Bool} {addr : Nat} (h : Memory.wf s = true) : Memory.wf (s.lookEnds t loc addr) = true :=
  Memory.wf_ite h (Memory.wf_readRecordAt h)

theorem canonical_execCwait {loc : Bool} {d a b : Nat} {s : State} (h : Memory.wf s = true) : Out.Canonical (execCwait loc d a b s) := by
  unfold execCwait
  refine Out.canonical_next ?_
  refine Memory.wf_waitPoint h ?_
  split
  · exact Memory.wf_trapNow _ _ _ h
  · split
    · exact Memory.wf_trapNow _ _ _ (Memory.wf_lookEnds h)
    · exact Memory.wf_advance (Memory.wf_setX (Memory.wf_lookEnds h))
    · exact Memory.wf_modMe h

/-! Gates (Machine/Gates). -/

theorem Memory.wf_sbar {s : State} {k : QKind} {q qd qmask : Nat} (h : Memory.wf s = true) : Memory.wf (s.sbar k q qd qmask) = true :=
  Memory.wf_finish h

theorem canonical_execSbarRd {q qd qmask : Nat} {s : State} (h : Memory.wf s = true) : Out.Canonical (execSbarRd q qd qmask s) :=
  Out.canonical_next (Memory.wf_sbar h)

theorem canonical_execSbarWr {q qd qmask : Nat} {s : State} (h : Memory.wf s = true) : Out.Canonical (execSbarWr q qd qmask s) :=
  Out.canonical_next (Memory.wf_sbar h)

theorem canonical_execSbarAll {q qd qmask : Nat} {s : State} (h : Memory.wf s = true) : Out.Canonical (execSbarAll q qd qmask s) :=
  Out.canonical_next (Memory.wf_sbar h)

theorem canonical_execScond {q xt qd ctr csp : Nat} {inv : Bool} {skip : Nat} {s : State} (h : Memory.wf s = true) :
    Out.Canonical (execScond q xt qd ctr csp inv skip s) := by
  unfold execScond
  dsimp only
  split
  · exact Out.canonical_next (Memory.wf_trapOn h)
  · exact Out.canonical_next (Memory.wf_finish h)

theorem canonical_execStitch {q qd mask : Nat} {s : State} (h : Memory.wf s = true) : Out.Canonical (execStitch q qd mask s) :=
  Out.canonical_next (Memory.wf_finish h)

theorem canonical_execQwait {mask : Nat} {s : State} (h : Memory.wf s = true) : Out.Canonical (execQwait mask s) :=
  Out.canonical_next (Memory.wf_waitPoint h (Memory.wf_ite (Memory.wf_advance h) (Memory.wf_modMe h)))

theorem canonical_execQstat {q xd sel : Nat} {clr : Bool} {s : State} (h : Memory.wf s = true) : Out.Canonical (execQstat q xd sel clr s) :=
  Out.canonical_next (Memory.wf_advance (Memory.wf_ite (Memory.wf_modMyTile (Memory.wf_setX h) fun ht => ht) (Memory.wf_setX h)))

/-! Reconfiguration, drain and accumulator control (Machine/Region). -/

theorem Tile.bytesWf_startLoad {tl : Tile} {qmask folio time : Nat} {by_ : Option (Nat × Nat × Nat)} (h : tl.bytesWf = true) :
    (tl.startLoad qmask folio time by_).bytesWf = true :=
  h

theorem canonical_execCfgld {qmask folio : Nat} {s : State} (h : Memory.wf s = true) : Out.Canonical (execCfgld qmask folio s) := by
  unfold execCfgld
  split
  · exact Out.canonical_next (Memory.wf_trapNow _ _ _ h)
  · exact Out.canonical_next (Memory.wf_advance (Memory.wf_modMyTile h fun ht => Tile.bytesWf_startLoad ht))

theorem canonical_execCfgsw {qmask : Nat} {s : State} (h : Memory.wf s = true) : Out.Canonical (execCfgsw qmask s) := by
  unfold execCfgsw
  dsimp only
  split
  · exact Out.canonical_next (Memory.wf_trapNow _ _ _ h)
  · split
    · exact Out.canonical_next (Memory.wf_trapNow _ _ _ h)
    · exact Out.canonical_next (Memory.wf_advance (Memory.wf_modMyTile h fun ht => ht))

theorem canonical_execBdrain {qmask : Nat} {s : State} (h : Memory.wf s = true) : Out.Canonical (execBdrain qmask s) :=
  Out.canonical_next (Memory.wf_waitPoint h (Memory.wf_ite (Memory.wf_advance h) (Memory.wf_modMe h)))

theorem canonical_execBstat {d qmask sel : Nat} {s : State} (h : Memory.wf s = true) : Out.Canonical (execBstat d qmask sel s) :=
  Out.canonical_next (Memory.wf_advance (Memory.wf_setX h))

theorem canonical_execSpine {qmask : Nat} {win : Option Nat} {acc : Nat} {s : State} (h : Memory.wf s = true) :
    Out.Canonical (execSpine qmask win acc s) :=
  Out.canonical_next (Memory.wf_advance (Memory.wf_modMe h))

theorem canonical_execAccrd {qmask ep : Nat} {clr : Bool} {rm : Nat} {sat : Bool} {s : State} (h : Memory.wf s = true) :
    Out.Canonical (execAccrd qmask ep clr rm sat s) := by
  unfold execAccrd
  split
  · exact Out.canonical_next (Memory.wf_trapNow _ _ _ h)
  · dsimp only
    split
    · exact Out.canonical_next (Memory.wf_trapNow _ _ _ h)
    · exact Out.canonical_next (Memory.wf_advance (Memory.wf_modMyTile (Memory.wf_modMe h) fun ht => Tile.bytesWf_ite (Tile.bytesWf_clearNodes ht)
        ht))

theorem canonical_execAccclr {qmask : Nat} {s : State} (h : Memory.wf s = true) : Out.Canonical (execAccclr qmask s) :=
  Out.canonical_next (Memory.wf_advance (Memory.wf_modMyTile h fun ht => Tile.bytesWf_clearNodes ht))

/-! The arithmetic of blocks (Machine/BlockMath). -/

theorem Tile.bytesWf_openNodes {tl : Tile} {cls : Nat} {b : BlockArgs} {mode : Nat} {c : List PElem} (h : tl.bytesWf = true) :
    (tl.openNodes cls b mode c).bytesWf = true :=
  Tile.bytesWf_foldl (fun _ _ ht => Tile.bytesWf_setNode ht) _ _ h

theorem Tile.bytesWf_addGroups {tl : Tile} {b : BlockArgs} {mode w j : Nat} {terms : Nat → List Num} (h : tl.bytesWf = true) :
    (tl.addGroups b mode w j terms).bytesWf = true :=
  Tile.bytesWf_foldl (fun _ _ ht => Tile.bytesWf_setNode ht) _ _ h

theorem Tile.bytesWf_release {tl : Tile} {cls : Nat} {b : BlockArgs} {mode : Nat} (h : tl.bytesWf = true) :
    (tl.release cls b mode).2.2.bytesWf = true :=
  Tile.bytesWf_foldl (fun _ _ ht => Tile.bytesWf_setNode ht) _ _ h

theorem Tile.bytesWf_takeMode {tl : Tile} {i : Inst} (h : tl.bytesWf = true) : (tl.takeMode i).bytesWf = true :=
  Tile.bytesWf_ite (Tile.bytesWf_foldl (fun _ _ ht => Tile.bytesWf_setNodeFmt ht) _ _ h) h

/-- The last step of a sum's beat: the tile the groups were added to, and its nodes released where a band ends. -/
theorem Tile.bytesWf_released {u : Tile} {p : Prop} [Decidable p] {x : Option Inst} {cls : Nat} {b : BlockArgs} {mode : Nat} {i : Inst}
    {r : Inst × Tile} (h : u.bytesWf = true)
    (e : (if p then x.map fun i => (i, (u.release cls b mode).2.2) else some (i, u)) = some r) : r.2.bytesWf = true := by
  split at e
  · obtain ⟨_, _, rfl⟩ := Option.map_eq_some_iff.1 e
    exact Tile.bytesWf_release (mode := mode) h
  · cases e
    exact h

theorem Tile.bytesWf_opened {u : Tile} {p : Prop} [Decidable p] {cls : Nat} {b : BlockArgs} {mode : Nat} {c : List PElem} (h : u.bytesWf = true) :
    (if p then u.openNodes cls b mode c else u).bytesWf = true := by
  split
  · exact Tile.bytesWf_openNodes h
  · exact h

theorem Tile.bytesWf_sumBeat {tl : Tile} {i : Inst} {aPat res : Pat} {off : Nat} {r : Inst × Tile} (h : tl.bytesWf = true)
    (e : tl.sumBeat i aPat res off = some r) : r.2.bytesWf = true := by
  unfold Tile.sumBeat at e
  exact Tile.bytesWf_released (Tile.bytesWf_addGroups (Tile.bytesWf_opened (Tile.bytesWf_takeMode h))) e

/-! Flits (Machine/Flits). -/

theorem Tile.bytesWf_countMalf {tl : Tile} (h : tl.bytesWf = true) : (tl.countMalf).bytesWf = true := h

theorem Tile.bytesWf_takeIntake {tl : Tile} {p : Flit → Bool} {r : Flit × Tile} (h : tl.bytesWf = true) (e : tl.takeIntake p = some r) :
    r.2.bytesWf = true := by
  obtain ⟨x, _, rfl⟩ := Option.map_eq_some_iff.1 e
  exact h

theorem Memory.wf_sendFlit {s : State} {t u : Nat} {f : Flit} (h : Memory.wf s = true) : Memory.wf (s.sendFlit t u f) = true :=
  Memory.wf_modTile h fun ht => ht

theorem Memory.wf_sendEdge {s : State} {t : Nat} {f : Flit} (h : Memory.wf s = true) : Memory.wf (s.sendEdge t f) = true :=
  Memory.wf_modTile h fun ht => ht

theorem Memory.wf_fromEdge {s : State} {t : Nat} {f : Flit} (h : Memory.wf s = true) : Memory.wf (s.fromEdge t f) = true :=
  Memory.wf_modDie h fun hm => hm

/-! Transfers (Machine/Transfer). -/

theorem Memory.wf_copySource {s : State} {t : Nat} {e : QEntry} {j : Nat} {r : Nat × Bool × State} (h : Memory.wf s = true)
    (hr : s.copySource t e j = .ok r) :
    Memory.wf r.2.2 = true := by
  have hf : Memory.wf { s with free := s.free + 1 } = true := Memory.wf_free _ h
  unfold State.copySource at hr
  dsimp only at hr
  split at hr
  · split at hr
    · cases hr
    · split at hr
      · cases hr
      · split at hr
        · cases hr
        · cases hr
          exact hf
  · split at hr
    · cases hr
    · split at hr
      · cases hr
        exact hf
      · cases hr
        exact h

theorem Memory.wf_copyWrite {s u : State} {v : Via} {t k x : Nat} {psn : Bool} {l : List Pat} (h : Memory.wf s = true)
    (hr : s.copyWrite v t k x psn l = .ok u) : Memory.wf u = true := by
  induction l generalizing s with
  | nil => cases hr; exact h
  | cons p rest ih =>
    unfold State.copyWrite at hr
    split at hr
    · cases hr
    · rename_i s' hs'
      have hw := Memory.wf_writeElem h hs'
      split at hr
      · cases hr
      · refine ih ?_ hr
        split
        · exact Memory.wf_free _ hw
        · exact hw

theorem Memory.wf_copyReduce {s : State} {t : Nat} {e : QEntry} {k v : Nat} {psn : Bool} {l : List Pat} {r : State × Bool} (h : Memory.wf s = true)
    (hr : s.copyReduce t e k v psn l = .ok r) : Memory.wf r.1 = true := by
  induction l generalizing s psn r with
  | nil => cases hr; exact h
  | cons p rest ih =>
    unfold State.copyReduce at hr
    split at hr
    · cases hr
    · split at hr
      · cases hx : s.copyReduce t e k v psn rest with
        | error f => rw [hx] at hr; cases hr
        | ok y => rw [hx] at hr; cases hr; exact ih (r := y) h hx
      · split at hr
        · cases hr
        · exact ih (Memory.wf_writeElem h ‹_›) hr

theorem Memory.wf_blockValues {s : State} {t : Nat} {e : QEntry} {n j : Nat} {r : List Num × Bool × State} (h : Memory.wf s = true)
    (hr : s.blockValues t e n j = .ok r) : Memory.wf r.2.2 = true := by
  induction n generalizing s j r with
  | zero => cases hr; exact h
  | succ n ih =>
    unfold State.blockValues at hr
    split at hr
    · cases hr
    · rename_i x hx
      split at hr
      · cases hr
      · rename_i y hy
        cases hr
        exact ih (r := y) (Memory.wf_copySource h hx) hy

theorem Memory.wf_copyElem {s : State} {t : Nat} {e : QEntry} {j : Nat} {r : State × Bool} (h : Memory.wf s = true) (hr : s.copyElem t e j = .ok r) :
    Memory.wf r.1 = true := by
  unfold State.copyElem at hr
  split at hr
  · split at hr
    · cases hr
    · exact Memory.wf_copyReduce (Memory.wf_copySource h ‹_›) hr
  · split at hr
    · split at hr
      · obtain ⟨x, _, rfl⟩ := Except.map_eq_ok hr
        exact h
      · split at hr
        · cases hr
        · obtain ⟨x, hx, rfl⟩ := Except.map_eq_ok hr
          exact Memory.wf_copyWrite (Memory.wf_blockValues h ‹_›) hx
    · split at hr
      · cases hr
      · obtain ⟨x, hx, rfl⟩ := Except.map_eq_ok hr
        exact Memory.wf_copyWrite (Memory.wf_copySource h ‹_›) hx

theorem Memory.wf_copyRun {s : State} {t : Nat} {e : QEntry} {n : Nat} (h : Memory.wf s = true) : Memory.wf (s.copyRun t e n).1 = true := by
  induction n generalizing s e with
  | zero => exact h
  | succ n ih =>
    unfold State.copyRun
    split
    · exact h
    · exact ih (Memory.wf_copyElem h ‹_›)

theorem Memory.wf_fillProbe {s : State} {t : Nat} {e : QEntry} (h : Memory.wf s = true) : Memory.wf (s.fillProbe t e) = true := by
  unfold State.fillProbe
  refine Memory.wf_foldl (fun _ _ hu => ?_) _ _ h
  split
  · exact hu
  · split
    · exact hu
    · exact Memory.wf_foldl (fun _ _ hu2 => Memory.wf_fillCache _ _ _ _ _ hu2) _ _ hu

theorem Memory.wf_noteElem {s : State} {v : Via} {t : Nat} {p : Pat} {k : Nat} {rd wr : Bool} (h : Memory.wf s = true) :
    Memory.wf (s.noteElem v t p k rd wr) = true := by
  unfold State.noteElem
  split
  · exact h
  · split
    · exact Memory.wf_ite (Memory.wf_edgeAt h) h
    · refine Memory.wf_foldl_fst (fun _ _ hu => ?_) _ _ h
      exact Memory.wf_edgeTouch _ _ _ _ _ _ _ _ hu

theorem Memory.wf_noteElems {s : State} {v : Via} {t : Nat} {p : Pat} {i j : Nat} {rd wr : Bool} (h : Memory.wf s = true) :
    Memory.wf (s.noteElems v t p i j rd wr) = true :=
  Memory.wf_foldl (fun _ _ hu => Memory.wf_noteElem hu) _ _ h

theorem Memory.wf_meterBeat {s : State} {v : Via} {t : Nat} {p : Pat} {i j : Nat} {wr : Bool} (h : Memory.wf s = true) :
    Memory.wf (s.meterBeat v t p i j wr) = true := by
  unfold State.meterBeat
  dsimp only
  split
  · exact Memory.wf_meter _ _ _ (Memory.wf_noteElems h)
  · split
    · exact Memory.wf_noteElems h
    · split
      · exact Memory.wf_ite (Memory.wf_meter _ _ _ (Memory.wf_noteElems h)) (Memory.wf_noteElems h)
      · exact Memory.wf_noteElems h

theorem Tile.bytesWf_settle {tl : Tile} {q id : Nat} (h : tl.bytesWf = true) : (tl.settle q id).bytesWf = true := h

theorem Memory.wf_meterIn {s : State} {t : Nat} {e : QEntry} {i n : Nat} (h : Memory.wf s = true) : Memory.wf (s.meterIn t e i n) = true := by
  unfold State.meterIn
  split
  · refine Memory.wf_foldl (fun _ _ hu => ?_) _ _ (Memory.wf_meterBeat h)
    split
    · exact Memory.wf_meterBeat hu
    · exact hu
  · exact Memory.wf_meterBeat h

theorem Memory.wf_edgeEnd {s : State} {t port sq : Nat} (h : Memory.wf s = true) : Memory.wf (s.edgeEnd t port sq) = true := Memory.wf_fromEdge h

theorem Memory.wf_edgeBeat {s : State} {t q : Nat} {e : QEntry} (h : Memory.wf s = true) : Memory.wf (s.edgeBeat t q e) = true := by
  unfold State.edgeBeat
  dsimp only
  split
  · exact h
  · split
    · exact Memory.wf_modTile (Memory.wf_denied h) fun ht => ht
    · refine Memory.wf_modTile ?_ fun ht => Tile.bytesWf_modEntry ht
      split
      · exact Memory.wf_edgeEnd (Memory.wf_meterIn (Memory.wf_foldl (fun _ _ hu => Memory.wf_fromEdge hu) _ _ h))
      · exact Memory.wf_meterIn (Memory.wf_foldl (fun _ _ hu => Memory.wf_fromEdge hu) _ _ h)

theorem Memory.wf_localBeat {s : State} {t q : Nat} {e : QEntry} (h : Memory.wf s = true) : Memory.wf (s.localBeat t q e) = true := by
  unfold State.localBeat
  dsimp only
  split
  · exact h
  · split <;> exact Memory.wf_modTile h fun ht => ht

theorem Memory.wf_passBeat {s : State} {t q : Nat} {e : QEntry} (h : Memory.wf s = true) : Memory.wf (s.passBeat t q e) = true :=
  Memory.wf_ite (Memory.wf_modTile h fun ht => ht) (Memory.wf_modTile h fun ht => ht)

theorem Memory.wf_writeBeat {s : State} {t : Nat} {e : QEntry} {l : List PElem} {j : Nat} (h : Memory.wf s = true) :
    Memory.wf (s.writeBeat t e l j).1 = true := by
  induction l generalizing s j with
  | nil => exact h
  | cons x l ih =>
    unfold State.writeBeat
    split
    · exact h
    · exact ih (Memory.wf_writeElem h ‹_›)

theorem Memory.wf_outBeat {s : State} {t q : Nat} {e : QEntry} (h : Memory.wf s = true) : Memory.wf (s.outBeat t q e) = true := by
  unfold State.outBeat
  dsimp only
  split
  · exact h
  · refine Memory.wf_modTile ?_ fun ht => Tile.bytesWf_modEntry (Tile.bytesWf_of ht rfl rfl)
    split
    · exact Memory.wf_denied (Memory.wf_ite (Memory.wf_writeBeat h) (Memory.wf_meterBeat (Memory.wf_writeBeat h)))
    · exact Memory.wf_ite (Memory.wf_writeBeat h) (Memory.wf_meterBeat (Memory.wf_writeBeat h))

theorem Memory.wf_sendOut {s : State} {t u : Nat} {e : QEntry} {f : Flit} (h : Memory.wf s = true) : Memory.wf (s.sendOut t u e f) = true :=
  Memory.wf_ite (Memory.wf_sendEdge h) (Memory.wf_sendFlit h)

theorem Memory.wf_outEnd {s : State} {t q u : Nat} {e : QEntry} (h : Memory.wf s = true) : Memory.wf (s.outEnd t q u e) = true :=
  Memory.wf_modTile (Memory.wf_sendOut h) fun ht => ht

theorem Memory.wf_trackerBeat {s : State} {t q : Nat} {e : QEntry} {u : Nat} (h : Memory.wf s = true) :
    Memory.wf (s.trackerBeat t q e u) = true := by
  unfold State.trackerBeat
  dsimp only
  split
  · exact h
  · split
    · exact Memory.wf_ite h (Memory.wf_outEnd h)
    · split
      · exact h
      · split
        · refine Memory.wf_modTile ?_ fun ht => Tile.bytesWf_modEntry ht
          split
          · exact Memory.wf_denied h
          · exact h
        · exact Memory.wf_modTile (Memory.wf_meterBeat (Memory.wf_foldl (fun _ _ hu => Memory.wf_sendOut hu) _ _ h)) fun ht => ht

theorem Memory.wf_contributeEntry {s : State} {t : Nat} {e : QEntry} (h : Memory.wf s = true) : Memory.wf (s.contributeEntry t e) = true := by
  unfold State.contributeEntry
  dsimp only
  split
  · exact h
  · split
    · exact Memory.wf_badRecord _ _ _ (Memory.wf_denied h)
    · exact Memory.wf_contribute _ _ _ _ _ _ _ _ _ h

/-! Hardware steps of the queues (Machine/EvQueue). -/

theorem Memory.wf_startCopy {s : State} {t q : Nat} {e : QEntry} (h : Memory.wf s = true) : Memory.wf (s.startCopy t q e) = true :=
  Memory.wf_modTile h fun ht => ht

theorem canonical_execCopyStart {t q : Nat} {s : State} (h : Memory.wf s = true) : Out.Canonical (execCopyStart t q s) := by
  unfold execCopyStart
  dsimp only
  split
  · exact Out.canonical_next h
  · split
    · exact Out.canonical_next h
    · split
      · exact Out.canonical_next (Memory.wf_modTile h fun ht => ht)
      · split
        · exact Out.canonical_next h
        · exact Out.canonical_next (Memory.wf_startCopy h)

theorem Memory.wf_meterCopy {s : State} {t : Nat} {e : QEntry} {i j : Nat} (h : Memory.wf s = true) : Memory.wf (s.meterCopy t e i j) = true := by
  unfold State.meterCopy
  split
  · exact h
  · exact Memory.wf_foldl (fun _ _ hu => Memory.wf_meterBeat (Memory.wf_ite (Memory.wf_meterBeat hu) hu)) _ _ (Memory.wf_meterBeat h)

theorem canonical_execCopyBeat {t q : Nat} {s : State} (h : Memory.wf s = true) : Out.Canonical (execCopyBeat t q s) := by
  unfold execCopyBeat
  dsimp only
  split
  · exact Out.canonical_next h
  · split
    · exact Out.canonical_next h
    · split
      · exact Out.canonical_next (Memory.wf_modTile (Memory.wf_fillProbe h) fun ht => Tile.bytesWf_modEntry ht)
      · refine Out.canonical_next ?_
        refine Memory.wf_modTile ?_ fun ht => Tile.bytesWf_modEntry ht
        split
        · split
          · refine Memory.wf_denied ?_
            split
            · exact Memory.wf_update (Memory.wf_work (Memory.wf_meterCopy (Memory.wf_copyRun h)))
            · exact Memory.wf_work (Memory.wf_meterCopy (Memory.wf_copyRun h))
          · split
            · exact Memory.wf_update (Memory.wf_work (Memory.wf_meterCopy (Memory.wf_copyRun h)))
            · exact Memory.wf_work (Memory.wf_meterCopy (Memory.wf_copyRun h))
        · split
          · refine Memory.wf_denied ?_
            split
            · exact Memory.wf_update (Memory.wf_work (Memory.wf_meterCopy (Memory.wf_copyRun h)))
            · exact Memory.wf_work (Memory.wf_meterCopy (Memory.wf_copyRun h))
          · split
            · exact Memory.wf_update (Memory.wf_work (Memory.wf_meterCopy (Memory.wf_copyRun h)))
            · exact Memory.wf_work (Memory.wf_meterCopy (Memory.wf_copyRun h))

theorem Tile.bytesWf_retire {tl : Tile} {q : Nat} {e : QEntry} (h : tl.bytesWf = true) : (tl.retire q e).bytesWf = true := h

theorem canonical_execTransferRetire {t q : Nat} {s : State} (h : Memory.wf s = true) : Out.Canonical (execTransferRetire t q s) := by
  unfold execTransferRetire
  split
  · exact Out.canonical_next h
  · split
    · exact Out.canonical_next h
    · split
      · exact Out.canonical_next (Memory.wf_modTile (Memory.wf_contributeEntry h) fun ht => Tile.bytesWf_retire ht)
      · dsimp only
        split
        · split
          · exact Out.canonical_next (Memory.wf_modTile (Memory.wf_sendFlit h) fun ht => ht)
          · exact Out.canonical_next h
        · split
          · exact Out.canonical_next h
          · exact Out.canonical_next (Memory.wf_modTile h fun ht => ht)

theorem Memory.wf_addClaim {s : State} {t : Nat} {e : QEntry} (h : Memory.wf s = true) : Memory.wf (s.addClaim t e) = true := by
  unfold State.addClaim
  split
  · exact h
  · exact Memory.wf_modTile h fun ht => ht

theorem canonical_execStreamDispatch {t q : Nat} {s : State} (h : Memory.wf s = true) : Out.Canonical (execStreamDispatch t q s) := by
  unfold execStreamDispatch
  dsimp only
  split
  · exact Out.canonical_next h
  · split
    · exact Out.canonical_next h
    · split
      · exact Out.canonical_next (Memory.wf_modTile h fun ht => ht)
      · split
        · exact Out.canonical_next h
        · split
          · exact Out.canonical_next (Memory.wf_modTile h fun ht => ht)
          · split
            · exact Out.canonical_next (Memory.wf_addClaim h)
            · refine Out.canonical_next ?_
              refine Memory.wf_modTile ?_ fun ht => Tile.bytesWf_modEntry ht
              split
              · exact Memory.wf_modTile h fun ht => ht
              · exact h

theorem Memory.wf_beat {s : State} {t q : Nat} {e : QEntry} (h : Memory.wf s = true) : Memory.wf (s.beat t q e) = true := by
  unfold State.beat
  split
  · exact Memory.wf_passBeat h
  · split
    · exact Memory.wf_edgeBeat h
    · split
      · exact Memory.wf_trackerBeat h
      · split
        · split
          · exact Memory.wf_trackerBeat h
          · exact Memory.wf_modTile h fun ht => ht
        · exact Memory.wf_ite (Memory.wf_outBeat h) (Memory.wf_localBeat h)

theorem Tile.bytesWf_orphan {tl : Tile} {q id : Nat} (h : tl.bytesWf = true) : (tl.orphan q id).bytesWf = true := h

theorem canonical_execStreamBeat {t q id : Nat} {s : State} (h : Memory.wf s = true) : Out.Canonical (execStreamBeat t q id s) := by
  unfold execStreamBeat
  dsimp only
  split
  · exact Out.canonical_next h
  · split
    · exact Out.canonical_next h
    · exact Out.canonical_next (Memory.wf_modTile (Memory.wf_ite (Memory.wf_work (Memory.wf_beat h)) (Memory.wf_beat h)) fun ht =>
        Tile.bytesWf_orphan (Tile.bytesWf_settle ht))

theorem Memory.wf_touchScond {s : State} {t : Nat} {e : QEntry} (h : Memory.wf s = true) : Memory.wf (s.touchScond t e) = true := by
  unfold State.touchScond
  split
  · exact Memory.wf_ite (Memory.wf_readRecordAt h) h
  · exact h

theorem canonical_execGatePass {t q : Nat} {s : State} (h : Memory.wf s = true) : Out.Canonical (execGatePass t q s) := by
  unfold execGatePass
  dsimp only
  split
  · exact Out.canonical_next (Memory.wf_modTile h fun ht => ht)
  · split
    · exact Out.canonical_next h
    · split
      · exact Out.canonical_next h
      · split
        · exact Out.canonical_next h
        · exact Out.canonical_next (Memory.wf_modTile (Memory.wf_touchScond h) fun ht => ht)

theorem canonical_execCounterContributionFlit {t : Nat} {s : State} (h : Memory.wf s = true) : Out.Canonical (execCounterContributionFlit t s) := by
  unfold execCounterContributionFlit
  split
  · exact Out.canonical_next h
  · rename_i f tl e
    have hu : Memory.wf (s.modTile t fun _ => tl) = true := Memory.wf_modTile h fun ht => Tile.bytesWf_takeIntake ht e
    generalize (s.modTile t fun _ => tl) = u at hu ⊢
    dsimp only
    split
    · exact Out.canonical_next (Memory.wf_badRecord _ _ _ hu)
    · split
      · exact Out.canonical_next (Memory.wf_badRecord _ _ _ (Memory.wf_poisonAt _ _ hu))
      · exact Out.canonical_next (Memory.wf_contribute _ _ _ _ _ _ _ _ _ hu)

theorem canonical_execQuoteExpiryCompletion {t q id : Nat} {s : State} (h : Memory.wf s = true) :
    Out.Canonical (execQuoteExpiryCompletion t q id s) := by
  unfold execQuoteExpiryCompletion
  dsimp only
  split
  · exact Out.canonical_next h
  · split
    · exact Out.canonical_next h
    · split
      · exact Out.canonical_next (Memory.wf_modTile h fun ht => ht)
      · exact Out.canonical_next (Memory.wf_modTile (Memory.wf_ite (Memory.wf_foldl (fun _ _ hu => Memory.wf_poisonAt _ _ hu) _ _ h) h) fun ht =>
          Tile.bytesWf_modEntry ht)

/-! Hardware steps of the blocks (Machine/EvBlock). -/

theorem Tile.bytesWf_makeLive {tl : Tile} {qmask folio : Nat} {f : Folio} (h : tl.bytesWf = true) : (tl.makeLive qmask folio f).bytesWf = true :=
  Tile.bytesWf_ite h h

theorem Memory.wf_startRun {s : State} {t : Nat} {e : Entry} (h : Memory.wf s = true) : Memory.wf (s.startRun t e) = true :=
  Memory.wf_modTile h fun ht => Tile.bytesWf_ite ht (Tile.bytesWf_makeLive ht)

theorem Memory.wf_startRuns {s : State} {t n : Nat} (h : Memory.wf s = true) : Memory.wf (s.startRuns t n) = true := by
  induction n generalizing s with
  | zero => exact h
  | succ n ih =>
    unfold State.startRuns
    split
    · exact h
    · exact ih (Memory.wf_startRun h)

theorem Memory.wf_reload {s : State} {t : Nat} (h : Memory.wf s = true) : Memory.wf (s.reload t) = true := by
  unfold State.reload
  refine Memory.wf_foldl (fun _ _ hu => ?_) _ _ h
  exact Memory.wf_ite hu (Memory.wf_modTile hu fun ht => Tile.bytesWf_makeLive ht)

theorem canonical_execBlockRunStart {t : Nat} {s : State} (h : Memory.wf s = true) : Out.Canonical (execBlockRunStart t s) := by
  unfold execBlockRunStart
  split
  · exact Out.canonical_next h
  · exact Out.canonical_next (Memory.wf_modTile (Memory.wf_ite (Memory.wf_startRuns (Memory.wf_reload h)) (Memory.wf_reload h)) fun ht =>
      Tile.bytesWf_of ht rfl rfl)

theorem Memory.wf_refuseRun {s : State} {t qmask folio cause aux : Nat} (h : Memory.wf s = true) :
    Memory.wf (s.refuseRun t qmask folio cause aux) = true :=
  Memory.wf_foldl (fun _ _ hu => Memory.wf_enter _ _ _ _ _ _
      (Memory.wf_modCtx (Memory.wf_ite (Memory.wf_modCtx (Memory.wf_modTile hu fun ht => ht)) hu))) _ _ (Memory.wf_modTile h fun ht => ht)

theorem canonical_execFolioLoadComplete {t qmask : Nat} {s : State} (h : Memory.wf s = true) : Out.Canonical (execFolioLoadComplete t qmask s) := by
  unfold execFolioLoadComplete
  dsimp only
  split
  · exact Out.canonical_next h
  · split
    · exact Out.canonical_next h
    · split
      · exact Out.canonical_next (Memory.wf_modTile h fun ht => ht)
      · split
        · exact Out.canonical_next (Memory.wf_modTile (Memory.wf_modTile h fun ht => ht) fun ht => Tile.bytesWf_ite ht ht)
        · split
          · exact Out.canonical_next (Memory.wf_modCtx (Memory.wf_modTile h fun ht => ht))
          · exact Out.canonical_next (Memory.wf_modTile h fun ht => ht)
        · exact Out.canonical_next (Memory.wf_refuseRun (Memory.wf_modTile h fun ht => ht))

theorem canonical_execSwitchSweepComplete {t qmask : Nat} {s : State} (h : Memory.wf s = true) :
    Out.Canonical (execSwitchSweepComplete t qmask s) := by
  unfold execSwitchSweepComplete
  dsimp only
  split
  · exact Out.canonical_next h
  · split
    · exact Out.canonical_next h
    · split
      · exact Out.canonical_next (Memory.wf_modTile h fun ht => ht)
      · exact Out.canonical_next (Memory.wf_modTile h fun ht => Tile.bytesWf_of ht rfl rfl)

theorem Memory.wf_issueBinds {s : State} {l : List BindCmd} (h : Memory.wf s = true) : Memory.wf (s.issueBinds l).1 = true := by
  unfold State.issueBinds
  refine Memory.wf_foldl_fst (fun _ _ hu => ?_) _ _ h
  split
  · rename_i e
    exact Memory.wf_accept hu e
  · exact hu

/-- The scanned nodes are written back byte by byte, so the form does not depend on the image. -/
theorem Tile.bytesWf_scanIn {tl : Tile} {i : Inst} (h : tl.bytesWf = true) : (tl.scanIn i).bytesWf = true := by
  unfold Tile.scanIn
  split
  · exact h
  · simp only [Tile.bytesWf, Bool.and_eq_true] at h ⊢
    exact ⟨h.1, List.foldlRecOn (motive := fun m : List Host.Cell => cellsWf m = true) _ _ (cellsWf_filter _ _ h.2)
      fun m hm c _ => cellsWf_writeByte m c.1 c.2 hm⟩

theorem Memory.wf_refuseInst {s : State} {t : Nat} {i : Inst} (h : Memory.wf s = true) : Memory.wf (s.refuseInst t i) = true :=
  Memory.wf_modCtx (Memory.wf_modTile h fun ht => ht)

theorem Memory.wf_startInst {s : State} {t : Nat} {r : Run} {i : Inst} (h : Memory.wf s = true) : Memory.wf (s.startInst t r i) = true := by
  unfold State.startInst
  dsimp only
  split
  · exact h
  · split
    · exact Memory.wf_refuseInst h
    · exact Memory.wf_modTile (Memory.wf_update (Memory.wf_issueBinds (Memory.wf_update h))) fun ht => Tile.bytesWf_modCtxInst
        (Tile.bytesWf_ite (Tile.bytesWf_of ht rfl rfl) ht)

theorem Tile.bytesWf_pull {tl : Tile} {i : Inst} {key role n : Nat} (h : tl.bytesWf = true) : (tl.pull i key role n).1.bytesWf = true := by
  unfold Tile.pull
  split <;> exact h

theorem Tile.bytesWf_flush {tl : Tile} {i : Inst} {key : Nat} (h : tl.bytesWf = true) : (tl.flush i key).1.bytesWf = true := by
  unfold Tile.flush
  split <;> exact h

theorem Memory.wf_blockTrap {s : State} {t qmask : Nat} {i : Inst} {f : BFault} (h : Memory.wf s = true) :
    Memory.wf (s.blockTrap t qmask i f) = true :=
  Memory.wf_enter _ _ _ _ _ _ (Memory.wf_modCtx h)

theorem Memory.wf_holdInst {s : State} {t qmask : Nat} {i : Inst} (h : Memory.wf s = true) : Memory.wf (s.holdInst t qmask i) = true :=
  Memory.wf_modCtx h

theorem Memory.wf_blockFault {s : State} {t : Nat} {r : Run} {i : Inst} {cause addr aux : Nat} {ix : List Nat} (h : Memory.wf s = true) :
    Memory.wf (s.blockFault t r i cause addr aux ix) = true := by
  unfold State.blockFault
  dsimp only
  split
  · exact Memory.wf_modCtx (Memory.wf_modTile h fun ht => Tile.bytesWf_keepOnly ht)
  · exact Memory.wf_blockTrap (Memory.wf_modCtx (Memory.wf_modTile h fun ht => Tile.bytesWf_keepOnly ht))

theorem canonical_execScanOutComplete {t qmask : Nat} {s : State} (h : Memory.wf s = true) : Out.Canonical (execScanOutComplete t qmask s) := by
  unfold execScanOutComplete
  dsimp only
  split
  · exact Out.canonical_next h
  · split
    · exact Out.canonical_next h
    · split
      · exact Out.canonical_next h
      · split
        · exact Out.canonical_next h
        · exact Out.canonical_next (Memory.wf_blockTrap (Memory.wf_modTile h fun ht => Tile.bytesWf_of (Tile.bytesWf_dropScanned _ _ ht) rfl rfl))

theorem Memory.wf_countBeat {s : State} {t : Nat} {i : Inst} (h : Memory.wf s = true) : Memory.wf (s.countBeat t i) = true :=
  Memory.wf_meter _ _ _ (Memory.wf_work h)

theorem Tile.bytesWf_pullPanel {tl : Tile} {i : Inst} {f : Folio} (h : tl.bytesWf = true) : (tl.pullPanel i f).1.bytesWf = true := by
  unfold Tile.pullPanel
  split
  · split
    · exact Tile.bytesWf_pull h
    · exact h
  · exact h

theorem Tile.bytesWf_pullAll {tl : Tile} {i : Inst} {f : Folio} (h : tl.bytesWf = true) : (tl.pullAll i f).1.bytesWf = true := by
  unfold Tile.pullAll
  dsimp only
  split
  · exact Tile.bytesWf_foldl_fst (fun _ _ ht => Tile.bytesWf_pull ht) _ _ (Tile.bytesWf_pullPanel h)
  · exact Tile.bytesWf_pullPanel h

theorem Tile.bytesWf_compute {tl : Tile} {i : Inst} {f : Folio} {r : Inst × Tile} (h : tl.bytesWf = true) (e : tl.compute i f = some r) :
    r.2.bytesWf = true := by
  unfold Tile.compute at e
  dsimp only at e
  split at e
  · obtain ⟨x, _, rfl⟩ := Option.map_eq_some_iff.1 e
    exact h
  · exact Tile.bytesWf_sumBeat h e

theorem Memory.wf_runBeat {s : State} {t : Nat} {r : Run} {i : Inst} {f : Folio} (h : Memory.wf s = true) :
    Memory.wf (s.runBeat t r i f) = true := by
  unfold State.runBeat
  dsimp only
  split
  · exact Memory.wf_blockFault h
  · split
    · exact Memory.wf_blockFault h
    · rename_i e
      exact Memory.wf_countBeat (Memory.wf_modTile h fun ht => Tile.bytesWf_modInst (Tile.bytesWf_compute ht e))

theorem Memory.wf_flushInst {s : State} {t : Nat} {r : Run} {i : Inst} {rk : Nat} (h : Memory.wf s = true) :
    Memory.wf (s.flushInst t r i rk).1 = true := by
  unfold State.flushInst
  refine Memory.wf_modTile h fun ht => ?_
  refine Tile.bytesWf_modInst ?_
  split
  · split
    · exact Tile.bytesWf_flush ht
    · exact ht
  · split
    · exact Tile.bytesWf_flush ht
    · exact ht

theorem Memory.wf_workInst {s : State} {t : Nat} {r : Run} {i : Inst} (h : Memory.wf s = true) : Memory.wf (s.workInst t r i) = true := by
  unfold State.workInst
  dsimp only
  split
  · exact Memory.wf_blockFault h
  · split
    · exact Memory.wf_flushInst h
    · split
      · exact Memory.wf_blockFault (Memory.wf_flushInst h)
      · split
        · exact Memory.wf_flushInst h
        · split
          · split
            · exact Memory.wf_blockFault (Memory.wf_modTile (Memory.wf_flushInst h) fun ht => Tile.bytesWf_modInst (Tile.bytesWf_pullAll ht))
            · exact Memory.wf_modTile (Memory.wf_flushInst h) fun ht => Tile.bytesWf_modInst (Tile.bytesWf_pullAll ht)
          · split
            · exact Memory.wf_runBeat (Memory.wf_modTile (Memory.wf_flushInst h) fun ht => Tile.bytesWf_modInst (Tile.bytesWf_pullAll ht))
            · exact Memory.wf_modTile (Memory.wf_flushInst h) fun ht => Tile.bytesWf_modInst (Tile.bytesWf_pullAll ht)

theorem Memory.wf_prefetch {s : State} {t qmask : Nat} (h : Memory.wf s = true) : Memory.wf (s.prefetch t qmask) = true := by
  unfold State.prefetch
  split
  · exact h
  · split
    · dsimp only
      split
      · exact h
      · split
        · exact Memory.wf_startInst h
        · split
          · exact h
          · exact Memory.wf_ite h (Memory.wf_modTile h fun ht => Tile.bytesWf_modCtxInst (Tile.bytesWf_pullPanel ht))
    · exact h

theorem Memory.wf_drainInst {s : State} {t : Nat} {r : Run} {i : Inst} (h : Memory.wf s = true) : Memory.wf (s.drainInst t r i) = true :=
  Memory.wf_ite h (Memory.wf_flushInst h)

theorem canonical_execBlockBeat {t qmask : Nat} {s : State} (h : Memory.wf s = true) : Out.Canonical (execBlockBeat t qmask s) := by
  unfold execBlockBeat
  dsimp only
  split
  · exact Out.canonical_next h
  · split
    · exact Out.canonical_next h
    · split
      · exact Out.canonical_next (Memory.wf_drainInst h)
      · split
        · exact Out.canonical_next h
        · split
          · exact Out.canonical_next (Memory.wf_ite h (Memory.wf_killTask h))
          · split
            · exact Out.canonical_next (Memory.wf_startInst h)
            · split
              · exact Out.canonical_next (Memory.wf_modTile h fun ht => Tile.bytesWf_modInst (Tile.bytesWf_scanIn ht))
              · split
                · exact Out.canonical_next h
                · exact Out.canonical_next (Memory.wf_prefetch (Memory.wf_workInst h))

theorem Memory.wf_completeInst {s : State} {t : Nat} {r : Run} {i : Inst} {ix : List Nat} {beats : Nat} (h : Memory.wf s = true) :
    Memory.wf (s.completeInst t r i ix beats) = true :=
  Memory.wf_modTile (Memory.wf_modCtx h) fun ht => Tile.bytesWf_dropInst _ _ _ ht

theorem canonical_execInstanceComplete {t qmask : Nat} {s : State} (h : Memory.wf s = true) : Out.Canonical (execInstanceComplete t qmask s) := by
  unfold execInstanceComplete
  dsimp only
  split
  · exact Out.canonical_next h
  · split
    · exact Out.canonical_next h
    · split
      · exact Out.canonical_next h
      · exact Out.canonical_next (Memory.wf_completeInst h)

/-! The elements (Machine/Elements). -/

theorem Cyc.wf_fail {c : Cyc} {f : EFault} (h : Memory.wf c.s = true) : Memory.wf (c.fail f).s = true := h

theorem Cyc.wf_mod {c : Cyc} {e : Nat} {f : Elem → Elem} (h : Memory.wf c.s = true) : Memory.wf (c.mod e f).s = true := h

theorem Cyc.wf_falloc {c : Cyc} {l : Nat} (h : Memory.wf c.s = true) : Memory.wf (c.falloc l).c.s = true := h

theorem Effect.wf_of {c : Cyc} (h : Memory.wf c.s = true) : Memory.wf (Effect.of c).c.s = true := h

theorem Cyc.wf_ffree {c : Cyc} {a : Nat} {psn : Bool} (h : Memory.wf c.s = true) : Memory.wf (c.ffree a psn).c.s = true := by
  unfold Cyc.ffree
  split <;> exact h

theorem Cyc.wf_freed {c c' : Cyc} {l a : Nat} (h : Memory.wf c.s = true) (e : c.freed l a = some c') : Memory.wf c'.s = true := by
  unfold Cyc.freed at e
  split at e
  · cases e
  · cases e
    exact h

theorem Cyc.wf_frameOp {c : Cyc} {isSt : Bool} {addr b : Nat} {addrPsn bPsn readPsn toReg : Bool} (h : Memory.wf c.s = true) :
    Memory.wf (c.frameOp isSt addr b addrPsn bPsn readPsn toReg).c.s = true := by
  unfold Cyc.frameOp
  dsimp only
  split
  · exact h
  · split
    · exact h
    · split
      · exact h
      · split
        · exact h
        · split
          · refine Effect.wf_of ?_
            split <;> exact h
          · split
            · refine Effect.wf_of ?_
              split
              · exact Memory.wf_poisonAt _ _ (Memory.wf_writeHome _ _ _ h)
              · exact Memory.wf_writeHome _ _ _ h
            · exact h

theorem Cyc.wf_send {c : Cyc} {r : Rule} {x : Elem} {tag a b : Nat} {psn : Bool} (h : Memory.wf c.s = true) :
    Memory.wf (c.send r x tag a b psn).c.s = true := by
  unfold Cyc.send
  generalize (if r.imm = 0xFFF then some c.t else (c.s.launch ((c.s.tile c.t).lid.getD 0)).tiles[r.imm]?) = dest
  dsimp only
  split
  · exact h
  · split
    · exact h
    · exact Effect.wf_of (Memory.wf_meter _ _ _ (Memory.wf_modTile (Memory.wf_sendFlit h) fun ht => ht))

theorem Cyc.wf_nodeOp {c : Cyc} {r : Rule} {x : Elem} {a b : Nat} {aPsn bPsn : Bool} (h : Memory.wf c.s = true) :
    Memory.wf (c.nodeOp r x a b aPsn bPsn).c.s = true := by
  unfold Cyc.nodeOp
  dsimp only
  generalize (if (r.op == 70) = true then x.reg (r.imm / 32 % 8) else a) % 2 ^ 32 = ix
  split
  · exact h
  · split
    · exact h
    · split <;> exact h

theorem Cyc.wf_schold {c : Cyc} {e : Nat} {acquire : Bool} (h : Memory.wf c.s = true) : Memory.wf (c.schold e acquire).c.s = true := by
  unfold Cyc.schold
  split
  · exact h
  · split <;> exact h

theorem Cyc.wf_effect {c : Cyc} {e : Nat} {r : Rule} {x : Elem} {k : QTok} {a b : Nat × Bool} (h : Memory.wf c.s = true) :
    Memory.wf (c.effect e r x k a b).c.s = true := by
  unfold Cyc.effect
  split
  · exact Cyc.wf_send h
  · exact Cyc.wf_frameOp h
  · exact Cyc.wf_frameOp h
  · exact Cyc.wf_falloc h
  · exact Cyc.wf_ffree h
  · exact Cyc.wf_schold h
  · exact Cyc.wf_nodeOp h

theorem Cyc.wf_place {c : Cyc} {e n word : Nat} {r : Rule} {k : QTok} {f : Effect} {left : Nat} {later : Bool} (h : Memory.wf c.s = true) :
    Memory.wf (c.place e n word r k f left later).s = true := by
  unfold Cyc.place
  dsimp only
  exact h

theorem Cyc.wf_fire {c : Cyc} {e n word : Nat} (h : Memory.wf c.s = true) : Memory.wf (c.fire e n word).s = true := by
  unfold Cyc.fire
  dsimp only
  split
  · exact Cyc.wf_ite (Cyc.wf_fail h) (Cyc.wf_place h)
  · refine Cyc.wf_place ?_
    split <;> exact Cyc.wf_effect h

theorem Cyc.wf_pass {c : Cyc} {e : Nat} {winner : Option Nat} {n : Nat} {done classes : List Nat} (h : Memory.wf c.s = true) :
    Memory.wf (c.pass e winner n done classes).s = true := by
  induction n generalizing c done classes with
  | zero => exact h
  | succ n ih =>
    unfold Cyc.pass
    split
    · exact h
    · dsimp only
      split
      · exact ih h
      · exact ih (Cyc.wf_fire h)

theorem Cyc.wf_passes {c : Cyc} {w : Option Nat} {n : Nat} (h : Memory.wf c.s = true) : Memory.wf (c.passes w n).s = true :=
  Cyc.wf_foldl (fun _ _ hu => Cyc.wf_ite hu (Cyc.wf_pass hu)) _ _ h

theorem Cyc.wf_fireAll {c : Cyc} (h : Memory.wf c.s = true) : Memory.wf (c.fireAll).s = true := Cyc.wf_passes h

theorem Cyc.wf_completeOp {c : Cyc} {p : EPend} (h : Memory.wf c.s = true) : Memory.wf (c.completeOp p).s = true := by
  unfold Cyc.completeOp
  dsimp only
  split
  · exact Cyc.wf_fail h
  · split
    · split
      · exact Cyc.wf_fail h
      · rename_i c' e
        have hc : Memory.wf c'.s = true := Cyc.wf_freed h e
        exact hc
    · exact h

theorem Cyc.wf_settle {c : Cyc} (h : Memory.wf c.s = true) : Memory.wf c.settle.s = true := by
  unfold Cyc.settle
  refine Cyc.wf_foldl (fun _ _ hu => ?_) _ _ h
  exact Cyc.wf_ite hu (Cyc.wf_ite hu (Cyc.wf_completeOp hu))

/-! Hardware steps of the elements (Machine/EvElement). -/

theorem Cyc.wf_take {c : Cyc} {e n : Nat} {k : Cand} (h : Memory.wf c.s = true) : Memory.wf (c.take e n k).s = true := by
  unfold Cyc.take
  dsimp only
  split
  · exact Memory.wf_modTile (Cyc.wf_mod h) fun ht => ht
  · refine Memory.wf_modTile (Cyc.wf_mod h) fun ht => ?_
    split <;> exact ht

theorem Cyc.wf_intake {c : Cyc} {ports : List Nat} {e : Nat} (h : Memory.wf c.s = true) : Memory.wf (c.intake ports e).s = true := by
  unfold Cyc.intake
  dsimp only
  split
  · exact h
  · exact Cyc.wf_ite (Cyc.wf_fail h) (Cyc.wf_take h)

theorem Cyc.wf_streamFault {c : Cyc} {ports outs : List Nat} (h : Memory.wf c.s = true) : Memory.wf (c.streamFault ports outs).s = true := by
  unfold Cyc.streamFault
  dsimp only
  split
  · exact Cyc.wf_fail h
  · exact h

theorem Cyc.wf_convert {c : Cyc} {e q k : Nat} {x : QTok} (h : Memory.wf c.s = true) : Memory.wf (c.convert e q k x).s = true := by
  unfold Cyc.convert
  split
  · exact h
  · exact Cyc.wf_ite h (Cyc.wf_ite (Cyc.wf_fail h) (Memory.wf_modTile h fun ht => ht))

theorem Cyc.wf_passOut {c : Cyc} {ports : List Nat} {e q : Nat} (h : Memory.wf c.s = true) : Memory.wf (c.passOut ports e q).s = true := by
  unfold Cyc.passOut
  split
  · exact h
  · split
    · exact h
    · split
      · exact Cyc.wf_convert h
      · split
        · exact h
        · exact Cyc.wf_ite h h

theorem Cyc.wf_takeIn {c : Cyc} {ins outs : List Nat} (h : Memory.wf c.s = true) : Memory.wf (c.takeIn ins outs).s = true := by
  unfold Cyc.takeIn
  have hs : Memory.wf (c.streamFault ins outs).s = true := Cyc.wf_streamFault h
  dsimp only
  split
  · exact hs
  · exact Cyc.wf_foldl (fun c e hc => Cyc.wf_intake hc) _ _ hs

theorem Cyc.wf_run {c : Cyc} {ins outs : List Nat} {held : Bool} (h : Memory.wf c.s = true) : Memory.wf (c.run ins outs held).s = true := by
  unfold Cyc.run
  have ht : Memory.wf (c.takeIn ins outs).s = true := Cyc.wf_takeIn h
  dsimp only
  split
  · exact ht
  · refine Cyc.wf_foldl (fun c x hc => Cyc.wf_passOut hc) _ _ (Cyc.wf_settle ?_)
    split
    · exact ht
    · exact Cyc.wf_fireAll ht

theorem Cyc.wf_store {c : Cyc} {qmask : Nat} (h : Memory.wf c.s = true) : Memory.wf (c.store qmask) = true :=
  Memory.wf_modTile h fun ht => ht

theorem Cyc.wf_close {c : Cyc} {r : Run} (h : Memory.wf c.s = true) : Memory.wf (c.close r) = true := by
  unfold Cyc.close
  have hs : Memory.wf (if c.fired = 0 then c.store r.qmask else (((c.store r.qmask).work c.t 11 1 ((c.store r.qmask).ctx c.t c.i.ctx).trap).meter
      ((c.store r.qmask).partId c.t) 4 c.fired)) = true := by
    split
    · exact Cyc.wf_store h
    · exact Memory.wf_meter _ _ _ (Memory.wf_work (Cyc.wf_store h))
  dsimp only
  split
  · exact Memory.wf_blockFault hs
  · exact hs

theorem Memory.wf_elementStep {s : State} {t : Nat} {r : Run} {i : Inst} {f : Folio} {p : EPart} (h : Memory.wf s = true) :
    Memory.wf (s.elementStep t r i f p) = true := by
  unfold State.elementStep
  dsimp only
  split
  · split
    · exact Memory.wf_modCtx (Memory.wf_modTile h fun ht => ht)
    · exact Memory.wf_blockFault (Memory.wf_modTile h fun ht => ht)
  · split
    · split
      · exact Memory.wf_modTile (Memory.wf_completeInst h) fun ht => ht
      · exact h
    · exact Cyc.wf_close (Cyc.wf_run h)

theorem Memory.wf_restStep {s : State} {t : Nat} {r : Run} {i : Inst} {p : EPart} (h : Memory.wf s = true) : Memory.wf (s.restStep t r i p) = true :=
  Cyc.wf_close (Cyc.wf_settle h)

theorem canonical_execElementCycle {t : Nat} {s : State} (h : Memory.wf s = true) : Out.Canonical (execElementCycle t s) := by
  unfold execElementCycle
  dsimp only
  split
  · exact Out.canonical_next h
  · split
    · exact Out.canonical_next h
    · split
      · exact Out.canonical_next h
      · split
        · exact Out.canonical_next h
        · split
          · exact Out.canonical_next (Memory.wf_ite (Memory.wf_restStep h) (Memory.wf_ite h (Memory.wf_killTask h)))
          · split
            · exact Out.canonical_next h
            · exact Out.canonical_next (Memory.wf_elementStep h)

theorem Memory.wf_nodeAccess {s : State} {t : Nat} {d : NodeDesc} {isSt : Bool} {p : EPend} (h : Memory.wf s = true) :
    Memory.wf (s.nodeAccess t d isSt p).1 = true := by
  unfold State.nodeAccess
  dsimp only
  split
  · exact h
  · split
    · exact Memory.wf_ite (Memory.wf_edgeAt h) h
    · split
      · dsimp only
        split
        · exact Memory.wf_poisonAt _ _ (Memory.wf_doStore _ _ _ _ (Memory.wf_edgeTouch _ _ _ _ _ _ _ _ h))
        · exact Memory.wf_doStore _ _ _ _ (Memory.wf_edgeTouch _ _ _ _ _ _ _ _ h)
      · split
        · exact Memory.wf_edgeTouch _ _ _ _ _ _ _ _ h
        · exact Memory.wf_meterDev _ _ _ _ (Memory.wf_edgeTouch _ _ _ _ _ _ _ _ h)

theorem canonical_execMemoryNodeComplete {t id : Nat} {s : State} (h : Memory.wf s = true) : Out.Canonical (execMemoryNodeComplete t id s) := by
  unfold execMemoryNodeComplete
  extract_lets tl
  split
  · exact Out.canonical_next h
  · split
    · extract_lets w x
      split
      · exact Out.canonical_next h
      · have hx : Memory.wf x.1 = true := Memory.wf_nodeAccess h
        clear_value x
        split
        · split
          · exact Out.canonical_next (Memory.wf_blockFault (Memory.wf_modTile hx fun ht => Tile.bytesWf_of ht rfl rfl))
          · exact Out.canonical_next (Memory.wf_modTile hx fun ht => Tile.bytesWf_of ht rfl rfl)
        · exact Out.canonical_next (Memory.wf_modTile hx fun ht => Tile.bytesWf_of ht rfl rfl)
    · exact Out.canonical_next h

theorem canonical_execActiveMessageArrival {t : Nat} {s : State} (h : Memory.wf s = true) : Out.Canonical (execActiveMessageArrival t s) := by
  unfold execActiveMessageArrival
  split
  · exact Out.canonical_next h
  · rename_i f tl e
    have ht : tl.bytesWf = true := Tile.bytesWf_takeIntake (Memory.wf_tile h t) e
    dsimp only
    split
    · exact Out.canonical_next (Memory.wf_modTile h fun _ => ht)
    · split
      · exact Out.canonical_next (Memory.wf_modTile h fun _ => Tile.bytesWf_of ht rfl rfl)
      · refine Out.canonical_next (Memory.wf_modTile h fun _ => Tile.bytesWf_setStore ht rfl ?_)
        dsimp only
        split <;> exact Store.wf_write _ _ _ _ (Tile.wf_store ht)

/-! Launches (Machine/Launches). -/

theorem Memory.wf_enrol {s : State} {p die limit : Nat} {d : Desc} {x2 : Nat} {parent rack : Option Nat} {r : Nat × State} (h : Memory.wf s = true)
    (e : s.enrol p die limit d x2 parent rack = some r) : Memory.wf r.2 = true := by
  unfold State.enrol at e
  split at e
  · cases e
  · dsimp only at e
    split at e
    · cases e
    · cases e
      exact Memory.wf_update (Memory.wf_modLaunch h)

/-! Tasks (Machine/Tasks). -/

theorem Memory.wf_touchRecord {s : State} {addr : Nat} {r : Except Trap3 (Task × Home)} (h : Memory.wf s = true) :
    Memory.wf (s.touchRecord addr r) = true := by
  unfold State.touchRecord
  dsimp only
  split
  · exact h
  · split
    · exact Memory.wf_missed (Memory.wf_readRecordAt h)
    · exact Memory.wf_ite (Memory.wf_readRecordAt h) (Memory.wf_fillCache _ _ _ _ _ (Memory.wf_readRecordAt h))

theorem Memory.wf_readRecords {s : State} {base k n : Nat} (h : Memory.wf s = true) : Memory.wf (s.readRecords base k n).1 = true := by
  induction n generalizing s k with
  | zero => exact h
  | succ n ih =>
    unfold State.readRecords
    dsimp only
    split
    · exact Memory.wf_touchRecord h
    · exact ih (Memory.wf_touchRecord h)

theorem Memory.wf_publishAll {s u : State} {l : List Task} (h : Memory.wf s = true) (e : s.publishAll l = some u) : Memory.wf u = true := by
  induction l generalizing s with
  | nil => cases e; exact h
  | cons k t ih =>
    unfold State.publishAll at e
    dsimp only at e
    split at e
    · cases e
    · exact ih (Memory.wf_update h) e

theorem Memory.wf_spawnAll {s : State} {xr xst xq n : Nat} {status : Nat → Nat} (h : Memory.wf s = true) :
    Memory.wf (s.spawnAll xr xst xq n status) = true := by
  unfold State.spawnAll
  dsimp only
  split
  · exact Memory.wf_trapNow _ _ _ (Memory.wf_readRecords h)
  · split
    · exact Memory.wf_advance (Memory.wf_setX (Memory.wf_readRecords h))
    · split
      · exact Memory.wf_advance (Memory.wf_setX (Memory.wf_readRecords h))
      · rename_i e
        exact Memory.wf_advance (Memory.wf_setX (Memory.wf_setX (Memory.wf_modMe (Memory.wf_publishAll (Memory.wf_readRecords h) e))))

theorem canonical_execSpawn {xr xst xq : Nat} {s : State} (h : Memory.wf s = true) : Out.Canonical (execSpawn xr xst xq s) :=
  Out.canonical_next (Memory.wf_spawnAll h)

theorem canonical_execSpawnn {xr xst xq count : Nat} {s : State} (h : Memory.wf s = true) : Out.Canonical (execSpawnn xr xst xq count s) :=
  Out.canonical_next (Memory.wf_spawnAll h)

theorem canonical_execLaunch {xd xq : Nat} {s : State} (h : Memory.wf s = true) : Out.Canonical (execLaunch xd xq s) := by
  unfold execLaunch
  dsimp only
  split
  · exact Out.canonical_next (Memory.wf_trapNow _ _ _ h)
  · split
    · exact Out.canonical_next (Memory.wf_trapNow _ _ _ (Memory.wf_missed h))
    · split
      · exact Out.canonical_next (Memory.wf_trapNow _ _ _ (Memory.wf_readRecordAt h))
      · split
        · exact Out.canonical_next (Memory.wf_trapNow _ _ _ (Memory.wf_readRecordAt h))
        · split
          · rename_i e
            exact Out.canonical_next (Memory.wf_advance (Memory.wf_setX (Memory.wf_enrol (Memory.wf_readRecordAt h) e)))
          · exact Out.canonical_next (Memory.wf_advance (Memory.wf_setX (Memory.wf_readRecordAt h)))

theorem Memory.wf_markRoots {s : State} {p sc : Nat} (h : Memory.wf s = true) : Memory.wf (s.markRoots p sc) = true := Memory.wf_update h

theorem Memory.wf_openCancel {s : State} {p sc quote : Nat} {ack : Option Nat} (h : Memory.wf s = true) :
    Memory.wf (s.openCancel p sc quote ack) = true :=
  Memory.wf_sendEdge (Memory.wf_update (Memory.wf_markRoots h))

theorem Memory.wf_doomSelf {s : State} {sc : Nat} (h : Memory.wf s = true) : Memory.wf (s.doomSelf sc) = true := Memory.wf_ite (Memory.wf_modMe h) h

theorem canonical_execCancel {xs xa xq : Nat} {s : State} (h : Memory.wf s = true) : Out.Canonical (execCancel xs xa xq s) := by
  unfold execCancel
  dsimp only
  split
  · exact Out.canonical_next (Memory.wf_trapNow _ _ _ h)
  · split
    · exact Out.canonical_next (Memory.wf_trapNow _ _ _ h)
    · split
      · exact Out.canonical_next (Memory.wf_trapNow _ _ _ (Memory.wf_missed h))
      · split
        · exact Out.canonical_next (Memory.wf_advance (Memory.wf_setX h))
        · exact Out.canonical_next (Memory.wf_advance (Memory.wf_setX (Memory.wf_doomSelf (Memory.wf_openCancel h))))

/-! Scopes (Machine/Scopes). -/

theorem Memory.wf_requeue {s : State} (h : Memory.wf s = true) : Memory.wf (s.requeue) = true := by
  unfold State.requeue
  dsimp only
  split
  · exact h
  · exact Memory.wf_modMyTile (Memory.wf_endTask _ _ h) fun ht => Tile.bytesWf_of ht rfl rfl

theorem canonical_execYield {s : State} (h : Memory.wf s = true) : Out.Canonical (execYield s) := by
  unfold execYield
  refine Out.canonical_next ?_
  split
  · exact Memory.wf_trapNow _ _ _ h
  · exact Memory.wf_ite (Memory.wf_requeue h) (Memory.wf_advance h)

theorem canonical_execExit {loc : Bool} {a b : Nat} {s : State} (h : Memory.wf s = true) : Out.Canonical (execExit loc a b s) := by
  unfold execExit
  split
  · exact Out.canonical_next (Memory.wf_endTask _ _ h)
  · dsimp only
    split
    · exact Out.canonical_next (Memory.wf_trapNow _ _ _ h)
    · split
      · exact Out.canonical_next (Memory.wf_trapNow _ _ _ (Memory.wf_missed h))
      · split
        · exact Out.canonical_next (Memory.wf_trapNow _ _ _ h)
        · exact Out.canonical_next (Memory.wf_endTask _ _ (Memory.wf_push h))

theorem Memory.wf_scopeChild {s : State} {d p c : Nat} (h : Memory.wf s = true) : Memory.wf (s.scopeChild d p c) = true :=
  Memory.wf_ite (Memory.wf_trapNow _ _ _ h) (Memory.wf_advance (Memory.wf_setX h))

theorem canonical_execScopeSet {d p c : Nat} {s : State} (h : Memory.wf s = true) : Out.Canonical (execScopeSet d p c s) :=
  Out.canonical_next (Memory.wf_ite (Memory.wf_trapNow _ _ _ h) (Memory.wf_scopeChild h))

theorem canonical_execScopeSplit {d p c : Nat} {s : State} (h : Memory.wf s = true) : Out.Canonical (execScopeSplit d p c s) :=
  Out.canonical_next (Memory.wf_ite (Memory.wf_trapNow _ _ _ h) (Memory.wf_scopeChild h))

theorem canonical_execChkc {s : State} (h : Memory.wf s = true) : Out.Canonical (execChkc s) :=
  Out.canonical_next (Memory.wf_ite (Memory.wf_killTask h) (Memory.wf_advance h))

theorem canonical_execSquery {d a : Nat} {s : State} (h : Memory.wf s = true) : Out.Canonical (execSquery d a s) :=
  Out.canonical_next (Memory.wf_advance (Memory.wf_setX h))

/-! System instructions (Machine/System). -/

theorem canonical_execTrap {a n : Nat} {s : State} (h : Memory.wf s = true) : Out.Canonical (execTrap a n s) :=
  Out.canonical_next (Memory.wf_trapNow _ _ _ h)

theorem Memory.wf_returnOr {s k : State} (h : Memory.wf s = true) (h2 : Memory.wf k = true) : Memory.wf (s.returnOr k) = true :=
  Memory.wf_ite (Memory.wf_trapNow _ _ _ h) (Memory.wf_ite (Memory.wf_killTask h) h2)

theorem canonical_execTret {s : State} (h : Memory.wf s = true) : Out.Canonical (execTret s) :=
  Out.canonical_next (Memory.wf_returnOr h (Memory.wf_leaveTrap h))

theorem canonical_execTretN {s : State} (h : Memory.wf s = true) : Out.Canonical (execTretN s) := by
  unfold execTretN
  refine Out.canonical_next ?_
  refine Memory.wf_returnOr h ?_
  split
  · exact Memory.wf_trapNow _ _ _ h
  · exact Memory.wf_leaveTrap h

theorem canonical_execPrio {reg : Bool} {v : Nat} {s : State} (h : Memory.wf s = true) : Out.Canonical (execPrio reg v s) :=
  Out.canonical_next (Memory.wf_advance (Memory.wf_modMe h))

theorem canonical_execMtrd {d m : Nat} {s : State} (h : Memory.wf s = true) : Out.Canonical (execMtrd d m s) :=
  Out.canonical_next (Memory.wf_advance (Memory.wf_push h))

theorem canonical_execHalt {code : Nat} {s : State} (h : Memory.wf s = true) : Out.Canonical (execHalt code s) :=
  Out.canonical_next (Memory.wf_openCancel (Memory.wf_modLaunch (Memory.wf_endTask _ _ h)))

theorem canonical_execNop {s : State} (h : Memory.wf s = true) : Out.Canonical (execNop s) := Out.canonical_next (Memory.wf_advance h)

/-! Hardware steps of the contexts (Machine/EvContext). -/

theorem canonical_execFetchFault {t c : Nat} {s : State} (h : Memory.wf s = true) : Out.Canonical (execFetchFault t c s) := by
  unfold execFetchFault
  dsimp only
  split
  · exact Out.canonical_next h
  · split
    · exact Out.canonical_next (Memory.wf_enter _ _ _ _ _ _ h)
    · exact Out.canonical_next h

theorem Memory.wf_abandonWait {s : State} {t c : Nat} (h : Memory.wf s = true) : Memory.wf (s.abandonWait t c) = true := by
  unfold State.abandonWait
  dsimp only
  split
  · split
    · split
      · exact Memory.wf_holdInst (Memory.wf_modTile h fun ht => Tile.bytesWf_keepOnly ht)
      · exact Memory.wf_modCtx (Memory.wf_modTile h fun ht => ht)
    · split
      · exact Memory.wf_holdInst (Memory.wf_modTile h fun ht => ht)
      · exact Memory.wf_modCtx (Memory.wf_modTile h fun ht => Tile.bytesWf_dropCtx _ _ ht)
  · exact Memory.wf_modCtx h

theorem canonical_execDeferredTrap {t c : Nat} {s : State} (h : Memory.wf s = true) : Out.Canonical (execDeferredTrap t c s) := by
  unfold execDeferredTrap
  dsimp only
  split
  · exact Out.canonical_next h
  · split
    · exact Out.canonical_next h
    · split
      · split
        · exact Out.canonical_next (Memory.wf_doubleTrap _ _ _ _ h)
        · exact Out.canonical_next h
      · exact Out.canonical_next (Memory.wf_enter _ _ _ _ _ _ (Memory.wf_modCtx (Memory.wf_abandonWait h)))

theorem canonical_returnResult {s : State} {t c id : Nat} (h : Memory.wf s = true) : Out.Canonical (s.returnResult t c id) := by
  unfold State.returnResult
  dsimp only
  split
  · exact Out.canonical_next h
  · split
    · exact Out.canonical_next h
    · exact Out.canonical_next (Memory.wf_modCtx h)
    · split
      · exact Out.canonical_next (Memory.wf_modCtx h)
      · split
        · exact Out.canonical_next (Memory.wf_doubleTrap _ _ _ _ (Memory.wf_modCtx h))
        · exact Out.canonical_next (Memory.wf_modCtx (Memory.wf_modCtx h))

theorem Memory.wf_putAccess {s : State} {t c : Nat} {a : Access} (h : Memory.wf s = true) : Memory.wf (s.putAccess t c a) = true :=
  Memory.wf_modCtx h

theorem canonical_execLdhTimeout {t c id : Nat} {s : State} (h : Memory.wf s = true) : Out.Canonical (execLdhTimeout t c id s) := by
  unfold execLdhTimeout
  split
  · split
    · exact Out.canonical_next (Memory.wf_putAccess h)
    · exact Out.canonical_next h
  · exact Out.canonical_next h

theorem Memory.wf_atEdgeOf {s : State} {t : Nat} {a : Access} (h : Memory.wf s = true) : Memory.wf (s.atEdgeOf t a) = true := by
  unfold State.atEdgeOf
  split
  · exact Memory.wf_edgeTouch _ _ _ _ _ _ _ _ h
  · exact Memory.wf_ite (Memory.wf_edgeAt h) h

theorem Memory.wf_hostValue {s : State} {n : Nat} (h : Memory.wf s = true) : Memory.wf (s.hostValue n).2 = true := Memory.wf_update h

theorem Memory.wf_answerLdh {s : State} {t c : Nat} {a : Access} {hostError : Bool} (h : Memory.wf s = true) :
    Memory.wf (s.answerLdh t c a hostError) = true := by
  unfold State.answerLdh
  split
  · exact Memory.wf_putAccess h
  · exact Memory.wf_putAccess (Memory.wf_meter _ _ _ (Memory.wf_hostValue (Memory.wf_atEdgeOf h)))

theorem canonical_execMemoryAccessAtHome {t c id : Nat} {hostError : Bool} {s : State} (h : Memory.wf s = true) :
    Out.Canonical (execMemoryAccessAtHome t c id hostError s) := by
  unfold execMemoryAccessAtHome
  dsimp only
  split
  · exact Out.canonical_next h
  · split
    · exact Out.canonical_next h
    · split
      · exact Out.canonical_next (Memory.wf_answerLdh h)
      · refine Out.canonical_ite (Out.canonical_next h) ?_
        split
        · exact Out.canonical_next (Memory.wf_putAccess (Memory.wf_atEdgeOf h))
        · exact Out.canonical_next (Memory.wf_putAccess (Memory.wf_performAt _ _ (Memory.wf_atEdgeOf h)))

theorem canonical_execCxlReadReturn {t c id : Nat} {poisoned : Bool} {s : State} (h : Memory.wf s = true) :
    Out.Canonical (execCxlReadReturn t c id poisoned s) := by
  unfold execCxlReadReturn
  dsimp only
  split
  · exact Out.canonical_next h
  · refine Out.canonical_ite (Out.canonical_next h) ?_
    split
    · exact Out.canonical_next (Memory.wf_putAccess (Memory.wf_atEdgeOf h))
    · exact Out.canonical_next (Memory.wf_putAccess (Memory.wf_performAt _ _ (Memory.wf_atEdgeOf h)))

theorem canonical_execZeroLengthReadCompletion {t c : Nat} {s : State} (h : Memory.wf s = true) :
    Out.Canonical (execZeroLengthReadCompletion t c s) := by
  unfold execZeroLengthReadCompletion
  dsimp only
  split
  · exact Out.canonical_next h
  · split
    · exact Out.canonical_next (Memory.wf_putAccess h)
    · exact Out.canonical_next h

theorem Memory.wf_wake {s : State} {t c : Nat} {w : Wait} (h : Memory.wf s = true) : Memory.wf (s.wake t c w) = true := by
  unfold State.wake
  split
  · split
    · exact h
    · exact Memory.wf_enter _ _ _ _ _ _ (Memory.wf_lookEnds h)
    · exact Memory.wf_modCtx (Memory.wf_lookEnds h)
  · split
    · exact Memory.wf_modCtx h
    · exact h
  · exact Memory.wf_ite (Memory.wf_modCtx h) h
  · exact Memory.wf_ite (Memory.wf_modCtx h) h
  · exact h

theorem canonical_execContextWake {t c : Nat} {s : State} (h : Memory.wf s = true) : Out.Canonical (execContextWake t c s) := by
  unfold execContextWake
  dsimp only
  split
  · exact Out.canonical_next h
  · split
    · exact Out.canonical_next h
    · split
      · exact Out.canonical_next (Memory.wf_ite h (Memory.wf_killTask h))
      · exact Out.canonical_next (Memory.wf_wake h)

theorem canonical_execBarrierArrivalAtHome {n : Nat} {s : State} (h : Memory.wf s = true) : Out.Canonical (execBarrierArrivalAtHome n s) := by
  unfold execBarrierArrivalAtHome
  split
  · exact Out.canonical_next h
  · have hm : ∀ p a b, Memory.wf ((State.message { s with arrivals := s.arrivals.eraseIdx n } p a b 1).message p b a 1) = true :=
      fun p a b => Memory.wf_message _ _ _ _ (Memory.wf_message _ _ _ _ (Memory.wf_update h))
    dsimp only
    split
    · exact Out.canonical_next h
    · split
      · exact Out.canonical_next (Memory.wf_modCtx (hm _ _ _))
      · split
        · exact Out.canonical_next (Memory.wf_modCtx (hm _ _ _))
        · exact Out.canonical_next (Memory.wf_checkPhase (Memory.wf_modCtx (Memory.wf_modCtx (Memory.wf_modGroup (hm _ _ _)))))

theorem canonical_execArrivalAnswer {t c : Nat} {s : State} (h : Memory.wf s = true) : Out.Canonical (execArrivalAnswer t c s) := by
  unfold execArrivalAnswer
  dsimp only
  split
  · exact Out.canonical_next h
  · split
    · exact Out.canonical_next h
    · split
      · exact Out.canonical_next h
      · exact Out.canonical_next (Memory.wf_enter _ _ _ _ _ _ (Memory.wf_modCtx h))
      · exact Out.canonical_next (Memory.wf_modCtx h)

theorem Tile.bytesWf_latchTo {tl : Tile} {k phase : Nat} {cxl : Bool} (h : tl.bytesWf = true) : (tl.latchTo k phase cxl).bytesWf = true :=
  Tile.bytesWf_ite h h

theorem canonical_execBarrierReleaseArrival {n : Nat} {s : State} (h : Memory.wf s = true) : Out.Canonical (execBarrierReleaseArrival n s) := by
  unfold execBarrierReleaseArrival
  split
  · exact Out.canonical_next h
  · dsimp only
    split
    · exact Out.canonical_next (Memory.wf_message _ _ _ _ (Memory.wf_update h))
    · split
      · exact Out.canonical_next (Memory.wf_message _ _ _ _ (Memory.wf_update h))
      · exact Out.canonical_next (Memory.wf_modTile (Memory.wf_message _ _ _ _ (Memory.wf_update h)) fun ht => Tile.bytesWf_latchTo ht)

theorem Memory.wf_purge {s : State} {t : Nat} {k : Task} (h : Memory.wf s = true) : Memory.wf (s.purge t k) = true :=
  Memory.wf_modTileOf (Memory.wf_withdraw h) fun _ ht => Tile.bytesWf_count ht

theorem Memory.wf_touchDep {s : State} {p t : Nat} {k : Task} (h : Memory.wf s = true) : Memory.wf (s.touchDep p t k) = true := by
  unfold State.touchDep
  split
  · exact h
  · split
    · exact Memory.wf_ite h (Memory.wf_edgeAt h)
    · exact Memory.wf_fillCache _ _ _ _ _ h

theorem Memory.wf_meterDep {s : State} {p t : Nat} {k : Task} (h : Memory.wf s = true) : Memory.wf (s.meterDep p t k) = true := by
  unfold State.meterDep
  split
  · exact h
  · split
    · exact Memory.wf_meterDev _ _ _ _ h
    · exact h

theorem Memory.wf_checkTask {s : State} {p t : Nat} {k : Task} {first : Bool} (h : Memory.wf s = true) :
    Memory.wf (s.checkTask p t k first).1 = true := by
  unfold State.checkTask
  dsimp only
  split
  · exact Memory.wf_ite (Memory.wf_meterDep (Memory.wf_touchDep h)) (Memory.wf_touchDep h)
  · split
    · exact Memory.wf_touchDep h
    · exact Memory.wf_badRecord _ _ _ (Memory.wf_touchDep h)

theorem canonical_execTaskPublicationArrival {n : Nat} {s : State} (h : Memory.wf s = true) : Out.Canonical (execTaskPublicationArrival n s) := by
  unfold execTaskPublicationArrival
  split
  · exact Out.canonical_next h
  · dsimp only
    split
    · exact Out.canonical_next h
    · split
      · exact Out.canonical_next (Memory.wf_purge (Memory.wf_message _ _ _ _ (Memory.wf_update h)))
      · exact Out.canonical_next (Memory.wf_modTileOf (Memory.wf_checkTask (Memory.wf_message _ _ _ _ (Memory.wf_update h))) fun _ ht =>
          Tile.bytesWf_ite ht ht)

theorem Memory.wf_checkTasks {s : State} {p t : Nat} {l : List Task} (h : Memory.wf s = true) : Memory.wf (s.checkTasks p t l) = true := by
  induction l generalizing s with
  | nil => exact h
  | cons k l ih =>
    refine ih (Memory.wf_modTileOf (Memory.wf_checkTask h) fun tl ht => ?_)
    split <;> exact ht

theorem Memory.wf_checkTile {s : State} {p t : Nat} (h : Memory.wf s = true) : Memory.wf (s.checkTile p t) = true :=
  Memory.wf_checkTasks (Memory.wf_modTileOf h fun _ ht => ht)

theorem canonical_execDependenceCheck {t : Nat} {s : State} (h : Memory.wf s = true) : Out.Canonical (execDependenceCheck t s) :=
  Out.canonical_next (Memory.wf_foldl (fun _ _ hu => Memory.wf_checkTile hu) _ _ (Memory.wf_checkTile h))

theorem canonical_execTaskBind {t : Nat} {s : State} (h : Memory.wf s = true) : Out.Canonical (execTaskBind t s) := by
  unfold execTaskBind
  dsimp only
  split
  · exact Out.canonical_next h
  · split
    · exact Out.canonical_next (Memory.wf_modTile h fun ht => ht)
    · exact Out.canonical_next h

/-! The network (Machine/Network). -/

theorem Memory.wf_takeToken {s : State} {t : Nat} {f : Flit} (h : Memory.wf s = true) : Memory.wf (s.takeToken t f) = true := by
  unfold State.takeToken
  split
  · exact h
  · exact Memory.wf_modTile h fun ht => ht

theorem Memory.wf_openTile {s : State} {t : Nat} (h : Memory.wf s = true) : Memory.wf (s.openTile t) = true :=
  Memory.wf_modTile (Memory.wf_modPart h fun hp => hp) fun ht => ht

theorem Memory.wf_checkFlit {s : State} {t : Nat} {f : Flit} (h : Memory.wf s = true) : Memory.wf (s.checkFlit t f) = true :=
  Memory.wf_ite (Memory.wf_detect _ _ _ _ _ _ _ _ h) h

theorem Memory.wf_eject {s : State} {t : Nat} {f : Flit} (h : Memory.wf s = true) : Memory.wf (s.eject t f) = true := by
  unfold State.eject
  dsimp only
  split
  · exact Memory.wf_modTile (Memory.wf_modDie h fun hm => hm) fun ht => ht
  · split
    · exact Memory.wf_takeToken (Memory.wf_checkFlit (Memory.wf_modDie h fun hm => hm))
    · split
      · exact Memory.wf_openTile (Memory.wf_checkFlit (Memory.wf_modDie h fun hm => hm))
      · exact Memory.wf_modTile (Memory.wf_checkFlit (Memory.wf_modDie h fun hm => hm)) fun ht => ht

theorem Memory.wf_intoShare {s : State} {t : Nat} {f : Flit} (h : Memory.wf s = true) : Memory.wf (s.intoShare t f) = true := by
  unfold State.intoShare
  dsimp only
  split
  · exact Memory.wf_modDie (Memory.wf_modDie h fun hm => hm) fun hm => hm
  · exact Memory.wf_modTile (Memory.wf_modDie h fun hm => hm) fun ht => ht

theorem Memory.wf_move {s : State} {die lab : Nat} {x : Dir × Nat × Flit} (h : Memory.wf s = true) : Memory.wf (s.move die lab x) = true := by
  unfold State.move
  dsimp only
  split
  · exact Memory.wf_eject h
  · exact Memory.wf_ite (Memory.wf_intoShare h) (Memory.wf_modDie h fun hm => hm)
  · exact Memory.wf_modDie h fun hm => hm
  · exact Memory.wf_modDie h fun hm => hm
  · exact Memory.wf_modDie h fun hm => hm

theorem Memory.wf_route {s : State} {die lab : Nat} {arrived : List MeshFlit} (h : Memory.wf s = true) :
    Memory.wf (s.route die lab arrived) = true :=
  Memory.wf_foldl (fun _ _ hu => Memory.wf_move hu) _ _ (Memory.wf_foldl (fun _ _ hu => Memory.wf_detect _ _ _ _ _ _ _ _ hu) _ _
      (Memory.wf_modTile (Memory.wf_modDie (Memory.wf_ite h (Memory.wf_modDie h fun hm => hm)) fun hm => hm) fun ht => Tile.bytesWf_of ht rfl rfl))

theorem Memory.wf_pumpRemote {s : State} {t : Nat} (h : Memory.wf s = true) : Memory.wf (s.pumpRemote t) = true := by
  unfold State.pumpRemote
  dsimp only
  split
  · exact Memory.wf_foldl (fun _ _ hu => Memory.wf_sendFlit hu) _ _ (Memory.wf_modTile h fun ht => ht)
  · exact h

/-! Gathers (Machine/Gather). -/

theorem Memory.wf_updateEdge {s : State} {t port sq : Nat} (h : Memory.wf s = true) : Memory.wf (s.updateEdge t port sq) = true :=
  Memory.wf_sendEdge h

theorem Memory.wf_updatePort {s : State} {t port sq : Nat} (h : Memory.wf s = true) : Memory.wf (s.updatePort t port sq) = true :=
  Memory.wf_fromEdge h

theorem Memory.wf_updateSender {s : State} {t src port trk sq : Nat} (h : Memory.wf s = true) :
    Memory.wf (s.updateSender t src port trk sq) = true :=
  Memory.wf_sendFlit h

theorem Memory.wf_releaseOne {s u : State} {t port : Nat} (h : Memory.wf s = true) (e : s.releaseOne t port = some u) : Memory.wf u = true := by
  unfold State.releaseOne at e
  dsimp only at e
  split at e
  · cases e
  · split at e
    · cases e
    · split at e
      · cases e
        exact Memory.wf_modTile h fun ht => ht
      · split at e
        · cases e
        · cases e
          exact Memory.wf_modTile h fun ht => ht

theorem Memory.wf_releaseAll {s : State} {t port n : Nat} (h : Memory.wf s = true) : Memory.wf (s.releaseAll t port n) = true := by
  induction n generalizing s with
  | zero => exact h
  | succ n ih =>
    unfold State.releaseAll
    split
    · exact ih (Memory.wf_releaseOne h ‹_›)
    · exact h

theorem Memory.wf_resyncGather {s : State} {t port : Nat} (h : Memory.wf s = true) : Memory.wf (s.resyncGather t port) = true := by
  unfold State.resyncGather
  split
  · exact h
  · exact Memory.wf_ite h (Memory.wf_modTile (Memory.wf_updateEdge h) fun ht => ht)

theorem Memory.wf_settleGather {s : State} {t port : Nat} (h : Memory.wf s = true) : Memory.wf (s.settleGather t port) = true := by
  unfold State.settleGather
  extract_lets u stay v
  have hu : Memory.wf u = true := Memory.wf_resyncGather h
  have hv : Memory.wf v = true := Memory.wf_ite hu (Memory.wf_releaseAll hu)
  clear_value v
  split
  · exact hv
  · refine Memory.wf_ite hv (Memory.wf_ite ?_ (Memory.wf_ite ?_ hv))
    · exact Memory.wf_modTile (Memory.wf_updateEdge hv) fun ht => Tile.bytesWf_of ht rfl rfl
    · exact Memory.wf_modTile (Memory.wf_updateEdge hv) fun ht => Tile.bytesWf_of ht rfl rfl

theorem Memory.wf_writeTracked {s : State} {r : Tracker} {b : Nat} (h : Memory.wf s = true) : Memory.wf (s.writeTracked r b) = true := by
  unfold State.writeTracked
  split
  · exact h
  · exact Memory.wf_ite h (Memory.wf_foldl (fun _ _ hu => Memory.wf_putElem hu) _ _ h)

theorem Memory.wf_settleTracker {s : State} {t k : Nat} (h : Memory.wf s = true) : Memory.wf (s.settleTracker t k) = true := by
  unfold State.settleTracker
  split
  · exact h
  · exact Memory.wf_modTile (Memory.wf_ite (Memory.wf_updateSender h) h) fun ht => ht

theorem Memory.wf_settleEdge {s : State} {t port : Nat} (h : Memory.wf s = true) : Memory.wf (s.settleEdge t port) = true := by
  unfold State.settleEdge
  split
  · exact h
  · exact Memory.wf_modTile (Memory.wf_ite (Memory.wf_updatePort h) h) fun ht => ht

theorem Memory.wf_intoGather {s : State} {t : Nat} {f : Flit} {g : GBuf} (h : Memory.wf s = true) : Memory.wf (s.intoGather t f g) = true := by
  unfold State.intoGather
  split
  · exact Memory.wf_modTile h fun ht => ht
  · exact Memory.wf_settleGather (Memory.wf_modTile h fun ht => ht)

theorem Memory.wf_intoTracker {s : State} {t : Nat} {f : Flit} {r : Tracker} (h : Memory.wf s = true) : Memory.wf (s.intoTracker t f r) = true := by
  unfold State.intoTracker
  split
  · exact Memory.wf_modTile h fun ht => ht
  · refine Memory.wf_settleTracker ?_
    split
    · exact Memory.wf_writeTracked (Memory.wf_modTile h fun ht => ht)
    · exact Memory.wf_modTile h fun ht => ht

theorem Memory.wf_intoEdge {s : State} {f : Flit} (h : Memory.wf s = true) : Memory.wf (s.intoEdge f) = true := by
  unfold State.intoEdge
  dsimp only
  split
  · exact Memory.wf_modTile h fun ht => ht
  · split
    · exact Memory.wf_modTile h fun ht => ht
    · refine Memory.wf_settleEdge ?_
      split
      · exact Memory.wf_writeTracked (Memory.wf_modTile h fun ht => ht)
      · exact Memory.wf_modTile h fun ht => ht

theorem Memory.wf_endEdge {s : State} {f : Flit} (h : Memory.wf s = true) : Memory.wf (s.endEdge f) = true := by
  unfold State.endEdge
  dsimp only
  split
  · exact h
  · exact Memory.wf_settleEdge (Memory.wf_modTile h fun ht => ht)

theorem Memory.wf_payEnds {s : State} {t : Nat} (h : Memory.wf s = true) : Memory.wf (s.payEnds t) = true := by
  unfold State.payEnds
  refine Memory.wf_foldl (fun _ _ hu => ?_) _ _ ?_
  · refine Memory.wf_foldl (fun _ _ hu2 => ?_) _ _ hu
    split
    · split <;> exact Memory.wf_modTile (Memory.wf_outEnd hu2) fun ht => Tile.bytesWf_settle ht
    · exact hu2
  · refine Memory.wf_foldl (fun _ _ hu => ?_) _ _ h
    split
    · exact Memory.wf_modTile (Memory.wf_edgeEnd hu) fun ht => ht
    · exact hu

theorem Memory.wf_returnTokens {s : State} {t : Nat} (h : Memory.wf s = true) : Memory.wf (s.returnTokens t) = true :=
  Memory.wf_foldl (fun _ _ hu => Memory.wf_ite hu (Memory.wf_modTile (Memory.wf_sendEdge hu) fun ht => ht)) _ _ h

theorem Memory.wf_tokenBack {s : State} {f : Flit} (h : Memory.wf s = true) : Memory.wf (s.tokenBack f) = true := Memory.wf_modPart h fun hp => hp

theorem Memory.wf_reportHalt {s : State} {t : Nat} (h : Memory.wf s = true) : Memory.wf (s.reportHalt t) = true :=
  Memory.wf_ite h (Memory.wf_modTile (Memory.wf_sendEdge h) fun ht => ht)

theorem Memory.wf_tickGather {s : State} {t : Nat} (h : Memory.wf s = true) : Memory.wf (s.tickGather t) = true := by
  unfold State.tickGather
  refine Memory.wf_modTile_bytes (Memory.wf_reportHalt (Memory.wf_returnTokens (Memory.wf_payEnds ?_))) (fun _ => rfl) fun _ => rfl
  refine Memory.wf_foldl (fun u x hu => ?_) _ _
    (Memory.wf_foldl (fun u x hu => Memory.wf_settleTracker hu) _ _ (Memory.wf_foldl (fun u x hu => Memory.wf_settleGather hu) _ _ h))
  split
  · exact Memory.wf_settleEdge hu
  · exact hu

/-! Hardware steps of the network (Machine/EvNetwork). -/

theorem Memory.wf_askTiles {s : State} {die p : Nat} (h : Memory.wf s = true) : Memory.wf (s.askTiles die p) = true := by
  unfold State.askTiles
  dsimp only
  split
  · exact h
  · exact Memory.wf_foldl (fun _ _ hu => Memory.wf_modPart (Memory.wf_fromEdge hu) fun hp => hp) _ _ h

theorem canonical_execNetworkCycle {die : Nat} {s : State} (h : Memory.wf s = true) : Out.Canonical (execNetworkCycle die s) := by
  unfold execNetworkCycle
  split
  · exact Out.canonical_next h
  · extract_lets asked pumped old labels cleared routed ticked
    have hasked : Memory.wf asked = true := Memory.wf_foldl (fun _ _ hu => Memory.wf_askTiles hu) _ _ h
    have hpumped : Memory.wf pumped = true := Memory.wf_foldl (fun _ _ hu => Memory.wf_pumpRemote hu) _ _ hasked
    have hcleared : Memory.wf cleared = true := Memory.wf_modDie hpumped fun hm => hm
    have hrouted : Memory.wf routed = true := Memory.wf_foldl (fun _ _ hu => Memory.wf_route hu) _ _ hcleared
    have hticked : Memory.wf ticked = true := Memory.wf_foldl (fun _ _ hu => Memory.wf_tickGather hu) _ _ hrouted
    clear_value ticked
    exact Out.canonical_next (Memory.wf_modDie hticked fun hm => hm)

theorem canonical_execAgeTick {die : Nat} {s : State} (h : Memory.wf s = true) : Out.Canonical (execAgeTick die s) := by
  unfold execAgeTick
  dsimp only
  split
  · exact Out.canonical_next h
  · exact Out.canonical_next (Memory.wf_modDie (Memory.wf_foldl (fun _ _ hu => Memory.wf_modTile hu fun ht => ht) _ _ h) fun hm => hm)

theorem canonical_execCreditDraw {die part point : Nat} {s : State} (h : Memory.wf s = true) : Out.Canonical (execCreditDraw die part point s) := by
  unfold execCreditDraw
  dsimp only
  split
  · split
    · exact Out.canonical_next h
    · exact Out.canonical_next (Memory.wf_modDie (Memory.wf_modTile h fun ht => ht) fun hm => hm)
  · split
    · exact Out.canonical_next h
    · exact Out.canonical_next (Memory.wf_modDie h fun hm => hm)

theorem canonical_execCreditReturn {die part : Nat} {s : State} (h : Memory.wf s = true) : Out.Canonical (execCreditReturn die part s) :=
  Out.canonical_next (Memory.wf_modDie h fun hm => hm)

theorem Tile.bytesWf_toldIngress {tl : Tile} {port sq : Nat} (h : tl.bytesWf = true) : (tl.toldIngress port sq).bytesWf = true := by
  unfold Tile.toldIngress
  split <;> exact h

theorem Memory.wf_cancelReaches {s : State} {die : Nat} {f : Flit} (h : Memory.wf s = true) : Memory.wf (s.cancelReaches die f) = true := by
  unfold State.cancelReaches
  split
  · exact h
  · exact Memory.wf_ite (Memory.wf_update h) (Memory.wf_modDie (Memory.wf_update h) fun hm => hm)

theorem Memory.wf_dieReport {s : State} {no : Nat} {c : Cancel} {die : Nat} (h : Memory.wf s = true) : Memory.wf (s.dieReport no c die) = true :=
  Memory.wf_ite (Memory.wf_update h) (Memory.wf_modDie (Memory.wf_update h) fun hm => hm)

theorem Memory.wf_reportReaches {s : State} {die : Nat} {f : Flit} (h : Memory.wf s = true) : Memory.wf (s.reportReaches die f) = true := by
  unfold State.reportReaches
  split
  · exact h
  · exact Memory.wf_ite (Memory.wf_update h) (Memory.wf_ite (Memory.wf_update h) (Memory.wf_dieReport h))

theorem Memory.wf_haltReaches {s : State} {f : Flit} (h : Memory.wf s = true) : Memory.wf (s.haltReaches f) = true :=
  Memory.wf_modPart h fun hp => hp

theorem Memory.wf_atEdge {s : State} {die : Nat} {f : Flit} (h : Memory.wf s = true) : Memory.wf (s.atEdge die f) = true := by
  unfold State.atEdge
  split
  · exact Memory.wf_modTile h fun ht => Tile.bytesWf_toldIngress ht
  · split
    · exact Memory.wf_endEdge h
    · split
      · exact Memory.wf_intoEdge h
      · split
        · exact Memory.wf_tokenBack h
        · split
          · exact Memory.wf_cancelReaches h
          · exact Memory.wf_ite (Memory.wf_reportReaches h) (Memory.wf_ite (Memory.wf_haltReaches h) h)

theorem Memory.wf_freeTag {s : State} {t tag : Nat} (h : Memory.wf s = true) : Memory.wf (s.freeTag t tag) = true :=
  Memory.wf_mapDies (Memory.wf_modTile h fun ht => ht) fun _ => rfl

theorem Memory.wf_endTag {s : State} {t tag : Nat} {data : Bool} (h : Memory.wf s = true) : Memory.wf (s.endTag t tag data) = true := by
  unfold State.endTag
  split
  · exact h
  · exact Memory.wf_freeTag (Memory.wf_modCtx h)

theorem Memory.wf_dropFlit {s : State} {f : Flit} (h : Memory.wf s = true) : Memory.wf (s.dropFlit f) = true :=
  Memory.wf_ite (Memory.wf_endTag h) (Memory.wf_ite (Memory.wf_endTag h) h)

theorem canonical_execCrossbarCrossing {die n : Nat} {s : State} (h : Memory.wf s = true) : Out.Canonical (execCrossbarCrossing die n s) := by
  unfold execCrossbarCrossing
  split
  · exact Out.canonical_next h
  · split
    · exact Out.canonical_next h
    · dsimp only
      split
      · exact Out.canonical_next (Memory.wf_modTile (Memory.wf_modDie h fun hm => hm) fun ht => ht)
      · split
        · exact Out.canonical_next (Memory.wf_atEdge (Memory.wf_checkFlit (Memory.wf_modDie h fun hm => hm)))
        · split
          · exact Out.canonical_next (Memory.wf_modDie h fun hm => hm)
          · split
            · exact Out.canonical_next (Memory.wf_dropFlit (Memory.wf_modDie h fun hm => hm))
            · exact Out.canonical_next (Memory.wf_meter _ _ _ (Memory.wf_modLink (Memory.wf_modDie h fun hm => hm)))

theorem Memory.wf_answer {s : State} {t : Nat} {f : Flit} {rtype data : Nat} (h : Memory.wf s = true) :
    Memory.wf (s.answer t f rtype data) = true :=
  Memory.wf_sendFlit h

theorem Memory.wf_remoteDone {s : State} {f : Flit} {st : ASt} (h : Memory.wf s = true) : Memory.wf (s.remoteDone f st) = true := by
  unfold State.remoteDone
  split
  · exact h
  · exact Memory.wf_modCtx h

theorem Tile.bytesWf_takeRequest {s : State} {t : Nat} {p : Flit → Bool} {r : List Flit × Tile} (h : Memory.wf s = true)
    (e : s.takeRequest t p = some r) : r.2.bytesWf = true := by
  unfold State.takeRequest at e
  dsimp only at e
  split at e
  · cases e
  · cases e
    exact Memory.wf_tile h t

theorem Memory.wf_storeFlit {s : State} {t : Nat} {f : Flit} (h : Memory.wf s = true) : Memory.wf (s.storeFlit t f) = true :=
  Memory.wf_ite (Memory.wf_poisonAt _ _ (Memory.wf_writeHome _ _ _ h)) (Memory.wf_writeHome _ _ _ h)

theorem Memory.wf_noteHalf {s : State} {f : Flit} (h : Memory.wf s = true) : Memory.wf (s.noteHalf f) = true := by
  unfold State.noteHalf
  split
  · exact h
  · exact Memory.wf_modCtx h

theorem canonical_execRemoteStoreApply {t : Nat} {s : State} (h : Memory.wf s = true) : Out.Canonical (execRemoteStoreApply t s) := by
  unfold execRemoteStoreApply
  split
  · exact Out.canonical_next h
  · split
    · exact Out.canonical_next h
    · rename_i e
      split
      · refine Out.canonical_next ?_
        refine Memory.wf_answer ?_
        refine Memory.wf_remoteDone ?_
        split
        · exact Memory.wf_writeHome _ _ _ (Memory.wf_storeFlit (Memory.wf_modTile h fun _ => Tile.bytesWf_takeRequest h e))
        · exact Memory.wf_storeFlit (Memory.wf_modTile h fun _ => Tile.bytesWf_takeRequest h e)
      · exact Out.canonical_next (Memory.wf_update (Memory.wf_noteHalf (Memory.wf_storeFlit (Memory.wf_modTile h fun ht => ht))))
      · exact Out.canonical_next h

theorem canonical_execRemoteAtomicApply {t : Nat} {s : State} (h : Memory.wf s = true) : Out.Canonical (execRemoteAtomicApply t s) := by
  unfold execRemoteAtomicApply
  split
  · exact Out.canonical_next h
  · split
    · exact Out.canonical_next h
    · rename_i fl tl e
      have hu : Memory.wf (s.modTile t fun _ => tl) = true := Memory.wf_modTile h fun _ => Tile.bytesWf_takeRequest h e
      generalize (s.modTile t fun _ => tl) = u at hu ⊢
      dsimp only
      split
      · exact Out.canonical_next hu
      · refine Out.canonical_ite ?_ (Out.canonical_ite ?_ ?_)
        · exact Out.canonical_next (Memory.wf_answer (Memory.wf_remoteDone (Memory.wf_countDrop _ _ _ hu)))
        · exact Out.canonical_next (Memory.wf_answer (Memory.wf_remoteDone hu))
        · exact Out.canonical_next (Memory.wf_answer (Memory.wf_remoteDone (Memory.wf_writeHome _ _ _ hu)))

theorem canonical_execAcknowledgementReceipt {t : Nat} {s : State} (h : Memory.wf s = true) : Out.Canonical (execAcknowledgementReceipt t s) := by
  unfold execAcknowledgementReceipt
  split
  · exact Out.canonical_next h
  · rename_i e
    exact Out.canonical_next (Memory.wf_freeTag (Memory.wf_modTile h fun ht => Tile.bytesWf_takeIntake ht e))

theorem Memory.wf_checkAnswer {s : State} {t c id : Nat} {f : Flit} (h : Memory.wf s = true) : Memory.wf (s.checkAnswer t c id f) = true :=
  Memory.wf_ite (Memory.wf_modCtx h) h

theorem canonical_execLoadResultReturn {t c id : Nat} {s : State} (h : Memory.wf s = true) : Out.Canonical (execLoadResultReturn t c id s) := by
  unfold execLoadResultReturn
  split
  · exact canonical_returnResult h
  · split
    · exact Out.canonical_next h
    · rename_i e
      exact canonical_returnResult (Memory.wf_freeTag (Memory.wf_checkAnswer (Memory.wf_modTile h fun ht => Tile.bytesWf_takeIntake ht e)))

theorem canonical_execGatherFlitArrival {t : Nat} {s : State} (h : Memory.wf s = true) : Out.Canonical (execGatherFlitArrival t s) := by
  unfold execGatherFlitArrival
  split
  · exact Out.canonical_next h
  · rename_i f tl e
    have hu : Memory.wf (s.modTile t fun _ => tl) = true := Memory.wf_modTile h fun ht => Tile.bytesWf_takeIntake ht e
    generalize (s.modTile t fun _ => tl) = u at hu ⊢
    have hmalf : Memory.wf (u.modTile t Tile.countMalf) = true := Memory.wf_modTile hu fun ht => Tile.bytesWf_countMalf ht
    dsimp only
    split
    · split
      · exact Out.canonical_next (Memory.wf_intoTracker hu)
      · split
        · exact Out.canonical_next (Memory.wf_intoGather hu)
        · exact Out.canonical_next hmalf
    · exact Out.canonical_next (Memory.wf_intoGather hu)
    · exact Out.canonical_next hmalf

theorem canonical_execWindowUpdateReceipt {t : Nat} {s : State} (h : Memory.wf s = true) : Out.Canonical (execWindowUpdateReceipt t s) := by
  unfold execWindowUpdateReceipt
  split
  · exact Out.canonical_next h
  · rename_i e
    dsimp only
    split
    · exact Out.canonical_next (Memory.wf_modTile h fun ht => Tile.bytesWf_takeIntake ht e)
    · exact Out.canonical_next (Memory.wf_modTile h fun ht => Tile.bytesWf_settle (Tile.bytesWf_modEntry (Tile.bytesWf_takeIntake ht e)))

theorem canonical_execStreamEndReceipt {t : Nat} {s : State} (h : Memory.wf s = true) : Out.Canonical (execStreamEndReceipt t s) := by
  unfold execStreamEndReceipt
  split
  · exact Out.canonical_next h
  · rename_i f tl e
    have hu : Memory.wf (s.modTile t fun _ => tl) = true := Memory.wf_modTile h fun ht => Tile.bytesWf_takeIntake ht e
    generalize (s.modTile t fun _ => tl) = u at hu ⊢
    dsimp only
    split
    · split
      · exact Out.canonical_next hu
      · exact Out.canonical_next (Memory.wf_settleTracker (Memory.wf_modTile hu fun ht => ht))
    · split
      · exact Out.canonical_next hu
      · exact Out.canonical_next (Memory.wf_settleGather (Memory.wf_modTile hu fun ht => ht))

theorem canonical_execPoisonFillTimeout {t port : Nat} {s : State} (h : Memory.wf s = true) : Out.Canonical (execPoisonFillTimeout t port s) := by
  unfold execPoisonFillTimeout
  dsimp only
  split
  · split
    · exact Out.canonical_next h
    · split
      · exact Out.canonical_next h
      · exact Out.canonical_next (Memory.wf_settleGather (Memory.wf_modTile h fun ht => ht))
  · split
    · split
      · exact Out.canonical_next h
      · split
        · exact Out.canonical_next h
        · refine Out.canonical_next ?_
          refine Memory.wf_settleEdge ?_
          split
          · exact Memory.wf_writeTracked (Memory.wf_modTile h fun ht => ht)
          · exact Memory.wf_modTile h fun ht => ht
    · split
      · exact Out.canonical_next h
      · split
        · exact Out.canonical_next h
        · refine Out.canonical_next ?_
          refine Memory.wf_settleTracker ?_
          split
          · exact Memory.wf_writeTracked (Memory.wf_modTile h fun ht => ht)
          · exact Memory.wf_modTile h fun ht => ht

/-! Cancels (Machine/EvCancel). -/

theorem Tile.bytesWf_moveMsg {tl : Tile} {e i j : Nat} (h : tl.bytesWf = true) : (tl.moveMsg e i j).bytesWf = true := by
  unfold Tile.moveMsg
  split
  · exact h
  · refine Tile.bytesWf_setStore h rfl ?_
    dsimp only
    split <;> exact Store.wf_write _ _ _ _ (Tile.wf_store h)

theorem Tile.bytesWf_keepMsgs {tl : Tile} {sc e head i n : Nat} {l : List Nat} (h : tl.bytesWf = true) :
    (tl.keepMsgs sc e head i n l).1.bytesWf = true := by
  induction l generalizing tl i n with
  | nil => exact h
  | cons k l ih =>
    unfold Tile.keepMsgs
    split
    · exact ih h
    · exact ih (Tile.bytesWf_moveMsg h)

theorem Tile.bytesWf_dropMsgs {tl : Tile} {sc : Nat} (h : tl.bytesWf = true) : (tl.dropMsgs sc).bytesWf = true := by
  unfold Tile.dropMsgs
  refine Tile.bytesWf_foldl (fun tl x ht => ?_) _ _ h
  exact Tile.bytesWf_of (Tile.bytesWf_keepMsgs ht) rfl rfl

theorem Memory.wf_purgeAll {s : State} {t sc : Nat} (h : Memory.wf s = true) : Memory.wf (s.purgeAll t sc) = true :=
  Memory.wf_foldl (fun _ _ hu => Memory.wf_purge hu) _ _ (Memory.wf_modTile h fun ht => ht)

theorem Tile.bytesWf_cancelled {tl : Tile} {which : QEntry → Bool} {regs : List Reg} {sc : Nat} (h : tl.bytesWf = true) :
    (Tile.dropMsgs { (tl.cancelEntries which).1 with regs := regs } sc).bytesWf = true :=
  Tile.bytesWf_dropMsgs (Tile.bytesWf_of (Tile.bytesWf_cancelEntries (which := which) h) rfl rfl)

theorem Memory.wf_registerAt {s : State} {no sc t : Nat} (h : Memory.wf s = true) : Memory.wf (s.registerAt no sc t) = true := by
  unfold State.registerAt
  extract_lets tl reg stays u v
  have hu : Memory.wf u = true := Memory.wf_modTile h fun ht => ht
  have hv : Memory.wf v = true := Memory.wf_purgeAll hu
  clear_value u v stays tl
  split
  · exact Memory.wf_modTile h fun ht => ht
  · refine Memory.wf_modTile hv fun ht => ?_
    extract_lets r src tl₁ tl₂ drop
    have h₂ : tl₂.bytesWf = true := Tile.bytesWf_cancelled ht
    exact Tile.bytesWf_of h₂ rfl rfl

theorem Memory.wf_registerHere {s : State} {no : Nat} {c : Cancel} {t : Nat} (h : Memory.wf s = true) : Memory.wf (s.registerHere no c t) = true :=
  Memory.wf_ite (Memory.wf_registerAt h) (Memory.wf_modTile h fun ht => ht)

theorem canonical_execCancelRegistration {no t : Nat} {s : State} (h : Memory.wf s = true) : Out.Canonical (execCancelRegistration no t s) := by
  unfold execCancelRegistration
  split
  · exact Out.canonical_next h
  · dsimp only
    split
    · exact Out.canonical_next h
    · exact Out.canonical_next (Memory.wf_update (Memory.wf_modDie (Memory.wf_foldl (fun _ _ hu => Memory.wf_registerHere hu) _ _ h) fun hm => hm))

theorem canonical_execTaskKill {t c : Nat} {s : State} (h : Memory.wf s = true) : Out.Canonical (execTaskKill t c s) := by
  unfold execTaskKill
  dsimp only
  split
  · exact Out.canonical_next (Memory.wf_killTask h)
  · exact Out.canonical_next h

theorem canonical_execTrapModeKillTimeout {t c : Nat} {s : State} (h : Memory.wf s = true) : Out.Canonical (execTrapModeKillTimeout t c s) := by
  unfold execTrapModeKillTimeout
  dsimp only
  split
  · exact Out.canonical_next h
  · split
    · exact Out.canonical_next (Memory.wf_killTask h)
    · exact Out.canonical_next h

theorem canonical_execCancelTileReport {no t : Nat} {s : State} (h : Memory.wf s = true) : Out.Canonical (execCancelTileReport no t s) := by
  unfold execCancelTileReport
  split
  · exact Out.canonical_next h
  · dsimp only
    split
    · split
      · exact Out.canonical_next h
      · split
        · exact Out.canonical_next h
        · exact Out.canonical_next (Memory.wf_sendEdge (Memory.wf_modTile h fun ht => ht))
    · split
      · exact Out.canonical_next h
      · split
        · exact Out.canonical_next (Memory.wf_dieReport h)
        · exact Out.canonical_next h

theorem canonical_execCancelAckWrite {no : Nat} {s : State} (h : Memory.wf s = true) : Out.Canonical (execCancelAckWrite no s) := by
  unfold execCancelAckWrite
  split
  · exact Out.canonical_next h
  · split
    · exact Out.canonical_next h
    · dsimp only
      split
      · exact Out.canonical_next (Memory.wf_update h)
      · split
        · exact Out.canonical_next (Memory.wf_badRecord _ _ _ (Memory.wf_edgeAt (Memory.wf_update h)))
        · exact Out.canonical_next (Memory.wf_writeHome _ _ _
            (Memory.wf_writeHome _ _ _ (Memory.wf_meterDev _ _ _ _ (Memory.wf_edgeAt (Memory.wf_update h)))))

/-! Preemption (Machine/EvPreempt). -/

theorem Tile.bytesWf_halt {tl : Tile} {g : Gate} (h : tl.bytesWf = true) : (tl.halt g).bytesWf = true := h

theorem canonical_execPreemptHoldRequest {t : Nat} {s : State} (h : Memory.wf s = true) : Out.Canonical (execPreemptHoldRequest t s) := by
  unfold execPreemptHoldRequest
  split
  · exact Out.canonical_next h
  · rename_i e
    exact Out.canonical_next (Memory.wf_modTile h fun ht => Tile.bytesWf_ite (Tile.bytesWf_halt (Tile.bytesWf_takeIntake ht e))
        (Tile.bytesWf_takeIntake ht e))

theorem canonical_execPreemptSwitchRequest {t : Nat} {s : State} (h : Memory.wf s = true) : Out.Canonical (execPreemptSwitchRequest t s) := by
  unfold execPreemptSwitchRequest
  split
  · exact Out.canonical_next h
  · rename_i e
    exact Out.canonical_next (Memory.wf_modTile h fun ht => Tile.bytesWf_halt (Tile.bytesWf_takeIntake ht e))

theorem Memory.wf_beginSwitch {s : State} {p : Nat} (h : Memory.wf s = true) : Memory.wf (s.beginSwitch p) = true := by
  unfold State.beginSwitch
  refine Memory.wf_modPart h fun hp => ?_
  split <;> exact hp

theorem Memory.wf_regainCredits {s : State} {p : Nat} (h : Memory.wf s = true) : Memory.wf (s.regainCredits p) = true :=
  Memory.wf_foldl (fun _ _ hu => Memory.wf_modDie hu fun hm => hm) _ _ h

/-- The tiles of the module, each in a form that keeps its bytes, as a partition's save area. -/
theorem Partition.bytesWf_save {s : State} {q : Partition} {l : List Nat} {f : Tile → Tile} (h : Memory.wf s = true)
    (hf : ∀ tl : Tile, tl.bytesWf = true → (f tl).bytesWf = true)
    (hq : q.saved = (l.map fun t => (t, f (s.tile t))).foldl (fun (m : Map Tile) x => mput m x.1 x.2) []) : q.bytesWf = true := by
  refine List.all_eq_true.2 (hq ▸ ?_)
  refine List.foldlRecOn (motive := fun m : Map Tile => ∀ e ∈ m, e.2.bytesWf = true) _ _ nofun fun m hm x hx => ?_
  obtain ⟨t, _, rfl⟩ := List.mem_map.1 hx
  exact all_mput (P := fun tl : Tile => tl.bytesWf = true) hm (hf _ (Memory.wf_tile h t))

theorem canonical_execStateSaveComplete {p : Nat} {s : State} (h : Memory.wf s = true) : Out.Canonical (execStateSaveComplete p s) := by
  unfold execStateSaveComplete
  extract_lets q tiles regained cleared out
  split
  · exact Out.canonical_next h
  · have hcleared : Memory.wf cleared = true :=
      Memory.wf_foldl (fun _ _ hu => Memory.wf_modTile hu fun _ => Tile.bytesWf_reset) _ _ (Memory.wf_regainCredits h)
    have hout : Memory.wf out = true := Memory.wf_modPart hcleared fun _ =>
      Partition.bytesWf_save (f := fun tl => { tl with charges := [], allot := 0 }) h (fun _ ht => ht) rfl
    clear_value out
    split
    · split
      · exact Out.canonical_next hout
      · split
        · exact Out.canonical_next hout
        · exact Out.canonical_next (Memory.wf_modPart hout fun hp => hp)
    · exact Out.canonical_next hout

theorem Memory.wf_setCaps {s : State} {p : Nat} (h : Memory.wf s = true) : Memory.wf (s.setCaps p) = true :=
  Memory.wf_foldl (fun _ _ hu => Memory.wf_modDie hu fun hm => hm) _ _ h

theorem Memory.wf_release {s : State} {p : Nat} (h : Memory.wf s = true) : Memory.wf (s.release p) = true :=
  Memory.wf_setCaps (Memory.wf_foldl (fun _ _ hu => Memory.wf_fromEdge hu) _ _ (Memory.wf_modPart (Memory.wf_modClasp h rfl) fun hp => hp))

theorem canonical_execResumeRequest {p : Nat} {s : State} (h : Memory.wf s = true) : Out.Canonical (execResumeRequest p s) := by
  unfold execResumeRequest
  dsimp only
  split
  · exact Out.canonical_next h
  · split
    · split
      · exact Out.canonical_next (Memory.wf_modPart h fun hp => hp)
      · exact Out.canonical_next h
    · split
      · exact Out.canonical_next (Memory.wf_release h)
      · exact Out.canonical_next h

theorem Tile.bytesWf_saved {q : Partition} {t : Nat} (h : q.bytesWf = true) : (mget Tile.reset q.saved t).bytesWf = true :=
  mget_of_all (P := fun tl : Tile => tl.bytesWf = true) Tile.bytesWf_reset (List.all_eq_true.1 h) t

theorem canonical_execRestoreComplete {p : Nat} {s : State} (h : Memory.wf s = true) : Out.Canonical (execRestoreComplete p s) := by
  unfold execRestoreComplete
  extract_lets q back u
  split
  · exact Out.canonical_next h
  · have hsaved : ∀ t, (mget Tile.reset q.saved t).bytesWf = true := fun _ => Tile.bytesWf_saved (Memory.wf_part h p)
    have hback : Memory.wf back = true := Memory.wf_foldl (fun _ t hu => Memory.wf_modTile hu fun _ =>
      Tile.bytesWf_of (Tile.bytesWf_halt (g := .hold) (hsaved t)) rfl rfl) _ _ h
    have hu : Memory.wf u = true := Memory.wf_modPart hback fun _ => rfl
    exact Out.canonical_next (Memory.wf_ite hu (Memory.wf_release hu))

theorem canonical_execSliceExpiry {p : Nat} {s : State} (h : Memory.wf s = true) : Out.Canonical (execSliceExpiry p s) := by
  unfold execSliceExpiry
  dsimp only
  split
  · exact Out.canonical_next h
  · split
    · exact Out.canonical_next h
    · split
      · exact Out.canonical_next (Memory.wf_beginSwitch h)
      · exact Out.canonical_next (Memory.wf_modPart h fun hp => hp)

theorem canonical_execDeadlinePreemption {p : Nat} {s : State} (h : Memory.wf s = true) : Out.Canonical (execDeadlinePreemption p s) := by
  unfold execDeadlinePreemption
  split
  · exact Out.canonical_next (Memory.wf_foldl (fun _ _ hu => Memory.wf_ite (Memory.wf_beginSwitch hu) hu) _ _ h)
  · exact Out.canonical_next h

/-! The loader (Machine/Loader). -/

theorem Tile.bytesWf_placed {tl : Tile} {l v vdie budget : Nat} {c : Loaded} (h : tl.bytesWf = true) : (tl.placed l v vdie budget c).bytesWf = true :=
  Tile.bytesWf_setStore h rfl (Store.wf_writeList _ _ _ (Tile.wf_store h))

theorem Memory.wf_writeFlags {s : State} {p cont : Nat} {c : Loaded} (h : Memory.wf s = true) : Memory.wf (s.writeFlags p cont c) = true := by
  unfold State.writeFlags
  split
  · exact h
  · split
    · exact h
    · refine Memory.wf_foldl (fun _ _ hu => ?_) _ _ ?_
      · dsimp only
        split
        · split
          · exact Memory.wf_writeHome _ _ _ hu
          · exact hu
        · exact hu
      · dsimp only
        split
        · exact Memory.wf_writeHome _ _ _ h
        · exact h

/-! Hardware steps of launches (Machine/EvLaunch). -/

theorem Memory.wf_submit {s : State} {p limit desc : Nat} {psn : Bool} {rack : Option Nat} (h : Memory.wf s = true) :
    Memory.wf (s.submit p limit desc psn rack).2.2 = true := by
  unfold State.submit
  dsimp only
  split
  · exact h
  · split
    · rename_i e
      exact Memory.wf_enrol h e
    · exact h

theorem canonical_execLaunchWindowWrite {p desc : Nat} {s : State} (h : Memory.wf s = true) : Out.Canonical (execLaunchWindowWrite p desc s) := by
  unfold execLaunchWindowWrite
  split
  · exact Out.canonical_next h
  · exact Out.canonical_next (Memory.wf_modPart (Memory.wf_submit h) fun hp => hp)

theorem canonical_execPartialWindowWrite {p : Nat} {s : State} (h : Memory.wf s = true) : Out.Canonical (execPartialWindowWrite p s) := by
  unfold execPartialWindowWrite
  split
  · exact Out.canonical_next h
  · exact Out.canonical_next (Memory.wf_modPart h fun hp => hp)

theorem Memory.wf_report {s : State} {p request quote code : Nat} (h : Memory.wf s = true) : Memory.wf (s.report p request quote code) = true :=
  Memory.wf_send _ _ _ h

theorem canonical_execLaunchPacket {packet : Nat} {s : State} (h : Memory.wf s = true) : Out.Canonical (execLaunchPacket packet s) := by
  unfold execLaunchPacket
  dsimp only
  split
  · exact Out.canonical_next (Memory.wf_report h)
  · exact Out.canonical_next (Memory.wf_report (Memory.wf_submit h))

theorem Memory.wf_refuseLaunch {s : State} {l fcode : Nat} (h : Memory.wf s = true) : Memory.wf (s.refuseLaunch l fcode) = true :=
  Memory.wf_modLaunch h

theorem Memory.wf_placeLaunch {s : State} {l : Nat} {c : Loaded} {tiles : List Nat} (h : Memory.wf s = true) :
    Memory.wf (s.placeLaunch l c tiles) = true := by
  unfold State.placeLaunch
  extract_lets la bdef loaded started flagged
  have hloaded : Memory.wf loaded = true := Memory.wf_foldl (fun _ _ hu => Memory.wf_modTileOf hu fun _ ht => Tile.bytesWf_placed ht) _ _ h
  have hflagged : Memory.wf flagged = true := Memory.wf_writeFlags (Memory.wf_modLaunch hloaded)
  clear_value flagged
  split
  · exact Memory.wf_update hflagged
  · exact hflagged

theorem Memory.wf_containerRead {s : State} {p addr n : Nat} (h : Memory.wf s = true) : Memory.wf (s.containerRead p addr n) = true :=
  Memory.wf_foldl (fun _ _ hu => Memory.wf_ite (Memory.wf_readRecordAt hu) hu) _ _ h

theorem canonical_execLoaderPlacement {l : Nat} {s : State} (h : Memory.wf s = true) : Out.Canonical (execLoaderPlacement l s) := by
  unfold execLoaderPlacement
  dsimp only
  split
  · exact Out.canonical_next h
  · split
    · exact Out.canonical_next (Memory.wf_refuseLaunch (Memory.wf_containerRead h))
    · split
      · exact Out.canonical_next (Memory.wf_refuseLaunch (Memory.wf_containerRead h))
      · split
        · exact Out.canonical_next (Memory.wf_refuseLaunch (Memory.wf_containerRead h))
        · exact Out.canonical_next (Memory.wf_placeLaunch (Memory.wf_containerRead h))

theorem Memory.wf_writeEnd {s : State} {la : Launch} (h : Memory.wf s = true) : Memory.wf (s.writeEnd la) = true := by
  unfold State.writeEnd
  split
  · exact h
  · split
    · exact Memory.wf_badRecord _ _ _ h
    · exact Memory.wf_writeHome _ _ _ (Memory.wf_writeHome _ _ _ (Memory.wf_meterDev _ _ _ _ (Memory.wf_edgeAt h)))

theorem Memory.wf_contributeEnd {s : State} {la : Launch} (h : Memory.wf s = true) : Memory.wf (s.contributeEnd la) = true := by
  unfold State.contributeEnd
  split
  · exact h
  · split
    · exact Memory.wf_badRecord _ _ _ h
    · exact Memory.wf_contribute _ _ _ _ _ _ _ _ _ h

theorem Tile.bytesWf_freed {tl : Tile} (h : tl.bytesWf = true) : (tl.freed).bytesWf = true := h

theorem Tile.bytesWf_dropCancels {tl : Tile} {root : Nat} (h : tl.bytesWf = true) : (tl.dropCancels root).bytesWf = true := h

theorem Memory.wf_endLaunch {s : State} {l : Nat} (h : Memory.wf s = true) : Memory.wf (s.endLaunch l) = true := by
  unfold State.endLaunch
  refine Memory.wf_report (Memory.wf_takeFree (Memory.wf_modLaunch ?_))
  refine Memory.wf_foldl (fun u t hu => Memory.wf_modTileOf hu ?_) _ _ (Memory.wf_foldl (fun u t hu => Memory.wf_modTileOf hu ?_) _ _ ?_)
  · exact fun _ => Tile.bytesWf_dropCancels
  · exact fun _ => Tile.bytesWf_freed
  · exact Memory.wf_contributeEnd (Memory.wf_writeEnd h)

theorem canonical_execLaunchEnd {l : Nat} {s : State} (h : Memory.wf s = true) : Out.Canonical (execLaunchEnd l s) := by
  unfold execLaunchEnd
  dsimp only
  split
  · exact Out.canonical_next h
  · split
    · exact Out.canonical_next (Memory.wf_endLaunch h)
    · split
      · exact Out.canonical_next h
      · exact Out.canonical_next (Memory.wf_endLaunch h)

/-! Map requests and migration (Machine/EvMap). -/

theorem Memory.wf_mapDone {s : State} {p : Nat} {r : MapReq} {fcode : Nat} (h : Memory.wf s = true) : Memory.wf (s.mapDone p r fcode) = true := by
  unfold State.mapDone
  split
  · exact Memory.wf_badRecord _ _ _ h
  · exact Memory.wf_contribute _ _ _ _ _ _ _ _ _ h

theorem Memory.wf_forget {s : State} {p va n : Nat} (h : Memory.wf s = true) : Memory.wf (s.forget p va n) = true :=
  Memory.wf_mapDies h fun _ => rfl

theorem Memory.wf_sendTokens {s : State} {l : List DrainTok} (h : Memory.wf s = true) : Memory.wf (s.sendTokens l) = true := by
  unfold State.sendTokens
  refine Memory.wf_foldl (fun _ _ hu => ?_) _ _ h
  split
  · exact Memory.wf_fromEdge hu
  · exact hu

theorem Memory.wf_invalidate {s : State} {p req : Nat} {r : MapReq} {leaves : List Leaf → List Leaf} (h : Memory.wf s = true) :
    Memory.wf (s.invalidate p req r leaves) = true :=
  Memory.wf_modPart (Memory.wf_sendTokens (Memory.wf_forget (Memory.wf_modPart h fun hp => hp))) fun hp => hp

theorem Memory.wf_carryOut {s : State} {p req : Nat} (h : Memory.wf s = true) : Memory.wf (s.carryOut p req) = true := by
  unfold State.carryOut
  dsimp only
  split
  · exact Memory.wf_badRecord _ _ _ h
  · split
    · exact Memory.wf_mapDone h
    · split
      · exact Memory.wf_mapDone h
      · split
        · exact Memory.wf_mapDone h
        · split
          · exact Memory.wf_mapDone (Memory.wf_modPart h fun hp => hp)
          · exact Memory.wf_invalidate h
          · exact Memory.wf_ite (Memory.wf_invalidate h) (Memory.wf_mapDone (Memory.wf_modPart h fun hp => hp))
          · exact Memory.wf_modPart h fun hp => hp
          · exact Memory.wf_mapDone h

theorem Memory.wf_pumpMaps {s : State} {p : Nat} {l : List Nat} (h : Memory.wf s = true) : Memory.wf (s.pumpMaps p l) = true := by
  induction l generalizing s with
  | nil => exact Memory.wf_modPart h fun hp => hp
  | cons r l ih =>
    unfold State.pumpMaps
    split
    · exact ih (Memory.wf_carryOut h)
    · dsimp only
      split
      · exact Memory.wf_modPart h fun hp => hp
      · refine ih ?_
        split
        · exact Memory.wf_badRecord _ _ _ h
        · exact Memory.wf_mapDone h

theorem Memory.wf_mapWrite {s : State} {p req : Nat} {ops : List Nat} (h : Memory.wf s = true) : Memory.wf (s.mapWrite p req ops) = true :=
  Memory.wf_ite h (Memory.wf_pumpMaps h)

theorem Memory.wf_mapEnd {s : State} {p : Nat} {r : MapReq} (h : Memory.wf s = true) : Memory.wf (s.mapEnd p r) = true :=
  Memory.wf_pumpMaps (Memory.wf_mapDone (Memory.wf_modPart h fun hp => hp))

theorem canonical_execMapRequestMap {p req : Nat} {s : State} (h : Memory.wf s = true) : Out.Canonical (execMapRequestMap p req s) :=
  Out.canonical_next (Memory.wf_mapWrite h)

theorem canonical_execMapRequestUnmap {p req : Nat} {s : State} (h : Memory.wf s = true) : Out.Canonical (execMapRequestUnmap p req s) :=
  Out.canonical_next (Memory.wf_mapWrite h)

theorem canonical_execMapRequestProtect {p req : Nat} {s : State} (h : Memory.wf s = true) : Out.Canonical (execMapRequestProtect p req s) :=
  Out.canonical_next (Memory.wf_mapWrite h)

theorem canonical_execMapRequestMigrate {p req : Nat} {s : State} (h : Memory.wf s = true) : Out.Canonical (execMapRequestMigrate p req s) :=
  Out.canonical_next (Memory.wf_mapWrite h)

theorem canonical_execMapRequestOrder {p req : Nat} {s : State} (h : Memory.wf s = true) : Out.Canonical (execMapRequestOrder p req s) :=
  Out.canonical_next (Memory.wf_mapWrite h)

theorem canonical_execDrainTokenArrival {p n : Nat} {s : State} (h : Memory.wf s = true) : Out.Canonical (execDrainTokenArrival p n s) := by
  unfold execDrainTokenArrival
  split
  · exact Out.canonical_next h
  · split
    · exact Out.canonical_next h
    · split
      · exact Out.canonical_next h
      · exact Out.canonical_next (Memory.wf_modPart h fun hp => hp)

theorem canonical_execInvalidationComplete {p : Nat} {s : State} (h : Memory.wf s = true) : Out.Canonical (execInvalidationComplete p s) := by
  unfold execInvalidationComplete
  split
  · exact Out.canonical_next h
  · dsimp only
    split
    · exact Out.canonical_next h
    · exact Out.canonical_next (Memory.wf_mapEnd h)

theorem canonical_execMigrationSpliceBeat {p : Nat} {s : State} (h : Memory.wf s = true) : Out.Canonical (execMigrationSpliceBeat p s) := by
  unfold execMigrationSpliceBeat
  split
  · exact Out.canonical_next h
  · split
    · exact Out.canonical_next h
    · split
      · exact Out.canonical_next h
      · exact Out.canonical_next (Memory.wf_spliceBeat _ _ _ _ h)

theorem Memory.wf_redirect {s : State} {p old new n : Nat} (h : Memory.wf s = true) : Memory.wf (s.redirect p old new n) = true := by
  unfold State.redirect
  refine Memory.wf_foldl (fun u t hu => Memory.wf_modTileOf hu ?_) _ _ h
  exact fun _ ht => ht

theorem canonical_execMigrationRedirect {p : Nat} {s : State} (h : Memory.wf s = true) : Out.Canonical (execMigrationRedirect p s) := by
  unfold execMigrationRedirect
  split
  · exact Out.canonical_next h
  · dsimp only
    split
    · exact Out.canonical_next h
    · split
      · exact Out.canonical_next h
      · exact Out.canonical_next (Memory.wf_modPart (Memory.wf_sendTokens
          (Memory.wf_forget (Memory.wf_redirect (Memory.wf_modPart h fun hp => hp)))) fun hp => hp)

theorem canonical_execMigrationDone {p : Nat} {s : State} (h : Memory.wf s = true) : Out.Canonical (execMigrationDone p s) := by
  unfold execMigrationDone
  split
  · exact Out.canonical_next h
  · dsimp only
    split
    · exact Out.canonical_next h
    · split
      · exact Out.canonical_next (Memory.wf_pumpMaps (Memory.wf_modPart h fun hp => hp))
      · exact Out.canonical_next (Memory.wf_mapEnd h)

/-! Accesses of the host (Machine/EvHost). -/

theorem canonical_execCtrlSuspend {p : Nat} {s : State} (h : Memory.wf s = true) : Out.Canonical (execCtrlSuspend p s) := by
  unfold execCtrlSuspend
  split
  · exact Out.canonical_next (Memory.wf_modPart h fun hp => hp)
  · exact Out.canonical_next h

theorem canonical_execCtrlResume {p : Nat} {s : State} (h : Memory.wf s = true) : Out.Canonical (execCtrlResume p s) := by
  unfold execCtrlResume
  split
  · exact Out.canonical_next (Memory.wf_modPart h fun hp => hp)
  · exact Out.canonical_next h

theorem canonical_execRouterStatusWrite {p k : Nat} {s : State} (h : Memory.wf s = true) : Out.Canonical (execRouterStatusWrite p k s) := by
  unfold execRouterStatusWrite
  split
  · exact Out.canonical_next (Memory.wf_modTileOf h fun _ ht => ht)
  · exact Out.canonical_next h

theorem canonical_execRegisterWrite {p off val : Nat} {s : State} (h : Memory.wf s = true) : Out.Canonical (execRegisterWrite p off val s) := by
  unfold execRegisterWrite
  split
  · exact Out.canonical_next h
  · split
    · split
      · exact canonical_execCtrlSuspend h
      · split
        · exact canonical_execCtrlResume h
        · exact Out.canonical_next h
    · refine Out.canonical_next ?_
      refine Memory.wf_modPart h fun hp => ?_
      split <;> exact hp

theorem Memory.wf_beatTouch {s : State} {p space va n : Nat} {h : Home} {wr : Bool} (hs : Memory.wf s = true) :
    Memory.wf (s.beatTouch p space va n h wr) = true :=
  Memory.wf_meterDev _ _ _ _ (Memory.wf_edgeTouch _ _ _ _ _ _ _ _ hs)

theorem canonical_execHostWriteTlp {p pa : Nat} {bytes : List Nat} {ep : Bool} {s : State} (h : Memory.wf s = true) :
    Out.Canonical (execHostWriteTlp p pa bytes ep s) := by
  unfold execHostWriteTlp
  split
  · exact Out.canonical_next (Memory.wf_detect _ _ _ _ _ _ _ _ h)
  · refine Out.canonical_next ?_
    refine Memory.wf_foldl (fun _ _ hu => ?_) _ _ h
    dsimp only
    split
    · exact Memory.wf_poisonAt _ _ (Memory.wf_writeHomeList _ _ (Memory.wf_beatTouch hu))
    · exact Memory.wf_writeHomeList _ _ (Memory.wf_beatTouch hu)

theorem Memory.wf_hostBeats {s : State} {p : Nat} {l : List (Nat × Nat)} (h : Memory.wf s = true) : Memory.wf (s.hostBeats p l).1 = true := by
  induction l generalizing s with
  | nil => exact h
  | cons x l ih => exact ih (Memory.wf_beatTouch h)

theorem canonical_execHostReadTlp {p pa n : Nat} {s : State} (h : Memory.wf s = true) : Out.Canonical (execHostReadTlp p pa n s) := by
  unfold execHostReadTlp
  split
  · exact Out.canonical_next (Memory.wf_send _ _ _ (Memory.wf_detect _ _ _ _ _ _ _ _ h))
  · exact Out.canonical_next (Memory.wf_send _ _ _ (Memory.wf_hostBeats h))

theorem Memory.wf_unitFails {s : State} {p va : Nat} {rd wr : Bool} (h : Memory.wf s = true) : Memory.wf (s.unitFails p va rd wr) = true :=
  Memory.wf_edgeAt h

theorem Memory.wf_linkDone {s : State} {p : Nat} {r : LinkReq} {fcode : Nat} (h : Memory.wf s = true) :
    Memory.wf (s.linkDone p r fcode) = true := by
  unfold State.linkDone
  split
  · exact Memory.wf_badRecord _ _ _ h
  · exact Memory.wf_contribute _ _ _ _ _ _ _ _ _ h

theorem Memory.wf_unitsOut {s : State} {p : Nat} {what : String} {head : List Nat} {rva : Nat} {l : List (Nat × Nat)} (h : Memory.wf s = true) :
    Memory.wf (s.unitsOut p what head rva l) = true :=
  Memory.wf_foldl (fun _ _ hu => Memory.wf_send _ _ _ (Memory.wf_beatTouch hu)) _ _ h

theorem Memory.wf_putUnit {s : State} {p va pa : Nat} {l : List Byte} {psn : List Bool} (h : Memory.wf s = true) :
    Memory.wf (s.putUnit p va pa l psn) = true :=
  Memory.wf_foldl (fun _ _ hu => Memory.wf_ite (Memory.wf_poisonAt _ _ hu) hu) _ _ (Memory.wf_writeHomeList _ _ (Memory.wf_beatTouch h))

theorem Memory.wf_peerGrants {s : State} (h : Memory.wf s = true) : Memory.wf (s.peerGrants).2 = true := Memory.wf_takeFree h

theorem canonical_execLinkTransferWrite {p req : Nat} {s : State} (h : Memory.wf s = true) : Out.Canonical (execLinkTransferWrite p req s) := by
  unfold execLinkTransferWrite
  dsimp only
  split
  · exact Out.canonical_next h
  · split
    · exact Out.canonical_next (Memory.wf_badRecord _ _ _ h)
    · split
      · exact Out.canonical_next (Memory.wf_linkDone h)
      · split
        · exact Out.canonical_next (Memory.wf_linkDone (Memory.wf_unitFails h))
        · split
          · exact Out.canonical_next (Memory.wf_linkDone (Memory.wf_peerGrants h))
          · exact Out.canonical_next (Memory.wf_linkDone (Memory.wf_meter _ _ _ (Memory.wf_unitsOut (Memory.wf_peerGrants h))))

theorem canonical_execLinkTransferRead {p req : Nat} {s : State} (h : Memory.wf s = true) : Out.Canonical (execLinkTransferRead p req s) := by
  unfold execLinkTransferRead
  dsimp only
  split
  · exact Out.canonical_next h
  · split
    · exact Out.canonical_next (Memory.wf_badRecord _ _ _ h)
    · split
      · exact Out.canonical_next (Memory.wf_linkDone h)
      · split
        · exact Out.canonical_next (Memory.wf_linkDone (Memory.wf_unitFails h))
        · split
          · exact Out.canonical_next (Memory.wf_linkDone (Memory.wf_peerGrants h))
          · exact Out.canonical_next (Memory.wf_linkDone (Memory.wf_meter _ _ _
              (Memory.wf_foldl (fun _ _ hu => Memory.wf_update (Memory.wf_putUnit (Memory.wf_takeFree hu))) _ _
              (Memory.wf_send _ _ _ (Memory.wf_peerGrants h)))))

theorem canonical_execPeerLinkTransfer {peer ppart : Nat} {dirRead : Bool} {p rva len : Nat} {data : List Nat} {s : State}
    (h : Memory.wf s = true) :
    Out.Canonical (execPeerLinkTransfer peer ppart dirRead p rva len data s) := by
  unfold execPeerLinkTransfer
  dsimp only
  split
  · exact Out.canonical_next (Memory.wf_send _ _ _ h)
  · split
    · exact Out.canonical_next (Memory.wf_send _ _ _ (Memory.wf_unitFails h))
    · split
      · exact Out.canonical_next (Memory.wf_unitsOut h)
      · exact Out.canonical_next (Memory.wf_send _ _ _ (Memory.wf_foldl (fun _ _ hu => Memory.wf_putUnit hu) _ _ h))

/-! Hardware steps of a die (Machine/EvDie). -/

theorem Memory.wf_offLink {s : State} {die : Nat} {f : Flit} (h : Memory.wf s = true) : Memory.wf (s.offLink die f) = true := by
  unfold State.offLink
  dsimp only
  split
  · exact Memory.wf_modDie (Memory.wf_meter _ _ _ h) fun hm => hm
  · exact Memory.wf_modTile (Memory.wf_meter _ _ _ h) fun ht => ht

theorem Die.staging_note {d : Die} {f : Flit} : (d.note f).staging = d.staging := by
  unfold Die.note
  split <;> rfl

theorem Memory.wf_takeFlit {s : State} {k die : Nat} {f : Flit} (h : Memory.wf s = true) : Memory.wf (s.takeFlit k die f) = true := by
  unfold State.takeFlit
  dsimp only
  split
  · exact h
  · split
    · exact h
    · refine Memory.wf_offLink ?_
      split
      · exact Memory.wf_modDie h fun hd => by rw [Die.staging_note]; exact hd
      · exact h

theorem canonical_execD2dFrameReceipt {k : Nat} {toHigh : Bool} {s : State} (h : Memory.wf s = true) :
    Out.Canonical (execD2dFrameReceipt k toHigh s) := by
  unfold execD2dFrameReceipt
  dsimp only
  split
  · exact Out.canonical_next h
  · split
    · exact Out.canonical_next h
    · exact Out.canonical_next (Memory.wf_foldl (fun _ _ hu => Memory.wf_takeFlit hu) _ _ (Memory.wf_modDie (Memory.wf_modLink h) fun hm => hm))

theorem canonical_execFrameReplay {k : Nat} {toHigh : Bool} {s : State} (h : Memory.wf s = true) : Out.Canonical (execFrameReplay k toHigh s) := by
  unfold execFrameReplay
  dsimp only
  split
  · exact Out.canonical_next h
  · exact Out.canonical_next (Memory.wf_detectLink (Memory.wf_modLink h))

theorem Tile.bytesWf_disown {tl : Tile} {c : Nat} {gs : List Nat} (h : tl.bytesWf = true) : (tl.disown c gs).bytesWf = true := h

theorem Memory.wf_accessFates {before s : State} {k p : Nat} (h : Memory.wf s = true) : Memory.wf (before.accessFates s k p).1 = true := by
  unfold State.accessFates
  refine Memory.wf_foldl_fst (fun _ _ hu => ?_) _ _ h
  refine Memory.wf_foldl_fst (fun _ _ hc => ?_) _ _ hu
  exact Memory.wf_modTile (Memory.wf_modCtx hc) fun ht => Tile.bytesWf_disown ht

theorem Memory.wf_resend {s : State} {die : Nat} {f : Flit} (h : Memory.wf s = true) : Memory.wf (s.resend die f) = true :=
  Memory.wf_ite (Memory.wf_modDie h fun hm => hm) (Memory.wf_dropFlit h)

theorem Memory.wf_linkFate {before s : State} {k p : Nat} {flits : List (Nat × Flit)} (h : Memory.wf s = true) :
    Memory.wf (before.linkFate s k p flits) = true := by
  unfold State.linkFate
  have hf : Memory.wf (before.accessFates s k p).1 = true := Memory.wf_accessFates h
  dsimp only
  split
  · exact hf
  · exact Memory.wf_logRecord _ _ (Memory.wf_modPart (Memory.wf_update hf) fun hp => hp)

theorem Memory.wf_abortLaunch {s : State} {l : Nat} (h : Memory.wf s = true) : Memory.wf (s.abortLaunch l) = true := by
  unfold State.abortLaunch
  refine Memory.wf_endLaunch (Memory.wf_update (Memory.wf_foldl (fun u t hu => Memory.wf_modTileOf hu ?_) _ _ (Memory.wf_modLaunch h)))
  exact fun _ ht => ht

theorem Memory.wf_fenceDie {s : State} {die : Nat} (h : Memory.wf s = true) : Memory.wf (s.fenceDie die) = true :=
  Memory.wf_foldl (fun _ _ hu => Memory.wf_abortLaunch hu) _ _ (Memory.wf_modDie h fun hm => hm)

theorem canonical_execLinkDown {k : Nat} {s : State} (h : Memory.wf s = true) : Out.Canonical (execLinkDown k s) := by
  unfold execLinkDown
  dsimp only
  split
  · exact Out.canonical_next h
  · exact Out.canonical_next (Memory.wf_foldl (fun _ _ hu => Memory.wf_fenceDie hu) _ _
      (Memory.wf_foldl (fun _ _ hu => Memory.wf_resend hu) _ _ (Memory.wf_foldl (fun _ _ hu => Memory.wf_linkFate hu) _ _ (Memory.wf_modLink h))))

theorem Memory.wf_status {s : State} {v : Nat} (h : Memory.wf s = true) : Memory.wf (s.status v) = true := Memory.wf_modClasp h rfl

theorem Memory.wf_call {s : State} {l : List Nat} (h : Memory.wf s = true) : Memory.wf (s.call l) = true := Memory.wf_modClasp h rfl

theorem Memory.wf_switchOut {s : State} {ps : List Nat} (h : Memory.wf s = true) : Memory.wf (s.switchOut ps) = true :=
  Memory.wf_foldl (fun _ _ hu => Memory.wf_modPart (Memory.wf_beginSwitch hu) fun hp => hp) _ _ h

theorem canonical_execDieReset {die : Nat} {s : State} (h : Memory.wf s = true) : Out.Canonical (execDieReset die s) := by
  unfold execDieReset
  dsimp only
  split
  · exact Out.canonical_next (Memory.wf_status (Memory.wf_call h))
  · split
    · exact Out.canonical_next (Memory.wf_status (Memory.wf_switchOut (Memory.wf_call h)))
    · exact Out.canonical_next (Memory.wf_status (Memory.wf_modDie
        (Memory.wf_foldl (fun _ _ hu => Memory.wf_modTile hu fun _ => Tile.bytesWf_reset) _ _ (Memory.wf_call h)) fun hm => hm))

theorem canonical_execFlushMarkerReturn {k : Nat} {s : State} (h : Memory.wf s = true) : Out.Canonical (execFlushMarkerReturn k s) := by
  unfold execFlushMarkerReturn
  dsimp only
  split
  · refine Out.canonical_next (Memory.wf_modDie (Memory.wf_modDie h fun hd => ?_) fun hd => ?_)
    · split <;> exact hd
    · generalize (State.modDie s _ _).die _ = d at hd ⊢
      split <;> exact hd
  · exact Out.canonical_next h

theorem canonical_execRetrainLink {k : Nat} {s : State} (h : Memory.wf s = true) : Out.Canonical (execRetrainLink k s) := by
  unfold execRetrainLink
  dsimp only
  split
  · exact Out.canonical_next (Memory.wf_status (Memory.wf_call h))
  · split
    · exact Out.canonical_next (Memory.wf_status (Memory.wf_call h))
    · exact Out.canonical_next (Memory.wf_status (Memory.wf_modLink (Memory.wf_call h)))

/-! Clasp (Machine/EvTrust). -/

theorem Partition.bytesWf_fold {q : Partition} (h : q.bytesWf = true) : (q.fold).bytesWf = true := by
  unfold Partition.fold
  exact Partition.bytesWf_of h rfl

theorem Memory.wf_foldPart {s : State} {p : Nat} (h : Memory.wf s = true) : Memory.wf (s.foldPart p) = true :=
  Memory.wf_foldl (fun _ _ hu => Memory.wf_logRecord _ _ hu) _ _
      (Memory.wf_modPart (Memory.wf_modPart h fun hp => Partition.bytesWf_fold hp) fun hp => hp)

/-- Every tile is updated, and keeps its bytes. -/
theorem Memory.wf_mapTiles {s : State} {f : Nat × Tile → Nat × Tile} (h : Memory.wf s = true)
    (hf : ∀ x, x.2.bytesWf = true → (f x).2.bytesWf = true) :
    Memory.wf { s with tiles := s.tiles.map f } = true := by
  obtain ⟨hdev, htiles, hrest⟩ := (Memory.wf_iff s).1 h
  refine (Memory.wf_iff _).2 ⟨hdev, fun e he => ?_, hrest⟩
  obtain ⟨x, hx, rfl⟩ := List.mem_map.1 he
  exact hf x (htiles x hx)

theorem Memory.wf_answerMeters {s : State} (h : Memory.wf s = true) : Memory.wf s.answerMeters = true :=
  Memory.wf_mapTiles h fun _ hx => hx

theorem Memory.wf_foldAll {s : State} (h : Memory.wf s = true) : Memory.wf (s.foldAll) = true :=
  Memory.wf_update (Memory.wf_answerMeters (Memory.wf_foldl (fun _ _ hu => Memory.wf_foldPart hu) _ _ h))

theorem canonical_execMeterFold {s : State} (h : Memory.wf s = true) : Out.Canonical (execMeterFold s) := by
  unfold execMeterFold
  split
  · exact Out.canonical_next (Memory.wf_foldAll h)
  · exact Out.canonical_next h

theorem Memory.wf_zeroGranules {s : State} {runs : List GRun} (h : Memory.wf s = true) : Memory.wf (s.zeroGranules runs) = true :=
  Memory.wf_setDev h (Store.wf_filter (Memory.wf_dev h))

theorem Memory.wf_endLostMigration {s : State} {p : Nat} (h : Memory.wf s = true) : Memory.wf (s.endLostMigration p) = true := by
  unfold State.endLostMigration
  split
  · exact h
  · exact Memory.wf_ite h (Memory.wf_pumpMaps (Memory.wf_mapDone (Memory.wf_modPart h fun hp => hp)))

theorem Memory.wf_dropImage {s : State} {p : Clasp → Bool} (h : Memory.wf s = true) :
    Memory.wf (s.modClasp fun c => if p c then c else { c with image := none }) = true := by
  obtain ⟨hdev, htiles, hdies, hhost, hparts, himage⟩ := (Memory.wf_iff s).1 h
  refine (Memory.wf_iff _).2 ⟨hdev, htiles, hdies, hhost, hparts, fun k hk => himage k ?_⟩
  simp only [State.modClasp] at hk
  split at hk
  · exact hk
  · cases hk

theorem Memory.wf_install {s : State} {record : Nat} (h : Memory.wf s = true) : Memory.wf (s.install record) = true := by
  unfold State.install
  refine Memory.wf_foldl (fun u p hu => Memory.wf_endLostMigration hu) _ _ ?_
  refine Memory.wf_mapDies (Memory.wf_dropImage (Memory.wf_modClasp ?_ rfl)) fun _ => rfl
  refine Memory.wf_foldl (fun u p hu => ?_) _ _ (Memory.wf_zeroGranules h)
  split
  · exact hu
  · refine Memory.wf_modPart hu fun hp => ?_
    dsimp only
    split <;> exact hp

theorem canonical_execSubmitConfiguration {record sig key newKey : Nat} {s : State} (h : Memory.wf s = true) :
    Out.Canonical (execSubmitConfiguration record sig key newKey s) := by
  unfold execSubmitConfiguration
  dsimp only
  split
  · exact Out.canonical_next (Memory.wf_status (Memory.wf_call h))
  · split
    · exact Out.canonical_next (Memory.wf_status (Memory.wf_call h))
    · split
      · exact Out.canonical_next (Memory.wf_status (Memory.wf_switchOut (Memory.wf_call h)))
      · exact Out.canonical_next (Memory.wf_status (Memory.wf_modClasp (Memory.wf_install (Memory.wf_call h)) rfl))

theorem canonical_execSubmitSchedulingRecord {p rec_ : Nat} {s : State} (h : Memory.wf s = true) :
    Out.Canonical (execSubmitSchedulingRecord p rec_ s) := by
  unfold execSubmitSchedulingRecord
  dsimp only
  split
  · exact Out.canonical_next (Memory.wf_status (Memory.wf_call h))
  · split
    · exact Out.canonical_next (Memory.wf_status (Memory.wf_modPart (Memory.wf_call h) fun hp => hp))
    · exact Out.canonical_next (Memory.wf_status (Memory.wf_setCaps (Memory.wf_modPart (Memory.wf_call h) fun hp => hp)))

theorem canonical_execPartitionControl {p op : Nat} {s : State} (h : Memory.wf s = true) : Out.Canonical (execPartitionControl p op s) := by
  unfold execPartitionControl
  dsimp only
  split
  · exact Out.canonical_next (Memory.wf_status (Memory.wf_call h))
  · split
    · exact Out.canonical_next (Memory.wf_status (Memory.wf_modPart (Memory.wf_call h) fun hp => hp))
    · split
      · exact Out.canonical_next (Memory.wf_status (Memory.wf_switchOut (Memory.wf_call h)))
      · exact Out.canonical_next (Memory.wf_status (Memory.wf_modPart (Memory.wf_call h) fun hp => hp))

theorem canonical_execReadRouterStatus {t : Nat} {s : State} (h : Memory.wf s = true) : Out.Canonical (execReadRouterStatus t s) :=
  Out.canonical_next (Memory.wf_status (Memory.wf_send _ _ _ (Memory.wf_call h)))

theorem canonical_execReadErrorLog {s : State} (h : Memory.wf s = true) : Out.Canonical (execReadErrorLog s) :=
  Out.canonical_next (Memory.wf_status (Memory.wf_send _ _ _ (Memory.wf_call h)))

theorem Memory.wf_sparingRecord {s : State} {rtype kind die label quarter index : Nat} (h : Memory.wf s = true) :
    Memory.wf (s.sparingRecord rtype kind die label quarter index) = true :=
  Memory.wf_logRecord _ _ h

theorem Memory.wf_recordSparing {s : State} {f : Clasp → Clasp} (h : Memory.wf s = true) (hf : (f s.clasp).image = s.clasp.image) :
    Memory.wf (s.recordSparing f) = true := Memory.wf_modClasp h hf

theorem Memory.wf_fenceSlot {s : State} {die label : Nat} (h : Memory.wf s = true) : Memory.wf (s.fenceSlot die label) = true :=
  Memory.wf_sparingRecord (Memory.wf_foldl (fun _ _ hu => Memory.wf_abortLaunch hu) _ _ (Memory.wf_recordSparing h rfl))

theorem Memory.wf_spareTile {s : State} {die label : Nat} (h : Memory.wf s = true) : Memory.wf (s.spareTile die label) = true := by
  unfold State.spareTile
  dsimp only
  split
  · exact Memory.wf_fenceSlot h
  · exact Memory.wf_sparingRecord (Memory.wf_recordSparing (Memory.wf_foldl (fun _ _ hu => Memory.wf_ite (Memory.wf_beginSwitch hu) hu) _ _ h) rfl)

theorem Memory.wf_retirePage {s : State} {pa : Nat} (h : Memory.wf s = true) : Memory.wf (s.retirePage pa) = true := by
  unfold State.retirePage
  have hr : Memory.wf (s.recordSparing fun c => { c with retired := sadd c.retired pa }) = true := Memory.wf_recordSparing h rfl
  generalize (s.recordSparing fun c => { c with retired := sadd c.retired pa }) = u at hr ⊢
  dsimp only
  split
  · exact hr
  · split
    · exact hr
    · refine Memory.wf_mapDies (Memory.wf_redirect (Memory.wf_modPart (Memory.wf_setDev hr ?_) fun hp => hp)) fun _ => rfl
      refine Store.wf_foldl (fun m a hm => ?_) _ _ (Store.wf_foldl (fun m a hm => ?_) _ _ (Store.wf_filter (Memory.wf_dev hr)))
      · exact hm
      · exact Store.wf_writeList _ _ _ hm

theorem Memory.wf_spareUnit {s : State} {j : TestJob} (h : Memory.wf s = true) : Memory.wf (s.spareUnit j) = true :=
  Memory.wf_sparingRecord (Memory.wf_recordSparing h rfl)

theorem Memory.wf_lasting {s : State} {j : TestJob} (h : Memory.wf s = true) : Memory.wf (s.lasting j) = true := by
  unfold State.lasting
  split
  · exact Memory.wf_ite (Memory.wf_spareUnit h) (Memory.wf_spareTile h)
  · exact Memory.wf_spareUnit h
  · exact Memory.wf_modClasp (Memory.wf_spareUnit h) rfl
  · exact Memory.wf_spareUnit (Memory.wf_retirePage h)
  · exact Memory.wf_spareTile h

theorem canonical_execSelfTest {n : Nat} {pass : Bool} {s : State} (h : Memory.wf s = true) : Out.Canonical (execSelfTest n pass s) := by
  unfold execSelfTest
  split
  · exact Out.canonical_next h
  · split
    · exact Out.canonical_next h
    · exact Out.canonical_next (Memory.wf_ite (Memory.wf_modClasp h rfl) (Memory.wf_lasting (Memory.wf_modClasp h rfl)))

theorem canonical_execSubmitSparing {kind die unit index : Nat} {fence : Bool} {s : State} (h : Memory.wf s = true) :
    Out.Canonical (execSubmitSparing kind die unit index fence s) := by
  unfold execSubmitSparing
  dsimp only
  split
  · split
    · exact Out.canonical_next (Memory.wf_status (Memory.wf_modClasp (Memory.wf_call h) rfl))
    · exact Out.canonical_next (Memory.wf_status (Memory.wf_call h))
  · split
    · split
      · exact Out.canonical_next (Memory.wf_status (Memory.wf_modClasp (Memory.wf_call h) rfl))
      · exact Out.canonical_next (Memory.wf_status (Memory.wf_call h))
    · split
      · exact Out.canonical_next (Memory.wf_status (Memory.wf_modClasp (Memory.wf_call h) rfl))
      · exact Out.canonical_next (Memory.wf_status (Memory.wf_call h))

/-- A scrub read of a granule with the chance outcome it met: nothing, a corrected error, an uncorrected one. -/
theorem canonical_scrubbed {u : State} {p : Option Nat} {n stack pa : Nat} (h : Memory.wf u = true) :
    Out.Canonical (match n % 3 with
      | 0 => .next u
      | 1 => .next (u.detect p stack pa 3 5 0 0 pa)
      | _ => .next ((u.poisonAt (.dev pa) 64).detect p stack pa 4 5 0 0 pa)) := by
  split
  · exact Out.canonical_next h
  · exact Out.canonical_next (Memory.wf_detect _ _ _ _ _ _ _ _ h)
  · exact Out.canonical_next (Memory.wf_detect _ _ _ _ _ _ _ _ (Memory.wf_poisonAt _ _ h))

/-- `granuleOf` is made a variable before the definition is opened: else the kernel would compute the granule of a symbolic address. -/
theorem canonical_execHbmScrub {stack sector : Nat} {s : State} (h : Memory.wf s = true) : Out.Canonical (execHbmScrub stack sector s) := by
  obtain ⟨granule, hg⟩ : ∃ g, g = granuleOf := ⟨_, rfl⟩
  generalize e : execHbmScrub = scrub
  delta execHbmScrub at e
  rw [← hg] at e
  subst e
  dsimp only
  split
  · exact Out.canonical_next h
  · split
    · exact Out.canonical_next h
    · exact canonical_scrubbed (Memory.wf_takeFree h)

/-- A checkpoint of a canonical state, whatever it leaves out of the stacks. -/
theorem Memory.wf_image {s : State} {f : Clasp → Clasp} {k : Snapshot} {p : Host.Cell → Bool} {l : List Nat} (h : Memory.wf s = true)
    (hf : (f s.clasp).image = some k) (hd : k.dev = ⟨s.dev.bytes.filter p, l⟩) (hk : k.parts = s.parts) : Memory.wf (s.modClasp f) = true := by
  obtain ⟨hdev, htiles, hdies, hhost, hparts, _⟩ := (Memory.wf_iff s).1 h
  refine (Memory.wf_iff _).2 ⟨hdev, htiles, hdies, hhost, hparts, fun k' hk' => ?_⟩
  cases hf.symm.trans hk'
  simp only [Snapshot.bytesWf, Bool.and_eq_true, List.all_eq_true, hd, hk]
  exact ⟨Store.wf_filter hdev, hparts⟩

theorem Memory.wf_writeCheckpoint {s : State} (h : Memory.wf s = true) : Memory.wf s.writeCheckpoint = true :=
  Memory.wf_logRecord _ _ (Memory.wf_image (Memory.wf_foldAll h) rfl rfl rfl)

theorem canonical_execCheckpoint {s : State} (h : Memory.wf s = true) : Out.Canonical (execCheckpoint s) := by
  unfold execCheckpoint
  dsimp only
  split
  · exact Out.canonical_next (Memory.wf_status (Memory.wf_call h))
  · split
    · exact Out.canonical_next (Memory.wf_status (Memory.wf_switchOut (Memory.wf_call h)))
    · exact Out.canonical_next (Memory.wf_status (Memory.wf_writeCheckpoint (Memory.wf_call h)))

/-- The module after bring-up: the memories of reset, and the partitions' chains and Clasp's checkpoint kept. -/
theorem Memory.wf_fresh {s : State} {c : Clasp} {f : Nat × Partition → Nat × Partition} {n : Nat} (h : Memory.wf s = true)
    (hc : c.image = s.clasp.image) (hf : ∀ e, (f e).2.saved = []) :
    Memory.wf { State.reset with clasp := c, free := n, parts := s.parts.map f } = true := by
  obtain ⟨_, _, _, _, _, himage⟩ := (Memory.wf_iff s).1 h
  refine (Memory.wf_iff _).2 ⟨rfl, nofun, nofun, nofun, fun e he => ?_, fun k hk => himage k (hc ▸ hk)⟩
  obtain ⟨x, _, rfl⟩ := List.mem_map.1 he
  exact Partition.bytesWf_of (a := Partition.reset) rfl (hf x)

theorem Memory.wf_boot {s : State} (h : Memory.wf s = true) : Memory.wf s.boot = true := by
  unfold State.boot
  have hl : ∀ (l : List Nat) (u : State), Memory.wf u = true → Memory.wf (l.foldl (fun s k => s.detectLink k 6) u) = true :=
    Memory.wf_foldl fun u k hu => Memory.wf_detectLink hu
  dsimp only
  split
  · exact Memory.wf_install (hl _ _ (Memory.wf_update (Memory.wf_takeFree (Memory.wf_fresh h rfl fun _ => rfl))))
  · exact hl _ _ (Memory.wf_update (Memory.wf_takeFree (Memory.wf_fresh h rfl fun _ => rfl)))

theorem Memory.wf_restoreFrom {s : State} {k : Snapshot} (h : Memory.wf s = true) (hk : k.bytesWf = true) : Memory.wf (s.restoreFrom k) = true := by
  obtain ⟨_, htiles, hdies, hhost, hparts, himage⟩ := (Memory.wf_iff s).1 h
  simp only [Snapshot.bytesWf, Bool.and_eq_true, List.all_eq_true] at hk
  refine (Memory.wf_iff _).2 ⟨hk.1, htiles, hdies, hhost, ?_, himage⟩
  refine List.foldlRecOn (motive := fun m : Map Partition => ∀ e ∈ m, e.2.bytesWf = true) _ _ (fun e he => ?_)
    fun m hm e _ => all_mput (P := fun q : Partition => q.bytesWf = true) hm (Partition.bytesWf_of (a := Partition.reset) rfl rfl)
  obtain ⟨x, hx, rfl⟩ := List.mem_map.1 he
  exact Partition.bytesWf_of (hk.2 x hx) rfl

theorem canonical_execPowerOn {s : State} (h : Memory.wf s = true) : Out.Canonical (execPowerOn s) := by
  obtain ⟨_, _, _, _, _, himage⟩ := (Memory.wf_iff s).1 h
  unfold execPowerOn
  split
  · exact Out.canonical_next h
  · split
    · rename_i k hk
      split
      · exact Out.canonical_next (Memory.wf_restoreFrom (Memory.wf_boot h) (himage k hk))
      · exact Out.canonical_next (Memory.wf_boot h)
    · exact Out.canonical_next (Memory.wf_boot h)

theorem canonical_execTemperatureWarning {die : Nat} {s : State} (h : Memory.wf s = true) : Out.Canonical (execTemperatureWarning die s) :=
  Out.canonical_next (Memory.wf_logRecord _ _ (Memory.wf_modDie h fun hm => hm))

theorem canonical_execTemperatureShutdown {die : Nat} {s : State} (h : Memory.wf s = true) : Out.Canonical (execTemperatureShutdown die s) := by
  unfold execTemperatureShutdown
  split
  · split
    · exact Out.canonical_next (Memory.wf_update (Memory.wf_writeCheckpoint h))
    · exact Out.canonical_next (Memory.wf_modClasp (Memory.wf_switchOut h) rfl)
  · exact Out.canonical_next (Memory.wf_update h)

/-! SPDM requests (Machine/EvSpdm). -/

theorem Memory.wf_modSession {s : State} {r : Requester} {f : Session → Session} (h : Memory.wf s = true) : Memory.wf (s.modSession r f) = true :=
  Memory.wf_modClasp h rfl

theorem canonical_respond {s : State} {what : String} {vals : List Nat} (h : Memory.wf s = true) : Out.Canonical (s.respond what vals) :=
  Out.canonical_next (Memory.wf_send _ _ _ h)

theorem canonical_unsupported {s : State} (h : Memory.wf s = true) : Out.Canonical (s.unsupported) := canonical_respond h

theorem canonical_unexpected {s : State} (h : Memory.wf s = true) : Out.Canonical (s.unexpected) := canonical_respond h

theorem canonical_execGetVersion {r : Requester} {s : State} (h : Memory.wf s = true) : Out.Canonical (execGetVersion r s) :=
  canonical_respond (Memory.wf_modSession h)

theorem canonical_execGetCapabilities {r : Requester} {s : State} (h : Memory.wf s = true) : Out.Canonical (execGetCapabilities r s) := by
  unfold execGetCapabilities
  split
  · exact canonical_respond (Memory.wf_modSession h)
  · exact canonical_unexpected h

theorem canonical_execNegotiateAlgorithms {r : Requester} {offer : List String} {s : State} (h : Memory.wf s = true) :
    Out.Canonical (execNegotiateAlgorithms r offer s) := by
  unfold execNegotiateAlgorithms
  split
  · exact canonical_respond (Memory.wf_modSession h)
  · exact canonical_unexpected h

theorem canonical_afterAlgs {s : State} {r : Requester} {out : Out} (h : Memory.wf s = true) (ho : Out.Canonical out) :
    Out.Canonical (s.afterAlgs r out) := by
  unfold State.afterAlgs
  split
  · exact ho
  · exact canonical_unexpected h

theorem canonical_execGetDigests {r : Requester} {s : State} (h : Memory.wf s = true) : Out.Canonical (execGetDigests r s) :=
  canonical_afterAlgs h (canonical_respond h)

theorem canonical_execGetCertificate {r : Requester} {s : State} (h : Memory.wf s = true) : Out.Canonical (execGetCertificate r s) :=
  canonical_afterAlgs h (canonical_respond h)

theorem canonical_execChallenge {r : Requester} {nonce : Nat} {s : State} (h : Memory.wf s = true) : Out.Canonical (execChallenge r nonce s) :=
  canonical_afterAlgs h (canonical_respond h)

theorem canonical_execGetMeasurements {r : Requester} {index : Nat} {s : State} (h : Memory.wf s = true) :
    Out.Canonical (execGetMeasurements r index s) := by
  unfold execGetMeasurements
  refine canonical_afterAlgs h ?_
  split
  · exact canonical_respond h
  · exact canonical_unsupported h

theorem canonical_execKeyExchange {r : Requester} {keyHash share : Nat} {s : State} (h : Memory.wf s = true) :
    Out.Canonical (execKeyExchange r keyHash share s) :=
  canonical_afterAlgs h (canonical_respond (Memory.wf_modSession h))

theorem canonical_execFinish {r : Requester} {proof : Nat} {s : State} (h : Memory.wf s = true) : Out.Canonical (execFinish r proof s) := by
  unfold execFinish
  split
  · exact canonical_unexpected h
  · split <;> exact canonical_respond (Memory.wf_modSession h)

theorem canonical_execEndSession {r : Requester} {s : State} (h : Memory.wf s = true) : Out.Canonical (execEndSession r s) := by
  unfold execEndSession
  split
  · exact canonical_respond (Memory.wf_modSession h)
  · exact canonical_unexpected h

theorem canonical_execGetcolo {r : Requester} {p nonce : Nat} {s : State} (h : Memory.wf s = true) : Out.Canonical (execGetcolo r p nonce s) := by
  unfold execGetcolo
  split
  · exact canonical_unsupported h
  · exact canonical_respond (Memory.wf_modPart h fun hp => hp)

theorem canonical_execSetcaps {r : Requester} {p : Nat} {caps : List Nat} {s : State} (h : Memory.wf s = true) :
    Out.Canonical (execSetcaps r p caps s) := by
  unfold execSetcaps
  split
  · exact canonical_unsupported h
  · exact canonical_respond (Memory.wf_modPart (Memory.wf_modPart h fun hp => Partition.bytesWf_of hp rfl) fun hp => Partition.bytesWf_of hp rfl)

theorem canonical_execGetcaps {r : Requester} {p : Nat} {s : State} (h : Memory.wf s = true) : Out.Canonical (execGetcaps r p s) := by
  unfold execGetcaps
  split
  · exact canonical_unsupported h
  · exact canonical_respond h

/-! The clock (Machine/EvClock). -/

theorem Memory.wf_tickPart {s : State} {p : Nat} (h : Memory.wf s = true) : Memory.wf (s.tickPart p) = true :=
  Memory.wf_meter _ _ _ (Memory.wf_modPart h fun hp => hp)

theorem Memory.wf_tick {s : State} {die : Nat} (h : Memory.wf s = true) : Memory.wf (s.tick die) = true :=
  Memory.wf_foldl (fun _ _ hu => Memory.wf_tickPart hu) _ _ (Memory.wf_foldl
      (fun _ _ hu => Memory.wf_ite (Memory.wf_modTile hu fun ht => ht) hu) _ _ (Memory.wf_modDie h fun hm => hm))

theorem Memory.wf_tileWork {s : State} {t : Nat} (h : Memory.wf s = true) : Memory.wf (s.tileWork t).1 = true := by
  unfold State.tileWork
  split
  · exact h
  · exact Memory.wf_modTile h fun ht => Tile.bytesWf_of ht rfl rfl

theorem Memory.wf_dieWork {s : State} {l : List Nat} (h : Memory.wf s = true) : Memory.wf (s.dieWork l).1 = true := by
  induction l generalizing s with
  | nil => exact h
  | cons t l ih => exact ih (Memory.wf_tileWork h)

theorem canonical_execClockCycle {die : Nat} {s : State} (h : Memory.wf s = true) : Out.Canonical (execClockCycle die s) := by
  unfold execClockCycle
  split
  · exact Out.canonical_next h
  · exact Out.canonical_next (Memory.wf_update (Memory.wf_dieWork (Memory.wf_tick h)))

/-! Fences (Machine/Fence). -/

theorem canonical_execFence {sc : Scope} {k : FenceKind} {s : State} (h : Memory.wf s = true) : Out.Canonical (execFence sc k s) :=
  Out.canonical_next (Memory.wf_advance (Memory.wf_modMe (Memory.wf_push (Memory.wf_ite (Memory.wf_push h) h))))

/-! Floating-point instructions (Machine/Float). -/

theorem Memory.wf_floatOut {s : State} {f : FFmt} {rm : Rm} {d : Nat} {r : Num × Bool} {lat : Nat} (h : Memory.wf s = true) :
    Memory.wf (s.floatOut f rm d r lat) = true :=
  Memory.wf_advance (Memory.wf_putFloat h)

theorem canonical_execFadd {f : FFmt} {rm : RmCode} {d a b : Nat} {s : State} (h : Memory.wf s = true) : Out.Canonical (execFadd f rm d a b s) :=
  Out.canonical_next (Memory.wf_floatOut h)

theorem canonical_execFsub {f : FFmt} {rm : RmCode} {d a b : Nat} {s : State} (h : Memory.wf s = true) : Out.Canonical (execFsub f rm d a b s) :=
  Out.canonical_next (Memory.wf_floatOut h)

theorem canonical_execFmul {f : FFmt} {rm : RmCode} {d a b : Nat} {s : State} (h : Memory.wf s = true) : Out.Canonical (execFmul f rm d a b s) :=
  Out.canonical_next (Memory.wf_floatOut h)

theorem canonical_execFfma {f : FFmt} {rm : RmCode} {d a b c : Nat} {s : State} (h : Memory.wf s = true) :
    Out.Canonical (execFfma f rm d a b c s) :=
  Out.canonical_next (Memory.wf_floatOut h)

theorem canonical_execFdiv {f : FFmt} {rm : RmCode} {d a b : Nat} {s : State} (h : Memory.wf s = true) : Out.Canonical (execFdiv f rm d a b s) :=
  Out.canonical_next (Memory.wf_advance (Memory.wf_putFloat h))

theorem canonical_execFsqrt {f : FFmt} {rm : RmCode} {d a : Nat} {s : State} (h : Memory.wf s = true) : Out.Canonical (execFsqrt f rm d a s) :=
  Out.canonical_next (Memory.wf_floatOut h)

theorem canonical_execFmin {f : FFmt} {d a b : Nat} {s : State} (h : Memory.wf s = true) : Out.Canonical (execFmin f d a b s) :=
  Out.canonical_next (Memory.wf_floatOut h)

theorem canonical_execFmax {f : FFmt} {d a b : Nat} {s : State} (h : Memory.wf s = true) : Out.Canonical (execFmax f d a b s) :=
  Out.canonical_next (Memory.wf_floatOut h)

theorem canonical_execFcmp {f : FFmt} {r : FRel} {d a b : Nat} {s : State} (h : Memory.wf s = true) : Out.Canonical (execFcmp f r d a b s) :=
  Out.canonical_next (Memory.wf_advance (Memory.wf_setFlags (Memory.wf_setX h)))

theorem canonical_execFcvt {c : Conv} {rm : RmCode} {d a : Nat} {s : State} (h : Memory.wf s = true) : Out.Canonical (execFcvt c rm d a s) := by
  unfold execFcvt
  dsimp only
  split
  · exact Out.canonical_next (Memory.wf_advance (Memory.wf_setFlags (Memory.wf_setX h)))
  · exact Out.canonical_next (Memory.wf_advance (Memory.wf_setFlags (Memory.wf_setF h)))

theorem canonical_execFclass {f : FFmt} {d a : Nat} {s : State} (h : Memory.wf s = true) : Out.Canonical (execFclass f d a s) :=
  Out.canonical_next (Memory.wf_advance (Memory.wf_setX h))

theorem canonical_execFmovx {f : FFmt} {d a : Nat} {s : State} (h : Memory.wf s = true) : Out.Canonical (execFmovx f d a s) :=
  Out.canonical_next (Memory.wf_advance (Memory.wf_setX h))

theorem canonical_execFmovf {f : FFmt} {d a : Nat} {s : State} (h : Memory.wf s = true) : Out.Canonical (execFmovf f d a s) :=
  Out.canonical_next (Memory.wf_advance (Memory.wf_setF h))

/-! Immediate instructions (Machine/Immediate). -/

theorem canonical_execAddi {ty : IntTy} {d a imm : Nat} {s : State} (h : Memory.wf s = true) : Out.Canonical (execAddi ty d a imm s) :=
  Out.canonical_next (Memory.wf_putInt h)

theorem canonical_execAndi {ty : IntTy} {d a imm : Nat} {s : State} (h : Memory.wf s = true) : Out.Canonical (execAndi ty d a imm s) :=
  Out.canonical_next (Memory.wf_putInt h)

theorem canonical_execOri {ty : IntTy} {d a imm : Nat} {s : State} (h : Memory.wf s = true) : Out.Canonical (execOri ty d a imm s) :=
  Out.canonical_next (Memory.wf_putInt h)

theorem canonical_execXori {ty : IntTy} {d a imm : Nat} {s : State} (h : Memory.wf s = true) : Out.Canonical (execXori ty d a imm s) :=
  Out.canonical_next (Memory.wf_putInt h)

theorem canonical_execShli {ty : IntTy} {d a n : Nat} {s : State} (h : Memory.wf s = true) : Out.Canonical (execShli ty d a n s) :=
  Out.canonical_next (Memory.wf_putInt h)

theorem canonical_execShri {ty : IntTy} {d a n : Nat} {s : State} (h : Memory.wf s = true) : Out.Canonical (execShri ty d a n s) :=
  Out.canonical_next (Memory.wf_putInt h)

theorem canonical_execShai {ty : IntTy} {d a n : Nat} {s : State} (h : Memory.wf s = true) : Out.Canonical (execShai ty d a n s) :=
  Out.canonical_next (Memory.wf_putInt h)

theorem canonical_execLi {d imm : Nat} {s : State} (h : Memory.wf s = true) : Out.Canonical (execLi d imm s) :=
  Out.canonical_next (Memory.wf_putInt h)

theorem canonical_execLui {d a imm : Nat} {s : State} (h : Memory.wf s = true) : Out.Canonical (execLui d a imm s) :=
  Out.canonical_next (Memory.wf_putInt h)

theorem canonical_execBext {d a pos len : Nat} {s : State} (h : Memory.wf s = true) : Out.Canonical (execBext d a pos len s) :=
  Out.canonical_next (Memory.wf_putInt h)

theorem canonical_execBins {d a pos len : Nat} {s : State} (h : Memory.wf s = true) : Out.Canonical (execBins d a pos len s) :=
  Out.canonical_next (Memory.wf_putInt h)

theorem canonical_execDemorton {three : Bool} {d a k : Nat} {s : State} (h : Memory.wf s = true) : Out.Canonical (execDemorton three d a k s) :=
  Out.canonical_next (Memory.wf_putInt h)

/-! Pattern instructions (Machine/PatternInstr). -/

theorem canonical_execPatld {sp : PatSpace} {pd xs : Nat} {s : State} (h : Memory.wf s = true) : Out.Canonical (execPatld sp pd xs s) := by
  unfold execPatld
  dsimp only
  split
  · exact Out.canonical_next (Memory.wf_trapNow _ _ _ h)
  · split
    · exact Out.canonical_next (Memory.wf_trapNow _ _ _ h)
    · exact Out.canonical_next (Memory.wf_advance (Memory.wf_push h))

theorem canonical_execPatset {f : PatField} {pd src : Nat} {s : State} (h : Memory.wf s = true) : Out.Canonical (execPatset f pd src s) :=
  Out.canonical_next (Memory.wf_advance (Memory.wf_setP h))

theorem canonical_execPatget {f : PatField} {pa xd : Nat} {s : State} (h : Memory.wf s = true) : Out.Canonical (execPatget f pa xd s) :=
  Out.canonical_next (Memory.wf_advance (Memory.wf_setX h))

/-! Predicate instructions (Machine/Predicate). -/

theorem canonical_execPset {r : Rel} {d a b : Nat} {s : State} (h : Memory.wf s = true) : Out.Canonical (execPset r d a b s) :=
  Out.canonical_next (Memory.wf_advance (Memory.wf_setB h))

theorem canonical_execPand {d a b : Nat} {s : State} (h : Memory.wf s = true) : Out.Canonical (execPand d a b s) :=
  Out.canonical_next (Memory.wf_advance (Memory.wf_setB h))

theorem canonical_execPor {d a b : Nat} {s : State} (h : Memory.wf s = true) : Out.Canonical (execPor d a b s) :=
  Out.canonical_next (Memory.wf_advance (Memory.wf_setB h))

theorem canonical_execPnot {d a : Nat} {s : State} (h : Memory.wf s = true) : Out.Canonical (execPnot d a s) :=
  Out.canonical_next (Memory.wf_advance (Memory.wf_setB h))

/-! Special registers (Machine/Special). -/

theorem Memory.wf_keepOld {s : State} (h : Memory.wf s = true) : Memory.wf (s.keepOld) = true :=
  Memory.wf_modMyTile h fun ht => Tile.bytesWf_ite ht ht

theorem canonical_execRds {d n : Nat} {s : State} (h : Memory.wf s = true) : Out.Canonical (execRds d n s) :=
  Out.canonical_next (Memory.wf_advance (Memory.wf_setX h))

theorem Memory.wf_putSpecial {s : State} {n : Nat} {v : Word} (h : Memory.wf s = true) : Memory.wf (s.putSpecial n v) = true := by
  unfold State.putSpecial
  split
  · exact Memory.wf_modMyTile (Memory.wf_keepOld h) fun ht => ht
  · exact Memory.wf_modMe (Memory.wf_ite (Memory.wf_discardCont _ _ h) h)
  · exact Memory.wf_modMe h
  · exact Memory.wf_modMe h
  · exact Memory.wf_modMe h
  · exact Memory.wf_modMe h
  · exact Memory.wf_modMyTile (Memory.wf_keepOld h) fun ht => ht
  · exact Memory.wf_modMe h
  · exact Memory.wf_modMe h
  · exact h

theorem canonical_execWrs {n a : Nat} {s : State} (h : Memory.wf s = true) : Out.Canonical (execWrs n a s) := by
  unfold execWrs
  split
  · exact Out.canonical_next (Memory.wf_trapNow _ _ _ h)
  · split
    · exact Out.canonical_next (Memory.wf_trapNow _ _ _ h)
    · exact Out.canonical_next (Memory.wf_advance (Memory.wf_putSpecial h))

/-- Every instruction and every hardware step keeps every byte store in canonical form. -/
theorem canonical_exec {i : Instr} {s : State} (h : Memory.wf s = true) : Out.Canonical (exec i s) := by
  cases i with
  | add => exact canonical_execAdd h
  | sub => exact canonical_execSub h
  | mul => exact canonical_execMul h
  | mulh => exact canonical_execMulh h
  | mulhn => exact canonical_execMulhn h
  | div => exact canonical_execDiv h
  | divn => exact canonical_execDivn h
  | rem => exact canonical_execRem h
  | remn => exact canonical_execRemn h
  | min => exact canonical_execMin h
  | max => exact canonical_execMax h
  | minn => exact canonical_execMinn h
  | maxn => exact canonical_execMaxn h
  | and => exact canonical_execAnd h
  | or => exact canonical_execOr h
  | xor => exact canonical_execXor h
  | andn => exact canonical_execAndn h
  | orn => exact canonical_execOrn h
  | shl => exact canonical_execShl h
  | shr => exact canonical_execShr h
  | sha => exact canonical_execSha h
  | cmpeq => exact canonical_execCmpeq h
  | cmplt => exact canonical_execCmplt h
  | cmpltn => exact canonical_execCmpltn h
  | csel => exact canonical_execCsel h
  | mov => exact canonical_execMov h
  | clz => exact canonical_execClz h
  | ctz => exact canonical_execCtz h
  | popc => exact canonical_execPopc h
  | sext => exact canonical_execSext h
  | zext => exact canonical_execZext h
  | addx => exact canonical_execAddx h
  | morton => exact canonical_execMorton h
  | addi => exact canonical_execAddi h
  | andi => exact canonical_execAndi h
  | ori => exact canonical_execOri h
  | xori => exact canonical_execXori h
  | shli => exact canonical_execShli h
  | shri => exact canonical_execShri h
  | shai => exact canonical_execShai h
  | li => exact canonical_execLi h
  | lui => exact canonical_execLui h
  | bext => exact canonical_execBext h
  | bins => exact canonical_execBins h
  | demorton => exact canonical_execDemorton h
  | fadd => exact canonical_execFadd h
  | fsub => exact canonical_execFsub h
  | fmul => exact canonical_execFmul h
  | ffma => exact canonical_execFfma h
  | fdiv => exact canonical_execFdiv h
  | fsqrt => exact canonical_execFsqrt h
  | fmin => exact canonical_execFmin h
  | fmax => exact canonical_execFmax h
  | fcmp => exact canonical_execFcmp h
  | fcvt => exact canonical_execFcvt h
  | fclass => exact canonical_execFclass h
  | fmovx => exact canonical_execFmovx h
  | fmovf => exact canonical_execFmovf h
  | bc => exact canonical_execBc h
  | jmp => exact canonical_execJmp h
  | call => exact canonical_execCall h
  | jmpx => exact canonical_execJmpx h
  | ret => exact canonical_execRet h
  | loop => exact canonical_execLoop h
  | pset => exact canonical_execPset h
  | pand => exact canonical_execPand h
  | por => exact canonical_execPor h
  | pnot => exact canonical_execPnot h
  | rds => exact canonical_execRds h
  | wrs => exact canonical_execWrs h
  | ldg => exact canonical_execLdg h
  | stg => exact canonical_execStg h
  | amog => exact canonical_execAmog h
  | ldl => exact canonical_execLdl h
  | stl => exact canonical_execStl h
  | amol => exact canonical_execAmol h
  | stx => exact canonical_execStx h
  | amox => exact canonical_execAmox h
  | lda => exact canonical_execLda h
  | sta => exact canonical_execSta h
  | lds => exact canonical_execLds h
  | sts => exact canonical_execSts h
  | amos => exact canonical_execAmos h
  | ldh => exact canonical_execLdh h
  | sth => exact canonical_execSth h
  | cadd => exact canonical_execCadd h
  | cwait => exact canonical_execCwait h
  | cread => exact canonical_execCread h
  | fence => exact canonical_execFence h
  | arrive => exact canonical_execArrive h
  | wait => exact canonical_execWait h
  | arrwait => exact canonical_execArrwait h
  | gquery => exact canonical_execGquery h
  | patld => exact canonical_execPatld h
  | patset => exact canonical_execPatset h
  | patget => exact canonical_execPatget h
  | streamIn => exact canonical_execStreamIn h
  | streamOut => exact canonical_execStreamOut h
  | streamRec => exact canonical_execStreamRec h
  | streamConst => exact canonical_execStreamConst h
  | streamDrop => exact canonical_execStreamDrop h
  | streamInd => exact canonical_execStreamInd h
  | sbarRd => exact canonical_execSbarRd h
  | sbarWr => exact canonical_execSbarWr h
  | sbarAll => exact canonical_execSbarAll h
  | scond => exact canonical_execScond h
  | copy => exact canonical_execCopy h
  | mcopy => exact canonical_execMcopy h
  | rcopy => exact canonical_execRcopy h
  | stitch => exact canonical_execStitch h
  | qwait => exact canonical_execQwait h
  | qstat => exact canonical_execQstat h
  | spawn => exact canonical_execSpawn h
  | spawnn => exact canonical_execSpawnn h
  | launch => exact canonical_execLaunch h
  | cancel => exact canonical_execCancel h
  | yield => exact canonical_execYield h
  | exit => exact canonical_execExit h
  | scopeSet => exact canonical_execScopeSet h
  | scopeSplit => exact canonical_execScopeSplit h
  | chkc => exact canonical_execChkc h
  | squery => exact canonical_execSquery h
  | trap => exact canonical_execTrap h
  | tret => exact canonical_execTret h
  | tretN => exact canonical_execTretN h
  | prio => exact canonical_execPrio h
  | mtrd => exact canonical_execMtrd h
  | halt => exact canonical_execHalt h
  | nop => exact canonical_execNop h
  | blockMWs => exact canonical_execBlockMWs h
  | blockMOs => exact canonical_execBlockMOs h
  | blockE => exact canonical_execBlockE h
  | blockA => exact canonical_execBlockA h
  | blockS => exact canonical_execBlockS h
  | blockZ => exact canonical_execBlockZ h
  | blockG => exact canonical_execBlockG h
  | cfgld => exact canonical_execCfgld h
  | cfgsw => exact canonical_execCfgsw h
  | bdrain => exact canonical_execBdrain h
  | bstat => exact canonical_execBstat h
  | spine => exact canonical_execSpine h
  | accrd => exact canonical_execAccrd h
  | accclr => exact canonical_execAccclr h
  | fetchFault => exact canonical_execFetchFault h
  | deferredTrap => exact canonical_execDeferredTrap h
  | loadResultReturn => exact canonical_execLoadResultReturn h
  | ldhTimeout => exact canonical_execLdhTimeout h
  | contextWake => exact canonical_execContextWake h
  | taskBind => exact canonical_execTaskBind h
  | taskPublicationArrival => exact canonical_execTaskPublicationArrival h
  | dependenceCheck => exact canonical_execDependenceCheck h
  | copyStart => exact canonical_execCopyStart h
  | copyBeat => exact canonical_execCopyBeat h
  | transferRetire => exact canonical_execTransferRetire h
  | streamDispatch => exact canonical_execStreamDispatch h
  | streamBeat => exact canonical_execStreamBeat h
  | gatePass => exact canonical_execGatePass h
  | counterContributionFlit => exact canonical_execCounterContributionFlit h
  | blockRunStart => exact canonical_execBlockRunStart h
  | folioLoadComplete => exact canonical_execFolioLoadComplete h
  | switchSweepComplete => exact canonical_execSwitchSweepComplete h
  | blockBeat => exact canonical_execBlockBeat h
  | instanceComplete => exact canonical_execInstanceComplete h
  | scanOutComplete => exact canonical_execScanOutComplete h
  | elementCycle => exact canonical_execElementCycle h
  | memoryNodeComplete => exact canonical_execMemoryNodeComplete h
  | activeMessageArrival => exact canonical_execActiveMessageArrival h
  | networkCycle => exact canonical_execNetworkCycle h
  | ageTick => exact canonical_execAgeTick h
  | creditDraw => exact canonical_execCreditDraw h
  | creditReturn => exact canonical_execCreditReturn h
  | crossbarCrossing => exact canonical_execCrossbarCrossing h
  | remoteStoreApply => exact canonical_execRemoteStoreApply h
  | remoteAtomicApply => exact canonical_execRemoteAtomicApply h
  | acknowledgementReceipt => exact canonical_execAcknowledgementReceipt h
  | gatherFlitArrival => exact canonical_execGatherFlitArrival h
  | windowUpdateReceipt => exact canonical_execWindowUpdateReceipt h
  | streamEndReceipt => exact canonical_execStreamEndReceipt h
  | poisonFillTimeout => exact canonical_execPoisonFillTimeout h
  | drainTokenArrival => exact canonical_execDrainTokenArrival h
  | memoryAccessAtHome => exact canonical_execMemoryAccessAtHome h
  | barrierArrivalAtHome => exact canonical_execBarrierArrivalAtHome h
  | barrierReleaseArrival => exact canonical_execBarrierReleaseArrival h
  | cancelRegistration => exact canonical_execCancelRegistration h
  | taskKill => exact canonical_execTaskKill h
  | trapModeKillTimeout => exact canonical_execTrapModeKillTimeout h
  | cancelTileReport => exact canonical_execCancelTileReport h
  | cancelAckWrite => exact canonical_execCancelAckWrite h
  | preemptHoldRequest => exact canonical_execPreemptHoldRequest h
  | preemptSwitchRequest => exact canonical_execPreemptSwitchRequest h
  | resumeRequest => exact canonical_execResumeRequest h
  | stateSaveComplete => exact canonical_execStateSaveComplete h
  | restoreComplete => exact canonical_execRestoreComplete h
  | sliceExpiry => exact canonical_execSliceExpiry h
  | deadlinePreemption => exact canonical_execDeadlinePreemption h
  | launchWindowWrite => exact canonical_execLaunchWindowWrite h
  | partialWindowWrite => exact canonical_execPartialWindowWrite h
  | launchPacket => exact canonical_execLaunchPacket h
  | loaderPlacement => exact canonical_execLoaderPlacement h
  | launchEnd => exact canonical_execLaunchEnd h
  | mapRequestMap => exact canonical_execMapRequestMap h
  | mapRequestUnmap => exact canonical_execMapRequestUnmap h
  | mapRequestProtect => exact canonical_execMapRequestProtect h
  | mapRequestMigrate => exact canonical_execMapRequestMigrate h
  | mapRequestOrder => exact canonical_execMapRequestOrder h
  | invalidationComplete => exact canonical_execInvalidationComplete h
  | migrationSpliceBeat => exact canonical_execMigrationSpliceBeat h
  | migrationRedirect => exact canonical_execMigrationRedirect h
  | migrationDone => exact canonical_execMigrationDone h
  | ctrlSuspend => exact canonical_execCtrlSuspend h
  | ctrlResume => exact canonical_execCtrlResume h
  | routerStatusWrite => exact canonical_execRouterStatusWrite h
  | registerWrite => exact canonical_execRegisterWrite h
  | linkTransferWrite => exact canonical_execLinkTransferWrite h
  | linkTransferRead => exact canonical_execLinkTransferRead h
  | hostWriteTlp => exact canonical_execHostWriteTlp h
  | hostReadTlp => exact canonical_execHostReadTlp h
  | cxlReadReturn => exact canonical_execCxlReadReturn h
  | d2dFrameReceipt => exact canonical_execD2dFrameReceipt h
  | frameReplay => exact canonical_execFrameReplay h
  | linkDown => exact canonical_execLinkDown h
  | quoteExpiryCompletion => exact canonical_execQuoteExpiryCompletion h
  | flushMarkerReturn => exact canonical_execFlushMarkerReturn h
  | meterFold => exact canonical_execMeterFold h
  | submitConfiguration => exact canonical_execSubmitConfiguration h
  | submitSparing => exact canonical_execSubmitSparing h
  | submitSchedulingRecord => exact canonical_execSubmitSchedulingRecord h
  | partitionControl => exact canonical_execPartitionControl h
  | dieReset => exact canonical_execDieReset h
  | retrainLink => exact canonical_execRetrainLink h
  | readRouterStatus => exact canonical_execReadRouterStatus h
  | checkpoint => exact canonical_execCheckpoint h
  | readErrorLog => exact canonical_execReadErrorLog h
  | selfTest => exact canonical_execSelfTest h
  | hbmScrub => exact canonical_execHbmScrub h
  | powerOn => exact canonical_execPowerOn h
  | temperatureWarning => exact canonical_execTemperatureWarning h
  | temperatureShutdown => exact canonical_execTemperatureShutdown h
  | clockCycle => exact canonical_execClockCycle h
  | arrivalAnswer => exact canonical_execArrivalAnswer h
  | peerLinkTransfer => exact canonical_execPeerLinkTransfer h
  | zeroLengthReadCompletion => exact canonical_execZeroLengthReadCompletion h
  | getVersion => exact canonical_execGetVersion h
  | getCapabilities => exact canonical_execGetCapabilities h
  | negotiateAlgorithms => exact canonical_execNegotiateAlgorithms h
  | getDigests => exact canonical_execGetDigests h
  | getCertificate => exact canonical_execGetCertificate h
  | challenge => exact canonical_execChallenge h
  | getMeasurements => exact canonical_execGetMeasurements h
  | keyExchange => exact canonical_execKeyExchange h
  | finish => exact canonical_execFinish h
  | endSession => exact canonical_execEndSession h
  | getcolo => exact canonical_execGetcolo h
  | setcaps => exact canonical_execSetcaps h
  | getcaps => exact canonical_execGetcaps h

theorem canonical_issueSlot {s : State} (h : Memory.wf s = true) : Out.Canonical (issueSlot s) := by
  unfold issueSlot
  dsimp only
  split
  · exact Out.canonical_next h
  · split
    · exact canonical_exec h
    · split
      · exact canonical_exec h
      · split
        · exact canonical_exec h
        · exact Out.canonical_next h
        · exact Out.canonical_next (Memory.wf_trapNow _ _ _ (Memory.wf_issued h))
        · split
          · exact Out.canonical_next h
          · exact canonical_exec (Memory.wf_chargeIssue (Memory.wf_issued h))

theorem canonical_act {a : Act} {s : State} (h : Memory.wf s = true) : Out.Canonical (act a s) := fun u e => by
  obtain ⟨i, _, _, hi⟩ | ⟨t, c, _, _, ht⟩ := act_cases e
  · exact canonical_exec h u hi
  · exact canonical_issueSlot (Memory.wf_update h) u ht

theorem canonical_step {s : State} (h : Memory.wf s = true) : Out.Canonical (step s) := by
  cases ha : s.agenda with
  | nil => exact step_nil ha ▸ canonical_act h
  | cons a rest => exact step_cons ha ▸ canonical_act (Memory.wf_update h)

/-- Settles O41: no instruction and no hardware step leaves a byte store out of canonical form (`canonical_exec`), each for what its parts
change. -/
theorem everyStepKeepsTheMemoriesCanonical : Obligations.EveryStepKeepsTheMemoriesCanonical := by
  unfold Obligations.EveryStepKeepsTheMemoriesCanonical
  intro s s' h hstep
  exact canonical_step h s' hstep

end Sys2Proof.Machine
end

section
/-! A store at its home: what the memory edge does beside it changes no byte and makes no mirror, so the bytes written are the store's own
(R5, R131, R135). -/

namespace Sys2Proof.Machine

/-! Partitions whose pages have no mirror. -/

/-- No write is made a second time for a page of this partition that splices (R310). -/
def Partition.Unmirrored (q : Partition) : Prop := ∀ j, q.job = some j → ∀ pa, j.mirror q.leaves pa = none

theorem Partition.unmirrored_reset : Partition.reset.Unmirrored := fun _ e => nomatch e

/-- No write is made a second time. -/
def State.Unmirrored (s : State) : Prop := ∀ pa, s.mirrors pa = []

theorem State.unmirrored_iff {s : State} : s.Unmirrored ↔ ∀ e ∈ s.parts, e.2.Unmirrored := by
  simp only [State.Unmirrored, State.mirrors, List.filterMap_eq_nil_iff, Partition.Unmirrored]
  constructor
  · intro h e he j hj pa
    have hp := h pa e he
    rw [hj] at hp
    exact hp
  · intro h pa e he
    split
    · rename_i j hj
      exact h e he j hj pa
    · rfl

/-- An update that keeps a partition's job and leaves makes no mirror. -/
theorem State.unmirrored_modPart {s : State} {p : Nat} {f : Partition → Partition} (hj : ∀ q, (f q).job = q.job)
    (hl : ∀ q, (f q).leaves = q.leaves) (h : s.Unmirrored) : (s.modPart p f).Unmirrored := by
  rw [State.unmirrored_iff] at h ⊢
  refine all_mput (P := Partition.Unmirrored) h ?_
  have hp : (s.part p).Unmirrored := mget_of_all (P := Partition.Unmirrored) Partition.unmirrored_reset h p
  intro j e pa
  rw [hl]
  exact hp j (hj _ ▸ e) pa

/-! What changes no byte and makes no mirror. -/

/-- No byte differs from `s` to `u`, and no write of `u` is made a second time if none of `s` was. -/
def State.KeepsBytes (s u : State) : Prop := s.SameMemory u ∧ (s.Unmirrored → u.Unmirrored)

theorem State.KeepsBytes.refl (s : State) : s.KeepsBytes s := ⟨.refl s, id⟩

theorem State.KeepsBytes.trans {s t u : State} (h1 : s.KeepsBytes t) (h2 : t.KeepsBytes u) : s.KeepsBytes u :=
  ⟨h1.1.trans h2.1, h2.2 ∘ h1.2⟩

theorem State.KeepsBytes.ite {s x y : State} {c : Prop} [Decidable c] (hx : s.KeepsBytes x) (hy : s.KeepsBytes y) :
    s.KeepsBytes (if c then x else y) := by
  split
  · exact hx
  · exact hy

theorem State.KeepsBytes.modPart {s u : State} {p : Nat} {f : Partition → Partition} (h : s.KeepsBytes u) (hj : ∀ q, (f q).job = q.job)
    (hl : ∀ q, (f q).leaves = q.leaves) : s.KeepsBytes (u.modPart p f) :=
  h.trans ⟨.modPart u p f, State.unmirrored_modPart hj hl⟩

theorem State.KeepsBytes.modDie {s u : State} {d : Nat} {f : Die → Die} (h : s.KeepsBytes u) (hf : ∀ x, (f x).staging = x.staging) :
    s.KeepsBytes (u.modDie d f) :=
  h.trans ⟨.modDie u d f hf, id⟩

theorem State.KeepsBytes.modCtx {s u : State} {t c : Nat} {f : Ctx → Ctx} (h : s.KeepsBytes u) : s.KeepsBytes (u.modCtx t c f) :=
  h.trans ⟨.modCtx u t c f, id⟩

theorem State.KeepsBytes.nextFree {s u : State} (h : s.KeepsBytes u) : s.KeepsBytes { u with free := u.free + 1 } :=
  h.trans ⟨fun g => by cases g <;> rfl, id⟩

theorem State.KeepsBytes.modLink {s u : State} {k : Nat} {f : Link → Link} (h : s.KeepsBytes u) : s.KeepsBytes (u.modLink k f) :=
  h.trans ⟨fun g => by cases g <;> rfl, id⟩

theorem State.KeepsBytes.meter {s u : State} {p m n : Nat} (h : s.KeepsBytes u) : s.KeepsBytes (u.meter p m n) :=
  h.modPart (fun _ => rfl) fun _ => rfl

theorem State.KeepsBytes.meterDev {s u : State} {p n : Nat} {g : Home} {wr : Bool} (h : s.KeepsBytes u) : s.KeepsBytes (u.meterDev p g n wr) := by
  unfold State.meterDev
  split
  · exact .ite (h.modPart (fun _ => rfl) fun _ => rfl) h
  · exact h

theorem State.KeepsBytes.delivered {s u : State} {a b : Nat} (h : s.KeepsBytes u) : s.KeepsBytes (u.delivered a b) := by
  unfold State.delivered
  split
  · exact h
  · exact .ite h h.modLink

theorem State.KeepsBytes.message {s u : State} {p a b k : Nat} (h : s.KeepsBytes u) : s.KeepsBytes (u.message p a b k) := by
  refine .ite h (State.KeepsBytes.meter ?_).meter
  exact List.foldlRecOn (motive := fun x : State × Nat => s.KeepsBytes x.1) _ _ h fun _ hx _ _ => hx.delivered.modDie fun _ => rfl

theorem State.KeepsBytes.roundTrip {s u : State} {p die n : Nat} {g : Home} {rd wr : Bool} (h : s.KeepsBytes u) :
    s.KeepsBytes (u.roundTrip p die g n rd wr) :=
  .ite h.message.message h.message

theorem State.KeepsBytes.fillCache {s u : State} {die p va : Nat} {rd wr : Bool} (h : s.KeepsBytes u) :
    s.KeepsBytes (u.fillCache die p va rd wr) := by
  refine .ite h ?_
  split
  · exact h
  · exact h.modDie fun _ => rfl

/-- What the memory edge does about an access that does not read, at a home that is not lost. -/
theorem State.KeepsBytes.edgeTouch {s u : State} {v : Via} {p space va n : Nat} {g : Home} {wr : Bool} (h : s.KeepsBytes u)
    (hg : g.isLost = false) : s.KeepsBytes (u.edgeTouch v p space va n g false wr) := by
  have hf : s.KeepsBytes (if space = 0 then u.fillCache v.die p va false wr else u) := .ite h.fillCache h
  unfold State.edgeTouch
  cases g with
  | lost pa => cases hg
  | dev pa => exact .ite hf.roundTrip.nextFree hf.roundTrip
  | host q iova => exact hf.roundTrip
  | tile t off => exact hf
  | acc t off => exact hf
  | staging d off => exact hf

/-! Written bytes. -/

theorem State.Wrote.of_keeps {s u w : State} {h : Home} {n v : Nat} (hs : s.KeepsBytes u) (hw : u.Wrote w h n v) : s.Wrote w h n v :=
  ⟨fun k => (hw.1 k).trans (by rw [hs.1]), fun g hg => (hw.2 g hg).trans (hs.1 g)⟩

theorem State.Wrote.sameMemory {s u w : State} {h : Home} {n v : Nat} (hw : s.Wrote u h n v) (hs : u.SameMemory w) : s.Wrote w h n v :=
  ⟨fun k => (hs _).trans (hw.1 k), fun g hg => (hs g).trans (hw.2 g hg)⟩

theorem Home.at_off (g : Home) : g.at g.off = g := by cases g <;> rfl

theorem Home.at_congr {g h : Home} (e : g.at 0 = h.at 0) (k : Nat) : g.at k = h.at k := by
  cases g <;> cases h <;> cases e <;> rfl

theorem Home.isLost_plus (h : Home) (k : Nat) : (h.plus k).isLost = h.isLost := by cases h <;> rfl

theorem Home.isAcc_plus (h : Home) (k : Nat) : (h.plus k).isAcc = h.isAcc := by cases h <;> rfl

/-- Byte k of the value of a list of bytes is its byte k. -/
theorem byteOf_ofBytes (l : List Byte) (k : Nat) (hk : k < l.length) : byteOf (ofBytes l) k = l[k].toNat := by
  induction l generalizing k with
  | nil => exact absurd hk (Nat.not_lt_zero k)
  | cons b t ih =>
    have hb := b.isLt
    cases k with
    | zero => simp only [byteOf, ofBytes, List.getElem_cons_zero, Nat.pow_zero, Nat.div_one]; omega
    | succ k =>
      have hd : (b.toNat + 256 * ofBytes t) / 256 = ofBytes t := by omega
      have hs : byteOf (ofBytes (b :: t)) (k + 1) = byteOf (ofBytes t) k := by
        simp only [byteOf, ofBytes, Nat.pow_succ, Nat.mul_comm (256 ^ k), ← Nat.div_div_eq_div_mul, hd]
      exact hs.trans (ih k (Nat.lt_of_succ_lt_succ hk))

theorem Store.byteOf_read (m : Store) (a : Nat) {n k : Nat} (hk : k < n) : byteOf (m.read a n) k = m.read (a + k) 1 := by
  have hl : k < (readBytes m.bytes a n).length := by simpa [readBytes] using hk
  rw [Store.read, byteOf_ofBytes _ _ hl, Store.read_one]
  simp only [readBytes, List.getElem_map, List.getElem_range]

theorem State.readHome_at (s : State) (h : Home) (k n : Nat) : s.readHome (h.at k) n = (s.homeStore h).1.read k n := by cases h <;> rfl

theorem State.readHome_off (s : State) (h : Home) (n : Nat) : s.readHome h n = (s.homeStore h).1.read h.off n := by cases h <;> rfl

/-- Bytes written again as they were change nothing. -/
theorem State.Wrote.sameMemory_of_read {s u : State} {h : Home} {n : Nat} (hw : s.Wrote u h n (s.readHome h n)) : s.SameMemory u := by
  intro g
  by_cases e : g.at 0 = h.at 0
  · have hg : g = h.at g.off := by rw [← Home.at_congr e, Home.at_off]
    rw [hg, hw.1]
    split
    · rename_i hk
      rw [State.readHome_off, Store.byteOf_read _ _ (by omega), State.readHome_at]
      congr 1
      omega
    · rfl
  · exact hw.2 g e

/-- The part of an access that is performed now is one that has not been. -/
theorem Access.partNow_spec {a : Access} {f : Nat} (h : ∃ k, k < a.parts ∧ mfind k a.got = none) :
    a.partNow f < a.parts ∧ mfind (a.partNow f) a.got = none := by
  obtain ⟨k, hk, hn⟩ := h
  have hmem : ∀ j, j ∈ (List.range a.parts).filter (fun k => (mfind k a.got).isNone) ↔ j < a.parts ∧ mfind j a.got = none := fun j => by simp
  have hpos := List.length_pos_of_mem ((hmem k).2 ⟨hk, hn⟩)
  refine (hmem _).1 ?_
  unfold Access.partNow
  dsimp only
  rw [List.getD_eq_getElem _ _ (Nat.mod_lt _ hpos)]
  exact List.getElem_mem _

theorem State.unmirrored_writeHome {s : State} {h : Home} {n v : Nat} (hu : s.Unmirrored) : (s.writeHome h n v).Unmirrored := by
  cases h <;> exact hu

theorem State.keeps_doStore {s : State} {p : Nat} {h : Home} {n v : Nat} : (s.writeHome h n v).KeepsBytes (s.doStore p h n v) := by
  have hm : (s.writeHome h n v).KeepsBytes ((s.writeHome h n v).meterDev p h n true) := (State.KeepsBytes.refl _).meterDev
  cases h with
  | host q iova => exact hm.meter
  | dev pa => exact hm
  | tile t off => exact hm
  | acc t off => exact hm
  | staging d off => exact hm
  | lost pa => exact hm

/-- A home that a write reaches with every byte and nowhere else. -/
def State.Plain (s : State) (h : Home) : Prop := h.isAcc = false ∧ h.isLost = false ∧ (∀ pa, h = .dev pa → s.Unmirrored)

theorem State.Plain.wrote {s : State} {h : Home} (hp : s.Plain h) (n v : Nat) : s.Wrote (s.writeHome h n v) h n v :=
  State.wrote_writeHome n v hp.1 hp.2.1 fun pa e _ _ => hp.2.2 pa e _

theorem State.Plain.of_unmirrored {s u : State} {h : Home} (hp : s.Plain h) (hu : s.Unmirrored → u.Unmirrored) : u.Plain h :=
  ⟨hp.1, hp.2.1, fun pa e => hu (hp.2.2 pa e)⟩

theorem State.Plain.plus {s : State} {h : Home} (hp : s.Plain h) (k : Nat) : s.Plain (h.plus k) := by
  obtain ⟨hacc, hlost, hm⟩ := hp
  refine ⟨(Home.isAcc_plus h k).trans hacc, (Home.isLost_plus h k).trans hlost, fun pa e => ?_⟩
  cases h with
  | dev a => exact hm a rfl
  | _ => cases e

theorem State.Plain.wrote_doStore {s : State} {h : Home} (hp : s.Plain h) (p n v : Nat) : s.Wrote (s.doStore p h n v) h n v :=
  (hp.wrote n v).sameMemory State.keeps_doStore.1

/-- One half of a .b128 store, the last one with the write that clears the poison of a unit written in full. -/
theorem State.Plain.wrote_storePart {s : State} {h : Home} (hp : s.Plain h) (p : Nat) (a : Access) :
    s.Wrote (s.storePart p h a).1 (h.plus (8 * a.partNow s.free)) 8 (a.data / 2 ^ (64 * a.partNow s.free) % 2 ^ 64) := by
  have hb : bits a.data (64 * a.partNow s.free + 63) (64 * a.partNow s.free) = a.data / 2 ^ (64 * a.partNow s.free) % 2 ^ 64 := by
    unfold bits
    congr 2
    omega
  have hw := (hp.plus (8 * a.partNow s.free)).wrote_doStore p 8 (bits a.data (64 * a.partNow s.free + 63) (64 * a.partNow s.free))
  have hhalf : (s.doStore p (h.plus (8 * a.partNow s.free)) 8 (bits a.data (64 * a.partNow s.free + 63) (64 * a.partNow s.free))).Plain h :=
    hp.of_unmirrored fun hu => State.keeps_doStore.2 (State.unmirrored_writeHome hu)
  rw [← hb]
  unfold State.storePart
  dsimp only
  split
  · exact hw.sameMemory (hhalf.wrote 16 _).sameMemory_of_read
  · exact hw.sameMemory (State.KeepsBytes.refl _).nextFree.1

/-! The access of a store. -/

theorem execMemoryAccessAtHome_store {s : State} {t c id : Nat} {err : Bool} {a : Access} {h : Home}
    (hf : (s.ctx t c).outs.find? (fun b => b.id == id) = some a) (hk : a.kind = .store) (hspace : a.space ≠ 2) (hh : a.home = some h)
    (hst : a.st = .issued) (hmay : (s.ctx t c).mayPerform a = true) (hq : s.quarterBusy t a = false) (hlost : h.isLost = false) :
    exec (.memoryAccessAtHome t c id err) s
      = .next (((s.atEdgeOf t a).performAt t a).1.putAccess t c ((s.atEdgeOf t a).performAt t a).2) := by
  have hread : a.reads = false := by simp [Access.reads, hk]
  have hfence : a.isFence = false := by simp [Access.isFence, hk]
  have hforeign : s.foreignAccess t a = false := by
    simp only [State.foreignAccess, State.homeOf, hh]
    cases h with
    | lost pa => cases hlost
    | _ => rfl
  show execMemoryAccessAtHome t c id err s = _
  simp [execMemoryAccessAtHome, hf, hst, hfence, hk, hspace, hmay, hq, hread, hforeign]

theorem State.keeps_atEdgeOf_store {s : State} {t : Nat} {a : Access} {h : Home} (hk : a.kind = .store) (hh : a.home = some h)
    (hlost : h.isLost = false) : s.KeepsBytes (s.atEdgeOf t a) := by
  have hread : a.reads = false := by simp [Access.reads, hk]
  simp only [State.atEdgeOf, State.homeOf, hh, hread]
  exact (State.KeepsBytes.refl s).edgeTouch hlost

theorem State.performAt_store {s : State} {t : Nat} {a : Access} {h : Home} (hk : a.kind = .store) (hh : a.home = some h) (hw : a.wop ≠ .b128) :
    (s.performAt t a).1 = s.doStore (s.partId t) h a.size a.data := by
  simp [State.performAt, hk, hh, hw]

theorem State.performAt_store_b128 {s : State} {t : Nat} {a : Access} {h : Home} (hk : a.kind = .store) (hh : a.home = some h)
    (hw : a.wop = .b128) : s.performAt t a = s.storePart (s.partId t) h a := by
  simp [State.performAt, hk, hh, hw]

/-- Settles O18: the memory edge changes no byte before the store, and the access's end none after it. -/
theorem storesWriteTheirBytesAndNoOther : Obligations.StoresWriteTheirBytesAndNoOther := by
  unfold Obligations.StoresWriteTheirBytesAndNoOther
  intro s t c id err a h hf hk hspace hh hst hmay hq hacc hlost hm
  have he := execMemoryAccessAtHome_store (err := err) hf hk hspace hh hst hmay hq hlost
  have hedge : s.KeepsBytes (s.atEdgeOf t a) := State.keeps_atEdgeOf_store hk hh hlost
  have hplain : (s.atEdgeOf t a).Plain h := State.Plain.of_unmirrored ⟨hacc, hlost, hm⟩ hedge.2
  refine ⟨fun hw => ⟨_, he, ?_⟩, fun hw hleft => ?_⟩
  · refine State.Wrote.sameMemory ?_ (State.SameMemory.modCtx _ t c _)
    rw [State.performAt_store hk hh hw]
    exact .of_keeps hedge (hplain.wrote_doStore _ _ _)
  · have hparts : a.parts = 2 := by simp [Access.parts, hk, hw]
    obtain ⟨hlt, hnone⟩ := Access.partNow_spec (f := (s.atEdgeOf t a).free) (hparts ▸ hleft)
    refine ⟨_, _, hparts ▸ hlt, hnone, he, State.Wrote.sameMemory ?_ (State.SameMemory.modCtx _ t c _)⟩
    rw [State.performAt_store_b128 hk hh hw]
    exact .of_keeps hedge (hplain.wrote_storePart _ a)

end Sys2Proof.Machine
end

section
/-! What an instruction that writes registers leaves alone (R13, R23, R122): the frame of an update of the issuing context, said once and
composed along the updates an instruction makes; and the scalar instructions that are such updates. -/

namespace Sys2Proof.Machine

/-! Who a tile belongs to, and what its special registers read, under an update of the issuing context. -/

@[simp] theorem State.occupant_modCtx (s : State) (t c u : Nat) (f : Ctx → Ctx) : (s.modCtx t c f).occupant u = s.occupant u := by
  simp [State.occupant, State.launch]

@[simp] theorem State.partId_modCtx (s : State) (t c u : Nat) (f : Ctx → Ctx) : (s.modCtx t c f).partId u = s.partId u := by
  simp [State.partId]

@[simp] theorem State.partId_modMe (s : State) (f : Ctx → Ctx) (u : Nat) : (s.modMe f).partId u = s.partId u := s.partId_modCtx ..

@[simp] theorem State.myPart_modMe (s : State) (f : Ctx → Ctx) : (s.modMe f).myPart = s.myPart := s.partId_modCtx ..

@[simp] theorem State.trapBaseOf_modMe (s : State) (f : Ctx → Ctx) (t c : Nat) : (s.modMe f).trapBaseOf t c = s.trapBaseOf t c := by
  simp only [State.trapBaseOf, State.wrOld_tile_modMe, State.trapBase_tile_modMe]
  rfl

@[simp] theorem State.budgetOf_modMe (s : State) (f : Ctx → Ctx) (t c : Nat) : (s.modMe f).budgetOf t c = s.budgetOf t c := by
  simp only [State.budgetOf, State.wrOld_tile_modMe, State.budget_tile_modMe]
  rfl

@[simp] theorem State.budgetUse_myTile_modMe (s : State) (f : Ctx → Ctx) : (s.modMe f).myTile.budgetUse = s.myTile.budgetUse := by
  simp [Tile.budgetUse]

@[simp] theorem State.throttle_modMe (s : State) (f : Ctx → Ctx) (t : Nat) : (s.modMe f).throttle t = s.throttle t := by
  simp [State.throttle, State.throttled, State.credit, State.part, State.die]

/-- A special register reads as before when the parts of the state that all of them read are as before, and its own part. -/
theorem State.special_congr {s u : State} {k : Nat} (hcur : u.cur = s.cur) (hd : u.dies = s.dies) (hp : u.myPart = s.myPart)
    (hth : u.throttle s.cur.1 = s.throttle s.cur.1) (hvt : u.myTile.vtile = s.myTile.vtile) (hvd : u.myTile.vdie = s.myTile.vdie)
    (hgrp : u.myTile.grp = s.myTile.grp) (huse : u.myTile.budgetUse = s.myTile.budgetUse) (hsc : u.me.scope = s.me.scope)
    (hpr : u.me.prio = s.me.prio) (h7 : k = 0x07 → u.trapBaseOf s.cur.1 s.cur.2 = s.trapBaseOf s.cur.1 s.cur.2)
    (h8 : k = 0x08 → u.me.trapPc = s.me.trapPc) (h9 : k = 0x09 → u.me.trapCause = s.me.trapCause)
    (hA : k = 0x0A → u.me.trapAddr = s.me.trapAddr) (hB : k = 0x0B → u.me.trapAux = s.me.trapAux)
    (hC : k = 0x0C → u.me.quoteLim = s.me.quoteLim) (hD : k = 0x0D → u.budgetOf s.cur.1 s.cur.2 = s.budgetOf s.cur.1 s.cur.2)
    (h12 : k = 0x12 → u.me.regs.fmode = s.me.regs.fmode) (h13 : k = 0x13 → u.me.regs.lssum = s.me.regs.lssum) :
    u.special k = s.special k := by
  simp only [State.special, hcur, hp, hth, hvt, hvd, hgrp, huse, hsc, hpr, State.die, hd]
  split
  case h_8 => rw [h7 rfl]
  case h_9 => rw [h8 rfl]
  case h_10 => rw [h9 rfl]
  case h_11 => rw [hA rfl]
  case h_12 => rw [hB rfl]
  case h_13 => rw [hC rfl]
  case h_14 => rw [hD rfl]
  case h_19 => rw [h12 rfl]
  case h_20 => rw [h13 rfl]
  all_goals rfl

/-- The same for an update of the issuing context. -/
theorem State.special_modMe {s : State} {f : Ctx → Ctx} {k : Nat} (hsc : (f s.me).scope = s.me.scope) (hpr : (f s.me).prio = s.me.prio)
    (h8 : k = 0x08 → (f s.me).trapPc = s.me.trapPc) (h9 : k = 0x09 → (f s.me).trapCause = s.me.trapCause)
    (hA : k = 0x0A → (f s.me).trapAddr = s.me.trapAddr) (hB : k = 0x0B → (f s.me).trapAux = s.me.trapAux)
    (hC : k = 0x0C → (f s.me).quoteLim = s.me.quoteLim) (h12 : k = 0x12 → (f s.me).regs.fmode = s.me.regs.fmode)
    (h13 : k = 0x13 → (f s.me).regs.lssum = s.me.regs.lssum) : (s.modMe f).special k = s.special k := by
  refine State.special_congr rfl rfl (by simp) (by simp) (by simp) (by simp) (by simp) (by simp) ?_ ?_ (fun _ => by simp) ?_ ?_ ?_ ?_ ?_
    (fun _ => by simp) ?_ ?_
  all_goals rw [State.me_modMe]
  all_goals assumption

/-- The special registers read as before when the context keeps all that is none of its registers, and of these LSSUM, and FMODE too unless it
is set apart. -/
theorem State.sameSpecials_modMe (s : State) {f : Ctx → Ctx} {fm : Bool}
    (hrest : f s.me = { s.me with regs := (f s.me).regs, fflight := (f s.me).fflight })
    (hls : (f s.me).regs.lssum = s.me.regs.lssum) (hfm : fm = false → (f s.me).regs.fmode = s.me.regs.fmode) :
    s.SameSpecials (s.modMe f) fm := by
  intro n hn
  have h12 : n = 0x12 → (f s.me).regs.fmode = s.me.regs.fmode := fun h => by
    cases fm
    · exact hfm rfl
    · exact absurd h (hn rfl)
  exact State.special_modMe (by rw [hrest]; rfl) (by rw [hrest]) (fun _ => by rw [hrest]) (fun _ => by rw [hrest]) (fun _ => by rw [hrest])
    (fun _ => by rw [hrest]) (fun _ => by rw [hrest]) h12 fun _ => hls

/-! Frames. -/

/-- An update of the issuing context's registers is framed by the registers it writes. -/
theorem State.frame_modMe (s : State) {f : Ctx → Ctx} {x g b p : Nat → Prop} {fm : Bool}
    (hrest : f s.me = { s.me with regs := (f s.me).regs, fflight := if fm then (f s.me).fflight else s.me.fflight })
    (hx : ∀ r, ¬ x r → (f s.me).getX r = s.me.getX r) (hg : ∀ r, ¬ g r → (f s.me).getF r = s.me.getF r)
    (hb : ∀ r, ¬ b r → (f s.me).getB r = s.me.getB r) (hp : ∀ r, ¬ p r → (f s.me).getP r = s.me.getP r)
    (hfm : fm = false → (f s.me).regs.fmode = s.me.regs.fmode) (hls : (f s.me).regs.lssum = s.me.regs.lssum)
    (hw : (f s.me).regs.spineWin = s.me.regs.spineWin) (ha : (f s.me).regs.spineAcc = s.me.regs.spineAcc) :
    s.Frame (s.modMe f) x g b p fm where
  only := by
    show s.modMe f = s.modMe fun _ => (s.modMe f).me
    rw [State.me_modMe]
    rfl
  rest := by rw [State.me_modMe]; exact hrest
  memory := State.SameMemory.modMe s f
  x r h := by simp only [State.getX, State.me_modMe, hx r h]
  f r h := by simp only [State.getF, State.me_modMe, hg r h]
  b r h := by simp only [State.getB, State.me_modMe, hb r h]
  p r h := by simp only [State.getP, State.me_modMe, hp r h]
  specials := by
    refine s.sameSpecials_modMe ?_ hls hfm
    cases fm
    · exact hrest.trans (by rw [hrest]; rfl)
    · exact hrest
  spine := by rw [State.me_modMe]; exact ⟨hw, ha⟩

theorem State.Frame.trans {s t u : State} {x f b p : Nat → Prop} {fm : Bool} (h : s.Frame t x f b p fm) (k : t.Frame u x f b p fm) :
    s.Frame u x f b p fm where
  only := by
    have h1 := h.only
    have h2 := k.only
    unfold State.OnlyMe at h1 h2 ⊢
    calc u = t.modMe fun _ => u.me := h2
      _ = (s.modMe fun _ => t.me).modMe fun _ => u.me := congrArg (fun z => State.modMe z fun _ => u.me) h1
      _ = s.modMe fun _ => u.me := State.modMe_modMe ..
  rest := by
    rw [k.rest, h.rest]
    cases fm <;> rfl
  memory := h.memory.trans k.memory
  x r hr := (k.x r hr).trans (h.x r hr)
  f r hr := (k.f r hr).trans (h.f r hr)
  b r hr := (k.b r hr).trans (h.b r hr)
  p r hr := (k.p r hr).trans (h.p r hr)
  specials n hn := (k.specials n hn).trans (h.specials n hn)
  spine := ⟨k.spine.1.trans h.spine.1, k.spine.2.trans h.spine.2⟩

section
variable {s : State} {x f b p : Nat → Prop} {fm : Bool}

theorem State.frame_setX {d : Nat} (v : Word) (hd : x d) : s.Frame (s.setX d v) x f b p fm :=
  s.frame_modMe (by unfold Ctx.setX; split <;> cases fm <;> rfl) (fun r hr => Ctx.getX_setX_ne _ (fun e => hr (by rwa [e])) _)
    (fun _ _ => by simp) (fun _ _ => by simp) (fun _ _ => by simp) (fun _ => by simp) (by simp) (by simp) (by simp)

theorem State.frame_setF {d : Nat} (v : Word) (hd : f d) : s.Frame (s.setF d v) x f b p fm :=
  s.frame_modMe (by cases fm <;> rfl) (fun _ _ => by simp) (fun r hr => Ctx.getF_setF_ne _ (fun e => hr (by rwa [e])) _)
    (fun _ _ => by simp) (fun _ _ => by simp) (fun _ => by simp) (by simp) (by simp) (by simp)

theorem State.frame_setB {d : Nat} (v : Bool) (hd : b d) : s.Frame (s.setB d v) x f b p fm :=
  s.frame_modMe (by unfold Ctx.setB; split <;> cases fm <;> rfl) (fun _ _ => by simp) (fun _ _ => by simp)
    (fun r hr => Ctx.getB_setB_ne _ (fun e => hr (by rwa [e])) _) (fun _ _ => by simp) (fun _ => by simp) (by simp) (by simp) (by simp)

theorem State.frame_setPc (v : Word) : s.Frame (s.setPc v) x f b p fm :=
  s.frame_modMe (by cases fm <;> rfl) (fun _ _ => by simp) (fun _ _ => by simp) (fun _ _ => by simp) (fun _ _ => by simp) (fun _ => by simp)
    (by simp) (by simp) (by simp)

theorem State.frame_advance : s.Frame s.advance x f b p fm := State.frame_setPc _

theorem State.frame_setFlags (e : Exc) (lat : Nat) : s.Frame (s.setFlags e lat) x f b p true :=
  s.frame_modMe rfl (fun _ _ => rfl) (fun _ _ => rfl) (fun _ _ => rfl) (fun _ _ => rfl) (fun h => nomatch h) rfl rfl rfl

end

/-! Instructions whose destination is one x register (R13). -/

/-- An instruction of `xDest` writes a value into its x register and moves on. -/
theorem exec_of_xDest {i : Instr} {d : Nat} (s : State) (h : xDest i = some d) : ∃ v, exec i s = .next ((s.setX d v).advance) := by
  cases i <;> cases h <;> exact ⟨_, rfl⟩

/-- Settles O3: such an instruction is a write of x[d] and a move of the pc, each framed. -/
theorem xRegisterInstructionsChangeOnlyTheirDestination : Obligations.XRegisterInstructionsChangeOnlyTheirDestination := by
  unfold Obligations.XRegisterInstructionsChangeOnlyTheirDestination
  intro i d s t hd ht
  obtain ⟨v, hv⟩ := exec_of_xDest s hd
  obtain rfl : (s.setX d v).advance = t := Host.Outcome.next.inj (hv.symm.trans ht)
  exact ⟨(State.frame_setX (x := (· = d)) v rfl).trans State.frame_advance, by simp⟩

/-- Settles O9. -/
theorem rdsReadsTheRegisterInItsWidth : Obligations.RdsReadsTheRegisterInItsWidth := by
  unfold Obligations.RdsReadsTheRegisterInItsWidth
  exact fun _ _ _ => rfl

/-! Float instructions and their flags (R23, R122). -/

@[simp] theorem State.getX_setFlags (s : State) (e : Exc) (lat r : Nat) : (s.setFlags e lat).getX r = s.getX r := by
  simp [State.setFlags, State.getX, Ctx.getX]
@[simp] theorem State.getF_setFlags (s : State) (e : Exc) (lat r : Nat) : (s.setFlags e lat).getF r = s.getF r := by
  simp [State.setFlags, State.getF, Ctx.getF]
@[simp] theorem State.pc_setFlags (s : State) (e : Exc) (lat : Nat) : (s.setFlags e lat).pc = s.pc := by simp [State.setFlags, State.pc]
@[simp] theorem State.fmode_setFlags (s : State) (e : Exc) (lat : Nat) : (s.setFlags e lat).me.regs.fmode = orFmode s.me.regs.fmode e := by
  simp [State.setFlags]
@[simp] theorem State.fmode_advance (s : State) : s.advance.me.regs.fmode = s.me.regs.fmode := by simp [State.advance, State.setPc]
@[simp] theorem State.fmode_setX (s : State) (d : Nat) (v : Word) : (s.setX d v).me.regs.fmode = s.me.regs.fmode := by simp [State.setX]
@[simp] theorem State.fmode_setF (s : State) (d : Nat) (v : Word) : (s.setF d v).me.regs.fmode = s.me.regs.fmode := by simp [State.setF]

/-- A float instruction with a float destination writes it, ORs flags into FMODE and moves on. -/
theorem exec_of_fDest {i : Instr} {d : Nat} (s : State) (h : fDest i = some d) :
    ∃ v e lat, exec i s = .next (((s.setF d v).setFlags e lat).advance) := by
  cases i with
  | fcvt c rm d' a =>
    cases hc : c.dstX with
    | true => simp [fDest, hc] at h
    | false =>
      obtain rfl : d' = d := by simpa [fDest, hc] using h
      exact ⟨_, _, _, by rw [exec_fcvt]; simp only [execFcvt, hc]; rfl⟩
  | _ => cases h <;> exact ⟨_, _, _, rfl⟩

/-- A float instruction with an x register as its destination does the same. -/
theorem exec_of_fxDest {i : Instr} {d : Nat} (s : State) (h : fxDest i = some d) :
    ∃ v e lat, exec i s = .next (((s.setX d v).setFlags e lat).advance) := by
  cases i with
  | fcvt c rm d' a =>
    cases hc : c.dstX with
    | false => simp [fxDest, hc] at h
    | true =>
      obtain rfl : d' = d := by simpa [fxDest, hc] using h
      exact ⟨_, _, _, by rw [exec_fcvt]; simp only [execFcvt, hc]; rfl⟩
  | _ => cases h <;> exact ⟨_, _, _, rfl⟩

/-- The flags lie above the rounding mode and the reserved bits. -/
theorem Exc.mask_low (e : Exc) : BitVec.ofNat 9 e.mask &&& 0xF = 0 := by
  have hm : e.mask % 16 = 0 := by unfold Exc.mask; omega
  apply BitVec.eq_of_toNat_eq
  rw [BitVec.toNat_and, BitVec.toNat_ofNat, show (0xF : BitVec 9).toNat = 2 ^ 4 - 1 from rfl, Nat.and_two_pow_sub_one_eq_mod]
  show e.mask % 2 ^ 9 % 2 ^ 4 = 0
  omega

/-- Flags are only added (R23, R122). -/
theorem orFmode_sticky (m : BitVec 9) (e : Exc) : m &&& orFmode m e = m ∧ orFmode m e &&& 0xF = m &&& 0xF := by
  constructor
  · ext k hk
    cases hm : m[k] <;> simp [orFmode, hm]
  · have h := e.mask_low
    ext k hk
    have hb := congrArg (fun v : BitVec 9 => v.getLsbD k) h
    simp only [orFmode, BitVec.getElem_and, BitVec.getElem_or]
    simp only [BitVec.getLsbD_eq_getElem hk] at hb
    cases hm : m[k]
    · simpa using hb
    · rfl

/-- Settles O5: a float instruction is a framed write of its destination, a framed OR into FMODE, and a move of the pc. -/
theorem floatFlagsAreStickyAndNothingElseChanges : Obligations.FloatFlagsAreStickyAndNothingElseChanges := by
  unfold Obligations.FloatFlagsAreStickyAndNothingElseChanges
  intro i d s t ht
  have hf : fDest i = some d → ∃ v e lat, t = ((s.setF d v).setFlags e lat).advance := fun h => by
    obtain ⟨v, e, lat, hv⟩ := exec_of_fDest s h
    exact ⟨v, e, lat, Host.Outcome.next.inj (ht.symm.trans hv)⟩
  have hx : fxDest i = some d → ∃ v e lat, t = ((s.setX d v).setFlags e lat).advance := fun h => by
    obtain ⟨v, e, lat, hv⟩ := exec_of_fxDest s h
    exact ⟨v, e, lat, Host.Outcome.next.inj (ht.symm.trans hv)⟩
  refine ⟨fun h => ?_, fun h => ?_, fun h => ?_⟩
  · obtain ⟨v, e, lat, rfl⟩ := hf h
    exact ⟨((State.frame_setF (f := (· = d)) v rfl).trans (State.frame_setFlags e lat)).trans State.frame_advance, by simp⟩
  · obtain ⟨v, e, lat, rfl⟩ := hx h
    exact ⟨((State.frame_setX (x := (· = d)) v rfl).trans (State.frame_setFlags e lat)).trans State.frame_advance, by simp⟩
  · rcases h with h | h
    · obtain ⟨v, e, lat, rfl⟩ := hf h
      simpa using orFmode_sticky s.me.regs.fmode e
    · obtain ⟨v, e, lat, rfl⟩ := hx h
      simpa using orFmode_sticky s.me.regs.fmode e

end Sys2Proof.Machine
end

section
/-! Branches, calls, LOOP and the predicate instructions (R13, R83, R123, R126). -/

namespace Sys2Proof.Machine

/-! Integers of the pseudocode as bit vectors (R8). -/

theorem sext_eq_toInt (v n : Nat) (hn : 0 < n) : sext v n = (BitVec.ofNat n v).toInt := by
  obtain ⟨k, rfl⟩ : ∃ k, n = k + 1 := ⟨n - 1, by omega⟩
  have h : 2 ^ (k + 1) = 2 * 2 ^ k := Nat.pow_succ'
  simp only [sext, BitVec.toInt_eq_toNat_cond, BitVec.toNat_ofNat, Nat.add_sub_cancel]
  by_cases hlt : v % 2 ^ (k + 1) < 2 ^ k
  · rw [if_pos hlt, if_pos (by omega)]
  · rw [if_neg hlt, if_neg (by omega)]
    push_cast
    ring

theorem ofNat_wrap (v : Int) : BitVec.ofNat 64 (wrap v 64) = BitVec.ofInt 64 v := by
  apply BitVec.eq_of_toNat_eq
  simp only [wrap, BitVec.toNat_ofNat, BitVec.toNat_ofInt]
  omega

theorem immWord_toInt (w : Nat) : (immWord w).toInt = sext w 32 := by
  rw [sext_eq_toInt w 32 (by decide), immWord, BitVec.toInt_signExtend_of_le (by decide)]

/-- The target of the pseudocode is the sum of words (R82, R123). -/
theorem State.target_eq (s : State) (w : Nat) : s.target w = s.branchTo w := by
  have h : immWord w <<< 3 = 8 * immWord w := by
    rw [BitVec.shiftLeft_eq_mul_twoPow, BitVec.mul_comm]
    rfl
  rw [State.target, State.branchTo, ofNat_wrap, h, ← immWord_toInt, BitVec.ofInt_add, BitVec.ofInt_mul, BitVec.ofInt_toInt, BitVec.ofInt_natCast,
    BitVec.ofNat_toNat, BitVec.setWidth_eq]
  rfl

theorem relHolds_eq (r : Rel) (a b : Word) : relHolds r a b = relBits r a b := by
  have ha : sext a.toNat 64 = a.toInt := by rw [sext_eq_toInt _ _ (by decide), BitVec.ofNat_toNat, BitVec.setWidth_eq]
  have hb : sext b.toNat 64 = b.toInt := by rw [sext_eq_toInt _ _ (by decide), BitVec.ofNat_toNat, BitVec.setWidth_eq]
  cases r with
  | eq => simp [relHolds, relBits, Bool.beq_eq_decide_eq]
  | ne => simp [relHolds, relBits, bne, Bool.beq_eq_decide_eq]
  | lt => simp [relHolds, relBits, BitVec.slt, ha, hb]
  | ge => simp [relHolds, relBits, BitVec.slt, ha, hb, ← decide_not]
  | ltn => simp [relHolds, relBits, BitVec.ult]
  | gen => simp [relHolds, relBits, BitVec.ult, ← decide_not]

/-- LOOP goes on while the new value is not 0; x0 reads 0 whatever is written (R84). -/
theorem State.getX_setX_pred (s : State) (a : Nat) : (s.setX a (s.getX a - 1)).getX a ≠ 0 ↔ a ≠ 0 ∧ s.getX a ≠ 1 := by
  by_cases h : a = 0
  · subst h; simp
  · rw [State.getX_setX s h]
    simp only [h, ne_eq, not_false_eq_true, true_and, not_iff_not]
    exact sub_eq_zero

/-- Settles O7. -/
theorem branchesSetThePcAndPredicatesTheirBit : Obligations.BranchesSetThePcAndPredicatesTheirBit := by
  unfold Obligations.BranchesSetThePcAndPredicatesTheirBit
  refine ⟨fun s a b l w => ⟨fun r => ?_, ?_, ?_, ?_, ?_, rfl, rfl, ?_⟩, fun s d a b => ⟨fun r => ?_, rfl, rfl, rfl, fun v => ⟨?_, fun hd => ?_⟩⟩⟩
  · rw [exec_bc, execBc, State.condHolds, relHolds_eq, State.target_eq]
  · rw [exec_bc, execBc, State.condHolds, State.target_eq]
  · rw [exec_bc, execBc, State.condHolds, State.target_eq]
    cases s.getB a <;> rfl
  · rw [exec_jmp, execJmp, State.target_eq]
  · rw [exec_call, execCall, State.target_eq]
  · simp only [exec_loop, execLoop, State.getX_setX_pred, State.target_eq]
  · rw [exec_pset, execPset, relHolds_eq]
  · rw [State.getB_advance, State.getB_zero]
  · rw [State.getB_advance, State.getB_setB s hd]

/-- Settles O8: each of these instructions is a framed write of its register, if it has one, and a move of the pc. -/
theorem controlAndPredicateInstructionsFrame : Obligations.ControlAndPredicateInstructionsFrame := by
  unfold Obligations.ControlAndPredicateInstructionsFrame
  intro s t d a b w
  have hx : ∀ v u, s.Frame ((s.setX d v).setPc u) (· = d) noReg noReg noReg false :=
    fun v u => (State.frame_setX (x := (· = d)) v rfl).trans (State.frame_setPc u)
  have hb : ∀ v, s.Frame (s.setB d v).advance noReg noReg (· = d) noReg false := fun v => (State.frame_setB (b := (· = d)) v rfl).trans State.frame_advance
  refine ⟨fun c h => ?_, fun h => ?_, fun h => ?_, fun h => ?_, fun h => ?_, fun h => ?_, fun r h => ?_, fun h => ?_, fun h => ?_, fun h => ?_⟩ <;>
    obtain rfl := Host.Outcome.next.inj h
  · split
    · exact State.frame_setPc _
    · exact State.frame_advance
  · exact State.frame_setPc _
  · exact State.frame_setPc _
  · exact hx _ _
  · exact hx _ _
  · split
    · exact hx _ _
    · exact hx _ _
  · exact hb _
  · exact hb _
  · exact hb _
  · exact hb _

end Sys2Proof.Machine
end

section
/-! Binary32 values in f registers (R14). -/

namespace Sys2Proof.Machine

/-- A rounded binary32 result fits in 32 bits: a code of at most `maxCode`, an infinity or the NaN, below the sign bit. -/
theorem roundNum_single_lt (rm : Rm) (sat : Bool) (x : Num) : (roundNum 0x0D rm sat x).1 < 2 ^ 32 := by
  have hs : ∀ n, signBit (ffOf 0x0D) n ≤ 2 ^ 31 := fun n => by cases n <;> decide
  have hi : ∀ n, infCode (ffOf 0x0D) n < 2 ^ 32 := fun n => by cases n <;> decide
  have hm : (ffOf 0x0D).maxCode < 2 ^ 31 := by decide
  have hcode : ∀ (n : Bool) (code : Nat) (x : Exc), (if (ffOf 0x0D).maxCode < code
      then (if false && sat then signBit (ffOf 0x0D) n + (ffOf 0x0D).maxCode
        else if !(ffOf 0x0D).hasInf && (ffOf 0x0D).nan.isNone then signBit (ffOf 0x0D) n + (ffOf 0x0D).maxCode
        else if overToInf rm n then infCode (ffOf 0x0D) n else signBit (ffOf 0x0D) n + (ffOf 0x0D).maxCode, { of := true, nx := true })
      else (signBit (ffOf 0x0D) n + code, x)).1 < 2 ^ 32 := fun n code x => by
    have hn := hs n
    have hin := hi n
    split
    · dsimp only
      split_ifs <;> omega
    · dsimp only
      omega
  have h : ∀ y, (roundFF (ffOf 0x0D) false rm sat y).1 < 2 ^ 32 := fun y => by
    cases y with
    | nan s => exact (by decide : (nanCode (ffOf 0x0D)).1 < 2 ^ 32)
    | inf n => exact hi n
    | fin n m e =>
      unfold roundFF
      dsimp only
      split
      · exact Nat.lt_of_le_of_lt (hs n) (by decide)
      · exact hcode n _ _
  exact h x

theorem toNat_ofNat_of_single {v : Nat} (h : v < 2 ^ 32) : (BitVec.ofNat 64 v).toNat < 2 ^ 32 := by
  rw [BitVec.toNat_ofNat]
  omega

/-- What a float instruction leaves in its f register. -/
theorem State.getF_floatResult (s : State) (d : Nat) (v : Word) (e : Exc) (lat : Nat) : (((s.setF d v).setFlags e lat).advance).getF d = v := by
  simp

theorem State.getF_putFloat_single (s : State) (rm : Rm) (d : Nat) (x : Num) (e : Exc) (lat : Nat) :
    ((s.putFloat .s rm d x e lat).advance.getF d).toNat < 2 ^ 32 := by
  rw [State.putFloat, State.getF_floatResult]
  exact toNat_ofNat_of_single (roundNum_single_lt _ _ _)

/-! Two states that agree in what a binary32 operand is. -/

/-- The low halves of the f registers and FMODE are the same. -/
structure State.SameSingles (s u : State) : Prop where
  low : ∀ r, (u.getF r).setWidth 32 = (s.getF r).setWidth 32
  fmode : u.me.regs.fmode = s.me.regs.fmode

section
variable {s u : State} (h : s.SameSingles u)
include h

theorem State.SameSingles.low_toNat (r : Nat) : (u.getF r).toNat % 2 ^ 32 = (s.getF r).toNat % 2 ^ 32 := by
  simpa using congrArg BitVec.toNat (h.low r)

theorem State.SameSingles.fnum (r : Nat) : u.fnum .s r = s.fnum .s r := by
  have hr := h.low_toNat r
  simp only [State.fnum]
  exact congrArg (decodeNum 0x0D) hr

theorem State.SameSingles.rm (c : RmCode) : u.rm c = s.rm c := by
  cases c with
  | fmode => simp only [State.rm, h.fmode]
  | _ => rfl

end

/-- What instructions with binary32 operands write, in two states that agree in these: a float result with its flags, an x register with flags, or
an x register alone, the same value in both. -/
inductive State.WritesAlike (s u : State) (i : Instr) (d : Nat) : Prop where
  | float (x : Word) (e : Exc) (lat : Nat) (hi : fDest i = some d) (hs : exec i s = .next (((s.setF d x).setFlags e lat).advance))
      (hu : exec i u = .next (((u.setF d x).setFlags e lat).advance))
  | flagged (x : Word) (e : Exc) (lat : Nat) (hi : fDest i = none) (hs : exec i s = .next (((s.setX d x).setFlags e lat).advance))
      (hu : exec i u = .next (((u.setX d x).setFlags e lat).advance))
  | plain (x : Word) (hi : fDest i = none) (hs : exec i s = .next ((s.setX d x).advance)) (hu : exec i u = .next ((u.setX d x).advance))

theorem State.SameSingles.writesAlike {s u : State} (h : s.SameSingles u) {i : Instr} {rm : RmCode} {rel : FRel} {d a b c : Nat}
    (hi : i ∈ [Instr.fadd .s rm d a b, .fsub .s rm d a b, .fmul .s rm d a b, .ffma .s rm d a b c, .fdiv .s rm d a b, .fsqrt .s rm d a,
      .fmin .s d a b, .fmax .s d a b, .fcmp .s rel d a b, .fclass .s d a, .fmovx .s d a, .fcvt .d_s rm d a, .fcvt .i_s rm d a,
      .fcvt .n_s rm d a, .fcvt .h_s rm d a, .fcvt .bf_s rm d a]) : s.WritesAlike u i d := by
  have hr := h.rm rm
  have ha := h.fnum a
  have hb := h.fnum b
  have hc := h.fnum c
  have hx := h.low_toNat a
  simp only [List.mem_cons, List.not_mem_nil, or_false] at hi
  rcases hi with rfl | rfl | rfl | rfl | rfl | rfl | rfl | rfl | rfl | rfl | rfl | rfl | rfl | rfl | rfl | rfl
  · exact .float _ _ _ rfl rfl (by rw [exec_fadd, execFadd, hr, ha, hb]; rfl)
  · exact .float _ _ _ rfl rfl (by rw [exec_fsub, execFsub, hr, ha, hb]; rfl)
  · exact .float _ _ _ rfl rfl (by rw [exec_fmul, execFmul, hr, ha, hb]; rfl)
  · exact .float _ _ _ rfl rfl (by rw [exec_ffma, execFfma, hr, ha, hb, hc]; rfl)
  · exact .float _ _ _ rfl rfl (by rw [exec_fdiv, execFdiv, hr, ha, hb]; rfl)
  · exact .float _ _ _ rfl rfl (by rw [exec_fsqrt, execFsqrt, hr, ha]; rfl)
  · exact .float _ _ _ rfl rfl (by rw [exec_fmin, execFmin, ha, hb]; rfl)
  · exact .float _ _ _ rfl rfl (by rw [exec_fmax, execFmax, ha, hb]; rfl)
  · exact .flagged _ _ _ rfl rfl (by rw [exec_fcmp, execFcmp, ha, hb])
  · exact .plain _ rfl rfl (by rw [exec_fclass, execFclass, ha])
  · exact .plain _ rfl rfl (congrArg (fun v => Host.Outcome.next ((u.setX d (BitVec.ofNat 64 v)).advance)) hx)
  · exact .float _ _ _ rfl rfl (by simp only [exec_fcvt, execFcvt, State.convSrc, hr, ha]; rfl)
  · exact .flagged _ _ _ rfl rfl (by simp only [exec_fcvt, execFcvt, State.convSrc, hr, ha]; rfl)
  · exact .flagged _ _ _ rfl rfl (by simp only [exec_fcvt, execFcvt, State.convSrc, hr, ha]; rfl)
  · exact .float _ _ _ rfl rfl (by simp only [exec_fcvt, execFcvt, State.convSrc, hr, ha]; rfl)
  · exact .float _ _ _ rfl rfl (by simp only [exec_fcvt, execFcvt, State.convSrc, hr, ha]; rfl)

theorem State.special_fmode (s : State) : s.special 0x12 = s.me.regs.fmode.toNat := rfl

/-- Two states that agree in FMODE and write alike agree in what they wrote and in FMODE. -/
theorem State.WritesAlike.agree {s u t v : State} {i : Instr} {d : Nat} (h : s.WritesAlike u i d) (hm : u.me.regs.fmode = s.me.regs.fmode)
    (ht : exec i s = .next t) (hv : exec i u = .next v) :
    (fDest i = some d → v.getF d = t.getF d) ∧ (fDest i = none → d ≠ 0 → v.getX d = t.getX d) ∧ v.special 0x12 = t.special 0x12 := by
  cases h with
  | float x e lat hi hs hu =>
    obtain rfl := Host.Outcome.next.inj (hs.symm.trans ht)
    obtain rfl := Host.Outcome.next.inj (hu.symm.trans hv)
    exact ⟨fun _ => by simp, fun h => (by simp [hi] at h), by simp [State.special_fmode, hm]⟩
  | flagged x e lat hi hs hu =>
    obtain rfl := Host.Outcome.next.inj (hs.symm.trans ht)
    obtain rfl := Host.Outcome.next.inj (hu.symm.trans hv)
    exact ⟨fun h => (by simp [hi] at h), fun _ hd => by simp [State.getX_setX _ hd], by simp [State.special_fmode, hm]⟩
  | plain x hi hs hu =>
    obtain rfl := Host.Outcome.next.inj (hs.symm.trans ht)
    obtain rfl := Host.Outcome.next.inj (hu.symm.trans hv)
    exact ⟨fun h => (by simp [hi] at h), fun _ hd => by simp [State.getX_setX _ hd], by simp [State.special_fmode, hm]⟩

/-- Settles O6. -/
theorem singleResultsClearTheUpperHalf : Obligations.SingleResultsClearTheUpperHalf := by
  unfold Obligations.SingleResultsClearTheUpperHalf
  refine ⟨fun i s t rm d a b c hi ht => ?_, fun c d v hv => ?_, fun i s u t v rm rel d a b c m hi hlow hm ht hv => ?_⟩
  · simp only [List.mem_cons, List.not_mem_nil, or_false] at hi
    rcases hi with rfl | rfl | rfl | rfl | rfl | rfl | rfl | rfl | rfl | rfl | rfl | rfl | rfl | rfl
    case inr.inr.inr.inr.inr.inr.inr.inr.inl =>
      obtain rfl := Host.Outcome.next.inj ht
      rw [State.getF_advance, State.getF_setF, BitVec.toNat_ofNat]
      exact lt_of_le_of_lt (Nat.mod_le _ _) (Nat.mod_lt _ (by decide))
    all_goals obtain rfl := Host.Outcome.next.inj ht
    all_goals exact State.getF_putFloat_single ..
  · simpa [Ctx.fill] using toNat_ofNat_of_single hv
  · have h : s.SameSingles u := ⟨hlow, BitVec.eq_of_toNat_eq hm⟩
    obtain ⟨h1, h2, h3⟩ := (h.writesAlike hi).agree h.fmode ht hv
    exact ⟨h1, h2, h3, fun hw => by simp only [State.storeData, hw]; exact h.low_toNat m.data⟩

end Sys2Proof.Machine
end

section
/-! Giving up blocks (R186, R189): of a tile only what belongs to blocks, their streams and their nodes changes, and of a context only that it
holds no continuation any more. -/

namespace Sys2Proof.Machine

/-- Nothing of a tile differs but its blocks, the queues and ports of their streams, its accumulator nodes, and the counts of cancels. -/
def Tile.BlocksOnly (a b : Tile) : Prop :=
  b = { a with acc := b.acc, accPoison := b.accPoison, regs := b.regs, queues := b.queues, ips := b.ips, eps := b.eps, gbufs := b.gbufs,
               strays := b.strays, runs := b.runs, scanned := b.scanned, aside := b.aside, array := b.array }

theorem Tile.BlocksOnly.refl (a : Tile) : a.BlocksOnly a := rfl

theorem Tile.BlocksOnly.trans {a b c : Tile} (h : a.BlocksOnly b) (k : b.BlocksOnly c) : a.BlocksOnly c := by
  unfold Tile.BlocksOnly at h k ⊢
  exact k.trans (by rw [h])

theorem Tile.BlocksOnly.foldl {α : Type} {f : Tile → α → Tile} (hf : ∀ (tl : Tile) x, tl.BlocksOnly (f tl x)) (l : List α) :
    ∀ a : Tile, a.BlocksOnly (l.foldl f a) := by
  induction l with
  | nil => exact .refl
  | cons x l ih => exact fun a => (hf a x).trans (ih _)

theorem Tile.BlocksOnly.ite {a b c : Tile} {p : Prop} [Decidable p] (hb : a.BlocksOnly b) (hc : a.BlocksOnly c) :
    a.BlocksOnly (if p then b else c) := by
  split
  · exact hb
  · exact hc

theorem Tile.blocksOnly_count (tl : Tile) (hit : Nat → Bool) (f : Reg → Reg) : tl.BlocksOnly (tl.count hit f) := by
  unfold Tile.count
  split <;> rfl

theorem Tile.blocksOnly_cancelEntries (tl : Tile) (w : QEntry → Bool) : tl.BlocksOnly (tl.cancelEntries w).1 := by
  simp only [Tile.cancelEntries]
  refine Tile.BlocksOnly.trans (b := { tl with queues := _ }) rfl (Tile.BlocksOnly.foldl (fun _ _ => ?_) _ _)
  rfl

theorem Tile.blocksOnly_cancelOwn (tl : Tile) (i : Inst) : tl.BlocksOnly (tl.cancelOwn i) := by
  unfold Tile.cancelOwn
  exact (tl.blocksOnly_cancelEntries _).trans (Tile.blocksOnly_count _ _ _)

theorem Tile.blocksOnly_leaveSink (tl : Tile) (i : Inst) : tl.BlocksOnly (tl.leaveSink i) := by
  refine Tile.BlocksOnly.foldl (fun _ _ => ?_) _ _
  exact .ite rfl rfl

theorem Tile.blocksOnly_leave (tl : Tile) (i : Inst) : tl.BlocksOnly ((tl.leaveSink i).cancelOwn i) :=
  (tl.blocksOnly_leaveSink i).trans (Tile.blocksOnly_cancelOwn _ i)

theorem Tile.blocksOnly_setAside (tl : Tile) (l : List Inst) : tl.BlocksOnly (tl.setAside l) := rfl

theorem Tile.blocksOnly_dropInst (tl : Tile) (q : Nat) (whole : Bool) : tl.BlocksOnly (tl.dropInst q whole) := by
  unfold Tile.dropInst
  refine Tile.BlocksOnly.trans (Tile.BlocksOnly.ite (.foldl (fun tl r => ?_) _ _) (.refl tl)) rfl
  exact tl.blocksOnly_setAside _

theorem Tile.blocksOnly_dropScanned (tl : Tile) (c : Nat) : tl.BlocksOnly (tl.dropScanned c) := by
  unfold Tile.dropScanned
  split
  · exact .refl _
  · exact Tile.BlocksOnly.trans (b := { tl with scanned := _ }) rfl (Tile.blocksOnly_leave _ _)

theorem Tile.blocksOnly_dropAside (tl : Tile) (c : Nat) : tl.BlocksOnly (tl.dropAside c) := by
  unfold Tile.dropAside
  split
  · exact .refl _
  · exact Tile.BlocksOnly.trans (b := { tl with aside := _ }) rfl (Tile.blocksOnly_leave _ _)

theorem Tile.blocksOnly_dropCtx (tl : Tile) (c : Nat) : tl.BlocksOnly (tl.dropCtx c) :=
  Tile.BlocksOnly.trans (.foldl Tile.blocksOnly_cancelOwn _ _) rfl

/-- Nothing but one tile differs, and of it only what belongs to blocks. -/
def State.BlocksOnly (s u : State) (t : Nat) : Prop :=
  u = { s with tiles := u.tiles } ∧ (∀ k, k ≠ t → u.tile k = s.tile k) ∧ (s.tile t).BlocksOnly (u.tile t)

theorem State.BlocksOnly.refl (s : State) (t : Nat) : s.BlocksOnly s t := ⟨rfl, fun _ _ => rfl, .refl _⟩

theorem State.BlocksOnly.trans {s u v : State} {t : Nat} (h : s.BlocksOnly u t) (k : u.BlocksOnly v t) : s.BlocksOnly v t := by
  obtain ⟨h1, h2, h3⟩ := h
  obtain ⟨k1, k2, k3⟩ := k
  exact ⟨k1.trans (by rw [h1]), fun j hj => (k2 j hj).trans (h2 j hj), h3.trans k3⟩

theorem State.BlocksOnly.foldl {α : Type} {t : Nat} {f : State → α → State} (hf : ∀ (u : State) x, u.BlocksOnly (f u x) t) (l : List α) :
    ∀ s : State, s.BlocksOnly (l.foldl f s) t := by
  induction l with
  | nil => exact fun s => .refl s t
  | cons x l ih => exact fun s => (hf s x).trans (ih _)

theorem State.blocksOnly_modTile (s : State) (t : Nat) {f : Tile → Tile} (hf : ∀ tl : Tile, tl.BlocksOnly (f tl)) : s.BlocksOnly (s.modTile t f) t :=
  ⟨rfl, fun _ hk => s.tile_modTile_ne hk f, by rw [State.tile_modTile]; exact hf _⟩

theorem State.blocksOnly_giveUp (s : State) (t : Nat) (r : Run) (i : Inst) (whole : Bool) : s.BlocksOnly (s.giveUp t r i whole) t := by
  refine s.blocksOnly_modTile t fun tl => ?_
  refine Tile.BlocksOnly.trans ?_ ((Tile.blocksOnly_leave _ i).trans (Tile.blocksOnly_dropInst _ _ _))
  split
  · rfl
  · rfl

/-- What leaves a context without its blocks: beside these, only the context's continuation. -/
structure State.LeftBlocks (s u : State) (t c : Nat) : Prop where
  state : u = { s with tiles := u.tiles }
  others : ∀ k, k ≠ t → u.tile k = s.tile k
  tile : Tile.BlocksOnly { s.tile t with ctxs := (u.tile t).ctxs } (u.tile t)
  ctx : ∀ d, u.ctx t d = if d = c then { s.ctx t d with cont := none } else s.ctx t d

theorem State.BlocksOnly.ctx {s u : State} {t : Nat} (h : s.BlocksOnly u t) (d : Nat) : u.ctx t d = s.ctx t d := by
  obtain ⟨-, -, h3⟩ := h
  unfold Tile.BlocksOnly at h3
  simp only [State.ctx, Tile.ctx]
  rw [h3]

/-- A change of blocks alone, and the context's continuation is gone. -/
theorem State.BlocksOnly.leftBlocks {s u : State} {t : Nat} (h : s.BlocksOnly u t) (c : Nat) :
    s.LeftBlocks (u.modCtx t c fun x => { x with cont := none }) t c where
  state := by rw [h.1]; rfl
  others k hk := by rw [State.tile_modCtx, if_neg hk, h.2.1 k hk]
  tile := by
    have h3 := h.2.2
    rw [State.tile_modCtx, if_pos rfl]
    unfold Tile.BlocksOnly at h3 ⊢
    simp only [Tile.modCtx]
    rw [h3]
  ctx d := by
    by_cases hd : d = c
    · subst hd
      rw [State.ctx_modCtx, if_pos rfl, h.ctx]
    · rw [State.ctx_modCtx_ne _ (.inr hd), if_neg hd, h.ctx]

/-- A continuation is discarded: its block is given up, and the context holds none. -/
theorem State.leftBlocks_discardCont (s : State) (t c : Nat) : s.LeftBlocks (s.discardCont t c) t c := by
  unfold State.discardCont
  split
  case h_1 hc =>
    refine ⟨rfl, fun _ _ => rfl, .refl _, fun d => ?_⟩
    split
    · rename_i h
      subst h
      rw [← hc]
    · rfl
  case h_2 =>
    refine State.BlocksOnly.leftBlocks ?_ c
    split
    · exact s.blocksOnly_giveUp ..
    · exact s.blocksOnly_modTile t fun tl => tl.blocksOnly_dropScanned c

/-- A change of blocks alone after it. -/
theorem State.LeftBlocks.trans_blocksOnly {s u v : State} {t c : Nat} (h : s.LeftBlocks u t c) (k : u.BlocksOnly v t) : s.LeftBlocks v t c := by
  obtain ⟨k1, k2, k3⟩ := k
  have hctxs : (v.tile t).ctxs = (u.tile t).ctxs := by rw [k3]
  refine ⟨k1.trans (by rw [h.state]), fun j hj => (k2 j hj).trans (h.others j hj), ?_, fun d => ?_⟩
  · rw [hctxs]
    exact h.tile.trans k3
  · rw [← h.ctx]
    simp only [State.ctx, Tile.ctx, hctxs]

theorem State.leftBlocks_leaveBlocks (s : State) (t c : Nat) : s.LeftBlocks (s.leaveBlocks t c) t c := by
  unfold State.leaveBlocks
  refine ((s.leftBlocks_discardCont t c).trans_blocksOnly ?_).trans_blocksOnly (State.blocksOnly_modTile _ t fun tl => ?_)
  · refine State.BlocksOnly.foldl (fun u r => ?_) _ _
    split
    · split
      · exact u.blocksOnly_giveUp ..
      · exact .refl u t
    · exact .refl u t
  · exact ((tl.blocksOnly_dropCtx c).trans (Tile.blocksOnly_dropScanned _ c)).trans (Tile.blocksOnly_dropAside _ c)

end Sys2Proof.Machine
end

section
/-! WRS (R17, R20, R23, R122, R127, R128, R186): what a write to each special register leaves, by the part of the state that holds it: the issuing
context, the tile (TRAPBASE, BUDGET), or the context with its block continuation (TRAPPC). -/

namespace Sys2Proof.Machine

/-! What depends on the launch and partition of tiles. -/

theorem State.partId_congr {s u : State} (ht : ∀ k, (u.tile k).lid = (s.tile k).lid) (hp : u.parts = s.parts) (hl : u.launches = s.launches) (k : Nat) :
    u.partId k = s.partId k := by
  simp only [State.partId, State.occupant, ht, hp, State.launch, hl]

theorem State.throttle_congr {s u : State} (ht : ∀ k, (u.tile k).lid = (s.tile k).lid) (ha : ∀ k, (u.tile k).allot = (s.tile k).allot)
    (hp : u.parts = s.parts) (hl : u.launches = s.launches) (hd : u.dies = s.dies) (k : Nat) : u.throttle k = s.throttle k := by
  simp only [State.throttle, State.throttled, State.credit, State.die, State.part, State.partId_congr ht hp hl, ha, hp, hd]

theorem State.trapBaseOf_congr {s u : State} {k : Nat} (hd : u.dies = s.dies) (hw : (u.tile k).wrOld = (s.tile k).wrOld)
    (hb : (u.tile k).trapBase = (s.tile k).trapBase) (d : Nat) : u.trapBaseOf k d = s.trapBaseOf k d := by
  unfold State.trapBaseOf State.die
  rw [hw, hb, hd]

theorem State.budgetOf_congr {s u : State} {k : Nat} (hd : u.dies = s.dies) (hw : (u.tile k).wrOld = (s.tile k).wrOld)
    (hb : (u.tile k).budget = (s.tile k).budget) (d : Nat) : u.budgetOf k d = s.budgetOf k d := by
  unfold State.budgetOf State.die
  rw [hw, hb, hd]

/-! A tile without what giving up blocks changes. -/

/-- A tile apart from its contexts and from what belongs to blocks. -/
def Tile.core (a : Tile) : Tile :=
  { a with ctxs := [], acc := [], accPoison := [], regs := [], queues := [], ips := [], eps := [], gbufs := [], strays := [], runs := [], scanned := [],
           aside := [], array := EArray.reset }

section
variable {s u : State} {t c : Nat} (h : s.LeftBlocks u t c)
include h

theorem State.LeftBlocks.core (k : Nat) : (u.tile k).core = (s.tile k).core := by
  by_cases hk : k = t
  · subst hk
    have ht := h.tile
    unfold Tile.BlocksOnly at ht
    rw [ht]
    rfl
  · rw [h.others k hk]

/-- A part of a tile that no giving up of blocks touches. -/
theorem State.LeftBlocks.part {α : Type} (p : Tile → α) (hp : ∀ tl : Tile, p tl.core = p tl) (k : Nat) : p (u.tile k) = p (s.tile k) := by
  rw [← hp, ← hp (s.tile k), h.core]

theorem State.LeftBlocks.lid (k : Nat) : (u.tile k).lid = (s.tile k).lid := h.part Tile.lid (fun _ => rfl) k
theorem State.LeftBlocks.allot (k : Nat) : (u.tile k).allot = (s.tile k).allot := h.part Tile.allot (fun _ => rfl) k
theorem State.LeftBlocks.dies : u.dies = s.dies := by rw [h.state]
theorem State.LeftBlocks.parts : u.parts = s.parts := by rw [h.state]
theorem State.LeftBlocks.launches : u.launches = s.launches := by rw [h.state]
theorem State.LeftBlocks.cur : u.cur = s.cur := by rw [h.state]

/-- A context as it was, but for its continuation. -/
theorem State.LeftBlocks.ctx_eq (k d : Nat) : u.ctx k d = { s.ctx k d with cont := (u.ctx k d).cont } := by
  by_cases hk : k = t
  · subst hk
    rw [h.ctx]
    split <;> rfl
  · simp only [State.ctx, h.others k hk]

theorem State.LeftBlocks.me_eq : u.me = { s.me with cont := u.me.cont } := by
  have hc := h.cur
  simp only [State.me, hc]
  exact h.ctx_eq _ _

theorem State.LeftBlocks.trapBaseOf (k d : Nat) : u.trapBaseOf k d = s.trapBaseOf k d :=
  State.trapBaseOf_congr h.dies (h.part Tile.wrOld (fun _ => rfl) k) (h.part Tile.trapBase (fun _ => rfl) k) d

theorem State.LeftBlocks.budgetOf (k d : Nat) : u.budgetOf k d = s.budgetOf k d :=
  State.budgetOf_congr h.dies (h.part Tile.wrOld (fun _ => rfl) k) (h.part Tile.budget (fun _ => rfl) k) d

/-- No special register reads differently. -/
theorem State.LeftBlocks.special (k : Nat) : u.special k = s.special k := by
  have hm := h.me_eq
  have hcur := h.cur
  refine State.special_congr hcur h.dies ?_ (State.throttle_congr h.lid h.allot h.parts h.launches h.dies _) ?_ ?_ ?_ ?_ (by rw [hm]; rfl) (by rw [hm])
    (fun _ => h.trapBaseOf _ _) (fun _ => by rw [hm]) (fun _ => by rw [hm]) (fun _ => by rw [hm]) (fun _ => by rw [hm]) (fun _ => by rw [hm])
    (fun _ => h.budgetOf _ _) (fun _ => by rw [hm]) (fun _ => by rw [hm])
  · rw [State.myPart, State.myPart, hcur]
    exact State.partId_congr h.lid h.parts h.launches _
  all_goals rw [State.myTile, State.myTile, hcur]
  · exact h.part Tile.vtile (fun _ => rfl) _
  · exact h.part Tile.vdie (fun _ => rfl) _
  · exact h.part Tile.grp (fun _ => rfl) _
  · exact h.part Tile.budgetUse (fun _ => rfl) _

end

/-! Tile-wide registers (R128). -/

/-- Only TRAPBASE and BUDGET are written. -/
def Tile.WritesWide (g : Tile → Tile) : Prop := ∀ tl : Tile, g tl = { tl with trapBase := (g tl).trapBase, budget := (g tl).budget }

/-- A write of a tile-wide register by the issuing context: what other contexts still read in this cycle is kept first. -/
def State.writeWide (s : State) (g : Tile → Tile) : State := s.keepOld.modMyTile g

/-- What other contexts read of the tile-wide registers while the cycle lasts. -/
def State.kept (s : State) : WrOld :=
  match s.myTile.wrOld with
  | some o => if o.cycle = (s.die (dieOf s.cur.1)).cycle then o else ⟨(s.die (dieOf s.cur.1)).cycle, s.cur.2, s.myTile.trapBase, s.myTile.budget⟩
  | none => ⟨(s.die (dieOf s.cur.1)).cycle, s.cur.2, s.myTile.trapBase, s.myTile.budget⟩

theorem State.kept_cycle (s : State) : s.kept.cycle = (s.die (dieOf s.cur.1)).cycle := by
  unfold State.kept
  split
  · split
    · assumption
    · rfl
  · rfl

section
variable {s : State} (h : s.AloneWriting)
include h

/-- When no other context has written in this cycle, the values are kept for the others. -/
theorem State.AloneWriting.kept_ctx : s.kept.ctx = s.cur.2 := by
  unfold State.kept
  split
  · split
    · exact h _ ‹_› ‹_›
    · rfl
  · rfl

/-- The issuing context reads the registers themselves. -/
theorem State.AloneWriting.own : s.trapBaseOf s.cur.1 s.cur.2 = s.myTile.trapBase ∧ s.budgetOf s.cur.1 s.cur.2 = s.myTile.budget := by
  unfold State.trapBaseOf State.budgetOf
  cases hw : (s.tile s.cur.1).wrOld with
  | none => exact ⟨rfl, rfl⟩
  | some o =>
    have hn : ¬ (o.cycle = (s.die (dieOf s.cur.1)).cycle ∧ o.ctx ≠ s.cur.2) := fun e => e.2 (h o hw e.1)
    simp only [if_neg hn]
    exact ⟨rfl, rfl⟩

/-- Another context reads what is kept for it. -/
theorem State.AloneWriting.other {c : Nat} (hc : c ≠ s.cur.2) :
    s.trapBaseOf s.cur.1 c = s.kept.trapBase ∧ s.budgetOf s.cur.1 c = s.kept.budget := by
  unfold State.trapBaseOf State.budgetOf State.kept State.myTile
  cases hw : (s.tile s.cur.1).wrOld with
  | none => exact ⟨rfl, rfl⟩
  | some o =>
    by_cases ho : o.cycle = (s.die (dieOf s.cur.1)).cycle
    · have hoc : o.ctx ≠ c := fun e => hc (e ▸ h o hw ho)
      simp [ho, hoc]
    · simp [ho]

end

theorem State.tile_keepOld (s : State) : s.keepOld.tile s.cur.1 = { s.myTile with wrOld := some s.kept } := by
  simp only [State.keepOld, State.modMyTile, State.tile_modTile, State.kept]
  cases hw : s.myTile.wrOld with
  | none => simp [State.myTile] at hw ⊢; simp [hw]
  | some o =>
    by_cases hc : o.cycle = (s.die (dieOf s.cur.1)).cycle
    · simp [State.myTile] at hw ⊢
      simp [hw, hc]
      rw [← hw]
    · simp [State.myTile] at hw ⊢; simp [hw, hc]

section
variable {s : State} {g : Tile → Tile} (hg : Tile.WritesWide g)
include hg

theorem State.tile_writeWide :
    (s.writeWide g).tile s.cur.1 = { s.myTile with wrOld := some s.kept, trapBase := (g (s.keepOld.tile s.cur.1)).trapBase,
                                                   budget := (g (s.keepOld.tile s.cur.1)).budget } := by
  have h := hg (s.keepOld.tile s.cur.1)
  have e : (s.writeWide g).tile s.cur.1 = g (s.keepOld.tile s.cur.1) := State.tile_modTile ..
  rw [e, h]
  rw [s.tile_keepOld]

/-- The writer reads what it wrote, others what was kept for them. -/
theorem State.wide_writeWide (hk : s.kept.ctx = s.cur.2) (c : Nat) :
    (s.writeWide g).trapBaseOf s.cur.1 c = (if c = s.cur.2 then (g (s.keepOld.tile s.cur.1)).trapBase else s.kept.trapBase)
      ∧ (s.writeWide g).budgetOf s.cur.1 c = (if c = s.cur.2 then (g (s.keepOld.tile s.cur.1)).budget else s.kept.budget) := by
  have hd : (s.writeWide g).die (dieOf s.cur.1) = s.die (dieOf s.cur.1) := rfl
  have hc : s.kept.cycle = (s.die (dieOf s.cur.1)).cycle := s.kept_cycle
  simp only [State.trapBaseOf, State.budgetOf, State.tile_writeWide hg, hd, hc, hk, true_and]
  by_cases h : c = s.cur.2
  · simp [h]
  · simp [h, Ne.symm h]

/-- No other special register reads differently: `hb` says that of TRAPBASE and BUDGET. -/
theorem State.special_writeWide {k : Nat} (h7 : k = 0x07 → (s.writeWide g).trapBaseOf s.cur.1 s.cur.2 = s.trapBaseOf s.cur.1 s.cur.2)
    (hD : k = 0x0D → (s.writeWide g).budgetOf s.cur.1 s.cur.2 = s.budgetOf s.cur.1 s.cur.2) : (s.writeWide g).special k = s.special k := by
  have hp : ∀ {α : Type} (p : Tile → α), (∀ (tl : Tile) o b d, p { tl with wrOld := o, trapBase := b, budget := d } = p tl) →
      ∀ k, p ((s.writeWide g).tile k) = p (s.tile k) := fun p h k => by
    by_cases hk : k = s.cur.1
    · subst hk
      rw [State.tile_writeWide hg, h]
      rfl
    · have hne : (s.writeWide g).tile k = s.tile k := (s.keepOld.tile_modTile_ne hk g).trans (s.tile_modTile_ne hk _)
      rw [hne]
  have hlid := hp Tile.lid fun _ _ _ _ => rfl
  have hctx := hp (·.ctx s.cur.2) (fun _ _ _ _ => rfl) s.cur.1
  have hme : (s.writeWide g).me = s.me := hctx
  exact State.special_congr rfl rfl (State.partId_congr hlid rfl rfl _) (State.throttle_congr hlid (hp Tile.allot fun _ _ _ _ => rfl) rfl rfl rfl _)
    (hp Tile.vtile (fun _ _ _ _ => rfl) _) (hp Tile.vdie (fun _ _ _ _ => rfl) _) (hp Tile.grp (fun _ _ _ _ => rfl) _)
    (hp Tile.budgetUse (fun _ _ _ _ => rfl) _) (by rw [hme]) (by rw [hme]) h7 (fun _ => by rw [hme]) (fun _ => by rw [hme]) (fun _ => by rw [hme])
    (fun _ => by rw [hme]) (fun _ => by rw [hme]) hD (fun _ => by rw [hme]) (fun _ => by rw [hme])

theorem State.me_writeWide : (s.writeWide g).me = s.me := by
  show ((s.writeWide g).tile s.cur.1).ctx s.cur.2 = _
  rw [State.tile_writeWide hg]
  rfl

end

/-! One write. -/

/-- A special register has been written: it holds `val`, and nothing else that instructions see differs; `keeps` says that no block continuation was
discarded. -/
structure State.WroteSpecial (s u : State) (n val : Nat) (keeps : Prop) : Prop where
  value : u.special n = val
  others : ∀ k, k ≠ n → u.special k = s.special k
  regs : ∀ k, u.getX k = s.getX k ∧ u.getF k = s.getF k ∧ u.getB k = s.getB k ∧ u.getP k = s.getP k
  wide : ∀ c, c ≠ s.cur.2 → u.trapBaseOf s.cur.1 c = s.trapBaseOf s.cur.1 c ∧ u.budgetOf s.cur.1 c = s.budgetOf s.cur.1 c
  memory : keeps → s.SameMemory u
  pc : u.pc = s.pc

/-- The write of a register that the context holds. -/
theorem State.wroteSpecial_modMe {s : State} {f : Ctx → Ctx} {n val : Nat} {keeps : Prop} (hv : (s.modMe f).special n = val)
    (hr : (f s.me).regs = { s.me.regs with fmode := (f s.me).regs.fmode, lssum := (f s.me).regs.lssum })
    (ho : ∀ k, k ≠ n → (s.modMe f).special k = s.special k) : s.WroteSpecial (s.modMe f) n val keeps where
  value := hv
  others := ho
  regs k := by
    simp only [State.getX, State.getF, State.getB, State.getP, State.me_modMe, Ctx.getX, Ctx.getF, Ctx.getB, Ctx.getP]
    rw [hr]
    exact ⟨rfl, rfl, rfl, rfl⟩
  wide c _ := ⟨s.trapBaseOf_modMe f _ c, s.budgetOf_modMe f _ c⟩
  memory _ := .modMe s f
  pc := by
    simp only [State.pc, State.me_modMe]
    rw [hr]

/-- The write of a tile-wide register, when no other context has written one in this cycle. -/
theorem State.wroteSpecial_writeWide {s : State} {g : Tile → Tile} {n val : Nat} {keeps : Prop} (hg : Tile.WritesWide g) (ha : s.AloneWriting)
    (hv : (s.writeWide g).special n = val)
    (h7 : n ≠ 0x07 → (g (s.keepOld.tile s.cur.1)).trapBase = s.myTile.trapBase)
    (hD : n ≠ 0x0D → (g (s.keepOld.tile s.cur.1)).budget = s.myTile.budget) : s.WroteSpecial (s.writeWide g) n val keeps := by
  have hw := State.wide_writeWide hg ha.kept_ctx
  have hme := State.me_writeWide (s := s) hg
  refine ⟨hv, fun k hk => State.special_writeWide hg (fun e => ?_) (fun e => ?_), fun k => ?_, fun c hc => ?_, fun _ => ?_, ?_⟩
  · rw [(hw _).1, if_pos rfl, h7 (e ▸ hk.symm), ha.own.1]
  · rw [(hw _).2, if_pos rfl, hD (e ▸ hk.symm), ha.own.2]
  · simp only [State.getX, State.getF, State.getB, State.getP, hme, and_self]
  · rw [(hw c).1, (hw c).2, if_neg hc, if_neg hc, (ha.other hc).1, (ha.other hc).2]
    exact ⟨rfl, rfl⟩
  · unfold State.writeWide
    rw [State.keepOld, State.modMyTile, State.modMyTile]
    refine (State.SameMemory.modTile s _ _ (fun tl => ?_) (fun tl => ?_)).trans (State.SameMemory.modTile _ _ _ (fun tl => ?_) (fun tl => ?_))
    · split <;> rfl
    · split <;> rfl
    · rw [hg]
    · rw [hg]
  · simp only [State.pc, hme]

/-- The write of TRAPPC; a continuation whose header it does not name is discarded (R186). -/
theorem State.wroteSpecial_trapPc (s : State) (v : Word) :
    s.WroteSpecial (s.putSpecial 0x08 v) 0x08 v.toNat (∀ h, s.me.cont = some h → h.2 = v.toNat) := by
  have hput : ∀ u : State, (u.modMe fun c => { c with trapPc := v }).special 0x08 = v.toNat := fun u => by
    show (u.modMe _).me.trapPc.toNat = _
    rw [State.me_modMe]
  have hset : ∀ u : State, ∀ keeps, u.WroteSpecial (u.modMe fun c => { c with trapPc := v }) 0x08 v.toNat keeps := fun u keeps =>
    State.wroteSpecial_modMe (hput u) rfl fun k hk => State.special_modMe rfl rfl (fun e => absurd e hk) (fun _ => rfl) (fun _ => rfl) (fun _ => rfl)
      (fun _ => rfl) (fun _ => rfl) fun _ => rfl
  show s.WroteSpecial ((if s.me.cont.any fun h => h.2 != v.toNat then s.discardCont s.cur.1 s.cur.2 else s).modMe fun c => { c with trapPc := v }) _ _ _
  split
  · rename_i hc
    have hl := s.leftBlocks_discardCont s.cur.1 s.cur.2
    generalize s.discardCont s.cur.1 s.cur.2 = u at hl ⊢
    have hu := hset u False
    have hme := hl.me_eq
    refine ⟨hu.value, fun k hk => (hu.others k hk).trans (hl.special k), fun k => ?_, fun c hc => ?_, fun hk => ?_, hu.pc.trans ?_⟩
    · rw [(hu.regs k).1, (hu.regs k).2.1, (hu.regs k).2.2.1, (hu.regs k).2.2.2]
      simp only [State.getX, State.getF, State.getB, State.getP, Ctx.getX, Ctx.getF, Ctx.getB, Ctx.getP]
      rw [hme]
      exact ⟨rfl, rfl, rfl, rfl⟩
    · have hw := hu.wide c (hl.cur ▸ hc)
      rw [hl.cur] at hw
      exact ⟨hw.1.trans (hl.trapBaseOf _ _), hw.2.trans (hl.budgetOf _ _)⟩
    · obtain ⟨h, e, hne⟩ := (Option.any_eq_true _ _).1 hc
      simp [hk h e] at hne
    · simp only [State.pc]
      rw [hme]
  · exact hset s _

/-- A move of the pc behind it. -/
theorem State.WroteSpecial.special_advance (u : State) (k : Nat) : u.advance.special k = u.special k :=
  (State.frame_advance (s := u) (x := noReg) (f := noReg) (b := noReg) (p := noReg) (fm := false)).specials k fun h => nomatch h

/-- WRS to a register that the context may write puts the value there and moves on (R127). -/
theorem exec_wrs_of_writable {s : State} {n a : Nat} (hr : specialReadOnly n = false) (ht : specialTrapOnly n = true → s.me.trap = true)
    (hb : n = 0x12 → bits (s.nx a) 3 2 = 0) : exec (.wrs n a) s = .next ((s.putSpecial n (s.getX a)).advance) := by
  rw [exec_wrs, execWrs, if_neg, if_neg]
  · simpa using hb
  · simp only [hr, Bool.false_or, Bool.and_eq_true, Bool.not_eq_true', not_and, Bool.not_eq_false]
    exact ht


/-- What a special register holds after a WRS: BUDGET at most the ceiling, FMODE with the flags in flight, else the value in the register's width. -/
def State.written (s : State) (n v : Nat) : Nat :=
  if n = 0x0D then min v (s.budgetCeil s.myPart) else if n = 0x12 then v % 2 ^ 9 ||| s.flightFlags.toNat else v % 2 ^ specialWidth n

/-- The write of a register that the issuing context holds, TRAPPC apart: the context's field takes the value and no other register shows it. -/
theorem State.wroteSpecial_own {s : State} {n : Nat} (v : Word) (hn : n ∈ [0x09, 0x0A, 0x0B, 0x0C, 0x12, 0x13]) (keeps : Prop) :
    s.WroteSpecial (s.putSpecial n v) n (s.written n v.toNat) keeps := by
  have hv : v.toNat % 2 ^ 64 = v.toNat := Nat.mod_eq_of_lt v.isLt
  simp only [List.mem_cons, List.not_mem_nil, or_false] at hn
  rcases hn with rfl | rfl | rfl | rfl | rfl | rfl
  case inl =>
    refine State.wroteSpecial_modMe (f := fun c => { c with trapCause := v.setWidth 8 }) ?_ rfl fun k hk => ?_
    · show (s.modMe _).me.trapCause.toNat = _
      rw [State.me_modMe]
      exact BitVec.toNat_setWidth 8 v
    · refine State.special_modMe rfl rfl ?_ ?_ ?_ ?_ ?_ ?_ ?_ <;> simp [hk]
  case inr.inl =>
    refine State.wroteSpecial_modMe (f := fun c => { c with trapAddr := v }) ?_ rfl fun k hk => ?_
    · show (s.modMe _).me.trapAddr.toNat = _
      rw [State.me_modMe]
      exact hv.symm
    · refine State.special_modMe rfl rfl ?_ ?_ ?_ ?_ ?_ ?_ ?_ <;> simp [hk]
  case inr.inr.inl =>
    refine State.wroteSpecial_modMe (f := fun c => { c with trapAux := v }) ?_ rfl fun k hk => ?_
    · show (s.modMe _).me.trapAux.toNat = _
      rw [State.me_modMe]
      exact hv.symm
    · refine State.special_modMe rfl rfl ?_ ?_ ?_ ?_ ?_ ?_ ?_ <;> simp [hk]
  case inr.inr.inr.inl =>
    refine State.wroteSpecial_modMe (f := fun c => { c with quoteLim := v }) ?_ rfl fun k hk => ?_
    · show (s.modMe _).me.quoteLim.toNat = _
      rw [State.me_modMe]
      exact hv.symm
    · refine State.special_modMe rfl rfl ?_ ?_ ?_ ?_ ?_ ?_ ?_ <;> simp [hk]
  case inr.inr.inr.inr.inl =>
    refine State.wroteSpecial_modMe (f := fun c => { c with regs := { c.regs with fmode := v.setWidth 9 ||| s.flightFlags } }) ?_ rfl fun k hk => ?_
    · show (s.modMe _).me.regs.fmode.toNat = _
      rw [State.me_modMe, BitVec.toNat_or, BitVec.toNat_setWidth]
      rfl
    · refine State.special_modMe rfl rfl ?_ ?_ ?_ ?_ ?_ ?_ ?_ <;> simp [hk]
  case inr.inr.inr.inr.inr =>
    refine State.wroteSpecial_modMe (f := fun c => { c with regs := { c.regs with lssum := v.setWidth 4 } }) ?_ rfl fun k hk => ?_
    · show (s.modMe _).me.regs.lssum.toNat = _
      rw [State.me_modMe]
      exact BitVec.toNat_setWidth 4 v
    · refine State.special_modMe rfl rfl ?_ ?_ ?_ ?_ ?_ ?_ ?_ <;> simp [hk]

/-- A write to a register that contexts may write, when no other context has written a tile-wide one in this cycle. -/
theorem State.wroteSpecial_putSpecial {s : State} {n : Nat} (v : Word) (h7 : 0x07 ≤ n) (h13 : n ≤ 0x13) (hr : specialReadOnly n = false)
    (ha : n = 0x07 ∨ n = 0x0D → s.AloneWriting) :
    s.WroteSpecial (s.putSpecial n v) n (s.written n v.toNat) (n = 0x08 → ∀ h, s.me.cont = some h → h.2 = v.toNat) := by
  have hv : v.toNat % 2 ^ 64 = v.toNat := Nat.mod_eq_of_lt v.isLt
  obtain rfl | rfl | rfl | hn : n = 0x07 ∨ n = 0x08 ∨ n = 0x0D ∨ n ∈ [0x09, 0x0A, 0x0B, 0x0C, 0x12, 0x13] := by
    simp only [specialReadOnly, Bool.or_eq_false_iff, Bool.and_eq_false_iff, decide_eq_false_iff_not] at hr
    simp only [List.mem_cons, List.not_mem_nil, or_false]
    omega
  case inl =>
    have halone := ha (.inl rfl)
    refine State.wroteSpecial_writeWide (g := fun tl => { tl with trapBase := v }) (fun _ => rfl) halone ?_ (fun h => absurd rfl h) (fun _ => ?_)
    · show ((s.writeWide _).trapBaseOf s.cur.1 s.cur.2).toNat = _
      rw [(State.wide_writeWide (fun _ => rfl) halone.kept_ctx _).1, if_pos rfl]
      exact hv.symm
    · rw [s.tile_keepOld]
  case inr.inl =>
    have h := s.wroteSpecial_trapPc v
    exact ⟨h.value.trans hv.symm, h.others, h.regs, h.wide, fun hk => h.memory (hk rfl), h.pc⟩
  case inr.inr.inl =>
    have halone := ha (.inr rfl)
    refine State.wroteSpecial_writeWide (g := fun tl => { tl with budget := Nat.min v.toNat (s.budgetCeil s.myPart) }) (fun _ => rfl) halone ?_ (fun _ => ?_)
      (fun h => absurd rfl h)
    · show (s.writeWide _).budgetOf s.cur.1 s.cur.2 = _
      rw [(State.wide_writeWide (fun _ => rfl) halone.kept_ctx _).2, if_pos rfl]
      rfl
    · rw [s.tile_keepOld]
  case inr.inr.inr => exact State.wroteSpecial_own v hn _

/-- Settles O10: the registers of R17 by what holds them; the traps by WRS's two checks. -/
theorem wrsWritesOneSpecialRegisterOrTraps : Obligations.WrsWritesOneSpecialRegisterOrTraps := by
  unfold Obligations.WrsWritesOneSpecialRegisterOrTraps
  refine ⟨fun s n a h7 h13 hr ht hb ha => ?_, fun s n a => ⟨fun hn => ?_, fun h7 hB ht => ?_, fun hb => ?_⟩⟩
  · have hw := State.wroteSpecial_putSpecial (s.getX a) h7 h13 hr ha
    refine ⟨_, exec_wrs_of_writable hr ht hb, ?_, fun k hk => ?_, fun k => ?_, fun c hc => ?_, fun hk => ?_, ?_⟩
    · exact (State.WroteSpecial.special_advance _ _).trans hw.value
    · exact (State.WroteSpecial.special_advance _ _).trans (hw.others k hk)
    · simpa only [State.getX_advance, State.getF_advance, State.getB_advance, State.getP_advance] using hw.regs k
    · have h := hw.wide c hc
      exact ⟨(State.trapBaseOf_modMe ..).trans h.1, (State.budgetOf_modMe ..).trans h.2⟩
    · exact (hw.memory hk).trans (.modMe _ _)
    · rw [State.pc_advance, hw.pc]
  · rw [exec_wrs, execWrs, if_pos]
    simp only [specialReadOnly, Bool.or_eq_true, Bool.and_eq_true, decide_eq_true_eq]
    exact .inl hn
  · rw [exec_wrs, execWrs, if_pos]
    simp [specialTrapOnly, h7, hB, ht]
  · rw [exec_wrs, execWrs, if_neg (by simp [specialReadOnly, specialTrapOnly]), if_pos]
    simpa using hb

end Sys2Proof.Machine
end

section
/-! The state after bring-up (R17, R376, R377). -/

namespace Sys2Proof.Machine

theorem readBytes_nil (a n : Nat) : readBytes [] a n = List.replicate n 0#8 := by simp [readBytes, readByte, mget, mfind]

theorem ofBytes_replicate_zero (n : Nat) : ofBytes (List.replicate n 0#8) = 0 := by
  induction n with
  | zero => rfl
  | succ n ih => simp only [List.replicate_succ, ofBytes, ih, BitVec.toNat_ofNat, Nat.zero_mod, Nat.mul_zero]

/-- An empty store reads 0 and carries no poison. -/
theorem Store.read_empty (a n : Nat) : Store.empty.read a n = 0 := by
  rw [Store.read, Store.empty, readBytes_nil, ofBytes_replicate_zero]

theorem Store.poisoned_empty (a n : Nat) : Store.empty.poisoned a n = false := by
  simp [Store.poisoned, Store.empty]

/-- Settles O40: every keyed list is empty, so each part of the machine reads as its bring-up value; the first clock is computed. -/
theorem resetState : Obligations.ResetState := by
  unfold Obligations.ResetState
  have hstore : ∀ h : Home, h.isLost = false → (State.reset.homeStore h).1 = Store.empty := fun h hl => by
    cases h with
    | lost _ => cases hl
    | _ => rfl
  refine ⟨rfl, fun d => ⟨rfl, rfl⟩, fun t => ⟨rfl, fun c => ⟨rfl, rfl⟩⟩, fun p => ⟨rfl, rfl⟩, fun h n hl => ⟨?_, ?_⟩, _, rfl, by decide⟩
  · rw [State.readHome, hstore h hl, Store.read_empty]
  · cases h with
    | lost _ => cases hl
    | _ => exact Store.poisoned_empty _ n

end Sys2Proof.Machine
end

section
/-! The issue slot (R15, R16, R71, R72, R77, R124): when a fetch waits, faults or has its words, and what a slot does with each. -/

namespace Sys2Proof.Machine

/-! Poison of a range is poison of its words. -/

theorem mem_unitsOf {a n u : Nat} : u ∈ unitsOf a n ↔ 0 < n ∧ a / 16 ≤ u ∧ u ≤ (a + n - 1) / 16 := by
  unfold unitsOf
  split
  · simp; omega
  · simp only [List.mem_map, List.mem_range]
    constructor
    · rintro ⟨k, hk, rfl⟩
      omega
    · rintro ⟨-, h1, h2⟩
      exact ⟨u - a / 16, by omega, by omega⟩

/-- A range in a range without poison has none. -/
theorem Store.poisoned_sub {m : Store} {a n b k : Nat} (h : m.poisoned a n = false) (ha : a ≤ b) (hb : b + k ≤ a + n) : m.poisoned b k = false := by
  simp only [Store.poisoned, List.any_eq_false] at h ⊢
  intro u hu
  rw [mem_unitsOf] at hu
  exact h u (mem_unitsOf.2 (by omega))

/-! Fetching words. -/

/-- Nothing keeps the word at a from being read. -/
def State.WordReady (s : State) (t c a : Nat) : Prop :=
  a % 8 = 0 ∧ a < 0x300000 ∧ s.wordHeld t c a = false ∧ (s.tile t).store.poisoned a 8 = false

theorem Tile.wordFault_misaligned (tl : Tile) {a : Nat} (h : a % 8 ≠ 0) : tl.wordFault a = some 0x05 := if_pos h

theorem Tile.wordFault_outside (tl : Tile) {a : Nat} (h : a % 8 = 0) (hr : 0x300000 ≤ a) : tl.wordFault a = some 0x04 := by
  rw [Tile.wordFault, if_neg (not_not.2 h), if_pos (show tileStoreSize ≤ a from hr)]

theorem Tile.wordFault_inside (tl : Tile) {a : Nat} (h : a % 8 = 0) (hr : a < 0x300000) :
    tl.wordFault a = if tl.store.poisoned a 8 = true then some 0x07 else none := by
  rw [Tile.wordFault, if_neg (not_not.2 h), if_neg (show ¬ tileStoreSize ≤ a from Nat.not_le.2 hr)]

/-- A word that a write in flight holds makes the fetch wait. -/
theorem State.wordsStop_of_held {s : State} {t c a n : Nat} (ha : a % 8 = 0) (hr : a < 0x300000) (hw : s.wordHeld t c a = true) :
    s.wordsStop t c a (n + 1) = some .stall := by
  rw [State.wordsStop, if_pos ⟨ha, hr, hw⟩]

/-- A word that faults stops the fetch there. -/
theorem State.wordsStop_of_fault {s : State} {t c a n cause : Nat} (hw : ¬ (a % 8 = 0 ∧ a < 0x300000 ∧ s.wordHeld t c a = true))
    (hf : (s.tile t).wordFault a = some cause) : s.wordsStop t c a (n + 1) = some (.fault cause a) := by
  rw [State.wordsStop, if_neg (show ¬ (a % 8 = 0 ∧ a < tileStoreSize ∧ _) from hw), hf]

/-- Words that are ready are fetched. -/
theorem State.wordsStop_of_ready {s : State} {t c n : Nat} : ∀ {a : Nat}, (∀ k, k < n → s.WordReady t c (a + 8 * k)) → s.wordsStop t c a n = none := by
  induction n with
  | zero => exact fun _ => rfl
  | succ n ih =>
    intro a h
    obtain ⟨h8, hr, hw, hp⟩ := h 0 (by omega)
    simp only [Nat.mul_zero, Nat.add_zero] at h8 hr hw hp
    have hrest : s.wordsStop t c (a + 8) n = none := ih fun k hk => by
      have := h (k + 1) (by omega)
      rwa [Nat.mul_add, Nat.mul_one, Nat.add_comm (8 * k) 8, ← Nat.add_assoc] at this
    rw [State.wordsStop, if_neg (by simp [hw]), (s.tile t).wordFault_inside h8 hr, if_neg (by simp [hp])]
    exact hrest

/-- The header and the words behind it, as a fetch asks for them. -/
theorem State.wordsStop_of_words {s : State} {t c a n : Nat} (h : ∀ k, k < 1 + n → s.WordReady t c (a + 8 * k)) :
    s.wordsStop t c a 1 = none ∧ s.wordsStop t c (a + 8) (1 + n - 1) = none := by
  refine ⟨State.wordsStop_of_ready fun k hk => h k (by omega), State.wordsStop_of_ready fun k hk => ?_⟩
  have := h (k + 1) (by omega)
  rwa [Nat.mul_add, Nat.mul_one, Nat.add_comm (8 * k) 8, ← Nat.add_assoc] at this

/-- The words of a range inside the store that is aligned, carries no poison and is not being written. -/
theorem State.wordReady_of_range {s : State} {t c pc n k : Nat} (h8 : pc % 8 = 0) (hr : pc + 8 * n ≤ 0x300000)
    (hp : (s.tile t).store.poisoned pc (8 * n) = false) (hw : ∀ k, k < n → s.wordHeld t c (pc + 8 * k) = false) (hk : k < n) :
    s.WordReady t c (pc + 8 * k) :=
  ⟨by omega, by omega, hw k hk, Store.poisoned_sub hp (by omega) (by omega)⟩

section
variable {s : State} {t c : Nat}

/-- A fence of tile scope or wider holds the fetch back. -/
theorem State.fetch_of_fetchHeld (h : (s.ctx t c).fetchHeld = true) : s.fetch t c = .stall := if_pos h

/-- The first word stops the fetch. -/
theorem State.fetch_of_stop {e : Fetched} (h : (s.ctx t c).fetchHeld = false) (he : s.wordsStop t c (s.ctx t c).regs.pc.toNat 1 = some e) :
    s.fetch t c = e := by
  unfold State.fetch
  dsimp only
  rw [if_neg (by simp [h]), he]

variable (h : (s.ctx t c).fetchHeld = false)
  (hw : ∀ k, k < 1 + extCount ((s.tile t).word (s.ctx t c).regs.pc.toNat) → s.WordReady t c ((s.ctx t c).regs.pc.toNat + 8 * k))
include h hw

/-- All words are there, and they decode. -/
theorem State.fetch_of_decodes {i : Instr}
    (hd : decode ((s.tile t).wordsAt (s.ctx t c).regs.pc.toNat (1 + extCount ((s.tile t).word (s.ctx t c).regs.pc.toNat))) = .ok i) :
    s.fetch t c = .instr i := by
  obtain ⟨hfirst, hrest⟩ := State.wordsStop_of_words hw
  simp only [State.fetch, h, Bool.false_eq_true, if_false, hfirst, hrest, hd]

/-- All words are there, and they do not decode. -/
theorem State.fetch_of_rejects {b : Bad}
    (hd : decode ((s.tile t).wordsAt (s.ctx t c).regs.pc.toNat (1 + extCount ((s.tile t).word (s.ctx t c).regs.pc.toNat))) = .error b) :
    s.fetch t c = .bad b.why.cause ((s.ctx t c).regs.pc.toNat + 8 * b.word) ((s.tile t).word ((s.ctx t c).regs.pc.toNat + 8 * b.word)) := by
  obtain ⟨hfirst, hrest⟩ := State.wordsStop_of_words hw
  simp only [State.fetch, h, Bool.false_eq_true, if_false, hfirst, hrest, hd]

end

/-! The issue slot. -/

theorem Ctx.canIssue_iff {x : Ctx} : x.canIssue = true ↔ x.task.isSome = true ∧ x.halted = false ∧ x.wait = none ∧ x.arriving = none := by
  simp [Ctx.canIssue, and_assoc]

/-- The context of the slot can issue, and neither a kill nor a deferred trap is due (R16, R266, R271). -/
def State.MayIssue (s : State) : Prop := s.me.canIssue = true ∧ s.killDue s.cur.1 s.cur.2 = false ∧ s.me.trapDue = false

section
variable {s : State} (h : s.MayIssue)
include h

theorem State.MayIssue.stall (hf : s.fetch s.cur.1 s.cur.2 = .stall) : issueSlot s = .next s := by
  obtain ⟨hi, hk, hd⟩ := h
  simp only [issueSlot, hi, hk, hd, hf, Bool.not_true, Bool.false_eq_true, if_false]

theorem State.MayIssue.bad {cause addr word : Nat} (hf : s.fetch s.cur.1 s.cur.2 = .bad cause addr word) :
    issueSlot s = .next (s.issued.trapNow cause addr word) := by
  obtain ⟨hi, hk, hd⟩ := h
  simp only [issueSlot, hi, hk, hd, hf, Bool.not_true, Bool.false_eq_true, if_false]

theorem State.MayIssue.instr {i : Instr} (hf : s.fetch s.cur.1 s.cur.2 = .instr i) (hs : s.stalled i = false) :
    issueSlot s = exec i (s.issued.chargeIssue i) := by
  obtain ⟨hi, hk, hd⟩ := h
  simp only [issueSlot, hi, hk, hd, hf, hs, Bool.not_true, Bool.false_eq_true, if_false]

theorem State.MayIssue.fault {cause addr : Nat} (hf : s.fetch s.cur.1 s.cur.2 = .fault cause addr) :
    issueSlot s = exec (.fetchFault s.cur.1 s.cur.2) s := by
  obtain ⟨hi, hk, hd⟩ := h
  simp only [issueSlot, hi, hk, hd, hf, Bool.not_true, Bool.false_eq_true, if_false]

end

/-- TRAPAUX of a fetch fault: the address of the last instruction, all ones when there is none (R124). -/
def Ctx.lastAddr (x : Ctx) : Nat := match x.lastPc with | some p => p.toNat | none => 2 ^ 64 - 1

/-- A fetch fault traps at the pc. -/
theorem exec_fetchFault_of_fault {s : State} {cause addr : Nat} (hi : s.me.canIssue = true) (hf : s.fetch s.cur.1 s.cur.2 = .fault cause addr) :
    exec (.fetchFault s.cur.1 s.cur.2) s = .next (s.trapNow cause addr s.me.lastAddr) := by
  have hi : (s.ctx s.cur.1 s.cur.2).canIssue = true := hi
  simp only [exec_fetchFault, execFetchFault, hi, hf, Bool.not_true, Bool.false_eq_true, if_false]
  rfl

/-- A step that is an issue slot. -/
theorem step_issue {s : State} {t c : Nat} {rest : List Act} (hp : s.powered = true) (ha : s.agenda = .issue t c :: rest) :
    step s = issueSlot { s with agenda := rest, cur := (t, c) } := by
  rw [step_cons ha]
  exact if_pos hp

/-! What the charge around an instruction leaves alone. -/

theorem State.SameMemory.work (s : State) (t cls n : Nat) (ex : Bool) : s.SameMemory (s.work t cls n ex) := by
  have charge : ∀ w, s.SameMemory (if w = 0 then s else s.modTile t fun tl =>
      { tl with charges := match tl.charges with | c :: l => (c + w) :: l | [] => [w] }) := fun w => by
    split
    · exact .refl s
    · exact .modTile s t _ (fun _ => rfl) (fun _ => rfl)
  unfold State.work
  dsimp only
  split
  · exact charge _
  · exact (charge _).trans (.modPart _ _ _)

theorem State.me_work (s : State) (t cls n : Nat) (ex : Bool) : (s.work t cls n ex).me = s.me := by
  have charge : ∀ w, (if w = 0 then s else s.modTile t fun tl =>
      { tl with charges := match tl.charges with | c :: l => (c + w) :: l | [] => [w] }).me = s.me := fun w => by
    split
    · rfl
    · by_cases ht : s.cur.1 = t
      · subst ht
        simp [State.me, State.ctx, Tile.ctx]
      · simp [State.me, State.ctx, State.tile_modTile_ne s ht]
  unfold State.work
  dsimp only
  split
  · exact charge _
  · exact charge _

/-- The charge changes nothing of the issuing context but what is in flight. -/
theorem State.me_chargeIssue (s : State) (i : Instr) : (s.chargeIssue i).me = { s.me with busy := (s.chargeIssue i).me.busy } := by
  have h : (s.chargeIssue i).me = (s.inFlight i).me := (State.me_work ..).trans (State.me_modMyTile ..)
  rw [h, State.inFlight, State.me_modMe]

theorem State.SameMemory.chargeIssue (s : State) (i : Instr) : s.SameMemory (s.chargeIssue i) := by
  unfold State.chargeIssue
  refine State.SameMemory.trans ?_ (.work _ _ _ _ _)
  exact (State.SameMemory.modMe s _).trans (.modTile (s.inFlight i) _ _ (fun _ => rfl) fun _ => rfl)

/-- What a context is before its instruction executes: its address noted, what is in flight counted. -/
theorem State.me_issued_chargeIssue (s : State) (i : Instr) :
    (s.issued.chargeIssue i).me = { s.me with lastPc := some s.pc, age := 0, busy := (s.issued.chargeIssue i).me.busy } := by
  rw [State.me_chargeIssue, State.issued, State.me_modMe]
  rfl

/-- Settles O38: the fetch has the words, and they decode. -/
theorem stepRunsTheDecodedInstruction : Obligations.StepRunsTheDecodedInstruction := by
  unfold Obligations.StepRunsTheDecodedInstruction
  intro s t c rest i s0 x tl pc n hpow hag htask hhalt hwait harr hcond hdef hheld h8 hr hp hw hdec hst
  have hmay : s0.MayIssue := by
    refine ⟨Ctx.canIssue_iff.2 ⟨htask, hhalt, hwait, harr⟩, ?_, hdef⟩
    show (x.task.isSome && !x.trap && s.condemned t c) = false
    rcases hcond with e | e <;> simp [e]
  have hf : s0.fetch t c = .instr i := State.fetch_of_decodes (s := s0) hheld (fun k hk => State.wordReady_of_range h8 hr hp hw hk) hdec
  have hme := s0.me_issued_chargeIssue i
  refine ⟨_, (step_issue hpow hag).trans (hmay.instr hf hst), rfl, ?_, ?_, fun r => ?_, ?_⟩
  · rw [State.pc, hme]
    rfl
  · rw [hme]
  · simp only [State.getX, State.getF, State.getB, State.getP, Ctx.getX, Ctx.getF, Ctx.getB, Ctx.getP]
    rw [hme]
    exact ⟨rfl, rfl, rfl, rfl⟩
  · exact (State.SameMemory.modMe s0 _).trans (.chargeIssue _ i)

/-- Settles O39: each hypothesis says what the fetch answers, and the slot acts on that. -/
theorem fetchAndEncodingTraps : Obligations.FetchAndEncodingTraps := by
  unfold Obligations.FetchAndEncodingTraps
  intro s t c rest s0 x tl pc n aux hpow hag htask hhalt hwait harr hcond hdef htrap
  have hmay : s0.MayIssue := by
    refine ⟨Ctx.canIssue_iff.2 ⟨htask, hhalt, hwait, harr⟩, ?_, ?_⟩
    · show (_ && s.condemned t c) = false
      rw [hcond, Bool.and_false]
    · show x.trapDue = false
      simp [Ctx.trapDue, show x.trap = false from htrap.1, hdef]
  have hstep := step_issue hpow hag
  have fault : ∀ {cause : Nat}, x.fetchHeld = false → s0.wordsStop t c pc 1 = some (.fault cause pc) →
      step s = .next (s0.entered cause pc aux) ∧ exec (.fetchFault t c) s0 = .next (s0.entered cause pc aux) := fun {cause} hh hw => by
    have hf := State.fetch_of_stop (s := s0) hh hw
    have he := exec_fetchFault_of_fault hmay.1 hf
    rw [State.trapNow_of_canTrap _ _ _ htrap] at he
    exact ⟨hstep.trans ((hmay.fault hf).trans he), he⟩
  refine ⟨fun hh => ?_, fun hh h8 hr hw => ?_, fun hh h8 => ?_, fun hh h8 hr => ?_, fun hh h8 hr hw hp => ?_, fun b hh h8 hr hp hw hdec => ?_⟩
  · exact hstep.trans (hmay.stall (State.fetch_of_fetchHeld hh))
  · exact hstep.trans (hmay.stall (State.fetch_of_stop hh (State.wordsStop_of_held h8 hr hw)))
  · exact fault hh (State.wordsStop_of_fault (fun e => h8 e.1) (tl.wordFault_misaligned h8))
  · exact (fault hh (State.wordsStop_of_fault (fun e => absurd e.2.1 (Nat.not_lt.2 hr)) (tl.wordFault_outside h8 hr))).1
  · refine (fault hh (State.wordsStop_of_fault (fun e => ?_) ((tl.wordFault_inside h8 hr).trans (if_pos hp)))).1
    exact absurd (hw.symm.trans e.2.2) (by decide)
  · have hf : s0.fetch t c = .bad b.why.cause (pc + 8 * b.word) (tl.word (pc + 8 * b.word)) :=
      State.fetch_of_rejects (s := s0) hh (fun k hk => State.wordReady_of_range h8 hr hp hw hk) hdec
    rw [hstep, hmay.bad hf, State.trapNow_of_canTrap _ _ _ ?_]
    · rfl
    · obtain ⟨ht, hb8, hbr⟩ := htrap
      unfold State.CanTrap State.issued
      rw [State.me_modMe, State.trapBaseOf_modMe]
      exact ⟨ht, hb8, hbr⟩

end Sys2Proof.Machine
end

section
/-! Barrier instructions (R33, R154, R267). -/

namespace Sys2Proof.Machine

/-! A waiting instruction. -/

theorem State.waitPoint_of_spared {s : State} (h : s.Spared) (k : State) : s.waitPoint k = k := by
  refine if_neg fun e => ?_
  obtain ⟨ht, hc⟩ := Bool.and_eq_true_iff.1 e
  rcases h with h | h
  · exact Bool.false_ne_true (h.symm.trans ht)
  · exact Bool.false_ne_true (h.symm.trans hc)

theorem State.waitPoint_of_condemned {s : State} (ht : s.me.trap = true) (hc : s.condemned s.cur.1 s.cur.2 = true) (k : State) :
    s.waitPoint k = s.killTask s.cur.1 s.cur.2 := if_pos (by simp [ht, hc])

theorem State.CanTrap.spared {s : State} (h : s.CanTrap) : s.Spared := .inl h.1

/-! The checks of R154. -/

theorem State.barrierSlot_of_invalid {s : State} {t g l : Nat} (hl : (s.tile t).lid = some l) (h : mfind g (s.launch l).groups = none) :
    s.barrierSlot t g = .error 0x04 := by
  simp [State.barrierSlot, hl, h]

theorem State.barrierSlot_of_stranger {s : State} {t g l : Nat} (hl : (s.tile t).lid = some l) (h : (mfind g (s.launch l).groups).isSome = true)
    (hs : (s.tile t).slotOfGroup g = none) : s.barrierSlot t g = .error 0x0A := by
  have hn : (mfind g (s.launch l).groups).isNone = false := by simpa [Option.isNone_iff_eq_none, Option.isSome_iff_ne_none] using h
  simp [State.barrierSlot, hl, hn, hs]

@[simp] theorem State.myLid_modMe (s : State) (f : Ctx → Ctx) : (s.modMe f).myLid = s.myLid := by
  simp only [State.myLid, State.lid_myTile_modMe]

/-- An arrival of a member. -/
theorem State.arrive_of_member {s : State} {g k : Nat} (h : s.barrierSlot s.cur.1 g = .ok k) (d : Nat) (w : Bool) :
    s.arrive d g w = { s.modMe fun c => { c with arriving := some ⟨d, g, (s.myTile.latchOf k).1, w, none⟩ } with
      arrivals := s.arrivals ++ [⟨s.myLid, g, (s.myTile.latchOf k).1, s.cur.1, s.cur.2, s.me.serial⟩] } := by
  simp only [State.arrive, h, State.me_modMe, State.myLid_modMe, State.arrivals_modMe, State.cur_modMe]

/-- What fails the checks traps with its cause, whichever of the four instructions it is. -/
theorem exec_barrier_of_error {s : State} {g cause : Nat} (ht : s.CanTrap) (h : s.barrierSlot s.cur.1 g = .error cause) (d a : Nat) :
    ∀ i ∈ [Instr.arrive d g, .arrwait d g, .wait d a g, .gquery d g], exec i s = .next (s.entered cause g 0) := by
  have he : s.trapNow cause g 0 = s.entered cause g 0 := s.trapNow_of_canTrap _ _ _ ht
  have ha : ∀ w, s.arrive d g w = s.entered cause g 0 := fun w => by simp only [State.arrive, h, he]
  intro i hi
  simp only [List.mem_cons, List.not_mem_nil, or_false] at hi
  rcases hi with rfl | rfl | rfl | rfl
  · rw [exec_arrive, execArrive, ha]
  · rw [exec_arrwait, execArrwait, State.waitPoint_of_spared ht.spared, ha]
  · rw [exec_wait, execWait, State.waitPoint_of_spared ht.spared]
    simp only [h, he]
  · rw [exec_gquery, execGquery]
    simp only [h, he]

/-- Settles O22: the slot decides, and a kill that is due comes before it. -/
theorem barrierInstructions : Obligations.BarrierInstructions := by
  unfold Obligations.BarrierInstructions
  refine ⟨fun s d a g k hk => ⟨⟨?_, fun hsp => ?_⟩, ⟨fun st hsp hr hst => ?_, fun hsp hst => ?_⟩, fun ht hc => ⟨?_, ?_⟩, ?_⟩,
    fun s d a g l ht hl => ⟨fun hg => ?_, fun hg hs => ?_⟩⟩
  · rw [exec_arrive, execArrive, State.arrive_of_member hk]
  · rw [exec_arrwait, execArrwait, State.waitPoint_of_spared hsp, State.arrive_of_member hk]
  · rw [exec_wait, execWait, State.waitPoint_of_spared hsp]
    simp only [hk, hr, if_true]
    rw [show zext (s.nx a) 32 = s.nx a % 2 ^ 32 from rfl, hst]
  · rw [exec_wait, execWait, State.waitPoint_of_spared hsp]
    simp only [hk]
    rw [show zext (s.nx a) 32 = s.nx a % 2 ^ 32 from rfl, hst, ite_self]
  · rw [exec_arrwait, execArrwait, State.waitPoint_of_condemned ht hc]
  · rw [exec_wait, execWait, State.waitPoint_of_condemned ht hc]
  · rw [exec_gquery, execGquery]
    simp only [hk]
  · exact exec_barrier_of_error ht (State.barrierSlot_of_invalid hl hg) d a
  · exact exec_barrier_of_error ht (State.barrierSlot_of_stranger hl hg hs) d a

end Sys2Proof.Machine
end

section
/-! What the memory edge may do beside an access (R302, R309, R310, R367, R380, R381), said once: every part of it is a step that changes only
what is listed here, and such steps compose. -/

namespace Sys2Proof.Machine

/-- No page of a partition migrates. -/
def State.Jobless (s : State) : Prop := ∀ e ∈ s.parts, e.2.job = none

/-- Partition `q` after the memory edge has worked on `p`: meters, the job of a migration and the state of the fault ring apart, nothing differs. -/
def Partition.EdgeOnly (p q : Partition) : Prop :=
  q = { p with partial_ := q.partial_, job := q.job, dropped := q.dropped, rhead := q.rhead }

/-- The memory edge has worked: what `State.EdgeOnly` says, and of the dies only caches and stamps, of the partitions only what
`Partition.EdgeOnly` lets go, device memory only where a page migrates, the host's only with a record in Clasp's log. -/
structure State.EdgeStep (s t : State) : Prop where
  only : s.EdgeOnly t
  die : ∀ d, t.die d = { s.die d with cache := (t.die d).cache, stamp := (t.die d).stamp }
  part : ∀ p, (s.part p).EdgeOnly (t.part p)
  runs : t.clasp.runs = s.clasp.runs
  log : s.clasp.log <+: t.clasp.log
  host : t.clasp.log = s.clasp.log → t.host = s.host
  dev : s.Jobless → t.dev = s.dev ∧ t.Jobless

theorem State.EdgeOnly.refl (s : State) : s.EdgeOnly s := rfl

theorem State.EdgeOnly.trans {s t u : State} (h1 : s.EdgeOnly t) (h2 : t.EdgeOnly u) : s.EdgeOnly u := by
  unfold State.EdgeOnly at h1 h2 ⊢
  refine h2.trans ?_
  rw [h1]

theorem State.EdgeStep.refl (s : State) : s.EdgeStep s :=
  ⟨.refl s, fun _ => rfl, fun _ => rfl, rfl, List.prefix_rfl, fun _ => rfl, fun h => ⟨rfl, h⟩⟩

theorem State.EdgeStep.trans {s t u : State} (h1 : s.EdgeStep t) (h2 : t.EdgeStep u) : s.EdgeStep u where
  only := h1.only.trans h2.only
  die d := by rw [h2.die, h1.die]
  part p := by
    have e1 := h1.part p
    have e2 := h2.part p
    unfold Partition.EdgeOnly at e1 e2 ⊢
    refine e2.trans ?_
    rw [e1]
  runs := h2.runs.trans h1.runs
  log := h1.log.trans h2.log
  host e := by
    have hl : t.clasp.log = s.clasp.log := (h1.log.eq_of_length_le (by rw [← e]; exact h2.log.length_le)).symm
    rw [h2.host (e.trans hl.symm), h1.host hl]
  dev h := by
    obtain ⟨e1, h⟩ := h1.dev h
    obtain ⟨e2, h⟩ := h2.dev h
    exact ⟨e2.trans e1, h⟩

/-! The parts of the edge. -/

/-- A record for the fault ring changes the host's memory and the ring's counts. -/
theorem State.ringRecord_eq (s : State) (p r : Nat) : ∃ m f, s.ringRecord p r = { s.modPart p f with host := m } ∧ (∀ q, Partition.EdgeOnly q (f q))
    ∧ ∀ q, q.job = none → (f q).job = none := by
  unfold State.ringRecord
  dsimp only
  split
  · exact ⟨s.host, fun q => { q with dropped := (q.dropped + 1) % 2 ^ 64 }, rfl, fun _ => rfl, fun _ e => e⟩
  · exact ⟨_, fun q => { q with rhead := (q.rhead + 1) % 2 ^ 64 }, rfl, fun _ => rfl, fun _ e => e⟩

section
variable {s u : State} (h : s.EdgeStep u)
include h

theorem State.EdgeStep.modDie {d : Nat} {f : Die → Die} (hf : ∀ x : Die, f x = { x with cache := (f x).cache, stamp := (f x).stamp }) :
    s.EdgeStep (u.modDie d f) := by
  refine h.trans ⟨rfl, fun k => ?_, fun _ => rfl, rfl, List.prefix_rfl, fun _ => rfl, fun hj => ⟨rfl, hj⟩⟩
  by_cases hk : k = d
  · subst hk
    rw [State.die_modDie]
    exact hf _
  · rw [State.die_modDie_ne u hk]

theorem State.EdgeStep.modPart {p : Nat} {f : Partition → Partition} (hf : ∀ q, Partition.EdgeOnly q (f q)) (hj : ∀ q, q.job = none → (f q).job = none) :
    s.EdgeStep (u.modPart p f) := by
  refine h.trans ⟨rfl, fun _ => rfl, fun k => ?_, rfl, List.prefix_rfl, fun _ => rfl, fun hn => ⟨rfl, ?_⟩⟩
  · by_cases hk : k = p
    · subst hk
      rw [State.part_modPart]
      exact hf _
    · rw [State.part_modPart_ne u hk]
      rfl
  · refine all_mput (P := fun q : Partition => q.job = none) hn (hj _ ?_)
    exact mget_of_all (P := fun q : Partition => q.job = none) rfl hn p

theorem State.EdgeStep.modLink {k : Nat} {f : Link → Link} : s.EdgeStep (u.modLink k f) :=
  h.trans ⟨rfl, fun _ => rfl, fun _ => rfl, rfl, List.prefix_rfl, fun _ => rfl, fun hj => ⟨rfl, hj⟩⟩

theorem State.EdgeStep.nextFree : s.EdgeStep { u with free := u.free + 1 } :=
  h.trans ⟨rfl, fun _ => rfl, fun _ => rfl, rfl, List.prefix_rfl, fun _ => rfl, fun hj => ⟨rfl, hj⟩⟩

theorem State.EdgeStep.ite {v : State} {c : Prop} [Decidable c] (hv : s.EdgeStep v) : s.EdgeStep (if c then u else v) := by
  split
  · exact h
  · exact hv

theorem State.EdgeStep.meter (p m n : Nat) : s.EdgeStep (u.meter p m n) := h.modPart (fun _ => rfl) fun _ e => e

theorem State.EdgeStep.meterDev (p : Nat) (g : Home) (n : Nat) (wr : Bool) : s.EdgeStep (u.meterDev p g n wr) := by
  unfold State.meterDev
  split
  · split
    · exact h.modPart (fun _ => rfl) fun _ e => e
    · exact h
  · exact h

theorem State.EdgeStep.delivered (a b : Nat) : s.EdgeStep (u.delivered a b) := by
  unfold State.delivered
  split
  · exact h
  · exact .ite h h.modLink

theorem State.EdgeStep.stamped (d k : Nat) : s.EdgeStep (u.modDie d fun x => { x with stamp := max x.stamp k }) := h.modDie fun _ => rfl

theorem State.EdgeStep.message (p a b k : Nat) : s.EdgeStep (u.message p a b k) := by
  refine .ite h (State.EdgeStep.meter (State.EdgeStep.meter ?_ _ _ _) _ _ _)
  exact List.foldlRecOn (motive := fun x : State × Nat => s.EdgeStep x.1) _ _ h fun x hx e _ => (hx.delivered e.1 e.2).stamped e.2 x.2

theorem State.EdgeStep.roundTrip (p die : Nat) (g : Home) (n : Nat) (rd wr : Bool) : s.EdgeStep (u.roundTrip p die g n rd wr) :=
  .ite ((h.message _ _ _ _).message _ _ _ _) (h.message _ _ _ _)

theorem State.EdgeStep.fillCache (die p va : Nat) (rd wr : Bool) : s.EdgeStep (u.fillCache die p va rd wr) := by
  refine .ite h ?_
  split
  · exact h
  · exact h.modDie fun _ => rfl

theorem State.EdgeStep.writeDev {m : Store} (hj : ¬ u.Jobless) : s.EdgeStep { u with dev := m } :=
  h.trans ⟨rfl, fun _ => rfl, fun _ => rfl, rfl, List.prefix_rfl, fun _ => rfl, fun hn => absurd hn hj⟩

theorem State.EdgeStep.spliceBeat {p old b : Nat} {j : MapJob} (hj : (u.part p).job = some j) : s.EdgeStep (u.spliceBeat p j old b) := by
  have hn : ¬ u.Jobless := fun hn => by
    have hp : (u.part p).job = none := mget_of_all (P := fun q : Partition => q.job = none) rfl hn p
    exact absurd (hp.symm.trans hj) (by simp)
  unfold State.spliceBeat
  exact (h.writeDev hn).modPart (fun _ => rfl) fun q e => Option.map_eq_none_iff.2 e

theorem State.EdgeStep.fork (pa n : Nat) : s.EdgeStep (u.fork pa n) := by
  refine List.foldlRecOn (motive := fun x : State => s.EdgeStep x) _ _ h fun w hw e he => ?_
  split
  · exact hw
  · split
    · exact hw
    · refine List.foldlRecOn (motive := fun x : State => s.EdgeStep x) _ _ hw fun x hx y hy => ?_
      split
      · exact .ite hx (hx.spliceBeat ‹_›)
      · exact hx

/-- A record in Clasp's log lets the host's memory change. -/
theorem State.EdgeStep.logged {m : Map Store} {r : Nat} {l : List TestJob} :
    s.EdgeStep { u with host := m, clasp := { u.clasp with log := u.clasp.log ++ [[r]], tests := l } } :=
  h.trans ⟨rfl, fun _ => rfl, fun _ => rfl, rfl, List.prefix_append .., fun e => absurd e (by simp), fun hj => ⟨rfl, hj⟩⟩

theorem State.EdgeStep.detect (p die value code ukind label quarter index : Nat) :
    s.EdgeStep (u.detect (some p) die value code ukind label quarter index) := by
  unfold State.detect State.logRecord
  dsimp only
  generalize errRecord _ _ _ _ _ _ _ _ + _ = r
  obtain ⟨m, f, e, hf, hj⟩ := State.ringRecord_eq (u.modClasp fun c => { c with log := c.log ++ [[r]] }) p r
  rw [e]
  exact (h.modPart hf hj).logged

theorem State.EdgeStep.edgeTouch (v : Via) (p space va n : Nat) (g : Home) (rd wr : Bool) : s.EdgeStep (u.edgeTouch v p space va n g rd wr) := by
  have hf : s.EdgeStep (if space = 0 then u.fillCache v.die p va rd wr else u) := .ite (h.fillCache _ _ _ _ _) h
  unfold State.edgeTouch
  cases g with
  | lost pa => exact (hf.roundTrip ..).detect ..
  | dev pa =>
    have hr := (State.EdgeStep.ite (c := rd = true) (hf.fork pa n) hf).roundTrip p v.die (.dev pa) n rd wr
    exact .ite hr.nextFree hr
  | host q iova => exact hf.roundTrip ..
  | tile t off => exact hf
  | acc t off => exact hf
  | staging d off => exact hf

theorem State.EdgeStep.readRecordAt (die p va n : Nat) : s.EdgeStep (u.readRecordAt die p va n) := by
  unfold State.readRecordAt
  split
  · exact h.fillCache ..
  · exact (h.edgeTouch ..).meterDev ..

theorem State.EdgeStep.missed (cause va : Nat) (rd wr : Bool) : s.EdgeStep (u.missed cause va rd wr) := .ite (h.fillCache ..) h

end

/-! What such a step leaves alone. -/

section
variable {s t : State} (h : s.EdgeStep t)
include h

theorem State.EdgeStep.tiles : t.tiles = s.tiles := by rw [h.only]
theorem State.EdgeStep.launches : t.launches = s.launches := by rw [h.only]
theorem State.EdgeStep.cur : t.cur = s.cur := by rw [h.only]

theorem State.EdgeStep.tile (k : Nat) : t.tile k = s.tile k := by rw [State.tile, h.tiles, State.tile]
theorem State.EdgeStep.launch (k : Nat) : t.launch k = s.launch k := by rw [State.launch, h.launches, State.launch]
theorem State.EdgeStep.ctx (k c : Nat) : t.ctx k c = s.ctx k c := by rw [State.ctx, h.tile, State.ctx]
theorem State.EdgeStep.me : t.me = s.me := by rw [State.me, h.cur, h.ctx, State.me]
theorem State.EdgeStep.pc : t.pc = s.pc := by rw [State.pc, h.me, State.pc]
theorem State.EdgeStep.cycle (d : Nat) : (t.die d).cycle = (s.die d).cycle := by rw [h.die]

theorem State.EdgeStep.trapBaseOf (k c : Nat) : t.trapBaseOf k c = s.trapBaseOf k c := by
  unfold State.trapBaseOf
  rw [h.tile, h.cycle]

/-- A context that can trap still can. -/
theorem State.EdgeStep.canTrap (hc : s.CanTrap) : t.CanTrap := by
  unfold State.CanTrap at hc ⊢
  rwa [h.me, h.cur, h.trapBaseOf]

theorem State.EdgeStep.trapNow (hc : s.CanTrap) (cause addr aux : Nat) : t.trapNow cause addr aux = t.entered cause addr aux :=
  State.trapNow_of_canTrap _ _ _ (h.canTrap hc)

end

end Sys2Proof.Machine
end

section
/-! Checks of an access at issue (R28, R130, R135, R136, R139, R143, R146). -/

namespace Sys2Proof.Machine

theorem aligned_of {a n : Nat} (h : a % n = 0) : aligned a n = true := beq_iff_eq.2 h

theorem not_aligned_of {a n : Nat} (h : a % n ≠ 0) : aligned a n = false := beq_eq_false_iff_ne.2 h

/-! Which access each instruction issues. -/

theorem exec_of_mem_loadsOf {m : MemArgs} {sp : Nat} {i : Instr} (h : (sp, i) ∈ loadsOf m) (s : State) : exec i s = .next (s.load sp m) := by
  simp only [loadsOf, List.mem_cons, Prod.mk.injEq, List.not_mem_nil, or_false] at h
  rcases h with ⟨rfl, rfl⟩ | ⟨rfl, rfl⟩ | ⟨rfl, rfl⟩ | ⟨rfl, rfl⟩ | ⟨rfl, rfl⟩ <;> rfl

theorem exec_of_mem_storesOf {m : MemArgs} {sp : Nat} {i : Instr} (h : (sp, i) ∈ storesOf m) (s : State) : exec i s = .next (s.store sp m) := by
  simp only [storesOf, List.mem_cons, Prod.mk.injEq, List.not_mem_nil, or_false] at h
  rcases h with ⟨rfl, rfl⟩ | ⟨rfl, rfl⟩ | ⟨rfl, rfl⟩ | ⟨rfl, rfl⟩ | ⟨rfl, rfl⟩ <;> rfl

theorem exec_of_mem_atomicsOf {k : AmoArgs} {sp : Nat} {i : Instr} (h : (sp, i) ∈ atomicsOf k) (s : State) : exec i s = .next (s.atomic sp k) := by
  simp only [atomicsOf, List.mem_cons, Prod.mk.injEq, List.not_mem_nil, or_false] at h
  rcases h with ⟨rfl, rfl⟩ | ⟨rfl, rfl⟩ | ⟨rfl, rfl⟩ <;> rfl

/-- What the memory edge does for the look that ends a CWAIT (R302, R310, R380). -/
theorem State.edgeStep_lookEnds (s : State) (t : Nat) (loc : Bool) (addr : Nat) : s.EdgeStep (s.lookEnds t loc addr) := by
  unfold State.lookEnds
  exact .ite (.refl s) ((State.EdgeStep.refl s).readRecordAt ..)

section
variable {s : State} (hc : s.CanTrap)
include hc

/-- A fault of translation traps behind the walk that found it (R302). -/
theorem State.trapNow_missed (cause addr aux va : Nat) (rd wr : Bool) :
    (s.missed cause va rd wr).trapNow cause addr aux = (s.missed cause va rd wr).entered cause addr aux :=
  ((State.EdgeStep.refl s).missed cause va rd wr).trapNow hc cause addr aux

/-! Loads. -/

theorem State.load_misaligned {sp : Nat} {m : MemArgs} (h : s.memAddr m % wopBytes m.w ≠ 0) : s.load sp m = s.entered 0x05 (s.memAddr m) 0 := by
  rw [State.load, if_pos (by simp [not_aligned_of h]), State.trapNow_of_canTrap _ _ _ hc]

theorem State.load_outside {sp : Nat} {m : MemArgs} (h : s.memAddr m % wopBytes m.w = 0)
    (hr : s.rangeOk s.cur.1 sp (s.memAddr m) (wopBytes m.w) = false) : s.load sp m = s.entered 0x04 (s.memAddr m) 0 := by
  rw [State.load, if_neg (by simp [aligned_of h]), if_pos (by simp [hr]), State.trapNow_of_canTrap _ _ _ hc]

/-! Stores. -/

theorem State.store_misaligned {sp : Nat} {m : MemArgs} (h : s.memAddr m % wopBytes m.w ≠ 0) : s.store sp m = s.entered 0x05 (s.memAddr m) 0 := by
  rw [State.store, if_pos (by simp [not_aligned_of h]), State.trapNow_of_canTrap _ _ _ hc]

theorem State.store_refused {sp cause aux : Nat} {m : MemArgs} (h : s.memAddr m % wopBytes m.w = 0)
    (hr : s.resolve s.cur.1 sp (s.memAddr m) (wopBytes m.w) false true = .error (cause, aux)) :
    s.store sp m = (s.missed cause (s.memAddr m) false true).entered cause (s.memAddr m) aux := by
  rw [State.store, if_neg (by simp [aligned_of h]), hr]
  exact State.trapNow_missed hc ..

theorem State.storeRemote_misaligned {m : MemArgs} (h : s.memAddr m % wopBytes m.w ≠ 0) : s.storeRemote m = s.entered 0x05 (s.memAddr m) 0 := by
  rw [State.storeRemote, if_pos (by simp [not_aligned_of h]), State.trapNow_of_canTrap _ _ _ hc]

theorem State.storeRemote_refused {cause aux : Nat} {m : MemArgs} (h : s.memAddr m % wopBytes m.w = 0)
    (hr : s.resolve s.cur.1 2 (s.memAddr m) (wopBytes m.w) false true = .error (cause, aux)) :
    s.storeRemote m = s.entered cause (s.memAddr m) aux := by
  rw [State.storeRemote, if_neg (by simp [aligned_of h]), hr]
  exact State.trapNow_of_canTrap _ _ _ hc

/-! Atomics. -/

theorem State.atomic_misaligned {sp : Nat} {k : AmoArgs} (h : s.amoAddr k % amoBytes k ≠ 0) : s.atomic sp k = s.entered 0x05 (s.amoAddr k) 0 := by
  rw [State.atomic, if_pos (by simp [not_aligned_of h]), State.trapNow_of_canTrap _ _ _ hc]

theorem State.atomic_outside {sp : Nat} {k : AmoArgs} (h : s.amoAddr k % amoBytes k = 0)
    (hr : s.rangeOk s.cur.1 sp (s.amoAddr k) (amoBytes k) = false) : s.atomic sp k = s.entered 0x04 (s.amoAddr k) 0 := by
  rw [State.atomic, if_neg (by simp [aligned_of h]), if_pos (by simp [hr]), State.trapNow_of_canTrap _ _ _ hc]

section
variable {sp : Nat} {k : AmoArgs} (h : s.amoAddr k % amoBytes k = 0) (hr : s.rangeOk s.cur.1 sp (s.amoAddr k) (amoBytes k) = true) (hd : k.data = 0)
include h hr hd

theorem State.atomic_refused {cause aux : Nat} (he : s.resolve s.cur.1 sp (s.amoAddr k) (amoBytes k) true true = .error (cause, aux)) :
    s.atomic sp k = (s.missed cause (s.amoAddr k) true true).entered cause (s.amoAddr k) aux := by
  rw [State.atomic, if_neg (by simp [aligned_of h]), if_neg (by simp [hr]), if_neg (by simp [hd]), he]
  exact State.trapNow_missed hc ..

theorem State.atomic_poisoned {g : Home} (hg : s.resolve s.cur.1 sp (s.amoAddr k) (amoBytes k) true true = .ok g)
    (hp : s.poisonHome g (amoBytes k) = true) : s.atomic sp k = s.entered 0x07 (s.amoAddr k) 0 := by
  rw [State.atomic, if_neg (by simp [aligned_of h]), if_neg (by simp [hr]), if_neg (by simp [hd]), hg]
  exact (if_pos hp).trans (State.trapNow_of_canTrap _ _ _ hc)

end

theorem State.atomicRemote_misaligned {k : AmoArgs} (h : s.amoAddr k % amoBytes k ≠ 0) : s.atomicRemote k = s.entered 0x05 (s.amoAddr k) 0 := by
  rw [State.atomicRemote, if_pos (by simp [not_aligned_of h]), State.trapNow_of_canTrap _ _ _ hc]

theorem State.atomicRemote_refused {k : AmoArgs} {cause aux : Nat} (h : s.amoAddr k % amoBytes k = 0)
    (he : s.resolve s.cur.1 2 (s.amoAddr k) (amoBytes k) true true = .error (cause, aux)) : s.atomicRemote k = s.entered cause (s.amoAddr k) aux := by
  rw [State.atomicRemote, if_neg (by simp [aligned_of h]), he]
  exact State.trapNow_of_canTrap _ _ _ hc

theorem State.atomicRemote_poisoned {k : AmoArgs} {dst off : Nat} (h : s.amoAddr k % amoBytes k = 0)
    (he : s.resolve s.cur.1 2 (s.amoAddr k) (amoBytes k) true true = .ok (.tile dst off)) (hd : k.data = 0)
    (hp : s.poisonHome (.tile dst off) (amoBytes k) = true) : s.atomicRemote k = s.entered 0x07 (s.amoAddr k) 0 := by
  rw [State.atomicRemote, if_neg (by simp [aligned_of h]), he]
  exact (if_pos (by simp [hd, hp])).trans (State.trapNow_of_canTrap _ _ _ hc)

/-! Counters. -/

theorem State.cadd_misaligned {loc : Bool} {d a n : Nat} (h : a % 16 ≠ 0) : s.cadd loc d a n = s.entered 0x05 a 0 := by
  rw [State.cadd, if_pos (by simp [not_aligned_of h]), State.trapNow_of_canTrap _ _ _ hc]

theorem State.cadd_refused {loc : Bool} {d a n cause aux : Nat} (h : a % 16 = 0)
    (he : s.resolve s.cur.1 (ctrSpace loc) a 16 true true = .error (cause, aux)) :
    s.cadd loc d a n = (s.missed cause a true true).entered cause a aux := by
  rw [State.cadd, if_neg (by simp [aligned_of h]), he]
  exact State.trapNow_missed hc ..

theorem State.cadd_poisoned {loc : Bool} {d a n : Nat} {g : Home} (h : a % 16 = 0) (hg : s.resolve s.cur.1 (ctrSpace loc) a 16 true true = .ok g)
    (hp : s.poisonHome g 16 = true) : s.cadd loc d a n = s.entered 0x07 a 0 := by
  rw [State.cadd, if_neg (by simp [aligned_of h]), hg]
  exact (if_pos hp).trans (State.trapNow_of_canTrap _ _ _ hc)

theorem exec_cread_misaligned {loc : Bool} {d a : Nat} (h : s.nx a % 16 ≠ 0) : exec (.cread loc d a) s = .next (s.entered 0x05 (s.nx a) 0) := by
  rw [exec_cread, execCread, if_pos (by simp [not_aligned_of h]), State.trapNow_of_canTrap _ _ _ hc]

theorem exec_cread_outside {loc : Bool} {d a : Nat} (h : s.nx a % 16 = 0) (hr : s.rangeOk s.cur.1 (ctrSpace loc) (s.nx a) 16 = false) :
    exec (.cread loc d a) s = .next (s.entered 0x04 (s.nx a) 0) := by
  rw [exec_cread, execCread, if_neg (by simp [aligned_of h]), if_pos (by simp [hr]), State.trapNow_of_canTrap _ _ _ hc]

theorem exec_cwait_misaligned {loc : Bool} {d a b : Nat} (h : s.nx a % 16 ≠ 0) : exec (.cwait loc d a b) s = .next (s.entered 0x05 (s.nx a) 0) := by
  rw [exec_cwait, execCwait, State.waitPoint_of_spared hc.spared, if_pos (by simp [not_aligned_of h]), State.trapNow_of_canTrap _ _ _ hc]

/-- A CWAIT whose look at the record faults. -/
theorem exec_cwait_faults {loc : Bool} {d a b cause aux : Nat} (h : s.nx a % 16 = 0)
    (hl : s.clook s.cur.1 s.cur.2 loc (s.nx a) (s.nx b) = .trap cause aux) :
    ∃ w, s.EdgeOnly w ∧ (loc = true → w = s) ∧ exec (.cwait loc d a b) s = .next (w.entered cause (s.nx a) aux) := by
  have hw := State.edgeStep_lookEnds s s.cur.1 loc (s.nx a)
  refine ⟨_, hw.only, fun e => if_pos e, ?_⟩
  rw [exec_cwait, execCwait, State.waitPoint_of_spared hc.spared, if_neg (by simp [aligned_of h]), hl, ← hw.trapNow hc]

theorem exec_patld_misaligned {sp : PatSpace} {pd a : Nat} (h : s.nx a % 32 ≠ 0) : exec (.patld sp pd a) s = .next (s.entered 0x05 (s.nx a) 0) := by
  rw [exec_patld, execPatld, if_pos (by simp [not_aligned_of h]), State.trapNow_of_canTrap _ _ _ hc]

theorem exec_patld_outside {sp : PatSpace} {pd a : Nat} (h : s.nx a % 32 = 0) (hr : s.rangeOk s.cur.1 (patSpace sp) (s.nx a) 32 = false) :
    exec (.patld sp pd a) s = .next (s.entered 0x04 (s.nx a) 0) := by
  rw [exec_patld, execPatld, if_neg (by simp [aligned_of h]), if_pos (by simp [hr]), State.trapNow_of_canTrap _ _ _ hc]

end

/-- A look at a record that has no home, or that is poisoned. -/
theorem State.clook_refused {s : State} {t c addr target cause aux : Nat} {loc : Bool}
    (h : s.resolve t (ctrSpace loc) addr 16 true false = .error (cause, aux)) : s.clook t c loc addr target = .trap cause aux := by
  rw [State.clook, h]

theorem State.clook_poisoned {s : State} {t c addr target : Nat} {loc : Bool} {g : Home} (h : s.resolve t (ctrSpace loc) addr 16 true false = .ok g)
    (hm : (s.ctx t c).mayRead (ctrSpace loc) addr 16 = true) (hp : s.poisonRead g 16 = true) : s.clook t c loc addr target = .trap 0x07 0 := by
  simp only [State.clook, h, hm, hp, Bool.not_true, Bool.false_eq_true, if_false, if_true]

/-- Settles O15: each kind of access by its first failing check. -/
theorem badAccessesTrapAtIssue : Obligations.BadAccessesTrapAtIssue := by
  unfold Obligations.BadAccessesTrapAtIssue
  refine ⟨fun s m k loc d a b pd sp hc => ⟨fun h i hi => ?_, fun h i hi => ?_, fun h i hi => ?_, fun h => exec_patld_misaligned hc h⟩,
    fun s m sp i hc h => ⟨fun hi hr => ?_, fun hi cause aux hr => ?_⟩, fun s m cause aux hc h hr => ?_,
    fun s k hc h => ⟨fun sp i hi => ⟨fun hr => ?_, fun hr hd => ⟨fun cause aux he => ?_, fun g hg hp => ?_⟩⟩, fun cause aux he => ?_,
      fun dst off he hd hp => ?_⟩,
    fun s loc d a b hc h => ⟨fun cause aux he => ?_, fun g hg hp => ?_, fun hr => exec_cread_outside hc h hr,
      fun cause aux he => exec_cwait_faults hc h (State.clook_refused he), fun g hg hm hp => exec_cwait_faults hc h (State.clook_poisoned hg hm hp)⟩,
    fun s sp pd a hc h hr => exec_patld_outside hc h hr⟩
  · simp only [List.mem_append, List.mem_map, Prod.exists, exists_eq_right, List.mem_singleton] at hi
    rcases hi with (⟨sp, hi⟩ | ⟨sp, hi⟩) | rfl
    · rw [exec_of_mem_loadsOf hi, State.load_misaligned hc h]
    · rw [exec_of_mem_storesOf hi, State.store_misaligned hc h]
    · rw [exec_stx, execStx, State.storeRemote_misaligned hc h]
  · simp only [List.mem_append, List.mem_map, Prod.exists, exists_eq_right, List.mem_singleton] at hi
    rcases hi with ⟨sp, hi⟩ | rfl
    · rw [exec_of_mem_atomicsOf hi, State.atomic_misaligned hc h]
    · rw [exec_amox, execAmox, State.atomicRemote_misaligned hc h]
  · simp only [List.mem_cons, List.not_mem_nil, or_false] at hi
    rcases hi with rfl | rfl | rfl
    · rw [exec_cadd, execCadd, State.cadd_misaligned hc h]
    · exact exec_cread_misaligned hc h
    · exact exec_cwait_misaligned hc h
  · rw [exec_of_mem_loadsOf hi, State.load_outside hc h hr]
  · rw [exec_of_mem_storesOf hi, State.store_refused hc h hr]
  · rw [exec_stx, execStx, State.storeRemote_refused hc h hr]
  · rw [exec_of_mem_atomicsOf hi, State.atomic_outside hc h hr]
  · rw [exec_of_mem_atomicsOf hi, State.atomic_refused hc h hr hd he]
  · rw [exec_of_mem_atomicsOf hi, State.atomic_poisoned hc h hr hd hg hp]
  · rw [exec_amox, execAmox, State.atomicRemote_refused hc h he]
  · rw [exec_amox, execAmox, State.atomicRemote_poisoned hc h he hd hp]
  · rw [exec_cadd, execCadd, State.cadd_refused hc h he]
  · rw [exec_cadd, execCadd, State.cadd_poisoned hc h hg hp]

end Sys2Proof.Machine
end

section
/-! The records of a spawning instruction (R36, R254, R255). -/

namespace Sys2Proof.Machine

/-! The memory edge behind the reads. -/

theorem State.edgeStep_touchRecord (s : State) (addr : Nat) (r : Except Trap3 (Task × Home)) : s.EdgeStep (s.touchRecord addr r) := by
  have hr := (State.EdgeStep.refl s).readRecordAt (dieOf s.cur.1) s.myPart addr 64
  unfold State.touchRecord
  dsimp only
  split
  · exact .refl s
  · split
    · exact hr.missed ..
    · exact .ite hr (hr.fillCache ..)

theorem State.touchRecord_misaligned {s : State} {addr : Nat} (h : addr % 64 ≠ 0) (r : Except Trap3 (Task × Home)) : s.touchRecord addr r = s :=
  if_pos (by simp [h])

/-! One record of a batch, and the rest. -/

theorem State.readRecords_error {s : State} {base k : Nat} {f : Trap3} (n : Nat) (h : s.readRecord ((base + 64 * k) % 2 ^ 64) k = .error f) :
    s.readRecords base k (n + 1) = (s.touchRecord ((base + 64 * k) % 2 ^ 64) (.error f), .error f) := by
  rw [State.readRecords, h]

theorem State.readRecords_ok {s : State} {base k : Nat} {x : Task × Home} (n : Nat) (h : s.readRecord ((base + 64 * k) % 2 ^ 64) k = .ok x) :
    s.readRecords base k (n + 1) = (((s.touchRecord ((base + 64 * k) % 2 ^ 64) (.ok x)).readRecords base (k + 1) n).1,
      ((s.touchRecord ((base + 64 * k) % 2 ^ 64) (.ok x)).readRecords base (k + 1) n).2.map fun t => x :: t) := by
  rw [State.readRecords, h]

theorem State.edgeStep_readRecords (base n : Nat) : ∀ (s : State) (k : Nat), s.EdgeStep (s.readRecords base k n).1 := by
  induction n with
  | zero => exact fun s _ => .refl s
  | succ n ih =>
    intro s k
    cases h : s.readRecord ((base + 64 * k) % 2 ^ 64) k with
    | error f =>
      rw [State.readRecords_error n h]
      exact s.edgeStep_touchRecord _ (.error f)
    | ok x =>
      rw [State.readRecords_ok n h]
      exact (s.edgeStep_touchRecord ..).trans (ih _ _)

/-- A batch stops at its first record that fails. -/
theorem State.readRecords_of_error {base m : Nat} {v : State} {f : Trap3} : ∀ {k j : Nat} {s : State} {l : List (Task × Home)},
    s.readRecords base j k = (v, .ok l) → v.readRecord ((base + 64 * (j + k)) % 2 ^ 64) (j + k) = .error f →
    s.readRecords base j (k + (m + 1)) = (v.touchRecord ((base + 64 * (j + k)) % 2 ^ 64) (.error f), .error f) := by
  intro k
  induction k with
  | zero =>
    intro j s l hs hv
    cases hs
    rw [Nat.zero_add]
    exact State.readRecords_error m hv
  | succ k ih =>
    intro j s l hs hv
    cases hr : s.readRecord ((base + 64 * j) % 2 ^ 64) j with
    | error e =>
      rw [State.readRecords_error k hr] at hs
      cases hs
    | ok x =>
      rw [State.readRecords_ok k hr] at hs
      generalize hq : (s.touchRecord ((base + 64 * j) % 2 ^ 64) (.ok x)).readRecords base (j + 1) k = q at hs
      obtain ⟨w, r⟩ := q
      cases r with
      | error e => cases hs
      | ok l' =>
        cases hs
        rw [show j + (k + 1) = j + 1 + k by omega] at hv ⊢
        rw [show k + 1 + (m + 1) = k + (m + 1) + 1 by omega, State.readRecords_ok _ hr, ih hq hv]
        rfl

/-! The checks of one record. -/

section
variable {s : State} {addr k : Nat}

theorem State.readRecord_misaligned (h : addr % 64 ≠ 0) : s.readRecord addr k = .error (0x05, addr, k) := if_pos h

theorem State.readRecord_refused {cause aux : Nat} (h : addr % 64 = 0) (hr : s.resolve s.cur.1 0 addr 64 true false = .error (cause, aux)) :
    s.readRecord addr k = .error (cause, addr, k) := by
  rw [State.readRecord, if_neg (not_not.2 h), hr]

variable {g : Home} (h : addr % 64 = 0) (hr : s.resolve s.cur.1 0 addr 64 true false = .ok g)
include h hr

theorem State.readRecord_poisoned (hp : s.poisonRead g 64 = true) : s.readRecord addr k = .error (0x07, addr, k) := by
  rw [State.readRecord, if_neg (not_not.2 h), hr]
  exact if_pos hp

variable (hp : s.poisonRead g 64 = false)
include hp

theorem State.readRecord_bad (hb : s.recordBad s.myLid s.me.scope (s.readHome g 64) = true) : s.readRecord addr k = .error (0x02, addr, k) := by
  rw [State.readRecord, if_neg (not_not.2 h), hr]
  simp only [hp, hb, Bool.false_eq_true, if_false, if_true]

variable (hb : s.recordBad s.myLid s.me.scope (s.readHome g 64) = false)
include hb

theorem State.readRecord_dep {cause aux : Nat} (hd : bits (s.readHome g 64) 447 384 ≠ 0)
    (he : s.resolve s.cur.1 0 (bits (s.readHome g 64) 447 384) 16 true false = .error (cause, aux)) :
    s.readRecord addr k = .error (cause, bits (s.readHome g 64) 447 384, k) := by
  rw [State.readRecord, if_neg (not_not.2 h), hr]
  simp only [hp, hb, Bool.false_eq_true, if_false]
  rw [show (s.taskOf s.myLid addr (s.readHome g 64)).depAddr = bits (s.readHome g 64) 447 384 from rfl, if_neg hd, he]

theorem State.readRecord_tile
    (hd : bits (s.readHome g 64) 447 384 = 0 ∨ ∃ x, s.resolve s.cur.1 0 (bits (s.readHome g 64) 447 384) 16 true false = .ok x)
    (hv : bits (s.readHome g 64) 187 176 ≠ 0xFFF) (hn : s.myLaunch.nvt ≤ bits (s.readHome g 64) 187 176) :
    s.readRecord addr k = .error (0x04, addr, k) := by
  have ht : (bits (s.readHome g 64) 187 176 != 0xFFF && decide (s.myLaunch.nvt ≤ bits (s.readHome g 64) 187 176)) = true := by simp [hv, hn]
  rw [State.readRecord, if_neg (not_not.2 h), hr]
  simp only [hp, hb, Bool.false_eq_true, if_false]
  rw [show (s.taskOf s.myLid addr (s.readHome g 64)).depAddr = bits (s.readHome g 64) 447 384 from rfl,
    show (s.taskOf s.myLid addr (s.readHome g 64)).vtile = bits (s.readHome g 64) 187 176 from rfl]
  rcases hd with hd | ⟨x, hd⟩
  · simp only [if_pos hd, ht, if_true]
  · simp only [hd, ite_self, ht, if_true]

end

/-- The rules of R36 for the fields of a record. -/
theorem State.recordBad_iff (s : State) (l scope r : Nat) : s.recordBad l scope r = true ↔
    bits r 170 0 ≠ 0 ∨ 24 ≤ bits r 175 171 ∨ bits r 258 256 ≠ 0 ∨ scValid (bits r 255 224) = false ∨ contains scope (bits r 255 224) = false
      ∨ bits r 387 384 ≠ 0
      ∨ ∃ j, j < 4 ∧ bit r (188 + j) = true ∧ mfind (bits r (192 + 8 * j + 7) (192 + 8 * j)) (s.launch l).groups = none := by
  simp only [State.recordBad, Bool.or_eq_true, bne_iff_ne, decide_eq_true_eq, Bool.not_eq_true', List.any_eq_true, List.mem_range, Bool.and_eq_true,
    Option.isNone_iff_eq_none]
  rw [or_right_comm]
  simp only [or_assoc]

/-- Settles O27: the batch stops at record k, whose first failing check is the trap's. -/
theorem spawnRecordFaultsTrapWithTheirRecordNumber : Obligations.SpawnRecordFaultsTrapWithTheirRecordNumber := by
  unfold Obligations.SpawnRecordFaultsTrapWithTheirRecordNumber
  intro s v xr xst xq n k l hk hs hc a traps
  have hsv : s.EdgeStep v := by
    have := s.edgeStep_readRecords (s.nx xr) k 0
    rwa [hs] at this
  have fails : ∀ {cause addr : Nat}, v.readRecord a k = .error (cause, addr, k) → traps (v.touchRecord a (.error (cause, addr, k))) cause addr := by
    intro cause addr he
    obtain ⟨m, rfl⟩ : ∃ m, n = k + (m + 1) := ⟨n - k - 1, by omega⟩
    have hall : s.readRecords (s.nx xr) 0 (k + (m + 1)) = (v.touchRecord a (.error (cause, addr, k)), .error (cause, addr, k)) := by
      have := State.readRecords_of_error (m := m) hs (by rwa [Nat.zero_add])
      rwa [Nat.zero_add] at this
    have hw := v.edgeStep_touchRecord a (.error (cause, addr, k))
    have hspawn : ∀ st, s.spawnAll xr xst xq (k + (m + 1)) st = (v.touchRecord a (.error (cause, addr, k))).entered cause addr k := fun st => by
      unfold State.spawnAll
      dsimp only
      rw [hall]
      exact hw.trapNow hc cause addr k
    refine ⟨(hsv.trans hw).only, by rw [exec_spawnn, execSpawnn, hspawn], fun h1 => ?_⟩
    obtain rfl : k = 0 := by omega
    obtain rfl : m = 0 := by omega
    rw [exec_spawn, execSpawn, hspawn]
  refine ⟨fun h => ?_, fun cause aux h hr => ⟨_, fails (State.readRecord_refused h hr)⟩,
    fun g h hr => ⟨fun hp => ⟨_, fails (State.readRecord_poisoned h hr hp)⟩,
      fun hp => ⟨fun hb => ?_, fun hb => ⟨fun cause aux hd he => ?_, fun hd hv hn => ?_⟩⟩⟩⟩
  · have := fails (State.readRecord_misaligned h)
    rwa [State.touchRecord_misaligned h] at this
  · exact ⟨_, fails (State.readRecord_bad h hr hp ((v.recordBad_iff _ _ _).2 hb))⟩
  · have hb' := Bool.eq_false_iff.2 (mt (v.recordBad_iff v.myLid v.me.scope (v.readHome g 64)).1 hb)
    exact ⟨_, fails (State.readRecord_dep h hr hp hb' hd he)⟩
  · have hb' := Bool.eq_false_iff.2 (mt (v.recordBad_iff v.myLid v.me.scope (v.readHome g 64)).1 hb)
    exact ⟨_, fails (State.readRecord_tile h hr hp hb' hd hv hn)⟩

end Sys2Proof.Machine
end

section
/-! Completion counters at their home (R139, R146): the memory edge leaves every store as it is where no page migrates and the address is the
partition's own, and the access takes its status. -/

namespace Sys2Proof.Machine

/-! The edge at a home that is not lost. -/

theorem State.clasp_ite {x y : State} {k : Clasp} {c : Prop} [Decidable c] (hx : x.clasp = k) (hy : y.clasp = k) : (if c then x else y).clasp = k := by
  split
  · exact hx
  · exact hy

section
variable (s : State)

@[simp] theorem State.clasp_meter (p m n : Nat) : (s.meter p m n).clasp = s.clasp := rfl

@[simp] theorem State.clasp_meterDev (p : Nat) (g : Home) (n : Nat) (wr : Bool) : (s.meterDev p g n wr).clasp = s.clasp := by
  unfold State.meterDev
  split
  · exact State.clasp_ite rfl rfl
  · rfl

@[simp] theorem State.clasp_delivered (a b : Nat) : (s.delivered a b).clasp = s.clasp := by
  unfold State.delivered
  split
  · rfl
  · exact State.clasp_ite rfl rfl

@[simp] theorem State.clasp_message (p a b k : Nat) : (s.message p a b k).clasp = s.clasp := by
  unfold State.message
  split
  · rfl
  · exact List.foldlRecOn (motive := fun x : State × Nat => x.1.clasp = s.clasp) _ _ rfl fun x hx _ _ => (x.1.clasp_delivered _ _).trans hx

@[simp] theorem State.clasp_roundTrip (p die : Nat) (g : Home) (n : Nat) (rd wr : Bool) : (s.roundTrip p die g n rd wr).clasp = s.clasp :=
  State.clasp_ite (by simp) (by simp)

@[simp] theorem State.clasp_fillCache (die p va : Nat) (rd wr : Bool) : (s.fillCache die p va rd wr).clasp = s.clasp := by
  refine State.clasp_ite rfl ?_
  split <;> rfl

@[simp] theorem State.clasp_spliceBeat (p : Nat) (j : MapJob) (old b : Nat) : (s.spliceBeat p j old b).clasp = s.clasp := rfl

@[simp] theorem State.clasp_fork (pa n : Nat) : (s.fork pa n).clasp = s.clasp := by
  refine List.foldlRecOn (motive := fun x : State => x.clasp = s.clasp) _ _ rfl fun w hw e _ => ?_
  split
  · exact hw
  · split
    · exact hw
    · refine List.foldlRecOn (motive := fun x : State => x.clasp = s.clasp) _ _ hw fun x hx y _ => ?_
      split
      · exact State.clasp_ite hx hx
      · exact hx

/-- Only an access outside the partition's granules leaves a record (R380). -/
theorem State.clasp_edgeTouch (v : Via) (p space va n : Nat) {g : Home} (rd wr : Bool) (hg : g.isLost = false) :
    (s.edgeTouch v p space va n g rd wr).clasp = s.clasp := by
  have hf : (if space = 0 then s.fillCache v.die p va rd wr else s).clasp = s.clasp := State.clasp_ite (by simp) rfl
  unfold State.edgeTouch
  cases g with
  | lost pa => cases hg
  | dev pa =>
    have hr := (State.clasp_roundTrip _ p v.die (.dev pa) n rd wr).trans (State.clasp_ite (c := rd = true) ((State.clasp_fork _ pa n).trans hf) hf)
    exact State.clasp_ite hr hr
  | host q iova => exact (State.clasp_roundTrip ..).trans hf
  | tile t off => exact hf
  | acc t off => exact hf
  | staging d off => exact hf

end

/-- Every store holds what it held: bytes and poison. -/
def State.SameStores (s t : State) : Prop := ∀ g, t.homeStore g = s.homeStore g

theorem State.SameStores.trans {s t u : State} (h1 : s.SameStores t) (h2 : t.SameStores u) : s.SameStores u := fun g => (h2 g).trans (h1 g)

theorem State.SameStores.sameMemory {s t : State} (h : s.SameStores t) : s.SameMemory t := fun g => by
  rw [State.readHome, h, State.readHome]

theorem State.SameStores.poisonHome {s t : State} (h : s.SameStores t) (g : Home) (n : Nat) : t.poisonHome g n = s.poisonHome g n := by
  unfold State.poisonHome
  rw [h]

theorem State.SameStores.readHome {s t : State} (h : s.SameStores t) (g : Home) (n : Nat) : t.readHome g n = s.readHome g n := by
  unfold State.readHome
  rw [h]

/-- With no migration and no record logged, the edge writes nothing. -/
theorem State.EdgeStep.sameStores {s t : State} (h : s.EdgeStep t) (hj : s.Jobless) (hl : t.clasp = s.clasp) : s.SameStores t := by
  intro g
  cases g with
  | dev pa => simp only [State.homeStore, (h.dev hj).1]
  | tile k off => simp only [State.homeStore, h.tile]
  | acc k off => simp only [State.homeStore, h.tile]
  | staging d off => simp only [State.homeStore]; rw [h.die]
  | host p iova => simp only [State.homeStore, h.host (by rw [hl])]
  | lost pa => rfl

theorem State.Jobless.unmirrored {s : State} (h : s.Jobless) : s.Unmirrored :=
  State.unmirrored_iff.2 fun e he j hj => absurd ((h e he).symm.trans hj) (by simp)

/-! An access that takes its status. -/

theorem find?_replaceFirst {l : List Access} {a b : Access} (hf : l.find? (fun x => x.id == a.id) = some a) (hb : b.id = a.id) :
    (replaceFirst (fun x => x.id == b.id) (fun _ => b) l).find? (fun x => x.id == a.id) = some b := by
  induction l with
  | nil => cases hf
  | cons x l ih =>
    rw [hb] at ih ⊢
    by_cases hx : x.id = a.id
    · simp [replaceFirst, hx, hb]
    · simp only [List.find?_cons, beq_eq_false_iff_ne.2 hx] at hf
      simpa [replaceFirst, hx] using ih hf

theorem find?_trimOuts {a : Access} (hk : a.isFence = false) (ha : a.finished = false) {p : Access → Bool} : ∀ {l : List Access} (first : Bool),
    l.find? p = some a → (trimOuts first l).find? p = some a := by
  intro l
  induction l with
  | nil => exact fun _ h => nomatch h
  | cons x l ih =>
    intro first h
    have hkeep : ∀ b, (x :: trimOuts b l).find? p = some a := fun b => by
      rw [List.find?_cons] at h ⊢
      split at h
      · exact h
      · exact ih b h
    have hdrop : x ≠ a → ∀ b, (trimOuts b l).find? p = some a := fun hx b => by
      rw [List.find?_cons] at h
      split at h
      · exact absurd (Option.some.inj h) hx
      · exact ih b h
    rw [trimOuts]
    split
    · split
      · exact hdrop (fun e => by rw [← e, Access.isFence] at hk; simp_all) _
      · exact hkeep _
    · split
      · exact hdrop (fun e => by simp_all) _
      · exact hkeep _

/-- The access that a register awaits is still there, in its new form. -/
theorem State.find?_putAccess {s : State} {t c id : Nat} {a b : Access} (hf : (s.ctx t c).outs.find? (fun x => x.id == id) = some a) (hb : b.id = a.id)
    (hk : b.isFence = false) (hn : b.finished = false) : ((s.putAccess t c b).ctx t c).outs.find? (fun x => x.id == id) = some b := by
  have hid : a.id = id := by simpa using List.find?_some hf
  rw [State.putAccess, State.ctx_modCtx]
  subst hid
  exact find?_trimOuts hk hn _ (find?_replaceFirst hf hb)

/-! A CREAD whose reading touches the list of partitions: the list holds partition 1 before partition 0, both with a slot over tile 0, which no launch
lives on, so the tile is partition 1's; the answer's way between dies is metered at partition 1, whose entry then stands behind partition 0's, and the
tile is partition 0's. -/

/-- Partition 1 has a page in the stack of die 1. -/
def farPart : Partition := { Tests.part0 with leaves := [⟨0, 0, 0x1000000000, true, true⟩] }

def farRead : Access := { Tests.someAccess with kind := .cread, space := 0, size := 16 }

def unorderedParts : State :=
  { Tests.s0 with
    tiles := [(0, { Tests.tile0 with lid := none, ctxs := [(0, { Tests.ctx0 with outs := [farRead] })] })]
    parts := [(1, farPart), (0, { Tests.part0 with leaves := [] })]
    clasp := { Tests.s0.clasp with runs := [⟨48, 2, 1⟩] } }

/-- The home is partition 1's, and it carries no poison. -/
theorem home_unorderedParts : unorderedParts.homeOf 0 farRead = some (.dev 0x1000001000) ∧ unorderedParts.poisonHome (.dev 0x1000001000) 16 = false := by
  decide +kernel

/-- Performed behind the message, the read finds no page of partition 0. -/
theorem exec_unorderedParts : ∃ w, exec (.memoryAccessAtHome 0 0 4 false) unorderedParts = .next w
    ∧ (w.ctx 0 0).outs.find? (fun b => b.id == 4) = some { farRead with st := .faulted 0x06 0x1000 0 } :=
  ⟨_, rfl, by decide +kernel⟩

/-- Refutes O21: where a tile without a launch is held by two entries of an unordered list of partitions, a CREAD of partition 1's memory is performed as
partition 0's and faults. -/
theorem not_caddAddsToValueAndKeepsTheStatus : ¬ Obligations.CaddAddsToValueAndKeepsTheStatus := by
  unfold Obligations.CaddAddsToValueAndKeepsTheStatus
  intro h
  have hf : (unorderedParts.ctx 0 0).outs.find? (fun b => b.id == 4) = some farRead := by decide
  obtain ⟨-, hread⟩ := h unorderedParts 0 0 4 false farRead hf rfl (by decide) (by decide) (by decide) (by decide)
  obtain ⟨hhome, hpoison⟩ := home_unorderedParts
  obtain ⟨u, honly, -, he⟩ := hread _ rfl rfl (fun _ _ e he => by cases he) hhome rfl rfl
  obtain ⟨w, hw, hfault⟩ := exec_unorderedParts
  rw [hw] at he
  obtain rfl : w = _ := Host.Outcome.next.inj he
  have hu : u.ctx 0 0 = unorderedParts.ctx 0 0 := by rw [honly]; rfl
  have hfu : (u.ctx 0 0).outs.find? (fun b => b.id == 4) = some farRead := hu ▸ hf
  rw [hpoison] at hfault
  cases hfault.symm.trans (State.find?_putAccess (b := { farRead with st := .performed _ }) hfu rfl rfl rfl)

end Sys2Proof.Machine
end

section
/-! EXIT and YIELD (R13, R269). -/

namespace Sys2Proof.Machine

/-! A task that ends. -/

theorem State.ctx_endTask (s : State) (t c : Nat) : (s.endTask t c).ctx t c = { s.ctx t c with cont := none }.freed := by
  rw [State.endTask, State.ctx_modCtx, (s.leftBlocks_leaveBlocks t c).ctx, if_pos rfl]

theorem State.cur_endTask (s : State) (t c : Nat) : (s.endTask t c).cur = s.cur := (s.leftBlocks_leaveBlocks t c).cur

theorem State.me_endTask (s : State) : (s.endTask s.cur.1 s.cur.2).me = { s.me with cont := none }.freed := by
  rw [State.me, State.cur_endTask, State.ctx_endTask]
  rfl

/-- The ready queues of its tile stay. -/
theorem State.ready_endTask (s : State) (t c k : Nat) : ((s.endTask t c).tile k).ready = (s.tile k).ready := by
  rw [State.endTask, State.ready_tile_modCtx]
  exact (s.leftBlocks_leaveBlocks t c).part Tile.ready (fun _ => rfl) k

/-- A task that gives its context back joins the end of its queue (R269). -/
theorem State.requeue_of_task {s : State} {k : Task} (hk : s.me.task = some k) : s.requeue.me.task = none
    ∧ mget [] s.requeue.myTile.ready s.me.prio = mget [] s.myTile.ready s.me.prio
        ++ [{ k with pri := s.me.prio, saved := some { s.me.regs with pc := s.me.regs.pc + 8 }, lastPc := some s.me.regs.pc }] := by
  have hme := s.me_endTask
  have hcur := s.cur_endTask s.cur.1 s.cur.2
  have hready := s.ready_endTask s.cur.1 s.cur.2
  unfold State.requeue
  simp only [hk]
  generalize s.endTask s.cur.1 s.cur.2 = u at hme hcur hready ⊢
  have hown : u.myTile.ready = s.myTile.ready := by rw [State.myTile, hready, hcur, State.myTile]
  refine ⟨?_, ?_⟩
  · rw [State.me_modMyTile]
    exact congrArg Ctx.task hme
  · rw [State.myTile_modMyTile, mmod, mget_mput_same, hown]

/-- Settles O29: what ending a task leaves, and the requeued task behind the others of its priority. -/
theorem exitAndYieldGiveUpTheContext : Obligations.ExitAndYieldGiveUpTheContext := by
  unfold Obligations.ExitAndYieldGiveUpTheContext
  intro s loc a b h k
  refine ⟨⟨_, rfl, ?_⟩, fun ha h16 hr hp => ?_, fun ht hready => ?_, fun ht hready hk _ => ⟨s.requeue, ?_, State.requeue_of_task hk⟩⟩
  · rw [State.me_endTask]
    exact ⟨rfl, rfl, rfl, rfl⟩
  · rw [exec_exit, execExit, if_neg ha]
    simp only [aligned_of h16, hr, hp, Bool.not_true, Bool.false_eq_true, if_false]
  · rw [exec_yield, execYield]
    simp only [ht, hready, Bool.false_eq_true, if_false]
  · rw [exec_yield, execYield]
    simp only [ht, hready, Bool.false_eq_true, if_false, if_true]

end Sys2Proof.Machine
end

section
/-! Commands of the engine queues (R41, R222, R228, R248): the first failing check, a quote that passes or not, and the entry that joins its queue. -/

namespace Sys2Proof.Machine

/-! The first failing check of a list. -/

theorem firstFails_nil {f : Nat × Nat × Nat} : ¬ FirstFails [] f := fun ⟨pre, _, _, h, _⟩ => by cases pre <;> cases h

theorem firstFails_cons {c : Prop} {f g : Nat × Nat × Nat} {l : List IssueCheck} :
    FirstFails ((c, f) :: l) g ↔ (c ∧ g = f) ∨ (¬ c ∧ FirstFails l g) := by
  constructor
  · rintro ⟨pre, d, post, he, hd, hpre⟩
    cases pre with
    | nil =>
      cases he
      exact .inl ⟨hd, rfl⟩
    | cons x pre =>
      cases he
      exact .inr ⟨hpre _ List.mem_cons_self, pre, d, post, rfl, hd, fun y hy => hpre y (List.mem_cons_of_mem _ hy)⟩
  · rintro (⟨hc, rfl⟩ | ⟨hc, pre, d, post, rfl, hd, hpre⟩)
    · exact ⟨[], c, l, rfl, hc, fun _ hx => nomatch hx⟩
    · exact ⟨(c, f) :: pre, d, post, rfl, hd, fun y hy => (List.mem_cons.1 hy).elim (fun e => e ▸ hc) (hpre y)⟩

/-- The answer of the model's checks is the first failing one of a list, none when all pass. -/
def Judges (r : Option Trap3) (l : List IssueCheck) : Prop := (∀ f, FirstFails l f → r = some f) ∧ (PassAll l → r = none)

theorem judges_nil : Judges none [] := ⟨fun _ h => absurd h firstFails_nil, fun _ => rfl⟩

theorem Judges.cons {r u : Option Trap3} {l : List IssueCheck} {c : Prop} {f : Trap3} (h : Judges r l) (hc : c → u = some f) (hn : ¬ c → u = r) :
    Judges u ((c, f) :: l) := by
  refine ⟨fun g hg => ?_, fun hp => ?_⟩
  · rcases firstFails_cons.1 hg with ⟨h1, rfl⟩ | ⟨h1, hl⟩
    · exact hc h1
    · exact (hn h1).trans (h.1 g hl)
  · exact (hn (hp _ List.mem_cons_self)).trans (h.2 fun x hx => hp x (List.mem_cons_of_mem _ hx))

/-- A row of the model's table, with what is judged behind the table. -/
theorem Judges.row {r : Option Trap3} {l : List IssueCheck} {b : Bool} {c : Prop} {f : Trap3} {t : List (Bool × Trap3)} (h : Judges (firstFail t <|> r) l)
    (hb : b = true ↔ c) : Judges (firstFail ((b, f) :: t) <|> r) ((c, f) :: l) := by
  refine h.cons (fun hc => ?_) fun hc => ?_
  · rw [hb.2 hc]
    rfl
  · rw [Bool.eq_false_iff.2 (mt hb.1 hc)]
    rfl

/-- Two rows with one trap are one check. -/
theorem Judges.rows {r : Option Trap3} {l : List IssueCheck} {b d : Bool} {c : Prop} {f : Trap3} {t : List (Bool × Trap3)}
    (h : Judges (firstFail t <|> r) l) (hb : b = true ∨ d = true ↔ c) : Judges (firstFail ((b, f) :: (d, f) :: t) <|> r) ((c, f) :: l) := by
  refine h.cons (fun hc => ?_) fun hc => ?_
  · rcases hb.2 hc with rfl | rfl
    · rfl
    · cases b <;> rfl
  · obtain ⟨h1, h2⟩ := not_or.1 (mt hb.1 hc)
    rw [Bool.eq_false_iff.2 h1, Bool.eq_false_iff.2 h2]
    rfl

/-! Counter records. -/

/-- In range, an access fails by its translation only. -/
theorem State.resolve_of_rangeOk {s : State} {t sp a n : Nat} {rd wr : Bool} {e : Bad2} (hr : s.rangeOk t sp a n = true) (hn : 0 < n)
    (he : s.resolve t sp a n rd wr = .error e) : e.1 = 0x06 := by
  have hcol : ∀ k m : Nat, 0 < k → a + n ≤ k * m → a / k < m := fun k m hk h => (Nat.div_lt_iff_lt_mul hk).2 (by rw [Nat.mul_comm m k]; omega)
  unfold State.resolve State.resolveVia at he
  rw [if_neg (by simp [hr])] at he
  unfold State.rangeOk at hr
  split at he <;> simp only [decide_eq_true_eq, Bool.and_eq_true] at hr
  · split at he <;> cases he
    rfl
  · cases he
  · obtain ⟨-, hu⟩ := hr
    split at he
    · cases he
    · simp_all
  · cases he
  · cases he
  · have := hcol shareSize _ (by decide) hr
    rw [List.getElem?_eq_getElem this] at he
    cases he
  · have := hcol (2 ^ 30) _ (by decide) hr
    rw [List.getElem?_eq_getElem this] at he
    cases he
  · simp_all

theorem State.resolve_outside {s : State} {t sp a n : Nat} {rd wr : Bool} (hr : s.rangeOk t sp a n = false) :
    s.resolve t sp a n rd wr = .error (0x04, 0) := by
  unfold State.resolve State.resolveVia
  rw [if_pos (by simp [hr])]

theorem State.ctrFault_of_error {s : State} {sp a : Nat} {wr : Bool} {e : Bad2} (h : a % 16 = 0) (he : s.resolve s.cur.1 sp a 16 true wr = .error e) :
    s.ctrFault (some (sp, a)) wr = some (e.1, a, 0) := by
  simp only [State.ctrFault, h, ne_eq, not_true, if_false, he]

theorem State.ctrFault_of_ok {s : State} {sp a : Nat} {wr : Bool} {g : Home} (h : a % 16 = 0) (he : s.resolve s.cur.1 sp a 16 true wr = .ok g) :
    s.ctrFault (some (sp, a)) wr = none := by
  simp only [State.ctrFault, h, ne_eq, not_true, if_false, he]

/-- The checks on a counter record are those of R248. -/
theorem State.judges_ctrFault (s : State) (ctr : Option (Nat × Nat)) : Judges (s.ctrFault ctr true) (s.ctrChecks ctr) := by
  cases ctr with
  | none => exact judges_nil
  | some x =>
    obtain ⟨sp, a⟩ := x
    by_cases h16 : a % 16 = 0
    · refine Judges.cons (r := s.ctrFault (some (sp, a)) true) ?_ (fun h => absurd h16 h) fun _ => rfl
      cases hr : s.rangeOk s.cur.1 sp a 16 with
      | false =>
        have hout := s.ctrFault_of_error (wr := true) h16 (State.resolve_outside hr)
        exact ⟨fun f hf => (firstFails_cons.1 hf).elim (fun e => e.2 ▸ hout) fun e => absurd rfl e.1, fun hp => absurd rfl (hp _ List.mem_cons_self)⟩
      | true =>
        refine Judges.cons (r := s.ctrFault (some (sp, a)) true) (Judges.cons judges_nil ?_ fun hn => ?_) (fun h => absurd h (by decide)) fun _ => rfl
        · rintro ⟨aux, he⟩
          exact State.ctrFault_of_error h16 he
        · cases he : s.resolve s.cur.1 sp a 16 true true with
          | error e =>
            have h6 := State.resolve_of_rangeOk hr (by decide) he
            exact absurd ⟨e.2, by rw [he, ← h6]⟩ hn
          | ok g => exact State.ctrFault_of_ok h16 he
    · have hbad : s.ctrFault (some (sp, a)) true = some (0x05, a, 0) := if_pos h16
      exact ⟨fun f hf => (firstFails_cons.1 hf).elim (fun e => e.2 ▸ hbad) fun e => absurd h16 e.1, fun hp => absurd h16 (hp _ List.mem_cons_self)⟩

/-! A command that its bound lets pass, and one that it refuses (R41). -/

theorem State.accept_of_within {s : State} {q n : Nat} {e : QEntry} (h : s.within (s.quoteOf q e n)) :
    s.accept q e (some n) true = some (s.quoteOf q e n, s.enter_ q e (s.quoteOf q e n)) := by
  refine if_neg fun hc => ?_
  simp only [Bool.true_and, Bool.and_eq_true, bne_iff_ne, decide_eq_true_eq] at hc
  exact h.elim hc.1 (Nat.not_le.2 hc.2)

theorem State.accept_of_above {s : State} {q n : Nat} {e : QEntry} (hl : s.me.quoteLim ≠ 0) (hq : s.me.quoteLim.toNat < s.quoteOf q e n) :
    s.accept q e (some n) true = none := by
  refine if_pos ?_
  simp only [Bool.true_and, Bool.and_eq_true, bne_iff_ne, decide_eq_true_eq]
  exact ⟨hl, hq⟩

theorem State.finish_of_within {s : State} {q qd n : Nat} {e : QEntry} (h : s.within (s.quoteOf q e n)) : s.finish q qd e (some n) = s.queued q qd e n := by
  rw [State.finish, State.accept_of_within h]
  rfl

theorem State.finish_of_refused {s : State} {q qd : Nat} {e : QEntry} {time : Option Nat}
    (h : time = none ∨ ∃ n, time = some n ∧ s.me.quoteLim ≠ 0 ∧ s.me.quoteLim.toNat < s.quoteOf q e n) :
    s.finish q qd e time = (s.setX qd (BitVec.ofNat 64 (2 ^ 64 - 1))).advance := by
  have hn : s.accept q e time true = none := by
    rcases h with rfl | ⟨n, rfl, hl, hq⟩
    · rfl
    · exact State.accept_of_above hl hq
  rw [State.finish, hn]
  rfl

/-- Whether a command passes its bound. -/
theorem State.finish_some (s : State) (q qd n : Nat) (e : QEntry) : s.finish q qd e (some n)
    = if s.me.quoteLim = 0 ∨ s.quoteOf q e n ≤ s.me.quoteLim.toNat then s.queued q qd e n else (s.setX qd (BitVec.ofNat 64 (2 ^ 64 - 1))).advance := by
  split
  · exact State.finish_of_within ‹_›
  · rename_i h
    obtain ⟨hl, hq⟩ := not_or.1 h
    exact State.finish_of_refused (.inr ⟨n, rfl, hl, Nat.not_le.1 hq⟩)

/-- An entry as it stands in its queue (R222). -/
def State.captured (s : State) (q : Nat) (e : QEntry) (quote : Nat) : QEntry :=
  { e with id := s.myTile.nextId + 1, tag := scLo s.me.scope, ctx := s.cur.2, own := s.me.serial, lid := s.myLid, after := s.me.undone,
           skipped := decide (0 < (s.myTile.queue q).skip), quote := quote, at_ := s.myTile.res, no := (s.myTile.queue q).entered }

section
variable (s : State) (q qd n : Nat) (e : QEntry)

theorem State.me_enter_ (k : Nat) : (s.enter_ q e k).me = s.me := State.me_modMyTile ..

/-- What a command that has passed leaves: its entry behind the others, its quote in x[qd], and nothing else but the pc. -/
structure State.Queued (s t : State) (q qd : Nat) (x : QEntry) : Prop where
  entries : (t.myTile.queue q).entries = (s.myTile.queue q).entries ++ [x]
  quote : qd ≠ 0 → t.getX qd = BitVec.ofNat 64 x.quote
  regs : ∀ r, r ≠ qd → t.getX r = s.getX r
  queues : ∀ r, r ≠ q → t.myTile.queue r = s.myTile.queue r
  memory : s.SameMemory t
  pc : t.pc = s.pc + 8

theorem State.queue_enter_ (k r : Nat) : (s.enter_ q e k).myTile.queue r
    = (s.myTile.modQueue q fun u => { u with entries := u.entries ++ [s.captured q e k], skip := u.skip - 1, entered := u.entered + 1 }).queue r := by
  rw [State.enter_, State.myTile_modMyTile]
  rfl

theorem State.sameMemory_enter_ (k : Nat) : s.SameMemory (s.enter_ q e k) := State.SameMemory.modTile s _ _ (fun _ => rfl) fun _ => rfl

theorem State.queued_queued : s.Queued (s.queued q qd e n) q qd (s.captured q e (s.quoteOf q e n)) := by
  have hme := s.me_enter_ q e (s.quoteOf q e n)
  have hqueue : ∀ r, (s.queued q qd e n).myTile.queue r = (s.enter_ q e (s.quoteOf q e n)).myTile.queue r := fun r => by
    simp only [Tile.queue, State.queued, State.advance, State.setX, State.setPc, State.queues_myTile_modMe]
  have hx : ∀ r, (s.enter_ q e (s.quoteOf q e n)).getX r = s.getX r := fun r => by rw [State.getX, hme, State.getX]
  refine ⟨?_, fun hd => ?_, fun r hr => ?_, fun r hr => ?_, ?_, ?_⟩
  · rw [hqueue, State.queue_enter_, Tile.queue_modQueue]
  · rw [State.queued, State.getX_advance, State.getX_setX _ hd]
    rfl
  · rw [State.queued, State.getX_advance, State.getX_setX_ne _ hr, hx]
  · rw [hqueue, State.queue_enter_, Tile.queue_modQueue_ne _ hr]
  · exact ((s.sameMemory_enter_ q e _).trans (.modMe _ _)).trans (.modMe _ _)
  · rw [State.queued, State.pc_advance, State.pc_setX, State.pc, hme, State.pc]

end

end Sys2Proof.Machine
end

section
/-! Gates, QWAIT and QSTAT (R41, R222, R228, R238 to R240, R246 to R248). -/

namespace Sys2Proof.Machine

/-- A failing check traps behind the walk it made (R302). -/
theorem State.trapOn_of_canTrap {s : State} (hc : s.CanTrap) (f : Nat × Nat × Nat) : s.trapOn f = s.trapsOn f := State.trapNow_missed hc ..

/-! The entry and the service time of each gate. -/

/-- The bound of an SBAR's own service: 4 and the longest load among the configurations it waits for (R228). -/
def State.sbarTime (s : State) (qmask : Nat) : Nat :=
  4 + (s.myTile.configs qmask).foldl (fun m c => max m (s.folio s.myLid c.2).loadTime) 0

def State.sbarEntry (s : State) (k : QKind) (qmask : Nat) : QEntry :=
  { QEntry.blank k with mask := qmask, waits := (s.myTile.configs qmask).map (·.1) }

def State.scondEntry (s : State) (xt ctr csp : Nat) (inv : Bool) (skip : Nat) : QEntry :=
  { QEntry.blank .scond with xt := s.nx xt, ctr := some (csp, s.nx ctr), inv := inv, mask := skip }

def State.stitchEntry (s : State) (q mask : Nat) : QEntry :=
  { QEntry.blank .stitch with mask := mask, waits := s.myTile.inQueues (if bit mask q then mask - 2 ^ q else mask) }

section
variable {s : State}

theorem exec_sbarRd_eq (q qd qmask : Nat) :
    exec (.sbarRd q qd qmask) s = .next (s.finish q qd (s.sbarEntry .sbarRd qmask) (some (s.sbarTime qmask))) := rfl

theorem exec_sbarWr_eq (q qd qmask : Nat) :
    exec (.sbarWr q qd qmask) s = .next (s.finish q qd (s.sbarEntry .sbarWr qmask) (some (s.sbarTime qmask))) := rfl

theorem exec_sbarAll_eq (q qd qmask : Nat) :
    exec (.sbarAll q qd qmask) s = .next (s.finish q qd (s.sbarEntry .sbarAll qmask) (some (s.sbarTime qmask))) := rfl

theorem exec_stitch_eq (q qd mask : Nat) : exec (.stitch q qd mask) s = .next (s.finish q qd (s.stitchEntry q mask) (some 4)) := rfl

theorem exec_scond_of_none {q xt qd ctr csp skip : Nat} {inv : Bool} (h : s.ctrFault (some (csp, s.nx ctr)) true = none) :
    exec (.scond q xt qd ctr csp inv skip) s = .next (s.finish q qd (s.scondEntry xt ctr csp inv skip) (some 4)) := by
  rw [exec_scond, execScond]
  dsimp only
  rw [h]
  rfl

theorem exec_scond_of_some {q xt qd ctr csp skip : Nat} {inv : Bool} {f : Trap3} (h : s.ctrFault (some (csp, s.nx ctr)) true = some f) :
    exec (.scond q xt qd ctr csp inv skip) s = .next (s.trapOn f) := by
  rw [exec_scond, execScond]
  dsimp only
  rw [h]

end

theorem Tile.mem_inQueues {tl : Tile} {mask id : Nat} :
    id ∈ tl.inQueues mask ↔ ∃ u ∈ tl.queues, bit mask u.1 = true ∧ ∃ y ∈ u.2.entries, y.id = id := by
  simp only [Tile.inQueues, List.mem_flatMap]
  refine exists_congr fun u => and_congr_right fun _ => ?_
  split
  · simp [*]
  · simp [*]

/-- What a gate leaves, with no limit on its quote. -/
theorem State.queued_finish {s : State} (h : s.me.quoteLim = 0) (q qd n : Nat) (e : QEntry) :
    s.Queued (s.finish q qd e (some n)) q qd (s.captured q e (s.quoteOf q e n)) := by
  rw [State.finish_of_within (.inl h)]
  exact s.queued_queued q qd n e

/-! QSTAT. -/

theorem exec_qstat_clr (s : State) (q d sel : Nat) : exec (.qstat q d sel true) s
    = .next (((s.setX d (BitVec.ofNat 64 ((s.myTile.queue q).word sel))).modMyTile fun tl => tl.modQueue q fun u => { u with fv := false }).advance) := rfl

theorem State.SameMemory.setX (s : State) (d : Nat) (v : Word) : s.SameMemory (s.setX d v) := .modMe s _

theorem State.SameMemory.advance (s : State) : s.SameMemory s.advance := .modMe s _

theorem State.sameMemory_modQueue (s : State) (q : Nat) (f : Queue → Queue) : s.SameMemory (s.modMyTile fun tl => tl.modQueue q f) :=
  State.SameMemory.modTile s _ _ (fun _ => rfl) fun _ => rfl

/-- What QSTAT with CLR leaves. -/
structure State.ClearedFault (s t : State) (q d w : Nat) : Prop where
  value : d ≠ 0 → t.getX d = BitVec.ofNat 64 w
  queue : t.myTile.queue q = { s.myTile.queue q with fv := false }
  queues : ∀ r, r ≠ q → t.myTile.queue r = s.myTile.queue r
  regs : ∀ r, r ≠ d → t.getX r = s.getX r
  memory : s.SameMemory t
  pc : t.pc = s.pc + 8

theorem State.clearedFault_qstat (s : State) (q d sel : Nat) : s.ClearedFault
    (((s.setX d (BitVec.ofNat 64 ((s.myTile.queue q).word sel))).modMyTile fun tl => tl.modQueue q fun u => { u with fv := false }).advance)
    q d ((s.myTile.queue q).word sel) := by
  generalize (s.myTile.queue q).word sel = w
  have hqueue : ∀ r, (s.setX d (BitVec.ofNat 64 w)).myTile.queue r = s.myTile.queue r := fun r => by
    simp only [Tile.queue, State.setX, State.queues_myTile_modMe]
  have htile : ∀ r, (((s.setX d (BitVec.ofNat 64 w)).modMyTile fun tl => tl.modQueue q fun u => { u with fv := false }).advance).myTile.queue r
      = ((s.setX d (BitVec.ofNat 64 w)).myTile.modQueue q fun u => { u with fv := false }).queue r := fun r => by
    rw [Tile.queue, State.advance, State.setPc, State.queues_myTile_modMe, State.myTile_modMyTile]
    rfl
  have hme : ((s.setX d (BitVec.ofNat 64 w)).modMyTile fun tl => tl.modQueue q fun u => { u with fv := false }).me = (s.setX d (BitVec.ofNat 64 w)).me :=
    State.me_modMyTile ..
  refine ⟨fun hd => ?_, ?_, fun r hr => ?_, fun r hr => ?_, ?_, ?_⟩
  · rw [State.getX_advance, State.getX, hme]
    exact s.getX_setX hd _
  · rw [htile, Tile.queue_modQueue, hqueue]
  · rw [htile, Tile.queue_modQueue_ne _ hr, hqueue]
  · rw [State.getX_advance, State.getX, hme]
    exact s.getX_setX_ne hr _
  · exact ((State.SameMemory.setX s _ _).trans (State.sameMemory_modQueue _ _ _)).trans (.advance _)
  · rw [State.pc_advance, State.pc, hme]
    exact congrArg (· + 8) (s.pc_setX d _)

/-- Settles O25: each gate is a command with its entry and service time; QWAIT and QSTAT by their cases. -/
theorem gatesQueueWaitsAndStatus : Obligations.GatesQueueWaitsAndStatus := by
  unfold Obligations.GatesQueueWaitsAndStatus
  refine ⟨fun s q qd qmask xt ctr csp skip mask inv => ?_, fun s q qd qmask xt ctr csp skip mask inv k i hl hi => ?_,
    fun s mask q d sel => ⟨fun hs he => ?_, fun ht hc => ?_, fun hs he => ?_, rfl, ?_⟩⟩
  · have hj := s.judges_ctrFault (some (csp, s.nx ctr))
    refine ⟨?_, ?_, ?_, fun h => ?_, hj.2, fun f hc hf => ?_, ?_⟩
    · exact (exec_sbarRd_eq q qd qmask).trans (congrArg _ (s.finish_some ..))
    · exact (exec_sbarWr_eq q qd qmask).trans (congrArg _ (s.finish_some ..))
    · exact (exec_sbarAll_eq q qd qmask).trans (congrArg _ (s.finish_some ..))
    · exact (exec_scond_of_none h).trans (congrArg _ (s.finish_some ..))
    · rw [exec_scond_of_some (hj.1 f hf), State.trapOn_of_canTrap hc]
    · exact (exec_stitch_eq q qd mask).trans (congrArg _ (s.finish_some ..))
  · simp only [List.mem_cons, List.not_mem_nil, or_false, Prod.mk.injEq] at hi
    rcases hi with (⟨rfl, rfl⟩ | ⟨rfl, rfl⟩ | ⟨rfl, rfl⟩ | ⟨rfl, rfl⟩) | ⟨⟨rfl, rfl⟩, hctr⟩
    · have h := State.queued_finish hl q qd (s.sbarTime qmask) (s.sbarEntry .sbarRd qmask)
      exact ⟨_, _, exec_sbarRd_eq q qd qmask, h.entries, rfl, rfl, by simp, by simp, h.quote, h.regs, h.queues, h.memory, h.pc⟩
    · have h := State.queued_finish hl q qd (s.sbarTime qmask) (s.sbarEntry .sbarWr qmask)
      exact ⟨_, _, exec_sbarWr_eq q qd qmask, h.entries, rfl, rfl, by simp, by simp, h.quote, h.regs, h.queues, h.memory, h.pc⟩
    · have h := State.queued_finish hl q qd (s.sbarTime qmask) (s.sbarEntry .sbarAll qmask)
      exact ⟨_, _, exec_sbarAll_eq q qd qmask, h.entries, rfl, rfl, by simp, by simp, h.quote, h.regs, h.queues, h.memory, h.pc⟩
    · have h := State.queued_finish hl q qd 4 (s.stitchEntry q mask)
      exact ⟨_, _, exec_stitch_eq q qd mask, h.entries, rfl, rfl, by simp, fun _ _ => Tile.mem_inQueues, h.quote, h.regs, h.queues, h.memory, h.pc⟩
    · have h := State.queued_finish hl q qd 4 (s.scondEntry xt ctr csp inv skip)
      exact ⟨_, _, exec_scond_of_none hctr, h.entries, rfl, rfl, fun _ => ⟨rfl, rfl, rfl, rfl⟩, by simp, h.quote, h.regs, h.queues, h.memory, h.pc⟩
  · rw [exec_qwait, execQwait, State.waitPoint_of_spared hs, he]
    rfl
  · rw [exec_qwait, execQwait, State.waitPoint_of_condemned ht hc]
  · rw [exec_qwait, execQwait, State.waitPoint_of_spared hs, if_neg]
    simpa using he
  · have h := s.clearedFault_qstat q d sel
    exact ⟨_, exec_qstat_clr s q d sel, h.value, h.queue, h.queues, h.regs, h.memory, h.pc⟩

end Sys2Proof.Machine
end

section
/-! Stream and copy commands (R41, R222, R229, R234 to R236, R241 to R244, R248). -/

namespace Sys2Proof.Machine

/-- The patterns that the first row of R248 refuses. -/
theorem Pat.bad_iff (p : Pat) : p.bad = true ↔ p.Refused := by
  simp only [Pat.bad, Pat.Refused, Bool.or_eq_true, Bool.and_eq_true, bne_iff_ne, decide_eq_true_eq, beq_iff_eq, Bool.not_eq_true', Option.isNone_iff_eq_none,
    List.mem_cons, List.not_mem_nil, or_false, ← Bool.not_eq_true, or_assoc, Nat.lt_succ_iff, Nat.le_zero]

/-! Streams. -/

section
variable {s : State} {k : QKind} {q : QArgs} {i : Instr}

theorem exec_of_mem_streamsOf (h : (k, i) ∈ streamsOf q) (s : State) : exec i s = .next (s.stream k q) := by
  simp only [streamsOf, List.mem_cons, Prod.mk.injEq, List.not_mem_nil, or_false] at h
  rcases h with ⟨rfl, rfl⟩ | ⟨rfl, rfl⟩ | ⟨rfl, rfl⟩ | ⟨rfl, rfl⟩ | ⟨rfl, rfl⟩ | ⟨rfl, rfl⟩ <;> rfl

theorem State.stream_of_none (h : s.streamFault (s.streamEntry k q) q.pa q.pb = none) :
    s.stream k q = s.finish q.queue q.qd (s.streamEntry k q) (s.streamTime (s.streamEntry k q)) := by
  rw [State.stream]
  rw [h]

theorem State.stream_of_some {f : Trap3} (h : s.streamFault (s.streamEntry k q) q.pa q.pb = some f) : s.stream k q = s.trapOn f := by
  rw [State.stream]
  rw [h]

theorem State.stream_of_passes {n : Nat} (h : s.StreamPasses k q n) : s.stream k q = s.queued q.queue q.qd (s.streamEntry k q) n := by
  obtain ⟨hf, ht, hw⟩ := h
  rw [State.stream_of_none hf, ht, State.finish_of_within hw]

theorem QKind.mem_iff (k : QKind) : k.mem = true ↔ k ∈ [QKind.sIn, .sOut, .sInd] := by cases k <;> decide

theorem QKind.egress_iff (k : QKind) : k.egress = true ↔ k ∈ [QKind.sOut, .sDrop, .sRec] := by cases k <;> decide

/-- The spaces that a stream's pattern may not name (R234). -/
theorem streamSpaces_iff (k : QKind) (sp : Nat) : (k.mem && !(streamSpaces k).contains sp) = true
    ↔ (k = .sIn ∧ sp ∉ [0, 1, 5]) ∨ (k = .sOut ∧ sp ∉ [0, 1, 2, 5]) ∨ (k = .sInd ∧ sp ≠ 0) := by
  cases k <;> simp [QKind.mem, streamSpaces]

theorem isWide_iff (f : Nat) : isWide f = true ↔ f ∈ [0x04, 0x05, 0x0A, 0x0B] := by simp [isWide, or_assoc]

/-- A row that concerns gathers only. -/
theorem gather_row {k : QKind} {b : Bool} {c : Prop} (h : k = .sInd → (b = true ↔ c)) : (k == .sInd && b) = true ↔ k = .sInd ∧ c := by
  rw [Bool.and_eq_true, beq_iff_eq]
  exact and_congr_right h

/-- The checks of a stream are those of R248. -/
theorem State.judges_streamFault (s : State) (k : QKind) (q : QArgs) :
    Judges (s.streamFault (s.streamEntry k q) q.pa q.pb) (s.streamChecks k q) := by
  have hctr := s.judges_ctrFault (s.ctrOf q.ctr q.csp)
  have hk : (s.streamEntry k q).kind = k := rfl
  have ha : (s.streamEntry k q).patA = patOf (s.getP q.pa).toNat := rfl
  have hb : k = .sInd → (s.streamEntry k q).patB = patOf (s.getP q.pb).toNat := by
    rintro rfl
    rfl
  unfold State.streamFault State.streamChecks
  dsimp only
  rw [hk, ha]
  refine Judges.row (Judges.row (Judges.row (Judges.row (Judges.rows (Judges.row hctr ?wide) ?space) ?resB) ?resA) ?badB) ?badA
  case wide => exact gather_row fun h => by simp only [hb h, Bool.not_eq_true', ← Bool.not_eq_true, Bool.and_eq_true, isWide_iff, beq_iff_eq, and_assoc]
  case space =>
    rw [Bool.not_not, streamSpaces_iff, gather_row fun h => by rw [hb h, bne_iff_ne]]
    rw [or_assoc, or_assoc, ← and_or_left]
  case resB => exact gather_row fun h => by rw [hb h, beq_iff_eq]
  case resA => rw [Bool.not_not, Bool.and_eq_true, QKind.mem_iff, beq_iff_eq]
  case badB => exact gather_row fun h => by rw [hb h, Pat.bad_iff]
  case badA =>
    simp only [Bool.or_eq_true, Bool.and_eq_true, Pat.bad_iff, Bool.not_eq_true', ← Bool.not_eq_true, QKind.mem_iff, QKind.egress_iff, beq_iff_eq, bne_iff_ne,
      decide_eq_true_eq, or_assoc]

end

/-! Copies. -/

section
variable {s : State} {k : QKind} {q : QArgs} {i : Instr}

/-- The destinations of a copy: the members of its group when it names one. -/
def State.copyGroup (s : State) (k : QKind) (q : QArgs) : Option (List Nat) := if k == .mcopy || (k == .rcopy && q.grp) then s.groupOf q.aux else some []

theorem exec_of_mem_copiesOf (h : (k, i) ∈ copiesOf q) (s : State) : exec i s = .next (s.copyCmd k q) := by
  simp only [copiesOf, List.mem_cons, Prod.mk.injEq, List.not_mem_nil, or_false] at h
  rcases h with ⟨rfl, rfl⟩ | ⟨rfl, rfl⟩ | ⟨rfl, rfl⟩ <;> rfl

theorem State.copyCmd_of_none {g : List Nat} (hg : s.copyGroup k q = some g) (h : s.copyFault (s.copyEntry k q g) q.pa q.pb q.aux true = none) :
    s.copyCmd k q = s.finish q.queue q.qd (s.copyEntry k q g)
      (if s.hostRefused [(s.copyEntry k q g).patA, (s.copyEntry k q g).patB] then none else s.copyTime (s.copyEntry k q g)) := by
  unfold State.copyGroup at hg
  rw [State.copyCmd]
  rw [hg, Option.getD_some, Option.isSome_some, h]

theorem State.copyCmd_of_some {f : Trap3} (h : s.copyFault (s.copyEntry k q ((s.copyGroup k q).getD [])) q.pa q.pb q.aux (s.copyGroup k q).isSome = some f) :
    s.copyCmd k q = s.trapOn f := by
  unfold State.copyGroup at h
  rw [State.copyCmd]
  rw [h]

theorem State.copyCmd_of_passes {g : List Nat} {n : Nat} (hg : s.copyGroup k q = some g) (h : s.CopyPasses k q g n) :
    s.copyCmd k q = s.queued q.queue q.qd (s.copyEntry k q g) n := by
  obtain ⟨hf, hh, ht, hw⟩ := h
  rw [State.copyCmd_of_none hg hf, hh, if_neg (by decide), ht, State.finish_of_within hw]

/-- The spaces that a copy may not write (R243, R244). -/
theorem copySpaces_iff (h : (k, i) ∈ copiesOf q) (s : State) (g : List Nat) : (!(s.copyEntry k q g).spacesOk) = true
    ↔ ((k = .mcopy ∨ (k = .rcopy ∧ q.grp = true)) ∧ ¬ ((patOf (s.getP q.pb).toNat).space = 2 ∧ bits (patOf (s.getP q.pb).toNat).base 33 22 = 0))
      ∨ (¬ (k = .mcopy ∨ (k = .rcopy ∧ q.grp = true)) ∧ k = .rcopy ∧ (patOf (s.getP q.pb).toNat).space ∉ [0, 1, 2, 5]) := by
  have hb : (s.copyEntry k q g).patB = patOf (s.getP q.pb).toNat := rfl
  have hk : (s.copyEntry k q g).kind = k := rfl
  have hi : (s.copyEntry k q g).inv = q.grp := rfl
  simp only [copiesOf, List.mem_cons, Prod.mk.injEq, List.not_mem_nil, or_false] at h
  rw [QEntry.spacesOk, QEntry.grouped, groupBase, hb, hk, hi]
  rcases h with ⟨rfl, -⟩ | ⟨rfl, -⟩ | ⟨rfl, -⟩
  · simp
  · simp [← not_and_or]
  · cases q.grp <;> simp [← not_and_or]

/-- The format pairs that RCOPY refuses (R244). -/
theorem reduceOk_iff (op : Nat) (a b : Pat) : reduceOk op a b = true ↔ ReduceAllowed op a b := by
  unfold reduceOk ReduceAllowed
  split <;> simp only [Bool.and_eq_true, beq_iff_eq, bne_iff_ne, isWide_iff, and_assoc]

/-- The format pairs that COPY and MCOPY refuse (R242). -/
theorem pairOk_iff (a b : Pat) : pairOk a b = true ↔ PairAllowed a b := by
  unfold pairOk PairAllowed
  by_cases h : a.fmt = b.fmt
  · simp [h]
  · cases hb : isBlockFmt b.fmt <;> simp [h, and_assoc]

theorem copyDiv_eq (a b : Pat) : copyDiv a b = if isMxFmt b.fmt = true ∧ isBlockFmt a.fmt = false then 32 else 1 := by
  simp only [copyDiv, Bool.and_eq_true, Bool.not_eq_true']

/-- The checks of a copy are those of R248. -/
theorem State.judges_copyFault (h : (k, i) ∈ copiesOf q) (s : State) :
    Judges (s.copyFault (s.copyEntry k q ((s.copyGroup k q).getD [])) q.pa q.pb q.aux (s.copyGroup k q).isSome) (s.copyChecks k q) := by
  have hctr := s.judges_ctrFault (s.ctrOf q.ctr q.csp)
  have hspace := copySpaces_iff h s ((s.copyGroup k q).getD [])
  generalize hg : (s.copyGroup k q).getD [] = g at hspace ⊢
  have hk : (s.copyEntry k q g).kind = k := rfl
  have ha : (s.copyEntry k q g).patA = patOf (s.getP q.pa).toNat := rfl
  have hb : (s.copyEntry k q g).patB = patOf (s.getP q.pb).toNat := rfl
  have hp : (s.copyEntry k q g).port = q.port := rfl
  unfold State.copyFault State.copyChecks
  dsimp only
  rw [hk, ha, hb, hp]
  refine Judges.row (Judges.row (Judges.row (Judges.row (Judges.row (Judges.row
    (Judges.row (Judges.row hctr ?group) ?pair) ?count) hspace) ?resB) ?resA) ?badB) ?badA
  case group =>
    rw [State.copyGroup]
    split <;> simp_all
  case pair =>
    by_cases hr : k = .rcopy
    · simp [hr, ← reduceOk_iff]
    · simp [hr, ← pairOk_iff]
  case count =>
    by_cases hr : k = .rcopy
    · simp [hr]
    · simp [hr, copyDiv_eq]
  case resB => exact beq_iff_eq
  case resA => exact beq_iff_eq
  case badB => simp only [Bool.or_eq_true, Bool.and_eq_true, Pat.bad_iff, beq_iff_eq, bne_iff_ne, and_assoc]
  case badA => exact Pat.bad_iff _

end

/-- Settles O24: the checks of each command are judged in their order, and its bound decides between the queue and all ones. -/
theorem transferCommandsEnterTheirQueueOrAreRefused : Obligations.TransferCommandsEnterTheirQueueOrAreRefused := by
  unfold Obligations.TransferCommandsEnterTheirQueueOrAreRefused
  refine ⟨fun s q n => ?_, fun s q n => ?_, fun s q k i => ⟨fun hi => ?_, fun hi => ?_⟩, fun s q k i e time hcase => ?_⟩
  · refine ⟨fun h => ?_, fun h => ?_, fun h => ?_, fun h => ?_, fun h => ?_, fun h => ?_⟩ <;> exact congrArg Host.Outcome.next (State.stream_of_passes h)
  · refine ⟨fun h => ?_, fun g hg h => ?_, fun g hq hg h => ?_, fun hq h => ?_⟩
    · exact congrArg Host.Outcome.next (State.copyCmd_of_passes rfl h)
    · exact congrArg Host.Outcome.next (State.copyCmd_of_passes (k := .mcopy) hg h)
    · exact congrArg Host.Outcome.next (State.copyCmd_of_passes (by simp [State.copyGroup, hq, hg]) h)
    · exact congrArg Host.Outcome.next (State.copyCmd_of_passes (by simp [State.copyGroup, hq]) h)
  · have hj := s.judges_streamFault k q
    refine ⟨fun f hc hf => ?_, hj.2⟩
    rw [exec_of_mem_streamsOf hi, State.stream_of_some (hj.1 f hf), State.trapOn_of_canTrap hc]
  · have hj := State.judges_copyFault hi s
    refine ⟨fun f hc hf => ?_, fun hp => ?_⟩
    · rw [exec_of_mem_copiesOf hi, State.copyCmd_of_some (hj.1 f hf), State.trapOn_of_canTrap hc]
    · have hn := hj.2 hp
      change ∃ g, s.copyGroup k q = some g ∧ _
      cases hg : s.copyGroup k q with
      | some g => exact ⟨g, rfl, by rwa [hg] at hn⟩
      | none =>
        unfold State.copyGroup at hg
        split at hg <;> simp_all [State.copyChecks, PassAll]
  · have hexec : exec i s = .next (s.finish q.queue q.qd e time) := by
      rcases hcase with ⟨hi, rfl, rfl, hn⟩ | ⟨hi, ⟨g, hg, rfl, hn⟩, rfl⟩
      · rw [exec_of_mem_streamsOf hi, State.stream_of_none hn]
      · rw [exec_of_mem_copiesOf hi, State.copyCmd_of_none hg hn]
    have he : e.kind = k ∧ e.pa = (s.getP q.pa).toNat ∧ e.ctr = s.ctrOf q.ctr q.csp ∧ e.st = .queued := by
      rcases hcase with ⟨-, rfl, -⟩ | ⟨-, ⟨g, -, rfl, -⟩, -⟩ <;> exact ⟨rfl, rfl, rfl, rfl⟩
    obtain ⟨hk, hp, hc, hs⟩ := he
    refine ⟨fun n hn hw => ?_, fun hr => ?_⟩
    · have h := s.queued_queued q.queue q.qd n e
      exact ⟨_, _, by rw [hexec, hn, State.finish_of_within hw], h.entries, hk, hp, hc, rfl, rfl, hs, h.quote, h.regs, h.queues, h.memory, h.pc⟩
    · rw [hexec, State.finish_of_refused hr]

end Sys2Proof.Machine
end

section
/-! Meters, power and the clock (R17, R376, R381, R386, R391, R392). -/

namespace Sys2Proof.Machine

/-! Records in Clasp's log and the partitions' rings. -/

/-- A partition but for the counts of its fault ring. -/
def Partition.RingOnly (q r : Partition) : Prop := r = { q with dropped := r.dropped, rhead := r.rhead }

theorem Partition.RingOnly.refl (q : Partition) : q.RingOnly q := rfl

theorem Partition.RingOnly.trans {q r v : Partition} (h1 : q.RingOnly r) (h2 : r.RingOnly v) : q.RingOnly v := by
  unfold Partition.RingOnly at h1 h2 ⊢
  refine h2.trans ?_
  rw [h1]

/-- Clasp but for its log. -/
def Clasp.LogOnly (c d : Clasp) : Prop := d = { c with log := d.log }

theorem Clasp.LogOnly.refl (c : Clasp) : c.LogOnly c := rfl

theorem Clasp.LogOnly.trans {c d e : Clasp} (h1 : c.LogOnly d) (h2 : d.LogOnly e) : c.LogOnly e := by
  unfold Clasp.LogOnly at h1 h2 ⊢
  refine h2.trans ?_
  rw [h1]

/-- What records leave of the partitions, Clasp and the dies. -/
structure State.Recorded (s t : State) : Prop where
  part : ∀ p, (s.part p).RingOnly (t.part p)
  clasp : s.clasp.LogOnly t.clasp
  dies : t.dies = s.dies

theorem State.Recorded.refl (s : State) : s.Recorded s := ⟨fun _ => .refl _, rfl, rfl⟩

theorem State.Recorded.trans {s t u : State} (h1 : s.Recorded t) (h2 : t.Recorded u) : s.Recorded u :=
  ⟨fun p => (h1.part p).trans (h2.part p), h1.clasp.trans h2.clasp, h2.dies.trans h1.dies⟩

theorem State.Recorded.modPart {s t : State} (h : s.Recorded t) {p : Nat} {f : Partition → Partition} (hf : ∀ q : Partition, q.RingOnly (f q)) :
    s.Recorded (t.modPart p f) := by
  refine h.trans ⟨fun k => ?_, rfl, rfl⟩
  by_cases hk : k = p
  · subst hk
    rw [State.part_modPart]
    exact hf _
  · rw [State.part_modPart_ne t hk]
    exact .refl _

theorem State.recorded_ringRecord (s : State) (p r : Nat) : s.Recorded (s.ringRecord p r) := by
  unfold State.ringRecord
  dsimp only
  split
  · exact (State.Recorded.refl s).modPart (f := fun q => { q with dropped := (q.dropped + 1) % 2 ^ 64 }) fun _ => rfl
  · have hw : s.Recorded (s.writeHome (.host p ((s.part p).rbase + 32 * ((s.part p).rhead % (s.part p).rsize))) 32 r) := ⟨fun _ => .refl _, rfl, rfl⟩
    exact hw.modPart (f := fun q => { q with rhead := (q.rhead + 1) % 2 ^ 64 }) fun _ => rfl

theorem State.recorded_logRecord (s : State) (p : Option Nat) (r : Nat) : s.Recorded (s.logRecord p r) := by
  have h : s.Recorded (s.modClasp fun c => { c with log := c.log ++ [[r]] }) := ⟨fun _ => rfl, rfl, rfl⟩
  cases p with
  | none => exact h
  | some p => exact h.trans (State.recorded_ringRecord _ p r)

/-! A fold (R381, R386). -/

theorem bit_eq_testBit (n k : Nat) : bit n k = n.testBit k := by
  rw [Nat.testBit_eq_decide_div_mod_eq, bit, beq_eq_decide]

theorem sum_range_b2n_lt (c : Nat → Bool) (n : Nat) : ((List.range n).map fun m => b2n (c m) * 2 ^ m).sum < 2 ^ n := by
  induction n with
  | zero => simp
  | succ n ih =>
    have hle : b2n (c n) * 2 ^ n ≤ 2 ^ n := by cases c n <;> simp [b2n]
    rw [List.range_succ, List.map_append, List.sum_append, List.map_singleton, List.sum_singleton, Nat.pow_succ]
    omega

/-- The bits of a sum of distinct powers of two. -/
theorem testBit_sum_range (c : Nat → Bool) {n k : Nat} (hk : k < n) : (((List.range n).map fun m => b2n (c m) * 2 ^ m).sum).testBit k = c k := by
  induction n with
  | zero => omega
  | succ n ih =>
    have hlt := sum_range_b2n_lt c n
    rw [List.range_succ, List.map_append, List.sum_append, List.map_singleton, List.sum_singleton, Nat.add_comm, Nat.mul_comm]
    rw [Nat.testBit_two_pow_mul_add _ hlt]
    split
    · exact ih ‹_›
    · obtain rfl : k = n := by omega
      cases c k <;> simp [b2n]

/-- A partition after a fold: each meter has its partial count, and one that has reached its cap is held (R381, R386). -/
structure Partition.Folded (q r : Partition) : Prop where
  meter : ∀ m, m < 16 → mget 0 r.meters m = min (2 ^ 64 - 1) (mget 0 q.meters m + mget 0 q.partial_ m)
  counts : r.partial_ = []
  cap : ∀ m, m < 16 → mget 0 q.caps m ≠ 0 → mget 0 q.caps m ≤ mget 0 r.meters m → bit r.atcap m = true ∧ r.hold.cap = true

theorem Partition.Folded.of_ringOnly {q q' r r' : Partition} (h : q'.Folded r) (hq : q.RingOnly q') (hr : r.RingOnly r') : q.Folded r' := by
  unfold Partition.RingOnly at hq hr
  rw [hr]
  rw [hq] at h
  exact ⟨h.meter, h.counts, h.cap⟩

/-- One meter after the other takes its count. -/
theorem mget_foldl_mput (f : Nat → Nat → Nat) (l : List Nat) (hl : l.Nodup) (ms : Map Nat) (k : Nat) :
    mget 0 (l.foldl (fun m k => mput m k (f k (mget 0 m k))) ms) k = if k ∈ l then f k (mget 0 ms k) else mget 0 ms k := by
  induction l generalizing ms with
  | nil => rfl
  | cons j l ih =>
    obtain ⟨hj, hl⟩ := List.nodup_cons.1 hl
    rw [List.foldl_cons, ih hl]
    by_cases hk : k = j
    · subst hk
      rw [if_neg hj, if_pos List.mem_cons_self, mget_mput_same]
    · simp [mget_mput_ne hk, hk]

theorem Partition.meters_fold (q : Partition) :
    q.fold.meters = (List.range 16).foldl (fun m k => mput m k (min meterTop (mget 0 m k + mget 0 q.partial_ k))) q.meters := by rw [Partition.fold]

theorem Partition.mget_meters_fold (q : Partition) {m : Nat} (hm : m < 16) :
    mget 0 q.fold.meters m = min (2 ^ 64 - 1) (mget 0 q.meters m + mget 0 q.partial_ m) := by
  rw [Partition.meters_fold, mget_foldl_mput (fun k n => min meterTop (n + mget 0 q.partial_ k)) (List.range 16) List.nodup_range q.meters m,
    if_pos (List.mem_range.2 hm), meterTop]

/-- A partition whose counts are folded, with ATCAP and the hold of a cap. -/
def Partition.capped (q : Partition) : Partition :=
  { q.fold with
    atcap := q.atcap ||| q.fold.atcapOf, hold := { q.fold.hold with cap := (q.atcap ||| q.fold.atcapOf) != 0 } }

theorem Partition.folded_capped (q : Partition) : q.Folded q.capped := by
  have hmeters : q.capped.meters = q.fold.meters := by rw [Partition.capped]
  have hcaps : q.fold.caps = q.caps := by rw [Partition.fold]
  refine ⟨fun m hm => by rw [hmeters, q.mget_meters_fold hm], by rw [Partition.capped, Partition.fold], fun m hm h0 hc => ?_⟩
  rw [hmeters] at hc
  have hbit : (q.atcap ||| q.fold.atcapOf).testBit m = true := by
    have h := testBit_sum_range (fun m => mget 0 q.fold.caps m != 0 && decide (mget 0 q.fold.caps m ≤ mget 0 q.fold.meters m)) hm
    rw [Nat.testBit_or, Partition.atcapOf, h, hcaps, Bool.or_eq_true, Bool.and_eq_true, bne_iff_ne, decide_eq_true_eq]
    exact .inr ⟨h0, hc⟩
  rw [Partition.capped]
  refine ⟨(bit_eq_testBit _ _).trans hbit, bne_iff_ne.2 fun h => ?_⟩
  rw [h, Nat.zero_testBit] at hbit
  cases hbit

theorem State.recorded_foldPart (s : State) (p : Nat) : (s.modPart p Partition.capped).Recorded (s.foldPart p) := by
  have h : ∀ (l : List Nat) (r : State → Nat → Nat) (u : State), u.Recorded (l.foldl (fun s m => s.logRecord (some p) (r s m)) u) := fun l r u =>
    List.foldlRecOn (motive := u.Recorded) _ _ (.refl u) fun w hw m _ => hw.trans (State.recorded_logRecord w _ _)
  unfold State.foldPart
  dsimp only
  rw [State.part_modPart, State.modPart_modPart]
  refine State.Recorded.trans ?_ (h _ _ _)
  refine ⟨fun k => ?_, rfl, rfl⟩
  by_cases hk : k = p
  · subst hk
    rw [State.part_modPart, State.part_modPart, Partition.capped]
    exact .refl _
  · rw [State.part_modPart_ne s hk, State.part_modPart_ne s hk]
    rfl

/-- Every partition of the list is folded once. -/
theorem State.foldl_foldPart (l : List Nat) (hl : l.Nodup) (s : State) : let u := l.foldl (fun s p => s.foldPart p) s
    (∀ p, p ∉ l → (s.part p).RingOnly (u.part p)) ∧ (∀ p, p ∈ l → (s.part p).Folded (u.part p)) ∧ s.clasp.LogOnly u.clasp
      ∧ u.dies = s.dies := by
  induction l generalizing s with
  | nil => exact ⟨fun _ _ => .refl _, fun _ hp => absurd hp List.not_mem_nil, rfl, rfl⟩
  | cons a l ih =>
    obtain ⟨ha, hl⟩ := List.nodup_cons.1 hl
    obtain ⟨hout, hin, hc, hd⟩ := ih hl (s.foldPart a)
    have hr := s.recorded_foldPart a
    have hne : ∀ p, p ≠ a → (s.part p).RingOnly ((s.foldPart a).part p) := fun p hp => by
      have := hr.part p
      rwa [State.part_modPart_ne s hp] at this
    refine ⟨fun p hp => ?_, fun p hp => ?_, ?_, hd.trans hr.dies⟩
    · obtain ⟨hpa, hp⟩ := not_or.1 (mt List.mem_cons.2 hp)
      exact (hne p hpa).trans (hout p hp)
    · rcases List.mem_cons.1 hp with rfl | hp
      · have hself := hr.part p
        rw [State.part_modPart] at hself
        exact (s.part p).folded_capped.of_ringOnly (.refl _) (hself.trans (hout p ha))
      · exact (hin p hp).of_ringOnly (hne p fun e => ha (e ▸ hp)) (.refl _)
    · exact hr.clasp.trans hc

theorem State.logOnly_foldAll (s : State) : s.clasp.LogOnly s.foldAll.clasp := by
  have h : ∀ l : List Nat, s.clasp.LogOnly (l.foldl (fun s p => s.foldPart p) s).clasp := fun l =>
    List.foldlRecOn (motive := fun u : State => s.clasp.LogOnly u.clasp) _ _ (.refl _) fun u hu p _ => hu.trans (u.recorded_foldPart p).clasp
  exact h _

/-! Power (R376, R391, R392). -/

/-- A partition but for what a configuration record names: its chain of colophons and its migration stay. -/
structure Partition.SameChain (q r : Partition) : Prop where
  seq : r.coloSeq = q.coloSeq
  prev : r.coloPrev = q.coloPrev
  job : r.job = q.job

/-- What a module without migrations keeps when a configuration record takes effect. -/
structure State.Configured (s t : State) : Prop where
  powered : t.powered = s.powered
  agenda : t.agenda = s.agenda
  tiles : t.tiles = s.tiles
  launches : t.launches = s.launches
  dies : s.dies = [] → t.dies = []
  dev : s.dev.bytes = [] → t.dev.bytes = []
  spared : t.clasp.spared = s.clasp.spared
  chain : ∀ p, (s.part p).SameChain (t.part p)
  keys : ∀ p, (mfind p s.parts).isSome = true → (mfind p t.parts).isSome = true

theorem State.Configured.refl (s : State) : s.Configured s := ⟨rfl, rfl, rfl, rfl, id, id, rfl, fun _ => ⟨rfl, rfl, rfl⟩, fun _ => id⟩

theorem State.Configured.trans {s t u : State} (h1 : s.Configured t) (h2 : t.Configured u) : s.Configured u where
  powered := h2.powered.trans h1.powered
  agenda := h2.agenda.trans h1.agenda
  tiles := h2.tiles.trans h1.tiles
  launches := h2.launches.trans h1.launches
  dies h := h2.dies (h1.dies h)
  dev h := h2.dev (h1.dev h)
  spared := h2.spared.trans h1.spared
  chain p := ⟨(h2.chain p).seq.trans (h1.chain p).seq, (h2.chain p).prev.trans (h1.chain p).prev, (h2.chain p).job.trans (h1.chain p).job⟩
  keys p h := h2.keys p (h1.keys p h)

theorem State.Configured.modPart (s : State) (p : Nat) {f : Partition → Partition}
    (hf : (s.part p).SameChain (f (s.part p))) : s.Configured (s.modPart p f) := by
  refine ⟨rfl, rfl, rfl, rfl, id, id, rfl, fun k => ?_, fun k hk => ?_⟩
  · by_cases h : k = p
    · subst h
      rwa [State.part_modPart]
    · rw [State.part_modPart_ne s h]
      exact ⟨rfl, rfl, rfl⟩
  · rw [State.modPart]
    by_cases h : k = p
    · rw [h, mfind_mput_same]
      rfl
    · rwa [mfind_mput_ne h]

theorem State.endLostMigration_of_none {s : State} {p : Nat} (h : (s.part p).job = none) : s.endLostMigration p = s := by
  rw [State.endLostMigration]
  rw [h]

theorem State.foldl_endLostMigration {s : State} (h : ∀ p, (s.part p).job = none) (l : List Nat) : l.foldl (fun s p => s.endLostMigration p) s = s := by
  induction l with
  | nil => rfl
  | cons p l ih => rw [List.foldl_cons, State.endLostMigration_of_none (h p), ih]

/-- No migration ends with the record. -/
theorem State.Configured.settled {s t : State} (h : s.Configured t) (hs : ∀ p, (s.part p).job = none) {r : Nat} (hr : t.clasp.record = r) (l : List Nat) :
    s.Configured (l.foldl (fun s p => s.endLostMigration p) t) ∧ (l.foldl (fun s p => s.endLostMigration p) t).clasp.record = r := by
  rw [State.foldl_endLostMigration fun p => (h.chain p).job.trans (hs p)]
  exact ⟨h, hr⟩

theorem Partition.sameChain_entryOf (q : Partition) (e : Nat) : q.SameChain (entryOf e q) := ⟨rfl, rfl, rfl⟩

/-- A configuration record that takes effect with no migration under way. -/
theorem State.configured_install (s : State) (hs : ∀ p, (s.part p).job = none) (r : Nat) : s.Configured (s.install r) ∧ (s.install r).clasp.record = r := by
  unfold State.install
  dsimp only
  generalize recordRuns r (r.log2 / 32 + 1) 0 = runs
  have h0 : s.Configured (s.zeroGranules runs) := by
    refine ⟨rfl, rfl, rfl, rfl, id, fun h => ?_, rfl, fun _ => ⟨rfl, rfl, rfl⟩, fun _ => id⟩
    rw [State.zeroGranules, h]
    rfl
  have h1 := List.foldlRecOn (motive := s.Configured) (List.range 64) (fun s p =>
    if recordEntry r p = 0 && (mfind p s.parts).isNone then s
    else s.modPart p fun q =>
      let n := entryOf (recordEntry r p) q
      if n.valid && !q.valid then { n with meters := [], partial_ := [], atcap := 0 } else n) h0 fun u hu p _ => by
    split
    · exact hu
    · refine hu.trans (.modPart u p ?_)
      dsimp only
      split
      · exact ⟨rfl, rfl, rfl⟩
      · exact Partition.sameChain_entryOf _ _
  generalize (List.range 64).foldl _ (s.zeroGranules runs) = u at h1 ⊢
  have h2 : u.Configured (u.modClasp fun c => { c with record := r, recordOk := true, runs := runs }) :=
    ⟨rfl, rfl, rfl, rfl, id, id, rfl, fun _ => ⟨rfl, rfl, rfl⟩, fun _ => id⟩
  have h3 : ∀ v : State, v.Configured { (v.modClasp fun c => if c.checkpointFits then c else { c with image := none }) with
      dies := v.dies.map fun d => (d.1, { d.2 with cache := [] }) }
      ∧ (v.modClasp fun c => if c.checkpointFits then c else { c with image := none }).clasp.record = v.clasp.record := fun v => by
    unfold State.modClasp
    dsimp only
    split
    · exact ⟨⟨rfl, rfl, rfl, rfl, fun h => by rw [h]; rfl, id, rfl, fun _ => ⟨rfl, rfl, rfl⟩, fun _ => id⟩, rfl⟩
    · exact ⟨⟨rfl, rfl, rfl, rfl, fun h => by rw [h]; rfl, id, rfl, fun _ => ⟨rfl, rfl, rfl⟩, fun _ => id⟩, rfl⟩
  have h4 := (h1.trans h2).trans (h3 _).1
  exact h4.settled hs (h3 _).2 _

/-- A partition that no record has named, with its chain of colophons. -/
def Partition.chainOnly (q : Partition) : Partition := { Partition.reset with coloSeq := q.coloSeq, coloPrev := q.coloPrev }

theorem mfind_map_val {α β : Type} (f : Nat → α → β) (m : Map α) (p : Nat) :
    mfind p (m.map fun e => (e.1, f e.1 e.2) : Map β) = (mfind p m).map (f p) := by
  induction m with
  | nil => rfl
  | cons e m ih =>
    obtain ⟨k, q⟩ := e
    rw [List.map_cons, mfind, mfind]
    by_cases h : k = p
    · rw [if_pos h, if_pos h, h]
      rfl
    · rw [if_neg h, if_neg h, ih]

/-- What is in force when power has come, before a checkpoint's image. -/
structure State.Booted (s t : State) : Prop where
  powered : t.powered = true
  agenda : t.agenda = []
  tiles : t.tiles = []
  launches : t.launches = []
  dies : t.dies = []
  dev : t.dev.bytes = []
  spared : t.clasp.spared = if s.clasp.sparingOk then s.clasp.sparRec.spared else []
  record : t.clasp.record = s.clasp.record
  seq : ∀ p, (t.part p).coloSeq = (s.part p).coloSeq
  prev : ∀ p, (t.part p).coloPrev = (s.part p).coloPrev
  keys : ∀ p, (mfind p s.parts).isSome = true → (mfind p t.parts).isSome = true

/-- Errors of links go to Clasp's log and queue of tests. -/
theorem State.foldl_detectLink_eq (s : State) (l : List Nat) : ∃ n g ts, l.foldl (fun s k => s.detectLink k 6) s
    = { s with free := n, clasp := { s.clasp with log := g, tests := ts } } := by
  induction l generalizing s with
  | nil => exact ⟨_, _, _, rfl⟩
  | cons k l ih =>
    obtain ⟨n, g, ts, h⟩ := ih (s.detectLink k 6)
    exact ⟨n, g, ts, h⟩

theorem State.part_of_chainOnly (s : State) {t : State} (ht : t.parts = s.parts.map fun e => (e.1, e.2.chainOnly)) (p : Nat) :
    t.part p = (s.part p).chainOnly := by
  rw [State.part, State.part, mget, mget, ht, mfind_map_val fun _ q => Partition.chainOnly q]
  cases mfind p s.parts <;> rfl

/-- Power that comes: what the records bring, and the chains of the partitions. -/
theorem State.booted_boot (s : State) : s.Booted s.boot ∧ (s.clasp.recordVerified = false → ∀ p, (s.boot.part p).valid = false) := by
  unfold State.boot
  dsimp only
  generalize (List.range 46).foldl _ ([] : Map Link) = links
  obtain ⟨n, g, ts, h⟩ := State.foldl_detectLink_eq _ (mkeys links)
  rw [h]
  clear h
  generalize hu : State.mk _ _ _ _ _ _ _ _ _ _ _ _ _ _ _ _ _ _ _ _ = u
  have hp := s.part_of_chainOnly (t := u) (hu ▸ rfl)
  have hb : s.Booted u := by
    subst hu
    refine ⟨rfl, rfl, rfl, rfl, rfl, rfl, rfl, rfl, fun p => ?_, fun p => ?_, fun p hk => ?_⟩
    · rw [hp]
      rfl
    · rw [hp]
      rfl
    · have := mfind_map_val (fun _ q => Partition.chainOnly q) s.parts p
      change (mfind p (s.parts.map fun e => (e.1, e.2.chainOnly))).isSome = true
      rw [this, Option.isSome_map]
      exact hk
  cases hv : s.clasp.recordVerified with
  | false =>
    refine ⟨hb, fun _ p => ?_⟩
    change (u.part p).valid = false
    rw [hp]
    rfl
  | true =>
    refine ⟨?_, nofun⟩
    obtain ⟨hc, hr⟩ := u.configured_install (fun p => by rw [hp]; rfl) s.clasp.record
    exact ⟨hc.powered.trans hb.powered, hc.agenda.trans hb.agenda, hc.tiles.trans hb.tiles, hc.launches.trans hb.launches, hc.dies hb.dies, hc.dev hb.dev,
      hc.spared.trans hb.spared, hr, fun p => (hc.chain p).seq.trans (hb.seq p), fun p => (hc.chain p).prev.trans (hb.prev p),
      fun p h => hc.keys p (hb.keys p h)⟩

/-- A partition of an image, with the chain of colophons of Clasp's own store (R383). -/
def State.chained (s : State) (p : Nat) (q : Partition) : Partition := { q with coloSeq := (s.part p).coloSeq, coloPrev := (s.part p).coloPrev }

/-- Entries that are written one after the other, each with the value of its key. -/
theorem mfind_foldl_mput {α β : Type} (g : Nat → α) (l : Map β) (m : Map α) (p : Nat) :
    mfind p (l.foldl (fun m e => mput m e.1 (g e.1)) m) = if p ∈ mkeys l then some (g p) else mfind p m := by
  induction l generalizing m with
  | nil => rfl
  | cons e l ih =>
    rw [List.foldl_cons, ih]
    by_cases h : p = e.1
    · rw [h, mfind_mput_same]
      exact (ite_self _).trans (if_pos List.mem_cons_self).symm
    · rw [mfind_mput_ne h]
      exact if_congr (List.mem_cons.trans (or_iff_right h)).symm rfl rfl

theorem mfind_isSome_iff {α : Type} (m : Map α) (p : Nat) : (mfind p m).isSome = true ↔ p ∈ mkeys m := by
  induction m with
  | nil => simp [mfind, mkeys]
  | cons e m ih =>
    rw [mfind]
    by_cases h : e.1 = p
    · simp [h, mkeys]
    · simpa [h, mkeys, Ne.symm h] using ih

theorem State.mfind_restoreFrom (s : State) (k : Snapshot) (p : Nat) : mfind p (s.restoreFrom k).parts
    = if p ∈ mkeys (s.parts.filter fun e => (mfind e.1 k.parts).isNone) then some (s.chained p Partition.reset) else (mfind p k.parts).map (s.chained p) := by
  rw [← mfind_map_val (fun p q => s.chained p q), ← mfind_foldl_mput (fun p => s.chained p Partition.reset)]
  rfl

/-- A partition of the image comes back, with the chain that Clasp holds (R383, R391). -/
theorem State.part_restoreFrom_of_some (s : State) (k : Snapshot) {p : Nat} (hp : (mfind p k.parts).isSome = true) :
    (s.restoreFrom k).part p = s.chained p (mget Partition.reset k.parts p) := by
  obtain ⟨q, hq⟩ := Option.isSome_iff_exists.1 hp
  rw [State.part, mget, State.mfind_restoreFrom, if_neg, hq, mget, hq]
  · rfl
  · intro h
    obtain ⟨e, he, rfl⟩ := List.mem_map.1 h
    simp [hq] at he

/-- A partition that the image lacks keeps the chain that Clasp holds (R383, R391). -/
theorem State.part_restoreFrom_of_none (s : State) (k : Snapshot) {p : Nat} (hk : (mfind p k.parts).isSome = false) (hp : (mfind p s.parts).isSome = true) :
    (s.restoreFrom k).part p = s.chained p Partition.reset := by
  obtain ⟨e, he, rfl⟩ := List.mem_map.1 ((mfind_isSome_iff _ _).1 hp)
  rw [State.part, mget, State.mfind_restoreFrom, if_pos]
  · rfl
  · exact List.mem_map_of_mem (List.mem_filter.2 ⟨he, by simpa using hk⟩)

theorem State.powered_switchOut (s : State) (ps : List Nat) : (s.switchOut ps).powered = s.powered :=
  List.foldlRecOn (motive := fun u : State => u.powered = s.powered) ps _ rfl fun _ hu _ _ => hu

/-- A partition on its tiles that is asked to switch out. -/
theorem State.saving_switchOut (ps : List Nat) (s : State) {p : Nat} (hp : p ∈ ps ∧ (s.part p).out = false ∨ (s.part p).saving = true) :
    ((s.switchOut ps).part p).saving = true := by
  induction ps generalizing s with
  | nil => exact hp.resolve_left fun h => absurd h.1 List.not_mem_nil
  | cons a ps ih =>
    refine ih _ ?_
    change p ∈ ps ∧ (((s.modPart a _).modPart a _).part p).out = false ∨ (((s.modPart a _).modPart a _).part p).saving = true
    rw [State.modPart_modPart]
    by_cases ha : p = a
    · subst ha
      rw [State.part_modPart]
      cases ho : (s.part p).out <;> simp_all
    · rw [State.part_modPart_ne s ha]
      exact hp.imp_left fun h => ⟨(List.mem_cons.1 h.1).resolve_left ha, h.2⟩

/-! The clock (R17, R367). -/

/-- What the tiles and partitions do in a cycle leaves the agenda, the dies and every byte. -/
structure State.Paced (s t : State) : Prop where
  agenda : t.agenda = s.agenda
  dies : t.dies = s.dies
  memory : s.SameMemory t

theorem State.Paced.refl (s : State) : s.Paced s := ⟨rfl, rfl, .refl s⟩

theorem State.Paced.trans {s t u : State} (h1 : s.Paced t) (h2 : t.Paced u) : s.Paced u :=
  ⟨h2.agenda.trans h1.agenda, h2.dies.trans h1.dies, h1.memory.trans h2.memory⟩

theorem State.Paced.modTile (s : State) (t : Nat) (f : Tile → Tile) (h1 : ∀ tl, (f tl).store = tl.store) (h2 : ∀ tl, (f tl).acc = tl.acc) :
    s.Paced (s.modTile t f) := ⟨rfl, rfl, .modTile s t f h1 h2⟩

theorem State.Paced.modPart (s : State) (p : Nat) (f : Partition → Partition) : s.Paced (s.modPart p f) := ⟨rfl, rfl, .modPart s p f⟩

theorem State.paced_meter (s : State) (p m n : Nat) : s.Paced (s.meter p m n) := .modPart s p _

theorem State.paced_tick (s : State) (die : Nat) : (s.modDie die Die.tick).Paced (s.tick die) := by
  unfold State.tick
  dsimp only
  refine List.foldlRecOn (motive := State.Paced _) _ _ (List.foldlRecOn (motive := State.Paced _) _ _ (.refl _) fun u hu t _ => ?_) fun u hu p _ => ?_
  · split
    · exact hu.trans (.modTile u t _ (fun _ => rfl) fun _ => rfl)
    · exact hu
  · exact (hu.trans (.modPart u p _)).trans (State.paced_meter _ p 14 _)

theorem State.paced_tileWork (s : State) (t : Nat) : s.Paced (s.tileWork t).1 := by
  unfold State.tileWork
  split
  · exact .refl s
  · dsimp only
    exact .modTile s t _ (fun _ => rfl) fun _ => rfl

theorem State.paced_dieWork (l : List Nat) (s : State) : s.Paced (s.dieWork l).1 := by
  induction l generalizing s with
  | nil => exact .refl s
  | cons t l ih => exact (s.paced_tileWork t).trans (ih _)

/-- A cycle of a die: its counts, and the acts it brings. -/
theorem State.exec_clockCycle_eq (s : State) {die : Nat} (h : die < 28) : ∃ u acts, exec (.clockCycle die) s = .next { u with agenda := u.agenda ++ acts }
    ∧ (s.modDie die Die.tick).Paced u := by
  rw [exec_clockCycle, execClockCycle, if_neg (by omega)]
  dsimp only
  rw [List.append_assoc]
  exact ⟨_, _, rfl, (s.paced_tick die).trans (State.paced_dieWork _ _)⟩

/-- Settles O59: by what records, folds, switches, power and the clock each leave. -/
theorem metersPowerAndTheClock : Obligations.MetersPowerAndTheClock := by
  unfold Obligations.MetersPowerAndTheClock
  refine fun s die => ⟨fun hf hn => ?_, fun hp hi => ?_, fun k hp hi hv hm => ?_, ?_, fun hc => ?_, fun hc ht => ?_,
    fun hc ht => ?_, fun hp i hi => ?_, fun hd => ?_⟩
  · obtain ⟨-, hin, -, hd⟩ := State.foldl_foldPart (mkeys s.parts) hn s
    refine ⟨s.foldAll, by rw [exec_meterFold, execMeterFold, if_pos hf], ?_, fun p hp m hm => ?_⟩
    · exact congrArg (fun d => (mget Die.reset d 24).cycle) hd
    · obtain ⟨hmeter, hcounts, hcap⟩ := hin p hp
      exact ⟨hmeter m hm, congrArg (mget 0 · m) hcounts, hcap m hm⟩
  · obtain ⟨h, hv⟩ := s.booted_boot
    refine ⟨s.boot, ?_, h.powered, h.agenda, h.tiles, h.launches, h.dev, h.dies, h.spared, h.record, hv⟩
    rw [exec_powerOn, execPowerOn, if_neg (by simp [hp])]
    rw [hi]
  · obtain ⟨h, -⟩ := s.booted_boot
    refine ⟨s.boot.restoreFrom k, ?_, h.powered, h.agenda, h.tiles, rfl, rfl, rfl, rfl, rfl, rfl, fun p hk => ?_, fun p hk hs => ?_⟩
    · rw [exec_powerOn, execPowerOn, if_neg (by simp [hp])]
      rw [hi]
      simp [hv, hm]
    · rw [State.part_restoreFrom_of_some _ k hk, State.chained, h.seq, h.prev]
    · rw [State.part_restoreFrom_of_none _ k hk (h.keys p hs), State.chained]
      exact ⟨h.seq p, h.prev p⟩
  · refine ⟨_, rfl, ?_, ?_, ?_⟩
    · exact congrArg Die.warned (s.die_modDie die fun d => { d with warned := true })
    · exact List.length_append
    · exact (State.SameMemory.modDie s die (fun d => { d with warned := true }) fun _ => rfl).trans (.modClasp _ _)
  · rw [exec_temperatureShutdown, execTemperatureShutdown, if_neg (by simp [hc])]
  · refine ⟨_, by rw [exec_temperatureShutdown, execTemperatureShutdown, if_pos hc, if_pos (by simp [ht])], rfl, rfl, ?_⟩
    have h := s.logOnly_foldAll
    exact congrArg (·.ckNo + 1) h
  · refine ⟨_, by rw [exec_temperatureShutdown, execTemperatureShutdown, if_pos hc, if_neg (by simp [ht])], ?_, rfl, fun p hp => ?_⟩
    · exact s.powered_switchOut _
    · have hout : (s.part p).out = false := by simp_all [State.onTiles]
      exact State.saving_switchOut _ s (.inl ⟨hp, hout⟩)
  · rw [act]
    simp [hp, hi]
  · obtain ⟨u, acts, he, h⟩ := s.exec_clockCycle_eq hd
    have hdie : ∀ d, u.die d = (s.modDie die Die.tick).die d := fun d => by rw [State.die, h.dies, State.die]
    refine ⟨_, acts, he, congrArg (· ++ acts) h.agenda, ?_, ?_, fun d hne => ?_, ?_⟩
    · exact congrArg Die.cycle ((hdie die).trans (s.die_modDie die _))
    · exact congrArg Die.lclk ((hdie die).trans (s.die_modDie die _))
    · exact (hdie d).trans (s.die_modDie_ne hne _)
    · exact (State.SameMemory.modDie s die Die.tick fun _ => rfl).trans h.memory

end Sys2Proof.Machine
end

section
/-! Contexts outside their instructions (R16, R136, R146, R151, R154, R246, R267, R271, R273, R305, R334). -/

namespace Sys2Proof.Machine

/-! A trap of a context. -/

theorem State.trapBaseOf_modCtx (s : State) (t c : Nat) (f : Ctx → Ctx) (k d : Nat) : (s.modCtx t c f).trapBaseOf k d = s.trapBaseOf k d :=
  State.trapBaseOf_congr (s := s) (u := s.modCtx t c f) rfl (State.wrOld_tile_modCtx ..) (State.trapBase_tile_modCtx ..) d

theorem State.CtxCanTrap.modCtx {s : State} {t c : Nat} (h : s.CtxCanTrap t c) {f : Ctx → Ctx} (hf : (f (s.ctx t c)).trap = (s.ctx t c).trap) :
    (s.modCtx t c f).CtxCanTrap t c := by
  unfold State.CtxCanTrap at h ⊢
  rwa [State.ctx_modCtx, hf, State.trapBaseOf_modCtx]

/-! A waiting instruction that is done. -/

theorem Ctx.regs_pc_doneWaiting (x : Ctx) (d v : Nat) : (x.doneWaiting d v).regs.pc = x.regs.pc + 8 := by
  simp [Ctx.doneWaiting]

theorem Ctx.wait_doneWaiting (x : Ctx) (d v : Nat) : (x.doneWaiting d v).wait = none := by simp [Ctx.doneWaiting]

theorem Ctx.arriving_doneWaiting (x : Ctx) (d v : Nat) : (x.doneWaiting d v).arriving = x.arriving := by simp [Ctx.doneWaiting]

theorem Ctx.getX_doneWaiting (x : Ctx) {d : Nat} (v : Nat) (h : d ≠ 0) : (x.doneWaiting d v).getX d = BitVec.ofNat 64 v := by
  simp [Ctx.doneWaiting, Ctx.getX_setX _ h]

theorem Ctx.getX_doneWaiting_ne (x : Ctx) {d r : Nat} (v : Nat) (h : r ≠ d) : (x.doneWaiting d v).getX r = x.getX r := by
  rw [Ctx.doneWaiting, Ctx.getX_setPc, Ctx.getX_setX_ne _ h]
  rfl

/-- The context goes on with its status, past its instruction. -/
structure State.WokenWith (s u : State) (t c d v : Nat) : Prop where
  wait : (u.ctx t c).wait = none
  pc : (u.ctx t c).regs.pc = (s.ctx t c).regs.pc + 8
  status : d ≠ 0 → (u.ctx t c).getX d = BitVec.ofNat 64 v
  regs : ∀ r, r ≠ d → (u.ctx t c).getX r = (s.ctx t c).getX r
  memory : s.SameMemory u

theorem State.wokenWith_doneWaiting {s u : State} {t c : Nat} (hx : (u.ctx t c).regs = (s.ctx t c).regs) (hm : s.SameMemory u) (d v : Nat) :
    s.WokenWith (u.modCtx t c fun x => x.doneWaiting d v) t c d v := by
  refine ⟨?_, ?_, fun h => ?_, fun r h => ?_, hm.trans (.modCtx u t c _)⟩
  · rw [State.ctx_modCtx, Ctx.wait_doneWaiting]
  · rw [State.ctx_modCtx, Ctx.regs_pc_doneWaiting, hx]
  · rw [State.ctx_modCtx, Ctx.getX_doneWaiting _ _ h]
  · rw [State.ctx_modCtx, Ctx.getX_doneWaiting_ne _ _ h, Ctx.getX, hx]
    rfl

/-! The memory edge beside a read that is answered. -/

theorem State.sameStores_edgeTouch {s : State} (hj : s.Jobless) (v : Via) (p space va n : Nat) {g : Home} (rd wr : Bool) (hg : g.isLost = false) :
    s.SameStores (s.edgeTouch v p space va n g rd wr) :=
  ((State.EdgeStep.refl s).edgeTouch v p space va n g rd wr).sameStores hj (s.clasp_edgeTouch v p space va n rd wr hg)

/-- What reads without poison lies in the partition's granules. -/
theorem State.isLost_devHome {s : State} {p pa n : Nat} (h : s.poisonRead (s.devHome p pa) n = false) : (s.devHome p pa).isLost = false := by
  rw [State.devHome] at h ⊢
  split
  · rfl
  · rename_i hown
    simp [hown, State.poisonRead, State.poisonHome] at h

/-- A look at a record that finds its target leaves memory as it is. -/
theorem State.sameMemory_lookEnds {s : State} (hj : s.Jobless) {t c addr target st : Nat} {loc : Bool} (h : s.clook t c loc addr target = .done st) :
    s.SameMemory (s.lookEnds t loc addr) := by
  cases loc with
  | true => exact .refl s
  | false =>
    refine ((State.edgeStep_lookEnds s t false addr).sameStores hj ?_).sameMemory
    unfold State.clook State.resolve State.resolveVia State.translateVia at h
    simp only [ctrSpace, Bool.false_eq_true, if_false, viaTile, List.find?_nil] at h
    unfold State.lookEnds State.readRecordAt
    rw [if_neg (by decide)]
    split at h
    · cases h
    · rename_i g hg
      split at hg
      · cases hg
      · cases htr : s.translate (dieOf t) (s.partId t) addr true false with
        | error e =>
          rw [htr] at hg
          cases hg
        | ok pa =>
          rw [htr] at hg
          cases hg
          split at h
          · cases h
          · split at h
            · cases h
            · rename_i hpoison
              have hlost := State.isLost_devHome (Bool.eq_false_iff.2 hpoison)
              exact (State.clasp_meterDev ..).trans (State.clasp_edgeTouch _ _ _ _ _ _ _ _ hlost)

theorem State.isReserve_eq {g : Home} (h : g.isReserve = true) : g.isLost = false ∧ ∀ (u : State) (p n : Nat) (wr : Bool), u.meterDev p g n wr = u := by
  cases g with
  | dev pa =>
    refine ⟨rfl, fun u p n wr => if_neg ?_⟩
    have : 0x800000000000 ≤ pa := by simpa [Home.isReserve] using h
    omega
  | _ => cases h

section
variable {s : State} {t c id : Nat} {a : Access}

theorem State.atEdgeOf_reserve {h : Home} (hj : s.Jobless) (hh : s.homeOf t a = some h) (hr : h.isReserve = true) :
    s.SameStores (s.atEdgeOf t a) ∧ (s.atEdgeOf t a).ctx t c = s.ctx t c := by
  rw [State.atEdgeOf]
  rw [hh]
  exact ⟨State.sameStores_edgeTouch hj _ _ _ _ _ _ _ (State.isReserve_eq hr).1, ((State.EdgeStep.refl s).edgeTouch ..).ctx t c⟩

end

/-- A load takes its outcome, and waits for its return. -/
theorem State.find?_putAccess_load {s : State} {t c id : Nat} {a : Access} (hf : (s.ctx t c).outs.find? (fun x => x.id == id) = some a)
    (hk : a.kind = .load) (hd : a.dst ≠ .none) (r : ASt) :
    ((s.putAccess t c { a with st := r }).ctx t c).outs.find? (fun x => x.id == id) = some { a with st := r } := by
  refine State.find?_putAccess hf rfl (by simp [Access.isFence, hk]) ?_
  cases r <;> simp [Access.finished, Access.traps, hk, hd]

/-- A load at a home that holds no poison. -/
theorem State.performAt_load {s : State} {t : Nat} {a : Access} {h : Home} (hk : a.kind = .load) (hw : a.wop ≠ .b128) (hh : a.home = some h)
    (hr : h.isReserve = true) (hp : s.poisonHome h a.size = false) : s.performAt t a = (s, { a with st := .performed (s.readHome h a.size) }) := by
  have hplus : h.plus (a.addr - a.addr) = h := by rw [Nat.sub_self]; cases h <;> rfl
  have hread : s.readAt t a a.addr a.size false = .ok (h, s.readHome h a.size) := by
    rw [State.readAt]
    rw [hh]
    dsimp only
    rw [hplus, if_neg (by simp [hp])]
  rw [State.performAt]
  rw [hk]
  dsimp only
  rw [if_neg (by simpa using hw), State.doLoad, hread]
  dsimp only
  rw [(State.isReserve_eq hr).2]

theorem exec_contextWake_of_some {s : State} {t c : Nat} {w : Wait} (ht : (s.ctx t c).task.isSome = true) (hh : (s.ctx t c).halted = false)
    (hw : (s.ctx t c).wait = some w) : exec (.contextWake t c) s
      = .next (if s.condemned t c then (if s.mustFinish t c w || (s.ctx t c).owesAtomic then s else s.killTask t c) else s.wake t c w) := by
  rw [exec_contextWake, execContextWake, if_neg (by simp [hh, Option.isSome_iff_ne_none.1 ht])]
  rw [hw]
  exact (apply_ite _ _ _ _).symm

/-- Settles O49: each step by its definition, with the memory edge's part in a read set apart. -/
theorem contextsTrapFinishAndWake : Obligations.ContextsTrapFinishAndWake := by
  unfold Obligations.ContextsTrapFinishAndWake
  intro s t c
  dsimp only
  refine ⟨fun d rest hd ht hh ha hw hs hc => ?_, fun d hf htr ht hh ha hs => ?_,
    fun id a hf hdst hst => ⟨fun hk h4 => ?_, fun h hk hw hj hh hr hm => ⟨?_, fun hah hp => ?_⟩⟩,
    fun a hf hm => ?_, fun r ha hh => ⟨fun p hans hn => ?_, fun p hans hn => ?_, fun hans hc => ?_⟩,
    fun w ht hh hw => ⟨fun hc => ?_, fun hc => ⟨fun loc d addr target st he hl hj => ?_, fun d g p spent st he hm hb => ?_,
      fun ids he hl => ?_, fun q he hl => ?_⟩⟩⟩
  · have hcan : ((s.abandonWait t c).modCtx t c fun y => { y with deferred := rest }).CtxCanTrap t c := by
      rw [State.abandonWait]
      rw [hw]
      exact (hc.modCtx rfl).modCtx rfl
    rw [exec_deferredTrap, execDeferredTrap]
    rw [hd]
    refine (if_neg (by simp [hh, ha, hs, Option.isSome_iff_ne_none.1 ht])).trans ((if_neg (by simp [hc.1])).trans (congrArg Host.Outcome.next ?_))
    refine (State.enter_of_canTrap _ _ _ _ hcan).trans ?_
    rw [State.abandonWait]
    rw [hw]
    simp only [State.enteredAt, State.modCtx_modCtx, State.trapBaseOf_modCtx]
  · rw [exec_deferredTrap, execDeferredTrap]
    cases hl : (s.ctx t c).deferred with
    | nil => simp [hl] at hf
    | cons e l =>
      rw [hl] at hf
      refine (if_neg (by simp [hh, ha, hs, Option.isSome_iff_ne_none.1 ht])).trans ((if_pos htr).trans ?_)
      rw [hf]
  · refine ⟨s.putAccess t c { a with st := .faulted 0x08 a.addr 0 }, ?_, .modCtx s t c _, State.find?_putAccess_load hf hk hdst _⟩
    rw [exec_ldhTimeout, execLdhTimeout]
    rw [hf]
    exact if_pos (by simp [hk, h4, hst])
  · obtain ⟨hstores, hctx⟩ := State.atEdgeOf_reserve (c := c) hj hh hr
    refine ⟨(s.atEdgeOf t a).putAccess t c { a with st := .faulted 0x07 a.addr 0 }, ?_, hstores.sameMemory.trans (.modCtx _ t c _),
      State.find?_putAccess_load (hctx ▸ hf) hk hdst _⟩
    rw [exec_cxlReadReturn, execCxlReadReturn]
    rw [hf]
    dsimp only
    rw [hh, if_neg (by simp [hst, Access.reads, hk, hr, hm]), if_pos rfl]
  · obtain ⟨hstores, hctx⟩ := State.atEdgeOf_reserve (c := c) hj hh hr
    have hperf := State.performAt_load (s := s.atEdgeOf t a) (t := t) hk hw hah hr ((hstores.poisonHome h a.size).trans hp)
    refine ⟨(s.atEdgeOf t a).putAccess t c { a with st := .performed (s.readHome h a.size) }, ?_, hstores.sameMemory.trans (.modCtx _ t c _),
      State.find?_putAccess_load (hctx ▸ hf) hk hdst _⟩
    rw [exec_cxlReadReturn, execCxlReadReturn]
    rw [hf]
    dsimp only
    rw [hh, if_neg (by simp [hst, Access.reads, hk, hr, hm]), if_neg (by decide), hperf, hstores.readHome]
  · rw [exec_zeroLengthReadCompletion, execZeroLengthReadCompletion]
    rw [hf]
    exact if_pos hm
  · have hstep : exec (.arrivalAnswer t c) s = .next ((s.modCtx t c fun x => { x with arriving := none }).modCtx t c fun x => x.doneWaiting r.d p) := by
      rw [exec_arrivalAnswer, execArrivalAnswer, if_neg (by simp [hh]), State.modCtx_modCtx]
      rw [ha]
      dsimp only
      rw [hans, hn]
      rfl
    have h := State.wokenWith_doneWaiting (s := s) (u := s.modCtx t c fun x => { x with arriving := none }) (t := t) (c := c)
      (by rw [State.ctx_modCtx]) (.modCtx s t c _) r.d p
    refine ⟨_, hstep, ⟨h.wait, h.pc, h.status, h.regs, h.memory⟩, ?_⟩
    rw [State.ctx_modCtx, Ctx.arriving_doneWaiting, State.ctx_modCtx]
  · rw [exec_arrivalAnswer, execArrivalAnswer, if_neg (by simp [hh])]
    rw [ha]
    dsimp only
    rw [hans, hn]
    rfl
  · have hcan : (s.modCtx t c fun x => { x with arriving := none }).CtxCanTrap t c := hc.modCtx rfl
    refine ⟨(s.modCtx t c fun x => { x with arriving := none }).enteredAt t c 0x09 r.g r.tag (s.ctx t c).regs.pc.toNat, ?_, ?_⟩
    · rw [exec_arrivalAnswer, execArrivalAnswer, if_neg (by simp [hh])]
      rw [ha]
      dsimp only
      rw [hans, ← State.enter_of_canTrap _ _ _ _ hcan]
    · rw [State.enteredAt, State.ctx_modCtx]
      exact ⟨rfl, rfl, rfl, rfl⟩
  · rw [exec_contextWake_of_some ht hh hw, if_pos hc]
  · have hwake : exec (.contextWake t c) s = .next ((s.lookEnds t loc addr).modCtx t c fun x => x.doneWaiting d st) := by
      rw [exec_contextWake_of_some ht hh hw, hc, he, State.wake, hl]
      rfl
    have h := State.wokenWith_doneWaiting (congrArg Ctx.regs ((s.edgeStep_lookEnds t loc addr).ctx t c)) (State.sameMemory_lookEnds hj hl) d st
    exact ⟨_, hwake, h.wait, h.pc, h.status, h.regs, h.memory⟩
  · have hwake : exec (.contextWake t c) s = .next (s.modCtx t c fun x => x.doneWaiting d st) := by
      rw [exec_contextWake_of_some ht hh hw, hc, he, State.wake, if_pos hm, hb]
      rfl
    have h := State.wokenWith_doneWaiting (t := t) (c := c) rfl (.refl s) d st
    exact ⟨_, hwake, h.wait, h.pc, h.status, h.regs, h.memory⟩
  · have hwake : exec (.contextWake t c) s = .next (s.modCtx t c fun x => x.doneWaiting 0 0) := by
      rw [exec_contextWake_of_some ht hh hw, hc, he, State.wake, if_pos hl]
      rfl
    have h := State.wokenWith_doneWaiting (t := t) (c := c) rfl (.refl s) 0 0
    exact ⟨_, hwake, h.wait, h.pc, h.status, h.regs, h.memory⟩
  · have hwake : exec (.contextWake t c) s = .next (s.modCtx t c fun x => x.doneWaiting 0 0) := by
      rw [exec_contextWake_of_some ht hh hw, hc, he, State.wake, if_pos hl]
      rfl
    have h := State.wokenWith_doneWaiting (t := t) (c := c) rfl (.refl s) 0 0
    exact ⟨_, hwake, h.wait, h.pc, h.status, h.regs, h.memory⟩

end Sys2Proof.Machine
end

section
/-! Tasks and barriers (R13, R37, R153, R154, R253, R257, R324). -/

namespace Sys2Proof.Machine

/-! A message between dies moves no byte. -/

theorem State.SameMemory.of_fields {s t : State} (h1 : t.dev = s.dev) (h2 : t.tiles = s.tiles) (h3 : ∀ d, (t.die d).staging = (s.die d).staging)
    (h4 : t.host = s.host) : s.SameMemory t := by
  intro g
  cases g with
  | dev pa => simp only [State.readHome, State.homeStore, h1]
  | tile k off => simp only [State.readHome, State.homeStore, State.tile, h2]
  | acc k off => simp only [State.readHome, State.homeStore, State.tile, h2]
  | staging d off => simp only [State.readHome, State.homeStore, h3]
  | host p iova => simp only [State.readHome, State.homeStore, h4]
  | lost pa => rfl

theorem State.dev_message (s : State) (p a b k : Nat) : (s.message p a b k).dev = s.dev := by
  have hd : ∀ (u : State) (a b : Nat), (u.delivered a b).dev = u.dev := fun u a b => by
    unfold State.delivered
    split
    · rfl
    · split <;> rfl
  unfold State.message
  split
  · rfl
  · exact List.foldlRecOn (motive := fun x : State × Nat => x.1.dev = s.dev) _ _ rfl fun x hx _ _ => (hd x.1 _ _).trans hx

theorem State.sameMemory_message (s : State) (p a b k : Nat) : s.SameMemory (s.message p a b k) := by
  have h := (State.EdgeStep.refl s).message p a b k
  exact .of_fields (s.dev_message p a b k) h.tiles (fun d => by rw [h.die]) (h.host (by rw [s.clasp_message]))

/-! A look at a dependence. -/

theorem State.edgeStep_touchDep (s : State) (p t : Nat) (k : Task) : s.EdgeStep (s.touchDep p t k) := by
  have h := State.EdgeStep.refl s
  unfold State.touchDep State.edgeAt
  refine .ite h ?_
  split
  · refine .ite h ?_
    split
    · exact h.fillCache ..
    · exact h.edgeTouch ..
  · exact h.fillCache ..

theorem State.EdgeStep.meterDep {s u : State} (h : s.EdgeStep u) (p t : Nat) (k : Task) : s.EdgeStep (u.meterDep p t k) := by
  unfold State.meterDep
  refine .ite h ?_
  split
  · exact h.meterDev ..
  · exact h

theorem State.checkTask_of_some {s : State} {p t : Nat} {k : Task} {b : Bool} (h : s.depLook p t k = some b) (first : Bool) :
    s.checkTask p t k first = (if first || b then (s.touchDep p t k).meterDep p t k else s.touchDep p t k, k, b) := by
  rw [State.checkTask]
  rw [h]

theorem State.checkTask_of_none {s : State} {p t : Nat} {k : Task} (h : s.depLook p t k = none) (hw : k.depWarned = false) (first : Bool) :
    s.checkTask p t k first = ((s.touchDep p t k).badRecord p (dieOf t) k.depAddr, { k with depWarned := true }, false) := by
  rw [State.checkTask]
  rw [h]
  exact if_neg (by simp [hw])

theorem State.edgeStep_checkTask {s : State} {p t : Nat} {k : Task} {b : Bool} (h : s.depLook p t k = some b) (first : Bool) :
    s.EdgeStep (s.checkTask p t k first).1 := by
  rw [State.checkTask_of_some h]
  exact .ite ((s.edgeStep_touchDep p t k).meterDep p t k) (s.edgeStep_touchDep p t k)

@[simp] theorem State.clasp_meterDep (s : State) (p t : Nat) (k : Task) : (s.meterDep p t k).clasp = s.clasp := by
  unfold State.meterDep
  refine State.clasp_ite rfl ?_
  split
  · exact State.clasp_meterDev ..
  · rfl

/-- A record that can be read lies in the partition's granules, and nothing is logged. -/
theorem State.clasp_touchDep {s : State} {p t : Nat} {k : Task} {b : Bool} (h : s.depLook p t k = some b) : (s.touchDep p t k).clasp = s.clasp := by
  unfold State.depLook at h
  unfold State.touchDep
  split
  · rfl
  · rename_i hc
    obtain ⟨h0, h52⟩ : ¬ k.depAddr = 0 ∧ ¬ 2 ^ 52 < k.depAddr + 16 := by simpa using hc
    rw [if_neg h0, if_neg h52] at h
    cases htr : s.translate (dieOf t) p k.depAddr true false with
    | error e => exact State.clasp_fillCache ..
    | ok pa =>
      rw [htr] at h
      have hlost : (s.devHome p pa).isLost = false := State.isLost_devHome (n := 16) (Bool.eq_false_iff.2 fun hp => by simp [hp] at h)
      refine State.clasp_ite rfl ?_
      rw [State.edgeAt, State.translateVia, viaTile, List.find?_nil]
      dsimp only
      rw [htr]
      exact State.clasp_edgeTouch _ _ _ _ _ _ _ _ hlost

/-- A look that finds its record leaves memory as it is. -/
theorem State.sameMemory_checkTask {s : State} (hj : s.Jobless) {p t : Nat} {k : Task} {b : Bool} (h : s.depLook p t k = some b) (first : Bool) :
    s.SameMemory (s.checkTask p t k first).1 := by
  refine ((State.edgeStep_checkTask h first).sameStores hj ?_).sameMemory
  rw [State.checkTask_of_some h]
  exact State.clasp_ite ((State.clasp_meterDep ..).trans (State.clasp_touchDep h)) (State.clasp_touchDep h)

/-! A publication that arrives. -/

theorem State.modTileOf_of_in {s : State} {p : Nat} (h : (s.part p).out = false) (t : Nat) (f : Tile → Tile) : s.modTileOf p t f = s.modTile t f :=
  if_neg (by simp [h])

theorem State.tileOf_of_in {s : State} {p : Nat} (h : (s.part p).out = false) (t : Nat) : s.tileOf p t = s.tile t := if_neg (by simp [h])

theorem State.EdgeStep.out {s t : State} (h : s.EdgeStep t) (p : Nat) : (t.part p).out = (s.part p).out := by
  rw [h.part p]

/-- A publication has left its list and reached its tile's die. -/
def State.pubArrived (s : State) (n : Nat) (p : Pub) : State :=
  let q := (s.launch p.task.lid).part
  { s with pubs := s.pubs.eraseIdx n }.message q (p.fromDieOf q) (dieOf p.tile) (flitsFor 64)

/-- A task joins its queue, or waits for its dependence. -/
def Tile.receive (tl : Tile) (k : Task) (b : Bool) : Tile := if b then tl.enqueue k else { tl with dep := tl.dep ++ [k] }

section
variable {s : State} {n : Nat} {p : Pub} (hp : s.pubs[n]? = some p) (ho : (s.part (s.launch p.task.lid).part).out = false)
include ho

theorem State.edgeStep_pubArrived : (s.pubArrived n p).tile p.tile = s.tile p.tile ∧ ((s.pubArrived n p).part (s.launch p.task.lid).part).out = false := by
  have h := (State.EdgeStep.refl { s with pubs := s.pubs.eraseIdx n }).message (s.launch p.task.lid).part (p.fromDieOf (s.launch p.task.lid).part)
    (dieOf p.tile) (flitsFor 64)
  exact ⟨h.tile _, (h.out _).trans ho⟩

variable (hq : ((s.pubs.take n).any fun q => q.tile == p.tile) = false)
include hp hq

theorem exec_taskPublicationArrival_of_covered (hc : (s.tile p.tile).covers p.task.scope = true) :
    exec (.taskPublicationArrival n) s = .next ((s.pubArrived n p).purge p.tile p.task) := by
  obtain ⟨htile, hout⟩ := State.edgeStep_pubArrived (n := n) ho
  rw [exec_taskPublicationArrival, execTaskPublicationArrival]
  rw [hp]
  dsimp only
  rw [if_neg (by simp [State.tended, ho, hq])]
  refine if_pos ?_
  exact (congrArg (·.covers p.task.scope) ((State.tileOf_of_in hout _).trans htile)).trans hc

theorem exec_taskPublicationArrival_of_spared (hc : (s.tile p.tile).covers p.task.scope = false) {r : State × Task × Bool}
    (hr : (s.pubArrived n p).checkTask (s.launch p.task.lid).part p.tile p.task true = r) (hrout : (r.1.part (s.launch p.task.lid).part).out = false) :
    exec (.taskPublicationArrival n) s = .next (r.1.modTile p.tile fun tl => tl.receive r.2.1 r.2.2) := by
  obtain ⟨htile, hout⟩ := State.edgeStep_pubArrived (n := n) ho
  rw [exec_taskPublicationArrival, execTaskPublicationArrival]
  rw [hp]
  dsimp only
  rw [if_neg (by simp [State.tended, ho, hq])]
  refine (if_neg ?_).trans ?_
  · rw [Bool.not_eq_true]
    exact (congrArg (·.covers p.task.scope) ((State.tileOf_of_in hout _).trans htile)).trans hc
  · subst hr
    exact congrArg Host.Outcome.next (State.modTileOf_of_in hrout _ _)

end

/-- A look that finds its record, for a publication. -/
theorem State.checkTask_pubArrived {s : State} {q t : Nat} {k : Task} {b : Bool} (ho : (s.part q).out = false) (h : s.depLook q t k = some b) :
    ∃ w, s.EdgeOnly w ∧ (k.depAddr = 0 → w = s) ∧ s.checkTask q t k true = (w, k, b) ∧ (w.part q).out = false := by
  have he := (s.edgeStep_touchDep q t k).meterDep q t k
  refine ⟨(s.touchDep q t k).meterDep q t k, he.only, fun h0 => ?_, State.checkTask_of_some h true, (he.out q).trans ho⟩
  rw [State.meterDep, if_pos h0, State.touchDep, if_pos (by simp [h0])]

theorem State.checkTask_unreadable {s : State} {q t : Nat} {k : Task} (ho : (s.part q).out = false) (h : s.depLook q t k = none) (hw : k.depWarned = false) :
    ∃ w, s.EdgeOnly w ∧ s.checkTask q t k true = (w, { k with depWarned := true }, false) ∧ (w.part q).out = false := by
  have he := s.edgeStep_touchDep q t k
  refine ⟨_, ?_, State.checkTask_of_none h hw true, ?_⟩
  · obtain ⟨m, f, hr, -, -⟩ := (s.touchDep q t k).ringRecord_eq q (errRecord ((s.touchDep q t k).die (dieOf t)).lclk k.depAddr 8 2 0 (dieOf t) 0 q)
    rw [State.badRecord, hr]
    exact he.only.trans rfl
  · have hr := ((s.touchDep q t k).recorded_ringRecord q (errRecord ((s.touchDep q t k).die (dieOf t)).lclk k.depAddr 8 2 0 (dieOf t) 0 q)).part q
    rw [State.badRecord, hr]
    exact (he.out q).trans ho

/-! A look at a tile's dependent task. -/

@[simp] theorem Tile.store_receive (tl : Tile) (k : Task) (b : Bool) : (tl.receive k b).store = tl.store := by cases b <;> rfl

@[simp] theorem Tile.acc_receive (tl : Tile) (k : Task) (b : Bool) : (tl.receive k b).acc = tl.acc := by cases b <;> rfl

/-- The one dependent task of a tile while no partition is out. -/
theorem exec_dependenceCheck_of_one {s : State} {t : Nat} {k : Task} {b : Bool} (hd : (s.tile t).dep = [k])
    (hp : ∀ e ∈ s.parts, e.2.out = false ∧ e.2.job = none)
    (hl : (s.modTile t fun tl => { tl with dep := [] }).depLook (s.partId t) t k = some b) :
    exec (.dependenceCheck t) s
      = .next (((s.modTile t fun tl => { tl with dep := [] }).checkTask (s.partId t) t k false).1.modTile t fun tl => tl.receive k b) := by
  have hout : ∀ p, (s.part p).out = false := mget_of_all (P := fun q : Partition => q.out = false) rfl fun e he => (hp e he).1
  have habsent : (s.parts.filter fun e => e.2.valid && e.2.out && e.2.slots.contains (slotOf t) && s.tended e.1) = [] :=
    List.filter_eq_nil_iff.2 fun e he => by simp [(hp e he).1]
  rw [exec_dependenceCheck, execDependenceCheck, habsent, List.foldl_nil, State.checkTile, State.tileOf_of_in (hout _), State.modTileOf_of_in (hout _), hd]
  dsimp only [State.checkTasks]
  rw [State.modTileOf_of_in (((State.edgeStep_checkTask hl false).out _).trans (hout _)), State.checkTask_of_some hl]
  rfl

/-! A task that a context takes. -/

theorem Task.regs_of_none {k : Task} (h : k.saved = none) :
    k.regs = { Regs.reset with x := [(1, BitVec.ofNat 64 k.arg), (2, BitVec.ofNat 64 k.addr)], pc := BitVec.ofNat 64 k.entry } := by
  rw [Task.regs]
  rw [h]

theorem Task.regs_of_some {k : Task} {g : Regs} (h : k.saved = some g) : k.regs = g := by
  rw [Task.regs]
  rw [h]

/-- Registers at a task's start (R13, R253). -/
theorem Ctx.getX_start {x : Ctx} {k : Task} (hx : x.regs = k.regs) (h : k.saved = none) (r : Nat) :
    x.getX r = if r = 1 then BitVec.ofNat 64 k.arg else if r = 2 then BitVec.ofNat 64 k.addr else 0 := by
  rw [Ctx.getX, hx, Task.regs_of_none h]
  by_cases h0 : r = 0
  · simp [h0]
  · by_cases h1 : r = 1
    · simp [h1, mget, mfind]
    · by_cases h2 : r = 2
      · simp [h2, mget, mfind]
      · simp [h0, h1, h2, mget, mfind, Ne.symm h1, Ne.symm h2]

theorem Ctx.others_start {x : Ctx} {k : Task} (hx : x.regs = k.regs) (h : k.saved = none) (r : Nat) :
    x.getF r = 0 ∧ x.getP r = 0 ∧ x.getB r = decide (r = 0) := by
  rw [Ctx.getF, Ctx.getP, Ctx.getB, hx, Task.regs_of_none h]
  refine ⟨rfl, rfl, ?_⟩
  by_cases h0 : r = 0
  · simp [h0]
  · simp [h0, Regs.reset, mget, mfind]

/-! An arrival, and its answer. -/

/-- An arrival has left its list and gone to its group's home and back. -/
def State.arrivedAt (s : State) (n : Nat) (a : Arrival) : State :=
  let home := s.groupDie a.lid a.g
  let p := (s.launch a.lid).part
  ({ s with arrivals := s.arrivals.eraseIdx n }.message p (dieOf a.tile) home 1).message p home (dieOf a.tile) 1

/-- The answer of an arrival reaches its context. -/
def State.answered (s : State) (a : Arrival) (v : Option Nat) : State :=
  s.modCtx a.tile a.ctx fun x => { x with arriving := x.arriving.map fun r => { r with answer := some v } }

/-- A member's arrival counts in the group's phase. -/
def State.counted (s : State) (a : Arrival) (phase : Nat) : State :=
  (s.modGroup a.lid a.g fun g => { g with arrived := g.arrived + 1 }).modCtx a.tile a.ctx fun x =>
    { x with task := x.task.map fun k => { k with arrived := mput k.arrived a.g phase } }

theorem State.edgeStep_arrivedAt (s : State) (n : Nat) (a : Arrival) : { s with arrivals := s.arrivals.eraseIdx n }.EdgeStep (s.arrivedAt n a) :=
  ((State.EdgeStep.refl _).message ..).message ..

section
variable {s : State} {n : Nat} {a : Arrival} (ha : s.arrivals[n]? = some a) (hp : (s.ctx a.tile a.ctx).performedAt (s.group a.lid a.g).fscope = true)
    (hx : (s.group a.lid a.g).exhausted = false)
include ha hp hx

theorem exec_barrierArrivalAtHome_of_late (ht : a.tag ≠ (s.group a.lid a.g).phase) :
    exec (.barrierArrivalAtHome n) s = .next ((s.arrivedAt n a).answered a none) := by
  rw [exec_barrierArrivalAtHome, execBarrierArrivalAtHome]
  rw [ha]
  dsimp only
  rw [if_neg (by simp [hp]), if_neg (by simp [hx]), if_pos ht]
  rfl

theorem exec_barrierArrivalAtHome_of_member (ht : a.tag = (s.group a.lid a.g).phase) : exec (.barrierArrivalAtHome n) s
    = .next ((((s.arrivedAt n a).counted a (s.group a.lid a.g).phase).answered a (some (s.group a.lid a.g).phase)).checkPhase a.lid a.g) := by
  rw [exec_barrierArrivalAtHome, execBarrierArrivalAtHome]
  rw [ha]
  dsimp only
  rw [if_neg (by simp [hp]), if_neg (by simp [hx]), if_neg (by simp [ht])]
  rfl

end

theorem State.group_modGroup (s : State) (l g : Nat) (f : Group → Group) : (s.modGroup l g f).group l g = f (s.group l g) := by
  rw [State.group, State.modGroup, State.launch_modLaunch]
  exact mget_mput_same ..

theorem State.group_of_launch {s t : State} {l : Nat} (h : t.launch l = s.launch l) (g : Nat) : t.group l g = s.group l g := by
  rw [State.group, h, State.group]

theorem State.group_modCtx (s : State) (t c : Nat) (f : Ctx → Ctx) (l g : Nat) : (s.modCtx t c f).group l g = s.group l g := rfl

/-- A group whose member has arrived. -/
theorem State.group_counted (s : State) (n : Nat) (a : Arrival) (phase : Nat) (v : Option Nat) :
    (((s.arrivedAt n a).counted a phase).answered a v).group a.lid a.g = { s.group a.lid a.g with arrived := (s.group a.lid a.g).arrived + 1 } := by
  have h : (s.arrivedAt n a).group a.lid a.g = s.group a.lid a.g := State.group_of_launch ((s.edgeStep_arrivedAt n a).launch a.lid) a.g
  rw [State.answered, State.group_modCtx, State.counted, State.group_modCtx, State.group_modGroup, h]

/-- A phase completes once every arrival has come. -/
theorem State.checkPhase_of_complete {s : State} {l g : Nat} (hn : (s.group l g).narr ≤ (s.group l g).arrived) (hx : (s.group l g).exhausted = false) :
    s.checkPhase l g = s.completePhase l g := if_pos (by simp [hn, hx])

theorem State.checkPhase_of_incomplete {s : State} {l g : Nat} (hn : (s.group l g).arrived < (s.group l g).narr) : s.checkPhase l g = s :=
  if_neg (by simp [Nat.not_le.2 hn])

theorem State.group_completePhase (s : State) (l g : Nat) : (s.completePhase l g).group l g
    = { s.group l g with phase := ((s.group l g).phase + 1) % 2 ^ 32, arrived := (s.group l g).wd, cxl := decide (0 < (s.group l g).wd) } := by
  unfold State.completePhase
  exact s.group_modGroup l g fun e => { e with phase := ((s.group l g).phase + 1) % 2 ^ 32, arrived := e.wd, cxl := decide (0 < e.wd) }

/-- Checking a phase leaves the arrivals and the contexts. -/
theorem State.checkPhase_others (s : State) (l g t c : Nat) : (s.checkPhase l g).arrivals = s.arrivals ∧ (s.checkPhase l g).ctx t c = s.ctx t c := by
  unfold State.checkPhase
  dsimp only
  split <;> exact ⟨rfl, rfl⟩

theorem State.arrivals_arrivedAt (s : State) (n : Nat) (a : Arrival) : (s.arrivedAt n a).arrivals = s.arrivals.eraseIdx n := by
  rw [(s.edgeStep_arrivedAt n a).only]

theorem State.releases_arrivedAt (s : State) (n : Nat) (a : Arrival) : (s.arrivedAt n a).releases = s.releases := by
  rw [(s.edgeStep_arrivedAt n a).only]

/-! A release that reaches its tile. -/

/-- A release has left its list and reached its tile's die. -/
def State.releasedAt (s : State) (n : Nat) (r : Release) : State :=
  { s with releases := s.releases.eraseIdx n }.message (s.launch r.lid).part (s.groupDie r.lid r.g) (dieOf r.tile) 1

theorem State.edgeStep_releasedAt (s : State) (n : Nat) (r : Release) : { s with releases := s.releases.eraseIdx n }.EdgeStep (s.releasedAt n r) :=
  (State.EdgeStep.refl _).message ..

theorem State.tile_releasedAt (s : State) (n : Nat) (r : Release) (t : Nat) : (s.releasedAt n r).tile t = s.tile t := (s.edgeStep_releasedAt n r).tile t

theorem State.releases_releasedAt (s : State) (n : Nat) (r : Release) : (s.releasedAt n r).releases = s.releases.eraseIdx n := by
  rw [(s.edgeStep_releasedAt n r).only]

theorem State.sameMemory_releasedAt (s : State) (n : Nat) (r : Release) : s.SameMemory (s.releasedAt n r) :=
  fun g => State.sameMemory_message { s with releases := s.releases.eraseIdx n } _ _ _ _ g

theorem exec_barrierReleaseArrival_of_member {s : State} {n k : Nat} {r : Release} (hr : s.releases[n]? = some r) (hl : (s.tile r.tile).lid = some r.lid)
    (hk : (s.tile r.tile).slotOfGroup r.g = some k) :
    exec (.barrierReleaseArrival n) s = .next ((s.releasedAt n r).modTile r.tile fun tl => tl.latchTo k r.phase r.cxl) := by
  have htile := s.tile_releasedAt n r r.tile
  rw [exec_barrierReleaseArrival, execBarrierReleaseArrival]
  rw [hr]
  dsimp only
  rw [← State.releasedAt, htile, if_neg (by simp [hl]), hk]

theorem Tile.latchTo_eq (tl : Tile) (k phase : Nat) (cxl : Bool) : ∃ l, tl.latchTo k phase cxl = { tl with latch := l } := by
  rw [Tile.latchTo]
  split <;> exact ⟨_, rfl⟩

/-- An update of a tile counts by what it makes of the tile as it is. -/
theorem State.modTile_congr {s : State} {t : Nat} {f g : Tile → Tile} (h : f (s.tile t) = g (s.tile t)) : s.modTile t f = s.modTile t g := by
  rw [State.modTile, h, State.modTile]

/-- A latch takes what it is told and leaves every byte. -/
theorem State.sameMemory_latchTo (s : State) (t k phase : Nat) (cxl : Bool) : s.SameMemory (s.modTile t fun tl => tl.latchTo k phase cxl) := by
  obtain ⟨l, h⟩ := (s.tile t).latchTo_eq k phase cxl
  rw [State.modTile_congr (g := fun tl => { tl with latch := l }) h]
  exact .modTile s t _ (fun _ => rfl) fun _ => rfl

theorem Tile.latchOf_latchTo (tl : Tile) (k phase : Nat) (cxl : Bool) {gap : Nat} (hg : (phase + 2 ^ 32 - (tl.latchOf k).1) % 2 ^ 32 = gap) :
    (tl.latchTo k phase cxl).latchOf k = if 1 ≤ gap ∧ gap < 2 ^ 31 then (phase, cxl) else tl.latchOf k := by
  rw [Tile.latchTo, hg]
  by_cases h : 1 ≤ gap ∧ gap < 2 ^ 31
  · rw [if_pos h, if_pos (by simpa using h)]
    exact mget_mput_same ..
  · rw [if_neg h, if_neg (by simpa using h)]

/-- Settles O50: each step by its definition. -/
theorem tasksAndBarriersArrive : Obligations.TasksAndBarriersArrive := by
  unfold Obligations.TasksAndBarriersArrive
  intro s t n tl
  refine ⟨?_, ?_, ?_, ?_, ?_⟩
  · intro k f hp ho hq q s'
    have hin := (State.edgeStep_pubArrived (n := n) (p := ⟨k, t, f⟩) ho).2
    refine ⟨fun hc => ?_, fun hc hl => ?_, fun hc hl => ?_, fun hc hl hw => ?_⟩
    · exact exec_taskPublicationArrival_of_covered hp ho hq hc
    · obtain ⟨w, hw, h0, hr, hout⟩ := State.checkTask_pubArrived hin hl
      exact ⟨w, hw, h0, exec_taskPublicationArrival_of_spared hp ho hq hc hr hout⟩
    · obtain ⟨w, hw, -, hr, hout⟩ := State.checkTask_pubArrived hin hl
      exact ⟨w, hw, exec_taskPublicationArrival_of_spared hp ho hq hc hr hout⟩
    · obtain ⟨w, hw, hr, hout⟩ := State.checkTask_unreadable hin hl hw
      exact ⟨w, hw, exec_taskPublicationArrival_of_spared hp ho hq hc hr hout⟩
  · intro k b hd hp hl
    have htile : ∀ u : State, u.tile t = { s.tile t with dep := [] } →
        (u.modTile t fun tl => tl.receive k b).tile t = Tile.receive { s.tile t with dep := [] } k b := fun u hu => by rw [State.tile_modTile, hu]
    have hu := htile _ (((State.edgeStep_checkTask hl false).tile t).trans (State.tile_modTile s t _))
    refine ⟨_, exec_dependenceCheck_of_one hd hp hl, ?_, ?_, fun hb => ?_, fun hb => ?_⟩
    · have hm := State.sameMemory_checkTask (s := s.modTile t fun tl => { tl with dep := [] }) (fun e he => (hp e he).2) hl false
      refine ((State.SameMemory.modTile s t (fun tl => { tl with dep := [] }) (fun _ => rfl) fun _ => rfl).trans hm).trans ?_
      exact .modTile _ t _ (fun tl => tl.store_receive k b) fun tl => tl.acc_receive k b
    · rw [hu]
      cases b <;> rfl
    · rw [hu, hb]
      exact mget_mput_same ..
    · rw [hu, hb]
      rfl
  · intro c k hg hr hc hk
    have hctx : (s.modTile t fun tl => { tl with ready := mmod [] tl.ready k.pri List.tail }.modCtx c fun x => x.bind_ k).ctx t c
        = (s.ctx t c).bind_ k := by
      rw [State.ctx, State.tile_modTile]
      exact Tile.ctx_modCtx ..
    refine ⟨s.modTile t fun tl => { tl with ready := mmod [] tl.ready k.pri List.tail }.modCtx c fun x => x.bind_ k, ?_,
      .modTile s t _ (fun _ => rfl) fun _ => rfl, ?_⟩
    · rw [exec_taskBind, execTaskBind, if_neg (by simp [tl, hg, hr])]
      rw [hc, hk]
    · rw [hctx]
      refine ⟨rfl, rfl, rfl, rfl, rfl, rfl, ?_, fun hs => ⟨?_, Ctx.getX_start rfl hs, Ctx.others_start rfl hs⟩, fun g hs => Task.regs_of_some hs⟩
      · rw [State.tile_modTile]
        exact mget_mput_same ..
      · exact congrArg Regs.pc (Task.regs_of_none hs)
  · intro a ha g hpf hx
    have he := s.edgeStep_arrivedAt n a
    refine ⟨fun ht => ?_, fun ht => ?_⟩
    · refine ⟨_, exec_barrierArrivalAtHome_of_late ha hpf hx ht, ?_, s.arrivals_arrivedAt n a, ?_⟩
      · exact State.group_of_launch (he.launch a.lid) a.g
      · rw [State.answered, State.ctx_modCtx, he.ctx]
        rfl
    · have hg := s.group_counted n a (s.group a.lid a.g).phase (some (s.group a.lid a.g).phase)
      have hctx : (((s.arrivedAt n a).counted a (s.group a.lid a.g).phase).ctx a.tile a.ctx).arriving = (s.ctx a.tile a.ctx).arriving := by
        rw [State.counted, State.ctx_modCtx]
        change ((s.arrivedAt n a).ctx a.tile a.ctx).arriving = _
        rw [he.ctx]
        rfl
      refine ⟨_, exec_barrierArrivalAtHome_of_member ha hpf hx ht, ?_, ?_, fun hlt => ?_, fun hle => ?_⟩
      · exact (State.checkPhase_others _ _ _ 0 0).1.trans (s.arrivals_arrivedAt n a)
      · rw [(State.checkPhase_others _ _ _ a.tile a.ctx).2, State.answered, State.ctx_modCtx, hctx]
      · rw [State.checkPhase_of_incomplete (by rw [hg]; exact hlt)]
        exact ⟨hg, s.releases_arrivedAt n a⟩
      · rw [State.checkPhase_of_complete (by rw [hg]; exact hle) (by rw [hg]; exact hx), State.group_completePhase, hg]
        refine ⟨rfl, ?_⟩
        rw [← s.releases_arrivedAt n a]
        exact List.prefix_append ..
  · intro r k hr hl hk
    generalize hg : (r.phase + 2 ^ 32 - ((s.tile r.tile).latchOf k).1) % 2 ^ 32 = gap
    refine ⟨_, exec_barrierReleaseArrival_of_member hr hl hk, ?_, ?_, ?_⟩
    · rw [State.releases_modTile, s.releases_releasedAt]
    · exact (s.sameMemory_releasedAt n r).trans (State.sameMemory_latchTo _ r.tile k r.phase r.cxl)
    · rw [State.tile_modTile, s.tile_releasedAt]
      exact (s.tile r.tile).latchOf_latchTo k r.phase r.cxl hg

end Sys2Proof.Machine
end

section
/-! Cancels (R39, R260, R263 to R267, R340): what a registration leaves of a tile's interval set and of its waiting tasks, the ends of a kill, and
the record. -/

namespace Sys2Proof.Machine

/-! Intervals. -/

theorem contains_self (sc : Nat) : contains sc sc = true := by simp [contains]

/-- A registered interval is covered by the set that results. -/
theorem any_contains_register (l : List Nat) (sc : Nat) : ((register l sc).any fun i => contains i sc) = true := by
  unfold register
  split
  · assumption
  · simp [contains_self]

/-! The memory edge's part in the write of a record. -/

theorem State.EdgeStep.edgeAt {s u : State} (h : s.EdgeStep u) (v : Via) (p va n : Nat) (rd wr : Bool) : s.EdgeStep (u.edgeAt v p va n rd wr) := by
  unfold State.edgeAt
  split
  · exact h.fillCache ..
  · exact h.edgeTouch ..

theorem State.sameMemory_sendEdge (s : State) (t : Nat) (f : Flit) : s.SameMemory (s.sendEdge t f) :=
  State.SameMemory.modTile s t (fun tl => tl.inject { f with dtile := labelOf t, ddie := dieOf t, edge := true }) (fun _ => rfl) fun _ => rfl

theorem State.sameMemory_cancels (s : State) (m : Map Cancel) : s.SameMemory { s with cancels := m } := .of_fields rfl rfl (fun _ => rfl) rfl

/-! Registration at a tile. -/

/-- Intervals and waiting tasks are the same. -/
structure Tile.SameWaiting (a b : Tile) : Prop where
  cancels : b.cancels = a.cancels
  ready : b.ready = a.ready
  dep : b.dep = a.dep

theorem Tile.SameWaiting.refl (a : Tile) : a.SameWaiting a := ⟨rfl, rfl, rfl⟩

theorem Tile.SameWaiting.trans {a b c : Tile} (h : a.SameWaiting b) (k : b.SameWaiting c) : a.SameWaiting c :=
  ⟨k.cancels.trans h.cancels, k.ready.trans h.ready, k.dep.trans h.dep⟩

theorem Tile.SameWaiting.covers {a b : Tile} (h : a.SameWaiting b) (sc : Nat) : b.covers sc = a.covers sc := by rw [Tile.covers, h.cancels, Tile.covers]

theorem Tile.BlocksOnly.sameWaiting {a b : Tile} (h : a.BlocksOnly b) : a.SameWaiting b := by
  unfold Tile.BlocksOnly at h
  constructor <;> rw [h]

/-- What a tile keeps under a cancel of `sc`: its scope is covered; of the tasks that wait those it covers are gone, unless an earlier cancel covers
it, which leaves them as they are. -/
structure Tile.Under (sc : Nat) (a b : Tile) : Prop where
  covers : b.covers sc = true
  same : a.covers sc = true → a.SameWaiting b
  ready : a.covers sc = false → ∀ q ∈ b.ready, ∀ y ∈ q.2, contains sc y.scope = false
  dep : a.covers sc = false → ∀ y ∈ b.dep, contains sc y.scope = false

theorem Tile.Under.sameWaiting {sc : Nat} {a b c : Tile} (h : Tile.Under sc a b) (k : b.SameWaiting c) : Tile.Under sc a c :=
  ⟨(k.covers sc).trans h.covers, fun e => (h.same e).trans k, fun e => k.ready ▸ h.ready e, fun e => k.dep ▸ h.dep e⟩

theorem Tile.Under.trans {sc : Nat} {a b c : Tile} (h : Tile.Under sc a b) (k : Tile.Under sc b c) : Tile.Under sc a c :=
  h.sameWaiting (k.same h.covers)

theorem Tile.sameWaiting_moveMsg (tl : Tile) (e i j : Nat) : tl.SameWaiting (tl.moveMsg e i j) := by
  unfold Tile.moveMsg
  split
  · exact .refl tl
  · exact ⟨rfl, rfl, rfl⟩

theorem Tile.sameWaiting_keepMsgs (sc e head : Nat) (l : List Nat) : ∀ (tl : Tile) (i n : Nat), tl.SameWaiting (tl.keepMsgs sc e head i n l).1 := by
  induction l with
  | nil => exact fun tl _ _ => .refl tl
  | cons k l ih =>
    intro tl i n
    unfold Tile.keepMsgs
    split
    · exact ih ..
    · exact (tl.sameWaiting_moveMsg ..).trans (ih ..)

theorem Tile.sameWaiting_dropMsgs (tl : Tile) (sc : Nat) : tl.SameWaiting (tl.dropMsgs sc) := by
  refine List.foldlRecOn (motive := fun x : Tile => tl.SameWaiting x) _ _ (.refl tl) fun x hx e _ => hx.trans ?_
  exact (x.sameWaiting_keepMsgs ..).trans ⟨rfl, rfl, rfl⟩

/-- A cancel's work at tile `t`: the records of cancels and the states of launches stay, the other tiles too, and `P` relates the tile before and
after. -/
structure State.CancelAt (s u : State) (t : Nat) (P : Tile → Tile → Prop) : Prop where
  cancels : u.cancels = s.cancels
  live : ∀ l, (u.launch l).st = (s.launch l).st
  others : ∀ k, k ≠ t → u.tile k = s.tile k
  own : P (s.tile t) (u.tile t)

theorem State.CancelAt.trans {s u v : State} {t : Nat} {P Q R : Tile → Tile → Prop} (h : s.CancelAt u t P) (k : u.CancelAt v t Q)
    (hr : ∀ {a b c : Tile}, P a b → Q b c → R a c) : s.CancelAt v t R :=
  ⟨k.cancels.trans h.cancels, fun l => (k.live l).trans (h.live l), fun j hj => (k.others j hj).trans (h.others j hj), hr h.own k.own⟩

theorem State.CancelAt.imp {s u : State} {t : Nat} {P Q : Tile → Tile → Prop} (h : s.CancelAt u t P)
    (hp : P (s.tile t) (u.tile t) → Q (s.tile t) (u.tile t)) : s.CancelAt u t Q := ⟨h.cancels, h.live, h.others, hp h.own⟩

theorem State.CancelAt.intervalStays {s u : State} {t : Nat} {P : Tile → Tile → Prop} (h : s.CancelAt u t P) (c : Cancel) :
    u.intervalStays c = s.intervalStays c := by
  unfold State.intervalStays
  split
  · rw [h.live]
  · rfl

theorem State.cancelAt_refl (s : State) (t : Nat) : s.CancelAt s t Tile.SameWaiting := ⟨rfl, fun _ => rfl, fun _ _ => rfl, .refl _⟩

theorem State.CancelAt.same {s u v : State} {t : Nat} (h : s.CancelAt u t Tile.SameWaiting) (k : u.CancelAt v t Tile.SameWaiting) :
    s.CancelAt v t Tile.SameWaiting := h.trans k Tile.SameWaiting.trans

theorem State.cancelAt_modTile (s : State) (t : Nat) {f : Tile → Tile} {P : Tile → Tile → Prop} (hf : P (s.tile t) (f (s.tile t))) :
    s.CancelAt (s.modTile t f) t P :=
  ⟨rfl, fun _ => rfl, fun _ hk => State.tile_modTile_ne s hk f, by rwa [State.tile_modTile]⟩

theorem State.cancelAt_modGroup (s : State) (t l g : Nat) (f : Group → Group) : s.CancelAt (s.modGroup l g f) t Tile.SameWaiting := by
  refine ⟨rfl, fun k => ?_, fun _ _ => rfl, .refl _⟩
  unfold State.modGroup
  by_cases hk : k = l
  · subst hk
    rw [State.launch_modLaunch]
  · rw [State.launch_modLaunch_ne s hk]

theorem State.cancelAt_completePhase (s : State) (t l g : Nat) : s.CancelAt (s.completePhase l g) t Tile.SameWaiting :=
  (s.cancelAt_modGroup t l g fun e => { e with phase := ((s.group l g).phase + 1) % 2 ^ 32, arrived := e.wd, cxl := decide (0 < e.wd) }).same
    ⟨rfl, fun _ => rfl, fun _ _ => rfl, .refl _⟩

theorem State.cancelAt_checkPhase (s : State) (t l g : Nat) : s.CancelAt (s.checkPhase l g) t Tile.SameWaiting := by
  unfold State.checkPhase
  dsimp only
  split
  · exact s.cancelAt_completePhase t l g
  · exact s.cancelAt_refl t

/-- Arrivals that are credited change groups and releases. -/
theorem State.cancelAt_withdraw (s : State) (t : Nat) (k : Task) : s.CancelAt (s.withdraw k) t Tile.SameWaiting := by
  refine List.foldlRecOn (motive := fun u : State => s.CancelAt u t Tile.SameWaiting) _ _ (s.cancelAt_refl t) fun u hu g _ => ?_
  dsimp only
  have hg (f : Group → Group) : s.CancelAt (u.modGroup k.lid g f) t Tile.SameWaiting := hu.same (u.cancelAt_modGroup t k.lid g f)
  split
  · exact hu
  · split
    · exact ((hg _).same (State.cancelAt_completePhase _ t _ _)).same (State.cancelAt_modGroup _ t _ _ _)
    · exact (hg _).same (State.cancelAt_checkPhase _ t _ _)

theorem State.cancelAt_purge (s : State) (t : Nat) (k : Task) : s.CancelAt (s.purge t k) t Tile.SameWaiting := by
  refine (s.cancelAt_withdraw t k).same ?_
  unfold State.purge State.modTileOf
  split
  · exact ⟨rfl, fun _ => rfl, fun _ _ => rfl, .refl _⟩
  · exact State.cancelAt_modTile _ t (Tile.blocksOnly_count _ _ _).sameWaiting

/-- No task that waits at the tile is covered, and its intervals are the same. -/
structure Tile.Purged (sc : Nat) (a b : Tile) : Prop where
  cancels : b.cancels = a.cancels
  ready : ∀ q ∈ b.ready, ∀ y ∈ q.2, contains sc y.scope = false
  dep : ∀ y ∈ b.dep, contains sc y.scope = false

theorem Tile.Purged.same {sc : Nat} {a b c : Tile} (h : Tile.Purged sc a b) (k : b.SameWaiting c) : Tile.Purged sc a c :=
  ⟨k.cancels.trans h.cancels, k.ready ▸ h.ready, k.dep ▸ h.dep⟩

/-- A tile without the covered tasks. -/
def Tile.spare (tl : Tile) (sc : Nat) : Tile :=
  { tl with ready := tl.ready.map (fun q => (q.1, q.2.filter fun k => !contains sc k.scope)), dep := tl.dep.filter fun k => !contains sc k.scope }

theorem Tile.purged_spare (tl : Tile) (sc : Nat) : Tile.Purged sc tl (tl.spare sc) := by
  refine ⟨rfl, fun q hq y hy => ?_, fun y hy => by simpa using (List.mem_filter.1 hy).2⟩
  obtain ⟨r, -, rfl⟩ := List.mem_map.1 hq
  simpa using (List.mem_filter.1 hy).2

theorem State.cancelAt_purgeAll (s : State) (t sc : Nat) : s.CancelAt (s.purgeAll t sc) t (Tile.Purged sc) :=
  State.CancelAt.trans (s.cancelAt_modTile t (f := fun tl => tl.spare sc) (Tile.purged_spare _ sc))
    (List.foldlRecOn (motive := fun u : State => (s.modTile t fun tl => tl.spare sc).CancelAt u t Tile.SameWaiting) _ _
      (State.cancelAt_refl _ t) fun u hu k _ => hu.same (u.cancelAt_purge t k)) Tile.Purged.same

/-- A tile with a registration and its interval. -/
def Tile.enlist (tl : Tile) (g : Reg) : Tile := { tl with cancels := register tl.cancels g.scope, regs := tl.regs ++ [g] }

/-- A tile's queues, messages, elements and contexts under a new cancel. -/
def Tile.cutOff (tl : Tile) (no sc : Nat) (stays : Bool) : Tile :=
  let r := tl.cancelEntries fun e => covTag sc e.tag
  let tl := { r.1 with regs := r.1.regs.map fun (g : Reg) => if g.no = no then { g with cut := g.cut + r.2 } else g }
  let tl := tl.dropMsgs sc
  let drop := fun (m : Map Inst) => m.map fun x => (x.1, if contains sc (tl.ctx x.1).scope then x.2 else { x.2 with arr := x.2.arr.map (·.dropTags sc) })
  { tl with
    array := if stays then tl.array.dropTags sc else tl.array
    scanned := drop tl.scanned
    aside := drop tl.aside
    ctxs := tl.ctxs.map fun x => (x.1, if x.2.task.isSome && contains sc x.2.scope && x.2.killAt.isNone then { x.2 with killAt := some tl.res } else x.2) }

theorem Tile.sameWaiting_cutOff (tl : Tile) (no sc : Nat) (stays : Bool) : tl.SameWaiting (tl.cutOff no sc stays) := by
  have hcut := (tl.blocksOnly_cancelEntries fun e => covTag sc e.tag).sameWaiting
  unfold Tile.cutOff
  dsimp only
  generalize tl.cancelEntries (fun e => covTag sc e.tag) = r at hcut ⊢
  have hdrop := Tile.sameWaiting_dropMsgs { r.1 with regs := r.1.regs.map fun (g : Reg) => if g.no = no then { g with cut := g.cut + r.2 } else g } sc
  exact (hcut.trans (b := r.1) ⟨hdrop.cancels, hdrop.ready, hdrop.dep⟩).trans ⟨rfl, rfl, rfl⟩

theorem State.registerAt_of_new {s : State} {sc t : Nat} (no : Nat) (h : (s.tile t).covers sc = false) : s.registerAt no sc t
    = (((s.modTile t fun tl => tl.enlist ⟨no, sc, (s.tile t).res, 0, 0, 0, false⟩).purgeAll t sc).modTile t
        fun tl => tl.cutOff no sc (s.arrayStays t sc)) := by
  unfold State.registerAt
  dsimp only
  rw [if_neg (by simp [h])]
  rfl

/-- A registration covers its scope, and takes the tasks that wait. -/
theorem State.cancelAt_registerAt (s : State) (no sc t : Nat) : s.CancelAt (s.registerAt no sc t) t (Tile.Under sc) := by
  by_cases hc : (s.tile t).covers sc = true
  · unfold State.registerAt
    dsimp only
    rw [if_pos hc]
    exact s.cancelAt_modTile t ⟨hc, fun _ => ⟨rfl, rfl, rfl⟩, fun e => absurd hc (by simp [e]), fun e => absurd hc (by simp [e])⟩
  · rw [State.registerAt_of_new no (by simpa using hc)]
    have hreg : s.CancelAt (s.modTile t fun tl => tl.enlist ⟨no, sc, (s.tile t).res, 0, 0, 0, false⟩) t
        fun a b => a.covers sc = false ∧ b.covers sc = true :=
      s.cancelAt_modTile t ⟨by simpa using hc, any_contains_register _ sc⟩
    have hpurge := hreg.trans (State.cancelAt_purgeAll _ t sc) (R := Tile.Under sc) fun ha hb =>
      ⟨by rw [Tile.covers, hb.cancels]; exact ha.2, fun e => absurd e (by simp [ha.1]), fun _ => hb.ready, fun _ => hb.dep⟩
    exact hpurge.trans (State.cancelAt_modTile _ t (Tile.sameWaiting_cutOff _ no sc (s.arrayStays t sc))) Tile.Under.sameWaiting

/-- What a registration does at a tile: nothing to the intervals once the launch that owns the scope has ended. -/
def State.atRegistration (s : State) (c : Cancel) (a b : Tile) : Prop :=
  (s.intervalStays c = true → Tile.Under c.scope a b) ∧ (s.intervalStays c = false → a.SameWaiting b)

theorem State.CancelAt.atRegistration {s u : State} {t : Nat} {P : Tile → Tile → Prop} (h : s.CancelAt u t P) (c : Cancel) :
    u.atRegistration c = s.atRegistration c := by
  unfold State.atRegistration
  rw [h.intervalStays]

theorem State.atRegistration_trans {s : State} {c : Cancel} {x y z : Tile} (h : s.atRegistration c x y) (k : s.atRegistration c y z) :
    s.atRegistration c x z := ⟨fun e => (h.1 e).trans (k.1 e), fun e => (h.2 e).trans (k.2 e)⟩

theorem State.cancelAt_registerHere (s : State) (no t : Nat) (c : Cancel) : s.CancelAt (s.registerHere no c t) t (s.atRegistration c) := by
  unfold State.registerHere
  split
  case isTrue h => exact (s.cancelAt_registerAt no c.scope t).imp fun k => ⟨fun _ => k, fun e => absurd h (by simp [e])⟩
  case isFalse h => exact s.cancelAt_modTile t ⟨fun e => absurd e h, fun _ => ⟨rfl, rfl, rfl⟩⟩

/-- What stands of the tiles once the cancel has come to those of a list. -/
structure State.RegisteredOn (s u : State) (c : Cancel) (l : List Nat) : Prop where
  cancels : u.cancels = s.cancels
  others : ∀ k, k ∉ l → u.tile k = s.tile k
  own : ∀ k ∈ l, s.atRegistration c (s.tile k) (u.tile k)

theorem State.registeredOn_foldl (no : Nat) (c : Cancel) (l : List Nat) : ∀ s : State, s.RegisteredOn (l.foldl (fun s u => s.registerHere no c u) s) c l := by
  induction l with
  | nil => exact fun s => ⟨rfl, fun _ _ => rfl, fun k hk => nomatch hk⟩
  | cons t l ih =>
    intro s
    have h := s.cancelAt_registerHere no t c
    have hl := ih (s.registerHere no c t)
    refine ⟨hl.cancels.trans h.cancels, fun k hk => ?_, fun k hk => ?_⟩
    · obtain ⟨hkt, hkl⟩ := not_or.1 (mt List.mem_cons.2 hk)
      exact (hl.others k hkl).trans (h.others k hkt)
    · by_cases hkl : k ∈ l
      · have hown := hl.own k hkl
        rw [h.atRegistration] at hown
        by_cases hkt : k = t
        · subst hkt
          exact State.atRegistration_trans h.own hown
        · rwa [h.others k hkt] at hown
      · obtain rfl : k = t := (List.mem_cons.1 hk).resolve_right hkl
        rw [List.foldl_cons, hl.others k hkl]
        exact h.own

/-! The record. -/

theorem Store.read_succ (m : Store) (a n : Nat) : m.read a (n + 1) = m.read a 1 + 256 * m.read (a + 1) n := by
  rw [Store.read, readBytes, List.range_succ_eq_map, List.map_cons, List.map_map, ofBytes, Store.read_one]
  congr 3
  exact List.map_congr_left fun k _ => by simp only [Function.comp]; congr 1; omega

theorem Store.read_congr {m w : Store} {a n : Nat} (h : ∀ k, k < n → w.read (a + k) 1 = m.read (a + k) 1) : w.read a n = m.read a n := by
  rw [Store.read, Store.read, readBytes, readBytes]
  congr 1
  refine List.map_congr_left fun k hk => BitVec.eq_of_toNat_eq ?_
  rw [← Store.read_one, ← Store.read_one, h k (List.mem_range.1 hk)]

/-- A value of bytes at an address, its first byte written again. -/
theorem Store.read_write_first (m : Store) (a n v b : Nat) : ((m.write a (n + 1) v).write a 1 b).read a (n + 1) = b % 256 + 256 * (v % 256 ^ (n + 1) / 256) := by
  have hv := Store.read_write m a (n + 1) v
  rw [Store.read_succ] at hv ⊢
  rw [Store.read_write]
  have hr : ((m.write a (n + 1) v).write a 1 b).read (a + 1) n = (m.write a (n + 1) v).read (a + 1) n :=
    Store.read_congr fun k _ => Store.read_write_outside _ _ _ _ _ (by omega)
  have hb : (m.write a (n + 1) v).read a 1 < 256 := by rw [Store.read_one]; exact BitVec.isLt _
  rw [hr]
  omega

/-- The record at a device address whose DONE is written behind it. -/
theorem State.readHome_acknowledged {s : State} (hj : s.Jobless) (pa v : Nat) :
    ((s.writeHome (.dev pa) 32 v).writeHome (.dev pa) 1 1).readHome (.dev pa) 32 = 1 + 256 * (v % 256 ^ 32 / 256) := by
  have hu := hj.unmirrored
  rw [State.writeHome_dev (s := s) fun x _ => hu x.1, State.writeHome_dev (s := { s with dev := s.dev.write pa 32 v }) fun x _ => hu x.1]
  exact Store.read_write_first s.dev pa 31 v 1

/-- The fields of the record of R39. -/
structure Cancel.Recorded (c : Cancel) (r : Nat) : Prop where
  done : bits r 0 0 = 1
  scope : bits r 127 96 = c.scope % 2 ^ 32
  killed : bits r 159 128 = min (c.totals.getD 1 0) 0xFFFFFFFF
  purged : bits r 191 160 = min (c.totals.getD 0 0) 0xFFFFFFFF
  cut : bits r 223 192 = min (c.totals.getD 2 0) 0xFFFFFFFF
  dropped : bits r 255 224 = min (c.totals.getD 3 0) 0xFFFFFFFF

/-- The fields behind the first 96 bits. -/
theorem Cancel.record_eq (c : Cancel) : c.record = 2 ^ 96 * (c.scope % 2 ^ 32 + 2 ^ 32 * (min (c.totals.getD 1 0) 0xFFFFFFFF
    + 2 ^ 32 * (min (c.totals.getD 0 0) 0xFFFFFFFF + 2 ^ 32 * (min (c.totals.getD 2 0) 0xFFFFFFFF + 2 ^ 32 * min (c.totals.getD 3 0) 0xFFFFFFFF)))) := by
  rw [Cancel.record]
  ring

theorem bits_record {sc a b d e : Nat} (hsc : sc < 2 ^ 32) (ha : a < 2 ^ 32) (hb : b < 2 ^ 32) (hd : d < 2 ^ 32) (he : e < 2 ^ 32) :
    let r := 1 + 256 * (2 ^ 96 * (sc + 2 ^ 32 * (a + 2 ^ 32 * (b + 2 ^ 32 * (d + 2 ^ 32 * e)))) % 256 ^ 32 / 256)
    bits r 0 0 = 1 ∧ bits r 127 96 = sc ∧ bits r 159 128 = a ∧ bits r 191 160 = b ∧ bits r 223 192 = d ∧ bits r 255 224 = e := by
  simp only [bits]
  omega

theorem Cancel.recorded_record (c : Cancel) : c.Recorded (1 + 256 * (c.record % 256 ^ 32 / 256)) := by
  have hn (n : Nat) : min n 0xFFFFFFFF < 2 ^ 32 := by omega
  rw [Cancel.record_eq]
  obtain ⟨hdone, hscope, hkilled, hpurged, hcut, hdropped⟩ :=
    bits_record (Nat.mod_lt c.scope (by decide : 0 < 2 ^ 32)) (hn (c.totals.getD 1 0)) (hn (c.totals.getD 0 0)) (hn (c.totals.getD 2 0)) (hn (c.totals.getD 3 0))
  exact ⟨hdone, hscope, hkilled, hpurged, hcut, hdropped⟩

/-! The steps. -/

/-- The tiles of a cancel's partition on the die of `t`. -/
def State.tilesHere (s : State) (c : Cancel) (t : Nat) : List Nat := (s.part c.part).tiles.filter fun u => dieOf u == dieOf t

/-- The cancel is registered at the tiles of a die and at its edge. -/
def State.registeredDie (s : State) (no t : Nat) (c : Cancel) : State :=
  let w := ((s.tilesHere c t).foldl (fun s u => s.registerHere no c u) s).modDie (dieOf t) fun d => { d with cancelNos := d.cancelNos ++ [no] }
  { w with cancels := mmod c w.cancels no fun c => { c with
      edges := c.edges ++ [dieOf t], dies := c.dies.map fun x => if x.1 = dieOf t then (dieOf t, (w.die (dieOf t)).cycle) else x } }

section
variable {s : State} {no t : Nat} {c : Cancel} (hc : mfind no s.cancels = some c)
include hc

theorem exec_cancelRegistration_of_here (hd : c.done = false) (hr : c.reached.contains (dieOf t) = true) (he : c.edges.contains (dieOf t) = false)
    (ho : (s.part c.part).out = false) (hres : (s.part c.part).restoring = false) (hh : s.tilesHere c t ≠ [])
    (hn : ∀ k ∈ (s.part c.part).tiles, dieOf k = dieOf t → (register (s.tile k).cancels c.scope).length ≤ 256) :
    exec (.cancelRegistration no t) s = .next (s.registeredDie no t c) := by
  have hfull : (s.tilesHere c t).any (fun u => decide (256 < (register (s.tile u).cancels c.scope).length)) = false := by
    rw [List.any_eq_false]
    intro k hk
    obtain ⟨hk, hkd⟩ := List.mem_filter.1 hk
    have := hn k hk (by simpa using hkd)
    simpa using this
  show execCancelRegistration no t s = _
  unfold execCancelRegistration
  rw [hc]
  refine if_neg ?_
  change ¬ (_ || _ || _ || _ || _ || ((s.tilesHere c t).isEmpty && _) || (s.tilesHere c t).any _) = true
  simp only [hd, hr, he, ho, hres, hfull]
  simp [hh]

theorem State.edges_registeredDie : (mfind no (s.registeredDie no t c).cancels).map (·.edges) = some (c.edges ++ [dieOf t]) := by
  simp only [State.registeredDie, mmod, mfind_mput_same, State.cancels_modDie, (State.registeredOn_foldl no c (s.tilesHere c t) s).cancels]
  simp [mget, hc]

theorem exec_cancelTileReport_of_done {g : Reg} (ht : c.tiles.contains t = true) (hg : (s.tile t).regs.find? (fun g => g.no == no) = some g)
    (ho : (s.part c.part).out = false) (hs : g.sent = false) (hr : (s.tile t).room 1 = true) (hd : (s.tile t).cancelDone g = true) :
    exec (.cancelTileReport no t) s =
      .next ((s.modTile t fun tl => { tl with regs := tl.regs.map fun r => if r.no = no then { r with sent := true } else r }).sendEdge t
          (s.flit t t 3 0 (reportPayload no g.purged g.killed g.cut 0))) := by
  show execCancelTileReport no t s = _
  unfold execCancelTileReport
  rw [hc]
  dsimp only
  rw [if_pos ht, hg]
  dsimp only
  rw [if_neg (by simp [hs, ho, hd, hr])]

end

/-- A tile's report reaches the scheduler of its die, which waits for another's. -/
theorem exec_crossbarCrossing_of_report {s : State} {no n t : Nat} {c : Cancel} {f : Flit} (hx : (s.die (dieOf t)).xbar[n]? = some ⟨f, none⟩)
    (hm : f.malformed false = false) (hf : f.failed = false) (hs : f.isSched 3 = true) (hd : f.ddie = dieOf t) (hlt : f.ddie < 28)
    (hc : s.cancelOf f = some (no, c)) (ht : f.stile = t) (he : t ≠ edgeTile) (hw : (c.tiles.any fun k => k != t && dieOf k == dieOf t) = true) :
    exec (.crossbarCrossing (dieOf t) n) s = .next { s.modDie (dieOf t) fun d => { d with xbar := d.xbar.eraseIdx n } with
      cancels := mput s.cancels no ({ c with tiles := c.tiles.filter (· != t) }.addSum (dieOf t) (reportCounts f.payload)) } := by
  have hclass : f.isClass 3 = true := (Bool.and_eq_true_iff.1 hs).1
  have hkind : f.kind = 3 ∧ f.class_ = 3 := by simpa [Flit.isClass] using hclass
  have hother (r : Nat) : f.isResponse r = false := by simp [Flit.isResponse, Flit.isClass, hkind]
  have hhere : f.forSched (dieOf t) = true := by simp [Flit.forSched, hd, hclass]
  have hany : (c.tiles.filter (· != t)).any (fun u => dieOf u == dieOf t) = true := by simpa [List.any_filter] using hw
  have hreach : (s.modDie (dieOf t) fun d => { d with xbar := d.xbar.eraseIdx n }).reportReaches (dieOf t) f
      = { s.modDie (dieOf t) fun d => { d with xbar := d.xbar.eraseIdx n } with
          cancels := mput s.cancels no ({ c with tiles := c.tiles.filter (· != t) }.addSum (dieOf t) (reportCounts f.payload)) } := by
    unfold State.reportReaches
    rw [show State.cancelOf (s.modDie (dieOf t) fun d => { d with xbar := d.xbar.eraseIdx n }) f = some (no, c) from hc]
    dsimp only
    rw [ht, if_neg he]
    exact if_pos hany
  show execCrossbarCrossing (dieOf t) n s = _
  unfold execCrossbarCrossing
  rw [hx]
  dsimp only
  rw [if_neg (by simp), if_neg (by simp [hm, hlt]), if_pos (by simp [hhere]), State.checkFlit, hf]
  refine congrArg Host.Outcome.next ?_
  unfold State.atEdge
  simp only [hother, hkind.1, hs]
  exact hreach

theorem exec_cancelAckWrite_of_silent {s : State} {no : Nat} {c : Cancel} (hc : mfind no s.cancels = some c) (hd : c.done = false) (ht : c.tiles = [])
    (hds : c.dies = []) (ho : c.owed = []) (hp : s.parentDone c = true) (ha : c.ack = none) :
    exec (.cancelAckWrite no) s = .next { s with cancels := mput s.cancels no { c with done := true } } := by
  show execCancelAckWrite no s = _
  unfold execCancelAckWrite
  rw [hc]
  dsimp only
  rw [if_neg (by simp [hd, ht, hds, ho, hp])]
  simp only [ha]

theorem exec_cancelAckWrite_of_ack {s : State} {no a pa : Nat} {c : Cancel} (hc : mfind no s.cancels = some c) (hd : c.done = false) (ht : c.tiles = [])
    (hds : c.dies = []) (ho : c.owed = []) (hp : s.parentDone c = true) (ha : c.ack = some a)
    (htr : s.translate (dieOf c.tile) c.part a false true = .ok pa) (hown : s.owns c.part pa = true) :
    ∃ w, { s with cancels := mput s.cancels no { c with done := true } }.EdgeStep w
      ∧ exec (.cancelAckWrite no) s = .next ((w.writeHome (.dev pa) 32 c.record).writeHome (.dev pa) 1 1) := by
  have h := State.EdgeStep.refl { s with cancels := mput s.cancels no { c with done := true } }
  refine ⟨_, (h.edgeAt ⟨dieOf c.tile, []⟩ c.part a 32 false true).meterDev c.part (.dev pa) 32 true, ?_⟩
  show execCancelAckWrite no s = _
  unfold execCancelAckWrite
  rw [hc]
  dsimp only
  rw [if_neg (by simp [hd, ht, hds, ho, hp])]
  have htr' : State.translate { s with cancels := mput s.cancels no { c with done := true } } (dieOf c.tile) c.part a false true = .ok pa := htr
  have hhome : State.devHome { s with cancels := mput s.cancels no { c with done := true } } c.part pa = .dev pa := if_pos hown
  split
  · rename_i e
    exact absurd (ha.symm.trans e) (by simp)
  · rename_i b e
    obtain rfl : b = a := Option.some.inj (e.symm.trans ha)
    rw [htr']
    dsimp only
    rw [hhome]

/-! Kills. -/

theorem State.task_killTask {s : State} {t c : Nat} {k : Task} (h : (s.ctx t c).task = some k) :
    ((s.killTask t c).ctx t c).task = none ∧ ((s.killTask t c).ctx t c).trap = false := by
  unfold State.killTask
  rw [h]
  dsimp only
  rw [State.ctx_modCtx]
  exact ⟨rfl, rfl⟩

/-- Settles O53: the registrations of a die are folded over its tiles, each of which covers the scope and gives up the tasks that wait, or leaves
its intervals; a report, the scheduler's sums, the record and the kills are the steps' own equations. -/
theorem cancelsRegisterKillReportAndEnd : Obligations.CancelsRegisterKillReportAndEnd := by
  unfold Obligations.CancelsRegisterKillReportAndEnd
  intro s no t x c
  refine ⟨fun hc hd => ⟨?_, ?_, ?_, ?_⟩, fun k hk hh hv => ⟨?_, ?_, ?_⟩⟩
  · intro hr he ho hres hne hn
    have hreg := State.registeredOn_foldl no c (s.tilesHere c t) s
    refine ⟨_, exec_cancelRegistration_of_here hc hd hr he ho hres hne hn, State.edges_registeredDie hc, fun hs k => ?_, fun hs k hk hkd => ?_⟩
    · show (State.tile ((s.tilesHere c t).foldl (fun s u => s.registerHere no c u) s) k).cancels = _
      by_cases hk : k ∈ s.tilesHere c t
      · exact ((hreg.own k hk).2 hs).cancels
      · rw [hreg.others k hk]
    · obtain ⟨hcov, -, hready, hdep⟩ := (hreg.own k (List.mem_filter.2 ⟨hk, by simpa using hkd⟩)).1 hs
      exact ⟨hcov, fun e => ⟨hready e, hdep e⟩⟩
  · intro g ht hg ho hs hr hdone
    refine ⟨_, exec_cancelTileReport_of_done hc ht hg ho hs hr hdone, ?_, ?_, ?_⟩
    · simp [State.sendEdge, Tile.inject, State.tile_modTile, State.flit]
    · simp [State.sendEdge, Tile.inject, State.tile_modTile]
    · exact (State.SameMemory.modTile s t (fun tl => { tl with regs := tl.regs.map fun r => if r.no = no then { r with sent := true } else r })
        (fun _ => rfl) fun _ => rfl).trans (State.sameMemory_sendEdge _ _ _)
  · intro n f hx hm hf hs hdd hlt hcf ht he hw
    refine ⟨_, exec_crossbarCrossing_of_report hx hm hf hs hdd hlt hcf ht he hw, ?_, mfind_mput_same ..⟩
    exact (State.SameMemory.modDie s (dieOf t) (fun d => { d with xbar := d.xbar.eraseIdx n }) fun _ => rfl).trans (State.sameMemory_cancels _ _)
  · intro ht hds ho hp
    refine ⟨fun ha => ⟨_, exec_cancelAckWrite_of_silent hc hd ht hds ho hp ha, mfind_mput_same .., s.sameMemory_cancels _⟩, fun a pa ha htr hown hj => ?_⟩
    · obtain ⟨w, hw, he⟩ := exec_cancelAckWrite_of_ack hc hd ht hds ho hp ha htr hown
      refine ⟨_, he, ?_, ?_⟩
      · show mfind no w.cancels = _
        rw [hw.only]
        exact mfind_mput_same ..
      · obtain ⟨hdone, hscope, hkilled, hpurged, hcut, hdropped⟩ := c.recorded_record
        rw [State.readHome_acknowledged (hw.dev hj).2]
        exact ⟨hdone, hscope, hkilled, hpurged, hcut, hdropped⟩
  · intro howes
    constructor
    · exact if_neg (by simp [howes])
    · show execTrapModeKillTimeout t x s = _
      unfold execTrapModeKillTimeout
      dsimp only
      split
      · rfl
      · exact if_neg (by simp [howes])
  · intro htrap hcond hwait howes
    refine ⟨?_, (State.task_killTask hk).1⟩
    exact if_pos (by simp [State.killDue, hk, htrap, hcond, hwait, hh, hv, howes])
  · intro a htrap ha hle howes
    refine ⟨?_, (State.task_killTask hk).2⟩
    show execTrapModeKillTimeout t x s = _
    unfold execTrapModeKillTimeout
    simp only [ha]
    exact if_pos (by simp [hk, htrap, hh, hv, howes, hle])

end Sys2Proof.Machine
end

section
/-! Retirement of transfers (R38, R224, R225, R247, R355, R366): a contribution at its record, an entry's leaving, and poison that stands for data
which does not come. -/

namespace Sys2Proof.Machine

/-! Entries of a queue. -/

/-- A queue's entry of number `id` changed: a search by what the change keeps finds the same one, changed. -/
theorem find?_map_of_keeps {l : List QEntry} {p : QEntry → Bool} {g : QEntry → QEntry} (hp : ∀ x, p (g x) = p x) {e : QEntry} (h : l.find? p = some e) :
    (l.map g).find? p = some (g e) := by
  rw [List.find?_map, show p ∘ g = p from funext hp, h]
  rfl

theorem Tile.entries_modEntry (tl : Tile) (q id : Nat) (f : QEntry → QEntry) :
    ((tl.modEntry q id f).queue q).entries = (tl.queue q).entries.map fun e => if e.id == id then f e else e := by
  rw [Tile.modEntry, Tile.queue_modQueue]

/-- The entry that a search finds, after a change that the search does not see. -/
theorem Tile.find?_modEntry {tl : Tile} {q : Nat} {p : QEntry → Bool} {e : QEntry} {f : QEntry → QEntry} (h : (tl.queue q).entries.find? p = some e)
    (hp : ∀ x, p (f x) = p x) : ((tl.modEntry q e.id f).queue q).entries.find? p = some (f e) := by
  rw [Tile.entries_modEntry, find?_map_of_keeps (g := fun x => if x.id == e.id then f x else x) (fun x => ?_) h, if_pos (by simp)]
  split
  · exact hp x
  · rfl

theorem State.sameMemory_modEntry (s : State) (t q id : Nat) (f : QEntry → QEntry) : s.SameMemory (s.modTile t fun tl => tl.modEntry q id f) :=
  .modTile s t _ (fun _ => rfl) fun _ => rfl

/-! Writes and tiles. -/

/-- A tile's bytes and poison apart, nothing differs. -/
def Tile.BytesOnly (a b : Tile) : Prop := b = { a with store := b.store, acc := b.acc, accPoison := b.accPoison }

theorem Tile.BytesOnly.refl (a : Tile) : a.BytesOnly a := rfl

theorem Tile.BytesOnly.trans {a b c : Tile} (h : a.BytesOnly b) (k : b.BytesOnly c) : a.BytesOnly c := by
  unfold Tile.BytesOnly at h k ⊢
  exact k.trans (by rw [h])

theorem Tile.BytesOnly.queue {a b : Tile} (h : a.BytesOnly b) (q : Nat) : b.queue q = a.queue q := by rw [h]; rfl

theorem State.bytesOnly_modTile (s : State) (t : Nat) {f : Tile → Tile} (hf : ∀ tl : Tile, tl.BytesOnly (f tl)) (k : Nat) :
    (s.tile k).BytesOnly ((s.modTile t f).tile k) := by
  by_cases hk : k = t
  · subst hk
    rw [State.tile_modTile]
    exact hf _
  · rw [State.tile_modTile_ne s hk]
    exact .refl _

theorem State.bytesOnly_writeHomeList (s : State) (h : Home) (l : List Byte) (k : Nat) : (s.tile k).BytesOnly ((s.writeHomeList h l).tile k) := by
  cases h with
  | tile t off =>
    refine State.bytesOnly_modTile s t ?_ k
    exact fun _ => rfl
  | acc t off =>
    refine State.bytesOnly_modTile s t ?_ k
    exact fun _ => rfl
  | _ => exact .refl _

theorem State.bytesOnly_writeHome (s : State) (h : Home) (n v k : Nat) : (s.tile k).BytesOnly ((s.writeHome h n v).tile k) :=
  s.bytesOnly_writeHomeList h (toBytes v n) k

theorem State.bytesOnly_poisonAt (s : State) (h : Home) (n k : Nat) : (s.tile k).BytesOnly ((s.poisonAt h n).tile k) := by
  cases h with
  | tile t off =>
    refine State.bytesOnly_modTile s t ?_ k
    exact fun _ => rfl
  | acc t off =>
    refine State.bytesOnly_modTile s t ?_ k
    exact fun _ => rfl
  | _ => exact .refl _

/-! Poison. -/

theorem mem_insertBy {lt : Nat → Nat → Bool} {l : List Nat} {k x : Nat} : x ∈ insertBy lt k l ↔ x = k ∨ x ∈ l := by
  induction l with
  | nil => simp [insertBy]
  | cons y l ih =>
    unfold insertBy
    split
    · simp
    · simp only [List.mem_cons, ih]
      tauto

theorem mem_sadd {l : List Nat} {k x : Nat} : x ∈ sadd l k ↔ x = k ∨ x ∈ l := by
  unfold sadd
  split
  case isTrue h =>
    have hk : k ∈ l := by simpa using h
    exact ⟨.inr, fun e => e.elim (fun e => e ▸ hk) id⟩
  case isFalse => exact mem_insertBy

/-- The bytes are the same, and no unit has lost its poison. -/
def Store.Poisons (m w : Store) : Prop := w.bytes = m.bytes ∧ ∀ x ∈ m.poison, x ∈ w.poison

theorem Store.Poisons.refl (m : Store) : m.Poisons m := ⟨rfl, fun _ => id⟩

theorem Store.Poisons.trans {m w v : Store} (h : m.Poisons w) (k : w.Poisons v) : m.Poisons v := ⟨k.1.trans h.1, fun x hx => k.2 x (h.2 x hx)⟩

theorem Store.Poisons.poisoned {m w : Store} (h : m.Poisons w) {a n : Nat} (hp : m.poisoned a n = true) : w.poisoned a n = true := by
  unfold Store.poisoned at hp ⊢
  obtain ⟨x, hx, hm⟩ := List.any_eq_true.1 hp
  exact List.any_eq_true.2 ⟨x, hx, by simpa using h.2 x (by simpa using hm)⟩

theorem mem_foldl_sadd {l m : List Nat} {x : Nat} : x ∈ l.foldl sadd m ↔ x ∈ l ∨ x ∈ m := by
  induction l generalizing m with
  | nil => simp
  | cons y l ih =>
    rw [List.foldl_cons, ih, mem_sadd, List.mem_cons]
    tauto

theorem Store.poisons_addPoison (m : Store) (a n : Nat) : m.Poisons (m.addPoison a n) := ⟨rfl, fun _ hx => mem_foldl_sadd.2 (.inr hx)⟩

theorem Store.poisoned_addPoison (m : Store) (a : Nat) {n : Nat} (hn : 0 < n) : (m.addPoison a n).poisoned a n = true := by
  have hu : a / 16 ∈ unitsOf a n := by
    rw [unitsOf, if_neg (by omega)]
    exact List.mem_map.2 ⟨0, List.mem_range.2 (Nat.succ_pos _), rfl⟩
  exact List.any_eq_true.2 ⟨_, hu, by simpa [Store.addPoison] using mem_foldl_sadd.2 (.inl hu)⟩

/-- Of every memory the bytes are the same, and no unit has lost its poison. -/
def State.Poisons (s u : State) : Prop := ∀ g, (u.homeStore g).2 = (s.homeStore g).2 ∧ (s.homeStore g).1.Poisons (u.homeStore g).1

theorem State.Poisons.refl (s : State) : s.Poisons s := fun _ => ⟨rfl, .refl _⟩

theorem State.Poisons.trans {s u v : State} (h : s.Poisons u) (k : u.Poisons v) : s.Poisons v := fun g =>
  ⟨(k g).1.trans (h g).1, (h g).2.trans (k g).2⟩

theorem State.Poisons.sameMemory {s u : State} (h : s.Poisons u) : s.SameMemory u := fun g => by
  rw [State.readHome, State.readHome, (h g).1, Store.read, Store.read, (h g).2.1]

theorem State.Poisons.poisonHome {s u : State} (h : s.Poisons u) {g : Home} {n : Nat} (hp : s.poisonHome g n = true) : u.poisonHome g n = true := by
  have hs := (h g).2.poisoned (a := (s.homeStore g).2) (n := n)
  rw [← (h g).1] at hs
  cases g with
  | lost pa => rfl
  | _ => exact hs ((congrArg (Store.poisoned _ · n) (h _).1).trans hp)

/-- Beats with a second frame become poison there too (R310). -/
theorem State.poisons_mirrors (s : State) (pa n : Nat) : (s.dev.addPoison pa n).Poisons (s.poisonAt (.dev pa) n).dev := by
  refine List.foldlRecOn (motive := fun m : Store => (s.dev.addPoison pa n).Poisons m) _ _ (.refl _) fun m hm x _ => ?_
  exact List.foldlRecOn (motive := fun m : Store => (s.dev.addPoison pa n).Poisons m) _ _ hm fun m hm a _ => hm.trans (m.poisons_addPoison a x.2)

theorem State.poisons_modTile {s : State} {t : Nat} {f : Tile → Tile} (hs : (s.tile t).store.Poisons (f (s.tile t)).store)
    (ha : Store.Poisons ⟨(s.tile t).acc, (s.tile t).accPoison⟩ ⟨(f (s.tile t)).acc, (f (s.tile t)).accPoison⟩) : s.Poisons (s.modTile t f) := by
  intro g
  cases g with
  | tile k off =>
    by_cases hk : k = t
    · subst hk
      simp only [State.homeStore, State.tile_modTile]
      exact ⟨trivial, hs⟩
    · simp only [State.homeStore, State.tile_modTile_ne s hk]
      exact ⟨trivial, .refl _⟩
  | acc k off =>
    by_cases hk : k = t
    · subst hk
      simp only [State.homeStore, State.tile_modTile]
      exact ⟨trivial, ha⟩
    · simp only [State.homeStore, State.tile_modTile_ne s hk]
      exact ⟨trivial, .refl _⟩
  | _ => exact ⟨rfl, .refl _⟩

theorem State.poisons_poisonAt (s : State) (h : Home) (n : Nat) : s.Poisons (s.poisonAt h n) := by
  cases h with
  | tile t off => exact State.poisons_modTile (Store.poisons_addPoison _ _ _) (.refl _)
  | acc t off => exact State.poisons_modTile (.refl _) (Store.poisons_addPoison ⟨(s.tile t).acc, (s.tile t).accPoison⟩ off n)
  | staging d off =>
    intro g
    cases g with
    | staging k a =>
      by_cases hk : k = d
      · subst hk
        simp only [State.poisonAt, State.homeStore, State.die_modDie]
        exact ⟨trivial, Store.poisons_addPoison _ _ _⟩
      · simp only [State.poisonAt, State.homeStore, State.die_modDie_ne s hk]
        exact ⟨trivial, .refl _⟩
    | _ => exact ⟨rfl, .refl _⟩
  | host p iova =>
    intro g
    cases g with
    | host k a =>
      by_cases hk : k = p
      · subst hk
        simp only [State.poisonAt, State.homeStore, mget_mput_same]
        exact ⟨trivial, Store.poisons_addPoison _ _ _⟩
      · simp only [State.poisonAt, State.homeStore, mget_mput_ne hk]
        exact ⟨trivial, .refl _⟩
    | _ => exact ⟨rfl, .refl _⟩
  | dev pa =>
    intro g
    cases g with
    | dev a => exact ⟨rfl, (Store.poisons_addPoison s.dev pa n).trans (s.poisons_mirrors pa n)⟩
    | _ => exact ⟨rfl, .refl _⟩
  | lost pa => exact .refl s

theorem State.poisonHome_poisonAt (s : State) (h : Home) {n : Nat} (hn : 0 < n) : (s.poisonAt h n).poisonHome h n = true := by
  cases h with
  | tile t off =>
    simp only [State.poisonHome, State.poisonAt, State.homeStore, State.tile_modTile]
    exact Store.poisoned_addPoison _ _ hn
  | acc t off =>
    simp only [State.poisonHome, State.poisonAt, State.homeStore, State.tile_modTile]
    exact Store.poisoned_addPoison _ _ hn
  | staging d off =>
    simp only [State.poisonHome, State.poisonAt, State.homeStore, State.die_modDie]
    exact Store.poisoned_addPoison _ _ hn
  | host p iova =>
    simp only [State.poisonHome, State.poisonAt, State.homeStore, mget_mput_same]
    exact Store.poisoned_addPoison _ _ hn
  | dev pa => exact (s.poisons_mirrors pa n).poisoned (Store.poisoned_addPoison _ _ hn)
  | lost pa => rfl

/-! Contributions at their record (R38, R225). -/

/-- A record of R38 after a contribution. -/
def contributed (r amount : Nat) (cxl flt psn : Bool) (fcode : Nat) : Nat :=
  (bits r 63 0 + amount) % 2 ^ 64 + (bits r 66 64 ||| (b2n cxl + 2 * b2n flt + 4 * b2n psn)) * 2 ^ 64 + bits r 95 67 * 2 ^ 67
    + (if flt then fcode else bits r 127 96) % 2 ^ 32 * 2 ^ 96

/-- The fields of a record after a contribution: VALUE, the status bits, what lies between them and FCODE, FCODE. -/
structure Contributed (o r amount : Nat) (cxl flt psn : Bool) (fcode : Nat) : Prop where
  value : bits r 63 0 = (bits o 63 0 + amount) % 2 ^ 64
  status : bits r 66 64 = bits o 66 64 ||| (b2n cxl + 2 * b2n flt + 4 * b2n psn)
  between : bits r 95 67 = bits o 95 67
  fault : bits r 127 96 = if flt then fcode % 2 ^ 32 else bits o 127 96

theorem status_lt (o : Nat) (cxl flt psn : Bool) : bits o 66 64 ||| (b2n cxl + 2 * b2n flt + 4 * b2n psn) < 8 := by
  refine Nat.or_lt_two_pow (n := 3) (Nat.mod_lt _ (by decide)) ?_
  cases cxl <;> cases flt <;> cases psn <;> decide

theorem bits_fields {v st b fc : Nat} (hv : v < 2 ^ 64) (hs : st < 8) (hb : b < 2 ^ 29) (hf : fc < 2 ^ 32) :
    let r := (v + st * 2 ^ 64 + b * 2 ^ 67 + fc * 2 ^ 96) % 256 ^ 16
    bits r 63 0 = v ∧ bits r 66 64 = st ∧ bits r 95 67 = b ∧ bits r 127 96 = fc := by
  simp only [bits]
  omega

theorem contributed_fields (o amount : Nat) (cxl flt psn : Bool) (fcode : Nat) :
    Contributed o (contributed o amount cxl flt psn fcode % 256 ^ 16) amount cxl flt psn fcode := by
  have hst := status_lt o cxl flt psn
  have hv : (bits o 63 0 + amount) % 2 ^ 64 < 2 ^ 64 := Nat.mod_lt _ (by decide)
  have hb : bits o 95 67 < 2 ^ 29 := Nat.mod_lt _ (by decide)
  have hf : (if flt then fcode else bits o 127 96) % 2 ^ 32 = if flt then fcode % 2 ^ 32 else bits o 127 96 := by
    split
    · rfl
    · exact Nat.mod_eq_of_lt (Nat.mod_lt _ (by decide))
  have hfl : (if flt then fcode else bits o 127 96) % 2 ^ 32 < 2 ^ 32 := Nat.mod_lt _ (by decide)
  obtain ⟨hvalue, hstatus, hbetween, hfault⟩ := bits_fields hv hst hb hfl
  exact ⟨hvalue, hstatus, hbetween, hfault.trans hf⟩

theorem State.Wrote.readHome {s u : State} {h : Home} {n v : Nat} (hw : s.Wrote u h n v) : u.readHome h n = v % 256 ^ n := by
  rw [State.readHome_off, ← Store.read_write Store.empty h.off n v]
  refine Store.read_congr fun k hk => ?_
  rw [← State.readHome_at, hw.1, if_pos (by omega), Store.read_one_write, if_pos (by omega)]

/-- Homes whose bytes the edge leaves as they are: a tile's, and device memory where no page migrates. -/
def State.Quiet (s : State) (h : Home) : Prop := (∃ k a, h = .tile k a) ∨ ∃ pa, h = .dev pa ∧ s.Jobless

theorem State.EdgeStep.quiet {s w : State} (hw : s.EdgeStep w) {h : Home} (hq : s.Quiet h) :
    w.Plain h ∧ ∀ n k, w.readHome (h.at k) n = s.readHome (h.at k) n := by
  rcases hq with ⟨k, a, rfl⟩ | ⟨pa, rfl, hj⟩
  · exact ⟨⟨rfl, rfl, fun _ e => nomatch e⟩, fun n j => by simp only [Home.at, State.readHome, State.homeStore, hw.tile]⟩
  · obtain ⟨hd, hjw⟩ := hw.dev hj
    exact ⟨⟨rfl, rfl, fun _ _ => hjw.unmirrored⟩, fun n j => by simp only [Home.at, State.readHome, State.homeStore, hd]⟩

theorem State.sameMemory_meterDev (s : State) (p : Nat) (h : Home) (n : Nat) (wr : Bool) : s.SameMemory (s.meterDev p h n wr) := by
  unfold State.meterDev
  split
  · split
    · exact .modPart s p _
    · exact .refl s
  · exact .refl s

/-- The edge's part comes first; then a poisoned record is reported, and another takes the contribution. -/
theorem State.contribute_eq (s : State) (p die : Nat) (h : Home) (a amount : Nat) (cxl flt psn : Bool) (fcode : Nat) :
    ∃ w, s.EdgeStep w ∧ s.contribute p die h a amount cxl flt psn fcode = if s.poisonRead h 16 then w.badRecord p die a
      else ((w.meterDev p h 16 false).writeHome h 16 (contributed (w.readHome h 16) amount cxl flt psn fcode)).meterDev p h 16 true :=
  ⟨_, (State.EdgeStep.refl s).edgeTouch .., rfl⟩

/-- A contribution to a record without poison. -/
theorem State.wrote_contribute {s : State} {h : Home} (hq : s.Quiet h) (hb : s.poisonRead h 16 = false) (p die a amount : Nat) (cxl flt psn : Bool) (fcode : Nat) :
    ∃ w, s.EdgeStep w ∧ w.Wrote (s.contribute p die h a amount cxl flt psn fcode) h 16 (contributed (s.readHome h 16) amount cxl flt psn fcode) := by
  obtain ⟨w, hw, he⟩ := s.contribute_eq p die h a amount cxl flt psn fcode
  have hr := (hw.quiet hq).2 16 h.off
  rw [Home.at_off] at hr
  refine ⟨_, hw.meterDev p h 16 false, ?_⟩
  rw [he, if_neg (by simp [hb]), hr]
  exact (((hw.meterDev p h 16 false).quiet hq).1.wrote 16 _).sameMemory (State.sameMemory_meterDev _ _ _ _ _)

/-- The record's fields, and what else stands in its memory. -/
theorem State.contributed_contribute {s : State} {h : Home} (hq : s.Quiet h) (hb : s.poisonRead h 16 = false) (p die a amount : Nat) (cxl flt psn : Bool)
    (fcode : Nat) : let u := s.contribute p die h a amount cxl flt psn fcode
    Contributed (s.readHome h 16) (u.readHome h 16) amount cxl flt psn fcode
      ∧ ∀ k, k < h.off ∨ h.off + 16 ≤ k → u.readHome (h.at k) 1 = s.readHome (h.at k) 1 := by
  obtain ⟨w, hw, hwrote⟩ := s.wrote_contribute hq hb p die a amount cxl flt psn fcode
  refine ⟨?_, fun k hk => ?_⟩
  · rw [hwrote.readHome]
    exact contributed_fields ..
  · rw [hwrote.1, if_neg (by omega)]
    exact (hw.quiet hq).2 1 k

theorem State.tile_badRecord (s : State) (p die a k : Nat) : (s.badRecord p die a).tile k = s.tile k := by
  obtain ⟨m, f, he, -⟩ := s.ringRecord_eq p (errRecord (s.die die).lclk a 8 2 0 die 0 p)
  rw [State.badRecord, he]
  rfl

theorem State.tile_meterDev (s : State) (p : Nat) (h : Home) (n : Nat) (wr : Bool) (k : Nat) : (s.meterDev p h n wr).tile k = s.tile k :=
  ((State.EdgeStep.refl s).meterDev p h n wr).tile k

theorem State.bytesOnly_contribute (s : State) (p die : Nat) (h : Home) (a amount : Nat) (cxl flt psn : Bool) (fcode k : Nat) :
    (s.tile k).BytesOnly ((s.contribute p die h a amount cxl flt psn fcode).tile k) := by
  obtain ⟨w, hw, he⟩ := s.contribute_eq p die h a amount cxl flt psn fcode
  rw [he, ← hw.tile]
  split
  · rw [State.tile_badRecord]
    exact .refl _
  · rw [State.tile_meterDev, ← w.tile_meterDev p h 16 false]
    exact State.bytesOnly_writeHome ..

theorem State.edgeStep_denied (s : State) (die p cause va : Nat) : s.EdgeStep (s.denied die p cause va) :=
  .ite ((State.EdgeStep.refl s).fillCache ..) (.refl s)

theorem State.bytesOnly_contributeEntry (s : State) (t : Nat) (e : QEntry) (k : Nat) : (s.tile k).BytesOnly ((s.contributeEntry t e).tile k) := by
  unfold State.contributeEntry
  dsimp only
  split
  · exact .refl _
  · split
    · rw [State.tile_badRecord, (s.edgeStep_denied _ _ _ _).tile]
      exact .refl _
    · exact s.bytesOnly_contribute ..

theorem State.contributeEntry_of_ok {s : State} {t sp a : Nat} {e : QEntry} {h : Home} (hc : e.ctr = some (sp, a)) (hr : s.resolve t sp a 16 true true = .ok h) :
    s.contributeEntry t e = s.contribute (s.partId t) (dieOf t) h a e.amount e.cxl e.flt e.psn e.fcode := by
  unfold State.contributeEntry
  rw [hc]
  dsimp only
  rw [hr]

theorem State.resolve_store {s : State} {t a n : Nat} {rd wr : Bool} (h : a + n ≤ 0x300000) : s.resolve t 1 a n rd wr = .ok (.tile t a) :=
  if_neg (by simp [State.rangeOk, tileStoreSize, h])

theorem State.poisonRead_tile {s : State} {t a n : Nat} (h : (s.tile t).store.poisoned a n = false) : s.poisonRead (.tile t a) n = false := by
  simp [State.poisonRead, State.poisonHome, State.reservePoison, State.homeStore, h]

theorem State.readHome_tile_congr {s u : State} {t : Nat} (h : u.tile t = s.tile t) {a n : Nat} : u.readHome (.tile t a) n = s.readHome (.tile t a) n := by
  simp only [State.readHome, State.homeStore, h]

theorem State.poisonHome_tile_congr {s u : State} {t : Nat} (h : u.tile t = s.tile t) {a n : Nat} : u.poisonHome (.tile t a) n = s.poisonHome (.tile t a) n := by
  simp only [State.poisonHome, State.homeStore, h]

/-! An entry leaves. -/

/-- What a queue keeps of an entry that leaves it. -/
structure Queue.Retired (a b : Queue) (e : QEntry) : Prop where
  entries : b.entries = a.entries.filter fun x => x.id != e.id
  retired : b.retired = (a.retired + 1) % 2 ^ 32
  fault : e.flt = true → b.fv = true ∧ b.fcause = e.fcode ∧ b.faddr = e.faddr
  clean : e.flt = false → b.fv = a.fv

theorem Queue.retired_retire (u : Queue) (e : QEntry) : u.Retired (u.retire e) e := by
  unfold Queue.retire Queue.noteFault
  split
  case isTrue h => exact ⟨rfl, rfl, fun _ => ⟨rfl, rfl, rfl⟩, fun k => absurd (k.symm.trans h) (by simp)⟩
  case isFalse h => exact ⟨rfl, rfl, fun k => absurd k h, fun _ => rfl⟩

theorem Tile.retired_retire (tl : Tile) (q : Nat) (e : QEntry) : (tl.queue q).Retired ((tl.retire q e).queue q) e := by
  have hq : (tl.retire q e).queue q = (tl.queue q).retire e := Tile.queue_modQueue tl q fun u => u.retire e
  rw [hq]
  exact Queue.retired_retire ..

theorem State.readHome_retire (s : State) (t q : Nat) (e : QEntry) (h : Home) (n : Nat) : (s.modTile t fun tl => tl.retire q e).readHome h n = s.readHome h n :=
  State.readHome_modTile s t _ rfl rfl h n

/-! The steps. -/

section
variable {s : State} {t q : Nat} {e : QEntry} (hf : ((s.tile t).queue q).entries.find? (fun e => !e.kind.isGate) = some e) (hst : e.st = .finished)
  (howe : e.owesEnd = false)
include hf hst howe

theorem exec_transferRetire_of_near (hfar : s.farRecord t e = none) :
    exec (.transferRetire t q) s = .next ((s.contributeEntry t e).modTile t fun tl => tl.retire q e) := by
  show execTransferRetire t q s = _
  unfold execTransferRetire
  rw [hf]
  dsimp only
  rw [if_neg (by simp [hst, howe]), hfar]

theorem exec_transferRetire_of_leaving {v off : Nat} (hfar : s.farRecord t e = some (v, off)) (hs : e.ctrSent = false) (hr : (s.tile t).room 1 = true)
    (ho : (s.tile t).gate = .open_) : exec (.transferRetire t q) s
      = .next ((s.sendFlit t v (s.flit t v 3 0 (e.farPayload off))).modTile t fun tl => tl.modEntry q e.id fun e => { e with ctrSent := true }) := by
  show execTransferRetire t q s = _
  unfold execTransferRetire
  rw [hf]
  dsimp only
  rw [if_neg (by simp [hst, howe]), hfar]
  dsimp only
  rw [if_pos (by simp [hs]), if_pos (by simp [hr, ho, Tile.open_])]

theorem exec_transferRetire_of_arrived {v off : Nat} (hfar : s.farRecord t e = some (v, off)) (hs : e.ctrSent = true)
    (hw : (s.onWay (dieOf t) fun g => g.stile == t && g.isClass 2 && g.payload == e.farPayload off) = false) :
    exec (.transferRetire t q) s = .next (s.modTile t fun tl => tl.retire q e) := by
  show execTransferRetire t q s = _
  unfold execTransferRetire
  rw [hf]
  dsimp only
  rw [if_neg (by simp [hst, howe]), hfar]
  dsimp only
  rw [if_neg (by simp [hs])]
  exact if_neg fun h => absurd (hw.symm.trans h) (by simp)

end

/-- A contribution that travelled leaves the intake. -/
theorem exec_counterContributionFlit_of_taken {s : State} {t : Nat} {f : Flit} {tl : Tile} (hf : (s.tile t).takeIntake (fun f => f.isClass 2) = some (f, tl))
    (h16 : bits f.payload 123 102 % 16 = 0) (hle : bits f.payload 123 102 + 16 ≤ 0x300000) : let w := s.modTile t fun _ => tl
    let off := bits f.payload 123 102
    exec (.counterContributionFlit t) s = .next (if f.bad then (w.poisonAt (.tile t off) 16).badRecord (w.partId t) (dieOf t) off
      else w.contribute (w.partId t) (dieOf t) (.tile t off) off (bits f.payload 63 0) (bit f.payload 99) (bit f.payload 100) (bit f.payload 101)
        (bits f.payload 98 91)) := by
  show execCounterContributionFlit t s = _
  unfold execCounterContributionFlit
  rw [hf]
  dsimp only
  have hfit : ¬ tileStoreSize < bits f.payload 123 102 + 16 := Nat.not_lt.2 hle
  rw [if_neg (by simp [h16, hfit])]
  split <;> rfl

theorem Tile.takeIntake_eq {tl tl' : Tile} {p : Flit → Bool} {f : Flit} (h : tl.takeIntake p = some (f, tl')) : ∃ l, tl' = { tl with intake := l } := by
  unfold Tile.takeIntake at h
  obtain ⟨r, -, he⟩ := Option.map_eq_some_iff.1 h
  exact ⟨r.2, (congrArg Prod.snd he).symm⟩

/-! Quotes that expire. -/

/-- Poison at every home of a list. -/
def State.poisonAll (s : State) (l : List (Home × Nat)) : State := l.foldl (fun s x => s.poisonAt x.1 x.2) s

theorem State.poisons_poisonAll (s : State) (l : List (Home × Nat)) : s.Poisons (s.poisonAll l) := by
  induction l generalizing s with
  | nil => exact .refl s
  | cons x l ih => exact (s.poisons_poisonAt x.1 x.2).trans (ih _)

theorem State.poisonHome_poisonAll (s : State) {l : List (Home × Nat)} {y : Home × Nat} (hy : y ∈ l) (hn : 0 < y.2) :
    (s.poisonAll l).poisonHome y.1 y.2 = true := by
  induction l generalizing s with
  | nil => nomatch hy
  | cons x l ih =>
    rcases List.mem_cons.1 hy with rfl | hy
    · exact (State.poisons_poisonAll _ l).poisonHome (s.poisonHome_poisonAt y.1 hn)
    · exact ih _ hy

theorem State.bytesOnly_poisonAll (s : State) (k : Nat) (l : List (Home × Nat)) : (s.tile k).BytesOnly ((s.poisonAll l).tile k) := by
  induction l generalizing s with
  | nil => exact .refl _
  | cons x l ih => exact (s.bytesOnly_poisonAt x.1 x.2 k).trans (ih _)

/-- A stream that feeds a block stops. -/
def QEntry.stopped (e : QEntry) : QEntry :=
  { e with flt := true, fcode := 0x07, psn := true, stop := some (0x07, (e.patA.place e.pos |>.toOption.map (·.1)).getD 0) }

/-- A transfer ends at its quote. -/
def QEntry.expired (e : QEntry) : QEntry := { e with st := .finished, flt := true, fcode := 0x07, psn := true, stop := none }

/-- What comes of a transfer across a link in trouble at the end of its quote. -/
def State.expiry (s : State) (t q : Nat) (e : QEntry) : State :=
  if e.kind.ingress && (s.tile t).feeds e then s.modTile t fun tl => tl.modEntry q e.id QEntry.stopped
  else (if e.kind.isCopy then s.poisonAll (s.nextHomes t e).2 else s).modTile t fun tl => (tl.endStream e).modEntry q e.id QEntry.expired

theorem exec_quoteExpiryCompletion_of_due {s : State} {t q : Nat} {e : QEntry} (hf : ((s.tile t).queue q).entries.find? (fun x => x.id == e.id) = some e)
    (hg : e.kind.isGate = false) (hs : e.st ≠ .finished) (hr : (s.tile t).remaining e = 0)
    (hl : s.linkTrouble (dieOf t) (((s.nextHomes t e).1 ++ (s.nextHomes t e).2).map fun x => s.dieAt x.1) = true) :
    exec (.quoteExpiryCompletion t q e.id) s = .next (s.expiry t q e) := by
  show execQuoteExpiryCompletion t q e.id s = _
  unfold execQuoteExpiryCompletion State.expiry
  dsimp only
  rw [hf]
  dsimp only
  rw [hl, if_neg (by simp [hg, hs, hr])]
  split <;> rfl

theorem Tile.find?_endStream {tl : Tile} {q : Nat} {e : QEntry} (g : QEntry → QEntry) (hg : ∀ x, (g x).id = x.id)
    (hf : (tl.queue q).entries.find? (fun x => x.id == e.id) = some e) :
    (((tl.endStream e).modEntry q e.id g).queue q).entries.find? (fun x => x.id == e.id) = some (g e) :=
  Tile.find?_modEntry (tl := tl.endStream e) hf fun x => by rw [hg]

/-- A copy's next destinations under poison. -/
theorem State.poisons_copyHomes (s : State) (t : Nat) (e : QEntry) : ∃ v, v = (if e.kind.isCopy then s.poisonAll (s.nextHomes t e).2 else s) ∧ s.Poisons v
    ∧ (s.tile t).BytesOnly (v.tile t) ∧ (e.kind.isCopy = true → ∀ y ∈ (s.nextHomes t e).2, 0 < y.2 → v.poisonHome y.1 y.2 = true) := by
  by_cases h : e.kind.isCopy = true
  · exact ⟨_, (if_pos h).symm, s.poisons_poisonAll _, s.bytesOnly_poisonAll t _, fun _ y hy hn => s.poisonHome_poisonAll hy hn⟩
  · exact ⟨_, (if_neg h).symm, .refl s, .refl _, fun k => absurd k h⟩

/-- A flit is the last one of the injection queue when it leaves, by a run or by the edge. -/
theorem State.sendFlit_eq (s : State) (t v : Nat) (f : Flit) : ∃ g, s.sendFlit t v f = s.modTile t (fun tl => tl.inject g)
    ∧ g.kind = f.kind ∧ g.payload = f.payload ∧ g.dtile = f.dtile ∧ g.ddie = f.ddie := by
  unfold State.sendFlit
  by_cases h : s.sameRun (s.partId t) t v = true
  · exact ⟨f, by rw [if_pos h], rfl, rfl, rfl, rfl⟩
  · exact ⟨f.toEdge, by rw [if_neg h], rfl, rfl, rfl, rfl⟩

/-- Settles O44: the entry's contribution leaves of the tile all but bytes, so that its queue is found as it was; the record takes it by its fields;
and the homes of the next beat keep their bytes under poison. -/
theorem transfersRetireWithTheirContribution : Obligations.TransfersRetireWithTheirContribution := by
  unfold Obligations.TransfersRetireWithTheirContribution
  intro s t q e
  refine ⟨fun hf hst howe => ⟨fun v off hfar => ⟨fun hs hr ho => ?_,
      fun hs hw => exec_transferRetire_of_arrived hf hst howe hfar hs hw⟩, fun hfar => ?_⟩,
    fun f tl' hf h16 hle hp => ?_, fun id hf hg hs hr hl => ?_⟩
  · obtain ⟨g, hg, hkind, hpay, hdt, hdd⟩ := s.sendFlit_eq t v (s.flit t v 3 0 (e.farPayload off))
    refine ⟨_, { e with ctrSent := true }, g, exec_transferRetire_of_leaving hf hst howe hfar hs hr ho, ?_, ?_, hkind, hpay, hdt, hdd, ?_, rfl, rfl⟩
    · rw [hg]
      exact (State.SameMemory.modTile s t (fun tl => tl.inject g) (fun _ => rfl) fun _ => rfl).trans (State.sameMemory_modEntry _ _ _ _ _)
    · rw [hg, State.tile_modTile, State.tile_modTile]
      rfl
    · rw [hg, State.tile_modTile, State.tile_modTile]
      exact Tile.find?_modEntry (tl := (s.tile t).inject g) hf fun _ => rfl
  · have hbytes := s.bytesOnly_contributeEntry t e t
    obtain ⟨hentries, hretired, hfault, hclean⟩ := ((s.contributeEntry t e).tile t).retired_retire q e
    rw [hbytes.queue] at hentries hretired hclean
    refine ⟨_, exec_transferRetire_of_near hf hst howe hfar, ?_, ?_, ?_, ?_, ?_, ?_, ?_, ?_⟩
    · rwa [State.tile_modTile]
    · rwa [State.tile_modTile]
    · rwa [State.tile_modTile]
    · rwa [State.tile_modTile]
    · rw [State.tile_modTile]
      exact congrArg (List.filter fun r : Range => r.id != e.id) (show ((s.contributeEntry t e).tile t).score = (s.tile t).score by rw [hbytes])
    · intro hc g
      rw [State.readHome_retire, State.contributeEntry, hc]
    · intro a hc hle hp
      obtain ⟨⟨hvalue, hstatus, -, -⟩, -⟩ := State.contributed_contribute (.inl ⟨t, a, rfl⟩)
        (State.poisonRead_tile hp) (s.partId t) (dieOf t) a e.amount e.cxl e.flt
        e.psn e.fcode
      rw [State.readHome_retire, State.contributeEntry_of_ok hc (State.resolve_store hle)]
      exact ⟨hvalue, hstatus⟩
    · intro a pa hc hres hp hj
      obtain ⟨⟨hvalue, hstatus, hbetween, hcode⟩, hothers⟩ := State.contributed_contribute (.inr ⟨pa, rfl, hj⟩)
        hp (s.partId t) (dieOf t) a e.amount e.cxl e.flt
        e.psn e.fcode
      rw [State.readHome_retire, State.contributeEntry_of_ok hc hres]
      refine ⟨hvalue, hstatus, hbetween, hcode, fun b hb => ?_⟩
      rw [State.readHome_retire]
      exact hothers b hb
  · obtain ⟨l, rfl⟩ := Tile.takeIntake_eq hf
    have hw : s.SameMemory (s.modTile t fun _ => { s.tile t with intake := l }) := fun g => State.readHome_modTile s t _ rfl rfl g 1
    have he := exec_counterContributionFlit_of_taken hf h16 hle
    generalize hwe : s.modTile t (fun _ => { s.tile t with intake := l }) = w at hw he
    have htile : w.tile t = { s.tile t with intake := l } := by rw [← hwe, State.tile_modTile]
    have hread (a n : Nat) : w.readHome (.tile t a) n = s.readHome (.tile t a) n := by rw [← hwe, State.readHome_modTile s t _ rfl rfl]
    refine ⟨_, he, ?_⟩
    by_cases hb : f.bad = true
    · rw [if_pos hb]
      refine ⟨?_, fun k => absurd (k.symm.trans hb) (by simp), fun _ => ⟨?_, fun a => ?_⟩⟩
      · rw [State.tile_badRecord, (w.bytesOnly_poisonAt _ 16 t), htile]
      · rw [State.poisonHome_tile_congr (State.tile_badRecord ..)]
        exact w.poisonHome_poisonAt _ (by decide)
      · rw [State.readHome_tile_congr (State.tile_badRecord ..), ← hread]
        exact (w.poisons_poisonAt _ 16).sameMemory _
    · rw [if_neg hb]
      refine ⟨?_, fun _ => ?_, fun k => absurd k hb⟩
      · rw [(w.bytesOnly_contribute ..), htile]
      · obtain ⟨⟨hvalue, -, -, -⟩, -⟩ := State.contributed_contribute (.inl ⟨t, bits f.payload 123 102, rfl⟩)
          (State.poisonRead_tile (s := w) (a := bits f.payload 123 102) (n := 16) (by rw [htile]; exact hp)) (w.partId t) (dieOf t) (bits f.payload 123 102)
          (bits f.payload 63 0) (bit f.payload 99) (bit f.payload 100) (bit f.payload 101) (bits f.payload 98 91)
        rw [hread] at hvalue
        exact hvalue
  · obtain rfl : e.id = id := by simpa using List.find?_some hf
    refine ⟨s.expiry t q e, if e.kind.ingress && (s.tile t).feeds e then e.stopped else e.expired, exec_quoteExpiryCompletion_of_due hf hg hs hr hl, ?_⟩
    unfold State.expiry
    by_cases hfeed : (e.kind.ingress && (s.tile t).feeds e) = true
    · obtain ⟨hin, hfe⟩ := Bool.and_eq_true_iff.1 hfeed
      rw [if_pos hfeed, if_pos hfeed, State.tile_modTile]
      refine ⟨Tile.find?_modEntry hf fun _ => rfl, rfl, rfl, rfl, State.sameMemory_modEntry _ _ _ _ _, fun h => ?_, fun _ _ => ⟨rfl, _, rfl⟩⟩
      exact absurd h (by simp [hin, hfe])
    · rw [if_neg hfeed, if_neg hfeed]
      obtain ⟨v, hv, hpoisons, hbytes, hall⟩ := s.poisons_copyHomes t e
      rw [← hv, State.tile_modTile]
      have hend : v.Poisons (v.modTile t fun tl => (tl.endStream e).modEntry q e.id QEntry.expired) := State.poisons_modTile (.refl _) (.refl _)
      refine ⟨Tile.find?_endStream _ (fun _ => rfl) ?_, rfl, rfl, rfl, (hpoisons.trans hend).sameMemory,
        fun _ => ⟨rfl, fun hc y hy hn => ?_⟩, fun hin hfe => ?_⟩
      · rwa [hbytes.queue]
      · exact hend.poisonHome (hall hc y hy hn)
      · exact absurd (by simp [hin, hfe]) hfeed

end Sys2Proof.Machine
end

section
/-! Copies (R241 to R245, R249): combining, elements in a tile store, one element of a copy, and the steps. -/

namespace Sys2Proof.Machine

/-! Combining (R142, R244). -/

theorem ite_le_eq_ite_lt {α β : Type} [LinearOrder β] (x y : β) (p q : α) : (if x ≤ y then p else q) = if y < x then q else p := by
  by_cases h : x ≤ y
  · rw [if_pos h, if_neg (not_lt.2 h)]
  · rw [if_neg h, if_pos (not_le.1 h)]

/-- The model's atomic of n bytes is the operation over bit vectors. -/
theorem amoNew_eq (op : AmoOp) {n o a : Nat} (hn : 0 < n) (ho : o < 2 ^ (8 * n)) (ha : a < 2 ^ (8 * n)) (hop : op ≠ .cas) :
    amoNew op n o a 0 = (atomicBits op (BitVec.ofNat (8 * n) o) (BitVec.ofNat (8 * n) a) 0).toNat := by
  have hto : (BitVec.ofNat (8 * n) o).toNat = o := by simp [Nat.mod_eq_of_lt ho]
  have hta : (BitVec.ofNat (8 * n) a).toNat = a := by simp [Nat.mod_eq_of_lt ha]
  have hso : sext o (8 * n) = (BitVec.ofNat (8 * n) o).toInt := sext_eq_toInt o _ (by omega)
  have hsa : sext a (8 * n) = (BitVec.ofNat (8 * n) a).toInt := sext_eq_toInt a _ (by omega)
  cases op with
  | add => simp [amoNew, atomicBits, BitVec.toNat_add, hto, hta]
  | and => simp only [amoNew, atomicBits, BitVec.toNat_and, hto, hta]
  | or => simp only [amoNew, atomicBits, BitVec.toNat_or, hto, hta]
  | xor => simp only [amoNew, atomicBits, BitVec.toNat_xor, hto, hta]
  | swap => simp only [amoNew, atomicBits, hta]
  | cas => exact absurd rfl hop
  | mini => simp only [amoNew, atomicBits, hso, hsa, BitVec.slt, decide_eq_true_eq, ite_le_eq_ite_lt, apply_ite BitVec.toNat, hto, hta]
  | maxi => simp only [amoNew, atomicBits, hso, hsa, BitVec.slt, decide_eq_true_eq, ite_le_eq_ite_lt, apply_ite BitVec.toNat, hto, hta]
  | minn => simp only [amoNew, atomicBits, BitVec.ult, decide_eq_true_eq, ite_le_eq_ite_lt, apply_ite BitVec.toNat, hto, hta]
  | maxn => simp only [amoNew, atomicBits, BitVec.ult, decide_eq_true_eq, ite_le_eq_ite_lt, apply_ite BitVec.toNat, hto, hta]

theorem fmtWidth_of_wide {f : Nat} (h : f ∈ [0x04, 0x05, 0x0A, 0x0B]) : 0 < fmtWidth f / 8 ∧ fmtWidth f = 8 * (fmtWidth f / 8) := by
  revert f
  decide

/-- The operations of RCOPY that are atomics. -/
theorem reduceBits_of_wide {n f o a : Nat} {op : AmoOp} (hf : f ∈ [0x04, 0x05, 0x0A, 0x0B]) (ho : o < 2 ^ fmtWidth f) (ha : a < 2 ^ fmtWidth f)
    (h : (n, op) ∈ [(0, AmoOp.add), (1, .and), (2, .or), (3, .xor), (4, .mini), (5, .maxi), (6, .minn), (7, .maxn)]) :
    reduceBits n f o a = (atomicBits op (BitVec.ofNat (fmtWidth f) o) (BitVec.ofNat _ a) 0).toNat := by
  obtain ⟨hpos, hw⟩ := fmtWidth_of_wide hf
  have hop : n ≠ 8 ∧ reduceOp n = op ∧ op ≠ .cas := by
    simp only [List.mem_cons, Prod.mk.injEq, List.not_mem_nil, or_false] at h
    rcases h with ⟨rfl, rfl⟩ | ⟨rfl, rfl⟩ | ⟨rfl, rfl⟩ | ⟨rfl, rfl⟩ | ⟨rfl, rfl⟩ | ⟨rfl, rfl⟩ | ⟨rfl, rfl⟩ | ⟨rfl, rfl⟩ <;> decide
  obtain ⟨h8, rfl, hcas⟩ := hop
  rw [reduceBits, if_neg h8]
  generalize fmtWidth f / 8 = k at hpos hw ⊢
  generalize fmtWidth f = w at hw ho ha ⊢
  subst hw
  exact amoNew_eq _ hpos ho ha hcas

/-! An element in a tile store. -/

theorem ofBytes_lt (l : List Byte) : ofBytes l < 256 ^ l.length := by
  induction l with
  | nil => simp [ofBytes]
  | cons b l ih =>
    have hb : b.toNat < 256 := b.isLt
    rw [ofBytes, List.length_cons, Nat.pow_succ]
    omega

theorem Store.read_lt (m : Store) (a n : Nat) : m.read a n < 256 ^ n := by
  have h := ofBytes_lt (readBytes m.bytes a n)
  rwa [show (readBytes m.bytes a n).length = n by simp [readBytes]] at h

theorem byteOf_mod {n k : Nat} (y : Nat) (h : k < n) : byteOf (y % 256 ^ n) k = byteOf y k := by
  obtain ⟨d, rfl⟩ := Nat.exists_eq_add_of_lt h
  rw [byteOf, byteOf, show k + d + 1 = k + (d + 1) from rfl, pow_add, Nat.mod_mul_right_div_self, Nat.mod_mod_of_dvd]
  exact dvd_pow_self 256 (Nat.succ_ne_zero d)

theorem State.Wrote.of_mod {s u : State} {h : Home} {n y : Nat} (hw : s.Wrote u h n (y % 256 ^ n)) : s.Wrote u h n y := by
  refine ⟨fun k => ?_, hw.2⟩
  rw [hw.1]
  split
  · exact byteOf_mod y (by omega)
  · rfl

theorem State.length_readSegs (s : State) (h : Home) (n : Nat) : (s.readSegs [(h, n)]).length = n := by simp [State.readSegs]

section
variable {s : State} {v : Via} {t j n a : Nat} {p : Pat} (hsp : p.space = 1) (hp : p.place j = .ok (a, n, 0)) (hle : a + n ≤ 0x300000)
include hsp hp hle

omit hp in
theorem State.segments_store (rd wr : Bool) : s.segments v t p.space a n rd wr = .ok [(.tile t a, n)] := by
  have hr : s.resolveVia v t 1 a n rd wr = .ok (.tile t a) := if_neg (by simp [State.rangeOk, tileStoreSize, hle])
  unfold State.segments
  dsimp only
  rw [hsp, if_pos (by simp), hr]
  rfl

theorem State.elemAt_store (rd wr : Bool) : s.elemAt v t p j rd wr = .ok ([(.tile t a, n)], 0, a) := by
  unfold State.elemAt
  rw [hp]
  dsimp only
  rw [State.segments_store hsp hle]
  rfl

/-- The bytes at an element's place are its bits. -/
theorem State.readElem_store (hw : p.width = 8 * n) :
    ∃ x, s.readElem v t p j = .ok (s.readHome (.tile t a) n, (s.tile t).store.poisoned a n, x) := by
  have hv : ofBytes (s.readSegs [(.tile t a, n)]) / 2 ^ 0 % 2 ^ (8 * n) = s.readHome (.tile t a) n := by
    have hlt : s.readHome (.tile t a) n < 256 ^ n := Store.read_lt _ _ _
    simp only [State.readSegs, List.flatMap_cons, List.flatMap_nil, List.append_nil, ofBytes_toBytes, pow_zero, Nat.div_one, pow_mul, Nat.mod_mod,
      show (2 : Nat) ^ 8 = 256 from rfl]
    exact Nat.mod_eq_of_lt hlt
  have hb : s.segsPoisoned [(.tile t a, n)] = (s.tile t).store.poisoned a n := by
    simp [State.segsPoisoned, State.poisonHome, State.reservePoison, State.homeStore]
  unfold State.readElem
  rw [State.elemAt_store hsp hp hle, hw]
  simp only [Except.map, hv, hb]
  exact ⟨_, rfl⟩

/-- An element written takes every byte of its place. -/
theorem State.writeElem_store (hw : p.width = 8 * n) (y : Nat) (psn : Bool) :
    ∃ u, s.Wrote u (.tile t a) n y ∧ s.writeElem v t p j y psn = .ok (if psn then u.poisonAt (.tile t a) n else u) := by
  refine ⟨s.writeHome (.tile t a) n (y % 256 ^ n), State.Wrote.of_mod (State.wrote_writeHome n _ rfl rfl fun _ e => nomatch e), ?_⟩
  have ho : ofBytes (s.readSegs [(.tile t a, n)]) < 2 ^ (8 * n) := by
    have h := ofBytes_lt (s.readSegs [(.tile t a, n)])
    rw [State.length_readSegs] at h
    rwa [pow_mul]
  unfold State.writeElem
  rw [State.elemAt_store hsp hp hle, hw]
  simp only [Except.map, State.putElem, State.length_readSegs, pow_zero, Nat.mod_one, Nat.div_eq_of_lt ho, Nat.mul_one, Nat.zero_add, Nat.zero_mul, Nat.add_zero]
  simp only [State.writeSegs, State.poisonSegs, State.writeHome, pow_mul, List.foldl_cons, List.foldl_nil, show (2 : Nat) ^ 8 = 256 from rfl,
    List.take_of_length_le (length_toBytes _ n).le]

end

/-! One element of a copy (R241 to R244). -/

section
variable {s : State} {t j : Nat} {e : QEntry} (hsp : e.patA.space ≠ 4)
include hsp

theorem State.copySource_of_error {c x a : Nat} (h : s.readElem (e.via t) t e.patA j = .error (c, x, a)) :
    s.copySource t e j = .error (c, a, e.patA.index j) := by
  unfold State.copySource
  dsimp only
  rw [if_neg hsp, h]

variable (hold : e.old = [])
include hold

/-- Outside the host and outside an overlap a source element is what stands in memory. -/
theorem State.copySource_of_ok {v : Nat × Bool × Nat} (h : s.readElem (e.via t) t e.patA j = .ok v) : s.copySource t e j = .ok (v.1, v.2.1, s) := by
  unfold State.copySource
  dsimp only
  rw [if_neg hsp, h, hold]
  rfl

end

section
variable {s u : State} {v : Via} {t k x : Nat} {psn : Bool} {p : Pat}

theorem State.copyWrite_of_error {c y a : Nat} (h : s.writeElem v t p k x psn = .error (c, y, a)) :
    s.copyWrite v t k x psn [p] = .error (c, a, p.index k) := by
  unfold State.copyWrite
  rw [h]

theorem State.copyWrite_of_hostError (h : s.writeElem v t p k x psn = .ok u) (hsp : p.space = 4) (hf : Config.hostFails s.free = true) :
    ∃ y, s.copyWrite v t k x psn [p] = .error y ∧ y.1 = 0x08 := by
  unfold State.copyWrite
  rw [h]
  dsimp only
  rw [if_pos (by simp [hsp, hf])]
  exact ⟨_, rfl, rfl⟩

theorem State.copyWrite_of_writesAll {l : List Pat} (hl : ∀ p ∈ l, p.space ≠ 4) :
    ∀ {s : State}, s.WritesAll v t k x psn l u → s.copyWrite v t k x psn l = .ok u := by
  induction l with
  | nil => exact fun h => congrArg Except.ok h.symm
  | cons p l ih =>
    intro s h
    obtain ⟨w, hw, h⟩ := h
    have hp := hl p List.mem_cons_self
    unfold State.copyWrite
    rw [hw]
    dsimp only
    rw [if_neg (by simp [hp]), if_neg hp]
    exact ih (fun p hp => hl p (List.mem_cons_of_mem _ hp)) h

end

section
variable {s : State} {t j : Nat} {e : QEntry}

theorem QEntry.targets_of_single (h : e.grouped = false) : e.targets = [e.patB] := if_neg (by simp [h])

/-- A source element that moves or converts. -/
theorem State.copyElem_of_source {r : Nat × Bool × State} (hk : e.kind ≠ .rcopy) (hd : copyDiv e.patA e.patB = 1) (h : s.copySource t e j = .ok r) :
    s.copyElem t e j = (r.2.2.copyWrite (e.via t) t j (convertBits e.patA e.patB e.rm e.sat r.1) r.2.1 e.targets).map fun s' => (s', r.2.1) := by
  unfold State.copyElem
  rw [if_neg hk, if_neg (by rw [hd]; decide), h]

/-- A source element that fails ends there, inside a block too. -/
theorem State.copyElem_of_error {x : CopyFault} (h : s.copySource t e j = .error x) (hd : copyDiv e.patA e.patB = 1 ∨ j % 32 ≠ 31) :
    s.copyElem t e j = .error x := by
  unfold State.copyElem
  rw [h]
  by_cases hk : e.kind = .rcopy
  · rw [if_pos hk]
  · rw [if_neg hk]
    by_cases hb : copyDiv e.patA e.patB = 32
    · rw [if_pos hb, if_pos (hd.resolve_left (by rw [hb]; decide))]
      rfl
    · rw [if_neg hb]

/-- Within a block of an MX format the source elements before the last are only read. -/
theorem State.copyElem_in_block {r : Nat × Bool × State} (hk : e.kind ≠ .rcopy) (hd : copyDiv e.patA e.patB = 32) (hj : j % 32 ≠ 31)
    (h : s.copySource t e j = .ok r) : s.copyElem t e j = .ok (s, r.2.1) := by
  unfold State.copyElem
  rw [if_neg hk, if_pos hd, if_pos hj, h]
  rfl

/-- The values of consecutive source elements. -/
theorem State.blockValues_of_ok {w : Nat → Nat × Bool × Nat} (n : Nat) :
    ∀ b i : Nat, (∀ k, i ≤ k → k < i + n → s.copySource t e (b + k) = .ok ((w k).1, (w k).2.1, s)) →
    s.blockValues t e n (b + i) = .ok ((List.range' i n).map (fun k => decodeNum e.patA.fmt (w k).1), (List.range' i n).any fun k => (w k).2.1, s) := by
  induction n with
  | zero => exact fun _ _ _ => rfl
  | succ n ih =>
    intro b i h
    unfold State.blockValues
    rw [h i le_rfl (by omega)]
    dsimp only
    rw [Nat.add_assoc, ih b (i + 1) fun k hk hn => h k (by omega) (by omega)]
    rfl

/-- The last element of a block writes it. -/
theorem State.copyElem_of_block {r : List Num × Bool × State} (hk : e.kind ≠ .rcopy) (hd : copyDiv e.patA e.patB = 32) (hj : j % 32 = 31)
    (h : s.blockValues t e 32 (j - 31) = .ok r) : s.copyElem t e j
      = (r.2.2.copyWrite (e.via t) t (j / 32) (encodeMx e.patB.fmt (Rm.ofCode e.rm) e.sat r.1).1 r.2.1 e.targets).map fun s' => (s', r.2.1) := by
  unfold State.copyElem
  rw [if_neg hk, if_pos hd, if_neg (by simp [hj]), h]

/-- Elements combine with one destination. -/
theorem State.copyElem_of_reduce {r : Nat × Bool × State} (hk : e.kind = .rcopy) (h : s.copySource t e j = .ok r) :
    s.copyElem t e j = r.2.2.copyReduce t e j r.1 r.2.1 e.targets := by
  unfold State.copyElem
  rw [if_pos hk, h]

theorem State.copyReduce_of_poison {k v : Nat} {psn : Bool} {r : Nat × Bool × Nat} {p : Pat} (h : s.readElem (e.via t) t p k = .ok r)
    (hp : psn = true ∨ r.2.1 = true) : s.copyReduce t e k v psn [p] = .ok (s, true) := by
  unfold State.copyReduce
  rw [h]
  dsimp only
  rw [if_pos (by simpa using hp)]
  rfl

theorem State.copyReduce_of_clean {k v : Nat} {r : Nat × Bool × Nat} {p : Pat} {u : State} (h : s.readElem (e.via t) t p k = .ok r) (hp : r.2.1 = false)
    (hw : s.writeElem (e.via t) t p k (reduceBits e.port p.fmt r.1 v) false = .ok u) : s.copyReduce t e k v false [p] = .ok (u, false) := by
  unfold State.copyReduce
  rw [h]
  dsimp only
  rw [if_neg (by simp [hp]), hw]
  rfl

end

section
variable {s u : State} {t j : Nat} {e : QEntry} (hsp : e.patA.space ≠ 4) (hold : e.old = []) (hk : e.kind ≠ .rcopy) (hl : ∀ p ∈ e.targets, p.space ≠ 4)
include hsp hold hk hl

theorem State.copyElem_of_writesAll {v : Nat × Bool × Nat} (hd : copyDiv e.patA e.patB = 1) (h : s.readElem (e.via t) t e.patA j = .ok v)
    (hw : s.WritesAll (e.via t) t j (convertBits e.patA e.patB e.rm e.sat v.1) v.2.1 e.targets u) : s.copyElem t e j = .ok (u, v.2.1) := by
  rw [State.copyElem_of_source hk hd (State.copySource_of_ok hsp hold h), State.copyWrite_of_writesAll hl hw]
  rfl

theorem State.copyElem_of_blockWritten {w : Nat → Nat × Bool × Nat} (hd : copyDiv e.patA e.patB = 32)
    (h : ∀ k, k < 32 → s.readElem (e.via t) t e.patA (32 * j + k) = .ok (w k))
    (hw : s.WritesAll (e.via t) t j (encodeMx e.patB.fmt (Rm.ofCode e.rm) e.sat ((List.range 32).map fun k => decodeNum e.patA.fmt (w k).1)).1
      ((List.range 32).any fun k => (w k).2.1) e.targets u) : s.copyElem t e (32 * j + 31) = .ok (u, (List.range 32).any fun k => (w k).2.1) := by
  have hvals := State.blockValues_of_ok (s := s) (t := t) (e := e) (w := w) 32 (32 * j) 0 fun k _ hk => State.copySource_of_ok hsp hold (h k (by omega))
  rw [← List.range_eq_range', show 32 * j + 0 = 32 * j + 31 - 31 by omega] at hvals
  rw [State.copyElem_of_block hk hd (by omega) hvals, show (32 * j + 31) / 32 = j by omega]
  dsimp only
  rw [State.copyWrite_of_writesAll hl hw]
  rfl

end

/-! What a run of elements leaves alone. -/

/-- Bytes and poison apart the tiles are the same, and the partitions are. -/
structure State.BytesStep (s u : State) : Prop where
  tile : ∀ k, (s.tile k).BytesOnly (u.tile k)
  parts : u.parts = s.parts

theorem State.BytesStep.refl (s : State) : s.BytesStep s := ⟨fun _ => .refl _, rfl⟩

theorem State.BytesStep.trans {s u v : State} (h : s.BytesStep u) (k : u.BytesStep v) : s.BytesStep v :=
  ⟨fun j => (h.tile j).trans (k.tile j), k.parts.trans h.parts⟩

theorem State.bytesStep_free (s : State) (n : Nat) : s.BytesStep { s with free := n } := ⟨fun _ => .refl _, rfl⟩

theorem State.bytesStep_writeHomeList (s : State) (h : Home) (l : List Byte) : s.BytesStep (s.writeHomeList h l) :=
  ⟨s.bytesOnly_writeHomeList h l, by cases h <;> rfl⟩

theorem State.bytesStep_poisonAt (s : State) (h : Home) (n : Nat) : s.BytesStep (s.poisonAt h n) := ⟨s.bytesOnly_poisonAt h n, by cases h <;> rfl⟩

theorem State.bytesStep_writeSegs (l : List (Home × Nat)) : ∀ (s : State) (b : List Byte), s.BytesStep (s.writeSegs l b) := by
  induction l with
  | nil => exact fun s _ => .refl s
  | cons x l ih => exact fun s b => (s.bytesStep_writeHomeList x.1 _).trans (ih _ _)

theorem State.bytesStep_poisonSegs (s : State) (l : List (Home × Nat)) : s.BytesStep (s.poisonSegs l) :=
  List.foldlRecOn (motive := fun u : State => s.BytesStep u) _ _ (.refl s) fun u hu x _ => hu.trans (u.bytesStep_poisonAt x.1 x.2)

theorem State.bytesStep_writeElem {s u : State} {v : Via} {t : Nat} {p : Pat} {j x : Nat} {psn : Bool}
    (h : s.writeElem v t p j x psn = .ok u) : s.BytesStep u := by
  obtain ⟨y, -, rfl⟩ := Except.map_eq_ok h
  unfold State.putElem
  dsimp only
  split
  · exact (State.bytesStep_writeSegs _ s _).trans (State.bytesStep_poisonSegs _ _)
  · exact State.bytesStep_writeSegs _ s _

theorem State.bytesStep_copySource {s : State} {t : Nat} {e : QEntry} {j : Nat} {r : Nat × Bool × State}
    (h : s.copySource t e j = .ok r) : s.BytesStep r.2.2 := by
  unfold State.copySource at h
  dsimp only at h
  split at h
  case isTrue =>
    split at h
    · cases h
    · split at h
      · cases h
      · split at h
        · cases h
        · cases h
          exact s.bytesStep_free _
  case isFalse =>
    split at h
    · cases h
    · split at h
      · cases h
        exact s.bytesStep_free _
      · cases h
        exact .refl s

theorem State.bytesStep_copyWrite {u : State} {v : Via} {t k x : Nat} {psn : Bool} (l : List Pat) :
    ∀ s : State, s.copyWrite v t k x psn l = .ok u → s.BytesStep u := by
  induction l with
  | nil =>
    intro s h
    cases h
    exact .refl _
  | cons p l ih =>
    intro s h
    unfold State.copyWrite at h
    split at h
    · cases h
    · rename_i w hw
      have hw := State.bytesStep_writeElem hw
      split at h
      · cases h
      · split at h
        · exact (hw.trans (w.bytesStep_free _)).trans (ih _ h)
        · exact hw.trans (ih _ h)

theorem State.bytesStep_copyReduce {t : Nat} {e : QEntry} {k v : Nat} (l : List Pat) :
    ∀ (s : State) (psn : Bool) (r : State × Bool), s.copyReduce t e k v psn l = .ok r → s.BytesStep r.1 := by
  induction l with
  | nil =>
    intro s psn r h
    cases h
    exact .refl s
  | cons p l ih =>
    intro s psn r h
    unfold State.copyReduce at h
    split at h
    · cases h
    · split at h
      · obtain ⟨y, hy, rfl⟩ := Except.map_eq_ok h
        exact ih s psn y hy
      · split at h
        · cases h
        · exact (State.bytesStep_writeElem ‹_›).trans (ih _ _ _ h)

theorem State.bytesStep_blockValues {t : Nat} {e : QEntry} (n : Nat) :
    ∀ (s : State) (j : Nat) (r : List Num × Bool × State), s.blockValues t e n j = .ok r → s.BytesStep r.2.2 := by
  induction n with
  | zero =>
    intro s j r h
    cases h
    exact .refl s
  | succ n ih =>
    intro s j r h
    unfold State.blockValues at h
    split at h
    · cases h
    · rename_i x hx
      split at h
      · cases h
      · rename_i y hy
        cases h
        exact (State.bytesStep_copySource hx).trans (ih _ _ y hy)

theorem State.bytesStep_copyElem {s : State} {t : Nat} {e : QEntry} {j : Nat} {r : State × Bool} (h : s.copyElem t e j = .ok r) : s.BytesStep r.1 := by
  unfold State.copyElem at h
  split at h
  case isTrue =>
    split at h
    · cases h
    · exact (State.bytesStep_copySource ‹_›).trans (State.bytesStep_copyReduce _ _ _ _ h)
  case isFalse =>
    split at h
    case isTrue =>
      split at h
      · obtain ⟨x, -, rfl⟩ := Except.map_eq_ok h
        exact .refl s
      · split at h
        · cases h
        · obtain ⟨x, hx, rfl⟩ := Except.map_eq_ok h
          exact (State.bytesStep_blockValues _ _ _ _ ‹_›).trans (State.bytesStep_copyWrite _ _ hx)
    case isFalse =>
      split at h
      · cases h
      · obtain ⟨x, hx, rfl⟩ := Except.map_eq_ok h
        exact (State.bytesStep_copySource ‹_›).trans (State.bytesStep_copyWrite _ _ hx)

theorem State.bytesStep_copyRun {t : Nat} (n : Nat) : ∀ (s : State) (e : QEntry), s.BytesStep (s.copyRun t e n).1 := by
  induction n with
  | zero => exact fun _ _ => .refl _
  | succ n ih =>
    intro s e
    unfold State.copyRun
    split
    · exact .refl s
    · exact (State.bytesStep_copyElem ‹_›).trans (ih _ _)

/-! The edge's part of a beat. -/

theorem State.EdgeStep.noteElem {s u : State} (h : s.EdgeStep u) (v : Via) (t : Nat) (p : Pat) (k : Nat) (rd wr : Bool) :
    s.EdgeStep (u.noteElem v t p k rd wr) := by
  unfold State.noteElem
  refine .ite h ?_
  split
  · exact .ite (h.edgeAt ..) h
  · exact List.foldlRecOn (motive := fun x : State × Nat => s.EdgeStep x.1) _ _ h fun x hx y _ => hx.edgeTouch ..

theorem State.EdgeStep.meterBeat {s u : State} (h : s.EdgeStep u) (v : Via) (t : Nat) (p : Pat) (i j : Nat) (wr : Bool) :
    s.EdgeStep (u.meterBeat v t p i j wr) := by
  have hn : s.EdgeStep (u.noteElems v t p i j (!wr) wr) :=
    List.foldlRecOn (motive := fun x : State => s.EdgeStep x) _ _ h fun x hx k _ => hx.noteElem ..
  unfold State.meterBeat
  refine .ite (hn.meter ..) ?_
  split
  · exact hn
  · split
    · exact .ite (hn.meter ..) hn
    · exact hn

theorem State.EdgeStep.meterCopy {s u : State} (h : s.EdgeStep u) (t : Nat) (e : QEntry) (i j : Nat) : s.EdgeStep (u.meterCopy t e i j) := by
  unfold State.meterCopy
  refine .ite h ?_
  refine List.foldlRecOn (motive := fun x : State => s.EdgeStep x) _ _ (h.meterBeat ..) fun x hx p _ => ?_
  exact State.EdgeStep.meterBeat (.ite (hx.meterBeat ..) hx) ..

theorem State.SameMemory.ite {s x y : State} {c : Prop} [Decidable c] (hx : s.SameMemory x) (hy : s.SameMemory y) : s.SameMemory (if c then x else y) := by
  split
  · exact hx
  · exact hy

theorem State.sameMemory_fillCache (s : State) (die p va : Nat) (rd wr : Bool) : s.SameMemory (s.fillCache die p va rd wr) := by
  refine .ite (.refl s) ?_
  split
  · exact .refl s
  · refine .modDie s die _ ?_
    exact fun _ => rfl

theorem State.sameMemory_denied (s : State) (die p cause va : Nat) : s.SameMemory (s.denied die p cause va) :=
  .ite (s.sameMemory_fillCache _ _ _ _ _) (.refl s)

/-- The walks of a probe fill a cache. -/
theorem State.fillProbe_kept (s : State) (t : Nat) (e : QEntry) : s.SameMemory (s.fillProbe t e) ∧ (s.fillProbe t e).tiles = s.tiles := by
  refine List.foldlRecOn (motive := fun u : State => s.SameMemory u ∧ u.tiles = s.tiles) _ _ ⟨.refl s, rfl⟩ fun u hu y _ => ?_
  split
  · exact hu
  · split
    · exact hu
    · refine List.foldlRecOn (motive := fun u : State => s.SameMemory u ∧ u.tiles = s.tiles) _ _ hu fun w hw a _ => ?_
      exact ⟨hw.1.trans (w.sameMemory_fillCache _ _ _ _ _), ((State.EdgeStep.refl w).fillCache ..).tiles.trans hw.2⟩

theorem State.EdgeStep.readHome {s u : State} (h : s.EdgeStep u) (hj : s.Jobless) {g : Home} (hg : ∀ p a, g ≠ .host p a) (n : Nat) :
    u.readHome g n = s.readHome g n := by
  cases g with
  | host p a => exact absurd rfl (hg p a)
  | dev pa => exact congrArg (Store.read · pa n) (h.dev hj).1
  | tile k a => simp only [State.readHome, State.homeStore, h.tile]
  | acc k a => simp only [State.readHome, State.homeStore, h.tile]
  | staging d a => exact congrArg (Store.read · a n) (show (u.die d).staging = (s.die d).staging by rw [h.die])
  | lost pa => rfl

/-- Work that is charged changes counts. -/
theorem State.work_kept (s : State) (t cls n : Nat) (exempt : Bool) : s.SameMemory (s.work t cls n exempt)
    ∧ ∀ k q, ((s.work t cls n exempt).tile k).queue q = (s.tile k).queue q := by
  have hc (w : Nat) (f : List Nat → List Nat) : let u := if w = 0 then s else s.modTile t fun tl => { tl with charges := f tl.charges }
      s.SameMemory u ∧ ∀ k q, (u.tile k).queue q = (s.tile k).queue q := by
    dsimp only
    split
    · exact ⟨.refl s, fun _ _ => rfl⟩
    · refine ⟨.modTile s t _ (fun _ => rfl) fun _ => rfl, fun k q => ?_⟩
      by_cases hk : k = t
      · subst hk
        rw [State.tile_modTile]
        rfl
      · rw [State.tile_modTile_ne s hk]
  unfold State.work
  dsimp only
  obtain ⟨hm, hq⟩ := hc (if exempt then 0 else s.weight (s.partId t) cls * n) fun l => match l with
    | c :: l => (c + (if exempt then 0 else s.weight (s.partId t) cls * n)) :: l
    | [] => [if exempt then 0 else s.weight (s.partId t) cls * n]
  split
  · exact ⟨hm, hq⟩
  · exact ⟨hm.trans (.modPart _ _ _), hq⟩

/-! The steps. -/

/-- The elements of the next beat. -/
def State.beatRun (s : State) (t : Nat) (e : QEntry) : State × QEntry :=
  s.copyRun t e (beatLen (some e.patA) (some e.patB) (if e.kind = .rcopy then 1 else copyDiv e.patA e.patB) e.total e.total e.pos)

/-- What a beat leaves beside its elements. -/
def State.beatNoted (s : State) (t : Nat) (e : QEntry) (r : State × QEntry) : State :=
  let w := (r.1.meterCopy t e e.pos r.2.pos).work t 5 1 (s.ctx t e.ctx).trap
  let w := if r.2.flt && r.2.fcode == 0x08 then { w with free := w.free + 1 } else w
  if r.2.flt then w.denied (dieOf t) (w.partId t) r.2.fcode r.2.faddr else w

theorem State.beatNoted_kept (s : State) (t : Nat) (e : QEntry) (r : State × QEntry) : let m := r.1.meterCopy t e e.pos r.2.pos
    m.SameMemory (s.beatNoted t e r) ∧ ∀ k q, ((s.beatNoted t e r).tile k).queue q = (m.tile k).queue q := by
  obtain ⟨hm, hq⟩ := (r.1.meterCopy t e e.pos r.2.pos).work_kept t 5 1 (s.ctx t e.ctx).trap
  unfold State.beatNoted
  dsimp only
  generalize (r.1.meterCopy t e e.pos r.2.pos).work t 5 1 (s.ctx t e.ctx).trap = w at hm hq ⊢
  generalize hx : (if r.2.flt && r.2.fcode == 0x08 then { w with free := w.free + 1 } else w) = x
  have hwx : w.SameMemory x ∧ x.tiles = w.tiles := by
    rw [← hx]
    split
    · exact ⟨.of_fields rfl rfl (fun _ => rfl) rfl, rfl⟩
    · exact ⟨.refl w, rfl⟩
  have hxq (k q : Nat) : (x.tile k).queue q = (w.tile k).queue q := by rw [State.tile, hwx.2, State.tile]
  split
  · refine ⟨(hm.trans hwx.1).trans (x.sameMemory_denied _ _ _ _), fun k q => ?_⟩
    rw [(x.edgeStep_denied _ _ _ _).tile]
    exact (hxq k q).trans (hq k q)
  · exact ⟨hm.trans hwx.1, fun k q => (hxq k q).trans (hq k q)⟩

theorem State.queue_beatNoted (s : State) (t : Nat) (e : QEntry) (k q : Nat) : ((s.beatNoted t e (s.beatRun t e)).tile k).queue q = (s.tile k).queue q := by
  rw [(s.beatNoted_kept t e _).2, ((State.EdgeStep.refl _).meterCopy ..).tile]
  exact ((State.bytesStep_copyRun _ s e).tile k).queue q

theorem State.readHome_beatNoted {s : State} (hj : s.Jobless) (t : Nat) (e : QEntry) {g : Home} (hg : ∀ p a, g ≠ .host p a) :
    (s.beatNoted t e (s.beatRun t e)).readHome g 1 = (s.beatRun t e).1.readHome g 1 := by
  have hjr : (s.beatRun t e).1.Jobless := fun x hx => hj x ((State.bytesStep_copyRun _ s e).parts ▸ hx)
  exact ((s.beatNoted_kept t e _).1 g).trans (((State.EdgeStep.refl _).meterCopy ..).readHome hjr hg 1)

theorem Tile.head?_modEntry {tl : Tile} {q : Nat} {e : QEntry} {l : List QEntry} (h : (tl.queue q).entries = e :: l) (f : QEntry → QEntry) :
    ((tl.modEntry q e.id f).queue q).entries.head? = some (f e) := by
  rw [Tile.entries_modEntry, h, List.map_cons, if_pos (by simp)]
  rfl

section
variable {s : State} {t q : Nat} {e : QEntry} {l : List QEntry} (hg : (s.tile t).gate = .open_) (he : ((s.tile t).queue q).entries = e :: l)
  (hk : e.kind.isCopy = true)
include hg he hk

theorem exec_copyStart_of_ready (hs : e.st = .queued) (hr : s.entryReady t e = true) :
    exec (.copyStart t q) s = .next (if e.skipped then s.modTile t fun tl => tl.modEntry q e.id QEntry.skip
      else if (decide (2 ≤ (s.tile t).busyEngines.length) || decide (32 < (s.tile t).score.length + e.ranges.length) || (s.tile t).copyHeld e) = true then s
      else s.startCopy t q e) := by
  show execCopyStart t q s = _
  unfold execCopyStart
  dsimp only
  rw [he, List.head?_cons]
  dsimp only
  rw [if_neg (by simp [hk, hs, hr, Tile.open_, hg])]
  split
  · rfl
  · split <;> rfl

omit hg hk in
theorem exec_copyBeat_of_held (hh : (s.tile t).copyHeld e = true) : exec (.copyBeat t q) s = .next s := by
  show execCopyBeat t q s = _
  unfold execCopyBeat
  dsimp only
  rw [he, List.head?_cons]
  exact if_pos (by simp [hh])

variable (hs : e.st = .started) (hh : (s.tile t).copyHeld e = false)
include hs hh

theorem exec_copyBeat_of_probe (hp : e.toProbe = true) : exec (.copyBeat t q) s = .next ((s.fillProbe t e).modTile t
    fun tl => tl.modEntry q e.id fun _ => (s.probe t e).elim { e with probed := true, held := s.probeLeaves t e } e.faulted) := by
  show execCopyBeat t q s = _
  unfold execCopyBeat
  dsimp only
  rw [he, List.head?_cons]
  dsimp only
  rw [if_neg (by simp [hk, hs, hh, Tile.open_, hg]), if_pos hp]
  cases s.probe t e <;> rfl

theorem exec_copyBeat_of_run (hp : e.toProbe = false) : exec (.copyBeat t q) s
    = .next ((s.beatNoted t e (s.beatRun t e)).modTile t fun tl => tl.modEntry q e.id fun _ => (s.beatRun t e).2) := by
  show execCopyBeat t q s = _
  unfold execCopyBeat
  dsimp only
  rw [he, List.head?_cons]
  dsimp only
  rw [if_neg (by simp [hk, hs, hh, Tile.open_, hg]), if_neg (by simp [hp])]
  rfl

end

/-- A copy on an engine, with the source elements that its destination overlaps. -/
def QEntry.onEngine (e : QEntry) (k : Nat) (old : List Nat) : QEntry := { e with st := .started, began := true, engine := some k, old := old }

/-- A copy that starts takes an engine and its scoreboard entries. -/
theorem State.startCopy_eq (s : State) (t q : Nat) (e : QEntry) : ∃ k m, s.startCopy t q e = s.modTile t fun tl =>
    ({ tl with engines := m, score := tl.score ++ e.scores }).modEntry q e.id fun x => x.onEngine k (s.snapshot t e) := by
  refine ⟨if (mfind 0 (s.tile t).busyEngines).isNone then 0 else 1,
    mput (s.tile t).busyEngines (if (mfind 0 (s.tile t).busyEngines).isNone then 0 else 1) (q, e.id), ?_⟩
  unfold State.startCopy
  exact State.modTile_congr rfl

/-- Settles O43: a copy's steps find the head of the queue as it was, since its elements change bytes only and the edge's part nothing of a tile; an
element is the model's equations for its source and its destinations. -/
theorem copiesStartAndMove : Obligations.CopiesStartAndMove := by
  unfold Obligations.CopiesStartAndMove
  intro s t q e l hg he hk
  refine ⟨fun hs hr => ⟨fun hskip hbusy hscore hheld => ?_, fun hskip => ?_⟩,
    fun hs => ⟨?_, fun hh hp => ?_, fun hh hp => ?_⟩, ⟨rfl, fun n => ⟨fun r h => ?_, fun x h => ?_⟩⟩,
    fun hsp hold => ?_, fun f o a ho ha => ⟨rfl, fun n op hop hf => reduceBits_of_wide hf ho ha hop⟩,
    fun v p j n a hsp hp hw hle => ⟨?_, fun y => ⟨?_, fun hn => ?_⟩⟩⟩
  · have hexec := exec_copyStart_of_ready hg he hk hs hr
    rw [if_neg (by simp [hskip]), if_neg (by simp [hheld]; omega)] at hexec
    obtain ⟨k, m, hu⟩ := s.startCopy_eq t q e
    rw [hu] at hexec
    refine ⟨_, e.onEngine k (s.snapshot t e), hexec, ?_, rfl, rfl, rfl, ?_, .modTile s t _ (fun _ => rfl) fun _ => rfl⟩
    · rw [State.tile_modTile]
      exact Tile.head?_modEntry (tl := { s.tile t with engines := m, score := (s.tile t).score ++ e.scores }) he _
    · rw [State.tile_modTile]
      rfl
  · have hexec := exec_copyStart_of_ready hg he hk hs hr
    rw [if_pos hskip] at hexec
    refine ⟨_, e.skip, hexec, ?_, rfl, rfl, s.sameMemory_modEntry _ _ _ _⟩
    rw [State.tile_modTile]
    exact Tile.head?_modEntry he _
  · exact exec_copyBeat_of_held he
  · have hfill := s.fillProbe_kept t e
    refine ⟨_, exec_copyBeat_of_probe hg he hk hs hh hp, hfill.1.trans (State.sameMemory_modEntry _ _ _ _ _), ?_⟩
    rw [State.tile_modTile, Tile.head?_modEntry (by rw [State.tile, hfill.2]; exact he)]
    cases s.probe t e <;> rfl
  · refine ⟨_, exec_copyBeat_of_run hg he hk hs hh hp, ?_, fun hj g hhost => ?_⟩
    · rw [State.tile_modTile, Tile.head?_modEntry (by rw [State.queue_beatNoted]; exact he)]
      rfl
    · rw [State.readHome_modTile _ t _ rfl rfl]
      exact State.readHome_beatNoted hj t e hhost
  · rw [State.copyRun, h]
  · rw [State.copyRun, h]
    rfl
  · refine ⟨fun j c x a h hd => ?_, fun j v h hkr hd => ⟨fun u hkc hput => ⟨fun hb => ?_, fun hb hf => ?_⟩,
      fun c y a hkc hput => ?_, fun u hkm hb hput => ?_⟩,
      fun hd hkc hb => ⟨fun j v h hj => ?_, fun j w u h hput => ?_⟩, fun j v r hkr hinv h hr => ⟨fun hp => ?_, fun u hv hr' hput => ?_⟩⟩
    · exact State.copyElem_of_error (State.copySource_of_error hsp h) hd
    · have hone : e.targets = [e.patB] := QEntry.targets_of_single (by simp [QEntry.grouped, hkc])
      exact State.copyElem_of_writesAll hsp hold hkr (by simpa [hone] using hb) hd h (hone ▸ ⟨u, hput, rfl⟩)
    · obtain ⟨y, hy, h8⟩ := State.copyWrite_of_hostError hput hb hf
      refine ⟨y, ?_, h8⟩
      rw [State.copyElem_of_source hkr hd (State.copySource_of_ok hsp hold h), QEntry.targets_of_single (by simp [QEntry.grouped, hkc])]
      exact congrArg (Except.map _) hy
    · rw [State.copyElem_of_source hkr hd (State.copySource_of_ok hsp hold h), QEntry.targets_of_single (by simp [QEntry.grouped, hkc])]
      exact congrArg (Except.map _) (State.copyWrite_of_error hput)
    · have hgroup : e.targets = e.members.map fun m => { e.patB with base := e.patB.base + m * 2 ^ 22 } := if_pos (by simp [QEntry.grouped, hkm])
      have hspace : ∀ p ∈ e.targets, p.space ≠ 4 := by
        rw [hgroup]
        intro p hp
        obtain ⟨m, -, rfl⟩ := List.mem_map.1 hp
        simp [hb]
      exact State.copyElem_of_writesAll hsp hold hkr hspace hd h (hgroup ▸ hput)
    · exact State.copyElem_in_block (by simp [hkc]) hd hj (State.copySource_of_ok hsp hold h)
    · have hone : e.targets = [e.patB] := QEntry.targets_of_single (by simp [QEntry.grouped, hkc])
      exact State.copyElem_of_blockWritten hsp hold (by simp [hkc]) (by simpa [hone] using hb) hd h (hone ▸ ⟨u, hput, rfl⟩)
    · rw [State.copyElem_of_reduce hkr (State.copySource_of_ok hsp hold h), QEntry.targets_of_single (by simp [QEntry.grouped, hkr, hinv])]
      exact State.copyReduce_of_poison hr hp
    · rw [State.copyElem_of_reduce hkr (State.copySource_of_ok hsp hold h), QEntry.targets_of_single (by simp [QEntry.grouped, hkr, hinv]), hv]
      exact State.copyReduce_of_clean hr hr' hput
  · exact State.readElem_store hsp hp hle hw
  · obtain ⟨u, hu, hx⟩ := State.writeElem_store (s := s) (v := v) (t := t) hsp hp hle hw y false
    exact ⟨u, hx, hu⟩
  · obtain ⟨u, -, hx⟩ := State.writeElem_store (s := s) (v := v) (t := t) hsp hp hle hw y true
    rw [if_pos rfl] at hx
    exact ⟨_, hx, u.poisonHome_poisonAt _ hn⟩

end Sys2Proof.Machine
end

section
/-! What an instruction may change at issue (R13, R28, R133): its own tile but for the bytes of the store, translation caches, launches and the lists
that the hardware works off later. Each operation of the model that instructions are built from stays within that. -/

namespace Sys2Proof.Machine

/-- Of memory, partitions, links and Clasp nothing differs, of the dies only caches, of the tiles only the issuing one, and its store stays. -/
structure State.Within (s u : State) : Prop where
  only : u = { s with tiles := u.tiles, dies := u.dies, launches := u.launches, nextLid := u.nextLid, pubs := u.pubs, arrivals := u.arrivals,
                      releases := u.releases, cancels := u.cancels, nextCancel := u.nextCancel }
  die : ∀ d, u.die d = { s.die d with cache := (u.die d).cache }
  tile : ∀ k, k ≠ s.cur.1 → u.tile k = s.tile k
  store : (u.tile s.cur.1).store = (s.tile s.cur.1).store

theorem Tile.store_count (tl : Tile) (hit : Nat → Bool) (f : Reg → Reg) : (tl.count hit f).store = tl.store := by
  unfold Tile.count
  split <;> rfl

theorem State.Within.refl (s : State) : s.Within s := ⟨rfl, fun _ => rfl, fun _ _ => rfl, rfl⟩

section
variable {s u : State} (h : s.Within u)
include h

theorem State.Within.cur : u.cur = s.cur := by rw [h.only]
theorem State.Within.links : u.links = s.links := by rw [h.only]
theorem State.Within.dev : u.dev = s.dev := by rw [h.only]
theorem State.Within.host : u.host = s.host := by rw [h.only]
theorem State.Within.clasp : u.clasp = s.clasp := by rw [h.only]

/-! Launches and the lists of what is on its way. -/

theorem State.Within.rest {v : State}
    (hv : v = { u with launches := v.launches, nextLid := v.nextLid, pubs := v.pubs, arrivals := v.arrivals, releases := v.releases,
                       cancels := v.cancels, nextCancel := v.nextCancel }) : s.Within v where
  only := by rw [hv, h.only]
  die d := by rw [hv]; exact h.die d
  tile k hk := by rw [hv]; exact h.tile k hk
  store := by rw [hv]; exact h.store

theorem State.Within.modLaunch (l : Nat) (f : Launch → Launch) : s.Within (u.modLaunch l f) := h.rest rfl

/-! The issuing tile and its contexts. -/

theorem State.Within.modTile {f : Tile → Tile} (hf : ∀ tl, (f tl).store = tl.store) : s.Within (u.modTile s.cur.1 f) where
  only := by rw [h.only]; rfl
  die := h.die
  tile k hk := (u.tile_modTile_ne hk f).trans (h.tile k hk)
  store := by rw [State.tile_modTile, hf, h.store]

theorem State.Within.modMyTile {f : Tile → Tile} (hf : ∀ tl, (f tl).store = tl.store) : s.Within (u.modMyTile f) := by
  rw [State.modMyTile, h.cur]
  exact h.modTile hf

theorem State.Within.modCtx (c : Nat) (f : Ctx → Ctx) : s.Within (u.modCtx s.cur.1 c f) := h.modTile fun tl => tl.store_modCtx c f
theorem State.Within.modMe (f : Ctx → Ctx) : s.Within (u.modMe f) := h.modMyTile fun tl => tl.store_modCtx u.cur.2 f
theorem State.Within.setX (d : Nat) (v : Word) : s.Within (u.setX d v) := h.modMe _
theorem State.Within.setF (d : Nat) (v : Word) : s.Within (u.setF d v) := h.modMe _
theorem State.Within.setB (d : Nat) (v : Bool) : s.Within (u.setB d v) := h.modMe _
theorem State.Within.setP (d : Nat) (v : BitVec 256) : s.Within (u.setP d v) := h.modMe _
theorem State.Within.setPc (v : Word) : s.Within (u.setPc v) := h.modMe _
theorem State.Within.setFlags (e : Exc) (lat : Nat) : s.Within (u.setFlags e lat) := h.modMe _
theorem State.Within.advance : s.Within u.advance := h.setPc _
theorem State.Within.advanceBy (n : Nat) : s.Within (u.advanceBy n) := h.setPc _
theorem State.Within.push (a : Access) : s.Within (u.push a) :=
  (h.modMyTile (f := fun tl => { tl with nextAcc := tl.nextAcc + 1 }) fun _ => rfl).modMe _
theorem State.Within.enqueueRemote (dst : Nat) (rel : Bool) (l : List Flit) (acc : Nat) : s.Within (u.enqueueRemote dst rel l acc) :=
  h.modMyTile fun _ => rfl

theorem State.Within.ite {v : State} {c : Prop} [Decidable c] (hv : s.Within v) : s.Within (if c then u else v) := by
  split
  · exact h
  · exact hv

/-! The translation cache. -/

theorem State.Within.modDie (d : Nat) {f : Die → Die} (hf : ∀ x : Die, f x = { x with cache := (f x).cache }) : s.Within (u.modDie d f) where
  only := by rw [h.only]; rfl
  die k := by
    by_cases hk : k = d
    · subst hk
      rw [State.die_modDie, hf, h.die]
    · rw [State.die_modDie_ne _ hk, h.die]
  tile := h.tile
  store := h.store

theorem State.Within.fillCache (d p va : Nat) (rd wr : Bool) : s.Within (u.fillCache d p va rd wr) := by
  unfold State.fillCache
  refine .ite h ?_
  split
  · exact h
  · exact h.modDie d fun _ => rfl

theorem State.Within.missed (cause va : Nat) (rd wr : Bool) : s.Within (u.missed cause va rd wr) := .ite (h.fillCache ..) h

/-! Ending a task. -/

theorem State.Within.leftBlocks {v : State} {c : Nat} (k : u.LeftBlocks v s.cur.1 c) : s.Within v where
  only := by rw [k.state, h.only]
  die d := by rw [k.state]; exact h.die d
  tile j hj := (k.others j hj).trans (h.tile j hj)
  store := by
    have hb := k.tile
    unfold Tile.BlocksOnly at hb
    rw [hb]
    exact h.store

theorem State.Within.discardCont (c : Nat) : s.Within (u.discardCont s.cur.1 c) := h.leftBlocks (u.leftBlocks_discardCont _ c)

theorem State.Within.endTask (c : Nat) : s.Within (u.endTask s.cur.1 c) := (h.leftBlocks (u.leftBlocks_leaveBlocks _ c)).modCtx c _

theorem State.Within.completePhase (l g : Nat) : s.Within (u.completePhase l g) := h.rest rfl

theorem State.Within.withdraw (k : Task) : s.Within (u.withdraw k) := by
  unfold State.withdraw
  generalize k.groups = l
  induction l generalizing u with
  | nil => exact h
  | cons g l ih =>
    refine ih ?_
    dsimp only
    split
    · exact h
    · split
      · exact ((h.modLaunch ..).completePhase ..).modLaunch ..
      · exact .ite ((h.modLaunch ..).completePhase ..) (h.modLaunch ..)

theorem State.Within.countKill (c scope : Nat) : s.Within (u.countKill s.cur.1 c scope) := by
  unfold State.countKill
  split
  · exact h.modTile fun tl => Tile.store_count tl _ _
  · split
    · exact h.rest rfl
    · exact h

theorem State.Within.killTask (c : Nat) : s.Within (u.killTask s.cur.1 c) := by
  unfold State.killTask
  split
  · exact h
  · exact (((h.leftBlocks (u.leftBlocks_leaveBlocks _ c)).withdraw _).countKill ..).modCtx ..

/-! Traps. -/

theorem State.Within.doubleTrap (c cause pc : Nat) : s.Within (u.doubleTrap s.cur.1 c cause pc) := by
  unfold State.doubleTrap
  split
  · exact h.endTask c
  · exact (h.modLaunch ..).endTask c

theorem State.Within.trapNow (cause addr aux : Nat) : s.Within (u.trapNow cause addr aux) := by
  rw [State.trapNow, h.cur]
  exact .ite (h.doubleTrap ..) (h.modCtx ..)

theorem State.Within.trapOn (f : Trap3) : s.Within (u.trapOn f) := (h.missed ..).trapNow ..

theorem State.Within.leaveTrap (target : Word) (drop : Bool) : s.Within (u.leaveTrap target drop) := by
  rw [State.leaveTrap, h.cur]
  exact (State.Within.ite (h.discardCont _) h).modMe _

end

/-- A kill that is due in trap mode takes the place of a waiting instruction. -/
theorem State.Within.waitPoint {s u : State} (h : s.Within u) : s.Within (s.waitPoint u) := .ite ((State.Within.refl s).killTask _) h

theorem State.Within.returnOr {s u : State} (h : s.Within u) : s.Within (s.returnOr u) :=
  .ite ((State.Within.refl s).trapNow ..) (.ite ((State.Within.refl s).killTask _) h)

end Sys2Proof.Machine
end

section
/-! Instructions that read no record of space 0 stay within what `State.Within` lets differ (R13, R28, R133, R302). -/

namespace Sys2Proof.Machine

/-- Whatever state an outcome goes on in. -/
structure State.Keeps (s : State) (o : Out) : Prop where
  within : ∀ t, o = .next t → s.Within t

theorem State.Keeps.next {s u : State} (h : s.Within u) : s.Keeps (.next u) := ⟨fun _ ht => Host.Outcome.next.inj ht ▸ h⟩

theorem State.Keeps.ite {s : State} {o p : Out} {c : Prop} [Decidable c] (h : s.Keeps o) (k : s.Keeps p) : s.Keeps (if c then o else p) := by
  split
  · exact h
  · exact k

section
variable (s : State)

theorem State.within_trapNow (cause addr aux : Nat) : s.Within (s.trapNow cause addr aux) := (Within.refl s).trapNow ..

theorem State.keeps_trapNow (cause addr aux : Nat) : s.Keeps (.next (s.trapNow cause addr aux)) := .next (s.within_trapNow ..)

theorem State.within_missed_trapNow (e c va addr aux : Nat) (rd wr : Bool) : s.Within ((s.missed e va rd wr).trapNow c addr aux) :=
  ((Within.refl s).missed ..).trapNow ..

/-! Memory and counters (R129 to R148). -/

theorem State.within_issue (a : Access) : s.Within (s.push a).advance := ((Within.refl s).push a).advance

theorem State.within_load (sp : Nat) (m : MemArgs) : s.Within (s.load sp m) := .ite (s.within_trapNow ..) (.ite (s.within_trapNow ..) (s.within_issue _))

theorem State.within_store (sp : Nat) (m : MemArgs) : s.Within (s.store sp m) := by
  refine .ite (s.within_trapNow ..) ?_
  split
  · exact s.within_missed_trapNow ..
  · exact s.within_issue _

theorem State.within_atomic (sp : Nat) (m : AmoArgs) : s.Within (s.atomic sp m) := by
  refine .ite (s.within_trapNow ..) (.ite (s.within_trapNow ..) (.ite (s.within_issue _) ?_))
  split
  · exact s.within_missed_trapNow ..
  · exact .ite (s.within_trapNow ..) (s.within_issue _)

theorem State.within_storeRemote (m : MemArgs) : s.Within (s.storeRemote m) := by
  refine .ite (s.within_trapNow ..) ?_
  split
  · exact s.within_trapNow ..
  · exact (((Within.refl s).push _).enqueueRemote ..).advance
  · exact s.within_trapNow ..

theorem State.within_atomicRemote (m : AmoArgs) : s.Within (s.atomicRemote m) := by
  refine .ite (s.within_trapNow ..) ?_
  split
  · exact s.within_trapNow ..
  · exact .ite (s.within_trapNow ..) (((Within.refl s).push _).enqueueRemote ..).advance
  · exact s.within_trapNow ..

theorem State.within_cadd (loc : Bool) (d a n : Nat) : s.Within (s.cadd loc d a n) := by
  refine .ite (s.within_trapNow ..) ?_
  split
  · exact s.within_missed_trapNow ..
  · exact .ite (s.within_trapNow ..) (s.within_issue _)

theorem State.keeps_cread (loc : Bool) (d a : Nat) : s.Keeps (execCread loc d a s) :=
  .ite (s.keeps_trapNow ..) (.ite (s.keeps_trapNow ..) (.next (s.within_issue _)))

theorem State.keeps_patld (sp : PatSpace) (d a : Nat) : s.Keeps (execPatld sp d a s) :=
  .ite (s.keeps_trapNow ..) (.ite (s.keeps_trapNow ..) (.next (s.within_issue _)))

theorem State.keeps_fence (sc : Scope) (k : FenceKind) : s.Keeps (execFence sc k s) :=
  .next (((State.Within.ite ((Within.refl s).push _) (Within.refl s)).push _).modMe _).advance

/-- The look of a CWAIT at a record of the own tile has no part of the memory edge. -/
theorem State.keeps_cwait_local (d a b : Nat) : s.Keeps (execCwait true d a b s) := by
  refine .next (State.Within.waitPoint (.ite (s.within_trapNow ..) ?_))
  split
  · exact s.within_trapNow ..
  · exact ((Within.refl s).setX ..).advance
  · exact (Within.refl s).modMe _

/-! Barriers (R154). -/

theorem State.within_arrive (d g : Nat) (w : Bool) : s.Within (s.arrive d g w) := by
  unfold State.arrive
  split
  · exact s.within_trapNow ..
  · exact ((Within.refl s).modMe _).rest rfl

theorem State.keeps_wait (d a g : Nat) : s.Keeps (execWait d a g s) := by
  refine .next (State.Within.waitPoint ?_)
  split
  · exact s.within_trapNow ..
  · dsimp only
    split
    · exact ((Within.refl s).setX ..).advance
    · exact (Within.refl s).modMe _

theorem State.keeps_gquery (d g : Nat) : s.Keeps (execGquery d g s) := by
  unfold execGquery
  split
  · exact s.keeps_trapNow ..
  · exact .next (s.within_issue _)

/-! Queues (R222 to R247). -/

theorem State.within_enter_ (q : Nat) (e : QEntry) (n : Nat) : s.Within (s.enter_ q e n) := (Within.refl s).modMyTile fun _ => rfl

theorem State.within_finish (q qd : Nat) (e : QEntry) (t : Option Nat) : s.Within (s.finish q qd e t) := by
  unfold State.finish State.accept
  cases t with
  | none => exact ((Within.refl s).setX ..).advance
  | some t =>
    dsimp only
    split
    · rename_i r hr
      split at hr
      · cases hr
      · cases hr
        exact ((s.within_enter_ ..).setX ..).advance
    · exact ((Within.refl s).setX ..).advance

theorem State.within_stream (k : QKind) (q : QArgs) : s.Within (s.stream k q) := by
  unfold State.stream
  dsimp only
  split
  · exact (Within.refl s).trapOn _
  · exact s.within_finish ..

theorem State.within_copyCmd (k : QKind) (q : QArgs) : s.Within (s.copyCmd k q) := by
  unfold State.copyCmd
  dsimp only
  split
  · exact (Within.refl s).trapOn _
  · exact s.within_finish ..

theorem State.keeps_scond (q xt qd ctr csp : Nat) (inv : Bool) (skip : Nat) : s.Keeps (execScond q xt qd ctr csp inv skip s) := by
  unfold execScond
  dsimp only
  split
  · exact .next ((Within.refl s).trapOn _)
  · exact .next (s.within_finish ..)

theorem State.keeps_qwait (mask : Nat) : s.Keeps (execQwait mask s) := .next (.waitPoint (.ite (Within.refl s).advance ((Within.refl s).modMe _)))

theorem State.keeps_qstat (q xd sel : Nat) (clr : Bool) : s.Keeps (execQstat q xd sel clr s) :=
  have h := (Within.refl s).setX xd (BitVec.ofNat 64 ((s.myTile.queue q).word sel))
  .next (State.Within.ite (h.modMyTile fun tl => tl.store_modQueue q _) h).advance

/-! Blocks and the region (R169 to R195). -/

theorem State.Within.refreshPort {s u : State} (h : s.Within u) (k : Nat) : s.Within (u.refreshPort s.cur.1 k) := by
  unfold State.refreshPort
  dsimp only
  split
  · exact h
  · split
    · exact h
    · exact h.modTile fun _ => rfl

theorem State.Within.refreshOut {s u : State} (h : s.Within u) (k : Nat) : s.Within (u.refreshOut s.cur.1 k) := by
  unfold State.refreshOut
  split
  · exact h
  · exact h.modTile fun _ => rfl

theorem State.Within.foldl {s : State} {α : Type} {f : State → α → State} (hf : ∀ u x, s.Within u → s.Within (f u x)) (l : List α) :
    ∀ u, s.Within u → s.Within (l.foldl f u) := by
  induction l with
  | nil => exact fun _ h => h
  | cons x l ih => exact fun u h => ih _ (hf u x h)

theorem State.Within.refresh {s u : State} (h : s.Within u) (ins outs : List Nat) : s.Within (u.refresh s.cur.1 ins outs) :=
  .foldl (fun _ k h => h.refreshOut k) outs _ (.foldl (fun _ k h => h.refreshPort k) ins _ h)

theorem State.within_resumeBlock (cls : Nat) (b : BlockArgs) : s.Within (s.resumeBlock cls b) := by
  unfold State.resumeBlock
  dsimp only
  split
  · exact (((Within.refl s).modMe _).refresh ..).modMyTile fun _ => rfl
  · exact ((Within.refl s).modMe _).refresh ..

theorem State.within_issueBlock (cls : Nat) (b : BlockArgs) : s.Within (s.issueBlock cls b) := by
  unfold State.issueBlock
  split
  · exact s.within_trapNow ..
  · dsimp only
    split
    · exact s.within_trapNow ..
    · split
      · exact (Within.refl s).trapOn _
      · exact .ite ((Within.refl s).advanceBy _) (.waitPoint ((Within.refl s).modMe _))

theorem State.within_block (cls : Nat) (b : BlockArgs) : s.Within (s.block cls b) := .ite (s.within_resumeBlock ..) (s.within_issueBlock ..)

theorem State.keeps_cfgld (qmask folio : Nat) : s.Keeps (execCfgld qmask folio s) := by
  unfold execCfgld
  split
  · exact s.keeps_trapNow ..
  · exact .next (.advance (.modMyTile (.refl s) fun _ => rfl))

theorem State.keeps_cfgsw (qmask : Nat) : s.Keeps (execCfgsw qmask s) := by
  unfold execCfgsw
  dsimp only
  split
  · exact s.keeps_trapNow ..
  · exact .ite (s.keeps_trapNow ..) (.next (.advance (.modMyTile (.refl s) fun _ => rfl)))

theorem State.keeps_bdrain (qmask : Nat) : s.Keeps (execBdrain qmask s) := .next (.waitPoint (.ite (Within.refl s).advance ((Within.refl s).modMe _)))

theorem State.keeps_spine (qmask : Nat) (win : Option Nat) (acc : Nat) : s.Keeps (execSpine qmask win acc s) := .next ((Within.refl s).modMe _).advance

theorem State.keeps_accrd (qmask ep : Nat) (clr : Bool) (rm : Nat) (sat : Bool) : s.Keeps (execAccrd qmask ep clr rm sat s) := by
  unfold execAccrd
  split
  · exact s.keeps_trapNow ..
  · dsimp only
    split
    · exact s.keeps_trapNow ..
    · refine .next (((Within.refl s).modMe _).modMyTile fun tl => ?_).advance
      cases clr <;> rfl

theorem State.keeps_accclr (qmask : Nat) : s.Keeps (execAccclr qmask s) := .next (.advance (.modMyTile (.refl s) fun _ => rfl))

/-! Special registers (R127). -/

theorem State.within_keepOld : s.Within s.keepOld :=
  (Within.refl s).modMyTile fun tl => by
    split
    · rfl
    · rfl

theorem State.within_putSpecial (n : Nat) (v : Word) : s.Within (s.putSpecial n v) := by
  unfold State.putSpecial
  split
  case h_1 => exact s.within_keepOld.modMyTile fun _ => rfl
  case h_2 => exact (State.Within.ite ((Within.refl s).discardCont _) (Within.refl s)).modMe _
  case h_7 => exact s.within_keepOld.modMyTile fun _ => rfl
  case h_10 => exact .refl s
  all_goals exact (Within.refl s).modMe _

theorem State.keeps_wrs (n a : Nat) : s.Keeps (execWrs n a s) :=
  .ite (s.keeps_trapNow ..) (.ite (s.keeps_trapNow ..) (.next (s.within_putSpecial ..).advance))

/-! Tasks and scopes (R261 to R269). -/

theorem State.within_requeue : s.Within s.requeue := by
  unfold State.requeue
  dsimp only
  split
  · exact .refl s
  · exact ((Within.refl s).endTask _).modMyTile fun _ => rfl

theorem State.keeps_yield : s.Keeps (execYield s) := .next (.ite (s.within_trapNow ..) (.ite s.within_requeue (Within.refl s).advance))

theorem State.keeps_exit (loc : Bool) (a b : Nat) : s.Keeps (execExit loc a b s) := by
  refine .ite (.next ((Within.refl s).endTask _)) (.ite (s.keeps_trapNow ..) ?_)
  split
  · exact .next (s.within_missed_trapNow ..)
  · exact .ite (s.keeps_trapNow ..) (.next (((Within.refl s).push _).endTask _))

theorem State.within_scopeChild (d p c : Nat) : s.Within (s.scopeChild d p c) := .ite (s.within_trapNow ..) ((Within.refl s).setX ..).advance

theorem State.keeps_chkc : s.Keeps (execChkc s) := .next (.ite ((Within.refl s).killTask _) (Within.refl s).advance)

theorem State.Within.openCancel {s u : State} (h : s.Within u) (p sc n : Nat) (a : Option Nat) : s.Within (u.openCancel p sc n a) := by
  unfold State.openCancel
  rw [h.cur]
  exact State.Within.modTile (h.rest rfl) fun _ => rfl

theorem State.Within.doomSelf {s u : State} (h : s.Within u) (sc : Nat) : s.Within (u.doomSelf sc) := .ite (h.modMe _) h

theorem State.keeps_cancel (a b q : Nat) : s.Keeps (execCancel a b q s) := by
  refine .ite (s.keeps_trapNow ..) (.ite (s.keeps_trapNow ..) ?_)
  split
  · exact .next (s.within_missed_trapNow ..)
  · exact .ite (.next ((Within.refl s).setX ..).advance) (.next ((((Within.refl s).openCancel ..).doomSelf _).setX ..).advance)

theorem State.keeps_halt (code : Nat) : s.Keeps (execHalt code s) := .next ((((Within.refl s).endTask _).modLaunch ..).openCancel ..)

theorem State.keeps_tretN : s.Keeps (execTretN s) := by
  refine .next (State.Within.returnOr ?_)
  split
  · exact s.within_trapNow ..
  · exact (Within.refl s).leaveTrap ..

end

end Sys2Proof.Machine
end

section
/-! Every instruction at issue (R13, R28, R133): the memory edge may work on a record that it reads, and from there nothing but what `State.Within`
lets differ changes. -/

namespace Sys2Proof.Machine

/-! Instructions that read no record of space 0. -/

/-- A write of one register with its flags, and the next word. -/
theorem State.keeps_of_dest {i : Instr} {d : Nat} (s : State) (h : xDest i = some d ∨ fDest i = some d ∨ fxDest i = some d) : s.Keeps (exec i s) := by
  rcases h with h | h | h
  · obtain ⟨v, hv⟩ := exec_of_xDest s h
    rw [hv]
    exact .next ((Within.refl s).setX ..).advance
  · obtain ⟨v, e, lat, hv⟩ := exec_of_fDest s h
    rw [hv]
    exact .next (((Within.refl s).setF ..).setFlags ..).advance
  · obtain ⟨v, e, lat, hv⟩ := exec_of_fxDest s h
    rw [hv]
    exact .next (((Within.refl s).setX ..).setFlags ..).advance

theorem State.keeps_exec_of_no_dest {i : Instr} (s : State) (hi : i.isSequencer = true) (hr : readsRecord i = false) (hx : xDest i = none)
    (hf : fDest i = none) (hg : fxDest i = none) : s.Keeps (exec i s) := by
  have h := Within.refl s
  cases i with
  | fcvt c => cases hc : c.dstX <;> simp [fDest, fxDest, hc] at hf hg
  | bc => exact .next (.ite (h.setPc _) h.advance)
  | jmp | ret => exact .next (h.setPc _)
  | call | jmpx => exact .next ((h.setX ..).setPc _)
  | loop => exact .next (.ite ((h.setX ..).setPc _) (h.setX ..).advance)
  | pset | pand | por | pnot => exact .next (h.setB ..).advance
  | fmovf => exact .next (h.setF ..).advance
  | wrs => exact s.keeps_wrs ..
  | ldg | ldl | lda | ldh | lds => exact .next (s.within_load ..)
  | stg | stl | sta | sth | sts => exact .next (s.within_store ..)
  | amog | amol | amos => exact .next (s.within_atomic ..)
  | stx => exact .next (s.within_storeRemote _)
  | amox => exact .next (s.within_atomicRemote _)
  | cadd => exact .next (s.within_cadd ..)
  | cwait loc =>
    cases loc with
    | true => exact s.keeps_cwait_local ..
    | false => cases hr
  | cread => exact s.keeps_cread ..
  | fence => exact s.keeps_fence ..
  | arrive => exact .next (s.within_arrive ..)
  | arrwait => exact .next (.waitPoint (s.within_arrive ..))
  | wait => exact s.keeps_wait ..
  | gquery => exact s.keeps_gquery ..
  | patld => exact s.keeps_patld ..
  | patset => exact .next (h.setP ..).advance
  | streamIn | streamOut | streamRec | streamConst | streamDrop | streamInd => exact .next (s.within_stream ..)
  | copy | mcopy | rcopy => exact .next (s.within_copyCmd ..)
  | sbarRd | sbarWr | sbarAll | stitch => exact .next (s.within_finish ..)
  | scond => exact s.keeps_scond ..
  | qwait => exact s.keeps_qwait _
  | qstat => exact s.keeps_qstat ..
  | spawn | spawnn | launch => cases hr
  | cancel => exact s.keeps_cancel ..
  | yield => exact s.keeps_yield
  | exit => exact s.keeps_exit ..
  | scopeSet | scopeSplit => exact .next (.ite (s.within_trapNow ..) (s.within_scopeChild ..))
  | chkc => exact s.keeps_chkc
  | trap => exact s.keeps_trapNow ..
  | tret => exact .next (.returnOr (h.leaveTrap ..))
  | tretN => exact s.keeps_tretN
  | prio => exact .next (h.modMe _).advance
  | mtrd => exact .next (s.within_issue _)
  | halt => exact s.keeps_halt _
  | nop => exact .next h.advance
  | blockMWs | blockMOs | blockE | blockA | blockS | blockZ | blockG => exact .next (s.within_block ..)
  | cfgld => exact s.keeps_cfgld ..
  | cfgsw => exact s.keeps_cfgsw _
  | bdrain => exact s.keeps_bdrain _
  | spine => exact s.keeps_spine ..
  | accrd => exact s.keeps_accrd ..
  | accclr => exact s.keeps_accclr _
  | _ => simp [xDest, fDest, fxDest, Instr.isSequencer] at hi hx hf hg

theorem State.keeps_exec {i : Instr} (s : State) (hi : i.isSequencer = true) (hr : readsRecord i = false) : s.Keeps (exec i s) := by
  cases hx : xDest i with
  | some d => exact s.keeps_of_dest (.inl hx)
  | none =>
    cases hf : fDest i with
    | some d => exact s.keeps_of_dest (.inr (.inl hf))
    | none =>
      cases hg : fxDest i with
      | some d => exact s.keeps_of_dest (.inr (.inr hg))
      | none => exact s.keeps_exec_of_no_dest hi hr hx hf hg

/-! Instructions that read one. -/

/-- The memory edge works, and the instruction goes on from there. -/
structure State.Reads (s : State) (o : Out) : Prop where
  within : ∀ t, o = .next t → ∃ u, s.EdgeStep u ∧ u.Within t

theorem State.Reads.next {s u v : State} (h : s.EdgeStep u) (k : u.Within v) : s.Reads (.next v) := ⟨fun _ ht => ⟨u, h, Host.Outcome.next.inj ht ▸ k⟩⟩

theorem State.Keeps.reads {s : State} {o : Out} (h : s.Keeps o) : s.Reads o := ⟨fun t ht => ⟨s, .refl s, h.within t ht⟩⟩

theorem State.Reads.ite {s : State} {o p : Out} {c : Prop} [Decidable c] (h : s.Reads o) (k : s.Reads p) : s.Reads (if c then o else p) := by
  split
  · exact h
  · exact k

theorem State.Within.publishAll {s : State} (l : List Task) : ∀ {u v : State}, s.Within u → u.publishAll l = some v → s.Within v := by
  induction l with
  | nil =>
    intro u v h hv
    cases hv
    exact h
  | cons k l ih =>
    intro u v h hv
    rw [State.publishAll] at hv
    dsimp only at hv
    split at hv
    · cases hv
    · exact ih (h.rest rfl) hv

theorem State.reads_spawnAll (s : State) (xr xst xq n : Nat) (f : Nat → Nat) : s.Reads (.next (s.spawnAll xr xst xq n f)) := by
  refine .next (s.edgeStep_readRecords (s.nx xr) n 0) ?_
  unfold State.spawnAll
  dsimp only
  split
  · exact State.within_trapNow ..
  · refine .ite ((Within.refl _).setX ..).advance ?_
    split
    · exact ((Within.refl _).setX ..).advance
    · rename_i hv
      exact (((((Within.refl _).publishAll _ hv).modMe _).setX ..).setX ..).advance

theorem State.Within.enrol {s : State} {p die limit x2 : Nat} {d : Desc} {parent rack : Option Nat} {r : Nat × State}
    (h : s.enrol p die limit d x2 parent rack = some r) : s.Within r.2 := by
  unfold State.enrol at h
  dsimp only at h
  split at h
  · cases h
  · split at h
    · cases h
    · cases h
      exact (Within.refl s).rest rfl

theorem State.reads_launch (xd xq : Nat) (s : State) : s.Reads (execLaunch xd xq s) := by
  unfold execLaunch
  dsimp only
  refine .ite (s.keeps_trapNow ..).reads ?_
  split
  · exact (State.Keeps.next (s.within_missed_trapNow ..)).reads
  · have he := (State.EdgeStep.refl s).readRecordAt (dieOf s.cur.1) s.myPart (s.nx xd) 64
    refine .ite (.next he (State.within_trapNow ..)) ?_
    split
    · exact .next he (State.within_trapNow ..)
    · split
      · rename_i hr
        exact .next he ((State.Within.enrol hr).setX ..).advance
      · exact .next he ((Within.refl _).setX ..).advance

theorem State.reads_cwait (loc : Bool) (d a b : Nat) (s : State) : s.Reads (execCwait loc d a b s) := by
  unfold execCwait State.waitPoint
  dsimp only
  split
  · exact (State.Keeps.next ((Within.refl s).killTask _)).reads
  · split
    · exact (s.keeps_trapNow ..).reads
    · split
      · exact .next (s.edgeStep_lookEnds ..) (State.within_trapNow ..)
      · exact .next (s.edgeStep_lookEnds ..) ((Within.refl _).setX ..).advance
      · exact (State.Keeps.next ((Within.refl s).modMe _)).reads

theorem State.reads_exec {i : Instr} (s : State) (hi : i.isSequencer = true) : s.Reads (exec i s) := by
  cases hr : readsRecord i with
  | false => exact (s.keeps_exec hi hr).reads
  | true =>
    cases i with
    | spawn | spawnn => exact s.reads_spawnAll ..
    | launch => exact s.reads_launch ..
    | cwait => exact s.reads_cwait ..
    | _ => cases hr

/-! Where the bytes stand. -/

theorem State.Within.readHome {s u : State} (h : s.Within u) {g : Home} (hg : g.at 0 ≠ .acc s.cur.1 0) (n : Nat) : u.readHome g n = s.readHome g n := by
  have hs : u.homeStore g = s.homeStore g := by
    cases g with
    | dev a => simp only [State.homeStore, h.dev]
    | host p a => simp only [State.homeStore, h.host]
    | lost a => rfl
    | staging d a =>
      have hd : (u.die d).staging = (s.die d).staging := by rw [h.die]
      simp only [State.homeStore, hd]
    | tile k a =>
      by_cases hk : k = s.cur.1
      · simp only [State.homeStore, hk, h.store]
      · simp only [State.homeStore, h.tile k hk]
    | acc k a =>
      have hk : k ≠ s.cur.1 := fun e => hg (by rw [e]; rfl)
      simp only [State.homeStore, h.tile k hk]
  simp only [State.readHome, hs]

/-- The memory edge writes no tile and no staging byte. -/
theorem State.EdgeStep.readHome_onTile {s u : State} (h : s.EdgeStep u) {g : Home} (hg : g.isOnTile = true) (n : Nat) :
    u.readHome g n = s.readHome g n := by
  have hs : u.homeStore g = s.homeStore g := by
    cases g with
    | tile k a | acc k a => simp only [State.homeStore, h.tile k]
    | staging d a =>
      have hd : (u.die d).staging = (s.die d).staging := by rw [h.die]
      simp only [State.homeStore, hd]
    | dev | host | lost => cases hg
  simp only [State.readHome, hs]

/-- Settles O42: the memory edge may have worked on a record that the instruction reads, and from there the instruction stays within
`State.Within`. -/
theorem instructionsWriteNoMemoryAndNoOtherTile : Obligations.InstructionsWriteNoMemoryAndNoOtherTile := by
  unfold Obligations.InstructionsWriteNoMemoryAndNoOtherTile
  intro i s t hi ht
  obtain ⟨u, he, hw⟩ := (s.reads_exec hi).within t ht
  have hk : readsRecord i = false → s.Within t := fun hr => (s.keeps_exec hi hr).within t ht
  have hc : u.cur = s.cur := he.cur
  refine ⟨fun g hg ho => ?_, fun hr hj => ⟨fun a => ?_, fun hl p a => ?_⟩, fun k hn => ?_, hw.cur.trans hc, fun hr => ⟨(hk hr).links, (hk hr).die⟩⟩
  · cases hr : readsRecord i with
    | false => exact (hk hr).readHome hg 1
    | true => rw [hw.readHome (by rwa [hc]), he.readHome_onTile (ho hr)]
  · rw [hw.readHome (by simp [Home.at])]
    simp only [State.readHome, State.homeStore, (he.dev hj).1]
  · rw [hw.readHome (by simp [Home.at])]
    simp only [State.readHome, State.homeStore, he.host (hw.clasp ▸ hl)]
  · rw [hw.tile k (by rwa [hc]), he.tile]

end Sys2Proof.Machine
end

section
/-! Configurations of a region (R59, R162, R181, R190 to R192, R195): what CFGLD and CFGSW leave of the tile, BDRAIN's cases, and the fields of BSTAT's
words. -/

namespace Sys2Proof.Machine

/-! CFGLD and CFGSW (R162, R181, R190 to R192). -/

section
variable {s : State} {qmask folio : Nat}

theorem exec_cfgld_of_some {f : Folio} (h : mfind folio s.myLaunch.folios = some f) : exec (.cfgld qmask folio) s
    = .next ((s.modMyTile fun tl => tl.startLoad qmask folio f.loadCycles (some (s.cur.2, s.me.serial, s.pc.toNat))).advance) := by
  rw [exec_cfgld, execCfgld, h]

theorem exec_cfgld_of_none (hc : s.CanTrap) (h : mfind folio s.myLaunch.folios = none) :
    exec (.cfgld qmask folio) s = .next (s.entered 0x04 s.pc.toNat folio) := by
  rw [exec_cfgld, execCfgld, h, ← State.trapNow_of_canTrap _ _ _ hc]

theorem exec_cfgsw_of_some {f : Nat} (h : s.myTile.shadowOf qmask = some f)
    (hn : (s.myTile.sweeps.any fun w => w.qmask == qmask && w.at_ == (s.die (dieOf s.cur.1)).cycle) = false) : exec (.cfgsw qmask) s
      = .next ((s.modMyTile fun tl => tl.startSweep qmask f (s.die (dieOf s.cur.1)).cycle (s.folio s.myLid f).plen).advance) := by
  rw [exec_cfgsw, execCfgsw, h]
  exact if_neg (ne_true_of_eq_false hn)

theorem exec_cfgsw_of_none (hc : s.CanTrap) (h : s.myTile.shadowOf qmask = none) :
    exec (.cfgsw qmask) s = .next (s.entered 0x0E s.pc.toNat 6) := by
  rw [exec_cfgsw, execCfgsw, h, ← State.trapNow_of_canTrap _ _ _ hc]

end

theorem Tile.getLast?_loads_startLoad (tl : Tile) (qmask folio time : Nat) (by_ : Option (Nat × Nat × Nat)) :
    (tl.startLoad qmask folio time by_).loads.getLast? = some ⟨tl.nextId + 1, qmask, folio, by_, time, time⟩ := List.getLast?_concat ..

/-- No shadow that a started load leaves shares a quarter with it. -/
theorem Tile.masksMeet_of_mem_shadow_startLoad {tl : Tile} {qmask folio time : Nat} {by_ : Option (Nat × Nat × Nat)} {e : Nat × Nat}
    (h : e ∈ (tl.startLoad qmask folio time by_).shadow) : masksMeet e.1 qmask = false := by
  have hf : e ∈ tl.shadow.filter fun e => !masksMeet e.1 qmask := h
  simpa using (List.mem_filter.1 hf).2

/-! The state behind an instruction that changes its tile beside contexts and memories, and goes on. -/

section
variable {s : State} {g : Tile → Tile}

theorem State.loads_modMyTile_advance : (s.modMyTile g).advance.myTile.loads = (g s.myTile).loads := by
  rw [State.advance, State.setPc, State.loads_myTile_modMe, State.myTile_modMyTile]

theorem State.shadow_modMyTile_advance : (s.modMyTile g).advance.myTile.shadow = (g s.myTile).shadow := by
  rw [State.advance, State.setPc, State.shadow_myTile_modMe, State.myTile_modMyTile]

theorem State.sweeps_modMyTile_advance : (s.modMyTile g).advance.myTile.sweeps = (g s.myTile).sweeps := by
  rw [State.advance, State.setPc, State.sweeps_myTile_modMe, State.myTile_modMyTile]

theorem State.sameMemory_modMyTile_advance (hs : ∀ tl, (g tl).store = tl.store) (ha : ∀ tl, (g tl).acc = tl.acc) :
    s.SameMemory (s.modMyTile g).advance := (State.SameMemory.modTile s _ g hs ha).trans (.advance _)

theorem State.pc_modMyTile_advance (hc : ∀ tl, (g tl).ctxs = tl.ctxs) : (s.modMyTile g).advance.pc = s.pc + 8 := by
  rw [State.pc_advance, State.pc, State.me_modMyTile, Tile.ctx, hc]
  rfl

end

/-! BDRAIN (R190, R267). -/

section
variable {s : State} {qmask : Nat}

theorem exec_bdrain_of_drained (hs : s.Spared) (h : s.myTile.drained qmask = true) : exec (.bdrain qmask) s = .next s.advance := by
  rw [exec_bdrain, execBdrain, State.waitPoint_of_spared hs, if_pos h]

theorem exec_bdrain_of_busy (hs : s.Spared) (h : s.myTile.drained qmask = false) :
    exec (.bdrain qmask) s = .next (s.modMe fun c => { c with wait := some (.bdrain qmask) }) := by
  rw [exec_bdrain, execBdrain, State.waitPoint_of_spared hs, if_neg (ne_true_of_eq_false h)]

theorem exec_bdrain_of_condemned (ht : s.me.trap = true) (hc : s.condemned s.cur.1 s.cur.2 = true) :
    exec (.bdrain qmask) s = .next (s.killTask s.cur.1 s.cur.2) := by
  rw [exec_bdrain, execBdrain, State.waitPoint_of_condemned ht hc]

end

/-! The words of BSTAT (R195). -/

/-- The fields of a word of BSTAT's first form. -/
theorem status_fields {beats shadow live : Nat} (cont cinv stray ls hasShadow hasLive busy : Bool) (hb : beats < 2 ^ 32) (hs : shadow < 2 ^ 12)
    (hl : live < 2 ^ 12) :
    let w := beats * 2 ^ 32 + shadow * 2 ^ 20 + live * 2 ^ 8 + b2n cont * 2 ^ 6 + b2n cinv * 2 ^ 5 + b2n stray * 2 ^ 4 + b2n ls * 2 ^ 3
      + b2n hasShadow * 2 ^ 2 + b2n hasLive * 2 + b2n busy
    bits w 63 32 = beats ∧ bits w 31 20 = shadow ∧ bits w 19 8 = live ∧ bit w 7 = false ∧ bit w 6 = cont ∧ bit w 5 = cinv ∧ bit w 4 = stray
      ∧ bit w 3 = ls ∧ bit w 2 = hasShadow ∧ bit w 1 = hasLive ∧ bit w 0 = busy ∧ w < 2 ^ 64 := by
  intro w
  have h6 := b2n_le cont
  have h5 := b2n_le cinv
  have h4 := b2n_le stray
  have h3 := b2n_le ls
  have h2 := b2n_le hasShadow
  have h1 := b2n_le hasLive
  have h0 := b2n_le busy
  refine ⟨?_, ?_, ?_, bit_of_b2n (b := false) ?_, bit_of_b2n ?_, bit_of_b2n ?_, bit_of_b2n ?_, bit_of_b2n ?_, bit_of_b2n ?_, bit_of_b2n ?_,
    bit_of_b2n ?_, ?_⟩
  all_goals
    simp only [w, bits, show b2n false = 0 from rfl]
    omega

theorem counters_fields {a b c : Nat} (ha : a < 2 ^ 20) (hb : b < 2 ^ 20) (hc : c < 2 ^ 20) :
    let v := c * 2 ^ 40 + b * 2 ^ 20 + a
    bits v 19 0 = a ∧ bits v 39 20 = b ∧ bits v 59 40 = c ∧ v < 2 ^ 60 := by
  simp only [bits]
  omega

/-- The status of no instance gives way to any other. -/
theorem BStat.later_reset (b : BStat) : BStat.later BStat.reset b = b := by
  unfold BStat.later
  split
  · rfl
  · exact if_neg (Nat.not_lt_zero _)

section
variable {c : Ctx} {qmask : Nat}

/-- Where the context has used no quarter of the mask, BSTAT reads as at reset. -/
theorem Ctx.statusOf_of_nil (h : (c.bstat.filter fun e => bit qmask e.1) = []) : c.statusOf qmask = BStat.reset := by
  rw [Ctx.statusOf, h]
  rfl

theorem Ctx.statusOf_of_singleton {q : Nat} {x : BStat} (h : (c.bstat.filter fun e => bit qmask e.1) = [(q, x)]) : c.statusOf qmask = x := by
  rw [Ctx.statusOf, h]
  exact x.later_reset

/-- Of the statuses of two instances, the later one's is meant. -/
theorem Ctx.statusOf_of_pair {q r : Nat} {x y : BStat} (h : (c.bstat.filter fun e => bit qmask e.1) = [(q, x), (r, y)]) (hno : x.no < y.no) :
    c.statusOf qmask = y := by
  rw [Ctx.statusOf, h]
  show (BStat.reset.later x).later y = y
  rw [x.later_reset, BStat.later, if_pos hno]

end

/-- Settles O33: CFGLD and CFGSW change the tile's configurations alone; BDRAIN by its three cases; BSTAT's words by their fields. -/
theorem regionConfigurationInstructions : Obligations.RegionConfigurationInstructions := by
  unfold Obligations.RegionConfigurationInstructions
  intro s qmask folio d sel
  refine ⟨fun f hf => ?_, exec_cfgld_of_none, fun f hf hn => ?_, exec_cfgsw_of_none, exec_bdrain_of_drained, exec_bdrain_of_condemned,
    exec_bdrain_of_busy, rfl, fun hs hl => ?_, fun h0 h1 h2 _ => ?_, rfl, fun h => ?_, fun q x h => Ctx.statusOf_of_singleton h,
    fun q r x y h hno => Ctx.statusOf_of_pair h hno⟩
  · exact ⟨_, _, exec_cfgld_of_some hf, (congrArg _ State.loads_modMyTile_advance).trans (Tile.getLast?_loads_startLoad ..), rfl, rfl, rfl, rfl,
      fun e he => Tile.masksMeet_of_mem_shadow_startLoad (State.shadow_modMyTile_advance ▸ he),
      State.sameMemory_modMyTile_advance (fun _ => rfl) fun _ => rfl, State.pc_modMyTile_advance fun _ => rfl⟩
  · exact ⟨_, _, exec_cfgsw_of_some hf hn, State.sweeps_modMyTile_advance, rfl, rfl, rfl,
      State.sameMemory_modMyTile_advance (fun _ => rfl) fun _ => rfl, State.pc_modMyTile_advance fun _ => rfl⟩
  · exact status_fields _ _ _ _ _ _ _ (by omega) hs hl
  · obtain ⟨hi0, hi1, hi2, hlt⟩ := counters_fields h0 h1 h2
    exact ⟨hi0, hi1, hi2, hlt, rfl⟩
  · rw [Ctx.statusOf_of_nil h]
    decide

end Sys2Proof.Machine
end

section
/-! Words by their format (R73): which fields fit, what the decoder's checks and tables accept (R75, R76), and decoding as decoding of the fields. -/

namespace Sys2Proof

/-! Fields of a word. -/

theorem bits_lt (v hi lo : Nat) : bits v hi lo < 2 ^ (hi + 1 - lo) := Nat.mod_lt _ (Nat.two_pow_pos _)

theorem bits_of_lt {v hi : Nat} (h : v < 2 ^ (hi + 1)) : bits v hi 0 = v := by
  rw [bits, Nat.pow_zero, Nat.div_one, Nat.sub_zero, Nat.mod_eq_of_lt h]

theorem bits_eq_zero_of_lt {v lo : Nat} (h : v < 2 ^ lo) (hi : Nat) : bits v hi lo = 0 := by
  rw [bits, Nat.div_eq_of_lt h, Nat.zero_mod]

/-- A flag that a word holds as a number. -/
theorem b2n_beq_one {n : Nat} (h : n < 2) : b2n (n == 1) = n := by
  obtain rfl | rfl : n = 0 ∨ n = 1 := by omega
  · rfl
  · rfl

@[simp] theorem b2n_true : b2n true = 1 := rfl
@[simp] theorem b2n_false : b2n false = 0 := rfl
@[simp] theorem b2n_bit {v k : Nat} : b2n (bit v k) = v / 2 ^ k % 2 := by
  obtain h | h := Nat.mod_two_eq_zero_or_one (v / 2 ^ k) <;> simp [b2n, bit, h]
@[simp] theorem b2n_le_one (b : Bool) : b2n b ≤ 1 := b2n_le b
@[simp] theorem b2n_beq_one_eq (b : Bool) : (b2n b == 1) = b := by cases b <;> rfl
@[simp] theorem b2n_eq_zero_iff {b : Bool} : b2n b = 0 ↔ b = false := by cases b <;> decide
@[simp] theorem b2n_mod_two (b : Bool) : b2n b % 2 = b2n b := by cases b <;> rfl

/-- A field of a word put back above the bits below it. -/
theorem bits_concat (v : Nat) {hi lo : Nat} (h : lo ≤ hi + 1) : bits v hi lo * 2 ^ lo + v % 2 ^ lo = v % 2 ^ (hi + 1) := by
  rw [bits, Nat.mul_comm, Nat.add_comm]
  conv_rhs => rw [show hi + 1 = lo + (hi + 1 - lo) by omega, Nat.pow_add, Nat.mod_mul]

theorem b2n_bit_eq_bits (v k : Nat) : b2n (bit v k) = bits v k k := by
  rw [b2n_bit, bits, Nat.add_sub_cancel_left, Nat.pow_one]

/-! What the decoder's checks and tables accept (R75, R76). -/

@[simp] theorem sealWord_eq_ok_iff {u r : Bool} {i j : Instr} : sealWord u r i = .ok j ↔ u = false ∧ r = false ∧ j = i := by
  cases u <;> cases r <;> simp [sealWord, eq_comm]

@[simp] theorem xOk_eq_true_iff {r : Nat} : xOk r = true ↔ r < 32 := decide_eq_true_iff
@[simp] theorem fOk_eq_true_iff {r : Nat} : fOk r = true ↔ r < 16 := decide_eq_true_iff
@[simp] theorem bOk_eq_true_iff {r : Nat} : bOk r = true ↔ r < 8 := decide_eq_true_iff
@[simp] theorem pOk_eq_true_iff {r : Nat} : pOk r = true ↔ r < 16 := decide_eq_true_iff
@[simp] theorem immOk_eq_true_iff {v : Nat} : immOk v = true ↔ v < 2 ^ 32 := decide_eq_true_iff

@[simp] theorem IntTy.ofCode_eq_some_iff {n : Nat} {t : IntTy} : IntTy.ofCode n = some t ↔ n = t.code :=
  ⟨fun h => by unfold IntTy.ofCode at h; split at h <;> cases h <;> rfl, fun h => h ▸ t.ofCode_code⟩
@[simp] theorem ExtW.ofCode_eq_some_iff {n : Nat} {t : ExtW} : ExtW.ofCode n = some t ↔ n = t.code :=
  ⟨fun h => by unfold ExtW.ofCode at h; split at h <;> cases h <;> rfl, fun h => h ▸ t.ofCode_code⟩
@[simp] theorem RmCode.ofCode_eq_some_iff {n : Nat} {t : RmCode} : RmCode.ofCode n = some t ↔ n = t.code :=
  ⟨fun h => by unfold RmCode.ofCode at h; split at h <;> cases h <;> rfl, fun h => h ▸ t.ofCode_code⟩
@[simp] theorem FRel.ofCode_eq_some_iff {n : Nat} {t : FRel} : FRel.ofCode n = some t ↔ n = t.code :=
  ⟨fun h => by unfold FRel.ofCode at h; split at h <;> cases h <;> rfl, fun h => h ▸ t.ofCode_code⟩
@[simp] theorem Conv.ofCode_eq_some_iff {n : Nat} {t : Conv} : Conv.ofCode n = some t ↔ n = t.code :=
  ⟨fun h => by unfold Conv.ofCode at h; split at h <;> cases h <;> rfl, fun h => h ▸ t.ofCode_code⟩
@[simp] theorem Rel.ofCode_eq_some_iff {n : Nat} {t : Rel} : Rel.ofCode n = some t ↔ n = t.code :=
  ⟨fun h => by unfold Rel.ofCode at h; split at h <;> cases h <;> rfl, fun h => h ▸ t.ofCode_code⟩
@[simp] theorem Wop.ofCode_eq_some_iff {n : Nat} {t : Wop} : Wop.ofCode n = some t ↔ n = t.code :=
  ⟨fun h => by unfold Wop.ofCode at h; split at h <;> cases h <;> rfl, fun h => h ▸ t.ofCode_code⟩
@[simp] theorem Ord.ofCode_eq_some_iff {n : Nat} {t : Ord} : Ord.ofCode n = some t ↔ n = t.code :=
  ⟨fun h => by unfold Ord.ofCode at h; split at h <;> cases h <;> rfl, fun h => h ▸ t.ofCode_code⟩
@[simp] theorem AmoOp.ofCode_eq_some_iff {n : Nat} {t : AmoOp} : AmoOp.ofCode n = some t ↔ n = t.code :=
  ⟨fun h => by unfold AmoOp.ofCode at h; split at h <;> cases h <;> rfl, fun h => h ▸ t.ofCode_code⟩
@[simp] theorem Scope.ofCode_eq_some_iff {n : Nat} {t : Scope} : Scope.ofCode n = some t ↔ n = t.code :=
  ⟨fun h => by unfold Scope.ofCode at h; split at h <;> cases h <;> rfl, fun h => h ▸ t.ofCode_code⟩
@[simp] theorem FenceKind.ofCode_eq_some_iff {n : Nat} {t : FenceKind} : FenceKind.ofCode n = some t ↔ n = t.code :=
  ⟨fun h => by unfold FenceKind.ofCode at h; split at h <;> cases h <;> rfl, fun h => h ▸ t.ofCode_code⟩
@[simp] theorem PatSpace.ofCode_eq_some_iff {n : Nat} {t : PatSpace} : PatSpace.ofCode n = some t ↔ n = t.code :=
  ⟨fun h => by unfold PatSpace.ofCode at h; split at h <;> cases h <;> rfl, fun h => h ▸ t.ofCode_code⟩
@[simp] theorem PatField.ofCode_eq_some_iff {n : Nat} {t : PatField} : PatField.ofCode n = some t ↔ n = t.code :=
  ⟨fun h => by unfold PatField.ofCode at h; split at h <;> cases h <;> rfl, fun h => h ▸ t.ofCode_code⟩

/-- The codes of a float word's format field and of its mode or relation (R75). -/
theorem FFmt.code_ofCode {n : Nat} (h : n < 2) : (FFmt.ofCode n).code = n := by
  obtain rfl | rfl : n = 0 ∨ n = 1 := by omega
  · rfl
  · rfl

theorem FFmt.ofCode_div {f : FFmt} {k : Nat} (h : k < 8) : FFmt.ofCode ((f.code * 8 + k) / 8) = f := by
  rw [show (f.code * 8 + k) / 8 = f.code by omega, FFmt.ofCode_code]

theorem lt_of_shImmOk {t : IntTy} {n : Nat} (h : shImmOk t n = true) : n < 64 := by
  cases t <;> simp [shImmOk] at h <;> omega

theorem lt_of_memDataOk {w : Wop} {d : Nat} (h : memDataOk w d = true) : d < 32 := by
  cases w <;> simp [memDataOk] at h <;> omega

theorem qOk_eq_true_iff {q : QArgs} : qOk q = true ↔ q.queue < 16 ∧ q.pa < 16 ∧ q.pb < 16 ∧ q.xs < 32 ∧ q.xt < 32 ∧ q.qd < 32 ∧ q.ctr < 32
    ∧ q.csp < 3 ∧ (q.ctr ≠ 0 ∨ q.csp = 0) ∧ q.rm < 4 ∧ q.aux < 256 ∧ q.port < 16 := by
  simp [qOk, ctrOk, and_assoc]

theorem xferResv_eq_false_iff {f : FmtQ} {q : QArgs} : xferResv f q = false ↔ (q.ctr ≠ 0 ∨ q.csp = 0) ∧ bits f.flags 14 13 = 0 := by
  simp [xferResv, imp_iff_not_or]

/-- A quarter mask fills four bits (R85). -/
theorem bits_qmask {q : Nat} (h : qmaskOk q = true) (hi : Nat) : q < 16 ∧ bits q 3 0 = q ∧ bits q hi 4 = 0 := by
  have hq := Laws.WordsFit.qmask_lt h
  exact ⟨hq, bits_of_lt hq, bits_eq_zero_of_lt (lo := 4) hq hi⟩

/-! Formats. -/

/-- The fields of a word of format T fit (R73). -/
def FmtT.Fits (f : FmtT) : Prop := f.fn < 16 ∧ f.d < 32 ∧ f.a < 32 ∧ f.b < 32 ∧ f.c < 32 ∧ f.ty < 16 ∧ f.low < 2 ^ 28
def FmtI.Fits (f : FmtI) : Prop := f.fn < 16 ∧ f.d < 32 ∧ f.a < 32 ∧ f.mod < 1024 ∧ f.imm < 2 ^ 32
def FmtM.Fits (f : FmtM) : Prop := f.wop < 16 ∧ f.data < 32 ∧ f.base < 32 ∧ f.index < 32 ∧ f.scale < 4 ∧ f.ord < 8 ∧ f.off < 2 ^ 32
def FmtB.Fits (f : FmtB) : Prop := f.cond < 16 ∧ f.a < 32 ∧ f.b < 32 ∧ f.pred < 8 ∧ f.zero < 128 ∧ f.woff < 2 ^ 32
def FmtQ.Fits (f : FmtQ) : Prop :=
  f.fn < 16 ∧ f.queue < 16 ∧ f.pa < 16 ∧ f.pb < 16 ∧ f.xs < 32 ∧ f.xt < 32 ∧ f.qd < 32 ∧ f.flags < 2 ^ 25

theorem splitT_fits (w : Nat) : (splitT w).Fits := by simp only [FmtT.Fits, splitT, bits]; omega
theorem splitI_fits (w : Nat) : (splitI w).Fits := by simp only [FmtI.Fits, splitI, bits]; omega
theorem splitM_fits (w : Nat) : (splitM w).Fits := by simp only [FmtM.Fits, splitM, bits]; omega
theorem splitB_fits (w : Nat) : (splitB w).Fits := by simp only [FmtB.Fits, splitB, bits]; omega
theorem splitQ_fits (w : Nat) : (splitQ w).Fits := by simp only [FmtQ.Fits, splitQ, bits]; omega

/-- The decoder of a format's words: the majors of R78 that have this format. -/
def decodeT (m : Nat) (f : FmtT) : Dec :=
  match m with
  | 0x10 => decInt 0x10 f | 0x11 => decInt 0x11 f | 0x12 => decBit f | 0x30 => decFloat f | 0x43 => decJump f | 0x48 => decPred f
  | 0x60 => decCounter f | 0x61 => decFence f | 0x91 => decSys f | _ => .error .unassignedMajor
def decodeI (m : Nat) (f : FmtI) : Dec :=
  match m with
  | 0x18 => decImm f | 0x4C => decSpecial f | 0x62 => decBarrier f | 0xA0 => decMisc f | 0xB8 => decRegion f
  | _ => .error .unassignedMajor
def decodeM (m : Nat) (f : FmtM) : Dec := if 0x50 ≤ m ∧ m ≤ 0x5E then decMem m f else .error .unassignedMajor
def decodeB (m : Nat) (f : FmtB) : Dec :=
  match m with
  | 0x40 => decBranch 0x40 f | 0x41 => decBranch 0x41 f | 0x42 => decBranch 0x42 f | 0x44 => decBranch 0x44 f
  | _ => .error .unassignedMajor
def decodeQ (m : Nat) (f : FmtQ) : Dec :=
  match m with
  | 0x70 => decPattern f | 0x71 => decStream f | 0x72 => decGate f | 0x80 => decCopy f | 0x81 => decStitch f | 0x90 => decTask f
  | _ => .error .unassignedMajor

/-- A word decodes to an instruction by the format of its major, and by no other. -/
theorem decodeWord_eq_ok_iff {w : Nat} {i : Instr} : decodeWord w = .ok i ↔ decodeT (majorOf w) (splitT w) = .ok i
    ∨ decodeI (majorOf w) (splitI w) = .ok i ∨ decodeM (majorOf w) (splitM w) = .ok i ∨ decodeB (majorOf w) (splitB w) = .ok i
    ∨ decodeQ (majorOf w) (splitQ w) = .ok i := by
  unfold decodeWord
  generalize majorOf w = m
  split
  case h_40 =>
    have hM : ¬ (0x50 ≤ m ∧ m ≤ 0x5E) := by simp only [imp_false] at *; omega
    simp [decodeT, decodeI, decodeM, decodeB, decodeQ, *]
  all_goals simp [decodeT, decodeI, decodeM, decodeB, decodeQ]

/-! Words and the words behind them (R71). -/

section
variable {w : Nat} {exts : List Nat}

theorem decode_cons_block (hm : isBlockMajor (majorOf w) = true) : decode (w :: exts) = decodeBlock w (exts.take (extCount w)) := if_pos hm

theorem decode_cons_eq_ok_iff {i : Instr} (hm : isBlockMajor (majorOf w) = false) : decode (w :: exts) = .ok i ↔ decodeWord w = .ok i := by
  unfold decode
  cases hd : decodeWord w <;> simp [hm, hd]

theorem decode_cons_error {r : Reject} (hm : isBlockMajor (majorOf w) = false) (h : decodeWord w = .error r) :
    decode (w :: exts) = .error ⟨r, 0⟩ := by
  unfold decode
  simp [hm, h]

end

theorem isBlockMajor_of_decodeWord_eq_ok {w : Nat} {i : Instr} (h : decodeWord w = .ok i) : isBlockMajor (majorOf w) = false := by
  unfold decodeWord at h
  split at h
  all_goals simp_all [isBlockMajor]

/-- The instruction is well-formed and these are its words. -/
@[simp] def Instr.EncodesTo (i : Instr) (ws : List Nat) : Prop := i.isSequencer = true ∧ i.wf = true ∧ encode i = ws

end Sys2Proof
end

section
/-! Block instructions (R85 to R89): the extension words that the decoder accepts are those of loops and bindings, one word each, and header, weave
word and extension words decode and encode each other. -/

namespace Sys2Proof

/-! Extension words (R86 to R89). -/

/-- No word behind the weave word is undefined or sets a zero field. -/
def ExtsClean (lvl : Nat) (seen : List Bind) (inBinds : Bool) (ws : List Nat) : Prop := ∀ p ∈ extFlags lvl seen inBinds ws, p = (false, false)

section
variable {lvl w : Nat} {seen : List Bind} {inBinds : Bool} {ws : List Nat}

theorem extsClean_nil : ExtsClean lvl seen inBinds [] := by
  simp [ExtsClean, extFlags]

theorem extsClean_cons_loop (htag : bits w 63 62 = 1) : ExtsClean lvl seen inBinds (w :: ws) ↔
    (inBinds = false ∧ bits w 61 60 = lvl ∧ lvl < 4 ∧ bits w 59 40 ≠ 0 ∧ bits w 39 0 = 0) ∧ ExtsClean (lvl + 1) seen inBinds ws := by
  simp [ExtsClean, extFlags, htag, and_assoc]

theorem extsClean_cons_bind (htag : bits w 63 62 = 2) : ExtsClean lvl seen inBinds (w :: ws) ↔
    ((seen.any fun c => c.egress == (splitBind w).egress && c.port == (splitBind w).port) = false ∧ bits w 43 0 = 0)
      ∧ ExtsClean lvl (splitBind w :: seen) true ws := by
  simp [ExtsClean, extFlags, htag, -List.any_eq_false]

theorem tag_of_extsClean (h : ExtsClean lvl seen inBinds (w :: ws)) : bits w 63 62 = 1 ∨ bits w 63 62 = 2 := by
  by_contra hne
  simp only [ExtsClean, extFlags] at h
  split at h
  · omega
  · omega
  · simp at h

end

theorem tag_joinLoop {l t : Nat} (hl : l < 4) (ht : t < 2 ^ 20) : bits (joinLoop l t) 63 62 = 1 := by
  simp only [bits, joinLoop]; omega

theorem fields_joinLoop {l t : Nat} (hl : l < 4) (ht : t < 2 ^ 20) :
    bits (joinLoop l t) 61 60 = l ∧ bits (joinLoop l t) 59 40 = t ∧ bits (joinLoop l t) 39 0 = 0 := by
  simp only [bits, joinLoop]; omega

theorem joinLoop_fields {w : Nat} (hw : w < 2 ^ 64) (htag : bits w 63 62 = 1) (hlow : bits w 39 0 = 0) :
    joinLoop (bits w 61 60) (bits w 59 40) = w := by
  simp only [bits, joinLoop] at *; omega

theorem tag_joinBind {b : Bind} (h : bindOk b = true) : bits (joinBind b) 63 62 = 2 ∧ bits (joinBind b) 43 0 = 0 := by
  simp only [bindOk, pOk, xOk, Bool.and_eq_true, decide_eq_true_eq] at h
  have h1 := b2n_le b.egress
  simp only [bits, joinBind]; omega

theorem joinBind_splitBind {w : Nat} (hw : w < 2 ^ 64) (htag : bits w 63 62 = 2) (hlow : bits w 43 0 = 0) : joinBind (splitBind w) = w := by
  simp only [bits, joinBind, splitBind, b2n_bit] at *; omega

theorem bindOk_splitBind (w : Nat) : bindOk (splitBind w) = true := by
  simp only [bindOk, Bool.and_eq_true, pOk_eq_true_iff, xOk_eq_true_iff, splitBind, bits]; omega

theorem joinWeave_splitWeave {w : Nat} (hw : w < 2 ^ 64) (hlow : bits w 14 0 = 0) : joinWeave (splitWeave w) = w := by
  have hw : w % 2 ^ 64 = w := Nat.mod_eq_of_lt hw
  have hlow : w % 2 ^ 15 = 0 := by simpa [bits] using hlow
  have concat (hi lo : Nat) (h : lo ≤ hi + 1 := by decide) : bits w hi lo * 2 ^ lo + w % 2 ^ lo = w % 2 ^ (hi + 1) := bits_concat w h
  simp only [joinWeave, splitWeave, b2n_bit_eq_bits]
  linarith only [hw, hlow, concat 63 60, concat 59 56, concat 55 54, concat 53 52, concat 51 48,
    concat 47 44, concat 43 42, concat 41 40, concat 39 38, concat 37 37, concat 36 36, concat 35 35,
    concat 34 32, concat 31 23, concat 22 19, concat 18 17, concat 16 15]

theorem weaveFits_splitWeave (w : Nat) : weaveFits (splitWeave w) = true := by
  simp only [weaveFits, Bool.and_eq_true, decide_eq_true_eq]
  simp only [splitWeave, bits]; omega

theorem low_joinWeave (v : Weave) : bits (joinWeave v) 14 0 = 0 := by
  simp only [bits, joinWeave]; omega

/-- The words of loops and bindings, level `lvl` first. -/
def extWords (lvl : Nat) (loops : List Nat) (binds : List Bind) : List Nat :=
  (loops.zipIdx lvl).map (fun p => joinLoop p.2 p.1) ++ binds.map joinBind

/-- Loop trips and their levels are in range (R87). -/
def LoopsOk (lvl : Nat) (loops : List Nat) : Prop := (loops = [] ∨ lvl + loops.length ≤ 4) ∧ ∀ t ∈ loops, 1 ≤ t ∧ t < 2 ^ 20

/-- The bindings are in range, name different ports, and none of `seen` (R88, R89). -/
def BindsOk (seen binds : List Bind) : Prop :=
  (∀ b ∈ binds, bindOk b = true) ∧ bindsDistinct binds = true
    ∧ ∀ b ∈ binds, (seen.any fun c => c.egress == b.egress && c.port == b.port) = false

theorem bindsOk_cons {seen binds : List Bind} {b : Bind} : BindsOk seen (b :: binds) ↔
    (bindOk b = true ∧ (seen.any fun c => c.egress == b.egress && c.port == b.port) = false) ∧ BindsOk (b :: seen) binds := by
  have hcomm (c : Bind) : (b.egress == c.egress && b.port == c.port) = (c.egress == b.egress && c.port == b.port) := by
    rw [Bool.beq_comm, BEq.comm (a := b.port)]
  simp only [BindsOk, List.forall_mem_cons, bindsDistinct, Bool.and_eq_true, List.all_eq_true, List.any_cons, Bool.or_eq_false_iff,
    Bool.not_eq_true', hcomm]
  grind

theorem loopsOk_cons {lvl t : Nat} {loops : List Nat} : LoopsOk lvl (t :: loops) ↔ (lvl < 4 ∧ 1 ≤ t ∧ t < 2 ^ 20) ∧ LoopsOk (lvl + 1) loops := by
  simp only [LoopsOk, List.forall_mem_cons, List.length_cons, reduceCtorEq, false_or]
  cases loops with
  | nil => simp
  | cons u us => grind [List.length_cons]

theorem extsClean_map_joinBind {lvl : Nat} {inBinds : Bool} : ∀ {seen binds : List Bind}, BindsOk seen binds →
    ExtsClean lvl seen inBinds (binds.map joinBind)
  | _, [], _ => extsClean_nil
  | seen, b :: binds, h => by
    obtain ⟨⟨hb, hseen⟩, h⟩ := bindsOk_cons.mp h
    obtain ⟨htag, hlow⟩ := tag_joinBind hb
    rw [List.map_cons, extsClean_cons_bind htag, splitBind_joinBind hb]
    exact ⟨⟨hseen, hlow⟩, extsClean_map_joinBind h⟩

theorem extsClean_extWords {seen binds : List Bind} (hb : BindsOk seen binds) : ∀ {lvl : Nat} {loops : List Nat}, LoopsOk lvl loops →
    ExtsClean lvl seen false (extWords lvl loops binds)
  | _, [], _ => extsClean_map_joinBind hb
  | lvl, t :: loops, h => by
    obtain ⟨⟨hlvl, hpos, ht⟩, h⟩ := loopsOk_cons.mp h
    obtain ⟨hl, htrips, hlow⟩ := fields_joinLoop hlvl ht
    show ExtsClean lvl seen false (joinLoop lvl t :: extWords (lvl + 1) loops binds)
    rw [extsClean_cons_loop (tag_joinLoop hlvl ht)]
    exact ⟨⟨rfl, hl, hlvl, by omega, hlow⟩, extsClean_extWords hb h⟩

section
variable {w : Nat} {ws : List Nat}

theorem extLoops_cons_loop (htag : bits w 63 62 = 1) : extLoops (w :: ws) = bits w 59 40 :: extLoops ws := by simp [extLoops, htag]
theorem extBinds_cons_loop (htag : bits w 63 62 = 1) : extBinds (w :: ws) = extBinds ws := by simp [extBinds, htag]
theorem extLoops_cons_bind (htag : bits w 63 62 = 2) : extLoops (w :: ws) = extLoops ws := by simp [extLoops, htag]
theorem extBinds_cons_bind (htag : bits w 63 62 = 2) : extBinds (w :: ws) = splitBind w :: extBinds ws := by simp [extBinds, htag]

end

theorem extLoops_extBinds_map_joinBind : ∀ {binds : List Bind}, (∀ b ∈ binds, bindOk b = true) →
    extLoops (binds.map joinBind) = [] ∧ extBinds (binds.map joinBind) = binds
  | [], _ => ⟨rfl, rfl⟩
  | b :: binds, h => by
    obtain ⟨hb, h⟩ := List.forall_mem_cons.mp h
    obtain ⟨htag, -⟩ := tag_joinBind hb
    obtain ⟨hloops, hbinds⟩ := extLoops_extBinds_map_joinBind h
    rw [List.map_cons, extLoops_cons_bind htag, extBinds_cons_bind htag, splitBind_joinBind hb, hloops, hbinds]
    exact ⟨rfl, rfl⟩

/-- The loops and bindings read from the words that hold them. -/
theorem extLoops_extBinds_extWords {binds : List Bind} (hb : ∀ b ∈ binds, bindOk b = true) : ∀ {lvl : Nat} {loops : List Nat}, LoopsOk lvl loops →
    extLoops (extWords lvl loops binds) = loops ∧ extBinds (extWords lvl loops binds) = binds
  | _, [], _ => extLoops_extBinds_map_joinBind hb
  | lvl, t :: loops, h => by
    obtain ⟨⟨hlvl, -, ht⟩, h⟩ := loopsOk_cons.mp h
    have htag := tag_joinLoop hlvl ht
    obtain ⟨-, htrips, -⟩ := fields_joinLoop hlvl ht
    obtain ⟨hloops, hbinds⟩ := extLoops_extBinds_extWords hb h
    show extLoops (joinLoop lvl t :: extWords (lvl + 1) loops binds) = _ ∧ extBinds (joinLoop lvl t :: extWords (lvl + 1) loops binds) = _
    rw [extLoops_cons_loop htag, extBinds_cons_loop htag, hloops, hbinds, htrips]
    exact ⟨rfl, rfl⟩

theorem map_joinBind_extBinds {lvl : Nat} : ∀ {seen : List Bind} {ws : List Nat}, (∀ w ∈ ws, w < 2 ^ 64) → ExtsClean lvl seen true ws →
    extLoops ws = [] ∧ (extBinds ws).map joinBind = ws ∧ BindsOk seen (extBinds ws)
  | _, [], _, _ => ⟨rfl, rfl, by simp [BindsOk, extBinds, bindsDistinct]⟩
  | seen, w :: ws, hw, h => by
    obtain ⟨hw, hws⟩ := List.forall_mem_cons.mp hw
    obtain htag | htag := tag_of_extsClean h
    · simp [extsClean_cons_loop htag] at h
    · obtain ⟨⟨hseen, hlow⟩, h⟩ := (extsClean_cons_bind htag).mp h
      obtain ⟨hloops, hbinds, hok⟩ := map_joinBind_extBinds hws h
      rw [extLoops_cons_bind htag, extBinds_cons_bind htag, List.map_cons, joinBind_splitBind hw htag hlow, hbinds, bindsOk_cons]
      exact ⟨hloops, rfl, ⟨bindOk_splitBind w, hseen⟩, hok⟩

/-- Clean extension words are those of the loops and bindings read from them. -/
theorem extWords_of_extsClean {seen : List Bind} : ∀ {lvl : Nat} {ws : List Nat}, (∀ w ∈ ws, w < 2 ^ 64) → ExtsClean lvl seen false ws →
    extWords lvl (extLoops ws) (extBinds ws) = ws ∧ LoopsOk lvl (extLoops ws) ∧ BindsOk seen (extBinds ws)
  | _, [], _, _ => by simp [extWords, extLoops, extBinds, LoopsOk, BindsOk, bindsDistinct]
  | lvl, w :: ws, hw, h => by
    obtain htag | htag := tag_of_extsClean h
    · obtain ⟨hw, hws⟩ := List.forall_mem_cons.mp hw
      obtain ⟨⟨-, hlvl, hlt, hpos, hlow⟩, h⟩ := (extsClean_cons_loop htag).mp h
      obtain ⟨hwords, hloops, hbinds⟩ := extWords_of_extsClean hws h
      rw [extLoops_cons_loop htag, extBinds_cons_loop htag, loopsOk_cons]
      refine ⟨?_, ⟨⟨hlt, Nat.pos_of_ne_zero hpos, bits_lt w 59 40⟩, hloops⟩, hbinds⟩
      show joinLoop lvl (bits w 59 40) :: extWords (lvl + 1) (extLoops ws) (extBinds ws) = w :: ws
      rw [hwords, ← hlvl, joinLoop_fields hw htag hlow]
    · obtain ⟨hloops, hbinds, hok⟩ := map_joinBind_extBinds hw (by
        rw [extsClean_cons_bind htag] at h ⊢
        exact h)
      rw [hloops, extWords, hbinds]
      exact ⟨rfl, ⟨.inl rfl, by simp⟩, hok⟩

/-! Blocks (R85 to R89). -/

/-- Each block major with the classes assigned to it (R85). -/
def blockMajors : List (Nat × Nat) := [(0xB0, 0), (0xB0, 1), (0xB1, 2), (0xB2, 3), (0xB3, 4), (0xB4, 5), (0xB5, 6)]

theorem mem_blockMajors {m cls : Nat} (hm : isBlockMajor m = true) (hc : classOk m cls = true) : (m, cls) ∈ blockMajors := by
  simp only [isBlockMajor, Bool.and_eq_true, decide_eq_true_eq] at hm
  obtain ⟨hlo, hhi⟩ := hm
  interval_cases m <;> simp_all [classOk, blockMajors]

theorem classOk_of_mem_blockMajors {m cls : Nat} (h : (m, cls) ∈ blockMajors) :
    isBlockMajor m = true ∧ classOk m cls = true ∧ m < 256 ∧ cls < 16 := by
  have hall : ∀ p ∈ blockMajors, isBlockMajor p.1 = true ∧ classOk p.1 p.2 = true ∧ p.1 < 256 ∧ p.2 < 16 := by decide
  exact hall _ h

theorem blockInstr_encodes {m cls : Nat} {b : BlockArgs} (hm : (m, cls) ∈ blockMajors) (hb : blockOk cls b = true) :
    (blockInstr cls b).EncodesTo (encBlock m cls b) := by
  simp only [blockMajors, List.mem_cons, Prod.mk.injEq, List.not_mem_nil, or_false] at hm
  rcases hm with ⟨rfl, rfl⟩ | ⟨rfl, rfl⟩ | ⟨rfl, rfl⟩ | ⟨rfl, rfl⟩ | ⟨rfl, rfl⟩ | ⟨rfl, rfl⟩ | ⟨rfl, rfl⟩ <;>
    exact ⟨rfl, hb, rfl⟩

theorem firstTrue_cons_eq_none_iff {b : Bool} {l : List Bool} : firstTrue (b :: l) = none ↔ b = false ∧ firstTrue l = none := by
  simp [firstTrue, List.findIdx?_eq_none_iff]

theorem extsClean_iff_firstTrue {lvl : Nat} {seen : List Bind} {inBinds : Bool} {ws : List Nat} : ExtsClean lvl seen inBinds ws ↔
    firstTrue ((extFlags lvl seen inBinds ws).map (·.1)) = none ∧ firstTrue ((extFlags lvl seen inBinds ws).map (·.2)) = none := by
  simp only [ExtsClean, firstTrue, List.findIdx?_eq_none_iff, List.forall_mem_map, Prod.ext_iff, ← forall₂_and, id_eq]

/-- The fields of a header's flags (R85). -/
def blockArgs (h : Nat) (exts : List Nat) : BlockArgs :=
  ⟨(splitK h).qmask, (splitK h).folio, bit (splitK h).flags 4, bit (splitK h).flags 3, bit (splitK h).flags 2, bits (splitK h).flags 1 0,
    splitWeave (exts.headD 0), extLoops exts.tail, extBinds exts.tail⟩

theorem decodeBlock_eq_ok_iff {h v : Nat} {ws : List Nat} {i : Instr} : decodeBlock h (v :: ws) = .ok i ↔
    classOk (majorOf h) (splitK h).cls = true ∧ qmaskOk (splitK h).qmask = true ∧ (splitK h).n ≠ 0
      ∧ (weaveUpperUndef (splitWeave v) (splitK h).cls = false ∧ weaveLowerUndef (splitWeave v) (splitK h).qmask = false ∧ bits v 14 0 = 0)
      ∧ ((splitK h).zero = 0 ∧ bits (splitK h).flags 7 5 = 0) ∧ ExtsClean 0 [] false ws
      ∧ i = blockInstr (splitK h).cls (blockArgs h (v :: ws)) := by
  unfold decodeBlock
  by_cases hc : classOk (majorOf h) (splitK h).cls = true
  · simp only [hc, Bool.not_true, Bool.false_eq_true, if_false, List.headD_cons, List.tail_cons, List.isEmpty_cons]
    split
    · next k hu =>
      have hu := Option.ne_none_iff_exists'.mpr ⟨k, hu⟩
      simp only [ne_eq, firstTrue_cons_eq_none_iff] at hu
      grind [extsClean_iff_firstTrue]
    · next hu =>
      simp only [firstTrue_cons_eq_none_iff] at hu
      split
      · next k hr =>
        have hr := Option.ne_none_iff_exists'.mpr ⟨k, hr⟩
        simp only [ne_eq, firstTrue_cons_eq_none_iff] at hr
        grind [extsClean_iff_firstTrue]
      · next hr =>
        simp only [firstTrue_cons_eq_none_iff] at hr
        grind [extsClean_iff_firstTrue, blockArgs]
  · simp [hc]

theorem decodeBlock_ne_ok_of_n_eq_zero {h : Nat} {exts : List Nat} {i : Instr} (hn : (splitK h).n = 0) : decodeBlock h exts ≠ .ok i := by
  unfold decodeBlock
  by_cases hc : classOk (majorOf h) (splitK h).cls = true <;> simp [hc, hn, firstTrue, List.findIdx?_cons]

theorem blockOk_eq_true_iff {cls : Nat} {b : BlockArgs} : blockOk cls b = true ↔
    qmaskOk b.qmask = true ∧ b.folio < 4096 ∧ b.rm < 4 ∧ weaveFits b.weave = true
      ∧ (weaveUpperUndef b.weave cls = false ∧ weaveLowerUndef b.weave b.qmask = false) ∧ LoopsOk 0 b.loops ∧ BindsOk [] b.binds
      ∧ 1 + b.loops.length + b.binds.length ≤ 15 := by
  have hloops : (b.loops = [] ∨ 0 + b.loops.length ≤ 4) ↔ b.loops.length ≤ 4 := by
    cases b.loops <;> simp
  simp only [blockOk, Bool.and_eq_true, decide_eq_true_eq, Bool.not_eq_true', List.all_eq_true, LoopsOk, BindsOk, hloops, List.any_nil,
    implies_true, and_true, and_assoc]

theorem length_extWords (lvl : Nat) (loops : List Nat) (binds : List Bind) : (extWords lvl loops binds).length = loops.length + binds.length := by
  simp [extWords]

theorem decodeBlock_encodes {h : Nat} {exts : List Nat} {i : Instr} (hm : isBlockMajor (majorOf h) = true) (hh : h < 2 ^ 64)
    (hexts : ∀ v ∈ exts, v < 2 ^ 64) (hlen : exts.length = (splitK h).n) (hd : decodeBlock h exts = .ok i) : i.EncodesTo (h :: exts) := by
  cases exts with
  | nil => exact absurd hd (decodeBlock_ne_ok_of_n_eq_zero hlen.symm)
  | cons v ws =>
    obtain ⟨hv, hws⟩ := List.forall_mem_cons.mp hexts
    obtain ⟨hc, hq, -, ⟨hupper, hlower, hlow⟩, ⟨hzero, hflags⟩, hclean, rfl⟩ := decodeBlock_eq_ok_iff.mp hd
    obtain ⟨hwords, hloops, hbinds⟩ := extWords_of_extsClean hws hclean
    have hcount : 1 + (extLoops ws).length + (extBinds ws).length = (splitK h).n := by
      rw [← hlen, List.length_cons, Nat.add_assoc, ← length_extWords 0, hwords, Nat.add_comm]
    have hn : (splitK h).n < 16 := bits_lt h 55 52
    have hok : blockOk (splitK h).cls (blockArgs h (v :: ws)) = true := blockOk_eq_true_iff.mpr
      ⟨hq, bits_lt h 47 36, bits_lt _ 1 0, weaveFits_splitWeave v, ⟨hupper, hlower⟩, hloops, hbinds, by
        show 1 + (extLoops ws).length + (extBinds ws).length ≤ 15
        omega⟩
    have henc : encBlock (majorOf h) (splitK h).cls (blockArgs h (v :: ws)) = h :: v :: ws := by
      have hk : FmtK.mk (splitK h).n (splitK h).qmask (splitK h).folio (splitK h).cls 0 (splitK h).flags = splitK h := by
        rw [← hzero]
      have hf : b2n (bit (splitK h).flags 4) * 16 + b2n (bit (splitK h).flags 3) * 8 + b2n (bit (splitK h).flags 2) * 4 + bits (splitK h).flags 1 0
          = (splitK h).flags := by
        have := bits_lt h 7 0
        simp only [splitK, bits, b2n_bit] at *
        omega
      show joinK (majorOf h) ⟨1 + (extLoops ws).length + (extBinds ws).length, (splitK h).qmask, (splitK h).folio, (splitK h).cls, 0,
        b2n (bit (splitK h).flags 4) * 16 + b2n (bit (splitK h).flags 3) * 8 + b2n (bit (splitK h).flags 2) * 4 + bits (splitK h).flags 1 0⟩
        :: joinWeave (splitWeave v) :: extWords 0 (extLoops ws) (extBinds ws) = _
      rw [hcount, hf, hk, joinK_splitK hh, joinWeave_splitWeave hv hlow, hwords]
    rw [← henc]
    exact blockInstr_encodes (mem_blockMajors hm hc) hok

/-- The header word's fields (R85). -/
def blockHeader (cls : Nat) (b : BlockArgs) : FmtK :=
  ⟨1 + b.loops.length + b.binds.length, b.qmask, b.folio, cls, 0, b2n b.hold * 16 + b2n b.keep * 8 + b2n b.sat * 4 + b.rm⟩

section
variable {m cls : Nat} {b : BlockArgs}

theorem blockHeader_fits (hcls : cls < 16) (hb : blockOk cls b = true) : (blockHeader cls b).n < 16 ∧ (blockHeader cls b).qmask < 16
    ∧ (blockHeader cls b).folio < 4096 ∧ (blockHeader cls b).cls < 16 ∧ (blockHeader cls b).zero < 2 ^ 24 ∧ (blockHeader cls b).flags < 256 := by
  obtain ⟨hq, hfolio, hrm, -, -, -, -, hn⟩ := blockOk_eq_true_iff.mp hb
  have hhold := b2n_le b.hold
  have hkeep := b2n_le b.keep
  have hsat := b2n_le b.sat
  simp only [blockHeader]
  exact ⟨by omega, Laws.WordsFit.qmask_lt hq, hfolio, hcls, by omega, by omega⟩

theorem flags_blockHeader (hrm : b.rm < 4) : bits (blockHeader cls b).flags 7 5 = 0 ∧ bit (blockHeader cls b).flags 4 = b.hold
    ∧ bit (blockHeader cls b).flags 3 = b.keep ∧ bit (blockHeader cls b).flags 2 = b.sat ∧ bits (blockHeader cls b).flags 1 0 = b.rm := by
  have hhold := b2n_le b.hold
  have hkeep := b2n_le b.keep
  have hsat := b2n_le b.sat
  refine ⟨?_, bit_of_b2n ?_, bit_of_b2n ?_, bit_of_b2n ?_, ?_⟩ <;> simp only [bits, blockHeader] <;> omega

theorem blockArgs_encBlock (hcls : cls < 16) (hb : blockOk cls b = true) :
    blockArgs (joinK m (blockHeader cls b)) (joinWeave b.weave :: extWords 0 b.loops b.binds) = b := by
  obtain ⟨hn, hq, hfolio, hc, hz, hf⟩ := blockHeader_fits hcls hb
  obtain ⟨-, -, hrm, hfits, -, hloops, hbinds, -⟩ := blockOk_eq_true_iff.mp hb
  obtain ⟨-, hhold, hkeep, hsat, hrm⟩ := flags_blockHeader (cls := cls) hrm
  obtain ⟨hl, hbd⟩ := extLoops_extBinds_extWords hbinds.1 hloops
  rw [blockArgs, splitK_joinK hn hq hfolio hc hz hf, hhold, hkeep, hsat, hrm, List.headD_cons, List.tail_cons, splitWeave_joinWeave hfits, hl, hbd]
  rfl

theorem decodeBlock_encBlock (hm : (m, cls) ∈ blockMajors) (hb : blockOk cls b = true) :
    decodeBlock (joinK m (blockHeader cls b)) (joinWeave b.weave :: extWords 0 b.loops b.binds) = .ok (blockInstr cls b) := by
  obtain ⟨-, hclass, hm, hcls⟩ := classOk_of_mem_blockMajors hm
  obtain ⟨hn, hqm, hfolio, hc, hz, hf⟩ := blockHeader_fits hcls hb
  obtain ⟨hq, -, hrm, hfits, ⟨hupper, hlower⟩, hloops, hbinds, -⟩ := blockOk_eq_true_iff.mp hb
  rw [decodeBlock_eq_ok_iff, blockArgs_encBlock hcls hb, majorOf_joinK hm hn hqm hfolio hc hz hf, splitK_joinK hn hqm hfolio hc hz hf,
    splitWeave_joinWeave hfits]
  exact ⟨hclass, hq, by simp [blockHeader], ⟨hupper, hlower, low_joinWeave _⟩, ⟨rfl, (flags_blockHeader hrm).1⟩,
    extsClean_extWords hbinds hloops, rfl⟩

theorem decode_encBlock (hm : (m, cls) ∈ blockMajors) (hb : blockOk cls b = true) (more : List Nat) :
    decode (encBlock m cls b ++ more) = .ok (blockInstr cls b) := by
  obtain ⟨hblock, -, hm256, hcls⟩ := classOk_of_mem_blockMajors hm
  obtain ⟨hn, hq, hfolio, hc, hz, hf⟩ := blockHeader_fits hcls hb
  have hmajor := majorOf_joinK hm256 hn hq hfolio hc hz hf
  have hcount : extCount (joinK m (blockHeader cls b)) = (joinWeave b.weave :: extWords 0 b.loops b.binds).length := by
    rw [extCount, hmajor, if_pos hblock, List.length_cons, length_extWords, Nat.add_comm, ← Nat.add_assoc]
    exact congrArg FmtK.n (splitK_joinK hn hq hfolio hc hz hf)
  show decode (joinK m (blockHeader cls b) :: (joinWeave b.weave :: extWords 0 b.loops b.binds ++ more)) = _
  rw [decode, hmajor, if_pos hblock, hcount, List.take_left', decodeBlock_encBlock hm hb]
  rfl

end

end Sys2Proof
end

section
/-! What decodes is encoded (R74, R76, R77): for each major, the fields of a word that its decoder accepts are those of the instruction it answers,
which is well-formed. -/

namespace Sys2Proof

theorem intOp_encodes {major fn : Nat} {mk : IntTy → Nat → Nat → Nat → Instr} (h : intOp major fn = some mk) (t : IntTy) {d a b : Nat}
    (hd : d < 32) (ha : a < 32) (hb : b < 32) : (mk t d a b).EncodesTo (encInt major fn t d a b) := by
  unfold intOp at h
  split at h <;> cases h <;> simp [Instr.isSequencer.eq_def, Instr.wf.eq_def, encode.eq_def, *]

theorem decInt_encodes {major : Nat} {f : FmtT} {i : Instr} (hf : f.Fits) (h : decInt major f = .ok i) : i.EncodesTo [joinT major f] := by
  obtain ⟨fn, d, a, b, c, ty, low⟩ := f
  obtain ⟨hfn, hd, ha, hb, hc, hty, hlow⟩ := hf
  simp only [decInt] at h
  split_ifs at h
  · simp_all [Instr.isSequencer.eq_def, Instr.wf.eq_def, encode.eq_def]
  · simp_all [Instr.isSequencer.eq_def, Instr.wf.eq_def, encode.eq_def]
  · split at h
    · simp at h
    · next mk hmk =>
      split at h
      · simp at h
      · next t ht =>
        have := intOp_encodes hmk t hd ha hb
        simp_all [encInt]

theorem decBranch_encodes {major : Nat} {f : FmtB} {i : Instr} (hm : major = 0x40 ∨ major = 0x41 ∨ major = 0x42 ∨ major = 0x44) (hf : f.Fits)
    (h : decBranch major f = .ok i) : i.EncodesTo [joinB major f] := by
  obtain ⟨cond, a, b, pred, z, woff⟩ := f
  obtain ⟨hcond, ha, hb, hpred, hzero, hwoff⟩ := hf
  obtain rfl | rfl | rfl | rfl := hm
  · simp only [decBranch] at h
    split at h
    · simp_all [Instr.isSequencer.eq_def, Instr.wf.eq_def, encode.eq_def, condOk]
    · split_ifs at h <;> simp_all [Instr.isSequencer.eq_def, Instr.wf.eq_def, encode.eq_def, condOk]
  all_goals
    simp only [decBranch] at h
    split at h <;> simp_all [Instr.isSequencer.eq_def, Instr.wf.eq_def, encode.eq_def]

theorem decMem_encodes {major : Nat} {f : FmtM} {i : Instr} (hm : 0x50 ≤ major ∧ major ≤ 0x5E) (hf : f.Fits)
    (h : decMem major f = .ok i) : i.EncodesTo [joinM major f] := by
  obtain ⟨wop, data, base, index, scale, ord, off⟩ := f
  obtain ⟨hwop, hdata, hbase, hindex, hscale, hord, hoff⟩ := hf
  obtain ⟨hlo, hhi⟩ := hm
  simp only [decMem] at h
  interval_cases major
  all_goals
    simp only at h
    repeat' split at h
  all_goals simp_all [Instr.isSequencer.eq_def, Instr.wf.eq_def, encode.eq_def, loadOk, storeOk, amoOk, memAddrOk, encMem, encAmo, b2n_beq_one]
  all_goals omega

theorem decBit_encodes {f : FmtT} {i : Instr} (hf : f.Fits) (h : decBit f = .ok i) : i.EncodesTo [joinT 0x12 f] := by
  obtain ⟨fn, d, a, b, c, ty, low⟩ := f
  obtain ⟨hfn, hd, ha, hb, hc, hty, hlow⟩ := hf
  simp only [decBit] at h
  split at h <;> (try split at h) <;> simp_all [Instr.isSequencer.eq_def, Instr.wf.eq_def, encode.eq_def, b2n_beq_one]
  omega

theorem decImm_encodes {f : FmtI} {i : Instr} (hf : f.Fits) (h : decImm f = .ok i) : i.EncodesTo [joinI 0x18 f] := by
  obtain ⟨fn, d, a, mod, imm⟩ := f
  obtain ⟨hfn, hd, ha, hmod, himm⟩ := hf
  simp only [decImm] at h
  split at h <;> (try split at h) <;> simp_all [Instr.isSequencer.eq_def, Instr.wf.eq_def, encode.eq_def, encImm]
  all_goals simp only [joinI, bits] at *; omega

theorem decFloat_encodes {f : FmtT} {i : Instr} (hf : f.Fits) (h : decFloat f = .ok i) : i.EncodesTo [joinT 0x30 f] := by
  obtain ⟨fn, d, a, b, c, ty, low⟩ := f
  obtain ⟨hfn, hd, ha, hb, hc, hty, hlow⟩ := hf
  simp only [decFloat] at h
  split at h <;> (try split at h) <;> simp_all [Instr.isSequencer.eq_def, Instr.wf.eq_def, encode.eq_def, encF]
  all_goals rw [FFmt.code_ofCode (by omega)]; simp only [joinT]; omega

theorem decJump_encodes {f : FmtT} {i : Instr} (hf : f.Fits) (h : decJump f = .ok i) : i.EncodesTo [joinT 0x43 f] := by
  obtain ⟨fn, d, a, b, c, ty, low⟩ := f
  obtain ⟨hfn, hd, ha, hb, hc, hty, hlow⟩ := hf
  simp only [decJump] at h
  split at h <;> simp_all [Instr.isSequencer.eq_def, Instr.wf.eq_def, encode.eq_def]

theorem decPred_encodes {f : FmtT} {i : Instr} (hf : f.Fits) (h : decPred f = .ok i) : i.EncodesTo [joinT 0x48 f] := by
  obtain ⟨fn, d, a, b, c, ty, low⟩ := f
  obtain ⟨hfn, hd, ha, hb, hc, hty, hlow⟩ := hf
  simp only [decPred] at h
  split at h <;> (try split at h) <;> simp_all [Instr.isSequencer.eq_def, Instr.wf.eq_def, encode.eq_def]

theorem decSpecial_encodes {f : FmtI} {i : Instr} (hf : f.Fits) (h : decSpecial f = .ok i) : i.EncodesTo [joinI 0x4C f] := by
  obtain ⟨fn, d, a, mod, imm⟩ := f
  obtain ⟨hfn, hd, ha, hmod, himm⟩ := hf
  simp only [decSpecial] at h
  split at h <;> simp_all [Instr.isSequencer.eq_def, Instr.wf.eq_def, encode.eq_def]

theorem decCounter_encodes {f : FmtT} {i : Instr} (hf : f.Fits) (h : decCounter f = .ok i) : i.EncodesTo [joinT 0x60 f] := by
  obtain ⟨fn, d, a, b, c, ty, low⟩ := f
  obtain ⟨hfn, hd, ha, hb, hc, hty, hlow⟩ := hf
  simp only [decCounter] at h
  split at h <;> simp_all [Instr.isSequencer.eq_def, Instr.wf.eq_def, encode.eq_def, b2n_beq_one]

theorem decFence_encodes {f : FmtT} {i : Instr} (hf : f.Fits) (h : decFence f = .ok i) : i.EncodesTo [joinT 0x61 f] := by
  obtain ⟨fn, d, a, b, c, ty, low⟩ := f
  obtain ⟨hfn, hd, ha, hb, hc, hty, hlow⟩ := hf
  simp only [decFence] at h
  split at h <;> (try split at h) <;> simp_all [Instr.isSequencer.eq_def, Instr.wf.eq_def, encode.eq_def]

theorem decBarrier_encodes {f : FmtI} {i : Instr} (hf : f.Fits) (h : decBarrier f = .ok i) : i.EncodesTo [joinI 0x62 f] := by
  obtain ⟨fn, d, a, mod, imm⟩ := f
  obtain ⟨hfn, hd, ha, hmod, himm⟩ := hf
  simp only [decBarrier] at h
  split at h <;> simp_all [Instr.isSequencer.eq_def, Instr.wf.eq_def, encode.eq_def]

theorem decPattern_encodes {f : FmtQ} {i : Instr} (hf : f.Fits) (h : decPattern f = .ok i) : i.EncodesTo [joinQ 0x70 f] := by
  obtain ⟨fn, queue, pa, pb, xs, xt, qd, flags⟩ := f
  obtain ⟨hfn, hqueue, hpa, hpb, hxs, hxt, hqd, hflags⟩ := hf
  simp only [decPattern] at h
  split at h <;> (try split at h) <;> simp_all [Instr.isSequencer.eq_def, Instr.wf.eq_def, encode.eq_def]
  all_goals simp only [joinQ, bits] at *; grind

/-- The transfer flags of a stream or copy (R230). -/
theorem qFlags_qArgs {f : FmtQ} (hf : f.flags < 2 ^ 25) (h : bits f.flags 14 13 = 0) : qFlags (qArgs f) = f.flags := by
  simp only [qFlags, qArgs, b2n_bit, bits] at *
  omega

theorem encQ_qArgs {f : FmtQ} {m n : Nat} (hf : f.Fits) (hn : f.fn = n) (h : xferResv f (qArgs f) = false) : encQ m n (qArgs f) = [joinQ m f] := by
  obtain ⟨-, -, -, -, -, -, -, hflags⟩ := hf
  rw [encQ, qFlags_qArgs hflags (xferResv_eq_false_iff.mp h).2, ← hn]
  rfl

theorem qOk_qArgs {f : FmtQ} (hf : f.Fits) (hu : xferUndef (qArgs f) = false) (hr : xferResv f (qArgs f) = false) : qOk (qArgs f) = true := by
  obtain ⟨-, hqueue, hpa, hpb, hxs, hxt, hqd, -⟩ := hf
  obtain ⟨hc, -⟩ := xferResv_eq_false_iff.mp hr
  have hctr := bits_lt f.flags 24 20
  have hcsp := bits_lt f.flags 19 18
  have hrm := bits_lt f.flags 17 16
  have haux := bits_lt f.flags 11 4
  have hport := bits_lt f.flags 3 0
  have hu : (qArgs f).csp ≠ 3 := beq_eq_false_iff_ne.mp hu
  rw [qOk_eq_true_iff]
  exact ⟨hqueue, hpa, hpb, hxs, hxt, hqd, hctr, by simp only [qArgs] at *; omega, hc, hrm, haux, hport⟩

theorem decStream_encodes {f : FmtQ} {i : Instr} (hf : f.Fits) (h : decStream f = .ok i) : i.EncodesTo [joinQ 0x71 f] := by
  unfold decStream at h
  split at h <;> simp_all [Instr.isSequencer.eq_def, Instr.wf.eq_def, encode.eq_def, streamOk, plainFlags, qOk_qArgs, encQ_qArgs]

theorem decCopy_encodes {f : FmtQ} {i : Instr} (hf : f.Fits) (h : decCopy f = .ok i) : i.EncodesTo [joinQ 0x80 f] := by
  unfold decCopy at h
  split at h <;> simp_all [Instr.isSequencer.eq_def, Instr.wf.eq_def, encode.eq_def, qOk_qArgs, encQ_qArgs]

theorem decGate_encodes {f : FmtQ} {i : Instr} (hf : f.Fits) (h : decGate f = .ok i) : i.EncodesTo [joinQ 0x72 f] := by
  obtain ⟨fn, queue, pa, pb, xs, xt, qd, flags⟩ := f
  obtain ⟨hfn, hqueue, hpa, hpb, hxs, hxt, hqd, hflags⟩ := hf
  simp only [decGate] at h
  split at h <;> simp_all [Instr.isSequencer.eq_def, Instr.wf.eq_def, encode.eq_def, ctrOk]
  all_goals simp only [joinQ, bits] at *; grind

theorem decStitch_encodes {f : FmtQ} {i : Instr} (hf : f.Fits) (h : decStitch f = .ok i) : i.EncodesTo [joinQ 0x81 f] := by
  obtain ⟨fn, queue, pa, pb, xs, xt, qd, flags⟩ := f
  obtain ⟨hfn, hqueue, hpa, hpb, hxs, hxt, hqd, hflags⟩ := hf
  simp only [decStitch] at h
  split at h <;> simp_all [Instr.isSequencer.eq_def, Instr.wf.eq_def, encode.eq_def]
  all_goals simp only [joinQ, bits] at *; omega

theorem decTask_encodes {f : FmtQ} {i : Instr} (hf : f.Fits) (h : decTask f = .ok i) : i.EncodesTo [joinQ 0x90 f] := by
  obtain ⟨fn, queue, pa, pb, xs, xt, qd, flags⟩ := f
  obtain ⟨hfn, hqueue, hpa, hpb, hxs, hxt, hqd, hflags⟩ := hf
  simp only [decTask] at h
  split at h <;> simp_all [Instr.isSequencer.eq_def, Instr.wf.eq_def, encode.eq_def]
  all_goals simp only [joinQ, bits] at *; omega

theorem decSys_encodes {f : FmtT} {i : Instr} (hf : f.Fits) (h : decSys f = .ok i) : i.EncodesTo [joinT 0x91 f] := by
  obtain ⟨fn, d, a, b, c, ty, low⟩ := f
  obtain ⟨hfn, hd, ha, hb, hc, hty, hlow⟩ := hf
  simp only [decSys] at h
  split at h <;> (try split at h) <;> simp_all [Instr.isSequencer.eq_def, Instr.wf.eq_def, encode.eq_def, b2n_beq_one]
  all_goals grind

theorem decMisc_encodes {f : FmtI} {i : Instr} (hf : f.Fits) (h : decMisc f = .ok i) : i.EncodesTo [joinI 0xA0 f] := by
  obtain ⟨fn, d, a, mod, imm⟩ := f
  obtain ⟨hfn, hd, ha, hmod, himm⟩ := hf
  simp only [decMisc] at h
  split at h <;> (try split at h) <;> simp_all [Instr.isSequencer.eq_def, Instr.wf.eq_def, encode.eq_def, b2n_beq_one]
  all_goals grind

theorem decRegion_encodes {f : FmtI} {i : Instr} (hf : f.Fits) (h : decRegion f = .ok i) : i.EncodesTo [joinI 0xB8 f] := by
  obtain ⟨fn, d, a, mod, imm⟩ := f
  obtain ⟨hfn, hd, ha, hmod, himm⟩ := hf
  simp only [decRegion] at h
  split at h <;> (try split at h) <;> simp_all [Instr.isSequencer.eq_def, Instr.wf.eq_def, encode.eq_def]
  all_goals simp only [joinI, bits] at *; omega

/-! Words by format. -/

theorem decodeT_encodes {m : Nat} {f : FmtT} {i : Instr} (hf : f.Fits) (h : decodeT m f = .ok i) : i.EncodesTo [joinT m f] := by
  unfold decodeT at h
  split at h
  · exact decInt_encodes hf h
  · exact decInt_encodes hf h
  · exact decBit_encodes hf h
  · exact decFloat_encodes hf h
  · exact decJump_encodes hf h
  · exact decPred_encodes hf h
  · exact decCounter_encodes hf h
  · exact decFence_encodes hf h
  · exact decSys_encodes hf h
  · cases h

theorem decodeI_encodes {m : Nat} {f : FmtI} {i : Instr} (hf : f.Fits) (h : decodeI m f = .ok i) : i.EncodesTo [joinI m f] := by
  unfold decodeI at h
  split at h
  · exact decImm_encodes hf h
  · exact decSpecial_encodes hf h
  · exact decBarrier_encodes hf h
  · exact decMisc_encodes hf h
  · exact decRegion_encodes hf h
  · cases h

theorem decodeM_encodes {m : Nat} {f : FmtM} {i : Instr} (hf : f.Fits) (h : decodeM m f = .ok i) : i.EncodesTo [joinM m f] := by
  unfold decodeM at h
  split at h
  · next hm => exact decMem_encodes hm hf h
  · cases h

theorem decodeB_encodes {m : Nat} {f : FmtB} {i : Instr} (hf : f.Fits) (h : decodeB m f = .ok i) : i.EncodesTo [joinB m f] := by
  unfold decodeB at h
  split at h
  · exact decBranch_encodes (by decide) hf h
  · exact decBranch_encodes (by decide) hf h
  · exact decBranch_encodes (by decide) hf h
  · exact decBranch_encodes (by decide) hf h
  · cases h

theorem decodeQ_encodes {m : Nat} {f : FmtQ} {i : Instr} (hf : f.Fits) (h : decodeQ m f = .ok i) : i.EncodesTo [joinQ m f] := by
  unfold decodeQ at h
  split at h
  · exact decPattern_encodes hf h
  · exact decStream_encodes hf h
  · exact decGate_encodes hf h
  · exact decCopy_encodes hf h
  · exact decStitch_encodes hf h
  · exact decTask_encodes hf h
  · cases h

/-- A word that decodes is the word of the instruction. -/
theorem decodeWord_encodes {w : Nat} {i : Instr} (hw : w < 2 ^ 64) (h : decodeWord w = .ok i) : i.EncodesTo [w] := by
  obtain h | h | h | h | h := decodeWord_eq_ok_iff.mp h
  · simpa only [joinT_splitT hw] using decodeT_encodes (splitT_fits w) h
  · simpa only [joinI_splitI hw] using decodeI_encodes (splitI_fits w) h
  · simpa only [joinM_splitM hw] using decodeM_encodes (splitM_fits w) h
  · simpa only [joinB_splitB hw] using decodeB_encodes (splitB_fits w) h
  · simpa only [joinQ_splitQ hw] using decodeQ_encodes (splitQ_fits w) h

/-- Settles O37: a block by its header and extension words, any other word by the format of its major. -/
theorem decodedWordsAreTheEncoding : Obligations.DecodedWordsAreTheEncoding := by
  unfold Obligations.DecodedWordsAreTheEncoding
  intro w exts i hw hlen hd
  obtain ⟨hw, hexts⟩ := List.forall_mem_cons.mp hw
  cases hm : isBlockMajor (majorOf w)
  · rw [extCount, hm, if_neg Bool.false_ne_true, List.length_eq_zero_iff] at hlen
    exact hlen ▸ decodeWord_encodes hw ((decode_cons_eq_ok_iff hm).mp hd)
  · rw [decode_cons_block hm, List.take_of_length_le hlen.le] at hd
    rw [extCount, if_pos hm] at hlen
    exact decodeBlock_encodes hm hw hexts hlen hd

end Sys2Proof
end

section
/-! What is encoded decodes (R73 to R89): the fields of each instruction's word fit, and the decoder of its major gives the instruction back. -/

namespace Sys2Proof

/-! One word, by its format. -/

theorem decode_of_decodeWord {w : Nat} {i : Instr} (h : decodeWord w = .ok i) (more : List Nat) : decode ([w] ++ more) = .ok i :=
  (decode_cons_eq_ok_iff (isBlockMajor_of_decodeWord_eq_ok h)).mpr h

theorem decode_joinT {m : Nat} {f : FmtT} {i : Instr} (hf : f.Fits) (h : decodeT m f = .ok i) (more : List Nat)
    (hm : m < 256 := by decide) : decode ([joinT m f] ++ more) = .ok i := by
  obtain ⟨h1, h2, h3, h4, h5, h6, h7⟩ := hf
  refine decode_of_decodeWord (decodeWord_eq_ok_iff.mpr (.inl ?_)) more
  rwa [majorOf_joinT hm h1 h2 h3 h4 h5 h6 h7, splitT_joinT h1 h2 h3 h4 h5 h6 h7]

theorem decode_joinI {m : Nat} {f : FmtI} {i : Instr} (hf : f.Fits) (h : decodeI m f = .ok i) (more : List Nat)
    (hm : m < 256 := by decide) : decode ([joinI m f] ++ more) = .ok i := by
  obtain ⟨h1, h2, h3, h4, h5⟩ := hf
  refine decode_of_decodeWord (decodeWord_eq_ok_iff.mpr (.inr (.inl ?_))) more
  rwa [majorOf_joinI hm h1 h2 h3 h4 h5, splitI_joinI h1 h2 h3 h4 h5]

theorem decode_joinM {m : Nat} {f : FmtM} {i : Instr} (hf : f.Fits) (h : decodeM m f = .ok i) (more : List Nat)
    (hm : m < 256 := by decide) : decode ([joinM m f] ++ more) = .ok i := by
  obtain ⟨h1, h2, h3, h4, h5, h6, h7⟩ := hf
  refine decode_of_decodeWord (decodeWord_eq_ok_iff.mpr (.inr (.inr (.inl ?_)))) more
  rwa [majorOf_joinM hm h1 h2 h3 h4 h5 h6 h7, splitM_joinM h1 h2 h3 h4 h5 h6 h7]

theorem decode_joinB {m : Nat} {f : FmtB} {i : Instr} (hf : f.Fits) (h : decodeB m f = .ok i) (more : List Nat)
    (hm : m < 256 := by decide) : decode ([joinB m f] ++ more) = .ok i := by
  obtain ⟨h1, h2, h3, h4, h5, h6⟩ := hf
  refine decode_of_decodeWord (decodeWord_eq_ok_iff.mpr (.inr (.inr (.inr (.inl ?_))))) more
  rwa [majorOf_joinB hm h1 h2 h3 h4 h5 h6, splitB_joinB h1 h2 h3 h4 h5 h6]

theorem decode_joinQ {m : Nat} {f : FmtQ} {i : Instr} (hf : f.Fits) (h : decodeQ m f = .ok i) (more : List Nat)
    (hm : m < 256 := by decide) : decode ([joinQ m f] ++ more) = .ok i := by
  obtain ⟨h1, h2, h3, h4, h5, h6, h7, h8⟩ := hf
  refine decode_of_decodeWord (decodeWord_eq_ok_iff.mpr (.inr (.inr (.inr (.inr ?_))))) more
  rwa [majorOf_joinQ hm h1 h2 h3 h4 h5 h6 h7 h8, splitQ_joinQ h1 h2 h3 h4 h5 h6 h7 h8]

/-! Streams and copies (R229, R230). -/

/-- The fields of the word of a stream or copy. -/
def QArgs.word (q : QArgs) (n : Nat) : FmtQ := ⟨n, q.queue, q.pa, q.pb, q.xs, q.xt, q.qd, qFlags q⟩
@[simp] theorem QArgs.word_fn (q : QArgs) (n : Nat) : (q.word n).fn = n := rfl

section
variable {q : QArgs} (hq : qOk q = true)
include hq

theorem QArgs.word_fits {n : Nat} (hn : n < 16) : (q.word n).Fits := by
  obtain ⟨hqueue, hpa, hpb, hxs, hxt, hqd, hctr, hcsp, -, hrm, haux, hport⟩ := qOk_eq_true_iff.mp hq
  have hsat := b2n_le q.sat
  have hgrp := b2n_le q.grp
  refine ⟨hn, hqueue, hpa, hpb, hxs, hxt, hqd, ?_⟩
  simp only [QArgs.word, qFlags]
  omega

theorem QArgs.qArgs_word (n : Nat) : qArgs (q.word n) = q := by
  obtain ⟨-, -, -, -, -, -, hctr, hcsp, -, hrm, haux, hport⟩ := qOk_eq_true_iff.mp hq
  obtain ⟨queue, pa, pb, xs, xt, qd, ctr, csp, rm, sat, grp, aux, port⟩ := q
  have hsat := b2n_le sat
  have hgrp := b2n_le grp
  simp only [qArgs, QArgs.word, qFlags, QArgs.mk.injEq]
  refine ⟨trivial, trivial, trivial, trivial, trivial, trivial, ?_, ?_, ?_, bit_of_b2n ?_, bit_of_b2n ?_, ?_, ?_⟩ <;>
    (simp only [bits] at *; omega)

theorem QArgs.xferResv_word (n : Nat) : xferResv (q.word n) q = false := by
  obtain ⟨-, -, -, -, -, -, hctr, hcsp, hzero, hrm, haux, hport⟩ := qOk_eq_true_iff.mp hq
  have hsat := b2n_le q.sat
  have hgrp := b2n_le q.grp
  refine xferResv_eq_false_iff.mpr ⟨hzero, ?_⟩
  simp only [QArgs.word, qFlags, bits]
  omega

theorem QArgs.xferUndef_eq_false : xferUndef q = false := by
  obtain ⟨-, -, -, -, -, -, -, hcsp, -⟩ := qOk_eq_true_iff.mp hq
  exact beq_eq_false_iff_ne.mpr (by omega)

theorem decode_encQ {m n : Nat} {i : Instr} (h : decodeQ m (q.word n) = .ok i) (more : List Nat) (hm : m < 256 := by decide)
    (hn : n < 16 := by decide) : decode (encQ m n q ++ more) = .ok i := decode_joinQ (QArgs.word_fits hq hn) h more hm

end

/-! Loads, stores and atomics (R129). -/

theorem memArgs_fits {m : MemArgs} (hd : memDataOk m.w m.data = true) (ha : memAddrOk m = true) :
    (FmtM.mk m.w.code m.data m.base m.index m.scale m.ord.code m.off).Fits := by
  have hw := Laws.WordsFit.wop_lt m.w
  have ho := Laws.WordsFit.ord_lt m.ord
  have hd := lt_of_memDataOk hd
  simp [memAddrOk] at ha
  simp only [FmtM.Fits]
  omega

theorem amoArgs_fits {m : AmoArgs} (h : amoOk m = true) :
    (FmtM.mk m.op.code m.data m.base m.src (b2n m.wide) m.ord.code m.off).Fits := by
  have hw := Laws.WordsFit.amo_lt m.op
  have ho := Laws.WordsFit.ord_lt m.ord
  have hb := b2n_le m.wide
  simp [amoOk] at h
  simp only [FmtM.Fits]
  omega

/-! Immediates and flags that hold several fields (R115, R190, R193, R194, R240, R247). -/

theorem fields_bitField {pos len : Nat} (hlen : 1 ≤ len) (h : pos + len ≤ 64) : bits (pos + (len - 1) * 256) 5 0 = pos
    ∧ bits (pos + (len - 1) * 256) 13 8 + 1 = len ∧ bits (pos + (len - 1) * 256) 31 14 = 0 ∧ bits (pos + (len - 1) * 256) 7 6 = 0 := by
  simp only [bits]; omega

theorem fields_scond {ctr csp skip : Nat} (inv : Bool) (hctr : ctr < 32) (hcsp : csp < 3) (hskip : skip < 16) :
    let v := ctr * 1048576 + csp * 262144 + b2n inv * 16 + skip
    bits v 24 20 = ctr ∧ bits v 19 18 = csp ∧ bits v 17 5 = 0 ∧ bit v 4 = inv ∧ bits v 3 0 = skip := by
  have hinv := b2n_le inv
  exact ⟨by simp only [bits]; omega, by simp only [bits]; omega, by simp only [bits]; omega, bit_of_b2n (by omega), by simp only [bits]; omega⟩

theorem fields_qstat {sel : Nat} (clr : Bool) (hsel : sel < 4) :
    let v := b2n clr * 4 + sel
    bits v 24 3 = 0 ∧ bit v 2 = clr ∧ bits v 1 0 = sel := by
  have hclr := b2n_le clr
  exact ⟨by simp only [bits]; omega, bit_of_b2n (by omega), by simp only [bits]; omega⟩

theorem fields_spine {win acc : Nat} (hwin : win < 16) (hacc : acc < 3) :
    let v := win + acc * 16
    bits v 31 6 = 0 ∧ bits v 5 4 = acc ∧ bits v 3 0 = win := by
  simp only [bits]; omega

theorem fields_accrd {ep rm : Nat} (clr sat : Bool) (hep : ep < 16) (hrm : rm < 4) :
    let v := ep + b2n clr * 16 + rm * 32 + b2n sat * 128
    bits v 31 8 = 0 ∧ bit v 7 = sat ∧ bits v 6 5 = rm ∧ bit v 4 = clr ∧ bits v 3 0 = ep := by
  have hclr := b2n_le clr
  have hsat := b2n_le sat
  exact ⟨by simp only [bits]; omega, bit_of_b2n (by omega), by simp only [bits]; omega, bit_of_b2n (by omega), by simp only [bits]; omega⟩

/-! Instructions whose word depends on an operand's form. -/

theorem decode_encode_fcvt {c : Conv} {rm : RmCode} {d a : Nat} (hw : (Instr.fcvt c rm d a).wf = true) (more : List Nat) :
    decode (encode (Instr.fcvt c rm d a) ++ more) = .ok (Instr.fcvt c rm d a) := by
  have hc := Laws.WordsFit.conv_lt c
  have hr := Laws.WordsFit.rm_lt rm
  cases hd : c.dstX <;> cases ha : c.srcX <;> simp [Instr.wf.eq_def, hd, ha] at hw <;>
    exact decode_joinT (by simp only [FmtT.Fits]; omega) (by simp [decodeT, decFloat, hd, ha, hw]) more

theorem decode_encode_bc {c : BCond} {woff : Nat} (hw : (Instr.bc c woff).wf = true) (more : List Nat) :
    decode (encode (Instr.bc c woff) ++ more) = .ok (Instr.bc c woff) := by
  cases c with
  | rel r a b =>
    have hr := Laws.WordsFit.rel_lt r
    simp [Instr.wf.eq_def, condOk] at hw
    exact decode_joinB (by simp only [FmtB.Fits]; omega) (by simp [decodeB, decBranch]) more
  | p k | np k =>
    simp [Instr.wf.eq_def, condOk] at hw
    exact decode_joinB (by simp only [FmtB.Fits]; omega) (by simp [decodeB, decBranch, Rel.ofCode]) more

theorem decode_encode_patset {f : PatField} {pd src : Nat} (hw : (Instr.patset f pd src).wf = true) (more : List Nat) :
    decode (encode (Instr.patset f pd src) ++ more) = .ok (Instr.patset f pd src) := by
  have hf : f.code < 2 ^ 4 := by have := Laws.WordsFit.field_lt f; omega
  by_cases hcopy : f = .copy
  · subst hcopy
    simp [Instr.wf.eq_def] at hw
    exact decode_joinQ (by simp only [FmtQ.Fits, if_true]; omega) (by simp [decodeQ, decPattern, bits_of_lt hf, bits_eq_zero_of_lt hf]) more
  · simp [Instr.wf.eq_def, hcopy] at hw
    exact decode_joinQ (by simp only [FmtQ.Fits, if_neg hcopy]; omega)
      (by simp [decodeQ, decPattern, bits_of_lt hf, bits_eq_zero_of_lt hf, hcopy]) more

theorem decode_encode_scond {q xt qd ctr csp skip : Nat} {inv : Bool} (hw : (Instr.scond q xt qd ctr csp inv skip).wf = true) (more : List Nat) :
    decode (encode (Instr.scond q xt qd ctr csp inv skip) ++ more) = .ok (Instr.scond q xt qd ctr csp inv skip) := by
  simp [Instr.wf.eq_def, ctrOk] at hw
  obtain ⟨⟨⟨⟨hregs, ⟨hctr, hcsp⟩, -⟩, hne⟩, hpos⟩, hskip⟩ := hw
  obtain ⟨h1, h2, h3, h4, h5⟩ := fields_scond inv hctr hcsp hskip
  have hinv := b2n_le inv
  exact decode_joinQ (by simp only [FmtQ.Fits]; omega)
    (by simp [decodeQ, decGate, h1, h2, h3, h4, h5, hne]; omega) more

theorem decode_encode_spine {qmask acc : Nat} {win : Option Nat} (hw : (Instr.spine qmask win acc).wf = true) (more : List Nat) :
    decode (encode (Instr.spine qmask win acc) ++ more) = .ok (Instr.spine qmask win acc) := by
  simp [Instr.wf.eq_def] at hw
  obtain ⟨⟨hq, hwin⟩, hacc⟩ := hw
  obtain ⟨hq4, hlow, hhigh⟩ := bits_qmask hq 9
  cases win with
  | none =>
    obtain ⟨h1, h2, h3⟩ := fields_spine (show 15 < 16 by decide) hacc
    exact decode_joinI (by simp only [FmtI.Fits, Option.getD_none]; omega)
      (by simp [decodeI, decRegion, hlow, hhigh, hq, h1, h2, h3]; omega) more
  | some v =>
    have hv : v < 9 := by simpa using hwin
    obtain ⟨h1, h2, h3⟩ := fields_spine (show v < 16 by omega) hacc
    exact decode_joinI (by simp only [FmtI.Fits, Option.getD_some]; omega)
      (by simp [decodeI, decRegion, hlow, hhigh, hq, h1, h2, h3]; omega) more

theorem decode_encode_accrd {qmask ep rm : Nat} {clr sat : Bool} (hw : (Instr.accrd qmask ep clr rm sat).wf = true) (more : List Nat) :
    decode (encode (Instr.accrd qmask ep clr rm sat) ++ more) = .ok (Instr.accrd qmask ep clr rm sat) := by
  simp [Instr.wf.eq_def] at hw
  obtain ⟨⟨hq, hep⟩, hrm⟩ := hw
  obtain ⟨hq4, hlow, hhigh⟩ := bits_qmask hq 9
  obtain ⟨h1, h2, h3, h4, h5⟩ := fields_accrd clr sat hep hrm
  have hclr := b2n_le clr
  have hsat := b2n_le sat
  exact decode_joinI (by simp only [FmtI.Fits]; omega) (by simp [decodeI, decRegion, hlow, hhigh, hq, h1, h2, h3, h4, h5]) more

/-! Every instruction. -/

theorem decode_encode {i : Instr} (hs : i.isSequencer = true) (hw : i.wf = true) (more : List Nat) : decode (encode i ++ more) = .ok i := by
  cases i with
  | add ty d a b | sub ty d a b | mul ty d a b | mulh ty d a b | mulhn ty d a b | div ty d a b | divn ty d a b | rem ty d a b | remn ty d a b
  | min ty d a b | max ty d a b | minn ty d a b | maxn ty d a b | and ty d a b | or ty d a b | xor ty d a b | andn ty d a b | orn ty d a b
  | shl ty d a b | shr ty d a b | sha ty d a b | cmpeq ty d a b | cmplt ty d a b | cmpltn ty d a b =>
    have h0 := Laws.WordsFit.ty_lt ty
    simp [Instr.wf.eq_def] at hw
    exact decode_joinT (by simp only [FmtT.Fits]; omega) (by simp [decodeT, decInt, intOp]) more
  | csel d a b c | mov d a =>
    simp [Instr.wf.eq_def] at hw
    exact decode_joinT (by simp only [FmtT.Fits]; omega) (by simp [decodeT, decInt]) more
  | clz ty d a | ctz ty d a | popc ty d a =>
    have h0 := Laws.WordsFit.ty_lt ty
    simp [Instr.wf.eq_def] at hw
    exact decode_joinT (by simp only [FmtT.Fits]; omega) (by simp [decodeT, decBit]) more
  | sext w d a | zext w d a =>
    have h0 := Laws.WordsFit.ext_lt w
    simp [Instr.wf.eq_def] at hw
    exact decode_joinT (by simp only [FmtT.Fits]; omega) (by simp [decodeT, decBit]) more
  | addx shift d a b =>
    simp [Instr.wf.eq_def] at hw
    exact decode_joinT (by simp only [FmtT.Fits]; omega) (by simp [decodeT, decBit, hw]) more
  | morton three d a b c =>
    cases three <;> simp [Instr.wf.eq_def] at hw <;>
      exact decode_joinT (by simp only [FmtT.Fits, b2n_true, b2n_false]; omega) (by simp [decodeT, decBit, hw]) more
  | addi ty d a imm | andi ty d a imm | ori ty d a imm | xori ty d a imm =>
    have h0 := Laws.WordsFit.ty_lt ty
    simp [Instr.wf.eq_def] at hw
    exact decode_joinI (by simp only [FmtI.Fits]; omega) (by simp [decodeI, decImm]) more
  | shli ty d a n | shri ty d a n | shai ty d a n =>
    have h0 := Laws.WordsFit.ty_lt ty
    simp [Instr.wf.eq_def] at hw
    have hn := lt_of_shImmOk hw.2
    exact decode_joinI (by simp only [FmtI.Fits]; omega) (by simp [decodeI, decImm, hw]) more
  | li d imm | lui d a imm =>
    simp [Instr.wf.eq_def] at hw
    exact decode_joinI (by simp only [FmtI.Fits]; omega) (by simp [decodeI, decImm]) more
  | bext d a pos len | bins d a pos len =>
    simp [Instr.wf.eq_def] at hw
    obtain ⟨hpos, hlen, hhigh, hmid⟩ := fields_bitField hw.1.2 hw.2
    exact decode_joinI (by simp only [FmtI.Fits]; omega) (by simp [decodeI, decImm, hpos, hlen, hhigh, hmid, hw]) more
  | demorton three d a k =>
    cases three <;> simp [Instr.wf.eq_def] at hw <;>
      exact decode_joinI (by simp only [FmtI.Fits, b2n_true, b2n_false]; omega) (by simp [decodeI, decImm, b2n]; omega) more
  | fadd f rm d a b | fsub f rm d a b | fmul f rm d a b | fdiv f rm d a b | ffma f rm d a b c | fsqrt f rm d a =>
    have h0 := Laws.WordsFit.ff_lt f
    have h1 := Laws.WordsFit.rm_lt rm
    have hrm : rm.code < 8 := by omega
    simp [Instr.wf.eq_def] at hw
    exact decode_joinT (by simp only [FmtT.Fits]; omega) (by simp [decodeT, decFloat, hw, FFmt.ofCode_div hrm, Nat.mod_eq_of_lt hrm]) more
  | fmin f d a b | fmax f d a b | fclass f d a | fmovx f d a | fmovf f d a =>
    have h0 := Laws.WordsFit.ff_lt f
    simp [Instr.wf.eq_def] at hw
    exact decode_joinT (by simp only [FmtT.Fits]; omega) (by simp [decodeT, decFloat, hw]) more
  | fcmp f r d a b =>
    have h0 := Laws.WordsFit.ff_lt f
    have h1 := Laws.WordsFit.frel_lt r
    have hr : r.code < 8 := by omega
    simp [Instr.wf.eq_def] at hw
    exact decode_joinT (by simp only [FmtT.Fits]; omega) (by simp [decodeT, decFloat, hw, FFmt.ofCode_div hr, Nat.mod_eq_of_lt hr]) more
  | fcvt c rm d a => exact decode_encode_fcvt hw more
  | bc c woff => exact decode_encode_bc hw more
  | jmp woff | call link woff | loop a woff =>
    simp [Instr.wf.eq_def] at hw
    exact decode_joinB (by simp only [FmtB.Fits]; omega) (by simp [decodeB, decBranch]) more
  | jmpx link a | ret a =>
    simp [Instr.wf.eq_def] at hw
    exact decode_joinT (by simp only [FmtT.Fits]; omega) (by simp [decodeT, decJump]) more
  | pset r d a b =>
    have h0 := Laws.WordsFit.rel_lt r
    simp [Instr.wf.eq_def] at hw
    exact decode_joinT (by simp only [FmtT.Fits]; omega) (by simp [decodeT, decPred, hw]) more
  | pand d a b | por d a b | pnot d a =>
    simp [Instr.wf.eq_def] at hw
    exact decode_joinT (by simp only [FmtT.Fits]; omega) (by simp [decodeT, decPred, hw]) more
  | rds d n | wrs n a =>
    simp [Instr.wf.eq_def] at hw
    exact decode_joinI (by simp only [FmtI.Fits]; omega) (by simp [decodeI, decSpecial, hw]) more
  | ldg m | ldl m | lda m | lds m | ldh m | stg m | stl m | stx m | sta m | sts m | sth m =>
    obtain ⟨⟨⟨hwop, hord⟩, hdata⟩, haddr⟩ : ((_ ∧ _) ∧ _) ∧ _ := by simpa [Instr.wf.eq_def, loadOk, storeOk] using hw
    refine decode_joinM (memArgs_fits hdata haddr) ?_ more
    simp [memAddrOk] at haddr
    simp [decodeM, decMem, *, imp_iff_not_or]
  | amog m | amol m | amox m | amos m =>
    exact decode_joinM (amoArgs_fits hw) (by simp [decodeM, decMem]) more
  | cadd loc d a b | cwait loc d a b | cread loc d a =>
    have hloc := b2n_le loc
    simp [Instr.wf.eq_def] at hw
    exact decode_joinT (by simp only [FmtT.Fits]; omega) (by simp [decodeT, decCounter]) more
  | fence sc k =>
    have h0 := Laws.WordsFit.scope_lt sc
    have h1 := Laws.WordsFit.fence_lt k
    simp [Instr.wf.eq_def] at hw
    exact decode_joinT (by simp only [FmtT.Fits]; omega) (by simp [decodeT, decFence]) more
  | arrive d g | wait d a g | arrwait d g | gquery d g =>
    simp [Instr.wf.eq_def] at hw
    exact decode_joinI (by simp only [FmtI.Fits]; omega) (by simp [decodeI, decBarrier, hw]) more
  | patld sp pd xs =>
    have hs : sp.code < 2 ^ 3 := by have := Laws.WordsFit.space_lt sp; omega
    simp [Instr.wf.eq_def] at hw
    exact decode_joinQ (by simp only [FmtQ.Fits]; omega) (by simp [decodeQ, decPattern, bits_of_lt hs, bits_eq_zero_of_lt hs]) more
  | patset f pd src => exact decode_encode_patset hw more
  | patget f pa xd =>
    have hf : f.code < 2 ^ 4 := by have := Laws.WordsFit.field_lt f; omega
    simp [Instr.wf.eq_def] at hw
    exact decode_joinQ (by simp only [FmtQ.Fits]; omega) (by simp [decodeQ, decPattern, bits_of_lt hf, bits_eq_zero_of_lt hf, hw]) more
  | streamIn q | streamOut q | streamDrop q =>
    simp [Instr.wf.eq_def, streamOk, plainFlags] at hw
    have hq : qOk q = true := by tauto
    exact decode_encQ hq (by simp [decodeQ, decStream, QArgs.qArgs_word hq, QArgs.xferResv_word hq, QArgs.xferUndef_eq_false hq, hw]) more
  | streamRec q | streamConst q | streamInd q =>
    simp [Instr.wf.eq_def, plainFlags] at hw
    have hq : qOk q = true := by tauto
    exact decode_encQ hq (by simp [decodeQ, decStream, QArgs.qArgs_word hq, QArgs.xferResv_word hq, QArgs.xferUndef_eq_false hq, hw]) more
  | copy q | mcopy q | rcopy q =>
    simp [Instr.wf.eq_def] at hw
    have hq : qOk q = true := by tauto
    exact decode_encQ hq (by simp [decodeQ, decCopy, QArgs.qArgs_word hq, QArgs.xferResv_word hq, QArgs.xferUndef_eq_false hq, hw]) more
  | sbarRd q qd qmask | sbarWr q qd qmask | sbarAll q qd qmask =>
    simp [Instr.wf.eq_def] at hw
    have hm : qmask < 2 ^ 4 := by
      obtain h | h := hw.2
      · omega
      · exact Laws.WordsFit.qmask_lt h
    exact decode_joinQ (by simp only [FmtQ.Fits]; omega)
      (by simp [decodeQ, decGate, bits_of_lt hm, bits_eq_zero_of_lt hm, imp_iff_not_or, hw]) more
  | scond q xt qd ctr csp inv skip => exact decode_encode_scond hw more
  | stitch q qd mask | qwait mask =>
    simp [Instr.wf.eq_def] at hw
    have hm : mask < 2 ^ 16 := by omega
    exact decode_joinQ (by simp only [FmtQ.Fits]; omega) (by simp [decodeQ, decStitch, bits_of_lt hm, bits_eq_zero_of_lt hm]) more
  | qstat q xd sel clr =>
    have hclr := b2n_le clr
    simp [Instr.wf.eq_def] at hw
    obtain ⟨h1, h2, h3⟩ := fields_qstat clr hw.2
    exact decode_joinQ (by simp only [FmtQ.Fits]; omega) (by simp [decodeQ, decStitch, h1, h2, h3]) more
  | spawn xr xst xq | launch xd xq | cancel xs xa xq =>
    simp [Instr.wf.eq_def] at hw
    exact decode_joinQ (by simp only [FmtQ.Fits]; omega) (by simp [decodeQ, decTask]) more
  | spawnn xr xst xq count =>
    simp [Instr.wf.eq_def] at hw
    have hc : count - 1 < 2 ^ 8 := by omega
    exact decode_joinQ (by simp only [FmtQ.Fits]; omega) (by simp [decodeQ, decTask, bits_of_lt hc, bits_eq_zero_of_lt hc]; omega) more
  | yield | chkc | squery d a | scopeSet d p c | scopeSplit d p c =>
    simp [Instr.wf.eq_def] at hw
    exact decode_joinT (by simp only [FmtT.Fits]; omega) (by simp [decodeT, decSys]) more
  | exit loc a b =>
    have hloc := b2n_le loc
    simp [Instr.wf.eq_def] at hw
    exact decode_joinT (by simp only [FmtT.Fits]; omega) (by simp [decodeT, decSys, imp_iff_not_or, hw]) more
  | trap a n | mtrd d m =>
    simp [Instr.wf.eq_def] at hw
    exact decode_joinI (by simp only [FmtI.Fits]; omega) (by simp [decodeI, decMisc, hw]) more
  | tret | tretN | nop | halt code =>
    simp [Instr.wf.eq_def] at hw
    exact decode_joinI (by simp only [FmtI.Fits]; omega) (by simp [decodeI, decMisc]) more
  | prio reg v =>
    cases reg <;> simp [Instr.wf.eq_def] at hw <;>
      exact decode_joinI (by simp only [FmtI.Fits, b2n_true, b2n_false]; simp; omega) (by simp [decodeI, decMisc, hw]) more
  | cfgsw qmask | bdrain qmask | accclr qmask =>
    simp [Instr.wf.eq_def] at hw
    obtain ⟨hq, hlow, hhigh⟩ := bits_qmask hw 9
    exact decode_joinI (by simp only [FmtI.Fits]; omega) (by simp [decodeI, decRegion, hlow, hhigh, hw]) more
  | cfgld qmask folio =>
    simp [Instr.wf.eq_def] at hw
    obtain ⟨hq, hlow, hhigh⟩ := bits_qmask hw.1 9
    have hf : folio < 2 ^ 12 := hw.2
    exact decode_joinI (by simp only [FmtI.Fits]; omega) (by simp [decodeI, decRegion, hlow, hhigh, bits_of_lt hf, bits_eq_zero_of_lt hf, hw]) more
  | bstat d qmask sel =>
    simp [Instr.wf.eq_def] at hw
    obtain ⟨hq, hlow, hhigh⟩ := bits_qmask hw.1.2 9
    exact decode_joinI (by simp only [FmtI.Fits]; omega) (by simp [decodeI, decRegion, hlow, hhigh, hw]) more
  | spine qmask win acc => exact decode_encode_spine hw more
  | accrd qmask ep clr rm sat => exact decode_encode_accrd hw more
  | blockMWs b | blockMOs b | blockE b | blockA b | blockS b | blockZ b | blockG b => exact decode_encBlock (by decide) hw more
  | _ => cases hs

/-- Settles O36: each instruction by the format of its word, a block by its header and extension words. -/
theorem decodeOfEncodeIsTheInstruction : Obligations.DecodeOfEncodeIsTheInstruction := by
  unfold Obligations.DecodeOfEncodeIsTheInstruction
  exact fun i more hs hw => decode_encode hs hw more

/-! Words of the spec, and majors without assignment. -/

theorem decodeWord_of_unassigned {w : Nat} (h : majorOf w ∉ [0x10, 0x11, 0x12, 0x18, 0x30, 0x40, 0x41, 0x42, 0x43, 0x44, 0x48, 0x4C, 0x50, 0x51, 0x52,
    0x53, 0x54, 0x55, 0x56, 0x57, 0x58, 0x59, 0x5A, 0x5B, 0x5C, 0x5D, 0x5E, 0x60, 0x61, 0x62, 0x70, 0x71, 0x72, 0x80, 0x81, 0x90, 0x91, 0xA0, 0xB0,
    0xB1, 0xB2, 0xB3, 0xB4, 0xB5, 0xB8]) : decodeWord w = .error .unassignedMajor := by
  unfold decodeWord
  split
  case h_40 => rfl
  all_goals simp_all

theorem isBlockMajor_eq_false {m : Nat} (h : m ∉ [0xB0, 0xB1, 0xB2, 0xB3, 0xB4, 0xB5]) : isBlockMajor m = false := by
  simp only [List.mem_cons, List.not_mem_nil, or_false] at h
  simp only [isBlockMajor, Bool.and_eq_false_iff, decide_eq_false_iff_not]
  omega

/-- Settles O35: the words by evaluation, an unassigned major by the decoder's last branch. -/
theorem specWordsDecode : Obligations.SpecWordsDecode := by
  unfold Obligations.SpecWordsDecode
  refine ⟨by and_intros <;> rfl, fun w exts h => ⟨?_, rfl⟩⟩
  exact decode_cons_error (isBlockMajor_eq_false (by simp_all)) (decodeWord_of_unassigned h)

end Sys2Proof
end

section
/-! Addresses of accesses, and the issue of a load (R79, R133, R135). -/

namespace Sys2Proof.Machine

/-! The sums of the pseudocode as sums of words (R8, R79). -/

theorem State.ofInt_nx (s : State) (r : Nat) : BitVec.ofInt 64 (s.nx r : Int) = s.getX r := by
  rw [State.nx, BitVec.ofInt_natCast, BitVec.ofNat_toNat, BitVec.setWidth_eq]

theorem State.ofInt_nx_shifted (s : State) (r k : Nat) : BitVec.ofInt 64 ((s.nx r * 2 ^ k : Nat) : Int) = s.getX r <<< k := by
  apply BitVec.eq_of_toNat_eq
  rw [State.nx, BitVec.ofInt_natCast, BitVec.toNat_ofNat, BitVec.toNat_shiftLeft, Nat.shiftLeft_eq]

theorem wrap_eq_toNat (v : Int) : wrap v 64 = (BitVec.ofInt 64 v).toNat := by
  rw [← ofNat_wrap, BitVec.toNat_ofNat]
  exact (Nat.mod_eq_of_lt (by simp only [wrap]; omega)).symm

theorem ofInt_sext (w : Nat) : BitVec.ofInt 64 (sext w 32) = immWord w := by rw [← immWord_toInt, BitVec.ofInt_toInt]

theorem State.memAddr_eq (s : State) (m : MemArgs) : s.memAddr m = (s.getX m.base + s.getX m.index <<< m.scale + immWord m.off).toNat := by
  rw [State.memAddr, wrap_eq_toNat, BitVec.ofInt_add, BitVec.ofInt_add, s.ofInt_nx, s.ofInt_nx_shifted, ofInt_sext]

theorem State.amoAddr_eq (s : State) (k : AmoArgs) : s.amoAddr k = (s.getX k.base + immWord k.off).toNat := by
  rw [State.amoAddr, wrap_eq_toNat, BitVec.ofInt_add, s.ofInt_nx, ofInt_sext]

/-- A load that no check of R136 stops joins the outstanding accesses (R133, R135). -/
theorem State.load_of_passes {s : State} {sp : Nat} {m : MemArgs} (ha : s.memAddr m % wopBytes m.w = 0)
    (hr : s.rangeOk s.cur.1 sp (s.memAddr m) (wopBytes m.w) = true) :
    s.load sp m
      = (s.push { s.fresh .load sp (s.memAddr m) (wopBytes m.w) with wop := m.w, ord := m.ord, dst := memDst m }).advance := by
  rw [State.load, if_neg (by simp [aligned_of ha]), if_neg (by simp [hr])]

/-- Settles O13. -/
theorem loadsIssueAtTheirAddress : Obligations.LoadsIssueAtTheirAddress := by
  unfold Obligations.LoadsIssueAtTheirAddress
  refine ⟨fun s m k => ⟨s.memAddr_eq m, s.amoAddr_eq k⟩, fun s m sp i hi ha hr => ?_⟩
  rw [exec_of_mem_loadsOf hi, State.load_of_passes ha hr]

end Sys2Proof.Machine
end

section
/-! Block instructions: the checks at issue, the thread token, and the instance that is resumed (R85, R169 to R171, R179, R186, R237). -/

namespace Sys2Proof.Machine

theorem exec_of_mem_blocksOf {b : BlockArgs} {cls : Nat} {i : Instr} (h : (cls, i) ∈ blocksOf b) (s : State) : exec i s = .next (s.block cls b) := by
  simp only [blocksOf, List.mem_cons, Prod.mk.injEq, List.not_mem_nil, or_false] at h
  rcases h with ⟨rfl, rfl⟩ | ⟨rfl, rfl⟩ | ⟨rfl, rfl⟩ | ⟨rfl, rfl⟩ | ⟨rfl, rfl⟩ | ⟨rfl, rfl⟩ | ⟨rfl, rfl⟩ <;> rfl

/-! A block that starts a new instance. -/

section
variable {s : State} {cls : Nat} {b : BlockArgs}

theorem State.block_of_startsNew (h : s.StartsNew) : s.block cls b = s.issueBlock cls b := by
  refine if_neg fun hr => ?_
  simp only [Bool.and_eq_true, Bool.not_eq_true'] at hr
  obtain ⟨htrap, hhead⟩ := hr
  rcases h with ht | hn
  · exact Bool.false_ne_true (htrap.symm.trans ht)
  · split at hhead
    · exact hn _ ‹_› (beq_iff_eq.1 hhead)
    · cases hhead

theorem State.issueBlock_of_no_folio (hc : s.CanTrap) (h : mfind b.folio s.myLaunch.folios = none) :
    s.issueBlock cls b = s.entered 0x04 s.pc.toNat b.folio := by
  rw [State.issueBlock, h]
  exact State.trapNow_of_canTrap _ _ _ hc

variable {f : Folio} (hf : mfind b.folio s.myLaunch.folios = some f)
include hf

theorem State.issueBlock_of_fails {aux : Nat} (hc : s.CanTrap) (h : s.blockFails cls b (s.blockImgs cls b) f = some aux) :
    s.issueBlock cls b = s.entered 0x0B 0 aux := by
  unfold State.blockImgs at h
  simp only [State.issueBlock, hf, h]
  exact State.trapNow_of_canTrap _ _ _ hc

variable (hb : s.blockFails cls b (s.blockImgs cls b) f = none) (hr : s.raceFails cls (s.blockImgs cls b) ((s.blockImgs cls b).length - 16) f = none)
  (hs : ∀ c ∈ s.bindCmds s.cur.1 b (s.blockImgs cls b) (s.blockCtrs b) f, s.streamFault c.entry c.reg 0 = none)
include hb hr hs

/-- Behind the checks the streams' bounds decide (R237). -/
theorem State.issueBlock_of_checked : s.issueBlock cls b
    = if s.bindsRefused (s.bindCmds s.cur.1 b (s.blockImgs cls b) (s.blockCtrs b) f) then s.advanceBy (blockBytes b) else s.waitPoint (s.token cls b) := by
  have hn := List.findSome?_eq_none_iff.2 hs
  unfold State.blockImgs at hb hr
  unfold State.blockImgs State.blockCtrs at hn
  simp only [State.issueBlock, hf, hb, hr, hn]
  rfl

theorem State.issueBlock_of_refused (h : s.bindsRefused (s.bindCmds s.cur.1 b (s.blockImgs cls b) (s.blockCtrs b) f) = true) :
    s.issueBlock cls b = s.advanceBy (blockBytes b) := by rw [State.issueBlock_of_checked hf hb hr hs, if_pos h]

theorem State.issueBlock_of_accepted (h : s.bindsRefused (s.bindCmds s.cur.1 b (s.blockImgs cls b) (s.blockCtrs b) f) = false) :
    s.issueBlock cls b = s.waitPoint (s.token cls b) := by rw [State.issueBlock_of_checked hf hb hr hs, if_neg (ne_true_of_eq_false h)]

end

theorem State.block_of_passes {s : State} {cls : Nat} {b : BlockArgs} (h : s.BlockPasses cls b) : s.block cls b = s.token cls b := by
  obtain ⟨hnew, hspared, f, hf, hb, hr, hs, ha⟩ := h
  rw [State.block_of_startsNew hnew, State.issueBlock_of_accepted hf hb hr hs ha, State.waitPoint_of_spared hspared]

/-! A block at the header of a continuation (R186). -/

/-- The same memory, and the same issuing context. -/
def State.SameMeAndMemory (s u : State) : Prop := u.cur = s.cur ∧ u.me = s.me ∧ s.SameMemory u

section
variable {s u : State} (h : s.SameMeAndMemory u)
include h

/-- An update of the issuing context's tile beside its contexts and its bytes. -/
theorem State.SameMeAndMemory.modMyTile {g : Tile → Tile} (hc : ∀ tl, (g tl).ctxs = tl.ctxs) (hs : ∀ tl, (g tl).store = tl.store)
    (ha : ∀ tl, (g tl).acc = tl.acc) : s.SameMeAndMemory (u.modMyTile g) := by
  obtain ⟨hcur, hme, hmem⟩ := h
  refine ⟨hcur, ?_, hmem.trans (.modTile u _ g hs ha)⟩
  rw [u.me_modMyTile, Tile.ctx, hc]
  exact hme

theorem State.SameMeAndMemory.modTile {g : Tile → Tile} (hc : ∀ tl, (g tl).ctxs = tl.ctxs) (hs : ∀ tl, (g tl).store = tl.store)
    (ha : ∀ tl, (g tl).acc = tl.acc) : s.SameMeAndMemory (u.modTile s.cur.1 g) := by
  rw [← h.1]
  exact h.modMyTile hc hs ha

theorem State.SameMeAndMemory.refreshPort (k : Nat) : s.SameMeAndMemory (u.refreshPort s.cur.1 k) := by
  unfold State.refreshPort
  dsimp only
  split
  · exact h
  · split
    · exact h
    · exact h.modTile (fun _ => rfl) (fun _ => rfl) fun _ => rfl

theorem State.SameMeAndMemory.refreshOut (k : Nat) : s.SameMeAndMemory (u.refreshOut s.cur.1 k) := by
  unfold State.refreshOut
  split
  · exact h
  · exact h.modTile (fun _ => rfl) (fun _ => rfl) fun _ => rfl

theorem State.SameMeAndMemory.refresh (ins outs : List Nat) : s.SameMeAndMemory (u.refresh s.cur.1 ins outs) := by
  unfold State.refresh
  refine List.foldlRecOn (motive := fun x : State => s.SameMeAndMemory x) _ _ ?_ fun x hx k _ => hx.refreshOut k
  exact List.foldlRecOn (motive := fun x : State => s.SameMeAndMemory x) _ _ h fun x hx k _ => hx.refreshPort k

end

theorem State.SameMeAndMemory.refl (s : State) : s.SameMeAndMemory s := ⟨rfl, rfl, .refl s⟩

/-- The context that resumes its instance: it waits for it again, without a continuation. -/
def State.resumed (s : State) (cls : Nat) (b : BlockArgs) : State :=
  s.modMe fun c => { c with cont := none, wait := some (.block cls b [] [] s.myTile.res []) }

theorem State.sameMeAndMemory_resumeBlock (s : State) (cls : Nat) (b : BlockArgs) : (s.resumed cls b).SameMeAndMemory (s.resumeBlock cls b) := by
  unfold State.resumeBlock
  dsimp only
  split
  · exact ((State.SameMeAndMemory.refl (s.resumed cls b)).refresh ..).modMyTile (fun _ => rfl) (fun _ => rfl) fun _ => rfl
  · exact (State.SameMeAndMemory.refl (s.resumed cls b)).refresh ..

theorem State.block_of_continuation {s : State} {cls qmask : Nat} {b : BlockArgs} (ht : s.me.trap = false)
    (hc : s.me.cont = some (qmask, s.pc.toNat)) : s.block cls b = s.resumeBlock cls b := if_pos (by simp [ht, hc])

/-- Settles O32. -/
theorem blockInstructionsWaitAsThreadTokens : Obligations.BlockInstructionsWaitAsThreadTokens := by
  unfold Obligations.BlockInstructionsWaitAsThreadTokens
  have token : ∀ {s b cls i}, (cls, i) ∈ blocksOf b → s.BlockPasses cls b → exec i s = .next (s.token cls b) := fun hi h => by
    rw [exec_of_mem_blocksOf hi, State.block_of_passes h]
  refine ⟨fun s b => ⟨?_, ?_, ?_, ?_, ?_, ?_, ?_⟩, fun s b cls qmask i hi ht hc => ?_, fun s b cls i hi hnew => ?_⟩
  iterate 7 exact token (by simp [blocksOf])
  · obtain ⟨_, hme, hmem⟩ := s.sameMeAndMemory_resumeBlock cls b
    rw [State.resumed, State.me_modMe] at hme
    refine ⟨_, by rw [exec_of_mem_blocksOf hi, State.block_of_continuation ht hc], ?_, ?_, ?_, (State.SameMemory.modMe s _).trans hmem⟩
    · rw [hme]
    · rw [hme]
    · rw [State.pc, hme]
      rfl
  · rw [exec_of_mem_blocksOf hi, State.block_of_startsNew hnew]
    refine ⟨fun hc hf => congrArg _ (State.issueBlock_of_no_folio hc hf), fun f hf => ⟨fun aux hc h => congrArg _ (State.issueBlock_of_fails hf hc h),
      fun hb hr hs => ⟨fun ha => congrArg _ (State.issueBlock_of_refused hf hb hr hs ha), fun ha => ?_⟩⟩⟩
    rw [State.issueBlock_of_accepted hf hb hr hs ha]
    exact ⟨fun hsp => congrArg _ (State.waitPoint_of_spared hsp _), fun ht hk => congrArg _ (State.waitPoint_of_condemned ht hk _)⟩

end Sys2Proof.Machine
end

section
/-! A load whose reading touches the list of partitions (R302, R367, R381): the state of the refuted CREAD, with a load in the CREAD's place. The load's
home is partition 1's; the answer's way between dies is metered at partition 1, whose entry then stands behind partition 0's in the list, and the
load is performed as one of partition 0. -/

namespace Sys2Proof.Machine

def farLoad : Access := { farRead with kind := .load, size := 8 }

def unorderedPartsLoad : State := unorderedParts.modCtx 0 0 fun c => { c with outs := [farLoad] }

/-- The home is partition 1's, and it carries no poison. -/
theorem home_unorderedPartsLoad :
    unorderedPartsLoad.homeOf 0 farLoad = some (.dev 0x1000001000) ∧ unorderedPartsLoad.poisonHome (.dev 0x1000001000) 8 = false := by
  decide +kernel

/-- Performed behind the message, the load finds no page of partition 0. -/
theorem exec_unorderedPartsLoad : ∃ w, exec (.memoryAccessAtHome 0 0 4 false) unorderedPartsLoad = .next w
    ∧ (w.ctx 0 0).outs.find? (fun b => b.id == 4) = some { farLoad with st := .faulted 0x06 0x1000 0 } :=
  ⟨_, rfl, by decide +kernel⟩

/-- Refutes O17: where a tile without a launch is held by two entries of an unordered list of partitions, a load from partition 1's memory, at a home
without poison, is performed as partition 0's and ends with a translation fault. -/
theorem not_loadsReadTheirBytesAndFillTheirRegister : ¬ Obligations.LoadsReadTheirBytesAndFillTheirRegister := by
  unfold Obligations.LoadsReadTheirBytesAndFillTheirRegister
  intro h
  have hf : (unorderedPartsLoad.ctx 0 0).outs.find? (fun b => b.id == 4) = some farLoad := by decide
  obtain ⟨-, -, hplain, -⟩ := h unorderedPartsLoad 0 0 4 0 false farLoad hf
  obtain ⟨hhome, hpoison⟩ := home_unorderedPartsLoad
  have hends := hplain rfl (by decide) (by decide) (by decide) rfl (by decide) (by decide) (fun _ _ e he => by cases he) (by decide)
  obtain ⟨u, honly, -, he⟩ := (hends.1 _ hhome rfl rfl).1 hpoison
  obtain ⟨w, hw, hfault⟩ := exec_unorderedPartsLoad
  rw [hw] at he
  obtain rfl : w = _ := Host.Outcome.next.inj he
  have hu : u.ctx 0 0 = unorderedPartsLoad.ctx 0 0 := by rw [honly]; rfl
  cases hfault.symm.trans (State.find?_putAccess_load (hu ▸ hf) rfl (by decide) _)

end Sys2Proof.Machine
end

section
/-! Integer and logic instructions (R113): each result of the pseudocode is an integer, taken modulo the width of its type; as a bit vector of that
width it is the operation on the sources' low bits. -/

namespace Sys2Proof.Machine

/-! Sources and results of a type (R113). -/

theorem State.ux_eq_toNat (s : State) (ty : IntTy) (r : Nat) : s.ux ty r = ((s.getX r).setWidth (tyWidth ty)).toNat := by
  rw [State.ux, zext, State.nx, BitVec.toNat_setWidth]

theorem State.sx_eq_toInt (s : State) (ty : IntTy) (r : Nat) : s.sx ty r = ((s.getX r).setWidth (tyWidth ty)).toInt := by
  rw [State.sx, sext_eq_toInt _ _ (by cases ty <;> decide), State.nx, BitVec.ofNat_toNat]

theorem ofNat_wrap_eq_setWidth (v : Int) (n m : Nat) : BitVec.ofNat m (wrap v n) = (BitVec.ofInt n v).setWidth m := by
  apply BitVec.eq_of_toNat_eq
  rw [BitVec.toNat_ofNat, BitVec.toNat_setWidth, BitVec.toNat_ofInt, wrap]
  norm_cast

/-- A result is the integer's low bits, extended as the type says. -/
theorem tyResult_eq_typed {ty : IntTy} {f : (w : Nat) → BitVec w → BitVec w → BitVec w} {p q : Word} {v : Int}
    (h : BitVec.ofInt (tyWidth ty) v = f (tyWidth ty) (p.setWidth (tyWidth ty)) (q.setWidth (tyWidth ty))) : tyResult ty v = typed ty f p q := by
  cases ty with
  | x =>
    simp only [tyWidth, BitVec.setWidth_eq] at h
    rw [tyResult, typed, ofNat_wrap, h]
  | w =>
    have hs : BitVec.ofNat 32 (wrap v 32) = BitVec.ofInt 32 v := by rw [ofNat_wrap_eq_setWidth, BitVec.setWidth_eq]
    rw [tyResult, ofNat_wrap, sext_eq_toInt _ _ (by decide), hs]
    exact congrArg (BitVec.signExtend 64) h
  | wn =>
    rw [tyResult, ofNat_wrap_eq_setWidth]
    exact congrArg (BitVec.setWidth 64) h

/-- An instruction whose integer has the bits of an operation on the sources' low bits writes that typed result. -/
theorem next_putInt {s : State} {ty : IntTy} {d : Nat} {f : (w : Nat) → BitVec w → BitVec w → BitVec w} {p q : Word} {v : Int}
    (h : BitVec.ofInt (tyWidth ty) v = f (tyWidth ty) (p.setWidth (tyWidth ty)) (q.setWidth (tyWidth ty))) :
    (.next (s.putInt ty d v) : Out) = .next ((s.setX d (typed ty f p q)).advance) := by
  rw [State.putInt, tyResult_eq_typed h]

/-! The operations of R113 over bit vectors of any width. -/

section
variable {w : Nat} (x y : BitVec w)

theorem ofInt_toNat : BitVec.ofInt w (x.toNat : Int) = x := by
  rw [BitVec.ofInt_natCast, BitVec.ofNat_toNat, BitVec.setWidth_eq]

theorem ofInt_add : BitVec.ofInt w ((x.toNat + y.toNat : Nat) : Int) = x + y := by
  rw [Nat.cast_add, BitVec.ofInt_add, ofInt_toNat, ofInt_toNat]

theorem ofInt_sub : BitVec.ofInt w ((x.toNat : Int) - y.toNat) = x - y := by
  rw [Int.sub_eq_add_neg, BitVec.ofInt_add, BitVec.ofInt_neg, ofInt_toNat, ofInt_toNat, BitVec.sub_eq_add_neg]

theorem ofInt_mul : BitVec.ofInt w (x.toInt * y.toInt) = x * y := by rw [BitVec.ofInt_mul, BitVec.ofInt_toInt, BitVec.ofInt_toInt]

/-- The digit above the lowest is not touched by a reduction modulo the square of the base. -/
theorem emod_mul_ediv_emod (p : Int) {n : Int} (hn : n ≠ 0) : p % (n * n) / n % n = p / n % n := by
  have h : p % (n * n) = p + -(n * (p / (n * n))) * n := by rw [Int.emod_def]; ring
  rw [h, Int.add_mul_ediv_right _ _ hn, Int.add_neg_mul_emod_self_left]

/-- The upper half of an integer of twice the width. -/
theorem ofInt_ediv_two_pow (p : Int) : BitVec.ofInt w (p / 2 ^ w) = (BitVec.ofInt (2 * w) p >>> w).setWidth w := by
  have hw : (2 : Int) ^ w ≠ 0 := by positivity
  apply BitVec.eq_of_toNat_eq
  zify
  rw [BitVec.toNat_setWidth, BitVec.toNat_ushiftRight, Nat.shiftRight_eq_div_pow, BitVec.toNat_ofInt, BitVec.toNat_ofInt]
  push_cast
  rw [Int.toNat_of_nonneg (Int.emod_nonneg _ hw), Int.toNat_of_nonneg (Int.emod_nonneg _ (by positivity)), two_mul, pow_add,
    emod_mul_ediv_emod p hw]

theorem ofInt_mulh : BitVec.ofInt w (x.toInt * y.toInt / 2 ^ w) = ((x.signExtend (2 * w) * y.signExtend (2 * w)) >>> w).setWidth w := by
  rw [ofInt_ediv_two_pow, BitVec.ofInt_mul]
  rfl

theorem ofInt_mulhn : BitVec.ofInt w ((x.toNat * y.toNat / 2 ^ w : Nat) : Int) = ((x.setWidth (2 * w) * y.setWidth (2 * w)) >>> w).setWidth w := by
  have h := ofInt_ediv_two_pow (w := w) ((x.toNat * y.toNat : Nat) : Int)
  rw [BitVec.ofInt_natCast, BitVec.ofNat_mul, BitVec.ofNat_toNat, BitVec.ofNat_toNat] at h
  rw [← h]
  norm_cast

theorem ofInt_neg_one : BitVec.ofInt w (-1) = BitVec.allOnes w := by
  rw [BitVec.ofInt_neg, BitVec.ofInt_ofNat, BitVec.neg_one_eq_allOnes]

theorem toInt_eq_zero_iff : x.toInt = 0 ↔ x = 0#w := by rw [← BitVec.toInt_inj, BitVec.toInt_zero]

theorem toNat_eq_zero_iff : x.toNat = 0 ↔ x = 0#w := by rw [← BitVec.toNat_inj, BitVec.toNat_ofNat, Nat.zero_mod]

/-- The division of the pseudocode rounds toward zero. -/
theorem divVal_eq_tdiv (a : Int) {b : Int} (h : b ≠ 0) : divVal a b = a.tdiv b := by
  rw [divVal, if_neg h]
  cases a with
  | ofNat m =>
    cases b with
    | ofNat n => rfl
    | negSucc n => simp [Int.tdiv, Int.negSucc_lt_zero]
  | negSucc m =>
    cases b with
    | ofNat n => simp [Int.tdiv, Int.negSucc_lt_zero]
    | negSucc n => simp [Int.tdiv, Int.negSucc_lt_zero]

theorem ofInt_div : BitVec.ofInt w (divVal x.toInt y.toInt) = if y = 0#w then BitVec.allOnes w else x.sdiv y := by
  by_cases h : y = 0#w
  · rw [if_pos h, divVal, if_pos ((toInt_eq_zero_iff y).2 h), ofInt_neg_one]
  · rw [if_neg h, divVal_eq_tdiv _ (mt (toInt_eq_zero_iff y).1 h)]
    exact BitVec.eq_of_toInt_eq (by rw [BitVec.toInt_ofInt, BitVec.toInt_sdiv])

theorem ofInt_rem : BitVec.ofInt w (remVal x.toInt y.toInt) = if y = 0#w then x else x.srem y := by
  by_cases h : y = 0#w
  · rw [if_pos h, remVal, if_pos ((toInt_eq_zero_iff y).2 h), BitVec.ofInt_toInt]
  · have hy := mt (toInt_eq_zero_iff y).1 h
    rw [if_neg h, remVal, if_neg hy, divVal_eq_tdiv _ hy, ← Int.tmod_def, ← BitVec.toInt_srem, BitVec.ofInt_toInt]

theorem ofInt_divn : BitVec.ofInt w (divnVal x.toNat y.toNat) = if y = 0#w then BitVec.allOnes w else x.udiv y := by
  by_cases h : y = 0#w
  · rw [if_pos h, divnVal, if_pos ((toNat_eq_zero_iff y).2 h), ofInt_neg_one]
  · rw [if_neg h, divnVal, if_neg (mt (toNat_eq_zero_iff y).1 h), ← BitVec.toNat_udiv, ofInt_toNat, BitVec.udiv_eq]

theorem ofInt_remn : BitVec.ofInt w (remnVal x.toNat y.toNat) = if y = 0#w then x else x.umod y := by
  by_cases h : y = 0#w
  · rw [if_pos h, remnVal, if_pos ((toNat_eq_zero_iff y).2 h), ofInt_toNat]
  · rw [if_neg h, remnVal, if_neg (mt (toNat_eq_zero_iff y).1 h), ← BitVec.toNat_umod, ofInt_toNat, BitVec.umod_eq]

theorem ofInt_min : BitVec.ofInt w (if x.toInt ≤ y.toInt then x.toInt else y.toInt) = if x.slt y then x else y := by
  simp only [← min_def, min_def_lt, BitVec.slt_iff_toInt_lt, apply_ite (BitVec.ofInt w), BitVec.ofInt_toInt]

theorem ofInt_max : BitVec.ofInt w (if x.toInt ≤ y.toInt then y.toInt else x.toInt) = if x.slt y then y else x := by
  simp only [← max_def, max_def_lt, BitVec.slt_iff_toInt_lt, apply_ite (BitVec.ofInt w), BitVec.ofInt_toInt]

theorem ofInt_minn : BitVec.ofInt w ((if x.toNat ≤ y.toNat then x.toNat else y.toNat : Nat) : Int) = if x.ult y then x else y := by
  rw [← min_def, min_def_lt, ← apply_ite BitVec.toNat, ofInt_toNat]
  simp only [BitVec.ult_iff_toNat_lt]

theorem ofInt_maxn : BitVec.ofInt w ((if x.toNat ≤ y.toNat then y.toNat else x.toNat : Nat) : Int) = if x.ult y then y else x := by
  rw [← max_def, max_def_lt, ← apply_ite BitVec.toNat, ofInt_toNat]
  simp only [BitVec.ult_iff_toNat_lt]

theorem ofInt_and : BitVec.ofInt w ((x.toNat &&& y.toNat : Nat) : Int) = x &&& y := by rw [← BitVec.toNat_and, ofInt_toNat]

theorem ofInt_or : BitVec.ofInt w ((x.toNat ||| y.toNat : Nat) : Int) = x ||| y := by rw [← BitVec.toNat_or, ofInt_toNat]

theorem ofInt_xor : BitVec.ofInt w ((x.toNat ^^^ y.toNat : Nat) : Int) = x ^^^ y := by rw [← BitVec.toNat_xor, ofInt_toNat]

theorem ofInt_andn : BitVec.ofInt w ((x.toNat &&& (2 ^ w - 1 - y.toNat) : Nat) : Int) = x &&& ~~~y := by rw [← BitVec.toNat_not, ofInt_and]

theorem ofInt_orn : BitVec.ofInt w ((x.toNat ||| (2 ^ w - 1 - y.toNat) : Nat) : Int) = x ||| ~~~y := by rw [← BitVec.toNat_not, ofInt_or]

theorem ofInt_shl (n : Nat) : BitVec.ofInt w ((x.toNat * 2 ^ n : Nat) : Int) = x <<< n := by
  apply BitVec.eq_of_toNat_eq
  rw [BitVec.ofInt_natCast, BitVec.toNat_ofNat, BitVec.toNat_shiftLeft, Nat.shiftLeft_eq]

theorem ofInt_shr (n : Nat) : BitVec.ofInt w ((x.toNat / 2 ^ n : Nat) : Int) = x >>> n := by
  rw [← Nat.shiftRight_eq_div_pow, ← BitVec.toNat_ushiftRight, ofInt_toNat]

theorem ofInt_sha (n : Nat) : BitVec.ofInt w (x.toInt / 2 ^ n) = x.sshiftRight n := by
  rw [show (2 : Int) ^ n = (2 ^ n : Nat) by norm_cast, ← Int.shiftRight_eq_div_pow, ← BitVec.toInt_sshiftRight, BitVec.ofInt_toInt]

theorem ofInt_b2n (b : Bool) : BitVec.ofInt w (b2n b : Int) = flagBit w b := by
  cases b <;> exact BitVec.ofInt_natCast ..

theorem ofInt_cmpeq : BitVec.ofInt w (b2n (x.toNat == y.toNat) : Int) = flagBit w (decide (x = y)) := by
  rw [ofInt_b2n, beq_eq_decide]
  simp only [BitVec.toNat_inj]

end

/-- Settles O1: each result is the operation on the low bits of the sources. -/
theorem integerAndLogicInstructionResults : Obligations.IntegerAndLogicInstructionResults := by
  unfold Obligations.IntegerAndLogicInstructionResults
  simp only [exec_add, exec_sub, exec_mul, exec_mulh, exec_mulhn, exec_div, exec_divn, exec_rem, exec_remn, exec_min, exec_max, exec_minn, exec_maxn,
    execAdd, execSub, execMul, execMulh, execMulhn, execDiv, execDivn, execRem, execRemn, execMin, execMax, execMinn, execMaxn,
    exec_and, exec_or, exec_xor, exec_andn, exec_orn, exec_shl, exec_shr, exec_sha, exec_cmpeq, exec_cmplt, exec_cmpltn,
    execAnd, execOr, execXor, execAndn, execOrn, execShl, execShr, execSha, execCmpeq, execCmplt, execCmpltn,
    State.ux_eq_toNat, State.sx_eq_toInt]
  exact ⟨fun _ _ _ _ _ => ⟨next_putInt (ofInt_add ..), next_putInt (ofInt_sub ..), next_putInt (ofInt_mul ..), next_putInt (ofInt_mulh ..),
      next_putInt (ofInt_mulhn ..), next_putInt (ofInt_div ..), next_putInt (ofInt_divn ..), next_putInt (ofInt_rem ..),
      next_putInt (ofInt_remn ..), next_putInt (ofInt_min ..), next_putInt (ofInt_max ..), next_putInt (ofInt_minn ..),
      next_putInt (ofInt_maxn ..)⟩,
    fun _ _ _ _ _ _ => ⟨next_putInt (ofInt_and ..), next_putInt (ofInt_or ..), next_putInt (ofInt_xor ..), next_putInt (ofInt_andn ..),
      next_putInt (ofInt_orn ..), next_putInt (ofInt_shl ..), next_putInt (ofInt_shr ..), next_putInt (ofInt_sha ..),
      next_putInt (ofInt_cmpeq ..), next_putInt (ofInt_b2n _), next_putInt (ofInt_b2n _),
      by rw [exec_csel, execCsel, ite_not], rfl⟩⟩

end Sys2Proof.Machine
end

section
/-! Counts, extensions, Morton codes, immediates and fields of bits (R114, R115). -/

namespace Sys2Proof.Machine

/-! Counts (R114). -/

section
variable {w : Nat} (x : BitVec w)

theorem bit_toNat (k : Nat) : bit x.toNat k = x.getLsbD k := by rw [bit_eq_testBit, BitVec.testBit_toNat]

theorem ofInt_clz (hw : 0 < w) : BitVec.ofInt w (clzVal w x.toNat : Int) = x.clz := by
  rw [BitVec.ofInt_natCast, clzVal]
  by_cases h : x = 0#w
  · rw [if_pos ((toNat_eq_zero_iff x).2 h)]
    exact (BitVec.clz_eq_iff_eq_zero.2 h).symm
  · have hx := mt (toNat_eq_zero_iff x).1 h
    have hlt : x.clz.toNat < w := by
      have := BitVec.lt_def.1 (BitVec.clz_lt_iff_ne_zero.2 h)
      rwa [BitVec.natCast_eq_ofNat, BitVec.toNat_ofNat, Nat.mod_eq_of_lt Nat.lt_two_pow_self] at this
    have hlog : x.toNat.log2 = w - 1 - x.clz.toNat := by
      refine (Nat.log2_eq_iff hx).2 ⟨BitVec.two_pow_sub_clz_le_toNat_of_ne_zero hw h, ?_⟩
      rw [show w - 1 - x.clz.toNat + 1 = w - x.clz.toNat by omega]
      exact BitVec.toNat_lt_two_pow_sub_clz
    rw [if_neg hx, hlog, show w - 1 - (w - 1 - x.clz.toNat) = x.clz.toNat by omega, BitVec.ofNat_toNat, BitVec.setWidth_eq]

theorem ofInt_ctz : BitVec.ofInt w (ctzVal w x.toNat : Int) = x.ctz := by
  rw [BitVec.ofInt_natCast, ctzVal]
  by_cases h : x = 0#w
  · rw [if_pos ((toNat_eq_zero_iff x).2 h), BitVec.ctz_eq_reverse_clz]
    exact (BitVec.clz_eq_iff_eq_zero.2 (BitVec.reverse_eq_zero_iff.2 h)).symm
  · have hfind : (List.range w).find? (bit x.toNat) = some x.ctz.toNat := by
      have hset := BitVec.getLsbD_true_ctz_of_ne_zero h
      simp only [List.find?_range_eq_some, bit_toNat]
      exact ⟨hset, List.mem_range.2 (BitVec.lt_of_getLsbD hset), fun j hj => by rw [BitVec.getLsbD_false_of_lt_ctz hj]; rfl⟩
    rw [if_neg (mt (toNat_eq_zero_iff x).1 h), hfind, Option.getD_some, BitVec.ofNat_toNat, BitVec.setWidth_eq]

theorem length_filter_bit (n : Nat) : ((List.range n).filter (bit x.toNat)).length = x.cpopNatRec n 0 := by
  induction n with
  | zero => rfl
  | succ n ih =>
    rw [List.range_succ, List.filter_append, List.length_append, ih, BitVec.cpopNatRec_succ, BitVec.cpopNatRec_eq (0 + _), Nat.zero_add]
    rw [← bit_toNat]
    cases h : bit x.toNat n <;> simp [h]

theorem ofInt_popc : BitVec.ofInt w (popcVal w x.toNat : Int) = x.cpop := by
  rw [BitVec.ofInt_natCast, popcVal, length_filter_bit, ← BitVec.toNat_cpop, BitVec.ofNat_toNat, BitVec.setWidth_eq]

end

/-! Bits of Morton codes (R114, R115). -/

/-- The bits of a sum of distinct powers of two, and none above them. -/
theorem testBit_sum_range_eq (c : Nat → Bool) (n k : Nat) :
    (((List.range n).map fun m => b2n (c m) * 2 ^ m).sum).testBit k = (decide (k < n) && c k) := by
  by_cases hk : k < n
  · rw [testBit_sum_range c hk, decide_eq_true hk, Bool.true_and]
  · rw [decide_eq_false hk, Bool.false_and]
    exact Nat.testBit_lt_two_pow ((sum_range_b2n_lt c n).trans_le (Nat.pow_le_pow_right (by decide) (by omega)))

/-- Bit m of an interleaving is bit m / n of coordinate m % n. -/
theorem interleave_eq_sum {n : Nat} {cs : List Nat} (hn : cs.length = n) (width : Nat) :
    interleave n cs width = ((List.range (n * width)).map fun m => b2n (bit (cs.getD (m % n) 0) (m / n)) * 2 ^ m).sum := by
  induction width with
  | zero => rfl
  | succ width ih =>
    rw [interleave] at ih ⊢
    rw [List.range_succ, List.map_append, List.sum_append, ih, Nat.mul_succ, List.range_add, List.map_append, List.sum_append, List.map_map,
      List.map_singleton, List.sum_singleton, hn]
    congr 2
    refine List.map_congr_left fun k hk => ?_
    have hk := List.mem_range.1 hk
    rw [Function.comp, Nat.mul_add_mod, Nat.mod_eq_of_lt hk, Nat.mul_add_div (by omega), Nat.div_eq_of_lt hk, Nat.add_zero]

theorem testBit_interleave {n : Nat} {cs : List Nat} (hn : cs.length = n) (width m : Nat) :
    (interleave n cs width).testBit m = (decide (m < n * width) && (cs.getD (m % n) 0).testBit (m / n)) := by
  rw [interleave_eq_sum hn, testBit_sum_range_eq fun m => bit (cs.getD (m % n) 0) (m / n), bit_eq_testBit]

theorem testBit_deinterleave (n k v width j : Nat) : (deinterleave n k v width).testBit j = (decide (j < width) && v.testBit (n * j + k)) := by
  rw [deinterleave, testBit_sum_range_eq fun j => bit v (n * j + k), bit_eq_testBit]

theorem testBit_bits (v hi lo k : Nat) : (bits v hi lo).testBit k = (decide (k < hi + 1 - lo) && v.testBit (lo + k)) := by
  rw [bits, Nat.testBit_mod_two_pow, Nat.testBit_div_two_pow, Nat.add_comm k]

/-! Results of 64 bits. -/

theorem next_putInt_x (s : State) (d : Nat) (v : Int) : (.next (s.putInt .x d v) : Out) = .next ((s.setX d (BitVec.ofInt 64 v)).advance) := by
  rw [State.putInt, tyResult, ofNat_wrap]

/-- A result that is a natural number, by its bits. -/
theorem next_putInt_bits {s : State} {d n : Nat} {c : Nat → Bool} (h : ∀ k, k < 64 → n.testBit k = c k) :
    ∃ v : Word, (.next (s.putInt .x d n) : Out) = .next ((s.setX d v).advance) ∧ ∀ k, k < 64 → v.getLsbD k = c k :=
  ⟨_, next_putInt_x s d n, fun k hk => by rw [BitVec.ofInt_natCast, BitVec.getLsbD_ofNat, decide_eq_true hk, Bool.true_and, h k hk]⟩

theorem immU_eq_toNat (ty : IntTy) (imm : Nat) : immU ty imm = ((immWord imm).setWidth (tyWidth ty)).toNat := by
  rw [immU, zext, wrap_eq_toNat, ofInt_sext, BitVec.toNat_setWidth]

/-! Fields of bits (R115). -/

theorem bits_field (v lo : Nat) {len : Nat} (h : 1 ≤ len) : bits v (lo + len - 1) lo = v / 2 ^ lo % 2 ^ len := by
  rw [bits, show lo + len - 1 + 1 - lo = len by omega]

/-- x with the len bits from pos upward replaced by the low bits of y (R115). -/
def withField (x y pos len : Nat) : Nat := 2 ^ pos * (2 ^ len * (x / 2 ^ (pos + len)) + y % 2 ^ len) + x % 2 ^ pos

/-- BINS takes the old field away and adds the new one. -/
theorem bins_eq_withField (x y pos : Nat) {len : Nat} (hlen : 1 ≤ len) :
    (x : Int) - (bits x (pos + len - 1) pos * 2 ^ pos : Nat) + (bits y (len - 1) 0 * 2 ^ pos : Nat) = withField x y pos len := by
  have hy : bits y (len - 1) 0 = y % 2 ^ len := by simpa using bits_field y 0 hlen
  have hlow := Nat.div_add_mod x (2 ^ pos)
  have hfield := Nat.div_add_mod (x / 2 ^ pos) (2 ^ len)
  rw [Nat.div_div_eq_div_mul, ← Nat.pow_add] at hfield
  rw [bits_field x pos hlen, hy, withField]
  zify at hlow hfield ⊢
  linear_combination -hlow - 2 ^ pos * hfield

theorem testBit_withField (x y pos len k : Nat) :
    (withField x y pos len).testBit k = if pos ≤ k ∧ k < pos + len then y.testBit (k - pos) else x.testBit k := by
  rw [withField, Nat.testBit_two_pow_mul_add _ (Nat.mod_lt _ (Nat.two_pow_pos _)), Nat.testBit_two_pow_mul_add _ (Nat.mod_lt _ (Nat.two_pow_pos _)),
    Nat.testBit_mod_two_pow, Nat.testBit_mod_two_pow, Nat.testBit_div_two_pow]
  by_cases hlow : k < pos
  · rw [if_pos hlow, if_neg (by omega), decide_eq_true hlow, Bool.true_and]
  · rw [if_neg hlow]
    by_cases hfield : k - pos < len
    · rw [if_pos hfield, if_pos (by omega), decide_eq_true hfield, Bool.true_and]
    · rw [if_neg hfield, if_neg (by omega), show k - pos - len + (pos + len) = k by omega]

/-! Codes and words as the registers' bits. -/

theorem testBit_nx (s : State) (r k : Nat) : (s.nx r).testBit k = (s.getX r).getLsbD k := BitVec.testBit_toNat _

/-- MORTON's code has the bits of its coordinates in turn (R114). -/
theorem testBit_morton (s : State) (three : Bool) (a b c j : Nat) (hj : j < 64) :
    (if three then interleave 3 [s.nx a, s.nx b, s.nx c] 21 else interleave 2 [s.nx a, s.nx b] 32).testBit j
      = mortonBit three (s.getX a) (s.getX b) (s.getX c) j := by
  cases three with
  | true =>
    have hm : j % 3 = 0 ∨ j % 3 = 1 ∨ j % 3 = 2 := by omega
    rw [if_pos rfl, testBit_interleave (n := 3) rfl]
    rcases hm with hm | hm | hm <;> simp [mortonBit, hm, testBit_nx]
  | false =>
    have hm : j % 2 = 0 ∨ j % 2 = 1 := by omega
    rw [if_neg Bool.false_ne_true, testBit_interleave (n := 2) rfl, decide_eq_true hj, Bool.true_and]
    rcases hm with hm | hm <;> simp [mortonBit, hm, testBit_nx]

/-- DEMORTON's coordinate has every second or third bit of the code (R115). -/
theorem testBit_demorton (s : State) (three : Bool) (a k j : Nat) :
    (if three then deinterleave 3 k (s.nx a) 21 else deinterleave 2 k (s.nx a) 32).testBit j
      = if three then decide (j < 21) && (s.getX a).getLsbD (3 * j + k) else decide (j < 32) && (s.getX a).getLsbD (2 * j + k) := by
  cases three <;> simp only [if_true, if_false, Bool.false_eq_true, testBit_deinterleave, testBit_nx]

theorem ofInt_lui (x : Word) (imm : Nat) :
    BitVec.ofInt 64 ((imm * 2 ^ 32 + bits x.toNat 31 0 : Nat) : Int) = BitVec.ofNat 32 imm ++ x.setWidth 32 := by
  have hx : x.toNat % 2 ^ 32 < 2 ^ 32 := Nat.mod_lt _ (Nat.two_pow_pos _)
  apply BitVec.eq_of_toNat_eq
  rw [BitVec.ofInt_natCast, BitVec.toNat_ofNat, BitVec.toNat_append, BitVec.toNat_ofNat, BitVec.toNat_setWidth, ← Nat.shiftLeft_add_eq_or_of_lt hx,
    Nat.shiftLeft_eq, bits]
  omega

theorem ofInt_sext_setWidth (x : Word) {n : Nat} (hn : 0 < n) : BitVec.ofInt 64 (sext x.toNat n) = (x.setWidth n).signExtend 64 := by
  rw [sext_eq_toInt _ _ hn, BitVec.ofNat_toNat]
  rfl

theorem ofNat_toNat_mod (x : Word) (n : Nat) : BitVec.ofNat 64 (x.toNat % 2 ^ n) = (x.setWidth n).setWidth 64 := by
  rw [← BitVec.toNat_setWidth, BitVec.ofNat_toNat]

theorem ofInt_zext_setWidth (x : Word) (n : Nat) : BitVec.ofInt 64 (zext x.toNat n : Int) = (x.setWidth n).setWidth 64 := by
  rw [zext, BitVec.ofInt_natCast, ofNat_toNat_mod]

/-- Settles O2: counts by the bits that they count, codes and fields bit by bit, the immediate as a source. -/
theorem bitAddressAndImmediateInstructionResults : Obligations.BitAddressAndImmediateInstructionResults := by
  unfold Obligations.BitAddressAndImmediateInstructionResults
  refine ⟨fun s ty d a b c => ⟨?_, ?_, ?_, fun w => ?_, fun w => ?_, fun shift => ?_, fun three => ?_⟩,
    fun s ty d a imm n => ⟨?_, ?_, ?_, ?_, ?_, ?_, ?_, ?_, ?_, fun pos len hlen _ => ?_, fun pos len hlen _ => ?_, fun three k _ => ?_⟩⟩
  · rw [exec_clz, execClz, s.ux_eq_toNat]
    exact next_putInt (ofInt_clz _ (by cases ty <;> decide))
  · rw [exec_ctz, execCtz, s.ux_eq_toNat]
    exact next_putInt (ofInt_ctz _)
  · rw [exec_popc, execPopc, s.ux_eq_toNat]
    exact next_putInt (ofInt_popc _)
  · rw [exec_sext, execSext, next_putInt_x, State.nx, ofInt_sext_setWidth _ (by cases w <;> decide)]
  · rw [exec_zext, execZext, next_putInt_x, State.nx, ofInt_zext_setWidth]
  · rw [exec_addx, execAddx, next_putInt_x, Nat.cast_add, BitVec.ofInt_add, s.ofInt_nx, s.ofInt_nx_shifted]
  · exact next_putInt_bits fun j hj => testBit_morton s three a b c j hj
  · rw [exec_addi, execAddi, s.ux_eq_toNat, immU_eq_toNat]
    exact next_putInt (ofInt_add _ _)
  · rw [exec_andi, execAndi, s.ux_eq_toNat, immU_eq_toNat]
    exact next_putInt (ofInt_and _ _)
  · rw [exec_ori, execOri, s.ux_eq_toNat, immU_eq_toNat]
    exact next_putInt (ofInt_or _ _)
  · rw [exec_xori, execXori, s.ux_eq_toNat, immU_eq_toNat]
    exact next_putInt (ofInt_xor _ _)
  · rw [exec_shli, execShli, s.ux_eq_toNat]
    exact next_putInt (ofInt_shl _ n)
  · rw [exec_shri, execShri, s.ux_eq_toNat]
    exact next_putInt (ofInt_shr _ n)
  · rw [exec_shai, execShai, s.sx_eq_toInt]
    exact next_putInt (ofInt_sha _ n)
  · rw [exec_li, execLi, next_putInt_x, ofInt_sext]
  · rw [exec_lui, execLui, next_putInt_x, State.nx, ofInt_lui]
  · exact next_putInt_bits fun k _ => by rw [testBit_bits, testBit_nx, show pos + len - 1 + 1 - pos = len by omega]
  · rw [exec_bins, execBins, bins_eq_withField _ _ _ hlen]
    exact next_putInt_bits fun k _ => by rw [testBit_withField, testBit_nx, testBit_nx]
  · exact next_putInt_bits fun j _ => testBit_demorton s three a k j

end Sys2Proof.Machine
end

section
/-! Float instructions (R117 to R121). -/

namespace Sys2Proof.Machine

theorem ofNat_mod_fmtWidth_d (x : Word) : BitVec.ofNat 64 (x.toNat % 2 ^ fmtWidth (ffmt .d)) = x := by
  rw [ofNat_toNat_mod, show fmtWidth (ffmt .d) = 64 from rfl, BitVec.setWidth_eq, BitVec.setWidth_eq]

theorem ofNat_mod_fmtWidth_s (x : Word) : BitVec.ofNat 64 (x.toNat % 2 ^ fmtWidth (ffmt .s)) = (x.setWidth 32).setWidth 64 := ofNat_toNat_mod x 32

theorem ofNat_two_pow (n : Nat) : BitVec.ofNat 64 (2 ^ n) = 1 <<< n := by
  apply BitVec.eq_of_toNat_eq
  simp [Nat.shiftLeft_eq]

/-- Settles O4: the meanings are these results; FCMP's truth value, FCLASS's bit and the copied bits as words. -/
theorem floatInstructionsWriteRoundedResults : Obligations.FloatInstructionsWriteRoundedResults := by
  unfold Obligations.FloatInstructionsWriteRoundedResults
  intro s f rm d a b c
  refine ⟨rfl, rfl, rfl, rfl, rfl, rfl, rfl, rfl, fun r => ?_, fun k hk => if_pos hk, fun k hk => if_neg (ne_true_of_eq_false hk), ?_, ?_, ?_, ?_, ?_⟩
  · rw [exec_fcmp, execFcmp]
    cases fcmpHolds r (s.fnum f a) (s.fnum f b) <;> rfl
  · rw [exec_fclass, execFclass, ofNat_two_pow]
  · rw [exec_fmovx, execFmovx, ofNat_mod_fmtWidth_d]
  · rw [exec_fmovx, execFmovx, ofNat_mod_fmtWidth_s]
  · rw [exec_fmovf, execFmovf, State.nx, ofNat_mod_fmtWidth_d]
  · rw [exec_fmovf, execFmovf, State.nx, ofNat_mod_fmtWidth_s]

end Sys2Proof.Machine
end

section
/-! Stores, atomics, counters and fences at issue (R135, R140, R142, R143, R146, R150, R151, R267): each one that its checks pass, and each outcome
of a CWAIT's look. -/

namespace Sys2Proof.Machine

/-! Stores and atomics that pass their checks. -/

section
variable {s : State} {m : MemArgs} (ha : s.memAddr m % wopBytes m.w = 0)
include ha

theorem State.store_of_passes {sp : Nat} {h : Home} (hr : s.resolve s.cur.1 sp (s.memAddr m) (wopBytes m.w) false true = .ok h) :
    s.store sp m = (s.push { s.fresh .store sp (s.memAddr m) (wopBytes m.w) with
      wop := m.w, ord := m.ord, data := s.storeData m, home := some h }).advance := by
  rw [State.store, if_neg (by simp [aligned_of ha]), hr]

theorem State.storeRemote_of_passes {dst off : Nat} (hr : s.resolve s.cur.1 2 (s.memAddr m) (wopBytes m.w) false true = .ok (.tile dst off)) :
    s.storeRemote m = ((s.push { s.fresh .store 2 (s.memAddr m) (wopBytes m.w) with
        wop := m.w, ord := m.ord, data := s.storeData m, home := some (.tile dst off) }).enqueueRemote dst (isRel m.ord)
      (s.storeFlits dst off (wopBytes m.w) (isRel m.ord) (s.storeData m)) s.myTile.nextAcc).advance := by
  rw [State.storeRemote, if_neg (by simp [aligned_of ha]), hr]
  rfl

end

section
variable {s : State} {m : AmoArgs} (ha : s.amoAddr m % amoBytes m = 0)
include ha

theorem State.atomic_of_return {sp : Nat} (hr : s.rangeOk s.cur.1 sp (s.amoAddr m) (amoBytes m) = true) (hd : m.data ≠ 0) :
    s.atomic sp m = (s.push (s.amoAccess sp m)).advance := by
  rw [State.atomic, if_neg (by simp [aligned_of ha]), if_neg (by simp [hr]), if_pos hd]

theorem State.atomic_of_posted {sp : Nat} {h : Home} (hr : s.rangeOk s.cur.1 sp (s.amoAddr m) (amoBytes m) = true) (hd : m.data = 0)
    (hh : s.resolve s.cur.1 sp (s.amoAddr m) (amoBytes m) true true = .ok h) (hp : s.poisonHome h (amoBytes m) = false) :
    s.atomic sp m = (s.push { s.amoAccess sp m with home := some h }).advance := by
  rw [State.atomic, if_neg (by simp [aligned_of ha]), if_neg (by simp [hr]), if_neg (by simp [hd]), hh]
  exact if_neg (by simp [hp])

theorem State.atomicRemote_of_passes {dst off : Nat} (hh : s.resolve s.cur.1 2 (s.amoAddr m) (amoBytes m) true true = .ok (.tile dst off))
    (hp : m.data = 0 → s.poisonHome (.tile dst off) (amoBytes m) = false) :
    s.atomicRemote m = ((s.push { s.amoAccess 2 m with home := some (.tile dst off) }).enqueueRemote dst (isRel m.ord)
      (s.amoFlits dst off m { s.amoAccess 2 m with home := some (.tile dst off) }) s.myTile.nextAcc).advance := by
  rw [State.atomicRemote, if_neg (by simp [aligned_of ha]), hh]
  exact if_neg fun e => by simp_all

end

/-- Settles O14. -/
theorem storesAndAtomicsIssue : Obligations.StoresAndAtomicsIssue := by
  unfold Obligations.StoresAndAtomicsIssue
  refine ⟨fun s m h dst off ha => ⟨fun sp i hi hr => ?_, fun hr => ?_⟩,
    fun s m h dst off ha => ⟨fun sp i hi hr hd => ?_, fun sp i hi hr hd hh hp => ?_, fun hh hp => ?_⟩⟩
  · rw [exec_of_mem_storesOf hi, State.store_of_passes ha hr]
  · rw [exec_stx, execStx, State.storeRemote_of_passes ha hr]
  · rw [exec_of_mem_atomicsOf hi, State.atomic_of_return ha hr hd]
  · rw [exec_of_mem_atomicsOf hi, State.atomic_of_posted ha hr hd hh hp]
  · rw [exec_amox, execAmox, State.atomicRemote_of_passes ha hh hp]

/-! Counters and fences. -/

theorem State.cadd_of_passes {s : State} {loc : Bool} {d a n : Nat} {h : Home} (ha : a % 16 = 0)
    (hr : s.resolve s.cur.1 (ctrSpace loc) a 16 true true = .ok h) (hp : s.poisonHome h 16 = false) :
    s.cadd loc d a n = (s.push { s.fresh .cadd (ctrSpace loc) a 16 with
      data := n, dst := if d = 0 then .none else .x d, home := some h }).advance := by
  rw [State.cadd, if_neg (by simp [aligned_of ha]), hr]
  exact if_neg (by simp [hp])

/-- A look at a record that may be read and carries no poison compares VALUE with the target. -/
theorem State.clook_of_read {s : State} {t c addr target : Nat} {loc : Bool} {g : Home} (h : s.resolve t (ctrSpace loc) addr 16 true false = .ok g)
    (hm : (s.ctx t c).mayRead (ctrSpace loc) addr 16 = true) (hp : s.poisonRead g 16 = false) :
    s.clook t c loc addr target
      = if target ≤ s.readHome g 16 % 2 ^ 64 then .done (s.readHome g 16 / 2 ^ 64 % 2 ^ 64) else .wait := by
  simp [State.clook, h, hm, hp, bits]

theorem exec_cread_of_passes {s : State} {loc : Bool} {d a : Nat} (ha : s.nx a % 16 = 0)
    (hr : s.rangeOk s.cur.1 (ctrSpace loc) (s.nx a) 16 = true) :
    exec (.cread loc d a) s = .next ((s.push { s.fresh .cread (ctrSpace loc) (s.nx a) 16 with dst := .x d }).advance) := by
  rw [exec_cread, execCread, if_neg (by simp [aligned_of ha]), if_neg (by simp [hr])]

section
variable {s : State} {loc : Bool} {d a b : Nat} (hs : s.Spared) (ha : s.nx a % 16 = 0)
include hs ha

/-- A CWAIT that finds its target reached. -/
theorem exec_cwait_of_done {st : Nat} (hl : s.clook s.cur.1 s.cur.2 loc (s.nx a) (s.nx b) = .done st) :
    exec (.cwait loc d a b) s = .next ((s.lookEnds s.cur.1 loc (s.nx a)).setX d (BitVec.ofNat 64 st)).advance := by
  rw [exec_cwait, execCwait, State.waitPoint_of_spared hs, if_neg (by simp [aligned_of ha]), hl]

/-- A CWAIT that finds it not reached yet, or may not read yet, waits. -/
theorem exec_cwait_of_wait (hl : s.clook s.cur.1 s.cur.2 loc (s.nx a) (s.nx b) = .wait) :
    exec (.cwait loc d a b) s = .next (s.modMe fun c => { c with wait := some (.cwait loc d (s.nx a) (s.nx b)) }) := by
  rw [exec_cwait, execCwait, State.waitPoint_of_spared hs, if_neg (by simp [aligned_of ha]), hl]

end

/-- A fence of no system scope takes its place among the outstanding accesses. -/
theorem exec_fence_of_ne_system {sc : Scope} (h : sc ≠ .system) (k : FenceKind) (s : State) :
    exec (.fence sc k) s = .next (((s.push (s.fresh (.fence sc k) 8 0 0)).modMe Ctx.trim).advance) := by
  rw [exec_fence, execFence, if_neg (by simpa using h)]

/-- The accesses of the issuing context behind one that joins them. -/
theorem State.me_push (s : State) (a : Access) : (s.push a).me = { s.me with outs := s.me.outs ++ [a] } := by
  have hc : (s.modMyTile fun tl => { tl with nextAcc := tl.nextAcc + 1 }).me = s.me := by
    simp only [State.me, State.ctx, State.modMyTile, State.tile_modTile, State.cur_modTile, Tile.ctx]
  rw [State.push, State.me_modMe, hc]

/-- Settles O20: each instruction by its checks, a CWAIT by what it sees of its record, a fence by the accesses before it. -/
theorem counterInstructionsAndFencesIssue : Obligations.CounterInstructionsAndFencesIssue := by
  unfold Obligations.CounterInstructionsAndFencesIssue
  refine ⟨fun s loc d a b h ha => ⟨fun hr hp => ?_, exec_cread_of_passes ha, fun ht hc => ?_,
      fun hs hr hm hp => ⟨fun hv => ⟨s.lookEnds s.cur.1 loc (s.nx a), ?_, fun e => if_pos e, ?_⟩, fun hv => ?_⟩⟩,
    fun s sc k => ⟨fun hsc => exec_fence_of_ne_system hsc k s, rfl, fun hsc ho => ⟨_, exec_fence_of_ne_system hsc k s, ?_, ?_⟩⟩⟩
  · rw [exec_cadd, execCadd, State.cadd_of_passes ha hr hp]
  · rw [exec_cwait, execCwait, State.waitPoint_of_condemned ht hc]
  · exact (s.edgeStep_lookEnds ..).only
  · exact exec_cwait_of_done hs ha ((State.clook_of_read hr hm hp).trans (if_pos hv))
  · exact exec_cwait_of_wait hs ha ((State.clook_of_read hr hm hp).trans (if_neg (Nat.not_le.2 hv)))
  · rw [State.advance, State.setPc, State.me_modMe, State.me_modMe, State.me_push, ho]
    rfl
  · rw [State.pc_advance, State.pc, State.me_modMe, State.me_push]
    rfl

end Sys2Proof.Machine
end

section
/-! What an access that issues changes (R133, R135, R143, R146, R150): the outstanding accesses of its context, the number of the next access, and
the remote queue. -/

namespace Sys2Proof.Machine

/-- Of the machine only the issuing tile differs, of it only the number of the next access, the remote queue and the issuing context, and of this
only its outstanding accesses. -/
structure State.Issues (s t : State) : Prop where
  state : t = { s with tiles := t.tiles }
  others : ∀ u, u ≠ s.cur.1 → t.tile u = s.tile u
  tile : t.tile s.cur.1
    = { s.tile s.cur.1 with nextAcc := (t.tile s.cur.1).nextAcc, remoteQ := (t.tile s.cur.1).remoteQ, ctxs := (t.tile s.cur.1).ctxs }
  ctxs : ∀ c, c ≠ s.cur.2 → t.ctx s.cur.1 c = s.ctx s.cur.1 c
  me : t.me = { s.me with outs := t.me.outs }

theorem State.Issues.refl (s : State) : s.Issues s := ⟨rfl, fun _ _ => rfl, rfl, fun _ _ => rfl, rfl⟩

section
variable {s u : State} (h : s.Issues u)
include h

theorem State.Issues.cur : u.cur = s.cur := by rw [h.state]

theorem State.Issues.trans {v : State} (k : u.Issues v) : s.Issues v := by
  have hc := h.cur
  obtain ⟨kst, ko, kt, kc, km⟩ := k
  rw [hc] at ko kt kc
  refine ⟨?_, fun x hx => (ko x hx).trans (h.others x hx), ?_, fun c hn => (kc c hn).trans (h.ctxs c hn), ?_⟩
  · rw [kst, h.state]
  · rw [kt, h.tile]
  · rw [km, h.me]

/-- An update of the issuing context's accesses. -/
theorem State.Issues.modMe {f : Ctx → Ctx} (hf : ∀ c : Ctx, f c = { c with outs := (f c).outs }) : s.Issues (u.modMe f) := by
  refine h.trans ⟨rfl, fun x hx => u.tile_modTile_ne hx _, ?_, fun c hc => ?_, ?_⟩
  · rw [State.modMe, State.modCtx, State.tile_modTile]
    rfl
  · exact State.ctx_modCtx_ne u (.inr hc) f
  · rw [State.me_modMe, ← hf]

/-- An update of the issuing tile beside its contexts. -/
theorem State.Issues.modMyTile {f : Tile → Tile} (hf : ∀ tl : Tile, f tl = { tl with nextAcc := (f tl).nextAcc, remoteQ := (f tl).remoteQ }) :
    s.Issues (u.modMyTile f) := by
  have hc : ∀ c, (u.modMyTile f).ctx u.cur.1 c = u.ctx u.cur.1 c := fun c => by
    rw [State.modMyTile, State.ctx, State.tile_modTile, hf]
    rfl
  refine h.trans ⟨rfl, fun x hx => u.tile_modTile_ne hx f, ?_, fun c _ => hc c, ?_⟩
  · rw [State.modMyTile, State.tile_modTile, hf]
  · have hm : (u.modMyTile f).me = u.me := hc _
    rw [hm]

theorem State.Issues.push (a : Access) : s.Issues (u.push a) :=
  (h.modMyTile (f := fun tl => { tl with nextAcc := tl.nextAcc + 1 }) fun _ => rfl).modMe fun _ => rfl

theorem State.Issues.enqueueRemote (dst : Nat) (rel : Bool) (l : List Flit) (acc : Nat) : s.Issues (u.enqueueRemote dst rel l acc) :=
  h.modMyTile fun _ => rfl

/-! What stays. -/

/-- A part of a tile that no issue touches. -/
theorem State.Issues.part {α : Type} (p : Tile → α)
    (hp : ∀ (tl : Tile) n q c, p { tl with nextAcc := n, remoteQ := q, ctxs := c } = p tl) (k : Nat) : p (u.tile k) = p (s.tile k) := by
  by_cases hk : k = s.cur.1
  · rw [hk, h.tile, hp]
  · rw [h.others k hk]

theorem State.Issues.sameMemory : s.SameMemory u := by
  have hs : ∀ k, (u.tile k).store = (s.tile k).store := h.part _ fun _ _ _ _ => rfl
  have ha : ∀ k, (u.tile k).acc = (s.tile k).acc := h.part _ fun _ _ _ _ => rfl
  intro g
  cases g with
  | tile k a => simp only [State.readHome, State.homeStore, hs]
  | acc k a => simp only [State.readHome, State.homeStore, Store.read, ha]
  | _ => rw [h.state]; rfl

theorem State.Issues.pc : u.pc = s.pc := by rw [State.pc, h.me, State.pc]

theorem State.Issues.special (k : Nat) : u.special k = s.special k := by
  have hc := h.cur
  have hd : u.dies = s.dies := by rw [h.state]
  have hl : u.launches = s.launches := by rw [h.state]
  have hp : u.parts = s.parts := by rw [h.state]
  have hlid := h.part Tile.lid fun _ _ _ _ => rfl
  have hold := h.part Tile.wrOld fun _ _ _ _ => rfl
  have hm : ∀ {α : Type} (p : Tile → α), (∀ (tl : Tile) n q c, p { tl with nextAcc := n, remoteQ := q, ctxs := c } = p tl) → p u.myTile = p s.myTile :=
    fun p hp => by rw [State.myTile, hc, h.part p hp, State.myTile]
  exact State.special_congr hc hd (by rw [State.myPart, hc, State.partId_congr hlid hp hl, State.myPart])
    (State.throttle_congr hlid (h.part Tile.allot fun _ _ _ _ => rfl) hp hl hd _) (hm _ fun _ _ _ _ => rfl) (hm _ fun _ _ _ _ => rfl)
    (hm _ fun _ _ _ _ => rfl) (hm _ fun _ _ _ _ => rfl) (by rw [h.me]; rfl) (by rw [h.me])
    (fun _ => State.trapBaseOf_congr hd (hold _) (h.part Tile.trapBase (fun _ _ _ _ => rfl) _) _)
    (fun _ => by rw [h.me]) (fun _ => by rw [h.me]) (fun _ => by rw [h.me]) (fun _ => by rw [h.me]) (fun _ => by rw [h.me])
    (fun _ => State.budgetOf_congr hd (hold _) (h.part Tile.budget (fun _ _ _ _ => rfl) _) _) (fun _ => by rw [h.me]) (fun _ => by rw [h.me])

/-- The frame of an access that issues, whose instruction the pc then leaves. -/
theorem State.Issues.advance_frame : s.SameRegisters u.advance ∧ s.SameMemory u.advance ∧ s.OnlyMyTile u.advance ∧ u.advance.pc = s.pc + 8 := by
  have k : u.Frame u.advance noReg noReg noReg noReg false := State.frame_advance
  have hc := h.cur
  have hm : ∀ {α : Type} (p : Ctx → α), (∀ (c : Ctx) l, p { c with outs := l } = p c) → p u.me = p s.me := fun p hp => by rw [h.me, hp]
  refine ⟨⟨fun r => ⟨(k.x r id).trans ?_, (k.f r id).trans ?_, (k.b r id).trans ?_, (k.p r id).trans ?_⟩,
      fun n hn => (k.specials n hn).trans (h.special n)⟩, h.sameMemory.trans k.memory, ⟨?_, fun x hx => ?_, fun c hn => ?_⟩, ?_⟩
  · exact hm (Ctx.getX · r) fun _ _ => rfl
  · exact hm (Ctx.getF · r) fun _ _ => rfl
  · exact hm (Ctx.getB · r) fun _ _ => rfl
  · exact hm (Ctx.getP · r) fun _ _ => rfl
  · have ha : u.advance = { u with tiles := u.advance.tiles } := rfl
    rw [ha, h.state]
  · have ha : u.advance.tile x = u.tile x := u.tile_modTile_ne (by rwa [hc]) _
    rw [ha, h.others x hx]
  · have ha : u.advance.ctx u.cur.1 c = u.ctx u.cur.1 c := State.ctx_modCtx_ne u (.inr (by rwa [hc])) _
    rw [← h.ctxs c hn, ← hc, ha]
  · rw [State.pc_advance, h.pc]

end

/-! The instructions: each one traps or issues. -/

/-- A trap has been entered, or an access has issued and the pc has moved on. -/
def State.TrapsOrIssues (s t : State) : Prop := t.me.trap = true ∨ ∃ u, s.Issues u ∧ t = u.advance

section
variable {s : State}

theorem State.TrapsOrIssues.ite {t u : State} {c : Prop} [Decidable c] (h : s.TrapsOrIssues t) (k : s.TrapsOrIssues u) :
    s.TrapsOrIssues (if c then t else u) := by
  split
  · exact h
  · exact k

theorem State.trapsOrIssues_push (a : Access) : s.TrapsOrIssues (s.push a).advance := .inr ⟨_, (Issues.refl s).push a, rfl⟩

theorem State.trapsOrIssues_remote (a : Access) (dst : Nat) (rel : Bool) (l : List Flit) (acc : Nat) :
    s.TrapsOrIssues ((s.push a).enqueueRemote dst rel l acc).advance := .inr ⟨_, ((Issues.refl s).push a).enqueueRemote .., rfl⟩

theorem State.trapsOrIssues_fence (sc : Scope) (k : FenceKind) : ∃ t, execFence sc k s = .next t ∧ s.TrapsOrIssues t := by
  have hz : s.Issues (if sc == .system then s.push (s.fresh .zread 4 0 0) else s) := by
    split
    · exact (Issues.refl s).push _
    · exact .refl s
  exact ⟨_, rfl, .inr ⟨_, (hz.push _).modMe fun _ => rfl, rfl⟩⟩

variable (hc : s.CanTrap)
include hc

theorem State.trapsOrIssues_missed (cause addr aux va c : Nat) (rd wr : Bool) :
    s.TrapsOrIssues ((s.missed c va rd wr).trapNow cause addr aux) := by
  refine .inl ?_
  rw [((State.EdgeStep.refl s).missed c va rd wr).trapNow hc, State.entered, State.me_modMe]

theorem State.trapsOrIssues_trapNow (cause addr aux : Nat) : s.TrapsOrIssues (s.trapNow cause addr aux) := by
  refine .inl ?_
  rw [State.trapNow_of_canTrap _ _ _ hc, State.entered, State.me_modMe]

theorem State.trapsOrIssues_load (sp : Nat) (m : MemArgs) : s.TrapsOrIssues (s.load sp m) :=
  .ite (trapsOrIssues_trapNow hc ..) (.ite (trapsOrIssues_trapNow hc ..) (trapsOrIssues_push _))

theorem State.trapsOrIssues_store (sp : Nat) (m : MemArgs) : s.TrapsOrIssues (s.store sp m) := by
  refine .ite (trapsOrIssues_trapNow hc ..) ?_
  split
  · exact trapsOrIssues_missed hc ..
  · exact trapsOrIssues_push _

theorem State.trapsOrIssues_storeRemote (m : MemArgs) : s.TrapsOrIssues (s.storeRemote m) := by
  refine .ite (trapsOrIssues_trapNow hc ..) ?_
  split
  · exact trapsOrIssues_trapNow hc ..
  · exact trapsOrIssues_remote ..
  · exact trapsOrIssues_trapNow hc ..

theorem State.trapsOrIssues_atomic (sp : Nat) (m : AmoArgs) : s.TrapsOrIssues (s.atomic sp m) := by
  refine .ite (trapsOrIssues_trapNow hc ..) (.ite (trapsOrIssues_trapNow hc ..) (.ite (trapsOrIssues_push _) ?_))
  split
  · exact trapsOrIssues_missed hc ..
  · exact .ite (trapsOrIssues_trapNow hc ..) (trapsOrIssues_push _)

theorem State.trapsOrIssues_atomicRemote (m : AmoArgs) : s.TrapsOrIssues (s.atomicRemote m) := by
  refine .ite (trapsOrIssues_trapNow hc ..) ?_
  split
  · exact trapsOrIssues_trapNow hc ..
  · exact .ite (trapsOrIssues_trapNow hc ..) (trapsOrIssues_remote ..)
  · exact trapsOrIssues_trapNow hc ..

theorem State.trapsOrIssues_cadd (loc : Bool) (d a n : Nat) : s.TrapsOrIssues (s.cadd loc d a n) := by
  refine .ite (trapsOrIssues_trapNow hc ..) ?_
  split
  · exact trapsOrIssues_missed hc ..
  · exact .ite (trapsOrIssues_trapNow hc ..) (trapsOrIssues_push _)

/-- An instruction that checks alignment and range and then issues. -/
theorem State.trapsOrIssues_checked {c d : Prop} [Decidable c] [Decidable d] {f g : Nat × Nat × Nat} {a : Access} {t : State}
    (h : (if c then Host.Outcome.next (s.trapNow f.1 f.2.1 f.2.2) else if d then .next (s.trapNow g.1 g.2.1 g.2.2) else .next (s.push a).advance)
      = (Host.Outcome.next t : Out)) : s.TrapsOrIssues t := by
  split at h
  · exact Host.Outcome.next.inj h ▸ trapsOrIssues_trapNow hc ..
  · split at h
    · exact Host.Outcome.next.inj h ▸ trapsOrIssues_trapNow hc ..
    · exact Host.Outcome.next.inj h ▸ trapsOrIssues_push a

theorem State.trapsOrIssues_gquery {d g : Nat} {t : State} (h : execGquery d g s = .next t) : s.TrapsOrIssues t := by
  unfold execGquery at h
  split at h
  · exact Host.Outcome.next.inj h ▸ trapsOrIssues_trapNow hc ..
  · exact Host.Outcome.next.inj h ▸ trapsOrIssues_push _

theorem State.trapsOrIssues_exec {i : Instr} {t : State} (hi : issuesAccess i = true) (h : exec i s = .next t) : s.TrapsOrIssues t := by
  cases i with
  | ldg | ldl | lda | lds | ldh => exact Host.Outcome.next.inj h ▸ trapsOrIssues_load hc ..
  | stg | stl | sta | sts | sth => exact Host.Outcome.next.inj h ▸ trapsOrIssues_store hc ..
  | stx => exact Host.Outcome.next.inj h ▸ trapsOrIssues_storeRemote hc _
  | amog | amol | amos => exact Host.Outcome.next.inj h ▸ trapsOrIssues_atomic hc ..
  | amox => exact Host.Outcome.next.inj h ▸ trapsOrIssues_atomicRemote hc _
  | cadd => exact Host.Outcome.next.inj h ▸ trapsOrIssues_cadd hc ..
  | cread loc d a => exact trapsOrIssues_checked hc (f := (0x05, s.nx a, 0)) (g := (0x04, s.nx a, 0)) h
  | patld sp pd xs => exact trapsOrIssues_checked hc (f := (0x05, s.nx xs, 0)) (g := (0x04, s.nx xs, 0)) h
  | gquery => exact trapsOrIssues_gquery hc h
  | mtrd => exact Host.Outcome.next.inj h ▸ trapsOrIssues_push _
  | fence sc k =>
    obtain ⟨u, hu, k⟩ := s.trapsOrIssues_fence sc k
    exact Host.Outcome.next.inj (hu.symm.trans h) ▸ k
  | _ => cases hi

end

/-- Settles O16: an access that does not trap issues, and issuing has its frame. -/
theorem issuingAnAccessChangesNoRegisterAndNoByte : Obligations.IssuingAnAccessChangesNoRegisterAndNoByte := by
  unfold Obligations.IssuingAnAccessChangesNoRegisterAndNoByte
  intro i s t hi hc h ht
  rcases State.trapsOrIssues_exec hc hi h with htrap | ⟨u, hu, rfl⟩
  · exact absurd (htrap.symm.trans ht) (by simp)
  · exact hu.advance_frame

end Sys2Proof.Machine
end

section
/-! An atomic whose reading touches the list of partitions (R302, R367, R381): the state of the refuted CREAD, with an atomic add in the CREAD's
place. The atomic's home is partition 1's; the answer's way between dies is metered at partition 1, whose entry then stands behind partition 0's in
the list, and the atomic is performed as one of partition 0. -/

namespace Sys2Proof.Machine

/-- An atomic add with a register for the old value. -/
def farAmo : Access := { farRead with kind := .amo, size := 8 }

def unorderedPartsAmo : State := unorderedParts.modCtx 0 0 fun c => { c with outs := [farAmo] }

/-- The home is partition 1's, and it carries no poison. -/
theorem home_unorderedPartsAmo :
    unorderedPartsAmo.homeOf 0 farAmo = some (.dev 0x1000001000) ∧ unorderedPartsAmo.poisonHome (.dev 0x1000001000) 8 = false := by
  decide +kernel

/-- Performed behind the message, the atomic finds no page of partition 0. -/
theorem exec_unorderedPartsAmo : ∃ w, exec (.memoryAccessAtHome 0 0 4 false) unorderedPartsAmo = .next w
    ∧ (w.ctx 0 0).outs.find? (fun b => b.id == 4) = some { farAmo with st := .faulted 0x06 0x1000 0 } :=
  ⟨_, rfl, by decide +kernel⟩

/-- Refutes O19: where a tile without a launch is held by two entries of an unordered list of partitions, an atomic on partition 1's memory, at a home
without poison, is performed as partition 0's and ends with a translation fault. -/
theorem not_atomicsReadAndWriteInOneStep : ¬ Obligations.AtomicsReadAndWriteInOneStep := by
  unfold Obligations.AtomicsReadAndWriteInOneStep
  intro h
  have hf : (unorderedPartsAmo.ctx 0 0).outs.find? (fun b => b.id == 4) = some farAmo := by decide
  obtain ⟨-, hhomes⟩ := h unorderedPartsAmo 0 0 4 false farAmo 8 hf rfl rfl (by decide) (.inr rfl) rfl (by decide) (by decide)
  obtain ⟨hhome, hpoison⟩ := home_unorderedPartsAmo
  obtain ⟨hupdated, -⟩ := hhomes _ (by decide) hhome rfl rfl rfl (by decide) (fun _ _ e he => by cases he) (by decide)
  obtain ⟨u, hu, -, hperformed⟩ := hupdated (.inl (by decide)) hpoison
  obtain ⟨w, hw, hfault⟩ := exec_unorderedPartsAmo
  rw [hw] at hu
  obtain rfl : w = u := Host.Outcome.next.inj hu
  cases hfault.symm.trans (hperformed (by decide))

end Sys2Proof.Machine
end

section
/-! Remote stores and atomics at their destination, and their answers (R131, R139 to R144, R355): a request leaves the intake, its bytes are written,
and of memory nothing else changes. -/

namespace Sys2Proof.Machine

/-! Requests that leave the intake. -/

/-- A tile's intake apart, nothing differs. -/
def Tile.IntakeOnly (a b : Tile) : Prop := b = { a with intake := b.intake }

theorem Tile.IntakeOnly.part {a b : Tile} {α : Type} (h : a.IntakeOnly b) (p : Tile → α) (hp : ∀ (tl : Tile) i, p { tl with intake := i } = p tl) :
    p b = p a := (congrArg p h).trans (hp a _)

/-- A remote atomic that is not posted, or whose tag no cancel covers, is not dropped, whatever else waits in the intake. -/
theorem Tile.IntakeOnly.not_drops {a b : Tile} (h : a.IntakeOnly b) {f : Flit}
    (hc : bit f.payload 83 = true ∨ a.coversTag (bits f.payload 80 65) = false) :
    ¬ (!bit f.payload 83 && b.coversTag (bits f.payload 80 65)) = true := by
  rw [h.part (Tile.coversTag · _) fun _ _ => rfl]
  rcases hc with hc | hc <;> simp [hc]

theorem State.takeRequest_tile {s : State} {t : Nat} {p : Flit → Bool} {l : List Flit} {tl : Tile} (h : s.takeRequest t p = some (l, tl)) :
    (s.tile t).IntakeOnly tl := by
  unfold State.takeRequest at h
  dsimp only at h
  split at h
  · cases h
  · cases h
    rfl

theorem Tile.takeIntake_tile {a b : Tile} {p : Flit → Bool} {f : Flit} (h : a.takeIntake p = some (f, b)) : a.IntakeOnly b := by
  obtain ⟨i, rfl⟩ := Tile.takeIntake_eq h
  rfl

/-- What a tile takes in, or works off, changes no byte and no poison. -/
theorem State.sameStores_intake {s : State} {t : Nat} {tl : Tile} (h : (s.tile t).IntakeOnly tl) : s.SameStores (s.modTile t fun _ => tl) := by
  have ht : ∀ k, (s.tile k).IntakeOnly ((s.modTile t fun _ => tl).tile k) := fun k => by
    by_cases hk : k = t
    · subst hk
      rwa [State.tile_modTile]
    · rw [State.tile_modTile_ne s hk]
      rfl
  intro g
  cases g with
  | tile k a => exact congrArg (·, a) ((ht k).part Tile.store fun _ _ => rfl)
  | acc k a => exact congrArg (·, a) ((ht k).part (fun tl => (⟨tl.acc, tl.accPoison⟩ : Store)) fun _ _ => rfl)
  | _ => rfl

theorem State.keeps_intake {s : State} {t : Nat} {tl : Tile} (h : (s.tile t).IntakeOnly tl) : s.KeepsBytes (s.modTile t fun _ => tl) :=
  ⟨(State.sameStores_intake h).sameMemory, id⟩

/-! What an answered request leaves alone. -/

theorem State.sameMemory_remoteDone (s : State) (f : Flit) (st : ASt) : s.SameMemory (s.remoteDone f st) := by
  unfold State.remoteDone
  split
  · exact .refl s
  · exact .modCtx _ _ _ _

theorem State.sameMemory_answer (s : State) (t : Nat) (f : Flit) (rtype data : Nat) : s.SameMemory (s.answer t f rtype data) := by
  obtain ⟨g, hg, -⟩ := s.sendFlit_eq t f.stile { s.flit t f.stile 3 0 (4 * 2 ^ 124 + rtype * 2 ^ 120 + data) with seq := f.seq }
  rw [State.answer, hg]
  exact .modTile _ _ _ (fun _ => rfl) fun _ => rfl

theorem State.sameMemory_done_answer (s : State) (t : Nat) (f : Flit) (st : ASt) (rtype data : Nat) :
    s.SameMemory ((s.remoteDone f st).answer t f rtype data) := (s.sameMemory_remoteDone f st).trans (State.sameMemory_answer _ _ _ _ _)

theorem State.sameMemory_countDrop (s : State) (die p tag : Nat) : s.SameMemory (s.countDrop die p tag) := by
  unfold State.countDrop
  split
  · exact s.sameMemory_cancels _
  · exact .refl s

theorem State.noteHalf_eq (s : State) (f : Flit) : s.noteHalf f = s ∨ ∃ t c g, s.noteHalf f = s.modCtx t c g := by
  unfold State.noteHalf
  split
  · exact .inl rfl
  · exact .inr ⟨_, _, _, rfl⟩

theorem State.sameMemory_noteHalf (s : State) (f : Flit) : s.SameMemory (s.noteHalf f) := by
  rcases s.noteHalf_eq f with e | ⟨t, c, g, e⟩ <;> rw [e]
  · exact .refl s
  · exact .modCtx _ _ _ _

theorem State.intake_noteHalf (s : State) (f : Flit) (k : Nat) : ((s.noteHalf f).tile k).intake = (s.tile k).intake := by
  rcases s.noteHalf_eq f with e | ⟨t, c, g, e⟩ <;> rw [e]
  exact State.intake_tile_modCtx ..

theorem State.plain_tile (s : State) (t off : Nat) : s.Plain (.tile t off) := ⟨rfl, rfl, fun _ e => nomatch e⟩

/-! Remote stores. -/

/-- A flit that passes its check is written. -/
theorem State.storeFlit_of_good {f : Flit} (hb : f.bad = false) (s : State) (t : Nat) :
    s.storeFlit t f = s.writeHome (.tile t (bits f.payload 120 99)) (2 ^ bits f.payload 123 122)
      (bits f.payload 63 0 % 2 ^ (8 * 2 ^ bits f.payload 123 122)) := if_neg (by simp [hb])

section
variable {s : State} {t : Nat} {f : Flit} (hb : f.bad = false)
include hb

/-- The flit of a store is written where its request has left the intake. -/
theorem State.wrote_storeFlit {tl : Tile} (h : (s.tile t).IntakeOnly tl) : s.Wrote ((s.modTile t fun _ => tl).storeFlit t f)
    (.tile t (bits f.payload 120 99)) (2 ^ bits f.payload 123 122)
      (bits f.payload 63 0 % 2 ^ (8 * 2 ^ bits f.payload 123 122)) := by
  rw [State.storeFlit_of_good hb]
  exact .of_keeps (State.keeps_intake h) ((State.plain_tile _ _ _).wrote _ _)

theorem State.intake_storeFlit (s : State) (k : Nat) : ((s.storeFlit t f).tile k).intake = (s.tile k).intake := by
  rw [State.storeFlit_of_good hb, State.bytesOnly_writeHome s _ _ _ k]

variable {l : List Flit} {tl : Tile} (ht : s.takeRequest t (fun f => f.isClass 0) = some (l, tl)) (hr : (s.tile t).room 1 = true)
include ht hr

/-- A store of one flit, or the last half of one of two. -/
theorem exec_remoteStoreApply_one (hl : l = [f]) : ∃ u, exec (.remoteStoreApply t) s = .next u
    ∧ s.Wrote u (.tile t (bits f.payload 120 99)) (2 ^ bits f.payload 123 122) (bits f.payload 63 0 % 2 ^ (8 * 2 ^ bits f.payload 123 122)) := by
  have htl := State.takeRequest_tile ht
  subst hl
  rw [exec_remoteStoreApply, execRemoteStoreApply, if_neg (by simp [hr]), ht]
  refine ⟨_, rfl, State.Wrote.sameMemory ?_ (State.sameMemory_done_answer _ _ _ _ _ _)⟩
  have hw := State.wrote_storeFlit hb htl
  split
  · exact hw.sameMemory ((State.plain_tile _ _ _).wrote 16 _).sameMemory_of_read
  · exact hw

/-- The first half of a store of two flits. -/
theorem exec_remoteStoreApply_half {a b : Flit} (hl : l = [a, b]) (hf : f = if Config.partFirst s.free % 2 = 0 then a else b) :
    ∃ u, exec (.remoteStoreApply t) s = .next u
      ∧ s.Wrote u (.tile t (bits f.payload 120 99)) (2 ^ bits f.payload 123 122) (bits f.payload 63 0 % 2 ^ (8 * 2 ^ bits f.payload 123 122))
      ∧ (u.tile t).intake = removeFirst (fun x => x == f) (s.tile t).intake := by
  subst hl
  rw [exec_remoteStoreApply, execRemoteStoreApply, if_neg (by simp [hr]), ht]
  dsimp only
  rw [← hf]
  refine ⟨_, rfl, ?_, ?_⟩
  · have hw := State.wrote_storeFlit (s := s) (t := t) hb (tl := { s.tile t with intake := removeFirst (fun x => x == f) (s.tile t).intake }) rfl
    exact hw.sameMemory ((State.sameMemory_noteHalf _ f).trans (State.KeepsBytes.refl _).nextFree.1)
  · refine (State.intake_noteHalf _ f t).trans ((State.intake_storeFlit hb _ t).trans ?_)
    rw [State.tile_modTile]

end

/-! Remote atomics. -/

section
variable {s : State} {t : Nat} {f : Flit} {tl : Tile} (ht : s.takeRequest t (fun f => f.isClass 1) = some ([f], tl)) (hr : (s.tile t).room 1 = true)
include ht hr

/-- A posted atomic of a cancelled scope is dropped. -/
theorem exec_remoteAtomicApply_dropped (hp : bit f.payload 83 = false) (hc : (s.tile t).coversTag (bits f.payload 80 65) = true) :
    ∃ u, exec (.remoteAtomicApply t) s = .next u ∧ s.SameMemory u := by
  have htl := State.takeRequest_tile ht
  rw [exec_remoteAtomicApply, execRemoteAtomicApply, if_neg (by simp [hr]), ht]
  have hd : (!bit f.payload 83 && tl.coversTag (bits f.payload 80 65)) = true := by
    rw [htl.part (Tile.coversTag · _) fun _ _ => rfl, hp, hc]
    rfl
  dsimp only [List.head?_cons]
  rw [if_pos hd]
  exact ⟨_, rfl, ((State.keeps_intake htl).1.trans (State.sameMemory_countDrop _ _ _ _)).trans (State.sameMemory_done_answer _ _ _ _ _ _)⟩

variable (hc : bit f.payload 83 = true ∨ (s.tile t).coversTag (bits f.payload 80 65) = false)
include hc

/-- One on poison, or with an operand that fails its check, changes nothing. -/
theorem exec_remoteAtomicApply_poisoned
    (hp : s.poisonHome (.tile t (bits f.payload 115 94)) (if bit f.payload 119 then 8 else 4) = true ∨ f.bad = true) :
    ∃ u, exec (.remoteAtomicApply t) s = .next u ∧ s.SameMemory u := by
  have htl := State.takeRequest_tile ht
  rw [exec_remoteAtomicApply, execRemoteAtomicApply, if_neg (by simp [hr]), ht]
  have hd := htl.not_drops hc
  dsimp only [List.head?_cons]
  rw [if_neg hd, (State.sameStores_intake htl).poisonHome, if_pos (by simpa using hp)]
  exact ⟨_, rfl, (State.keeps_intake htl).1.trans (State.sameMemory_done_answer _ _ _ _ _ _)⟩

/-- Any other one with its operand in one flit writes the new value. -/
theorem exec_remoteAtomicApply_performed {op : AmoOp} (ho : AmoOp.ofCode (bits f.payload 123 120) = some op) (hcas : op ≠ .cas)
    (h0 : bits f.payload 82 81 = 0) (hp : s.poisonHome (.tile t (bits f.payload 115 94)) (if bit f.payload 119 then 8 else 4) = false)
    (hb : f.bad = false) : let n := if bit f.payload 119 then 8 else 4
      let h := Home.tile t (bits f.payload 115 94)
      ∃ u, exec (.remoteAtomicApply t) s = .next u ∧ s.Wrote u h n (amoNew op n (s.readHome h n) (bits f.payload 63 0) 0) := by
  have htl := State.takeRequest_tile ht
  have hroom : ¬ (!(s.tile t).room 1) = true := by simp [hr]
  rw [exec_remoteAtomicApply, execRemoteAtomicApply, if_neg hroom, ht]
  have hd := htl.not_drops hc
  have hs := State.sameStores_intake htl
  have hg : ¬ (s.poisonHome (.tile t (bits f.payload 115 94)) (if bit f.payload 119 then 8 else 4) || [f].any Flit.bad) = true := by simp [hp, hb]
  dsimp only [List.head?_cons]
  rw [if_neg hd, hs.poisonHome, if_neg hg, hs.readHome, ho, Option.getD_some, if_neg hcas, List.find?_cons, h0]
  refine ⟨_, rfl, State.Wrote.sameMemory ?_ (State.sameMemory_done_answer _ _ _ _ _ _)⟩
  exact .of_keeps (State.keeps_intake htl) ((State.plain_tile _ _ _).wrote _ _)

end

/-! Acknowledgements. -/

/-- A die whose homes forget a request. -/
def Die.forget (request : Nat) (d : Die) : Die :=
  { d with applied := d.applied.map fun x => (x.1, x.2.filter fun k => k / 4 != request) }

theorem State.staging_freeTag (s : State) (t tag d : Nat) : ((s.freeTag t tag).die d).staging = (s.die d).staging := by
  have h : mfind d (s.freeTag t tag).dies = (mfind d s.dies).map (Die.forget (t * 4096 + tag)) := mfind_map_val (fun _ => Die.forget _) s.dies d
  rw [State.die, mget, h, State.die, mget]
  cases mfind d s.dies <;> rfl

/-- The tile of a request that is answered for good. -/
def Tile.forget (tag : Nat) (tl : Tile) : Tile := { tl with tags := mdel tag tl.tags, remoteQ := tl.remoteQ.filter fun r => r.sent != some tag }

theorem State.tiles_freeTag (s : State) (t tag : Nat) : (s.freeTag t tag).tiles = (s.modTile t (Tile.forget tag)).tiles := rfl

theorem State.sameMemory_freeTag (s : State) (t tag : Nat) : s.SameMemory (s.freeTag t tag) :=
  (State.SameMemory.modTile s t (Tile.forget tag) (fun _ => rfl) fun _ => rfl).trans (.of_fields rfl rfl (s.staging_freeTag t tag) rfl)

theorem State.tile_freeTag (s : State) (t tag : Nat) : (s.freeTag t tag).tile t = (s.tile t).forget tag := by
  rw [State.tile, State.tiles_freeTag]
  exact s.tile_modTile t _

/-- An acknowledgement frees its tag, and the place of its request in the remote queue. -/
theorem exec_acknowledgementReceipt_of_taken {s : State} {t : Nat} {f : Flit} {tl : Tile}
    (h : (s.tile t).takeIntake (fun f => f.isResponse 4 || (f.isResponse 3 && s.unwanted t f)) = some (f, tl)) :
    ∃ u, exec (.acknowledgementReceipt t) s = .next u ∧ s.SameMemory u ∧ mfind f.seq (u.tile t).tags = none ∧ (u.tile t).intake = tl.intake
      ∧ (u.tile t).remoteQ = (s.tile t).remoteQ.filter fun r => r.sent != some f.seq := by
  rw [exec_acknowledgementReceipt, execAcknowledgementReceipt, h]
  have htl := Tile.takeIntake_tile h
  refine ⟨_, rfl, (State.keeps_intake htl).1.trans (State.sameMemory_freeTag _ _ _), ?_⟩
  rw [State.tile_freeTag, State.tile_modTile]
  exact ⟨mfind_mdel_same .., rfl, htl.part (fun tl => (tl.forget f.seq).remoteQ) fun _ _ => rfl⟩

end Sys2Proof.Machine
end

section
/-! Gathering buffers and window updates (R353, R354, R356, R359): a flit in its window, a sender that learns BASE, the end of a stream, and poison
for a flit that stays missing. -/

namespace Sys2Proof.Machine

/-! What a gathering buffer does after a change. -/

/-- The buffer owes no update, its next beat is not complete, and its stream does not end at BASE. -/
structure GBuf.Waits (g : GBuf) : Prop where
  resync : g.resync = false
  beat : beatHere g.slots g.base = false

section
variable {s : State} {t port : Nat} {g : GBuf} (hg : mfind port (s.tile t).gbufs = some g) (hw : g.Waits)
include hg hw

theorem State.resyncGather_of_waits : s.resyncGather t port = s := by
  rw [State.resyncGather, hg]
  exact if_pos (by simp [hw.resync])

theorem State.releaseAll_of_waits (n : Nat) : s.releaseAll t port n = s := by
  have h : s.releaseOne t port = none := by
    unfold State.releaseOne
    dsimp only
    rw [hg]
    exact if_pos (by simp [hw.beat])
  cases n with
  | zero => rfl
  | succ n => rw [State.releaseAll, h]

/-- A buffer without a complete beat only has its sender to tell, and its end to take. -/
theorem State.settleGather_of_waits : s.settleGather t port =
    if ((s.tile t).gate != .open_ || !(s.tile t).room 1) = true then s
    else if g.endSeq = some g.base then (s.updateEdge t port g.base).modTile t fun tl => { tl with gbufs := mdel port tl.gbufs }
    else if 16 ≤ (g.base + 4096 - g.told) % 4096 then
      (s.updateEdge t port g.base).modTile t fun tl => { tl with gbufs := mput tl.gbufs port { g with told := g.base } }
    else s := by
  unfold State.settleGather
  rw [State.resyncGather_of_waits hg hw]
  simp only [State.releaseAll_of_waits hg hw, ite_self, hg, hw.resync, Bool.false_or]

/-- One whose sender has heard of its BASE, and whose stream goes on, stays as it is. -/
theorem State.settleGather_of_told (he : g.endSeq ≠ some g.base) (ht : (g.base + 4096 - g.told) % 4096 < 16) : s.settleGather t port = s := by
  rw [State.settleGather_of_waits hg hw, if_neg he, if_neg (Nat.not_le.2 ht), ite_self]

/-- One whose stream ends at BASE is freed. -/
theorem State.settleGather_of_end (he : g.endSeq = some g.base) (ho : (s.tile t).gate = .open_) (hr : (s.tile t).room 1 = true) :
    mfind port ((s.settleGather t port).tile t).gbufs = none := by
  rw [State.settleGather_of_waits hg hw, if_neg (by simp [ho, hr]), if_pos he, State.tile_modTile]
  exact mfind_mdel_same ..

end

/-! The router of a tile whose buffers go on. -/

/-- The router's counters of tile `t` are the same. -/
def State.SameRouter (s u : State) (t : Nat) : Prop := (u.tile t).router = (s.tile t).router

theorem State.SameRouter.modTile {s u : State} {t : Nat} {f : Tile → Tile} (h : s.SameRouter u t) (hf : ∀ tl, (f tl).router = tl.router) :
    s.SameRouter (u.modTile t f) t := by
  rw [State.SameRouter, State.tile_modTile, hf]
  exact h

theorem State.SameRouter.ite {s u v : State} {t : Nat} {c : Prop} [Decidable c] (hu : s.SameRouter u t) (hv : s.SameRouter v t) :
    s.SameRouter (if c then u else v) t := by
  split
  · exact hu
  · exact hv

theorem State.SameRouter.updateEdge {s u : State} {t : Nat} (h : s.SameRouter u t) (port sq : Nat) : s.SameRouter (u.updateEdge t port sq) t :=
  h.modTile fun _ => rfl

theorem State.sameRouter_releaseOne {s u : State} {t port : Nat} (h : s.releaseOne t port = some u) : s.SameRouter u t := by
  unfold State.releaseOne at h
  dsimp only at h
  split at h
  · cases h
  · split at h
    · cases h
    · split at h
      · exact Option.some.inj h ▸ State.SameRouter.modTile rfl fun _ => rfl
      · split at h
        · cases h
        · exact Option.some.inj h ▸ State.SameRouter.modTile rfl fun _ => rfl

theorem State.sameRouter_releaseAll (t port n : Nat) : ∀ s : State, s.SameRouter (s.releaseAll t port n) t := by
  induction n with
  | zero => exact fun _ => rfl
  | succ n ih =>
    intro s
    unfold State.releaseAll
    split
    · exact (ih _).trans (State.sameRouter_releaseOne ‹_›)
    · rfl

theorem State.sameRouter_resyncGather (s : State) (t port : Nat) : s.SameRouter (s.resyncGather t port) t := by
  unfold State.resyncGather
  split
  · rfl
  · split
    · rfl
    · exact (State.SameRouter.updateEdge rfl _ _).modTile fun _ => rfl

theorem State.sameRouter_settleGather (s : State) (t port : Nat) : s.SameRouter (s.settleGather t port) t := by
  unfold State.settleGather
  extract_lets u stay v
  have hu : s.SameRouter u t := s.sameRouter_resyncGather t port
  have hv : s.SameRouter v t := .ite hu ((u.sameRouter_releaseAll t port 17).trans hu)
  clear_value v
  split
  · exact hv
  · exact .ite hv (.ite ((hv.updateEdge _ _).modTile fun _ => rfl) (.ite ((hv.updateEdge _ _).modTile fun _ => rfl) hv))

/-! A stream's flit. -/

section
variable {s : State} {t : Nat} {f : Flit} {tl : Tile} {g : GBuf} (h : (s.tile t).takeIntake (fun f => f.kind == 2) = some (f, tl))
  (ht : mfind f.cls (s.tile t).trks = none) (hg : mfind f.cls (s.tile t).gbufs = some g)
include h ht hg

theorem exec_gatherFlitArrival_of_gather : exec (.gatherFlitArrival t) s = .next ((s.modTile t fun _ => tl).intoGather t f g) := by
  have htl := Tile.takeIntake_tile h
  have h1 : mfind f.cls tl.trks = none := (htl.part (fun x => mfind f.cls x.trks) fun _ _ => rfl).trans ht
  have h2 : mfind f.cls tl.gbufs = some g := (htl.part (fun x => mfind f.cls x.gbufs) fun _ _ => rfl).trans hg
  rw [exec_gatherFlitArrival, execGatherFlitArrival, h]
  dsimp only
  rw [h1, h2]

/-- A flit off its window is counted as malformed. -/
theorem exec_gatherFlitArrival_off (ho : offWindow g.slots g.base f.seq = true) : ∃ u, exec (.gatherFlitArrival t) s = .next u
    ∧ (u.tile t).gbufs = (s.tile t).gbufs ∧ (u.tile t).router.malf = min ((s.tile t).router.malf + 1) 0xFFFF := by
  have htl := Tile.takeIntake_tile h
  refine ⟨_, exec_gatherFlitArrival_of_gather h ht hg, ?_⟩
  rw [State.intoGather, if_pos ho, State.tile_modTile, State.tile_modTile]
  exact ⟨htl.part (fun x => x.countMalf.gbufs) fun _ _ => rfl, htl.part (fun x => x.countMalf.router.malf) fun _ _ => rfl⟩

/-- A flit in its window takes its slot. -/
theorem exec_gatherFlitArrival_in (ho : offWindow g.slots g.base f.seq = false)
    (hw : { g with slots := mput g.slots f.seq (f.payload, f.bad) : GBuf }.Waits) (he : g.endSeq ≠ some g.base)
    (hl : (g.base + 4096 - g.told) % 4096 < 16) : ∃ u, exec (.gatherFlitArrival t) s = .next u
      ∧ mfind f.cls (u.tile t).gbufs = some { g with slots := mput g.slots f.seq (f.payload, f.bad) } := by
  refine ⟨_, exec_gatherFlitArrival_of_gather h ht hg, ?_⟩
  have hput : mfind f.cls (((s.modTile t fun _ => tl).modTile t fun tl =>
      { tl with gbufs := mput tl.gbufs f.cls { g with slots := mput g.slots f.seq (f.payload, f.bad) } }).tile t).gbufs
      = some { g with slots := mput g.slots f.seq (f.payload, f.bad) } := by
    rw [State.tile_modTile]
    exact mfind_mput_same ..
  rw [State.intoGather, if_neg (by simp [ho]), State.settleGather_of_told hput hw he hl, hput]

end

/-! A window update. -/

theorem QEntry.toldTracked_spec (e : QEntry) (sq : Nat) :
    (e.toldTracked sq).id = e.id ∧ (e.toldTracked sq).base = (if e.newer sq = true then sq else e.base) ∧ e.pos ≤ (e.toldTracked sq).pos := by
  unfold QEntry.toldTracked
  cases h : e.newer sq <;> simp

/-- An entry that is settled keeps its BASE, its place and what is in flight. -/
theorem Tile.find?_settle {tl : Tile} {q id : Nat} {e : QEntry} (h : (tl.queue q).entries.find? (fun x => x.id == id) = some e) :
    ∃ x, ((tl.settle q id).queue q).entries.find? (fun x => x.id == id) = some x ∧ x.base = e.base ∧ x.pos = e.pos ∧ x.flight = e.flight := by
  obtain rfl : e.id = id := by simpa using List.find?_some h
  refine ⟨_, Tile.find?_modEntry h fun x => ?_, ?_⟩
  · split <;> rfl
  · split <;> exact ⟨rfl, rfl, rfl⟩

/-- The sender's BASE moves on when the update comes from its tracker and is newer. -/
theorem exec_windowUpdateReceipt_of_held {s : State} {t : Nat} {f : Flit} {tl : Tile} {h : Nat × Nat} {e : QEntry}
    (hf : (s.tile t).takeIntake (fun f => f.isResponse 1) = some (f, tl))
    (hh : (mget Port.reset (s.tile t).eps (bits f.payload 107 104)).holder = some h)
    (he : ((s.tile t).queue h.1).entries.find? (fun x => x.id == h.2) = some e) :
    ∃ u x, exec (.windowUpdateReceipt t) s = .next u ∧ ((u.tile t).queue h.1).entries.find? (fun x => x.id == h.2) = some x
      ∧ x.base = (if s.fromTracker t e f = true ∧ e.newer (bits f.payload 119 108) = true then bits f.payload 119 108 else e.base) ∧ e.pos ≤ x.pos
      ∧ (s.fromTracker t e f = false → x.pos = e.pos ∧ x.flight = e.flight) := by
  have htl := Tile.takeIntake_tile hf
  obtain ⟨q, id⟩ := h
  have h1 : (mget Port.reset tl.eps (bits f.payload 107 104)).holder = some (q, id) :=
    (htl.part (fun x => (mget Port.reset x.eps (bits f.payload 107 104)).holder) fun _ _ => rfl).trans hh
  have h2 : (tl.queue q).entries.find? (fun x => x.id == id) = some e :=
    (htl.part (fun x => (x.queue q).entries.find? fun x => x.id == id) fun _ _ => rfl).trans he
  obtain rfl : e.id = id := by simpa using List.find?_some he
  obtain ⟨x, hx, hbase, hpos, hflight⟩ := Tile.find?_settle
    (Tile.find?_modEntry (f := fun x => if s.fromTracker t x f then x.toldTracked (bits f.payload 119 108) else x) h2 fun x => by
      split
      · rw [(x.toldTracked_spec _).1]
      · rfl)
  obtain ⟨-, htold, hle⟩ := e.toldTracked_spec (bits f.payload 119 108)
  have hexec : exec (.windowUpdateReceipt t) s = .next (s.modTile t fun _ => (tl.modEntry q e.id fun x =>
      if s.fromTracker t x f then x.toldTracked (bits f.payload 119 108) else x).settle q e.id) := by
    rw [exec_windowUpdateReceipt, execWindowUpdateReceipt, hf]
    dsimp only
    rw [h1]
  refine ⟨_, x, hexec, ?_, ?_⟩
  · rw [State.tile_modTile]
    exact hx
  · rw [hbase, hpos, hflight]
    cases hfrom : s.fromTracker t e f with
    | true => simp [htold, hle]
    | false => simp

/-! The end of a stream. -/

/-- A tile whose buffer has noted the end of its stream. -/
def Tile.noteEnd (tl : Tile) (port : Nat) (g : GBuf) (sq : Nat) : Tile := { tl with gbufs := mput tl.gbufs port { g with endSeq := some sq } }

section
variable {s : State} {t : Nat} {f : Flit} {tl : Tile} {g : GBuf} (h : (s.tile t).takeIntake (fun f => f.isResponse 2) = some (f, tl))
  (hb : bit f.payload 103 = false) (hg : mfind (bits f.payload 107 104) (s.tile t).gbufs = some g)
include h hb hg

theorem exec_streamEndReceipt_of_gather : exec (.streamEndReceipt t) s = .next
    ((s.modTile t fun _ => tl.noteEnd (bits f.payload 107 104) g (bits f.payload 119 108)).settleGather t (bits f.payload 107 104)) := by
  have h2 : mfind (bits f.payload 107 104) tl.gbufs = some g :=
    ((Tile.takeIntake_tile h).part (fun x => mfind (bits f.payload 107 104) x.gbufs) fun _ _ => rfl).trans hg
  rw [exec_streamEndReceipt, execStreamEndReceipt, h]
  dsimp only
  rw [if_neg (by simp [hb]), h2]
  dsimp only
  rw [State.modTile_modTile]
  rfl

variable (hw : g.Waits)
include hw

/-- A buffer that has released all before the end is freed. -/
theorem exec_streamEndReceipt_at_base (hr : tl.room 1 = true) (he : bits f.payload 119 108 = g.base) (ho : (s.tile t).gate = .open_) :
    ∃ u, exec (.streamEndReceipt t) s = .next u ∧ mfind (bits f.payload 107 104) (u.tile t).gbufs = none := by
  refine ⟨_, exec_streamEndReceipt_of_gather h hb hg, ?_⟩
  have ho' : tl.gate = .open_ := ((Tile.takeIntake_tile h).part Tile.gate fun _ _ => rfl).trans ho
  refine State.settleGather_of_end (g := { g with endSeq := some (bits f.payload 119 108) }) ?_ ⟨hw.resync, hw.beat⟩ (congrArg some he) ?_ ?_
  all_goals rw [State.tile_modTile]
  · exact mfind_mput_same ..
  · exact ho'
  · exact hr

/-- Any other buffer notes the end. -/
theorem exec_streamEndReceipt_beyond (he : bits f.payload 119 108 ≠ g.base) (hl : (g.base + 4096 - g.told) % 4096 < 16) :
    ∃ u, exec (.streamEndReceipt t) s = .next u
      ∧ mfind (bits f.payload 107 104) (u.tile t).gbufs = some { g with endSeq := some (bits f.payload 119 108) } := by
  refine ⟨_, exec_streamEndReceipt_of_gather h hb hg, ?_⟩
  have hput : mfind (bits f.payload 107 104) ((s.modTile t fun _ =>
      tl.noteEnd (bits f.payload 107 104) g (bits f.payload 119 108)).tile t).gbufs = some { g with endSeq := some (bits f.payload 119 108) } := by
    rw [State.tile_modTile]
    exact mfind_mput_same ..
  rw [State.settleGather_of_told hput ⟨hw.resync, hw.beat⟩ (fun e => he (Option.some.inj e)) hl, hput]

end

/-! Poison for a flit that stays missing. -/

/-- A gathering buffer whose first missing flit has come as poison. -/
def GBuf.filled (g : GBuf) : GBuf := { g with slots := mput g.slots ((g.base + missing g.slots g.base) % 4096) (0, true), waited := 0 }

/-- A tile that has put one in the place of a port's buffer. -/
def Tile.fillPoison (port : Nat) (g : GBuf) (tl : Tile) : Tile :=
  { tl with gbufs := mput tl.gbufs port g.filled, router := { tl.router with poisonFill := sat16 tl.router.poisonFill } }

section
variable {s : State} {t port : Nat} {g : GBuf} (hp : port < 16) (hg : mfind port (s.tile t).gbufs = some g) (hw : 2048 ≤ g.waited)
include hp hg hw

theorem exec_poisonFillTimeout_of_gather : exec (.poisonFillTimeout t port) s = .next ((s.modTile t (Tile.fillPoison port g)).settleGather t port) := by
  rw [exec_poisonFillTimeout, execPoisonFillTimeout]
  dsimp only
  rw [if_pos hp, hg]
  exact if_neg (Nat.not_lt.2 hw)

/-- The fill is counted, and where the beat is not complete the flit's slot holds it. -/
theorem exec_poisonFillTimeout_spec : ∃ u, exec (.poisonFillTimeout t port) s = .next u
    ∧ (u.tile t).router.poisonFill = min ((s.tile t).router.poisonFill + 1) 0xFFFF
    ∧ (g.filled.Waits → g.endSeq ≠ some g.base → (g.base + 4096 - g.told) % 4096 < 16 → mfind port (u.tile t).gbufs = some g.filled) := by
  refine ⟨_, exec_poisonFillTimeout_of_gather hp hg hw, ?_, fun hf he hl => ?_⟩
  · have hr := State.sameRouter_settleGather (s.modTile t (Tile.fillPoison port g)) t port
    rw [State.SameRouter, State.tile_modTile] at hr
    exact congrArg Router.poisonFill hr
  · have hput : mfind port ((s.modTile t (Tile.fillPoison port g)).tile t).gbufs = some g.filled := by
      rw [State.tile_modTile]
      exact mfind_mput_same ..
    rw [State.settleGather_of_told hput hf he hl, hput]

end

/-- Settles O52: requests leave the intake and act on their bytes alone; a gathering buffer that waits changes by its flit, its end or its fill, and
an entry by its sender's update. -/
theorem remoteWorkAndStreamFlitsArrive : Obligations.RemoteWorkAndStreamFlitsArrive := by
  unfold Obligations.RemoteWorkAndStreamFlitsArrive
  intro s t f tl
  refine ⟨fun l ht hr hb => ⟨exec_remoteStoreApply_one hb ht hr, fun a b => exec_remoteStoreApply_half hb ht hr⟩,
    fun op ht hr ho hcas h0 => ⟨fun hc => ⟨exec_remoteAtomicApply_performed ht hr hc ho hcas h0, exec_remoteAtomicApply_poisoned ht hr hc⟩,
      exec_remoteAtomicApply_dropped ht hr⟩,
    exec_acknowledgementReceipt_of_taken,
    fun g h ht hg => ⟨exec_gatherFlitArrival_off h ht hg, fun hs ho hb he hl => exec_gatherFlitArrival_in h ht hg ho ⟨hs, hb⟩ he hl⟩,
    fun h e => exec_windowUpdateReceipt_of_held,
    fun g h hr hb hg hbeat hs => ⟨exec_streamEndReceipt_at_base h hb hg ⟨hs, hbeat⟩ hr, exec_streamEndReceipt_beyond h hb hg ⟨hs, hbeat⟩⟩,
    fun port g hp hg hw => ?_⟩
  obtain ⟨u, hu, hcount, hfill⟩ := exec_poisonFillTimeout_spec hp hg hw
  exact ⟨u, hu, hcount, fun hs hb => hfill ⟨hs, hb⟩⟩

end Sys2Proof.Machine
end
